-- ==== Sys2Proof/Word.lean ====
section
/-! DEFINITION. The word types of the machine. -/

namespace Sys2Proof

/-- A lane or uniform register (R16). -/
abbrev Word := BitVec 32

/-- A pair of registers, an address, a 64-bit register (R28). -/
abbrev DWord := BitVec 64

/-- One byte of memory. -/
abbrev Byte := BitVec 8

end Sys2Proof
end

