-- ==== Sys2Proof/Syntax.lean ====
section
/-! DEFINITION. Syntax of the Nalfy instructions (R29-R47 and each card) and of the device's own steps (file 95).

One constructor per row of the opcode table. Operand fields hold what the decoder read: a register, a special
operand, a constant. Events carry the data that choose among what the spec leaves open (which request moves, what
another chip or the host sends). -/

namespace Sys2Proof
/-- 32-bit integer types of an integer card (R33, R51). -/
inductive STy where
  | i32 | n32
  deriving DecidableEq, Repr
/-- Integer types (R33, R51). -/
inductive ITy where
  | i32 | n32 | i64 | n64
  deriving DecidableEq, Repr
/-- Scalar float types (R33, R67). -/
inductive FTy where
  | f32 | f16 | bf16 | e4m3
  deriving DecidableEq, Repr
/-- Packed half types (R33). -/
inductive PTy where
  | f16x2 | bf16x2
  deriving DecidableEq, Repr
/-- Rounding modes (R33). -/
inductive Rm where
  | rn | rz | ru | rd
  deriving DecidableEq, Repr
/-- Memory scopes (R15, R34). -/
inductive Scope where
  | wg | cl | die | dev | sys
  deriving DecidableEq, Repr
/-- Scopes of cbar; wg is not one (R167). -/
inductive CScope where
  | cl | die | dev | sys
  deriving DecidableEq, Repr
/-- Retention hints (R34). -/
inductive Hint where
  | dflt | strm | stky | byp
  deriving DecidableEq, Repr
/-- Access sizes (R34). -/
inductive Size where
  | byte | half | word | double | quad
  deriving DecidableEq, Repr
/-- Comparisons of iset (R60). -/
inductive ICmp where
  | eq | ne | lt | le | gt | ge
  deriving DecidableEq, Repr
/-- Functions of pset (R61). -/
inductive PFn where
  | and | or | xor | andn | orn | nand | nor | xnor
  deriving DecidableEq, Repr
/-- Comparisons of fset (R74). -/
inductive FCmp where
  | eq | ne | lt | le | gt | ge | uo | ord
  deriving DecidableEq, Repr
/-- Reduction kinds of a convergence register (R96). -/
inductive RKind where
  | add | minI | maxI | minN | maxN | and | or
  deriving DecidableEq, Repr
/-- Integer atomic operations (R147). -/
inductive AOp where
  | add | and | or | xor | min | max | exch | inc | dec
  deriving DecidableEq, Repr
/-- Float atomic operations (R147). -/
inductive AFOp where
  | add | min | max | exch
  deriving DecidableEq, Repr
/-- Conditions of waita (R150). -/
inductive WCmp where
  | eq | ne | lt | ge
  deriving DecidableEq, Repr
/-- Fence kinds (R162). -/
inductive FKind where
  | acq | rel | ar | sc
  deriving DecidableEq, Repr
/-- Selector of the k guard (R188, R190). -/
inductive KSel where
  | off | a | b | d
  deriving DecidableEq, Repr
/-- Formats of tmma and tmmau (R190). -/
inductive MFmt where
  | bf16 | f16 | e4m3
  deriving DecidableEq, Repr
/-- Formats of tperm, ttrn and trsum (R190). -/
inductive HFmt where
  | bf16 | f16
  deriving DecidableEq, Repr
/-- Formats of tlda (R190). -/
inductive LFmt where
  | f32 | bf16 | f16
  deriving DecidableEq, Repr
/-- Formats of tsta (R190). -/
inductive SFmt where
  | f32 | bf16 | f16 | e4m3
  deriving DecidableEq, Repr
/-- Functions of tpred (R198). -/
inductive TPFn where
  | set | or | andn | rd
  deriving DecidableEq, Repr
/-- System registers (R264). -/
inductive SysReg where
  | fpflags | ctl | cancel | ptroot | vwbase | slotbase | stoparea | ctximg | ctxlen | state | evq | evhead | evtail | evlost | faultack | sfways | frzctl | xlinv
  deriving DecidableEq, Repr
/-- Counter levels (R281). -/
inductive Level where
  | launch | graph | phase | job
  deriving DecidableEq, Repr
/-- Counter words (R281). -/
inductive CWord where
  | done | total | flags
  deriving DecidableEq, Repr
/-- A register of the operand space that can be a destination or name a pair (R35). -/
inductive Reg where
  | v (n : Nat) | w (n : Nat)
  deriving DecidableEq, Repr

/-- A source operand (R35): a lane register, a uniform register, special operand 448 + k, or the constant n. -/
inductive Src where
  | v (n : Nat) | w (n : Nat) | sp (k : Nat) | c (n : Nat)
  deriving DecidableEq, Repr

/-- Stall count, guard predicate and guard negation of a full word (R29, R30, R42). -/
structure Hdr where
  stall : Nat
  g : Nat
  gn : Bool
  deriving DecidableEq, Repr

/-- Conversions of cvt (R82): float to float, integer to float, float to integer. -/
inductive Cvt where
  | ff (dst src : FTy) | ofInt (src : ITy) (dst : FTy) | toInt (dst : ITy) (src : FTy)
  deriving DecidableEq, Repr

/-- One slot of a pair word (R39): its raw fields. -/
structure Slot where
  op : Nat
  d : Nat
  s : Nat
  m : Nat
  deriving DecidableEq, Repr

/-- Accesses that a translation can be asked for (R103, R107). -/
inductive Acc where
  | read | write | rmw | fetch | prefetch
  deriving DecidableEq, Repr

/-- Places where an uncorrectable error can be detected (R119, R303); slice: a word of the slice of a die, of its data or of
its tables, that belongs to a line; unit: a word of a unit that no request names. -/
inductive ErrPlace where
  | reg (core slot tid v : Nat) | line (core slot tid : Nat) | tile (core slot off : Nat) | acc (core slot t i : Nat)
  | sector (pa : Nat) | cache (core ia : Nat) | lease (id : Nat) | slice (die ctx ia : Nat) | unit (k : Nat)
  deriving DecidableEq, Repr

/-- An element of the list that a get through a remote view of another chip carries (R141): its offset in the window and
its bytes, and for a gather element the window offset and size of its index, whose value times a stride is added. -/
structure FarElem where
  off : Nat
  n : Nat
  idx : Option (Nat × Nat × Nat)
  deriving DecidableEq, Repr

/-- What a get from another chip asks for: bytes at its window offset, or its list of elements (R141). -/
structure FarAsk where
  len : Nat
  elems : List FarElem
  deriving DecidableEq, Repr

/-- A stack's temperature (R263). -/
structure StackTemp where
  stack : Nat
  temp : Nat
  deriving DecidableEq, Repr

/-- A port's replay and whether it succeeded (R294). -/
structure PortReplay where
  port : Nat
  good : Bool
  deriving DecidableEq, Repr

/-- Security versions of the firmware, the configuration and the repair list (R305, R306). -/
structure Versions where
  fw : Nat
  cfg : Nat
  repair : Nat
  deriving DecidableEq, Repr

/-- Instructions and events, one constructor per row of the opcode table. -/
inductive Instr where
  | iadd (h : Hdr) (ty : STy) (d : Reg) (a b : Src)   -- IADD R52
  | iaddi (h : Hdr) (d : Reg) (a : Src) (imm : Nat)   -- IADDI R51
  | isub (h : Hdr) (ty : STy) (d : Reg) (a b : Src)   -- ISUB R52
  | imul (h : Hdr) (ty : STy) (d : Reg) (a b : Src)   -- IMUL R52
  | imulh (h : Hdr) (ty : STy) (d : Reg) (a b : Src)   -- IMULH R55
  | imad (h : Hdr) (ty : STy) (d : Reg) (a b c : Src)   -- IMAD R55
  | imadw (h : Hdr) (ty : STy) (d : Reg) (a b : Src) (c : Option Reg)   -- IMADW R55
  | iadd64 (h : Hdr) (sub : Bool) (d a b : Reg)   -- IADD64 R65
  | imin (h : Hdr) (ty : ITy) (d : Reg) (a b : Src)   -- IMIN R52
  | imax (h : Hdr) (ty : ITy) (d : Reg) (a b : Src)   -- IMAX R52
  | iabs (h : Hdr) (d : Reg) (a : Src)   -- IABS R57
  | and (h : Hdr) (ty : ITy) (d : Reg) (a b : Src)   -- AND R52
  | or (h : Hdr) (ty : ITy) (d : Reg) (a b : Src)   -- OR R52
  | xor (h : Hdr) (ty : ITy) (d : Reg) (a b : Src)   -- XOR R52
  | andi (h : Hdr) (d : Reg) (a : Src) (imm : Nat)   -- ANDI R51
  | ori (h : Hdr) (d : Reg) (a : Src) (imm : Nat)   -- ORI R51
  | xori (h : Hdr) (d : Reg) (a : Src) (imm : Nat)   -- XORI R51
  | shl (h : Hdr) (ty : ITy) (d : Reg) (a b : Src)   -- SHL R53
  | shr (h : Hdr) (ty : ITy) (d : Reg) (a b : Src)   -- SHR R53
  | sar (h : Hdr) (ty : ITy) (d : Reg) (a b : Src)   -- SAR R53
  | shli (h : Hdr) (d : Reg) (a : Src) (imm : Nat)   -- SHLI R51
  | shri (h : Hdr) (d : Reg) (a : Src) (imm : Nat)   -- SHRI R51
  | sari (h : Hdr) (d : Reg) (a : Src) (imm : Nat)   -- SARI R51
  | rotl (h : Hdr) (ty : STy) (d : Reg) (a b : Src)   -- ROTL R52
  | bfe (h : Hdr) (ty : STy) (d : Reg) (a b c : Src)   -- BFE R58
  | bfi (h : Hdr) (d : Reg) (a b c : Src)   -- BFI R58
  | popc (h : Hdr) (d : Reg) (a : Src)   -- POPC R57
  | clz (h : Hdr) (d : Reg) (a : Src)   -- CLZ R57
  | brev (h : Hdr) (d : Reg) (a : Src)   -- BREV R57
  | sel (h : Hdr) (ty : ITy) (pn : Nat) (inv : Bool) (d : Reg) (a b : Src)   -- SEL R59
  | iset (h : Hdr) (ty : ITy) (cmp : ICmp) (d : Nat) (a b : Src)   -- ISET R60
  | pset (h : Hdr) (fn : PFn) (d a b : Nat)   -- PSET R61
  | mov (h : Hdr) (ty : ITy) (d : Reg) (a : Src)   -- MOV R64
  | movi (h : Hdr) (d : Reg) (imm : Nat)   -- MOVI R51
  | movh (h : Hdr) (d : Reg) (a : Src) (imm : Nat)   -- MOVH R51
  | lea (h : Hdr) (d : Reg) (a b c : Src)   -- LEA R65
  | lea64 (h : Hdr) (ty : STy) (d a : Reg) (b c : Src)   -- LEA64 R65
  | idiv (h : Hdr) (ty : STy) (d : Reg) (a b : Src)   -- IDIV R56
  | irem (h : Hdr) (ty : STy) (d : Reg) (a b : Src)   -- IREM R56
  | p2v (h : Hdr) (d : Reg)   -- P2V R62
  | v2p (h : Hdr) (a b : Src)   -- V2P R62
  | fadd (h : Hdr) (rm : Rm) (d : Reg) (a b : Src)   -- FADD R76
  | fsub (h : Hdr) (rm : Rm) (d : Reg) (a b : Src)   -- FSUB R76
  | fmul (h : Hdr) (rm : Rm) (d : Reg) (a b : Src)   -- FMUL R76
  | ffma (h : Hdr) (rm : Rm) (d : Reg) (a b c : Src)   -- FFMA R76
  | fmin (h : Hdr) (d : Reg) (a b : Src)   -- FMIN R73
  | fmax (h : Hdr) (d : Reg) (a b : Src)   -- FMAX R73
  | famax (h : Hdr) (d : Reg) (a b : Src)   -- FAMAX R73
  | fneg (h : Hdr) (d : Reg) (a : Src)   -- FNEG R73
  | fabs (h : Hdr) (d : Reg) (a : Src)   -- FABS R73
  | fset (h : Hdr) (cmp : FCmp) (d : Nat) (a b : Src)   -- FSET R74
  | frcp (h : Hdr) (d : Reg) (a : Src)   -- FRCP R77
  | frsq (h : Hdr) (d : Reg) (a : Src)   -- FRSQ R77
  | fsqrt (h : Hdr) (rm : Rm) (d : Reg) (a : Src)   -- FSQRT R79
  | fex2 (h : Hdr) (d : Reg) (a : Src)   -- FEX2 R77
  | flg2 (h : Hdr) (d : Reg) (a : Src)   -- FLG2 R77
  | fsin (h : Hdr) (d : Reg) (a : Src)   -- FSIN R77
  | fcos (h : Hdr) (d : Reg) (a : Src)   -- FCOS R77
  | fscale (h : Hdr) (rm : Rm) (d : Reg) (a b : Src)   -- FSCALE R76
  | frnd (h : Hdr) (rm : Rm) (d : Reg) (a : Src)   -- FRND R76
  | fclass (h : Hdr) (ft : FTy) (d : Reg) (a : Src)   -- FCLASS R75
  | hadd2 (h : Hdr) (rm : Rm) (d : Reg) (a b : Src)   -- HADD2 R80
  | hmul2 (h : Hdr) (rm : Rm) (d : Reg) (a b : Src)   -- HMUL2 R80
  | hfma2 (h : Hdr) (rm : Rm) (d : Reg) (a b c : Src)   -- HFMA2 R80
  | badd2 (h : Hdr) (rm : Rm) (d : Reg) (a b : Src)   -- BADD2 R80
  | bmul2 (h : Hdr) (rm : Rm) (d : Reg) (a b : Src)   -- BMUL2 R80
  | bfma2 (h : Hdr) (rm : Rm) (d : Reg) (a b c : Src)   -- BFMA2 R80
  | hmnx2 (h : Hdr) (mx : Bool) (d : Reg) (a b : Src)   -- HMNX2 R80
  | bmnx2 (h : Hdr) (mx : Bool) (d : Reg) (a b : Src)   -- BMNX2 R80
  | cvt (h : Hdr) (cv : Cvt) (ns : Bool) (rm : Rm) (d : Reg) (a : Src)   -- CVT R82
  | cvtp (h : Hdr) (pt : PTy) (rm : Rm) (d : Reg) (a b : Src)   -- CVTP R84
  | e4pk (h : Hdr) (hi ns : Bool) (d : Reg) (a b c : Src)   -- E4PK R85
  | e4up (h : Hdr) (byte : Nat) (d : Reg) (a : Src)   -- E4UP R86
  | fdot2 (h : Hdr) (pt : PTy) (rm : Rm) (d : Reg) (a b c : Src)   -- FDOT2 R81
  | pair (stall : Nat) (x y : Slot)   -- PAIR R39
  | nop (h : Hdr)   -- NOP R99
  | bra (h : Hdr) (imm : Nat)   -- BRA R94
  | brx (h : Hdr) (a : Reg) (b : Src)   -- BRX R94
  | call (h : Hdr) (d imm : Nat)   -- CALL R94
  | ret (h : Hdr) (a : Reg)   -- RET R94
  | exit (h : Hdr)   -- EXIT R95
  | sign (h : Hdr) (cn : Nat)   -- SIGN R97
  | join (h : Hdr) (cn : Nat)   -- JOIN R97
  | joinr (h : Hdr) (cn d : Nat) (a : Src)   -- JOINR R97
  | cdecl (h : Hdr) (cn : Nat) (kind : RKind) (a : Src)   -- CDECL R97
  | yield (h : Hdr)   -- YIELD R97
  | sleep (h : Hdr) (a : Src)   -- SLEEP R97
  | brk (h : Hdr) (code : Nat)   -- BRK R99
  | isync (h : Hdr)   -- ISYNC R101
  | icinv (h : Hdr) (sc : Scope) (a : Reg) (b : Src)   -- ICINV R101
  | trap (h : Hdr) (a : Src)   -- TRAP R99
  | ld (h : Hdr) (sc : Scope) (hn : Hint) (sx : Bool) (sz : Size) (d : Nat) (a : Reg) (b : Src)   -- LD R122
  | st (h : Hdr) (sc : Scope) (hn : Hint) (sz : Size) (a : Reg) (b c : Src)   -- ST R123
  | lda (h : Hdr) (sc : Scope) (hn : Hint) (sx : Bool) (sz : Size) (d : Nat) (a : Reg) (b : Src)   -- LDA R122
  | strl (h : Hdr) (sc : Scope) (hn : Hint) (sz : Size) (a : Reg) (b c : Src)   -- STRL R123
  | ldt (h : Hdr) (sx : Bool) (sz : Size) (d : Nat) (a b : Src)   -- LDT R125
  | stt (h : Hdr) (sz : Size) (a b c : Src)   -- STT R125
  | pref (h : Hdr) (sc : Scope) (hn : Hint) (a : Reg) (b : Src)   -- PREF R124
  | cwb (h : Hdr) (sc : Scope) (a : Reg) (b : Src)   -- CWB R124
  | cinv (h : Hdr) (sc : Scope) (a : Reg) (b : Src)   -- CINV R124
  | chint (h : Hdr) (hn : Hint) (a : Reg) (b : Src)   -- CHINT R124
  | own (h : Hdr) (d : Nat) (a : Src)   -- OWN R126
  | tgive (h : Hdr) (a b : Src)   -- TGIVE R126
  | ttake (h : Hdr) (a b : Src)   -- TTAKE R126
  | vset (h : Hdr) (slot : Nat) (d : Option Nat) (a : Reg) (b : Src)   -- VSET R143
  | vclr (h : Hdr) (slot : Nat)   -- VCLR R144
  | vqry (h : Hdr) (slot d : Nat) (a : Src)   -- VQRY R144
  | vaddrIa (h : Hdr) (d a : Reg) (b : Src)   -- VADDR_IA R144
  | vaddrVa (h : Hdr) (d a : Reg) (b : Src)   -- VADDR_VA R144
  | vfill (h : Hdr) (slot : Nat) (a : Src)   -- VFILL R144
  | atom (h : Hdr) (op : AOp) (ty : ITy) (sc : Scope) (d a : Reg) (b c : Src)   -- ATOM R148
  | acas (h : Hdr) (ty : ITy) (sc : Scope) (d a : Reg) (b : Src) (c : Nat)   -- ACAS R148
  | atomf (h : Hdr) (op : AFOp) (sc : Scope) (d : Nat) (a : Reg) (b c : Src)   -- ATOMF R148
  | red (h : Hdr) (op : AOp) (ty : ITy) (sc : Scope) (a : Reg) (b c : Src)   -- RED R148
  | redf (h : Hdr) (op : AFOp) (sc : Scope) (a : Reg) (b c : Src)   -- REDF R148
  | lease (h : Hdr) (d : Nat) (a : Reg) (b : Src)   -- LEASE R154
  | lrel (h : Hdr) (d : Nat) (a : Reg)   -- LREL R156
  | lchk (h : Hdr) (d : Nat) (a : Reg)   -- LCHK R156
  | waita (h : Hdr) (cmp : WCmp) (ty : STy) (sc : Scope) (d : Nat) (a : Reg) (b : Src) (c : Reg)   -- WAITA R150
  | awinit (h : Hdr) (a b : Src)   -- AWINIT R152
  | awadd (h : Hdr) (d : Option Nat) (a b : Src)   -- AWADD R152
  | awwait (h : Hdr) (d : Option Nat) (a b : Src)   -- AWWAIT R152
  | fence (h : Hdr) (kind : FKind) (sc : Scope)   -- FENCE R163
  | barSync (h : Hdr) (sc : Scope) (bn : Nat) (a : Src)   -- BAR_SYNC R166
  | barArrive (h : Hdr) (sc : Scope) (bn : Nat) (a : Src)   -- BAR_ARRIVE R166
  | barWait (h : Hdr) (sc : Scope) (bn : Nat)   -- BAR_WAIT R166
  | cbarSync (h : Hdr) (sc : CScope) (bn : Nat) (a : Src)   -- CBAR_SYNC R167
  | cbarArrive (h : Hdr) (sc : CScope) (bn : Nat) (a : Src)   -- CBAR_ARRIVE R167
  | cbarWait (h : Hdr) (sc : CScope) (bn : Nat)   -- CBAR_WAIT R167
  | efence (h : Hdr)   -- EFENCE R168
  | tmma (h : Hdr) (fmt : MFmt) (sn : Nat) (kg : KSel) (kn d : Nat) (a b : Src) (c : Option Nat)   -- TMMA R192
  | tmmau (h : Hdr) (fmt : MFmt) (sn : Nat) (kg : KSel) (kn d : Nat) (a b : Src) (c : Option Nat)   -- TMMAU R194
  | tperm (h : Hdr) (fmt : HFmt) (kg : KSel) (kn d : Nat) (a b : Src) (c : Option Nat)   -- TPERM R195
  | ttrn (h : Hdr) (fmt : HFmt) (kg : KSel) (kn d : Nat) (a : Src) (c : Option Nat)   -- TTRN R195
  | trsum (h : Hdr) (fmt : HFmt) (col : Bool) (kg : KSel) (kn d : Nat) (a : Src) (c : Option Nat)   -- TRSUM R195
  | tzero (h : Hdr) (kg : KSel) (kn d : Nat) (c : Option Nat)   -- TZERO R196
  | tlda (h : Hdr) (fmt : LFmt) (kg : KSel) (kn d : Nat) (a : Src) (c : Option Nat)   -- TLDA R196
  | tsta (h : Hdr) (fmt : SFmt) (sn : Nat) (kg : KSel) (kn d : Nat) (a b : Src) (c : Option Nat)   -- TSTA R196
  | tcommit (h : Hdr) (gn : Nat)   -- TCOMMIT R201
  | twait (h : Hdr) (gn : Nat) (d : Option Nat)   -- TWAIT R201
  | ttest (h : Hdr) (gn d : Nat)   -- TTEST R201
  | tscl (h : Hdr) (sb : Bool) (idx : Nat) (a : Src)   -- TSCL R197
  | tpred (h : Hdr) (fn : TPFn) (kn : Nat) (d a : Option Reg)   -- TPRED R198
  | tcls (h : Hdr) (d : Option Nat) (a : Src)   -- TCLS R199
  | tcancel (h : Hdr) (gn : Nat) (d : Option Nat)   -- TCANCEL R201
  | dslot (h : Hdr) (d : Option Nat) (a : Src)   -- DSLOT R224
  | dmul (h : Hdr) (d : Nat) (a b : Src) (c : Option Nat)   -- DMUL R218
  | dfresh (h : Hdr) (a : Src)   -- DFRESH R225
  | dinval (h : Hdr) (d : Option Nat) (a : Src)   -- DINVAL R225
  | dstat (h : Hdr) (d : Nat) (a b : Src)   -- DSTAT R225
  | cpy (h : Hdr) (d : Option Reg) (a b : Src)   -- CPY R236
  | cpyx (h : Hdr) (d : Option Reg) (a b : Src)   -- CPYX R238
  | cpyk (h : Hdr) (d : Option Reg) (a b : Src)   -- CPYK R238
  | cpyz (h : Hdr) (d : Option Reg) (a b : Src)   -- CPYZ R239
  | bsopen (h : Hdr) (d : Option Reg) (a b : Src)   -- BSOPEN R240
  | bsrow (h : Hdr) (d : Option Reg) (a b : Src)   -- BSROW R240
  | bsclose (h : Hdr) (d : Option Reg) (a : Src)   -- BSCLOSE R240
  | cstat (h : Hdr) (d : Option Reg) (a b : Src)   -- CSTAT R234
  | bkon (h : Hdr) (d : Option Reg) (a b : Src)   -- BKON R242
  | bkoff (h : Hdr) (d : Option Reg) (a : Src)   -- BKOFF R242
  | bkact (h : Hdr) (d : Option Reg) (a b : Src)   -- BKACT R242
  | bkbc (h : Hdr) (d : Option Reg) (a b : Src)   -- BKBC R242
  | bkmac (h : Hdr) (d : Option Reg) (a b : Src)   -- BKMAC R242
  | bkred (h : Hdr) (d : Option Reg) (a b : Src)   -- BKRED R242
  | bkrd (h : Hdr) (d : Option Reg) (a b : Src)   -- BKRD R242
  | bkclr (h : Hdr) (d : Option Reg) (a b : Src)   -- BKCLR R242
  | maxpy (h : Hdr) (d : Option Reg) (a b : Src)   -- MAXPY R244
  | mscal (h : Hdr) (d : Option Reg) (a b : Src)   -- MSCAL R244
  | msum (h : Hdr) (d : Option Reg) (a b : Src)   -- MSUM R244
  | mfill (h : Hdr) (d : Option Reg) (a b : Src)   -- MFILL R244
  | fput (h : Hdr) (d : Option Reg) (a b : Src)   -- FPUT R246
  | fputs (h : Hdr) (d : Option Reg) (a b : Src)   -- FPUTS R246
  | fget (h : Hdr) (d : Option Reg) (a b : Src)   -- FGET R246
  | wcnt (h : Hdr) (d : Option Reg) (a b : Src)   -- WCNT R246
  | srd (h : Hdr) (num : SysReg) (ot : Bool) (d : Reg) (a : Src)   -- SRD R268
  | swr (h : Hdr) (num : SysReg) (ot : Bool) (a b : Src)   -- SWR R268
  | rgset (h : Hdr) (a b : Src) (c : Nat)   -- RGSET R269
  | ctxswOut (h : Hdr) (d : Option Nat) (a : Src)   -- CTXSW_OUT R270
  | ctxswIn (h : Hdr) (d : Option Nat) (a : Src)   -- CTXSW_IN R270
  | ctxswDrop (h : Hdr) (d : Option Nat) (a : Src)   -- CTXSW_DROP R270
  | pzap (h : Hdr) (sc : Scope) (a : Reg) (b : Src)   -- PZAP R271
  | launch (h : Hdr) (d : Option Nat) (a : Reg) (b : Src)   -- LAUNCH R281
  | cancel (h : Hdr) (hard : Bool) (lvl : Level) (a : Src)   -- CANCEL R280
  | cntr (h : Hdr) (free : Bool) (word : CWord) (lvl : Level) (d : Reg) (a : Src)   -- CNTR R281
  | time (h : Hdr) (d : Nat)   -- TIME R281
  | waitt (h : Hdr) (a : Reg)   -- WAITT R281
  | perf (h : Hdr) (clr : Bool) (d : Reg) (a : Src)   -- PERF R272
  | stopr (h : Hdr) (d : Nat) (a : Src)   -- STOPR R270
  | halt (h : Hdr) (code : Nat) (d : Option Nat) (a : Src)   -- HALT R270
  | resume (h : Hdr) (d : Option Nat) (a : Src)   -- RESUME R270
  | collieSelect (core q : Nat)   -- COLLIE_SELECT
  | yieldExpiry (core slot tid : Nat)   -- YIELD_EXPIRY
  | sleepExpiry (core slot tid : Nat)   -- SLEEP_EXPIRY
  | waittDeadline (core slot tid : Nat)   -- WAITT_DEADLINE
  | barrierArrivalApply (core slot tid : Nat)   -- BARRIER_ARRIVAL_APPLY
  | scoreboardResultArrive (id : Nat)   -- SCOREBOARD_RESULT_ARRIVE
  | ifetchFill (core slot tid : Nat)   -- IFETCH_FILL
  | registerCacheFill (core slot tid : Nat)   -- REGISTER_CACHE_FILL
  | homeReadRequest (id sec : Nat)   -- HOME_READ_REQUEST
  | writeArrival (id : Nat)   -- WRITE_ARRIVAL
  | writeComplete (id : Nat)   -- WRITE_COMPLETE
  | tenureExpiry (core ctx sec : Nat)   -- TENURE_EXPIRY
  | loadDataReturn (id : Nat)   -- LOAD_DATA_RETURN
  | viewCompose (id : Nat)   -- VIEW_COMPOSE
  | pageWalk (die ctrl ctx ia : Nat) (acc : Acc)   -- PAGE_WALK
  | sideLogRetire (id : Nat)   -- SIDE_LOG_RETIRE
  | sideLogReplay (core seq : Nat)   -- SIDE_LOG_REPLAY
  | retryResend (id : Nat)   -- RETRY_RESEND
  | atomicExecute (id : Nat)   -- ATOMIC_EXECUTE
  | msuExecute (id : Nat)   -- MSU_EXECUTE
  | waitaTimeout (id : Nat)   -- WAITA_TIMEOUT
  | leaseRequestArrive (id : Nat)   -- LEASE_REQUEST_ARRIVE
  | leaseGrant (id : Nat)   -- LEASE_GRANT
  | leaseExpiry (id : Nat)   -- LEASE_EXPIRY
  | leaseDrainComplete (id : Nat)   -- LEASE_DRAIN_COMPLETE
  | dirRds (ctx line die : Nat)   -- DIR_RDS
  | dirRdx (ctx line die : Nat)   -- DIR_RDX
  | dirWriteback (ctx line : Nat)   -- DIR_WRITEBACK
  | dirWritebackKeep (ctx line : Nat)   -- DIR_WRITEBACK_KEEP
  | dirCleanEviction (ctx line : Nat)   -- DIR_CLEAN_EVICTION
  | visitorProbe (ctx line die : Nat)   -- VISITOR_PROBE
  | visitorAck (ctx line die : Nat)   -- VISITOR_ACK
  | dirAckReceive (ctx line die : Nat)   -- DIR_ACK_RECEIVE
  | hostMemRead (ctx ia cache : Nat)   -- HOST_MEM_READ
  | hostMemWrite (ctx ia : Nat) (data : List (BitVec 8))   -- HOST_MEM_WRITE
  | bisnpResponse (ctx line : Nat) (data : List (BitVec 8))   -- BISNP_RESPONSE
  | hostSnoop (line : Nat) (inv : Bool)   -- HOST_SNOOP
  | hostSnoopTimeout (die : Nat)   -- HOST_SNOOP_TIMEOUT
  | uncorrectableStateError (core slot : Nat)   -- UNCORRECTABLE_STATE_ERROR
  | haltComplete (ctx : Nat)   -- HALT_COMPLETE
  | freezeEnd (temp : Nat)   -- FREEZE_END
  | freezeBound   -- FREEZE_BOUND
  | throttleEnd (reading : StackTemp)   -- THROTTLE_END
  | matrixGrant (core : Nat)   -- MATRIX_GRANT
  | matrixClassAging (core idx : Nat)   -- MATRIX_CLASS_AGING
  | matrixEntryComplete (core idx : Nat)   -- MATRIX_ENTRY_COMPLETE
  | deltaWriteback (core idx : Nat)   -- DELTA_WRITEBACK
  | cmdAccept (id : Nat)   -- CMD_ACCEPT
  | engineCommandComplete (id : Nat)   -- ENGINE_COMMAND_COMPLETE
  | bstreamForcedClose (core tok : Nat)   -- BSTREAM_FORCED_CLOSE
  | bankSessionIdleEnd (core tok : Nat)   -- BANK_SESSION_IDLE_END
  | putArrive (chip exp wof : Nat) (right : Bool) (size : Nat) (data : List (BitVec 8)) (poi : Bool) (sig : Option (Nat × BitVec 32))   -- PUT_ARRIVE
  | putAck (id bytes code : Nat)   -- PUT_ACK
  | flitReplay (replay : PortReplay)   -- FLIT_REPLAY
  | ptpMessage (time : Nat)   -- PTP_MESSAGE
  | qtailWrite (q : Nat) (val : BitVec 32)   -- QTAIL_WRITE
  | qtailReset (q : Nat) (val : BitVec 32)   -- QTAIL_RESET
  | qerrClear (q : Nat)   -- QERR_CLEAR
  | packetTake (q : Nat)   -- PACKET_TAKE
  | launchStart (q : Nat)   -- LAUNCH_START
  | wgPlace (ctx lid core : Nat)   -- WG_PLACE
  | wgComplete (core slot : Nat)   -- WG_COMPLETE
  | faultackMap (val : BitVec 64)   -- FAULTACK_MAP
  | faultackUnmappable (val : BitVec 64)   -- FAULTACK_UNMAPPABLE
  | xlinvWrite (val : BitVec 64)   -- XLINV_WRITE
  | xlinvDone   -- XLINV_DONE
  | evtailWrite (val : BitVec 32)   -- EVTAIL_WRITE
  | evlostClear   -- EVLOST_CLEAR
  | winsyncWrite (ctx : Nat)   -- WINSYNC_WRITE
  | expsyncWrite   -- EXPSYNC_WRITE
  | patsetWrite (val : BitVec 64)   -- PATSET_WRITE
  | diectlRst (die : Nat)   -- DIECTL_RST
  | diectlGate (die : Nat)   -- DIECTL_GATE
  | diectlUngate (die : Nat)   -- DIECTL_UNGATE
  | dieReenter (die : Nat) (ok : Bool)   -- DIE_REENTER
  | dieFail (die : Nat)   -- DIE_FAIL
  | errorDetect (place : ErrPlace) (corrected : Bool)   -- ERROR_DETECT
  | selfTestDone (outcome : Nat)   -- SELF_TEST_DONE
  | accessTableWrite (master idx : Nat) (base limit : BitVec 64)   -- ACCESS_TABLE_WRITE
  | powerOnBoot (fw cfg repair : Bool) (versions : Versions)   -- POWER_ON_BOOT
  | attestationRequest (nonce : BitVec 256)   -- ATTESTATION_REQUEST
  | registerWrite (off width : Nat) (val : BitVec 64)   -- REGISTER_WRITE
  | icinvComplete (id : Nat)   -- ICINV_COMPLETE
  | contextCreation (ctx : Nat)   -- CONTEXT_CREATION
  | partitionReturn (core slot : Nat)   -- PARTITION_RETURN
  | remoteGetArrive (chip exp wof : Nat) (right : Bool) (size : Nat) (ask : FarAsk)   -- REMOTE_GET_ARRIVE
  | portRetrainComplete (port : Nat)   -- PORT_RETRAIN_COMPLETE
  | doeIdeKeySet (stream : Nat) (key : BitVec 256)   -- DOE_IDE_KEY_SET
  | contextEvict (core slot : Nat)   -- CONTEXT_EVICT
  | freezeStart (stack : Nat)   -- FREEZE_START
  | trapTaken (core slot : Nat)   -- TRAP_TAKEN
  | unitStop (ctx unit : Nat)   -- UNIT_STOP
  deriving DecidableEq, Repr

/-- What the model does at a free point (log 1): an event of the device; time moving on by one core cycle, with what the
PTP time unit gains meanwhile, in steps of 2^-16 ns; or a host read of BAR0 (R288). -/
inductive Move where
  | act (i : Instr) | tick (ptp : Nat) | read (off width : Nat)
  deriving DecidableEq, Repr, Inhabited

end Sys2Proof
end

