-- ==== Sys2Proof/Config.lean ====
section
/-! DEFINITION. Free values: what the spec leaves open and the model does not choose. Each is a constant with no body,
so nothing can be proved of its value (log 1, 4, 5, 11, 12). -/

namespace Sys2Proof.Config

/-- The move at the n-th free point (log 1). -/
opaque freeMove : Nat → Move

/-- Offset, in units in the last place, of a special function's result inside its bound (R77, log 4): function, bits of
the operand. -/
opaque special : Nat → BitVec 32 → Nat

/-- fsin and fcos of operands beyond 2^10 pi: some value in [-1, 1] (R77, log 4). -/
opaque farSine : Nat → BitVec 32 → BitVec 32

/-- Cycles of its window after which a reader sees a write to a workgroup register (R38, log 5): cycle of issue,
reading thread, register. -/
opaque wVisible : Nat → Nat → Nat → Nat

/-- Early read with chk = 0 (R45, log 5): true reads the new value. By cycle, thread and register. -/
opaque earlyNew : Nat → Nat → Nat → Bool

/-- SHAKE256 digest of a byte string (R305, R306, log 11). -/
opaque shake : List (BitVec 8) → BitVec 256

/-- Signature of a report under the device identity key (R306, log 11). -/
opaque sign : List (BitVec 256) → BitVec 256

/-- Bytes of the n-th firmware, configuration and repair images (R305, log 11). -/
opaque image : Nat → List (BitVec 8)

/-- Byte k that the n-th read from another chip returns, and whether it is poisoned (R137, R141, R246, log 12). -/
opaque farByte : Nat → Nat → BitVec 8
opaque farPoison : Nat → Nat → Bool

/-- How another chip answers the n-th try of a get: 0 data, 1 refused with retry-after, 2 refused, 3 its export is gone, 4 a
gather index is poisoned there (R117, R137, R141, R231, log 12). By request or command id. -/
opaque farAnswer : Nat → Nat → Nat

/-- One less than the writes that a core's write queue holds (R118, log 69). -/
opaque writeQueue : Nat

/-- How far a command goes before its unit stops it (R247, log 10): command id, what it had done. -/
opaque stopAt : Nat → Nat → Nat

/-- Which unit of a memory-side command does its next sector (R244, log 10): command id, cycle. -/
opaque msuNext : Nat → Nat → Nat

/-- Which sector a full home slice gives up (R9, log 46): cycle and IA of the fill. -/
opaque l2Victim : Nat → Nat → Nat

/-- Which register line a full register cache gives up (R7, log 68): cycle. -/
opaque lineVictim : Nat → Nat

/-- A result word that the spec leaves open (log 19): by request id. -/
opaque openWord : Nat → BitVec 32

end Sys2Proof.Config
end

