-- ==== Sys2Proof/Machine/Flags.lean ====
section
/-! DEFINITION. The sticky floating-point flags of a thread, sys.fpflags (R71, R72). How each result sets them stands
with the arithmetic in Soft.lean. -/

namespace Sys2Proof.Machine

/-- The five sticky flags nv, dz, of, uf, nx (R71). -/
abbrev Fl := BitVec 5

def fNv : Fl := 16
def fDz : Fl := 8
def fOf : Fl := 4
def fUf : Fl := 2
def fNx : Fl := 1

/-- Flags of a thread after an instruction: sticky (R71). -/
def stick (old new : Fl) : Fl := old ||| new

/-- sys.fpflags as a 32-bit register: bits 31:5 read 0 (R71). -/
def flagsWord (f : Fl) : Word := f.setWidth 32

/-- A write of sys.fpflags: bits 31:5 are ignored (R71). -/
def flagsOfWord (w : Word) : Fl := w.setWidth 5

end Sys2Proof.Machine
end

