-- ==== Sys2Proof/Machine/State.lean ====
section
/-! DEFINITION. The state of the module: threads, workgroups, contexts, memory system, engines, front end and device.

Everything is plain data. Times are core cycles since power-on (field now), which stop in a thermal freeze, unless a
docstring says otherwise. Requests in flight carry an id, drawn from one counter in issue order. -/

namespace Sys2Proof.Machine

/-- A v register with its scoreboard (R16, R43-R45, R119): value and poison, what an early read may still see, the
cycle a fixed-latency result is ready at, and the id of the request whose result it awaits (0: none). -/
structure VCell where
  val : Word := 0
  poi : Bool := false
  old : Word := 0
  oldPoi : Bool := false
  ready : Nat := 0
  tag : Nat := 0
  img : Bool := false              -- its value is in the thread's image; val is not it (R16)
  deriving DecidableEq, Repr

/-- A predicate p0-p6 with its scoreboard (R16, R63, R119). -/
structure PCell where
  val : Bool := false
  poi : Bool := false
  old : Bool := false
  oldPoi : Bool := false
  ready : Nat := 0
  deriving DecidableEq, Repr

/-- One write to a workgroup register that other threads may not all see yet (R38), by thread and cycle of issue. A
result that is still to arrive holds its place in the order of issue (R44). -/
structure Ver (α : Type) where
  issue : Nat
  tid : Nat
  val : α
  poi : Bool
  here : Bool := true              -- the value has arrived
  id : Nat := 0                    -- the request that brings it
  own : Nat                        -- cycle from which the writer must see it
  lo : Nat                         -- first cycle in which another thread may see it
  hi : Nat                         -- cycle from which every thread must see it
  deriving DecidableEq, Repr

/-- A workgroup register (R38): the value every thread has seen, and the later writes in order of issue. -/
structure Shared (α : Type) where
  base : α
  poi : Bool := false
  hist : List (Ver α) := []
  deriving DecidableEq, Repr

/-- A convergence register (R96), with the number of its completions so far, which an entry's .after counts (R98). -/
structure CReg where
  res : Word := 0
  acc : Word := 0
  gen : Nat := 0
  kind : RKind := .add
  arr : Nat := 0
  cnt : Nat := 0
  done : Nat := 0
  deriving DecidableEq, Repr

/-- A barrier register (R164, R167). -/
structure BReg where
  gen : Nat := 0
  arr : Nat := 0
  cnt : Nat := 0
  deriving DecidableEq, Repr

/-- A thread's pending bit and signed generation of one convergence or barrier register (R96, R164). -/
structure PSg where
  p : Bool := false
  sg : Nat := 0
  deriving DecidableEq, Repr

/-- A word of a thread's fetch buffer (R88, R100): its address, its bits, and whether its sector was poisoned. -/
structure FWord where
  addr : DWord
  word : Nat
  poi : Bool
  deriving DecidableEq, Repr

/-- What a blocked thread awaits (R87). The thread's pc stays at the blocking instruction (R252). -/
inductive Blk where
  | join (c : Nat) (d : Option Nat)        -- completion of cN; joinr writes d
  | bar (b : Nat) (armed : Bool)           -- completion of bN; armed once its own arrival is applied
  | cbar (b : Nat) (armed : Bool)
  | sleep (slack : Nat)                    -- end of a sleep; cycles counted since SLEEP reached 0 (R97)
  | waita (id : Nat)
  | req (id : Nat)                         -- a load or atomic held on an unmapped page
  | page (home ia : Nat)                   -- an instruction that reads memory at issue, on an unmapped page
  | awwait (off : Nat) (gen : Word) (d : Option Nat)       -- d receives the generation (R152)
  | twait (g : Nat)
  | ttake (first n : Nat)
  | waitt (time : Nat)                     -- PTP ns
  | miss (need : List Nat)                 -- register-cache miss: lines of its image (R87)
  | isync
  | efence
  | delta (layer ord : Nat)                -- dmul entries on the layer that entered the table before ord (R225)
  deriving DecidableEq, Repr

/-- Run state of a thread (R87, R252). -/
inductive Run where
  | runnable | blocked (b : Blk) | trapPending | exited
  deriving DecidableEq, Repr

/-- What a fence, an acquire or a release in progress holds back (R160, R163, R315): the classes held, and the
requests and the cycle it waits for. -/
structure Hold where
  loads : Bool
  others : Bool
  ids : List Nat
  till : Nat
  deriving DecidableEq, Repr

/-- A barrier arrival whose release is not complete yet (R166, R167). -/
structure Arrival where
  cluster : Bool
  b : Nat
  n : Word
  ids : List Nat
  till : Nat
  sync : Bool
  deriving DecidableEq, Repr

/-- The writer's own scoreboard of a w register (R38, R44). -/
structure WBusy where
  w : Nat
  ready : Nat
  tag : Nat
  val : Word := 0                  -- a result still to arrive, with its poison
  poi : Bool := false
  deriving DecidableEq, Repr

/-- A thread (R16, R252). -/
structure Thread where
  tid : Nat
  v : List VCell
  p : List PCell
  pc : DWord
  run : Run := .runnable
  tcause : Nat := 0
  tcode : Word := 0
  taddr : DWord := 0
  faddr : DWord := 0
  flags : BitVec 5 := 0
  sleep : Nat := 0
  away : Nat := 0                  -- Running cycles of its sleep while its state line is in the image (R97)
  conv : List PSg
  bars : List PSg
  cbars : List PSg
  age : Nat := 0
  next : Nat := 0                  -- earliest cycle of the next issue (R42)
  yieldLeft : Nat := 0             -- runnable cycles it is still held by yield (R97)
  clockHi : Option Word := none    -- what a clock.lo read latched (R36)
  fbuf : List FWord := []
  holds : List Hold := []
  cwb : List Nat := []             -- writes a cwb still waits for (R124)
  cwbBack : List Nat := []         -- lines whose visitor copy a cwb writes back once they are complete (R124)
  arrivals : List Arrival := []
  icinvs : List Nat := []          -- icinv not finished (R101)
  wbusy : List WBusy := []
  lastW : Nat := 0                 -- cycle from which every earlier workgroup-register write is readable (R38)
  issued : Nat := 0                -- instructions issued so far (R253)
  resident : Bool := true          -- its state line is in the register cache (R16, R252)
  saved : Bool := false            -- while it is not: the line is in the image
  cleared : Bool := false          -- that line's trap record no longer counts: its context has resumed (R261)
  patch : Option Bool := none      -- a trap that the line has not yet; with a new PC (R253)
  late : Bool := false             -- recorded while its context was Out, not taken yet (R253)
  out : List Nat := []             -- register lines that are not in the register cache, rising (R16, R260)
  wplace : Option (Nat × Nat × Nat) := none    -- its waita's place in the lease queue of a word: place, IA, home (R155)
  dwait : Option Nat := none       -- the entries before this one are those its dfresh, dinval or dstat waits for (R225)
  gwait : Bool := false            -- its store through a gather view waits for other lanes of its bundle (R139)
  waitaEvicted : Bool := false     -- its waita was evicted by a halt (R255)
  deriving DecidableEq, Repr

/-- Granule of the tile store (R110). -/
structure Gran where
  ref : Nat := 0
  gv : Bool := false
  deriving DecidableEq, Repr

/-- A value of the accumulator store or of a scale register, with its poison bit (R186, R207). -/
structure PWord where
  val : Word := 0
  poi : Bool := false
  deriving DecidableEq, Repr

/-- A resident workgroup (R16, R36, R277). -/
structure Workgroup where
  core : Nat
  slot : Nat
  uid : Nat                        -- tells workgroups apart that use one slot in turn
  ctx : Nat
  lid : Nat
  flat : Nat
  wgid : Nat × Nat × Nat
  nwg : Nat × Nat × Nat
  shape : Nat × Nat × Nat
  cls : Nat
  regs : Nat
  accum : Nat
  tileBase : Nat                   -- first granule of the partition (R109)
  ids : Nat × Nat × Nat            -- graph, phase, job (R277)
  entry : DWord
  threads : List Thread
  w : List (Shared Word)
  c : List CReg
  b : List BReg
  k : List (Shared DWord)
  sa : List (Shared (List PWord))
  sb : List (Shared PWord)
  mcls : Shared Nat
  tile : List Byte
  tpoi : List Nat                  -- poisoned words of the partition, by word index, rising (R119)
  gran : List Gran
  acc : List (List PWord)          -- one list of 4,096 values a tile (R186)
  cancel : Word := 0               -- sys.cancel (R264, R280)
  resident : Bool := true          -- tile partition and accumulator tiles are back (R260)
  hard : Bool := false             -- stopped by a hard cancel (R280)
  image : Nat := 0                 -- IA of register image 0 (R258)
  save : Nat := 0                  -- IA of the save area
  stride : Nat := 0
  deriving DecidableEq, Repr

/-- Code of a context's state (R259). -/
inductive CtxState where
  | free | running | halting | halted | preempting | out
  deriving DecidableEq, Repr

/-- A window entry in force (R296). -/
structure Window where
  n : Nat
  lia : Nat
  size : Nat
  chip : Nat
  exp : Nat
  rt : Nat
  deriving DecidableEq, Repr

/-- Put counters of a window (R171, R245). -/
structure WinCount where
  n : Nat
  issued : DWord
  completed : DWord
  deriving DecidableEq, Repr

/-- A completion counter (R279): level 0 launch, 1 graph, 2 phase, 3 job. -/
structure Counter where
  level : Nat
  id : Nat
  done : Nat
  total : Nat
  cancelled : Bool
  order : Nat                      -- order of starting, for reuse
  deriving DecidableEq, Repr

/-- Halt in progress (R254-R256): kind, reason, detail, units that still have to stop, records counted. -/
structure Halt where
  high : Bool := false
  complete : Bool := false
  pendingOut : Bool := false
  kind : Nat := 0
  reason : Nat := 0
  detail : Nat := 0
  stopped : List Nat := []         -- unit ids that have stopped
  records : Nat := 0
  deriving DecidableEq, Repr

/-- A context (R14, R259, R264). -/
structure Context where
  state : CtxState := .free
  halt : Halt := {}
  ctl : Word := 0x81
  ptroot : DWord := 0
  vwbase : DWord := 0x8000000000000000
  slotbase : DWord := 0
  stoparea : DWord := 0
  ctximg : DWord := 0
  ctxlen : DWord := 0
  rg : List (BitVec 256)
  vw : List (Option (BitVec 1024))
  winbase : DWord := 0
  windows : List Window := []
  wincount : List WinCount := []
  nextLid : Nat := 1
  counters : List Counter := []
  logCores : List Nat := []        -- cores whose side-log copies in the image hold entries (R257, R258)
  deriving DecidableEq, Repr

/-- Performance counters of one core and context (R272). -/
structure Perf where
  core : Nat
  ctx : Nat
  n : List DWord
  deriving DecidableEq, Repr

/-- A line of an instruction cache (R100): 128 bytes and the poison of its sectors. -/
structure ILine where
  core : Nat
  ctx : Nat
  line : Nat
  data : List Byte
  poi : List Bool
  deriving DecidableEq, Repr

/-- An icinv in flight (R101): the cores it has still to reach. -/
structure IcInv where
  id : Nat
  ctx : Nat
  line : Nat
  cores : List Nat
  deriving DecidableEq, Repr

/-- A resident sector of a sector cache (R111-R114). Its bytes are the completed bytes at the home and the core's own
queued bytes (log 6), so it holds none. -/
structure CEnt where
  core : Nat
  ctx : Nat
  ia : Nat
  home : Nat
  hint : Hint
  till : Nat
  used : Nat
  deriving DecidableEq, Repr

/-- Who issued a request: a thread and the instruction's address, with the count of instructions it had issued. -/
structure Who where
  core : Nat
  slot : Nat
  tid : Nat
  uid : Nat
  pc : DWord
  issued : Nat
  deriving DecidableEq, Repr

/-- Kinds of queued writes (R257 OPK, and the lessee's atomic on its own copy). -/
inductive WKind where
  | st | strl | pzap | red (op : AOp) (ty : ITy) | redf (op : AFOp)
  deriving DecidableEq, Repr

/-- Where a write is (R111, R115, R118, R155). -/
inductive WState where
  | queued                         -- in the core's write queue
  | retry (till : Nat)             -- refused with retry-after (R117)
  | arrived (till seq : Nat)       -- pending where it completes, at that cycle, in arrival order
  | logged (seq : Nat)             -- in the side log
  | leased (id : Nat)              -- on the lessee's copy
  | leaseQueue (place : Nat)       -- held in a lease queue
  | forwarded                      -- at a memory-side unit (R145)
  deriving DecidableEq, Repr

/-- A lane of a write: its issuer, its address, and the bytes of the sector that it writes. -/
structure WLane where
  who : Who
  va : DWord
  bs : List Nat
  deriving DecidableEq, Repr

/-- A store, pzap or reduction on its way to one sector (R115, R118, R145). Reductions hold their operands in place,
one a lane, in ascending thread order. -/
structure WEnt where
  id : Nat
  ord : Nat                        -- its place in the core's write queue, in order of entering; 0: not entered yet (R116)
  eid : Nat                        -- what a release at .wg waits for until it has entered
  who : Who
  lanes : List WLane               -- the lanes of one bundle merge (R118, R120, R149)
  cycle : Nat                      -- cycle of issue
  ctx : Nat
  va : DWord
  ia : Nat
  home : Nat
  msa : Bool
  kind : WKind
  sc : Scope
  byp : Bool
  mask : List Bool
  data : List Byte
  pri : List Nat                   -- shadow offset each byte came from (R139)
  ops : List (Nat × DWord)         -- reductions: byte in the sector and operand
  full : Bool                      -- one instruction writes all 32 bytes (R120)
  after : List Nat                 -- requests it must follow (R159)
  till : Nat                       -- cycle it must wait for (R159)
  state : WState
  deriving DecidableEq, Repr

/-- One sector a load reads: not read yet, or read with its bytes (R136). -/
structure RSec where
  ia : Nat
  home : Nat
  got : Option (List Byte × Bool)  -- bytes and poison
  till : Nat                       -- tenure granted, 0 none
  queued : Option Nat              -- place in the lease queue
  retry : Nat                      -- refused until that cycle (R117)
  deriving DecidableEq, Repr

/-- What a load does with its bytes: for each byte its sector and place, a fill byte (R130, R133), or a byte that another
chip answers, with its poison (R141). -/
inductive BSrc where
  | mem (ia : Nat) | fill (b : Byte) | far (b : Byte) (poi : Bool)
  deriving DecidableEq, Repr

/-- Requests that read memory. -/
inductive RKindReq where
  | load (size : Size) (sx : Bool) (d : Nat) (acq : Bool)   -- ld, lda (R122)
  | pref                                                   -- pref (R124)
  | vset (slot : Nat) (d : Option Nat)                       -- descriptor read (R143)
  | launchPkt (q : Nat) (d : Option Nat)                     -- packet read of launch (R281)
  deriving DecidableEq, Repr

/-- A read in flight (R122, R133-R137). -/
structure RReq where
  id : Nat
  who : Who
  ctx : Nat
  va : DWord
  kind : RKindReq
  hint : Hint
  sc : Scope
  cycle : Nat                      -- cycle of issue
  bytes : List BSrc
  secs : List RSec
  far : Option Nat := none         -- window of the remote view that it reads through (R141)
  gather : Bool := false           -- that view gathers
  tries : Nat := 0                 -- answers from another chip so far (R141)
  resend : Nat := 0                -- refused by it until that cycle (R117)
  held : Bool                      -- blocked on an unmapped page (R117)
  view : Bool                      -- through a view slot (R133)
  composed : Bool                  -- composed return: installs nothing (R135)
  deriving DecidableEq, Repr

/-- One lane of a combined atomic (R149). -/
structure ALane where
  who : Who
  d : Reg
  x : DWord
  cmp : DWord
  deriving DecidableEq, Repr

/-- Atomics that return a value. -/
inductive AKind where
  | atom (op : AOp) | acas | atomf (op : AFOp)
  deriving DecidableEq, Repr

/-- An atomic in flight, with the lanes of one bundle that name one word combined (R145, R149). -/
structure AReq where
  id : Nat
  ctx : Nat
  va : DWord
  ia : Nat
  home : Nat
  msa : Bool
  kind : AKind
  ty : ITy
  sc : Scope
  cycle : Nat
  lanes : List ALane
  fwd : Bool                       -- forwarded to the memory-side unit
  queued : Option Nat
  held : Bool
  retry : Nat
  deriving DecidableEq, Repr

/-- An entry of a home slice's wait-on-address table (R150). -/
structure WaitEnt where
  id : Nat
  who : Who
  ctx : Nat
  va : DWord
  ia : Nat
  key : Nat                        -- sector of the word (Xl.key)
  home : Nat
  cmp : WCmp
  ty : STy
  exp : Word
  mask : Word
  sc : Scope
  d : Nat
  timeout : Nat
  since : Nat
  deriving DecidableEq, Repr

/-- State of a lease-table entry (R155); sent: the request has not reached the slice. -/
inductive LState where
  | sent | waiting | held | draining
  deriving DecidableEq, Repr

/-- A lease (R153-R157). -/
structure LeaseEnt where
  id : Nat
  who : Who
  ctx : Nat
  va : DWord
  line : Nat                       -- IA of the line
  home : Nat
  d : Nat
  g : Nat
  state : LState
  expiry : Nat
  poisoned : Bool
  lrel : Option Nat                -- destination of the lrel to answer
  queued : Option Nat              -- place in the lease queue
  page : Bool                      -- held on an unmapped page
  retry : Nat
  deriving DecidableEq, Repr

/-- What a directory transition is for (R285). -/
inductive DKind where
  | rds (d : Nat) | rdx (d : Nat) (lease : Bool) | homeRead | homeWrite | victim
  deriving DecidableEq, Repr

/-- States of a directory entry (R282); a line with no entry is I, and an entry in I is for a host copy alone. -/
inductive DState where
  | i | s | e | m | o
  deriving DecidableEq, Repr

/-- A transition in progress (R284, R285): dies still to be told, told and not acknowledged, acknowledgements on the
way, and whether the host was asked and has answered. -/
structure DTrans where
  kind : DKind
  tell : List Nat
  told : List Nat
  acks : List Nat
  host : Bool
  deriving DecidableEq, Repr

/-- A cross-die directory entry (R282). -/
structure DirEnt where
  ctx : Nat
  line : Nat
  home : Nat
  st : DState
  l : Bool
  hb : Bool
  sh : List Nat
  own : Nat
  used : Nat
  trans : Option DTrans
  deriving DecidableEq, Repr

/-- An RdS or RdX of another die that waits in its home slice's queue, or has been turned away (R285). -/
structure DirReq where
  ctx : Nat
  line : Nat
  home : Nat
  die : Nat
  ex : Bool                        -- RdX
  place : Option Nat
  retry : Nat
  id : Nat := 0                    -- at the memory controllers (R249)
  deriving DecidableEq, Repr

/-- A request of an engine, the host, a fetch or another unit that waits where it is served: in the lease queue, turned away
until a cycle, or at a memory controller (R117, R155, R249, R285). act: the event in which the unit asks; asked: it does so in the
one under way. -/
structure UReq where
  act : Instr
  id : Nat
  ctx : Nat
  master : Nat
  ia : Nat
  home : Nat
  die : Nat
  acc : Acc
  n : Nat
  place : Option Nat := none
  retry : Nat := 0
  asked : Bool := true
  deriving DecidableEq, Repr

/-- A cinv that has still to drop a die's visitor copy of a line: a host line, by its frame, or one homed on another die
(R124). -/
structure PendDrop where
  ctx : Nat
  line : Nat
  die : Nat
  host : Option Nat
  deriving DecidableEq, Repr

/-- A request for a sector that a memory controller holds, in the order of arrival there (R240, R242, R249); bank: the one
that it waits for, none under a session, which has them all. -/
structure DramHeld where
  id : Nat
  ctx : Nat
  sec : Nat
  stack : Nat
  pch : Nat
  bank : Option Nat
  deriving DecidableEq, Repr

/-- Latest tenure end granted on a sector by a die's slice (R114). -/
structure Ten where
  die : Nat
  pa : Nat
  till : Nat
  deriving DecidableEq, Repr

/-- A sector present in the home slice of a die (R9, R112, R242); part: only bytes that stores have written (R249). -/
structure L2Ent where
  home : Nat
  ctx : Nat
  ia : Nat
  pa : Nat
  part : Bool := false
  deriving DecidableEq, Repr

/-- A cached translation (R106, R108): level of the leaf, its IA base and frame. -/
structure XEnt where
  die : Nat
  ctrl : Nat
  ctx : Nat
  level : Nat
  ia : Nat
  pa : Nat
  hst : Bool
  deriving DecidableEq, Repr

/-- A missing unit on which requests are held (R108, R312), its record written or waiting for the ring. -/
structure Miss where
  die : Nat
  ctrl : Nat
  ctx : Nat
  level : Nat
  ia : Nat
  acc : Acc
  recorded : Bool
  deriving DecidableEq, Repr

/-- A host line of the snoop filter (R290): device line, whether the host may own it. -/
structure SnoopEnt where
  ctx : Nat
  line : Nat
  owned : Bool
  asked : Nat                      -- 0 no snoop out, 1 BISnpData, 2 BISnpInv
  used : Nat
  deriving DecidableEq, Repr

/-- A host-memory line held as a visitor (R145, R291), with a host snoop waiting since a cycle; ia: an address that led
there, which selects the slice (R9). -/
structure HostLine where
  die : Nat
  pa : Nat
  snoop : Option (Nat × Bool)
  ia : Nat
  deriving DecidableEq, Repr

/-- A weight watch (R216, R217). -/
structure Watch where
  n : Nat
  ctx : Nat
  w0 : Nat
  w1 : Nat
  s0 : Nat
  s1 : Nat
  cnt : List Nat                   -- one count a die
  deriving DecidableEq, Repr

/-- A late access whose thread is gone (R253) is recorded as an event; see Device. Memory system. -/
structure Mem where
  cells : List Host.Cell := []     -- completed bytes by physical address (R10)
  host : List Host.Cell := []      -- host memory reached through CXL.cache
  poison : List Nat := []          -- sectors, rising, whose poison differs from their die's: see scrub (R119)
  scrub : List Nat := []           -- dies whose sectors a scrub has poisoned (R300)
  hostPoison : List Nat := []
  cache : List CEnt := []
  icache : List ILine := []
  icinv : List IcInv := []
  writes : List WEnt := []         -- write queues, pending writes and side logs, in issue order
  reads : List RReq := []
  atoms : List AReq := []
  waits : List WaitEnt := []
  leases : List LeaseEnt := []
  tenures : List Ten := []
  l2 : List L2Ent := []
  dir : List DirEnt := []
  dirq : List DirReq := []
  dramq : List DramHeld := []
  unitq : List UReq := []
  drops : List PendDrop := []
  snoop : List SnoopEnt := []
  hostLines : List HostLine := []
  xlat : List XEnt := []
  missing : List Miss := []
  watches : List Watch := []
  nextSeq : List Nat               -- next side-log sequence number of each core (R257)
  deriving DecidableEq, Repr

/-- What a matrix entry does (R192-R196, R218), with the data it captured. -/
inductive MOp where
  | mma (fmt : MFmt) (a b : Nat) (sa : List PWord) (sb : PWord)
  | mmau (fmt : MFmt) (desc : List Byte) (dpoi : Bool) (b : Nat) (sa : List PWord) (sb : PWord)
  | perm (fmt : HFmt) (a : Nat) (x : List Byte) (xpoi : List Bool)
  | trn (fmt : HFmt) (a : Nat)
  | rsum (fmt : HFmt) (a : Nat) (col : Bool)
  | zero
  | lda (fmt : LFmt) (a : Nat)
  | sta (fmt : SFmt) (a rows cols : Nat) (sb : PWord)
  | dmul (layer x : Nat)
  deriving DecidableEq, Repr

/-- Progress of a dmul (R219-R221, R226): mode, version read, steps left, write-back units done. -/
structure DRun where
  full : Bool
  version : Word
  steps : Nat
  computed : Nat
  skipped : Nat
  writing : Bool
  units : Nat
  deriving DecidableEq, Repr

/-- An entry of a core's matrix reservation table (R187). -/
structure MEnt where
  core : Nat
  idx : Nat
  ord : Nat                        -- order of entering the table
  slot : Nat
  ctx : Nat
  tid : Nat
  uid : Nat
  issued : Nat                     -- what the thread had issued with it
  pc : DWord
  cls : Nat
  raised : Nat                     -- class steps gained by aging (R203)
  issue : Nat
  eligible : Option Nat            -- cycle since when it has been eligible without a grant or a rise of its class
  op : MOp
  d : Nat
  after : Option (Nat × Nat)       -- convergence register and its completions at issue (R98, R189)
  group : Option Nat               -- commit group; none: the open set (R200)
  ref : List Nat                   -- granules whose REF it raised
  granted : Option Nat
  drun : Option DRun
  vread : Option Word := none      -- the version that a dmul read at its first grant (R219)
  heldOn : Nat := 0                -- IA of the unmapped page on which a dmul is held (R226)
  deriving DecidableEq, Repr

/-- A slot of a core's delta slot cache (R211, R214, R225). -/
structure DSlot where
  core : Nat
  ctx : Nat
  layer : Nat
  ia : Nat
  raw : List Byte
  valid : Bool
  watch : Option Nat
  versionSeen : Word
  count : Nat
  skipped : Nat
  computed : Nat
  calls : Nat
  fulls : Nat
  used : Nat
  saved : Bool := false            -- evicted into the context image (R226, R260)
  deriving DecidableEq, Repr

/-- State of an engine command (R229, R231, R234). -/
inductive CState where
  | issued | accepted
  deriving DecidableEq, Repr

/-- An engine command (R229). -/
structure Cmd where
  id : Nat
  core : Nat
  eng : Nat
  fn : Nat
  ctx : Nat
  slot : Nat
  tid : Nat
  uid : Nat
  pc : DWord
  a : Word
  b : Word
  dst : Option Reg
  state : CState
  tok : Nat
  blk : List Byte
  ref : List Nat
  sent : Nat                       -- bytes handed to the fabric, source bytes read, or elements done (R247)
  heldOn : Option (Nat × Nat) := none    -- home and IA of the unmapped page on which it is held (R233)
  win : Option Window := none      -- the window entry in force at its acceptance (R296)
  tries : Nat := 0                 -- answers to a get so far
  resend : Nat := 0                -- a get refused with retry-after goes out again from that cycle on (R117)
  counted : Nat := 0               -- what a halted command has counted so far (R247)
  turn : Nat := 0                  -- order of acceptance (R235, R243)
  pages : List (Nat × Nat) := []   -- a memory-side command: elements done in each page of y, by its place (R244, R247)
  deriving DecidableEq, Repr

/-- A recent command token (R234). -/
structure TokRec where
  core : Nat
  ctx : Nat
  eng : Nat
  tok : Nat
  state : Nat                      -- 0 complete, 1 waiting, 2 running, 3 error
  n : Nat
  deriving DecidableEq, Repr

/-- Next token of a context, core and engine (R230). -/
structure TokNext where
  core : Nat
  ctx : Nat
  eng : Nat
  tok : Nat
  deriving DecidableEq, Repr

/-- An open bulk stream (R240): bank of a pseudo-channel, row, time of activation. -/
structure Stream where
  core : Nat
  ctx : Nat
  tok : Nat
  stack : Nat
  pch : Nat
  bank : Nat
  row : Nat
  page : Nat                       -- IA of the 64 KiB unit that the row's bank holds
  home : Nat
  since : Nat
  deriving DecidableEq, Repr

/-- A bank session (R241-R243), its issuer (R256), with what the DRAM of its pseudo-channel still holds of bytes written since. -/
structure Session where
  core : Nat
  ctx : Nat
  tok : Nat
  slot : Nat
  tid : Nat
  stack : Nat
  pch : Nat
  x : List (List (List PWord))           -- bank, slot, lane
  acc : List (List (List PWord))         -- bank, accumulator, lane
  row : Option Nat
  used : Nat
  last : Nat
  dram : List (Nat × List Byte × Bool)   -- physical sector, its bytes and poison at the first write since bkon
  deriving DecidableEq, Repr

/-- A put or get handed to the fabric (R171, R246, R294): for a put its data, and the signal that fputs adds. -/
structure Packet where
  cmd : Nat
  chip : Nat
  exp : Nat
  wof : Nat
  bytes : Nat                      -- not acknowledged yet
  held : Nat := 0                  -- of those, refused with retry-after and to be sent again (R117)
  get : Bool := false
  data : List (Byte × Bool) := []
  sig : Option (Nat × Word) := none
  deriving DecidableEq, Repr

/-- The entry that a core's matrix engine granted last for a context, and the entries that completed while its halt
line was high (R205). -/
structure MLast where
  core : Nat
  ctx : Nat
  idx : Option Nat
  slot : Nat
  tid : Nat
  pc : DWord
  skid : List Nat
  deriving DecidableEq, Repr

/-- Engines of all cores and of the I/O die. -/
structure Eng where
  entries : List MEnt := []
  last : List MLast := []
  step : List Nat                  -- each core's next step boundary (R203)
  nextOrd : Nat := 0
  slots : List DSlot := []
  cmds : List Cmd := []
  toks : List TokRec := []
  tokNext : List TokNext := []
  streams : List Stream := []
  sessions : List Session := []
  packets : List Packet := []
  deriving DecidableEq, Repr

/-- A launch queue (R275). -/
structure Queue where
  base : DWord := 0
  ctl : Word := 0
  tail : Word := 0
  head : Word := 0
  err : Word := 0
  taken : Option (List Byte) := none    -- packet taken and held (R278)
  takenN : Nat := 0                     -- its number (R276)
  deriving DecidableEq, Repr

/-- A started launch with workgroups still to place (R278). -/
structure Launch where
  ctx : Nat
  lid : Nat
  q : Nat
  cls : Nat
  pkt : List Byte
  nextFlat : Nat
  total : Nat
  left : Nat                       -- workgroups neither completed nor dropped
  started : Nat                    -- order of starting
  dropped : Bool
  deriving DecidableEq, Repr

/-- Cluster barriers of a launch on a cluster (R167). -/
structure ClBar where
  ctx : Nat
  lid : Nat
  cluster : Nat
  b : List BReg
  deriving DecidableEq, Repr

/-- State of a die (R298). -/
inductive DieSt where
  | running | quiescing | inReset | retraining | failed | gated
  deriving DecidableEq, Repr

/-- A compute die (R36, R298, R299). -/
structure Die where
  st : DieSt := .running
  err : Nat := 0
  gate : Bool := false
  rst : Bool := false
  zero : Nat := 0                  -- the cycle at which its counter read 0
  lost : Bool := false             -- it failed, and its memory has still to be scrubbed
  late : Bool := false             -- host snoops addressed to it are answered with poison (R292)
  deriving DecidableEq, Repr

/-- A fabric port (R294). -/
structure Port where
  up : Bool := true
  replays : Nat := 0
  deriving DecidableEq, Repr

/-- Entry of an access table (R301). -/
structure AEnt where
  base : DWord := 0
  limit : DWord := 0
  deriving DecidableEq, Repr

/-- Export table entry in force (R297). -/
structure Export where
  n : Nat
  tia : Nat
  size : Nat
  cbia : Nat
  ctx : Nat
  rt : Nat
  clo : Nat
  chi : Nat
  deriving DecidableEq, Repr

/-- A thermal freeze (R262, R263). -/
structure Freeze where
  stack : Nat
  ptp : Nat
  deriving DecidableEq, Repr

/-- What the last host access or report returned (log 21). -/
inductive Reply where
  | bytes (l : List Byte) (poisoned : Bool)
  | value (v : DWord)
  | report (digest : List (BitVec 256)) (sig : BitVec 256)
  | retry (hint : Nat)             -- refused with retry-after, in slice cycles (R117)
  deriving DecidableEq, Repr

/-- A self-test in progress (R303). -/
structure SelfTest where
  place : ErrPlace
  corrected : Bool
  deriving DecidableEq, Repr

/-- Device registers and units of the I/O die. -/
structure Dev where
  evq : DWord := 0
  evhead : Word := 0
  evtail : Word := 0
  evlost : Word := 0
  sfways : Word := 0
  frzctl : Word := 0x0569
  xlinv : DWord := 0
  msix : Nat := 0
  queues : List Queue
  launches : List Launch := []
  nextStart : Nat := 0
  clbars : List ClBar := []
  dies : List Die
  access : List (Nat × Nat × AEnt) := []      -- master, index, entry
  pat : List (Nat × Nat × Nat) := []          -- stack, frame, tag; unlisted 0xFF
  patset : DWord := 0
  patstat : DWord := 0
  expbase : DWord := 0
  route : DWord := 0
  exports : List Export := []
  ports : List Port
  chip : Nat := 0
  freeze : Option Freeze := none
  throttle : List Nat := []
  booted : Bool := false
  bootCode : Nat := 0
  minVersion : Nat := 0
  version : Nat := 0               -- security versions of the firmware, the configuration and the repair list (R305)
  cfgVersion : Nat := 0
  repVersion : Nat := 0
  repairs : List (Nat × Nat × Nat × Nat) := []
  applied : List (Nat × Nat × Nat × Nat) := []    -- those that the DRAM has taken since power-on (R303, R305)
  spares : List (Nat × Nat) := []  -- SRAM rows substituted: unit and array (R303)
  ideKeys : List (Nat × BitVec 256) := []
  selfTests : List SelfTest := []
  reply : Option Reply := none
  deriving DecidableEq, Repr

/-- The threads an instruction is issued to: their workgroup, the pc, their tids and their positions in the bundle,
with the size of the path for bpop (R90, R91). -/
structure Path where
  core : Nat
  slot : Nat
  pc : DWord
  tids : List Nat
  base : Nat                       -- position of the first thread
  deriving DecidableEq, Repr

/-- The machine. The fields agenda, moves, nextId, latch, cur, asker and selDone are the model's own (log 1). -/
structure State where
  now : Nat := 0
  ptp : Nat := 0
  ctxs : List Context
  wgs : List Workgroup := []
  perf : List Perf := []
  m : Mem
  e : Eng
  y : Dev
  latch : List Path := []
  cur : Option Path := none
  asker : Option Instr := none     -- the event under way, for requests of units
  selDone : List (Nat × Nat) := []
  agenda : List Move := []
  moves : Nat := 0
  nextId : Nat := 1
  deriving DecidableEq, Repr

/-- Faults: a step that has no meaning for the machine. -/
inductive Fault where
  /-- Raised by step when the latched bundle names a workgroup that is not resident. No step of the model latches one
  (safe: such a state is not reached from reset). -/
  | noWorkgroup
  deriving DecidableEq, Repr

/-- Refusals. -/
inductive Refusal where
  /-- For an instruction whose meaning is not written; no arm of exec raises it (safe). -/
  | notModelled (mnemonic : String)
  deriving DecidableEq, Repr

/-- A context that no supervisor has created (R259, R265, R127). -/
def Context.fresh : Context := { rg := List.replicate 16 0, vw := List.replicate 64 none }

/-- The machine right after power-on, before boot (R96, R127, R164, R259, R265, R275, R298; log 2 names every value
the spec does not give). -/
def State.reset : State :=
  { ctxs := List.replicate 64 Context.fresh
    m := { nextSeq := List.replicate 256 1 }
    e := { step := List.replicate 256 0 }
    y := { queues := List.replicate 64 {}, dies := List.replicate 4 {}, ports := List.replicate 12 {} } }

end Sys2Proof.Machine
end

