-- ==== Sys2Proof/WellFormed.lean ====
section
/-! DEFINITION. Well-formed instructions: every field has a value that the encoding admits (R29-R47, each card). -/

namespace Sys2Proof

/-- A number below a bound. -/
abbrev wfLt (k n : Nat) : Bool := decide (n < k)

/-- Width of an integer type in the register file (R37): 64-bit types make operands pairs. -/
def ITy.wide : ITy → Bool
  | .i32 | .n32 => false
  | .i64 | .n64 => true

def Cvt.wideD : Cvt → Bool
  | .toInt t _ => t.wide
  | _ => false

def Cvt.wideA : Cvt → Bool
  | .ofInt t _ => t.wide
  | _ => false

/-- log2 of the size in bytes (R34). -/
def Size.val : Size → Nat
  | .byte => 0 | .half => 1 | .word => 2 | .double => 3 | .quad => 4

def Size.bytes (z : Size) : Nat := 2 ^ z.val

/-- Registers that data of this size take; the first index is a multiple of it (R121). -/
def Size.group : Size → Nat
  | .byte | .half | .word => 1
  | .double => 2
  | .quad => 4

/-- 64-bit system registers (R264). -/
def SysReg.wide : SysReg → Bool
  | .ptroot | .vwbase | .slotbase | .stoparea | .ctximg | .ctxlen | .evq | .faultack | .xlinv => true
  | _ => false

/-- System registers of context scope, the only ones the context form names (R264, R267). -/
def SysReg.ctxScope : SysReg → Bool
  | .ctl | .ptroot | .vwbase | .slotbase | .stoparea | .ctximg | .ctxlen | .state => true
  | _ => false

/-- A v index, a multiple of the group (R35, R121). -/
def wfV (group n : Nat) : Bool := decide (n < 384) && n % group == 0
def wfVZ : Option Nat → Bool
  | none => true
  | some n => wfV 1 n

def Reg.wf : Reg → Bool
  | .v n => decide (n < 384)
  | .w n => decide (n < 64)

/-- An even v or w register (R37). -/
def Reg.wfPair : Reg → Bool
  | .v n => decide (n < 384) && n % 2 == 0
  | .w n => decide (n < 64) && n % 2 == 0

def Reg.wfW (wide : Bool) (r : Reg) : Bool := if wide then r.wfPair else r.wf

/-- A v register, or a pair under a 64-bit type (R147, R267). -/
def Reg.wfVW (wide : Bool) (r : Reg) : Bool :=
  if wide then r.wfPair else
    match r with
    | .v n => decide (n < 384)
    | .w _ => false

def wfRegZ : Option Reg → Bool
  | none => true
  | some r => r.wf
def wfPairZ : Option Reg → Bool
  | none => true
  | some r => r.wfPair
def wfPairIf (b : Bool) : Option Reg → Bool
  | none => !b
  | some r => b && r.wfPair

/-- A of tpred: nothing for the read form, a pair or the constant 0 for the others (R198). -/
def wfTpA (fn : TPFn) : Option Reg → Bool
  | none => true
  | some r => fn != .rd && r.wfPair

def Src.wf : Src → Bool
  | .v n => decide (n < 384)
  | .w n => decide (n < 64)
  | .sp k => decide (k < 21)
  | .c n => decide (n < 32)

/-- A register pair under a 64-bit type (R37). -/
def Src.wfW (wide : Bool) (s : Src) : Bool :=
  if wide then
    match s with
    | .v n => (Reg.v n).wfPair
    | .w n => (Reg.w n).wfPair
    | _ => false
  else s.wf

/-- Store data (R121): v or w registers, a constant up to word size. -/
def Src.wfData (z : Size) : Src → Bool
  | .v n => wfV z.group n
  | .w n => decide (n < 64) && n % z.group == 0
  | .c n => z.group == 1 && decide (n < 32)
  | .sp _ => false

/-- A of srd and swr: a context operand under OT, else the constant 0 (R267). -/
def wfCtxA (ot : Bool) (s : Src) : Bool := if ot then s.wf else s == .c 0

def wfAfter : Option Nat → Bool
  | none => true
  | some n => decide (n < 16)

def Hdr.wf (h : Hdr) : Bool := decide (h.stall < 16) && decide (h.g < 8)

/-- Legal M of cvt (R82). -/
def cvtOk (cv : Cvt) (ns : Bool) (rm : Rm) : Bool :=
  match cv with
  | .ff d s => d != s && (if d == .e4m3 then rm == .rn else !ns)
  | .ofInt _ d => if d == .e4m3 then rm == .rn else !ns
  | .toInt _ _ => !ns

/-- One slot of a pair word: registers 0-191, unused positions 0, shift counts below 32 (R40, R41). -/
def Slot.wf (t : Slot) : Bool :=
  decide (t.op < 31) && decide (t.d < 192) && decide (t.s < 192) && decide (t.m < 128) &&
  (if t.op == 12 || t.op == 13 then true else if 9 ≤ t.op && t.op ≤ 11 then decide (t.m < 32) else t.m == 0) &&
  (t.op != 13 || t.s == 0)

/-- Every field of the instruction has a value of its encoding. Events have no word. -/
def Instr.wf : Instr → Bool
  | .iadd h _ d a b => h.wf && d.wf && a.wf && b.wf
  | .isub h _ d a b => h.wf && d.wf && a.wf && b.wf
  | .imul h _ d a b => h.wf && d.wf && a.wf && b.wf
  | .imulh h _ d a b => h.wf && d.wf && a.wf && b.wf
  | .imad h _ d a b c => h.wf && d.wf && a.wf && b.wf && c.wf
  | .imadw h _ d a b c => h.wf && d.wfPair && a.wf && b.wf && wfPairZ c
  | .iadd64 h _ d a b => h.wf && d.wfPair && a.wfPair && b.wfPair
  | .imin h ty d a b => h.wf && d.wfW ty.wide && a.wfW ty.wide && b.wfW ty.wide
  | .imax h ty d a b => h.wf && d.wfW ty.wide && a.wfW ty.wide && b.wfW ty.wide
  | .iabs h d a => h.wf && d.wf && a.wf
  | .and h ty d a b => h.wf && d.wfW ty.wide && a.wfW ty.wide && b.wfW ty.wide
  | .or h ty d a b => h.wf && d.wfW ty.wide && a.wfW ty.wide && b.wfW ty.wide
  | .xor h ty d a b => h.wf && d.wfW ty.wide && a.wfW ty.wide && b.wfW ty.wide
  | .shl h ty d a b => h.wf && d.wfW ty.wide && a.wfW ty.wide && b.wfW ty.wide
  | .shr h ty d a b => h.wf && d.wfW ty.wide && a.wfW ty.wide && b.wfW ty.wide
  | .sar h ty d a b => h.wf && d.wfW ty.wide && a.wfW ty.wide && b.wfW ty.wide
  | .rotl h _ d a b => h.wf && d.wf && a.wf && b.wf
  | .bfe h _ d a b c => h.wf && d.wf && a.wf && b.wf && c.wf
  | .bfi h d a b c => h.wf && d.wf && a.wf && b.wf && c.wf
  | .popc h d a => h.wf && d.wf && a.wf
  | .clz h d a => h.wf && d.wf && a.wf
  | .brev h d a => h.wf && d.wf && a.wf
  | .sel h ty pn _ d a b => h.wf && wfLt 8 pn && d.wfW ty.wide && a.wfW ty.wide && b.wfW ty.wide
  | .iset h ty _ d a b => h.wf && wfLt 7 d && a.wfW ty.wide && b.wfW ty.wide
  | .pset h _ d a b => h.wf && wfLt 7 d && wfLt 8 a && wfLt 8 b
  | .mov h ty d a => h.wf && d.wfW ty.wide && a.wfW ty.wide
  | .lea h d a b c => h.wf && d.wf && a.wf && b.wf && c.wf
  | .lea64 h _ d a b c => h.wf && d.wfPair && a.wfPair && b.wf && c.wf
  | .idiv h _ d a b => h.wf && d.wf && a.wf && b.wf
  | .irem h _ d a b => h.wf && d.wf && a.wf && b.wf
  | .p2v h d => h.wf && d.wf
  | .v2p h a b => h.wf && a.wf && b.wf
  | .fadd h _ d a b => h.wf && d.wf && a.wf && b.wf
  | .fsub h _ d a b => h.wf && d.wf && a.wf && b.wf
  | .fmul h _ d a b => h.wf && d.wf && a.wf && b.wf
  | .ffma h _ d a b c => h.wf && d.wf && a.wf && b.wf && c.wf
  | .fmin h d a b => h.wf && d.wf && a.wf && b.wf
  | .fmax h d a b => h.wf && d.wf && a.wf && b.wf
  | .fset h _ d a b => h.wf && wfLt 7 d && a.wf && b.wf
  | .famax h d a b => h.wf && d.wf && a.wf && b.wf
  | .fneg h d a => h.wf && d.wf && a.wf
  | .fabs h d a => h.wf && d.wf && a.wf
  | .frcp h d a => h.wf && d.wf && a.wf
  | .frsq h d a => h.wf && d.wf && a.wf
  | .fsqrt h _ d a => h.wf && d.wf && a.wf
  | .fex2 h d a => h.wf && d.wf && a.wf
  | .flg2 h d a => h.wf && d.wf && a.wf
  | .fsin h d a => h.wf && d.wf && a.wf
  | .fcos h d a => h.wf && d.wf && a.wf
  | .fscale h _ d a b => h.wf && d.wf && a.wf && b.wf
  | .frnd h _ d a => h.wf && d.wf && a.wf
  | .fclass h _ d a => h.wf && d.wf && a.wf
  | .hadd2 h _ d a b => h.wf && d.wf && a.wf && b.wf
  | .hmul2 h _ d a b => h.wf && d.wf && a.wf && b.wf
  | .hfma2 h _ d a b c => h.wf && d.wf && a.wf && b.wf && c.wf
  | .badd2 h _ d a b => h.wf && d.wf && a.wf && b.wf
  | .bmul2 h _ d a b => h.wf && d.wf && a.wf && b.wf
  | .bfma2 h _ d a b c => h.wf && d.wf && a.wf && b.wf && c.wf
  | .hmnx2 h _ d a b => h.wf && d.wf && a.wf && b.wf
  | .bmnx2 h _ d a b => h.wf && d.wf && a.wf && b.wf
  | .cvt h cv ns rm d a => h.wf && (cvtOk cv ns rm) && d.wfW cv.wideD && a.wfW cv.wideA
  | .cvtp h _ _ d a b => h.wf && d.wf && a.wf && b.wf
  | .e4pk h _ _ d a b c => h.wf && d.wf && a.wf && b.wf && c.wf
  | .e4up h byte d a => h.wf && wfLt 4 byte && d.wf && a.wf
  | .fdot2 h _ _ d a b c => h.wf && d.wf && a.wf && b.wf && c.wf
  | .nop h => h.wf
  | .brx h a b => h.wf && a.wfPair && b.wf
  | .ret h a => h.wf && a.wfPair
  | .exit h => h.wf
  | .sign h cn => h.wf && wfLt 16 cn
  | .join h cn => h.wf && wfLt 16 cn
  | .joinr h cn d a => h.wf && wfLt 16 cn && wfV 1 d && a.wf
  | .cdecl h cn _ a => h.wf && wfLt 16 cn && a.wf
  | .yield h => h.wf
  | .sleep h a => h.wf && a.wf
  | .brk h code => h.wf && wfLt 1024 code
  | .isync h => h.wf
  | .icinv h _ a b => h.wf && a.wfPair && b.wf
  | .trap h a => h.wf && a.wf
  | .ld h _ _ sx sz d a b => h.wf && (!sx || sz.val < 2) && wfV sz.group d && a.wfPair && b.wf
  | .st h _ _ sz a b c => h.wf && a.wfPair && b.wf && c.wfData sz
  | .lda h _ _ sx sz d a b => h.wf && (!sx || sz.val < 2) && (sz != .quad) && wfV sz.group d && a.wfPair && b.wf
  | .strl h _ _ sz a b c => h.wf && (sz != .quad) && a.wfPair && b.wf && c.wfData sz
  | .ldt h sx sz d a b => h.wf && (!sx || sz.val < 2) && wfV sz.group d && a.wf && b.wf
  | .stt h sz a b c => h.wf && a.wf && b.wf && c.wfData sz
  | .pref h _ hn a b => h.wf && (hn != .byp) && a.wfPair && b.wf
  | .cwb h _ a b => h.wf && a.wfPair && b.wf
  | .cinv h _ a b => h.wf && a.wfPair && b.wf
  | .chint h _ a b => h.wf && a.wfPair && b.wf
  | .own h d a => h.wf && wfV 1 d && a.wf
  | .tgive h a b => h.wf && a.wf && b.wf
  | .ttake h a b => h.wf && a.wf && b.wf
  | .vset h slot d a b => h.wf && wfLt 64 slot && wfVZ d && a.wfPair && b.wf
  | .vclr h slot => h.wf && wfLt 64 slot
  | .vqry h slot d a => h.wf && wfLt 64 slot && wfV 1 d && a.wf
  | .vaddrIa h d a b => h.wf && d.wfPair && a.wfPair && b.wf
  | .vaddrVa h d a b => h.wf && d.wfPair && a.wfPair && b.wf
  | .vfill h slot a => h.wf && wfLt 64 slot && a.wf
  | .atom h _ ty _ d a b c => h.wf && d.wfVW ty.wide && a.wfPair && b.wf && c.wfW ty.wide
  | .acas h ty _ d a b c => h.wf && d.wfVW ty.wide && a.wfPair && b.wf && wfV (if ty.wide then 4 else 2) c
  | .atomf h _ _ d a b c => h.wf && wfV 1 d && a.wfPair && b.wf && c.wf
  | .red h op ty _ a b c => h.wf && (op != .exch) && a.wfPair && b.wf && c.wfW ty.wide
  | .redf h op _ a b c => h.wf && (op != .exch) && a.wfPair && b.wf && c.wf
  | .lease h d a b => h.wf && wfV 1 d && a.wfPair && b.wf
  | .lrel h d a => h.wf && wfV 1 d && a.wfPair
  | .lchk h d a => h.wf && wfV 1 d && a.wfPair
  | .waita h _ _ _ d a b c => h.wf && wfV 1 d && a.wfPair && b.wf && c.wfPair
  | .awinit h a b => h.wf && a.wf && b.wf
  | .awadd h d a b => h.wf && wfVZ d && a.wf && b.wf
  | .awwait h d a b => h.wf && wfVZ d && a.wf && b.wf
  | .fence h _ _ => h.wf
  | .barSync h _ bn a => h.wf && wfLt 16 bn && a.wf
  | .barArrive h _ bn a => h.wf && wfLt 16 bn && a.wf
  | .barWait h _ bn => h.wf && wfLt 16 bn
  | .cbarSync h _ bn a => h.wf && wfLt 8 bn && a.wf
  | .cbarArrive h _ bn a => h.wf && wfLt 8 bn && a.wf
  | .cbarWait h _ bn => h.wf && wfLt 8 bn
  | .efence h => h.wf
  | .tmma h fmt sn kg kn d a b c => h.wf && wfLt 4 sn && wfLt 16 kn && (kg != .off || kn == 0) && (fmt == .e4m3 || sn == 0) && wfLt 48 d && a.wf && b.wf && wfAfter c
  | .tmmau h fmt sn kg kn d a b c => h.wf && wfLt 4 sn && wfLt 16 kn && (kg != .off || kn == 0) && (fmt == .e4m3 || sn == 0) && wfLt 48 d && a.wf && b.wf && wfAfter c
  | .tperm h _ kg kn d a b c => h.wf && wfLt 16 kn && (kg != .off || kn == 0) && wfLt 48 d && a.wf && b.wf && wfAfter c
  | .ttrn h _ kg kn d a c => h.wf && wfLt 16 kn && (kg != .off || kn == 0) && (kg != .b) && wfLt 48 d && a.wf && wfAfter c
  | .trsum h _ _ kg kn d a c => h.wf && wfLt 16 kn && (kg != .off || kn == 0) && (kg != .b) && wfLt 48 d && a.wf && wfAfter c
  | .tzero h kg kn d c => h.wf && wfLt 16 kn && (kg != .off || kn == 0) && (kg != .a && kg != .b) && wfLt 48 d && wfAfter c
  | .tlda h _ kg kn d a c => h.wf && wfLt 16 kn && (kg != .off || kn == 0) && (kg != .b) && wfLt 48 d && a.wf && wfAfter c
  | .tsta h fmt sn kg kn d a b c => h.wf && wfLt 4 sn && wfLt 16 kn && (kg != .off || kn == 0) && (kg != .b) && (fmt == .e4m3 || sn == 0) && wfLt 48 d && a.wf && b.wf && wfAfter c
  | .tcommit h gn => h.wf && wfLt 8 gn
  | .twait h gn d => h.wf && wfLt 8 gn && wfVZ d
  | .ttest h gn d => h.wf && wfLt 8 gn && wfV 1 d
  | .tscl h _ idx a => h.wf && wfLt 4 idx && a.wf
  | .tpred h fn kn d a => h.wf && wfLt 16 kn && wfPairIf (fn == .rd) d && wfTpA fn a
  | .tcls h d a => h.wf && wfVZ d && a.wf
  | .tcancel h gn d => h.wf && wfLt 8 gn && wfVZ d
  | .dslot h d a => h.wf && wfVZ d && a.wf
  | .dmul h d a b c => h.wf && wfLt 48 d && a.wf && b.wf && wfAfter c
  | .dfresh h a => h.wf && a.wf
  | .dinval h d a => h.wf && wfVZ d && a.wf
  | .dstat h d a b => h.wf && wfV 1 d && a.wf && b.wf
  | .cpy h d a b => h.wf && wfRegZ d && a.wf && b.wf
  | .cpyx h d a b => h.wf && wfRegZ d && a.wf && b.wf
  | .cpyk h d a b => h.wf && wfRegZ d && a.wf && b.wf
  | .cpyz h d a b => h.wf && wfRegZ d && a.wf && b.wf
  | .bsopen h d a b => h.wf && wfRegZ d && a.wf && b.wf
  | .bsrow h d a b => h.wf && wfRegZ d && a.wf && b.wf
  | .bsclose h d a => h.wf && wfRegZ d && a.wf
  | .cstat h d a b => h.wf && wfRegZ d && a.wf && b.wf
  | .bkon h d a b => h.wf && wfRegZ d && a.wf && b.wf
  | .bkoff h d a => h.wf && wfRegZ d && a.wf
  | .bkact h d a b => h.wf && wfRegZ d && a.wf && b.wf
  | .bkbc h d a b => h.wf && wfRegZ d && a.wf && b.wf
  | .bkmac h d a b => h.wf && wfRegZ d && a.wf && b.wf
  | .bkred h d a b => h.wf && wfRegZ d && a.wf && b.wf
  | .bkrd h d a b => h.wf && wfRegZ d && a.wf && b.wf
  | .bkclr h d a b => h.wf && wfRegZ d && a.wf && b.wf
  | .maxpy h d a b => h.wf && wfRegZ d && a.wf && b.wf
  | .mscal h d a b => h.wf && wfRegZ d && a.wf && b.wf
  | .msum h d a b => h.wf && wfRegZ d && a.wf && b.wf
  | .mfill h d a b => h.wf && wfRegZ d && a.wf && b.wf
  | .fput h d a b => h.wf && wfRegZ d && a.wf && b.wf
  | .fputs h d a b => h.wf && wfRegZ d && a.wf && b.wf
  | .fget h d a b => h.wf && wfRegZ d && a.wf && b.wf
  | .wcnt h d a b => h.wf && wfRegZ d && a.wf && b.wf
  | .srd h num ot d a => h.wf && (!ot || num.ctxScope) && d.wfVW num.wide && wfCtxA ot a
  | .swr h num ot a b => h.wf && (!ot || num.ctxScope) && wfCtxA ot a && b.wfW num.wide
  | .rgset h a b c => h.wf && a.wf && b.wf && wfV 8 c
  | .ctxswOut h d a => h.wf && wfVZ d && a.wf
  | .ctxswIn h d a => h.wf && wfVZ d && a.wf
  | .ctxswDrop h d a => h.wf && wfVZ d && a.wf
  | .pzap h _ a b => h.wf && a.wfPair && b.wf
  | .launch h d a b => h.wf && wfVZ d && a.wfPair && b.wf
  | .cancel h _ _ a => h.wf && a.wf
  | .cntr h _ _ _ d a => h.wf && d.wfPair && a.wf
  | .time h d => h.wf && wfV 4 d
  | .waitt h a => h.wf && a.wfPair
  | .perf h _ d a => h.wf && d.wfPair && a.wf
  | .stopr h d a => h.wf && wfV 1 d && a.wf
  | .halt h code d a => h.wf && wfLt 256 code && wfVZ d && a.wf
  | .resume h d a => h.wf && wfVZ d && a.wf
  | .iaddi h d a imm => h.wf && d.wf && a.wf && wfLt 268435456 imm
  | .andi h d a imm => h.wf && d.wf && a.wf && wfLt 268435456 imm
  | .ori h d a imm => h.wf && d.wf && a.wf && wfLt 268435456 imm
  | .xori h d a imm => h.wf && d.wf && a.wf && wfLt 268435456 imm
  | .shli h d a imm => h.wf && d.wf && a.wf && wfLt 32 imm
  | .shri h d a imm => h.wf && d.wf && a.wf && wfLt 32 imm
  | .sari h d a imm => h.wf && d.wf && a.wf && wfLt 32 imm
  | .movi h d imm => h.wf && d.wf && wfLt 268435456 imm
  | .movh h d a imm => h.wf && d.wf && a.wf && wfLt 65536 imm
  | .bra h imm => h.wf && wfLt 268435456 imm
  | .call h d imm => h.wf && wfV 2 d && wfLt 268435456 imm
  | .pair stall x y => wfLt 16 stall && x.wf && y.wf
  | .collieSelect _ _ => false
  | .yieldExpiry _ _ _ => false
  | .sleepExpiry _ _ _ => false
  | .barrierArrivalApply _ _ _ => false
  | .scoreboardResultArrive _ => false
  | .ifetchFill _ _ _ => false
  | .homeReadRequest _ _ => false
  | .writeArrival _ => false
  | .writeComplete _ => false
  | .tenureExpiry _ _ _ => false
  | .loadDataReturn _ => false
  | .viewCompose _ => false
  | .pageWalk _ _ _ _ _ => false
  | .sideLogRetire _ => false
  | .sideLogReplay _ _ => false
  | .retryResend _ => false
  | .atomicExecute _ => false
  | .msuExecute _ => false
  | .waitaTimeout _ => false
  | .leaseRequestArrive _ => false
  | .leaseGrant _ => false
  | .leaseExpiry _ => false
  | .leaseDrainComplete _ => false
  | .dirRds _ _ _ => false
  | .dirRdx _ _ _ => false
  | .dirWriteback _ _ => false
  | .dirWritebackKeep _ _ => false
  | .dirCleanEviction _ _ => false
  | .visitorProbe _ _ _ => false
  | .visitorAck _ _ _ => false
  | .dirAckReceive _ _ _ => false
  | .hostMemRead _ _ _ => false
  | .hostMemWrite _ _ _ => false
  | .bisnpResponse _ _ _ => false
  | .hostSnoop _ _ => false
  | .hostSnoopTimeout _ => false
  | .trapTaken _ _ => false
  | .uncorrectableStateError _ _ => false
  | .unitStop _ _ => false
  | .haltComplete _ => false
  | .contextEvict _ _ => false
  | .freezeStart _ => false
  | .freezeEnd _ => false
  | .freezeBound => false
  | .throttleEnd _ => false
  | .matrixGrant _ => false
  | .matrixClassAging _ _ => false
  | .matrixEntryComplete _ _ => false
  | .deltaWriteback _ _ => false
  | .cmdAccept _ => false
  | .engineCommandComplete _ => false
  | .bstreamForcedClose _ _ => false
  | .bankSessionIdleEnd _ _ => false
  | .putArrive _ _ _ _ _ _ _ _ => false
  | .putAck _ _ _ => false
  | .flitReplay _ => false
  | .ptpMessage _ => false
  | .qtailWrite _ _ => false
  | .qtailReset _ _ => false
  | .qerrClear _ => false
  | .packetTake _ => false
  | .launchStart _ => false
  | .wgPlace _ _ _ => false
  | .wgComplete _ _ => false
  | .faultackMap _ => false
  | .faultackUnmappable _ => false
  | .xlinvWrite _ => false
  | .xlinvDone => false
  | .evtailWrite _ => false
  | .evlostClear => false
  | .winsyncWrite _ => false
  | .expsyncWrite => false
  | .patsetWrite _ => false
  | .diectlRst _ => false
  | .diectlGate _ => false
  | .diectlUngate _ => false
  | .dieReenter _ _ => false
  | .dieFail _ => false
  | .errorDetect _ _ => false
  | .selfTestDone _ => false
  | .accessTableWrite _ _ _ _ => false
  | .powerOnBoot _ _ _ _ => false
  | .attestationRequest _ => false
  | .registerWrite _ _ _ => false
  | .waittDeadline _ _ _ => false
  | .registerCacheFill _ _ _ => false
  | .icinvComplete _ => false
  | .contextCreation _ => false
  | .partitionReturn _ _ => false
  | .remoteGetArrive _ _ _ _ _ _ => false
  | .portRetrainComplete _ => false
  | .doeIdeKeySet _ _ => false

/-- The constructor is a step of the device, not an instruction word. -/
def Instr.isEvent : Instr → Bool
  | .iadd _ _ _ _ _ => false
  | .isub _ _ _ _ _ => false
  | .imul _ _ _ _ _ => false
  | .imulh _ _ _ _ _ => false
  | .imad _ _ _ _ _ _ => false
  | .imadw _ _ _ _ _ _ => false
  | .iadd64 _ _ _ _ _ => false
  | .imin _ _ _ _ _ => false
  | .imax _ _ _ _ _ => false
  | .iabs _ _ _ => false
  | .and _ _ _ _ _ => false
  | .or _ _ _ _ _ => false
  | .xor _ _ _ _ _ => false
  | .shl _ _ _ _ _ => false
  | .shr _ _ _ _ _ => false
  | .sar _ _ _ _ _ => false
  | .rotl _ _ _ _ _ => false
  | .bfe _ _ _ _ _ _ => false
  | .bfi _ _ _ _ _ => false
  | .popc _ _ _ => false
  | .clz _ _ _ => false
  | .brev _ _ _ => false
  | .sel _ _ _ _ _ _ _ => false
  | .iset _ _ _ _ _ _ => false
  | .pset _ _ _ _ _ => false
  | .mov _ _ _ _ => false
  | .lea _ _ _ _ _ => false
  | .lea64 _ _ _ _ _ _ => false
  | .idiv _ _ _ _ _ => false
  | .irem _ _ _ _ _ => false
  | .p2v _ _ => false
  | .v2p _ _ _ => false
  | .fadd _ _ _ _ _ => false
  | .fsub _ _ _ _ _ => false
  | .fmul _ _ _ _ _ => false
  | .ffma _ _ _ _ _ _ => false
  | .fmin _ _ _ _ => false
  | .fmax _ _ _ _ => false
  | .fset _ _ _ _ _ => false
  | .famax _ _ _ _ => false
  | .fneg _ _ _ => false
  | .fabs _ _ _ => false
  | .frcp _ _ _ => false
  | .frsq _ _ _ => false
  | .fsqrt _ _ _ _ => false
  | .fex2 _ _ _ => false
  | .flg2 _ _ _ => false
  | .fsin _ _ _ => false
  | .fcos _ _ _ => false
  | .fscale _ _ _ _ _ => false
  | .frnd _ _ _ _ => false
  | .fclass _ _ _ _ => false
  | .hadd2 _ _ _ _ _ => false
  | .hmul2 _ _ _ _ _ => false
  | .hfma2 _ _ _ _ _ _ => false
  | .badd2 _ _ _ _ _ => false
  | .bmul2 _ _ _ _ _ => false
  | .bfma2 _ _ _ _ _ _ => false
  | .hmnx2 _ _ _ _ _ => false
  | .bmnx2 _ _ _ _ _ => false
  | .cvt _ _ _ _ _ _ => false
  | .cvtp _ _ _ _ _ _ => false
  | .e4pk _ _ _ _ _ _ _ => false
  | .e4up _ _ _ _ => false
  | .fdot2 _ _ _ _ _ _ _ => false
  | .nop _ => false
  | .brx _ _ _ => false
  | .ret _ _ => false
  | .exit _ => false
  | .sign _ _ => false
  | .join _ _ => false
  | .joinr _ _ _ _ => false
  | .cdecl _ _ _ _ => false
  | .yield _ => false
  | .sleep _ _ => false
  | .brk _ _ => false
  | .isync _ => false
  | .icinv _ _ _ _ => false
  | .trap _ _ => false
  | .ld _ _ _ _ _ _ _ _ => false
  | .st _ _ _ _ _ _ _ => false
  | .lda _ _ _ _ _ _ _ _ => false
  | .strl _ _ _ _ _ _ _ => false
  | .ldt _ _ _ _ _ _ => false
  | .stt _ _ _ _ _ => false
  | .pref _ _ _ _ _ => false
  | .cwb _ _ _ _ => false
  | .cinv _ _ _ _ => false
  | .chint _ _ _ _ => false
  | .own _ _ _ => false
  | .tgive _ _ _ => false
  | .ttake _ _ _ => false
  | .vset _ _ _ _ _ => false
  | .vclr _ _ => false
  | .vqry _ _ _ _ => false
  | .vaddrIa _ _ _ _ => false
  | .vaddrVa _ _ _ _ => false
  | .vfill _ _ _ => false
  | .atom _ _ _ _ _ _ _ _ => false
  | .acas _ _ _ _ _ _ _ => false
  | .atomf _ _ _ _ _ _ _ => false
  | .red _ _ _ _ _ _ _ => false
  | .redf _ _ _ _ _ _ => false
  | .lease _ _ _ _ => false
  | .lrel _ _ _ => false
  | .lchk _ _ _ => false
  | .waita _ _ _ _ _ _ _ _ => false
  | .awinit _ _ _ => false
  | .awadd _ _ _ _ => false
  | .awwait _ _ _ _ => false
  | .fence _ _ _ => false
  | .barSync _ _ _ _ => false
  | .barArrive _ _ _ _ => false
  | .barWait _ _ _ => false
  | .cbarSync _ _ _ _ => false
  | .cbarArrive _ _ _ _ => false
  | .cbarWait _ _ _ => false
  | .efence _ => false
  | .tmma _ _ _ _ _ _ _ _ _ => false
  | .tmmau _ _ _ _ _ _ _ _ _ => false
  | .tperm _ _ _ _ _ _ _ _ => false
  | .ttrn _ _ _ _ _ _ _ => false
  | .trsum _ _ _ _ _ _ _ _ => false
  | .tzero _ _ _ _ _ => false
  | .tlda _ _ _ _ _ _ _ => false
  | .tsta _ _ _ _ _ _ _ _ _ => false
  | .tcommit _ _ => false
  | .twait _ _ _ => false
  | .ttest _ _ _ => false
  | .tscl _ _ _ _ => false
  | .tpred _ _ _ _ _ => false
  | .tcls _ _ _ => false
  | .tcancel _ _ _ => false
  | .dslot _ _ _ => false
  | .dmul _ _ _ _ _ => false
  | .dfresh _ _ => false
  | .dinval _ _ _ => false
  | .dstat _ _ _ _ => false
  | .cpy _ _ _ _ => false
  | .cpyx _ _ _ _ => false
  | .cpyk _ _ _ _ => false
  | .cpyz _ _ _ _ => false
  | .bsopen _ _ _ _ => false
  | .bsrow _ _ _ _ => false
  | .bsclose _ _ _ => false
  | .cstat _ _ _ _ => false
  | .bkon _ _ _ _ => false
  | .bkoff _ _ _ => false
  | .bkact _ _ _ _ => false
  | .bkbc _ _ _ _ => false
  | .bkmac _ _ _ _ => false
  | .bkred _ _ _ _ => false
  | .bkrd _ _ _ _ => false
  | .bkclr _ _ _ _ => false
  | .maxpy _ _ _ _ => false
  | .mscal _ _ _ _ => false
  | .msum _ _ _ _ => false
  | .mfill _ _ _ _ => false
  | .fput _ _ _ _ => false
  | .fputs _ _ _ _ => false
  | .fget _ _ _ _ => false
  | .wcnt _ _ _ _ => false
  | .srd _ _ _ _ _ => false
  | .swr _ _ _ _ _ => false
  | .rgset _ _ _ _ => false
  | .ctxswOut _ _ _ => false
  | .ctxswIn _ _ _ => false
  | .ctxswDrop _ _ _ => false
  | .pzap _ _ _ _ => false
  | .launch _ _ _ _ => false
  | .cancel _ _ _ _ => false
  | .cntr _ _ _ _ _ _ => false
  | .time _ _ => false
  | .waitt _ _ => false
  | .perf _ _ _ _ => false
  | .stopr _ _ _ => false
  | .halt _ _ _ _ => false
  | .resume _ _ _ => false
  | .iaddi _ _ _ _ => false
  | .andi _ _ _ _ => false
  | .ori _ _ _ _ => false
  | .xori _ _ _ _ => false
  | .shli _ _ _ _ => false
  | .shri _ _ _ _ => false
  | .sari _ _ _ _ => false
  | .movi _ _ _ => false
  | .movh _ _ _ _ => false
  | .bra _ _ => false
  | .call _ _ _ => false
  | .pair _ _ _ => false
  | .collieSelect _ _ => true
  | .yieldExpiry _ _ _ => true
  | .sleepExpiry _ _ _ => true
  | .barrierArrivalApply _ _ _ => true
  | .scoreboardResultArrive _ => true
  | .ifetchFill _ _ _ => true
  | .homeReadRequest _ _ => true
  | .writeArrival _ => true
  | .writeComplete _ => true
  | .tenureExpiry _ _ _ => true
  | .loadDataReturn _ => true
  | .viewCompose _ => true
  | .pageWalk _ _ _ _ _ => true
  | .sideLogRetire _ => true
  | .sideLogReplay _ _ => true
  | .retryResend _ => true
  | .atomicExecute _ => true
  | .msuExecute _ => true
  | .waitaTimeout _ => true
  | .leaseRequestArrive _ => true
  | .leaseGrant _ => true
  | .leaseExpiry _ => true
  | .leaseDrainComplete _ => true
  | .dirRds _ _ _ => true
  | .dirRdx _ _ _ => true
  | .dirWriteback _ _ => true
  | .dirWritebackKeep _ _ => true
  | .dirCleanEviction _ _ => true
  | .visitorProbe _ _ _ => true
  | .visitorAck _ _ _ => true
  | .dirAckReceive _ _ _ => true
  | .hostMemRead _ _ _ => true
  | .hostMemWrite _ _ _ => true
  | .bisnpResponse _ _ _ => true
  | .hostSnoop _ _ => true
  | .hostSnoopTimeout _ => true
  | .trapTaken _ _ => true
  | .uncorrectableStateError _ _ => true
  | .unitStop _ _ => true
  | .haltComplete _ => true
  | .contextEvict _ _ => true
  | .freezeStart _ => true
  | .freezeEnd _ => true
  | .freezeBound => true
  | .throttleEnd _ => true
  | .matrixGrant _ => true
  | .matrixClassAging _ _ => true
  | .matrixEntryComplete _ _ => true
  | .deltaWriteback _ _ => true
  | .cmdAccept _ => true
  | .engineCommandComplete _ => true
  | .bstreamForcedClose _ _ => true
  | .bankSessionIdleEnd _ _ => true
  | .putArrive _ _ _ _ _ _ _ _ => true
  | .putAck _ _ _ => true
  | .flitReplay _ => true
  | .ptpMessage _ => true
  | .qtailWrite _ _ => true
  | .qtailReset _ _ => true
  | .qerrClear _ => true
  | .packetTake _ => true
  | .launchStart _ => true
  | .wgPlace _ _ _ => true
  | .wgComplete _ _ => true
  | .faultackMap _ => true
  | .faultackUnmappable _ => true
  | .xlinvWrite _ => true
  | .xlinvDone => true
  | .evtailWrite _ => true
  | .evlostClear => true
  | .winsyncWrite _ => true
  | .expsyncWrite => true
  | .patsetWrite _ => true
  | .diectlRst _ => true
  | .diectlGate _ => true
  | .diectlUngate _ => true
  | .dieReenter _ _ => true
  | .dieFail _ => true
  | .errorDetect _ _ => true
  | .selfTestDone _ => true
  | .accessTableWrite _ _ _ _ => true
  | .powerOnBoot _ _ _ _ => true
  | .attestationRequest _ => true
  | .registerWrite _ _ _ => true
  | .waittDeadline _ _ _ => true
  | .registerCacheFill _ _ _ => true
  | .icinvComplete _ => true
  | .contextCreation _ => true
  | .partitionReturn _ _ => true
  | .remoteGetArrive _ _ _ _ _ _ => true
  | .portRetrainComplete _ => true
  | .doeIdeKeySet _ _ => true

end Sys2Proof
end

