-- ==== Sys2Proof/Machine/Uses.lean ====
section
/-! DEFINITION. What each instruction reads and writes: registers, predicates, latency class, fence class (R41-R48,
R315). The scoreboard, the poison rules and the register-count check work on these lists. -/

namespace Sys2Proof

/-- The n consecutive registers from r on (R37, R121). -/
def Reg.regs : Reg → Nat → List Reg
  | .v n, k => (List.range k).map fun i => .v (n + i)
  | .w n, k => (List.range k).map fun i => .w (n + i)

/-- Registers a source operand reads; a constant or special operand reads none. -/
def Src.regs : Src → Nat → List Reg
  | .v n, k => (Reg.v n).regs k
  | .w n, k => (Reg.w n).regs k
  | _, _ => []

def regsZ (k : Nat) : Option Reg → List Reg
  | none => []
  | some r => r.regs k
def vRegsZ : Option Nat → List Reg
  | none => []
  | some n => [.v n]

/-- Register that a code of slot X or Y names (R40): banks 0 and 1, or 2 and 3. -/
def slotReg (hi : Bool) (e : Nat) : Nat := 4 * (e / 2) + e % 2 + (if hi then 2 else 0)

/-- The slot's operation reads its destination (R41). -/
def Slot.readsD (t : Slot) : Bool := (1 ≤ t.op && t.op ≤ 8) || (14 ≤ t.op && t.op ≤ 22)

def Slot.srcs (hi : Bool) (t : Slot) : List Reg :=
  (if t.op == 13 then [] else [Reg.v (slotReg hi t.s)]) ++ (if t.readsD then [Reg.v (slotReg hi t.d)] else [])

/-- Fixed latency of a slot's equivalent instruction (R41, R43). -/
def Slot.latency (t : Slot) : Nat :=
  if t.op == 3 || (14 ≤ t.op && t.op ≤ 24) || t.op == 29 || t.op == 30 then 6 else 4

/-- Guard and stall count; a pair has no guard (R41). -/
def Instr.hdr : Instr → Hdr
  | .iadd h _ _ _ _ => h
  | .isub h _ _ _ _ => h
  | .imul h _ _ _ _ => h
  | .imulh h _ _ _ _ => h
  | .imad h _ _ _ _ _ => h
  | .imadw h _ _ _ _ _ => h
  | .iadd64 h _ _ _ _ => h
  | .imin h _ _ _ _ => h
  | .imax h _ _ _ _ => h
  | .iabs h _ _ => h
  | .and h _ _ _ _ => h
  | .or h _ _ _ _ => h
  | .xor h _ _ _ _ => h
  | .shl h _ _ _ _ => h
  | .shr h _ _ _ _ => h
  | .sar h _ _ _ _ => h
  | .rotl h _ _ _ _ => h
  | .bfe h _ _ _ _ _ => h
  | .bfi h _ _ _ _ => h
  | .popc h _ _ => h
  | .clz h _ _ => h
  | .brev h _ _ => h
  | .sel h _ _ _ _ _ _ => h
  | .iset h _ _ _ _ _ => h
  | .pset h _ _ _ _ => h
  | .mov h _ _ _ => h
  | .lea h _ _ _ _ => h
  | .lea64 h _ _ _ _ _ => h
  | .idiv h _ _ _ _ => h
  | .irem h _ _ _ _ => h
  | .p2v h _ => h
  | .v2p h _ _ => h
  | .fadd h _ _ _ _ => h
  | .fsub h _ _ _ _ => h
  | .fmul h _ _ _ _ => h
  | .ffma h _ _ _ _ _ => h
  | .fmin h _ _ _ => h
  | .fmax h _ _ _ => h
  | .fset h _ _ _ _ => h
  | .famax h _ _ _ => h
  | .fneg h _ _ => h
  | .fabs h _ _ => h
  | .frcp h _ _ => h
  | .frsq h _ _ => h
  | .fsqrt h _ _ _ => h
  | .fex2 h _ _ => h
  | .flg2 h _ _ => h
  | .fsin h _ _ => h
  | .fcos h _ _ => h
  | .fscale h _ _ _ _ => h
  | .frnd h _ _ _ => h
  | .fclass h _ _ _ => h
  | .hadd2 h _ _ _ _ => h
  | .hmul2 h _ _ _ _ => h
  | .hfma2 h _ _ _ _ _ => h
  | .badd2 h _ _ _ _ => h
  | .bmul2 h _ _ _ _ => h
  | .bfma2 h _ _ _ _ _ => h
  | .hmnx2 h _ _ _ _ => h
  | .bmnx2 h _ _ _ _ => h
  | .cvt h _ _ _ _ _ => h
  | .cvtp h _ _ _ _ _ => h
  | .e4pk h _ _ _ _ _ _ => h
  | .e4up h _ _ _ => h
  | .fdot2 h _ _ _ _ _ _ => h
  | .nop h => h
  | .brx h _ _ => h
  | .ret h _ => h
  | .exit h => h
  | .sign h _ => h
  | .join h _ => h
  | .joinr h _ _ _ => h
  | .cdecl h _ _ _ => h
  | .yield h => h
  | .sleep h _ => h
  | .brk h _ => h
  | .isync h => h
  | .icinv h _ _ _ => h
  | .trap h _ => h
  | .ld h _ _ _ _ _ _ _ => h
  | .st h _ _ _ _ _ _ => h
  | .lda h _ _ _ _ _ _ _ => h
  | .strl h _ _ _ _ _ _ => h
  | .ldt h _ _ _ _ _ => h
  | .stt h _ _ _ _ => h
  | .pref h _ _ _ _ => h
  | .cwb h _ _ _ => h
  | .cinv h _ _ _ => h
  | .chint h _ _ _ => h
  | .own h _ _ => h
  | .tgive h _ _ => h
  | .ttake h _ _ => h
  | .vset h _ _ _ _ => h
  | .vclr h _ => h
  | .vqry h _ _ _ => h
  | .vaddrIa h _ _ _ => h
  | .vaddrVa h _ _ _ => h
  | .vfill h _ _ => h
  | .atom h _ _ _ _ _ _ _ => h
  | .acas h _ _ _ _ _ _ => h
  | .atomf h _ _ _ _ _ _ => h
  | .red h _ _ _ _ _ _ => h
  | .redf h _ _ _ _ _ => h
  | .lease h _ _ _ => h
  | .lrel h _ _ => h
  | .lchk h _ _ => h
  | .waita h _ _ _ _ _ _ _ => h
  | .awinit h _ _ => h
  | .awadd h _ _ _ => h
  | .awwait h _ _ _ => h
  | .fence h _ _ => h
  | .barSync h _ _ _ => h
  | .barArrive h _ _ _ => h
  | .barWait h _ _ => h
  | .cbarSync h _ _ _ => h
  | .cbarArrive h _ _ _ => h
  | .cbarWait h _ _ => h
  | .efence h => h
  | .tmma h _ _ _ _ _ _ _ _ => h
  | .tmmau h _ _ _ _ _ _ _ _ => h
  | .tperm h _ _ _ _ _ _ _ => h
  | .ttrn h _ _ _ _ _ _ => h
  | .trsum h _ _ _ _ _ _ _ => h
  | .tzero h _ _ _ _ => h
  | .tlda h _ _ _ _ _ _ => h
  | .tsta h _ _ _ _ _ _ _ _ => h
  | .tcommit h _ => h
  | .twait h _ _ => h
  | .ttest h _ _ => h
  | .tscl h _ _ _ => h
  | .tpred h _ _ _ _ => h
  | .tcls h _ _ => h
  | .tcancel h _ _ => h
  | .dslot h _ _ => h
  | .dmul h _ _ _ _ => h
  | .dfresh h _ => h
  | .dinval h _ _ => h
  | .dstat h _ _ _ => h
  | .cpy h _ _ _ => h
  | .cpyx h _ _ _ => h
  | .cpyk h _ _ _ => h
  | .cpyz h _ _ _ => h
  | .bsopen h _ _ _ => h
  | .bsrow h _ _ _ => h
  | .bsclose h _ _ => h
  | .cstat h _ _ _ => h
  | .bkon h _ _ _ => h
  | .bkoff h _ _ => h
  | .bkact h _ _ _ => h
  | .bkbc h _ _ _ => h
  | .bkmac h _ _ _ => h
  | .bkred h _ _ _ => h
  | .bkrd h _ _ _ => h
  | .bkclr h _ _ _ => h
  | .maxpy h _ _ _ => h
  | .mscal h _ _ _ => h
  | .msum h _ _ _ => h
  | .mfill h _ _ _ => h
  | .fput h _ _ _ => h
  | .fputs h _ _ _ => h
  | .fget h _ _ _ => h
  | .wcnt h _ _ _ => h
  | .srd h _ _ _ _ => h
  | .swr h _ _ _ _ => h
  | .rgset h _ _ _ => h
  | .ctxswOut h _ _ => h
  | .ctxswIn h _ _ => h
  | .ctxswDrop h _ _ => h
  | .pzap h _ _ _ => h
  | .launch h _ _ _ => h
  | .cancel h _ _ _ => h
  | .cntr h _ _ _ _ _ => h
  | .time h _ => h
  | .waitt h _ => h
  | .perf h _ _ _ => h
  | .stopr h _ _ => h
  | .halt h _ _ _ => h
  | .resume h _ _ => h
  | .iaddi h _ _ _ => h
  | .andi h _ _ _ => h
  | .ori h _ _ _ => h
  | .xori h _ _ _ => h
  | .shli h _ _ _ => h
  | .shri h _ _ _ => h
  | .sari h _ _ _ => h
  | .movi h _ _ => h
  | .movh h _ _ _ => h
  | .bra h _ => h
  | .call h _ _ => h
  | .pair stall _ _ => ⟨stall, 7, false⟩
  | _ => ⟨0, 7, false⟩

/-- Registers that an instruction reads. -/
def Instr.srcs : Instr → List Reg
  | .iadd _ _ _ a b => a.regs 1 ++ b.regs 1
  | .isub _ _ _ a b => a.regs 1 ++ b.regs 1
  | .imul _ _ _ a b => a.regs 1 ++ b.regs 1
  | .imulh _ _ _ a b => a.regs 1 ++ b.regs 1
  | .imad _ _ _ a b c => a.regs 1 ++ b.regs 1 ++ c.regs 1
  | .imadw _ _ _ a b c => a.regs 1 ++ b.regs 1 ++ regsZ 2 c
  | .iadd64 _ _ _ a b => a.regs 2 ++ b.regs 2
  | .imin _ ty _ a b => a.regs (if ty.wide then 2 else 1) ++ b.regs (if ty.wide then 2 else 1)
  | .imax _ ty _ a b => a.regs (if ty.wide then 2 else 1) ++ b.regs (if ty.wide then 2 else 1)
  | .iabs _ _ a => a.regs 1
  | .and _ ty _ a b => a.regs (if ty.wide then 2 else 1) ++ b.regs (if ty.wide then 2 else 1)
  | .or _ ty _ a b => a.regs (if ty.wide then 2 else 1) ++ b.regs (if ty.wide then 2 else 1)
  | .xor _ ty _ a b => a.regs (if ty.wide then 2 else 1) ++ b.regs (if ty.wide then 2 else 1)
  | .shl _ ty _ a b => a.regs (if ty.wide then 2 else 1) ++ b.regs (if ty.wide then 2 else 1)
  | .shr _ ty _ a b => a.regs (if ty.wide then 2 else 1) ++ b.regs (if ty.wide then 2 else 1)
  | .sar _ ty _ a b => a.regs (if ty.wide then 2 else 1) ++ b.regs (if ty.wide then 2 else 1)
  | .rotl _ _ _ a b => a.regs 1 ++ b.regs 1
  | .bfe _ _ _ a b c => a.regs 1 ++ b.regs 1 ++ c.regs 1
  | .bfi _ _ a b c => a.regs 1 ++ b.regs 1 ++ c.regs 1
  | .popc _ _ a => a.regs 1
  | .clz _ _ a => a.regs 1
  | .brev _ _ a => a.regs 1
  | .sel _ ty _ _ _ a b => a.regs (if ty.wide then 2 else 1) ++ b.regs (if ty.wide then 2 else 1)
  | .iset _ ty _ _ a b => a.regs (if ty.wide then 2 else 1) ++ b.regs (if ty.wide then 2 else 1)
  | .mov _ ty _ a => a.regs (if ty.wide then 2 else 1)
  | .lea _ _ a b c => a.regs 1 ++ b.regs 1 ++ c.regs 1
  | .lea64 _ _ _ a b c => a.regs 2 ++ b.regs 1 ++ c.regs 1
  | .idiv _ _ _ a b => a.regs 1 ++ b.regs 1
  | .irem _ _ _ a b => a.regs 1 ++ b.regs 1
  | .v2p _ a b => a.regs 1 ++ b.regs 1
  | .fadd _ _ _ a b => a.regs 1 ++ b.regs 1
  | .fsub _ _ _ a b => a.regs 1 ++ b.regs 1
  | .fmul _ _ _ a b => a.regs 1 ++ b.regs 1
  | .ffma _ _ _ a b c => a.regs 1 ++ b.regs 1 ++ c.regs 1
  | .fmin _ _ a b => a.regs 1 ++ b.regs 1
  | .fmax _ _ a b => a.regs 1 ++ b.regs 1
  | .fset _ _ _ a b => a.regs 1 ++ b.regs 1
  | .famax _ _ a b => a.regs 1 ++ b.regs 1
  | .fneg _ _ a => a.regs 1
  | .fabs _ _ a => a.regs 1
  | .frcp _ _ a => a.regs 1
  | .frsq _ _ a => a.regs 1
  | .fsqrt _ _ _ a => a.regs 1
  | .fex2 _ _ a => a.regs 1
  | .flg2 _ _ a => a.regs 1
  | .fsin _ _ a => a.regs 1
  | .fcos _ _ a => a.regs 1
  | .fscale _ _ _ a b => a.regs 1 ++ b.regs 1
  | .frnd _ _ _ a => a.regs 1
  | .fclass _ _ _ a => a.regs 1
  | .hadd2 _ _ _ a b => a.regs 1 ++ b.regs 1
  | .hmul2 _ _ _ a b => a.regs 1 ++ b.regs 1
  | .hfma2 _ _ _ a b c => a.regs 1 ++ b.regs 1 ++ c.regs 1
  | .badd2 _ _ _ a b => a.regs 1 ++ b.regs 1
  | .bmul2 _ _ _ a b => a.regs 1 ++ b.regs 1
  | .bfma2 _ _ _ a b c => a.regs 1 ++ b.regs 1 ++ c.regs 1
  | .hmnx2 _ _ _ a b => a.regs 1 ++ b.regs 1
  | .bmnx2 _ _ _ a b => a.regs 1 ++ b.regs 1
  | .cvt _ cv _ _ _ a => a.regs (if cv.wideA then 2 else 1)
  | .cvtp _ _ _ _ a b => a.regs 1 ++ b.regs 1
  | .e4pk _ _ _ _ a b c => a.regs 1 ++ b.regs 1 ++ c.regs 1
  | .e4up _ _ _ a => a.regs 1
  | .fdot2 _ _ _ _ a b c => a.regs 1 ++ b.regs 1 ++ c.regs 1
  | .brx _ a b => a.regs 2 ++ b.regs 1
  | .ret _ a => a.regs 2
  | .joinr _ _ _ a => a.regs 1
  | .cdecl _ _ _ a => a.regs 1
  | .sleep _ a => a.regs 1
  | .icinv _ _ a b => a.regs 2 ++ b.regs 1
  | .trap _ a => a.regs 1
  | .ld _ _ _ _ _ _ a b => a.regs 2 ++ b.regs 1
  | .st _ _ _ sz a b c => a.regs 2 ++ b.regs 1 ++ c.regs sz.group
  | .lda _ _ _ _ _ _ a b => a.regs 2 ++ b.regs 1
  | .strl _ _ _ sz a b c => a.regs 2 ++ b.regs 1 ++ c.regs sz.group
  | .ldt _ _ _ _ a b => a.regs 1 ++ b.regs 1
  | .stt _ sz a b c => a.regs 1 ++ b.regs 1 ++ c.regs sz.group
  | .pref _ _ _ a b => a.regs 2 ++ b.regs 1
  | .cwb _ _ a b => a.regs 2 ++ b.regs 1
  | .cinv _ _ a b => a.regs 2 ++ b.regs 1
  | .chint _ _ a b => a.regs 2 ++ b.regs 1
  | .own _ _ a => a.regs 1
  | .tgive _ a b => a.regs 1 ++ b.regs 1
  | .ttake _ a b => a.regs 1 ++ b.regs 1
  | .vset _ _ _ a b => a.regs 2 ++ b.regs 1
  | .vqry _ _ _ a => a.regs 1
  | .vaddrIa _ _ a b => a.regs 2 ++ b.regs 1
  | .vaddrVa _ _ a b => a.regs 2 ++ b.regs 1
  | .vfill _ _ a => a.regs 1
  | .atom _ _ ty _ _ a b c => a.regs 2 ++ b.regs 1 ++ c.regs (if ty.wide then 2 else 1)
  | .acas _ ty _ _ a b c => a.regs 2 ++ b.regs 1 ++ (Reg.v c).regs (if ty.wide then 4 else 2)
  | .atomf _ _ _ _ a b c => a.regs 2 ++ b.regs 1 ++ c.regs 1
  | .red _ _ ty _ a b c => a.regs 2 ++ b.regs 1 ++ c.regs (if ty.wide then 2 else 1)
  | .redf _ _ _ a b c => a.regs 2 ++ b.regs 1 ++ c.regs 1
  | .lease _ _ a b => a.regs 2 ++ b.regs 1
  | .lrel _ _ a => a.regs 2
  | .lchk _ _ a => a.regs 2
  | .waita _ _ _ _ _ a b c => a.regs 2 ++ b.regs 1 ++ c.regs 2
  | .awinit _ a b => a.regs 1 ++ b.regs 1
  | .awadd _ _ a b => a.regs 1 ++ b.regs 1
  | .awwait _ _ a b => a.regs 1 ++ b.regs 1
  | .barSync _ _ _ a => a.regs 1
  | .barArrive _ _ _ a => a.regs 1
  | .cbarSync _ _ _ a => a.regs 1
  | .cbarArrive _ _ _ a => a.regs 1
  | .tmma _ _ _ _ _ _ a b _ => a.regs 1 ++ b.regs 1
  | .tmmau _ _ _ _ _ _ a b _ => a.regs 1 ++ b.regs 1
  | .tperm _ _ _ _ _ a b _ => a.regs 1 ++ b.regs 1
  | .ttrn _ _ _ _ _ a _ => a.regs 1
  | .trsum _ _ _ _ _ _ a _ => a.regs 1
  | .tlda _ _ _ _ _ a _ => a.regs 1
  | .tsta _ _ _ _ _ _ a b _ => a.regs 1 ++ b.regs 1
  | .tscl _ _ _ a => a.regs 1
  | .tpred _ _ _ _ a => regsZ 2 a
  | .tcls _ _ a => a.regs 1
  | .dslot _ _ a => a.regs 1
  | .dmul _ _ a b _ => a.regs 1 ++ b.regs 1
  | .dfresh _ a => a.regs 1
  | .dinval _ _ a => a.regs 1
  | .dstat _ _ a b => a.regs 1 ++ b.regs 1
  | .cpy _ _ a b => a.regs 1 ++ b.regs 1
  | .cpyx _ _ a b => a.regs 1 ++ b.regs 1
  | .cpyk _ _ a b => a.regs 1 ++ b.regs 1
  | .cpyz _ _ a b => a.regs 1 ++ b.regs 1
  | .bsopen _ _ a b => a.regs 1 ++ b.regs 1
  | .bsrow _ _ a b => a.regs 1 ++ b.regs 1
  | .bsclose _ _ a => a.regs 1
  | .cstat _ _ a b => a.regs 1 ++ b.regs 1
  | .bkon _ _ a b => a.regs 1 ++ b.regs 1
  | .bkoff _ _ a => a.regs 1
  | .bkact _ _ a b => a.regs 1 ++ b.regs 1
  | .bkbc _ _ a b => a.regs 1 ++ b.regs 1
  | .bkmac _ _ a b => a.regs 1 ++ b.regs 1
  | .bkred _ _ a b => a.regs 1 ++ b.regs 1
  | .bkrd _ _ a b => a.regs 1 ++ b.regs 1
  | .bkclr _ _ a b => a.regs 1 ++ b.regs 1
  | .maxpy _ _ a b => a.regs 1 ++ b.regs 1
  | .mscal _ _ a b => a.regs 1 ++ b.regs 1
  | .msum _ _ a b => a.regs 1 ++ b.regs 1
  | .mfill _ _ a b => a.regs 1 ++ b.regs 1
  | .fput _ _ a b => a.regs 1 ++ b.regs 1
  | .fputs _ _ a b => a.regs 1 ++ b.regs 1
  | .fget _ _ a b => a.regs 1 ++ b.regs 1
  | .wcnt _ _ a b => a.regs 1 ++ b.regs 1
  | .srd _ _ _ _ a => a.regs 1
  | .swr _ num _ a b => a.regs 1 ++ b.regs (if num.wide then 2 else 1)
  | .rgset _ a b c => a.regs 1 ++ b.regs 1 ++ (Reg.v c).regs 8
  | .ctxswOut _ _ a => a.regs 1
  | .ctxswIn _ _ a => a.regs 1
  | .ctxswDrop _ _ a => a.regs 1
  | .pzap _ _ a b => a.regs 2 ++ b.regs 1
  | .launch _ _ a b => a.regs 2 ++ b.regs 1
  | .cancel _ _ _ a => a.regs 1
  | .cntr _ _ _ _ _ a => a.regs 1
  | .waitt _ a => a.regs 2
  | .perf _ _ _ a => a.regs 1
  | .stopr _ _ a => a.regs 1
  | .halt _ _ _ a => a.regs 1
  | .resume _ _ a => a.regs 1
  | .iaddi _ _ a _ => a.regs 1
  | .andi _ _ a _ => a.regs 1
  | .ori _ _ a _ => a.regs 1
  | .xori _ _ a _ => a.regs 1
  | .shli _ _ a _ => a.regs 1
  | .shri _ _ a _ => a.regs 1
  | .sari _ _ a _ => a.regs 1
  | .movh _ _ a _ => a.regs 1
  | .pair _ x y => x.srcs false ++ y.srcs true
  | _ => []

/-- Registers that an instruction writes. -/
def Instr.dsts : Instr → List Reg
  | .iadd _ _ d _ _ => d.regs 1
  | .isub _ _ d _ _ => d.regs 1
  | .imul _ _ d _ _ => d.regs 1
  | .imulh _ _ d _ _ => d.regs 1
  | .imad _ _ d _ _ _ => d.regs 1
  | .imadw _ _ d _ _ _ => d.regs 2
  | .iadd64 _ _ d _ _ => d.regs 2
  | .imin _ ty d _ _ => d.regs (if ty.wide then 2 else 1)
  | .imax _ ty d _ _ => d.regs (if ty.wide then 2 else 1)
  | .iabs _ d _ => d.regs 1
  | .and _ ty d _ _ => d.regs (if ty.wide then 2 else 1)
  | .or _ ty d _ _ => d.regs (if ty.wide then 2 else 1)
  | .xor _ ty d _ _ => d.regs (if ty.wide then 2 else 1)
  | .shl _ ty d _ _ => d.regs (if ty.wide then 2 else 1)
  | .shr _ ty d _ _ => d.regs (if ty.wide then 2 else 1)
  | .sar _ ty d _ _ => d.regs (if ty.wide then 2 else 1)
  | .rotl _ _ d _ _ => d.regs 1
  | .bfe _ _ d _ _ _ => d.regs 1
  | .bfi _ d _ _ _ => d.regs 1
  | .popc _ d _ => d.regs 1
  | .clz _ d _ => d.regs 1
  | .brev _ d _ => d.regs 1
  | .sel _ ty _ _ d _ _ => d.regs (if ty.wide then 2 else 1)
  | .mov _ ty d _ => d.regs (if ty.wide then 2 else 1)
  | .lea _ d _ _ _ => d.regs 1
  | .lea64 _ _ d _ _ _ => d.regs 2
  | .idiv _ _ d _ _ => d.regs 1
  | .irem _ _ d _ _ => d.regs 1
  | .p2v _ d => d.regs 1
  | .fadd _ _ d _ _ => d.regs 1
  | .fsub _ _ d _ _ => d.regs 1
  | .fmul _ _ d _ _ => d.regs 1
  | .ffma _ _ d _ _ _ => d.regs 1
  | .fmin _ d _ _ => d.regs 1
  | .fmax _ d _ _ => d.regs 1
  | .famax _ d _ _ => d.regs 1
  | .fneg _ d _ => d.regs 1
  | .fabs _ d _ => d.regs 1
  | .frcp _ d _ => d.regs 1
  | .frsq _ d _ => d.regs 1
  | .fsqrt _ _ d _ => d.regs 1
  | .fex2 _ d _ => d.regs 1
  | .flg2 _ d _ => d.regs 1
  | .fsin _ d _ => d.regs 1
  | .fcos _ d _ => d.regs 1
  | .fscale _ _ d _ _ => d.regs 1
  | .frnd _ _ d _ => d.regs 1
  | .fclass _ _ d _ => d.regs 1
  | .hadd2 _ _ d _ _ => d.regs 1
  | .hmul2 _ _ d _ _ => d.regs 1
  | .hfma2 _ _ d _ _ _ => d.regs 1
  | .badd2 _ _ d _ _ => d.regs 1
  | .bmul2 _ _ d _ _ => d.regs 1
  | .bfma2 _ _ d _ _ _ => d.regs 1
  | .hmnx2 _ _ d _ _ => d.regs 1
  | .bmnx2 _ _ d _ _ => d.regs 1
  | .cvt _ cv _ _ d _ => d.regs (if cv.wideD then 2 else 1)
  | .cvtp _ _ _ d _ _ => d.regs 1
  | .e4pk _ _ _ d _ _ _ => d.regs 1
  | .e4up _ _ d _ => d.regs 1
  | .fdot2 _ _ _ d _ _ _ => d.regs 1
  | .joinr _ _ d _ => (Reg.v d).regs 1
  | .ld _ _ _ _ sz d _ _ => (Reg.v d).regs sz.group
  | .lda _ _ _ _ sz d _ _ => (Reg.v d).regs sz.group
  | .ldt _ _ sz d _ _ => (Reg.v d).regs sz.group
  | .own _ d _ => (Reg.v d).regs 1
  | .vset _ _ d _ _ => vRegsZ d
  | .vqry _ _ d _ => (Reg.v d).regs 1
  | .vaddrIa _ d _ _ => d.regs 2
  | .vaddrVa _ d _ _ => d.regs 2
  | .atom _ _ ty _ d _ _ _ => d.regs (if ty.wide then 2 else 1)
  | .acas _ ty _ d _ _ _ => d.regs (if ty.wide then 2 else 1)
  | .atomf _ _ _ d _ _ _ => (Reg.v d).regs 1
  | .lease _ d _ _ => (Reg.v d).regs 1
  | .lrel _ d _ => (Reg.v d).regs 1
  | .lchk _ d _ => (Reg.v d).regs 1
  | .waita _ _ _ _ d _ _ _ => (Reg.v d).regs 1
  | .awadd _ d _ _ => vRegsZ d
  | .awwait _ d _ _ => vRegsZ d
  | .twait _ _ d => vRegsZ d
  | .ttest _ _ d => (Reg.v d).regs 1
  | .tpred _ _ _ d _ => regsZ 2 d
  | .tcls _ d _ => vRegsZ d
  | .tcancel _ _ d => vRegsZ d
  | .dslot _ d _ => vRegsZ d
  | .dinval _ d _ => vRegsZ d
  | .dstat _ d _ _ => (Reg.v d).regs 1
  | .cpy _ d _ _ => regsZ 1 d
  | .cpyx _ d _ _ => regsZ 1 d
  | .cpyk _ d _ _ => regsZ 1 d
  | .cpyz _ d _ _ => regsZ 1 d
  | .bsopen _ d _ _ => regsZ 1 d
  | .bsrow _ d _ _ => regsZ 1 d
  | .bsclose _ d _ => regsZ 1 d
  | .cstat _ d _ _ => regsZ 1 d
  | .bkon _ d _ _ => regsZ 1 d
  | .bkoff _ d _ => regsZ 1 d
  | .bkact _ d _ _ => regsZ 1 d
  | .bkbc _ d _ _ => regsZ 1 d
  | .bkmac _ d _ _ => regsZ 1 d
  | .bkred _ d _ _ => regsZ 1 d
  | .bkrd _ d _ _ => regsZ 1 d
  | .bkclr _ d _ _ => regsZ 1 d
  | .maxpy _ d _ _ => regsZ 1 d
  | .mscal _ d _ _ => regsZ 1 d
  | .msum _ d _ _ => regsZ 1 d
  | .mfill _ d _ _ => regsZ 1 d
  | .fput _ d _ _ => regsZ 1 d
  | .fputs _ d _ _ => regsZ 1 d
  | .fget _ d _ _ => regsZ 1 d
  | .wcnt _ d _ _ => regsZ 1 d
  | .srd _ num _ d _ => d.regs (if num.wide then 2 else 1)
  | .ctxswOut _ d _ => vRegsZ d
  | .ctxswIn _ d _ => vRegsZ d
  | .ctxswDrop _ d _ => vRegsZ d
  | .launch _ d _ _ => vRegsZ d
  | .cntr _ _ _ _ d _ => d.regs 2
  | .time _ d => (Reg.v d).regs 4
  | .perf _ _ d _ => d.regs 2
  | .stopr _ d _ => (Reg.v d).regs 1
  | .halt _ _ d _ => vRegsZ d
  | .resume _ d _ => vRegsZ d
  | .iaddi _ d _ _ => d.regs 1
  | .andi _ d _ _ => d.regs 1
  | .ori _ d _ _ => d.regs 1
  | .xori _ d _ _ => d.regs 1
  | .shli _ d _ _ => d.regs 1
  | .shri _ d _ _ => d.regs 1
  | .sari _ d _ _ => d.regs 1
  | .movi _ d _ => d.regs 1
  | .movh _ d _ _ => d.regs 1
  | .call _ d _ => (Reg.v d).regs 2
  | .pair _ x y => [.v (slotReg false x.d), .v (slotReg true y.d)]
  | _ => []

/-- Predicates that an instruction reads beside its guard (R59, R61, R62). -/
def Instr.predSrcs : Instr → List Nat
  | .sel _ _ pn _ _ _ _ => [pn]
  | .pset _ _ _ a b => [a, b]
  | .p2v _ _ => List.range 7
  | _ => []

/-- Predicates that an instruction may write (R60-R62, R74); v2p writes those its mask names. -/
def Instr.predDsts : Instr → List Nat
  | .iset _ _ _ d _ _ => [d]
  | .pset _ _ d _ _ => [d]
  | .fset _ _ d _ _ => [d]
  | .v2p _ _ _ => List.range 7
  | _ => []

/-- Opcodes 0x000-0x07F and pairs (R48). -/
def Instr.laneClass : Instr → Bool
  | .iadd _ _ _ _ _ => true
  | .isub _ _ _ _ _ => true
  | .imul _ _ _ _ _ => true
  | .imulh _ _ _ _ _ => true
  | .imad _ _ _ _ _ _ => true
  | .imadw _ _ _ _ _ _ => true
  | .iadd64 _ _ _ _ _ => true
  | .imin _ _ _ _ _ => true
  | .imax _ _ _ _ _ => true
  | .iabs _ _ _ => true
  | .and _ _ _ _ _ => true
  | .or _ _ _ _ _ => true
  | .xor _ _ _ _ _ => true
  | .shl _ _ _ _ _ => true
  | .shr _ _ _ _ _ => true
  | .sar _ _ _ _ _ => true
  | .rotl _ _ _ _ _ => true
  | .bfe _ _ _ _ _ _ => true
  | .bfi _ _ _ _ _ => true
  | .popc _ _ _ => true
  | .clz _ _ _ => true
  | .brev _ _ _ => true
  | .sel _ _ _ _ _ _ _ => true
  | .iset _ _ _ _ _ _ => true
  | .pset _ _ _ _ _ => true
  | .mov _ _ _ _ => true
  | .lea _ _ _ _ _ => true
  | .lea64 _ _ _ _ _ _ => true
  | .idiv _ _ _ _ _ => true
  | .irem _ _ _ _ _ => true
  | .p2v _ _ => true
  | .v2p _ _ _ => true
  | .fadd _ _ _ _ _ => true
  | .fsub _ _ _ _ _ => true
  | .fmul _ _ _ _ _ => true
  | .ffma _ _ _ _ _ _ => true
  | .fmin _ _ _ _ => true
  | .fmax _ _ _ _ => true
  | .fset _ _ _ _ _ => true
  | .famax _ _ _ _ => true
  | .fneg _ _ _ => true
  | .fabs _ _ _ => true
  | .frcp _ _ _ => true
  | .frsq _ _ _ => true
  | .fsqrt _ _ _ _ => true
  | .fex2 _ _ _ => true
  | .flg2 _ _ _ => true
  | .fsin _ _ _ => true
  | .fcos _ _ _ => true
  | .fscale _ _ _ _ _ => true
  | .frnd _ _ _ _ => true
  | .fclass _ _ _ _ => true
  | .hadd2 _ _ _ _ _ => true
  | .hmul2 _ _ _ _ _ => true
  | .hfma2 _ _ _ _ _ _ => true
  | .badd2 _ _ _ _ _ => true
  | .bmul2 _ _ _ _ _ => true
  | .bfma2 _ _ _ _ _ _ => true
  | .hmnx2 _ _ _ _ _ => true
  | .bmnx2 _ _ _ _ _ => true
  | .cvt _ _ _ _ _ _ => true
  | .cvtp _ _ _ _ _ _ => true
  | .e4pk _ _ _ _ _ _ _ => true
  | .e4up _ _ _ _ => true
  | .fdot2 _ _ _ _ _ _ _ => true
  | .iaddi _ _ _ _ => true
  | .andi _ _ _ _ => true
  | .ori _ _ _ _ => true
  | .xori _ _ _ _ => true
  | .shli _ _ _ _ => true
  | .shri _ _ _ _ => true
  | .sari _ _ _ _ => true
  | .movi _ _ _ => true
  | .movh _ _ _ _ => true
  | .pair _ _ _ => true
  | _ => false

/-- Fixed latency of a result (R43); none: the scoreboard tracks it (R44). -/
def Instr.latency : Instr → Option Nat
  | .iadd _ _ _ _ _ => some 4
  | .isub _ _ _ _ _ => some 4
  | .imul _ _ _ _ _ => some 6
  | .imulh _ _ _ _ _ => some 6
  | .imad _ _ _ _ _ _ => some 6
  | .imadw _ _ _ _ _ _ => some 6
  | .iadd64 _ _ _ _ _ => some 4
  | .imin _ _ _ _ _ => some 4
  | .imax _ _ _ _ _ => some 4
  | .iabs _ _ _ => some 4
  | .and _ _ _ _ _ => some 4
  | .or _ _ _ _ _ => some 4
  | .xor _ _ _ _ _ => some 4
  | .shl _ _ _ _ _ => some 4
  | .shr _ _ _ _ _ => some 4
  | .sar _ _ _ _ _ => some 4
  | .rotl _ _ _ _ _ => some 4
  | .bfe _ _ _ _ _ _ => some 4
  | .bfi _ _ _ _ _ => some 4
  | .popc _ _ _ => some 4
  | .clz _ _ _ => some 4
  | .brev _ _ _ => some 4
  | .sel _ _ _ _ _ _ _ => some 4
  | .iset _ _ _ _ _ _ => some 4
  | .pset _ _ _ _ _ => some 4
  | .mov _ _ _ _ => some 4
  | .lea _ _ _ _ _ => some 4
  | .lea64 _ _ _ _ _ _ => some 4
  | .p2v _ _ => some 4
  | .v2p _ _ _ => some 4
  | .fadd _ _ _ _ _ => some 6
  | .fsub _ _ _ _ _ => some 6
  | .fmul _ _ _ _ _ => some 6
  | .ffma _ _ _ _ _ _ => some 6
  | .fmin _ _ _ _ => some 6
  | .fmax _ _ _ _ => some 6
  | .fset _ _ _ _ _ => some 4
  | .famax _ _ _ _ => some 6
  | .fneg _ _ _ => some 6
  | .fabs _ _ _ => some 6
  | .frcp _ _ _ => some 12
  | .frsq _ _ _ => some 12
  | .fex2 _ _ _ => some 12
  | .flg2 _ _ _ => some 12
  | .fsin _ _ _ => some 12
  | .fcos _ _ _ => some 12
  | .fscale _ _ _ _ _ => some 6
  | .frnd _ _ _ _ => some 6
  | .fclass _ _ _ _ => some 6
  | .hadd2 _ _ _ _ _ => some 6
  | .hmul2 _ _ _ _ _ => some 6
  | .hfma2 _ _ _ _ _ _ => some 6
  | .badd2 _ _ _ _ _ => some 6
  | .bmul2 _ _ _ _ _ => some 6
  | .bfma2 _ _ _ _ _ _ => some 6
  | .hmnx2 _ _ _ _ _ => some 6
  | .bmnx2 _ _ _ _ _ => some 6
  | .cvt _ _ _ _ _ _ => some 6
  | .cvtp _ _ _ _ _ _ => some 6
  | .e4pk _ _ _ _ _ _ _ => some 6
  | .e4up _ _ _ _ => some 6
  | .fdot2 _ _ _ _ _ _ _ => some 6
  | .iaddi _ _ _ _ => some 4
  | .andi _ _ _ _ => some 4
  | .ori _ _ _ _ => some 4
  | .xori _ _ _ _ => some 4
  | .shli _ _ _ _ => some 4
  | .shri _ _ _ _ => some 4
  | .sari _ _ _ _ => some 4
  | .movi _ _ _ => some 4
  | .movh _ _ _ _ => some 4
  | .pair _ x y => some (max x.latency y.latency)
  | _ => none

/-- How fences, acquires and releases class an instruction (R315): a load, another instruction that a fence can hold,
or one that is never held. -/
inductive FClass where
  | free | loads | others
  deriving DecidableEq, Repr

def Instr.fenceClass : Instr → FClass
  | .icinv _ _ _ _ => .others
  | .ld _ _ _ _ _ _ _ _ => .loads
  | .st _ _ _ _ _ _ _ => .others
  | .lda _ _ _ _ _ _ _ _ => .loads
  | .strl _ _ _ _ _ _ _ => .others
  | .ldt _ _ _ _ _ _ => .loads
  | .stt _ _ _ _ _ => .others
  | .pref _ _ _ _ _ => .loads
  | .cwb _ _ _ _ => .others
  | .cinv _ _ _ _ => .others
  | .chint _ _ _ _ => .others
  | .own _ _ _ => .loads
  | .tgive _ _ _ => .others
  | .ttake _ _ _ => .others
  | .vset _ _ _ _ _ => .others
  | .vclr _ _ => .others
  | .vqry _ _ _ _ => .loads
  | .vfill _ _ _ => .others
  | .atom _ _ _ _ _ _ _ _ => .others
  | .acas _ _ _ _ _ _ _ => .others
  | .atomf _ _ _ _ _ _ _ => .others
  | .red _ _ _ _ _ _ _ => .others
  | .redf _ _ _ _ _ _ => .others
  | .lease _ _ _ _ => .others
  | .lrel _ _ _ => .others
  | .lchk _ _ _ => .loads
  | .waita _ _ _ _ _ _ _ _ => .loads
  | .awinit _ _ _ => .others
  | .awadd _ _ _ _ => .others
  | .awwait _ _ _ _ => .loads
  | .barSync _ _ _ _ => .others
  | .barArrive _ _ _ _ => .others
  | .barWait _ _ _ => .others
  | .cbarSync _ _ _ _ => .others
  | .cbarArrive _ _ _ _ => .others
  | .cbarWait _ _ _ => .others
  | .tmma _ _ _ _ _ _ _ _ _ => .others
  | .tmmau _ _ _ _ _ _ _ _ _ => .others
  | .tperm _ _ _ _ _ _ _ _ => .others
  | .ttrn _ _ _ _ _ _ _ => .others
  | .trsum _ _ _ _ _ _ _ _ => .others
  | .tzero _ _ _ _ _ => .others
  | .tlda _ _ _ _ _ _ _ => .others
  | .tsta _ _ _ _ _ _ _ _ _ => .others
  | .tscl _ _ _ _ => .loads
  | .dslot _ _ _ => .others
  | .dmul _ _ _ _ _ => .others
  | .dfresh _ _ => .others
  | .dinval _ _ _ => .others
  | .dstat _ _ _ _ => .loads
  | .cpy _ _ _ _ => .others
  | .cpyx _ _ _ _ => .others
  | .cpyk _ _ _ _ => .others
  | .cpyz _ _ _ _ => .others
  | .bsopen _ _ _ _ => .others
  | .bsrow _ _ _ _ => .others
  | .bsclose _ _ _ => .others
  | .cstat _ _ _ _ => .others
  | .bkon _ _ _ _ => .others
  | .bkoff _ _ _ => .others
  | .bkact _ _ _ _ => .others
  | .bkbc _ _ _ _ => .others
  | .bkmac _ _ _ _ => .others
  | .bkred _ _ _ _ => .others
  | .bkrd _ _ _ _ => .others
  | .bkclr _ _ _ _ => .others
  | .maxpy _ _ _ _ => .others
  | .mscal _ _ _ _ => .others
  | .msum _ _ _ _ => .others
  | .mfill _ _ _ _ => .others
  | .fput _ _ _ _ => .others
  | .fputs _ _ _ _ => .others
  | .fget _ _ _ _ => .others
  | .wcnt _ _ _ _ => .others
  | .pzap _ _ _ _ => .others
  | .launch _ _ _ _ => .others
  | _ => .free

/-- Tile that a matrix entry opcode names (R190, R223). -/
def Instr.tileD : Instr → Option Nat
  | .tmma _ _ _ _ _ d _ _ _ => some d
  | .tmmau _ _ _ _ _ d _ _ _ => some d
  | .tperm _ _ _ _ d _ _ _ => some d
  | .ttrn _ _ _ _ d _ _ => some d
  | .trsum _ _ _ _ _ d _ _ => some d
  | .tzero _ _ _ d _ => some d
  | .tlda _ _ _ _ d _ _ => some d
  | .tsta _ _ _ _ _ d _ _ _ => some d
  | .dmul _ d _ _ _ => some d
  | _ => none

/-- The instruction names clock.lo, whose read latches clock.hi (R36). -/
def Instr.readsClock : Instr → Bool
  | .iadd _ _ _ a b => a == .sp 13 || b == .sp 13
  | .isub _ _ _ a b => a == .sp 13 || b == .sp 13
  | .imul _ _ _ a b => a == .sp 13 || b == .sp 13
  | .imulh _ _ _ a b => a == .sp 13 || b == .sp 13
  | .imad _ _ _ a b c => a == .sp 13 || b == .sp 13 || c == .sp 13
  | .imadw _ _ _ a b _ => a == .sp 13 || b == .sp 13
  | .imin _ _ _ a b => a == .sp 13 || b == .sp 13
  | .imax _ _ _ a b => a == .sp 13 || b == .sp 13
  | .iabs _ _ a => a == .sp 13
  | .and _ _ _ a b => a == .sp 13 || b == .sp 13
  | .or _ _ _ a b => a == .sp 13 || b == .sp 13
  | .xor _ _ _ a b => a == .sp 13 || b == .sp 13
  | .shl _ _ _ a b => a == .sp 13 || b == .sp 13
  | .shr _ _ _ a b => a == .sp 13 || b == .sp 13
  | .sar _ _ _ a b => a == .sp 13 || b == .sp 13
  | .rotl _ _ _ a b => a == .sp 13 || b == .sp 13
  | .bfe _ _ _ a b c => a == .sp 13 || b == .sp 13 || c == .sp 13
  | .bfi _ _ a b c => a == .sp 13 || b == .sp 13 || c == .sp 13
  | .popc _ _ a => a == .sp 13
  | .clz _ _ a => a == .sp 13
  | .brev _ _ a => a == .sp 13
  | .sel _ _ _ _ _ a b => a == .sp 13 || b == .sp 13
  | .iset _ _ _ _ a b => a == .sp 13 || b == .sp 13
  | .mov _ _ _ a => a == .sp 13
  | .lea _ _ a b c => a == .sp 13 || b == .sp 13 || c == .sp 13
  | .lea64 _ _ _ _ b c => b == .sp 13 || c == .sp 13
  | .idiv _ _ _ a b => a == .sp 13 || b == .sp 13
  | .irem _ _ _ a b => a == .sp 13 || b == .sp 13
  | .v2p _ a b => a == .sp 13 || b == .sp 13
  | .fadd _ _ _ a b => a == .sp 13 || b == .sp 13
  | .fsub _ _ _ a b => a == .sp 13 || b == .sp 13
  | .fmul _ _ _ a b => a == .sp 13 || b == .sp 13
  | .ffma _ _ _ a b c => a == .sp 13 || b == .sp 13 || c == .sp 13
  | .fmin _ _ a b => a == .sp 13 || b == .sp 13
  | .fmax _ _ a b => a == .sp 13 || b == .sp 13
  | .fset _ _ _ a b => a == .sp 13 || b == .sp 13
  | .famax _ _ a b => a == .sp 13 || b == .sp 13
  | .fneg _ _ a => a == .sp 13
  | .fabs _ _ a => a == .sp 13
  | .frcp _ _ a => a == .sp 13
  | .frsq _ _ a => a == .sp 13
  | .fsqrt _ _ _ a => a == .sp 13
  | .fex2 _ _ a => a == .sp 13
  | .flg2 _ _ a => a == .sp 13
  | .fsin _ _ a => a == .sp 13
  | .fcos _ _ a => a == .sp 13
  | .fscale _ _ _ a b => a == .sp 13 || b == .sp 13
  | .frnd _ _ _ a => a == .sp 13
  | .fclass _ _ _ a => a == .sp 13
  | .hadd2 _ _ _ a b => a == .sp 13 || b == .sp 13
  | .hmul2 _ _ _ a b => a == .sp 13 || b == .sp 13
  | .hfma2 _ _ _ a b c => a == .sp 13 || b == .sp 13 || c == .sp 13
  | .badd2 _ _ _ a b => a == .sp 13 || b == .sp 13
  | .bmul2 _ _ _ a b => a == .sp 13 || b == .sp 13
  | .bfma2 _ _ _ a b c => a == .sp 13 || b == .sp 13 || c == .sp 13
  | .hmnx2 _ _ _ a b => a == .sp 13 || b == .sp 13
  | .bmnx2 _ _ _ a b => a == .sp 13 || b == .sp 13
  | .cvt _ _ _ _ _ a => a == .sp 13
  | .cvtp _ _ _ _ a b => a == .sp 13 || b == .sp 13
  | .e4pk _ _ _ _ a b c => a == .sp 13 || b == .sp 13 || c == .sp 13
  | .e4up _ _ _ a => a == .sp 13
  | .fdot2 _ _ _ _ a b c => a == .sp 13 || b == .sp 13 || c == .sp 13
  | .brx _ _ b => b == .sp 13
  | .joinr _ _ _ a => a == .sp 13
  | .cdecl _ _ _ a => a == .sp 13
  | .sleep _ a => a == .sp 13
  | .icinv _ _ _ b => b == .sp 13
  | .trap _ a => a == .sp 13
  | .ld _ _ _ _ _ _ _ b => b == .sp 13
  | .st _ _ _ _ _ b c => b == .sp 13 || c == .sp 13
  | .lda _ _ _ _ _ _ _ b => b == .sp 13
  | .strl _ _ _ _ _ b c => b == .sp 13 || c == .sp 13
  | .ldt _ _ _ _ a b => a == .sp 13 || b == .sp 13
  | .stt _ _ a b c => a == .sp 13 || b == .sp 13 || c == .sp 13
  | .pref _ _ _ _ b => b == .sp 13
  | .cwb _ _ _ b => b == .sp 13
  | .cinv _ _ _ b => b == .sp 13
  | .chint _ _ _ b => b == .sp 13
  | .own _ _ a => a == .sp 13
  | .tgive _ a b => a == .sp 13 || b == .sp 13
  | .ttake _ a b => a == .sp 13 || b == .sp 13
  | .vset _ _ _ _ b => b == .sp 13
  | .vqry _ _ _ a => a == .sp 13
  | .vaddrIa _ _ _ b => b == .sp 13
  | .vaddrVa _ _ _ b => b == .sp 13
  | .vfill _ _ a => a == .sp 13
  | .atom _ _ _ _ _ _ b c => b == .sp 13 || c == .sp 13
  | .acas _ _ _ _ _ b _ => b == .sp 13
  | .atomf _ _ _ _ _ b c => b == .sp 13 || c == .sp 13
  | .red _ _ _ _ _ b c => b == .sp 13 || c == .sp 13
  | .redf _ _ _ _ b c => b == .sp 13 || c == .sp 13
  | .lease _ _ _ b => b == .sp 13
  | .waita _ _ _ _ _ _ b _ => b == .sp 13
  | .awinit _ a b => a == .sp 13 || b == .sp 13
  | .awadd _ _ a b => a == .sp 13 || b == .sp 13
  | .awwait _ _ a b => a == .sp 13 || b == .sp 13
  | .barSync _ _ _ a => a == .sp 13
  | .barArrive _ _ _ a => a == .sp 13
  | .cbarSync _ _ _ a => a == .sp 13
  | .cbarArrive _ _ _ a => a == .sp 13
  | .tmma _ _ _ _ _ _ a b _ => a == .sp 13 || b == .sp 13
  | .tmmau _ _ _ _ _ _ a b _ => a == .sp 13 || b == .sp 13
  | .tperm _ _ _ _ _ a b _ => a == .sp 13 || b == .sp 13
  | .ttrn _ _ _ _ _ a _ => a == .sp 13
  | .trsum _ _ _ _ _ _ a _ => a == .sp 13
  | .tlda _ _ _ _ _ a _ => a == .sp 13
  | .tsta _ _ _ _ _ _ a b _ => a == .sp 13 || b == .sp 13
  | .tscl _ _ _ a => a == .sp 13
  | .tcls _ _ a => a == .sp 13
  | .dslot _ _ a => a == .sp 13
  | .dmul _ _ a b _ => a == .sp 13 || b == .sp 13
  | .dfresh _ a => a == .sp 13
  | .dinval _ _ a => a == .sp 13
  | .dstat _ _ a b => a == .sp 13 || b == .sp 13
  | .cpy _ _ a b => a == .sp 13 || b == .sp 13
  | .cpyx _ _ a b => a == .sp 13 || b == .sp 13
  | .cpyk _ _ a b => a == .sp 13 || b == .sp 13
  | .cpyz _ _ a b => a == .sp 13 || b == .sp 13
  | .bsopen _ _ a b => a == .sp 13 || b == .sp 13
  | .bsrow _ _ a b => a == .sp 13 || b == .sp 13
  | .bsclose _ _ a => a == .sp 13
  | .cstat _ _ a b => a == .sp 13 || b == .sp 13
  | .bkon _ _ a b => a == .sp 13 || b == .sp 13
  | .bkoff _ _ a => a == .sp 13
  | .bkact _ _ a b => a == .sp 13 || b == .sp 13
  | .bkbc _ _ a b => a == .sp 13 || b == .sp 13
  | .bkmac _ _ a b => a == .sp 13 || b == .sp 13
  | .bkred _ _ a b => a == .sp 13 || b == .sp 13
  | .bkrd _ _ a b => a == .sp 13 || b == .sp 13
  | .bkclr _ _ a b => a == .sp 13 || b == .sp 13
  | .maxpy _ _ a b => a == .sp 13 || b == .sp 13
  | .mscal _ _ a b => a == .sp 13 || b == .sp 13
  | .msum _ _ a b => a == .sp 13 || b == .sp 13
  | .mfill _ _ a b => a == .sp 13 || b == .sp 13
  | .fput _ _ a b => a == .sp 13 || b == .sp 13
  | .fputs _ _ a b => a == .sp 13 || b == .sp 13
  | .fget _ _ a b => a == .sp 13 || b == .sp 13
  | .wcnt _ _ a b => a == .sp 13 || b == .sp 13
  | .srd _ _ _ _ a => a == .sp 13
  | .swr _ _ _ a b => a == .sp 13 || b == .sp 13
  | .rgset _ a b _ => a == .sp 13 || b == .sp 13
  | .ctxswOut _ _ a => a == .sp 13
  | .ctxswIn _ _ a => a == .sp 13
  | .ctxswDrop _ _ a => a == .sp 13
  | .pzap _ _ _ b => b == .sp 13
  | .launch _ _ _ b => b == .sp 13
  | .cancel _ _ _ a => a == .sp 13
  | .cntr _ _ _ _ _ a => a == .sp 13
  | .perf _ _ _ a => a == .sp 13
  | .stopr _ _ a => a == .sp 13
  | .halt _ _ _ a => a == .sp 13
  | .resume _ _ a => a == .sp 13
  | .iaddi _ _ a _ => a == .sp 13
  | .andi _ _ a _ => a == .sp 13
  | .ori _ _ a _ => a == .sp 13
  | .xori _ _ a _ => a == .sp 13
  | .shli _ _ a _ => a == .sp 13
  | .shri _ _ a _ => a == .sp 13
  | .sari _ _ a _ => a == .sp 13
  | .movh _ _ a _ => a == .sp 13
  | _ => false

/-- The v indexes that the instruction names (R37, R40). -/
def Instr.vIndexes (i : Instr) : List Nat :=
  ((i.srcs ++ i.dsts).filterMap fun r =>
    match r with
    | .v n => some n
    | .w _ => none) ++
  (match i with
   | .pair _ x y => [slotReg false x.d, slotReg true y.d] ++ [slotReg false x.s, slotReg true y.s]
   | _ => [])

end Sys2Proof
end

