-- ==== Sys2Proof/Machine/Operands.lean ====
section
/-! DEFINITION. Operands: what a thread reads from a register, a predicate, a special operand or a constant at issue
(R35-R38, R45, R119). -/

namespace Sys2Proof.Machine

/-- The workgroup in a slot of a core. -/
def State.wg? (s : State) (core slot : Nat) : Option Workgroup := s.wgs.find? fun g => g.core == core && g.slot == slot

/-- s with that workgroup replaced. -/
def State.setWg (s : State) (g : Workgroup) : State :=
  { s with wgs := s.wgs.map fun x => if x.core == g.core && x.slot == g.slot then g else x }

def State.ctx (s : State) (c : Nat) : Context := s.ctxs.getD c Context.fresh

def State.setCtx (s : State) (c : Nat) (x : Context) : State := { s with ctxs := s.ctxs.set c x }

/-- s with a thread of a workgroup changed. -/
def Workgroup.modThread (g : Workgroup) (tid : Nat) (f : Thread → Thread) : Workgroup :=
  { g with threads := g.threads.map fun t => if t.tid == tid then f t else t }

def State.modThread (s : State) (core slot tid : Nat) (f : Thread → Thread) : State :=
  { s with wgs := s.wgs.map fun g => if g.core == core && g.slot == slot then g.modThread tid f else g }

def Workgroup.thread? (g : Workgroup) (tid : Nat) : Option Thread := g.threads.find? (·.tid == tid)

def State.thread? (s : State) (core slot tid : Nat) : Option Thread := (s.wg? core slot).bind (·.thread? tid)

/-- Checking scoreboard of a context (R45). -/
def Context.chk (c : Context) : Bool := c.ctl.getLsbD 0

/-- Supervisor context (R264, R265). -/
def Context.sup (c : Context) : Bool := c.ctl.getLsbD 1

/-- The context runs and its line is low. -/
def Context.runs (c : Context) : Bool := c.state == .running && !c.halt.high

/-- The die of a core (R7). -/
def dieOf (core : Nat) : Nat := core / 64

/-- A die's 64-bit cycle counter (R36). -/
def State.clock (s : State) (die : Nat) : DWord := BitVec.ofNat 64 (s.now - (s.y.dies.getD die {}).zero)

/-- A thread about to execute an instruction: the state at issue, its workgroup, the thread, the path it is on. -/
structure Env where
  s : State
  g : Workgroup
  t : Thread
  path : Path

/-- Value of a v register as read in this cycle, with its poison (R45, R119). -/
def VCell.read (now tid n : Nat) (c : VCell) : Word × Bool :=
  if now < c.ready && !Config.earlyNew now tid n then (c.old, c.oldPoi) else (c.val, c.poi)

/-- Names of the workgroup registers at Config.wVisible: w0-w63 have their own numbers; then k, the scale registers and
the matrix class. -/
def keyK (n : Nat) : Nat := 64 + n
def keySa (n : Nat) : Nat := 80 + n
def keySb (n : Nat) : Nat := 84 + n
def keyCls : Nat := 88

/-- A reader sees a version of register key (R38): from a free cycle of the window on, which for the writer itself begins
at issue (R45, an early read with chk = 0; log 5). The cycle is free for each register, reader and cycle of issue: the
halves of a pair written together need not be seen together. -/
def Ver.seen {α : Type} (now rd key : Nat) (v : Ver α) : Bool :=
  let free (a b : Nat) : Nat := a + Config.wVisible v.issue rd key % (b + 1 - a)
  v.here && if v.tid == rd then decide (free v.issue v.own ≤ now) else decide (v.issue < now) && decide (free v.lo v.hi ≤ now)

/-- Every reader must see it. -/
def Ver.settled {α : Type} (now : Nat) (v : Ver α) : Bool := v.here && decide (v.hi ≤ now)

/-- What a reader sees of a workgroup register (R38). -/
def Shared.read {α : Type} (now rd key : Nat) (x : Shared α) : α × Bool :=
  x.hist.foldl (fun a v => if v.seen now rd key then (v.val, v.poi) else a) (x.base, x.poi)

/-- What the writer itself has last written, else what it sees: for the workgroup registers that an instruction reads
at issue under the scoreboard (R197, R198). -/
def Shared.readOwn {α : Type} (now rd key : Nat) (x : Shared α) : α × Bool :=
  x.hist.foldl (fun a v => if v.tid == rd || v.seen now rd key then (v.val, v.poi) else a) (x.base, x.poi)

/-- The last version that every reader must see becomes the base, and takes the place of all that issued before it,
arrived or not (R38). -/
def Shared.settle {α : Type} (now : Nat) (x : Shared α) : Shared α :=
  x.hist.foldl (fun a v => if v.settled now then { base := v.val, poi := v.poi } else { a with hist := a.hist ++ [v] })
    { base := x.base, poi := x.poi }

/-- A write that issues in the current cycle (R38): of the writes of one cycle the highest thread's remains. -/
def Shared.put {α : Type} (now : Nat) (v : Ver α) (x : Shared α) : Shared α :=
  let x := x.settle now
  if x.hist.any fun u => u.issue == now && v.tid < u.tid then x
  else { x with hist := x.hist.filter (fun u => u.issue != now) ++ [v] }

/-- A write of fixed latency (R38, R43). Latency 0: a result that is there at once. -/
def Shared.write {α : Type} (now lat tid : Nat) (val : α) (poi : Bool) (x : Shared α) : Shared α :=
  x.put now { issue := now, tid := tid, val := val, poi := poi, own := if lat == 0 then now else now + max lat 8
              lo := now + lat, hi := now + max lat 8 }

/-- A write whose result request id brings later (R38, R44). -/
def Shared.expect {α : Type} (now id tid : Nat) (x : Shared α) : Shared α :=
  x.put now { issue := now, tid := tid, val := x.base, poi := x.poi, here := false, id := id, own := 0, lo := 0, hi := 0 }

/-- The result of request id arrives for a thread: others see it within 8 cycles (log 5). A write that a later one, or a
higher thread's of the same cycle, has replaced is gone. -/
def Shared.arrive {α : Type} (now id tid : Nat) (val : α) (poi : Bool) (x : Shared α) : Shared α :=
  { x with hist := x.hist.map fun v =>
      if v.id == id && v.tid == tid && !v.here then { v with val := val, poi := poi, here := true, own := now, lo := now, hi := now + 8 } else v }

/-- The result of request id will not come for the thread: the register keeps what it held (R253). -/
def Shared.drop {α : Type} (id tid : Nat) (x : Shared α) : Shared α :=
  { x with hist := x.hist.filter fun v => !(v.id == id && v.tid == tid && !v.here) }

/-- Part of the register written by a unit at once, for every reader and over every earlier write (R198). -/
def Shared.patch {α : Type} (f : α → α) (x : Shared α) : Shared α :=
  { x with base := f x.base, hist := x.hist.map fun v => { v with val := f v.val } }

namespace Env

def chk (e : Env) : Bool := (e.s.ctx e.g.ctx).chk

/-- A register as read at issue, with its poison. -/
def reg (e : Env) : Reg → Word × Bool
  | .v n => (e.t.v.getD n {}).read e.s.now e.t.tid n
  | .w n => (e.g.w.getD n { base := 0 }).read e.s.now e.t.tid n

/-- A predicate p0-p6, or p7 (R16, R45). -/
def pred (e : Env) (n : Nat) : Bool × Bool :=
  if 7 ≤ n then (true, false) else
  let c := e.t.p.getD n {}
  if e.s.now < c.ready && !Config.earlyNew e.s.now e.t.tid (512 + n) then (c.old, c.oldPoi) else (c.val, c.poi)

/-- Position of the thread in the bundle (R91). -/
def lane (e : Env) : Nat := e.path.base + (e.path.tids.takeWhile (· != e.t.tid)).length

/-- Special operand 448 + k (R36). -/
def special (e : Env) (k : Nat) : Word :=
  let sh := e.g.shape
  let clk := e.s.clock (dieOf e.g.core)
  let n : Nat := match k with
    | 0 => e.t.tid
    | 1 => e.t.tid % sh.1
    | 2 => e.t.tid / sh.1 % sh.2.1
    | 3 => e.t.tid / (sh.1 * sh.2.1)
    | 4 => e.g.wgid.1
    | 5 => e.g.wgid.2.1
    | 6 => e.g.wgid.2.2
    | 7 => sh.1 * sh.2.1 * sh.2.2
    | 8 => e.g.core
    | 9 => dieOf e.g.core
    | 10 => e.s.y.chip
    | 11 => e.g.cls
    | 12 => e.g.ctx
    | 13 => clk.toNat % 2 ^ 32
    | 14 => (e.t.clockHi.map (·.toNat)).getD (clk.toNat / 2 ^ 32)
    | 15 => e.g.lid
    | 16 => e.g.nwg.1
    | 17 => e.g.nwg.2.1
    | 18 => e.g.nwg.2.2
    | 19 => e.lane
    | 20 => e.path.tids.length
    | _ => 0
  BitVec.ofNat 32 n

/-- A 32-bit source operand (R35). -/
def src (e : Env) : Src → Word
  | .v n => (e.reg (.v n)).1
  | .w n => (e.reg (.w n)).1
  | .sp k => e.special k
  | .c n => BitVec.ofNat 32 n

/-- pair(r): low half in the even register (R28). -/
def pair (e : Env) : Reg → DWord
  | .v n => (e.reg (.v (n + 1))).1 ++ (e.reg (.v n)).1
  | .w n => (e.reg (.w (n + 1))).1 ++ (e.reg (.w n)).1

/-- A pair field that may be the constant 0 (R37). -/
def pairZ (e : Env) : Option Reg → DWord
  | none => 0
  | some r => e.pair r

/-- A source under a 64-bit type: the pair. -/
def src64 (e : Env) : Src → DWord
  | .v n => e.pair (.v n)
  | .w n => e.pair (.w n)
  | x => (e.src x).setWidth 64

/-- Bytes of store data (R121), little-endian: a register, a pair or four registers. -/
def data (e : Env) (z : Size) : Src → Nat
  | .v n => (List.range z.group).foldr (fun k a => (e.reg (.v (n + k))).1.toNat + a * 2 ^ 32) 0
  | .w n => (List.range z.group).foldr (fun k a => (e.reg (.w (n + k))).1.toNat + a * 2 ^ 32) 0
  | x => (e.src x).toNat

/-- Some register, predicate or the guard that the instruction reads is poisoned (R119). -/
def poisoned (e : Env) (i : Instr) : Bool :=
  i.srcs.any (fun r => (e.reg r).2) || i.predSrcs.any (fun p => (e.pred p).2) || (e.pred i.hdr.g).2

/-- The guard (R30). -/
def guard (e : Env) (h : Hdr) : Bool := (e.pred h.g).1 != h.gn

def predReady (e : Env) (n : Nat) : Bool := 7 ≤ n || decide ((e.t.p.getD n {}).ready ≤ e.s.now)

/-- The thread may use the register now: a fixed-latency result is ready (R45). -/
def regReady (e : Env) : Reg → Bool
  | .v n => let c := e.t.v.getD n {}; c.tag != 0 || decide (c.ready ≤ e.s.now)
  | .w n => e.t.wbusy.all fun b => b.w != n || b.tag != 0 || decide (b.ready ≤ e.s.now)

/-- The register awaits a variable-latency result (R44). -/
def regWaits (e : Env) : Reg → Bool
  | .v n => (e.t.v.getD n {}).tag != 0
  | .w n => e.t.wbusy.any fun b => b.w == n && b.tag != 0

end Env

/-- ea of a pair and a 32-bit offset (R102). -/
def Env.ea (e : Env) (a : Reg) (b : Src) : DWord := e.pair a + (e.src b).signExtend 64

end Sys2Proof.Machine
end

