-- ==== Sys2Proof/Machine/Ops.lean ====
section
/-! DEFINITION. Named operations on memory, registers and threads: bytes of memory, results, retiring, taking a trap,
raising a halt, event records, and the two ways instructions execute (lane-class; thread by thread). -/

namespace Sys2Proof.Machine

/-! Bytes and sorted lists. -/

/-- Little-endian bytes of a number (R2). -/
def leBytes : Nat → Nat → List Byte
  | 0, _ => []
  | k + 1, x => BitVec.ofNat 8 x :: leBytes k (x / 256)

/-- The number of a little-endian byte list. -/
def leNat : List Byte → Nat
  | [] => 0
  | b :: l => b.toNat + 256 * leNat l

/-- n bytes of a list from an offset; missing bytes read 0. -/
def slice (l : List Byte) (off n : Nat) : List Byte := (List.range n).map fun k => l.getD (off + k) 0

/-- The number in n bytes at an offset. -/
def numAt (l : List Byte) (off n : Nat) : Nat := leNat (slice l off n)

/-- Replace bytes at an offset. -/
def splice (l : List Byte) (off : Nat) (bs : List Byte) : List Byte :=
  l.take off ++ bs ++ l.drop (off + bs.length)

/-- Insert into a strictly rising list of numbers. -/
def nsInsert (x : Nat) : List Nat → List Nat
  | [] => [x]
  | y :: l => if x < y then x :: y :: l else if x == y then y :: l else y :: nsInsert x l

def nsErase (x : Nat) : List Nat → List Nat
  | [] => []
  | y :: l => if x == y then l else if x < y then y :: l else y :: nsErase x l

/-- Strictly rising. -/
def nsWf : List Nat → Bool
  | [] => true
  | [_] => true
  | x :: y :: l => decide (x < y) && nsWf (y :: l)

/-- The byte at an address. An address that is not listed reads 0 (log 3). -/
def cellGet (a : Nat) : List Host.Cell → Byte
  | [] => 0
  | (x, b) :: l => if x == a then b else if a < x then 0 else cellGet a l

/-- Write one byte. A byte equal to what an unlisted address reads as is not listed. -/
def cellSet (a : Nat) (b : Byte) : List Host.Cell → List Host.Cell
  | [] => if b == 0 then [] else [(a, b)]
  | (x, c) :: l =>
    if a < x then (if b == 0 then (x, c) :: l else (a, b) :: (x, c) :: l)
    else if x == a then (if b == 0 then l else (a, b) :: l)
    else (x, c) :: cellSet a b l

/-- Addresses strictly rising, none below lo, and no listed byte is 0. -/
def cellsWfFrom : Nat → List Host.Cell → Bool
  | _, [] => true
  | lo, (x, b) :: l => decide (lo ≤ x) && b != 0 && cellsWfFrom (x + 1) l

/-- The canonical form of memory. -/
def Memory.wf (l : List Host.Cell) : Bool := cellsWfFrom 0 l

def cellsGet (a n : Nat) (l : List Host.Cell) : List Byte := (List.range n).map fun k => cellGet (a + k) l

def cellsSet (a : Nat) : List Byte → List Host.Cell → List Host.Cell
  | [], l => l
  | b :: bs, l => cellsSet (a + 1) bs (cellSet a b l)

/-- The die that holds a physical sector: a stack from each multiple of 64 GiB, four a die (log 9). -/
def dieOfSector (n : Nat) : Nat := n / 2 ^ 31 % 16 / 4

/-- The sector of device memory is poisoned (R119, R300). -/
def Mem.marked (m : Mem) (n : Nat) : Bool := m.poison.contains n != m.scrub.contains (dieOfSector n)

/-- Make a sector poisoned or ordinary. -/
def Mem.mark (m : Mem) (n : Nat) (b : Bool) : Mem :=
  { m with poison := if b != m.scrub.contains (dieOfSector n) then nsInsert n m.poison else nsErase n m.poison }

/-- A die's controllers write every sector of its stacks as poisoned (R300). -/
def Mem.scrubDie (m : Mem) (die : Nat) : Mem :=
  { m with scrub := nsInsert die m.scrub, poison := m.poison.filter fun n => dieOfSector n != die }

/-! Requests. -/

/-- The request with this id is still under way at the memory system, or the write whose entering the core's write queue it
names has not entered it (R116). -/
def State.pending (s : State) (id : Nat) : Bool :=
  s.m.writes.any (·.id == id) || s.m.reads.any (·.id == id) || s.m.atoms.any (·.id == id) ||
  s.m.waits.any (·.id == id) || s.m.writes.any (fun w => id != 0 && w.eid == id && w.ord == 0) || s.m.leases.any fun l => l.id == id && (l.state == .sent || l.state == .waiting)

/-- The result that request id brings to a workgroup register is not readable by every thread yet (R38, R159). -/
def State.unread (s : State) (id : Nat) : Bool :=
  s.wgs.any fun g => g.w.any fun x => x.hist.any fun v => v.id == id && !v.settled s.now

/-- A release waits for the request: it is under way, or its result is not readable yet (R159). -/
def State.outstanding (s : State) (id : Nat) : Bool := s.pending id || (id != 0 && s.unread id)

def State.anyOutstanding (s : State) (ids : List Nat) : Bool := ids.any s.outstanding

/-- PTP time in ns (R281). -/
def State.ptpNs (s : State) : Nat := s.ptp / 2 ^ 16

/-! Results. -/

/-- A fixed-latency result (R43). DESIGN CHOICE where a second one is written while the first is still pending (chk = 0):
the old value of R45 is the pending one's (log 5). -/
def VCell.put (now lat : Nat) (val : Word) (poi : Bool) (c : VCell) : VCell :=
  { val := val, poi := poi, old := c.val, oldPoi := c.poi, ready := now + lat, tag := 0 }

/-- A result that the scoreboard tracks until it arrives (R44). -/
def VCell.await (id till : Nat) (val : Word) (poi : Bool) : VCell :=
  { val := val, poi := poi, old := val, oldPoi := poi, ready := till, tag := id }

/-- A result that has arrived. -/
def VCell.arrived (val : Word) (poi : Bool) : VCell := { val := val, poi := poi, old := val, oldPoi := poi }

def Thread.setV (t : Thread) (n : Nat) (c : VCell) : Thread := { t with v := t.v.set n c }

/-- A register result that arrives now (R44): a v register of the thread, or a w register of its workgroup (R38). -/
def Workgroup.deliver (now tid : Nat) (r : Reg) (val : Word) (poi : Bool) (g : Workgroup) : Workgroup :=
  match r with
  | .v n => g.modThread tid fun t => t.setV n (.arrived val poi)
  | .w n =>
    let g := g.modThread tid fun t =>
      { t with wbusy := t.wbusy.filter (·.w != n), lastW := max t.lastW (now + 8) }
    { g with w := g.w.modify n fun x => x.write now 0 tid val poi }

/-- The result of request id for register r arrives: a w register takes it at its place in the order of issue (R38). -/
def Workgroup.arriveReg (now tid id : Nat) (r : Reg) (val : Word) (poi : Bool) (g : Workgroup) : Workgroup :=
  match r with
  | .v n => g.modThread tid fun t => t.setV n (.arrived val poi)
  | .w n =>
    let g := g.modThread tid fun t =>
      { t with wbusy := t.wbusy.filter (fun b => !(b.w == n && b.tag == id)), lastW := max t.lastW (now + 8) }
    { g with w := g.w.modify n fun x => x.arrive now id tid val poi }

/-- The k registers from r on receive the words of a number that request id brings, low word first. -/
def State.arriveN (s : State) (core slot tid id : Nat) (r : Reg) (k x : Nat) (poi : Bool) : State :=
  { s with wgs := s.wgs.map fun g =>
      if g.core == core && g.slot == slot then
        (r.regs k).zipIdx.foldl (fun g q => g.arriveReg s.now tid id q.1 (BitVec.ofNat 32 (x / 2 ^ (32 * q.2))) poi) g
      else g }

def State.deliver (s : State) (core slot tid : Nat) (r : Reg) (val : Word) (poi : Bool) : State :=
  { s with wgs := s.wgs.map fun g =>
      if g.core == core && g.slot == slot then g.deliver s.now tid r val poi else g }

/-- The k registers from r on receive the words of a number, low word first. -/
def State.deliverN (s : State) (core slot tid : Nat) (r : Reg) (k : Nat) (x : Nat) (poi : Bool) : State :=
  (r.regs k).zipIdx.foldl (fun s q => s.deliver core slot tid q.1 (BitVec.ofNat 32 (x / 2 ^ (32 * q.2))) poi) s

/-- Mark v registers as awaiting request id (R44). -/
def State.awaitV (s : State) (core slot tid id d k : Nat) : State :=
  s.modThread core slot tid fun t =>
    (List.range k).foldl (fun t n =>
      let c := t.v.getD (d + n) {}
      t.setV (d + n) { c with tag := id, ready := 0 }) t

/-! Traps, halts and event records. -/

/-- Taking a trap of causes 1-7 in one lane (R251, R253): the thread records cause, code, the address of the instruction
and the fault address, its pc becomes the resume address, and it is trap-pending. -/
def Thread.trap (cause : Nat) (code : Word) (taddr faddr resume : DWord) (t : Thread) : Thread :=
  { t with tcause := cause, tcode := code, taddr := taddr, faddr := faddr, pc := resume, run := .trapPending
           wplace := none, gwait := false, waitaEvicted := false, dwait := none }

/-- A trap of a thread whose state line is in its image goes into that line (R253, log 88). -/
def Thread.inLine (newPc : Bool) (t : Thread) (c : CtxState) : Thread :=
  if t.saved then { t with patch := some (newPc || t.patch == some true), cleared := false, late := c == .out } else t

/-- Returning from traps at resume (R261): the record is cleared and the thread goes on at its pc. -/
def Thread.resume (t : Thread) : Thread :=
  if t.run == .trapPending then
    { t with tcause := 0, tcode := 0, taddr := 0, faddr := 0, run := .runnable }
  else t

/-- A halt event (R254, R259): in Running the line rises and the first event fixes kind and reason; in Out it is kept
pending; elsewhere the line is high already. -/
def Context.raise (kind reason detail : Nat) (c : Context) : Context :=
  match c.state with
  | .running =>
    { c with
      state := if reason == 6 then .preempting else .halting
      halt := { high := true, kind := kind, reason := reason, detail := detail } }
  | .out => { c with halt := { c.halt with pendingOut := true, kind := kind, reason := reason, detail := detail } }
  | _ => c

def State.raiseHalt (s : State) (ctx reason detail : Nat) : State :=
  { s with ctxs := s.ctxs.modify ctx (Context.raise (if reason == 6 then 2 else 1) reason detail) }

/-- Slots of the event ring in use (R273). -/
def Dev.evFull (y : Dev) : Bool := (y.evhead.toNat + 1) % 1024 == y.evtail.toNat % 1024

def Dev.evOn (y : Dev) : Bool := y.evq.getLsbD 0

/-- Bytes of an event record (R273). -/
def evBytes (kind src addr time detail : Nat) : List Byte :=
  leBytes 4 kind ++ leBytes 4 src ++ leBytes 8 addr ++ leBytes 8 time ++ leBytes 4 detail ++ leBytes 4 0

/-- The workgroup of a request is still the one in its slot. -/
def State.lives (s : State) (w : Who) : Bool :=
  match s.wg? w.core w.slot with
  | some g => g.uid == w.uid
  | none => false

def State.mod (s : State) (w : Who) (f : Thread → Thread) : State :=
  if s.lives w then s.modThread w.core w.slot w.tid f else s

/-- End of a blocking instruction: the thread goes on after it. -/
def Thread.past (t : Thread) : Thread := { t with run := .runnable, pc := t.pc + 8 }

/-- Release the destinations of a request that returns nothing: they keep their old values (R253). -/
def State.releaseTag (s : State) (w : Who) (id : Nat) : State :=
  if !s.lives w then s else
    let s := s.modThread w.core w.slot w.tid fun t =>
      { t with v := t.v.map fun c => if c.tag == id then { c with tag := 0, ready := 0 } else c
               wbusy := t.wbusy.filter (·.tag != id) }
    { s with wgs := s.wgs.map fun g =>
        if g.core == w.core && g.slot == w.slot then { g with w := g.w.map (Shared.drop id w.tid) } else g }

/-! Executing lane-class instructions (R42-R45, R50, R119). -/

/-- What a lane computes: registers, predicates and flags. -/
structure LaneRes where
  regs : List (Reg × Word) := []
  preds : List (Nat × Bool) := []
  fl : Fl := 0

/-- The thread's next instruction issues S cycles later; S = 0 acts as 1 (R42). -/
def Thread.retire (now stall : Nat) (t : Thread) (pc : DWord) : Thread :=
  { t with pc := pc, next := now + max 1 stall, age := 0, issued := t.issued + 1
           wplace := none, gwait := false, waitaEvicted := false, dwait := none }

/-- One predicate written (R63); its old value as for a v register (log 5). -/
def Thread.setP (now lat n : Nat) (val poi : Bool) (t : Thread) : Thread :=
  { t with p := t.p.modify n fun c =>
      { val := val, poi := poi, old := c.val, oldPoi := c.poi, ready := now + lat } }

/-- A write to a w register by one lane; id: the request that brings its value later, or 0. -/
structure WWrite where
  w : Nat
  tid : Nat
  val : Word
  poi : Bool
  id : Nat := 0

/-- Latency class of an instruction's results: a fixed number of cycles, or the request id that delivers them and the
cycle by which it does. -/
inductive LatK where
  | fixed (n : Nat) | tracked (id till : Nat)

/-- The results of a lane written to its thread; its w-register writes are returned for the workgroup (R38). -/
def Thread.writeLane (now : Nat) (lk : LatK) (poi : Bool) (r : LaneRes) (t : Thread) : Thread × List WWrite :=
  let t := r.regs.foldl (fun (t : Thread) q =>
    match q.1, lk with
    | .v n, .fixed l => t.setV n ((t.v.getD n {}).put now l q.2 poi)
    | .v n, .tracked id till => t.setV n (.await id till q.2 poi)
    | .w n, .fixed l =>
      { t with wbusy := t.wbusy.filter (fun b => b.w != n && (b.tag != 0 || decide (now < b.ready)))
                          ++ [{ w := n, ready := now + max l 8, tag := 0 }]
               lastW := max t.lastW (now + max l 8) }
    | .w n, .tracked id till =>
      { t with wbusy := t.wbusy.filter (·.w != n) ++ [{ w := n, ready := till, tag := id, val := q.2, poi := poi }] }) t
  let lat := match lk with
    | .fixed l => l
    | .tracked _ _ => 4
  let t := r.preds.foldl (fun (t : Thread) q => t.setP now lat q.1 q.2 poi) t
  let id := match lk with
    | .tracked id _ => id
    | .fixed _ => 0
  let ws := r.regs.filterMap fun q =>
    match q.1 with
    | .w n => some { w := n, tid := t.tid, val := q.2, poi := poi, id := id }
    | .v _ => none
  ({ t with flags := stick t.flags r.fl }, ws)

/-- Predicates that this execution writes: v2p only those its mask names (R62). -/
def Env.predDsts (e : Env) : Instr → List Nat
  | .v2p _ _ b => (List.range 7).filter fun n => (e.src b).getLsbD n
  | i => i.predDsts

/-- A stall shortfall (R45): a register or predicate read or written before its fixed-latency result is ready. -/
def Env.shortfall (e : Env) (i : Instr) : Bool :=
  !((i.srcs ++ i.dsts).all e.regReady && (i.predSrcs ++ e.predDsts i).all e.predReady)

/-- Some register of the instruction awaits a tracked result (R44). -/
def Env.awaits (e : Env) (i : Instr) : Bool := (i.srcs ++ i.dsts).any e.regWaits

/-- A self-test has a word or row of SRAM (R303). -/
def State.testing (s : State) (p : ErrPlace → Bool) : Bool := s.y.selfTests.any fun t => p t.place

/-- A word of a workgroup's tile store or accumulator tiles. -/
def inStores (core slot : Nat) (p : ErrPlace) : Bool :=
  match p with
  | .tile c k _ | .acc c k _ _ => c == core && k == slot
  | .reg _ _ _ _ | .line _ _ _ | .sector _ | .cache _ _ | .lease _ | .slice _ _ _ | .unit _ => false

/-- The thread is runnable at the path's pc. -/
def Env.live (e : Env) : Bool := e.t.run == .runnable && e.t.pc == e.path.pc

/-- A thread that cannot issue yet tries again some cycles later (R42, log 13). -/
def Thread.waitIssue (now : Nat) (t : Thread) : Thread := { t with next := now + 8 }

/-- The latch of clock.hi by a clock.lo read (R36). -/
def Env.latchClock (e : Env) (i : Instr) (t : Thread) : Thread :=
  if i.readsClock then
    { t with clockHi := some (BitVec.ofNat 32 ((e.s.clock (dieOf e.g.core)).toNat / 2 ^ 32)) }
  else t

/-- A cwb of the thread is not finished (R124). -/
def Env.cwbHolds (e : Env) : Bool := e.t.cwb.any e.s.pending || !e.t.cwbBack.isEmpty

/-- One thread's execution of a lane-class instruction: the guard first, then the checks of R45, then the effect. A
poisoned source or guard poisons every destination (R119). DEDUCED: where a poisoned guard reads false nothing is
written (R30, R50, R66; log 24). DESIGN CHOICE: of clock.lo and clock.hi in one instruction, clock.hi gives the bits that
were latched before (R36, log 61). -/
def laneThread (i : Instr) (lk : LatK) (f : Env → LaneRes) (e : Env) : Thread × List WWrite :=
  let t := e.t
  if !e.live then (t, [])
  else if e.cwbHolds then (t.waitIssue e.s.now, [])
  else if e.chk && !e.predReady i.hdr.g then (t.trap 2 0 t.pc 0 t.pc, [])
  else if !e.guard i.hdr then (t.retire e.s.now i.hdr.stall (t.pc + 8), [])
  else if e.chk && e.shortfall i then (t.trap 2 0 t.pc 0 t.pc, [])
  else if e.awaits i then (t.waitIssue e.s.now, [])
  else
    let r := (e.latchClock i t).writeLane e.s.now lk (e.poisoned i) (f e)
    (r.1.retire e.s.now i.hdr.stall (t.pc + 8), r.2)

/-- Bound on the arrival of a tracked lane result (R56, R79). -/
def arrivesIn : Instr → Nat
  | .fsqrt _ _ _ _ => 24
  | _ => 36

def latK (i : Instr) (s : State) : LatK :=
  match i.latency with
  | some n => .fixed n
  | none => .tracked s.nextId (s.now + arrivesIn i)

/-- One of them in its register. -/
def WWrite.into (now lat : Nat) (q : WWrite) (x : Shared Word) : Shared Word :=
  if q.id == 0 then x.write now lat q.tid q.val q.poi else x.expect now q.id q.tid

/-- The w-register writes of one issue, in ascending thread order (R38). -/
def Workgroup.writeW (now lat : Nat) (ws : List WWrite) (g : Workgroup) : Workgroup :=
  { g with w := ws.foldl (fun w q => w.modify q.w (q.into now lat)) g.w }

/-- The issued workgroup after a lane-class instruction. -/
def laneWg (i : Instr) (f : Env → LaneRes) (s : State) (p : Path) (g : Workgroup) : Workgroup :=
  let rs := g.threads.map fun t =>
    if p.tids.contains t.tid then laneThread i (latK i s) f { s := s, g := g, t := t, path := p } else (t, [])
  ({ g with threads := rs.map (·.1) } : Workgroup).writeW s.now (i.latency.getD 0) (rs.flatMap (·.2))

/-- A lane-class instruction in every thread of the current path (R50, R66). All lanes read before any writes. -/
def laneOp (i : Instr) (f : Env → LaneRes) (s : State) : Host.Outcome State Fault Refusal :=
  match s.cur with
  | none => .next s
  | some p =>
    match s.wg? p.core p.slot with
    | none => .next s
    | some g => .next { s.setWg (laneWg i f s p g) with nextId := s.nextId + 1 }

/-! Executing other instructions, thread by thread in ascending order. -/

/-- What a thread's execution comes to: it retires, retires without effect, goes to another pc, blocks at the instruction, waits at issue,
takes a trap (cause, code, fault address, whether it resumes after the instruction), or is finished by the meaning. -/
inductive Res where
  | done (s : State)
  | skip
  | jump (s : State) (pc : DWord)
  | block (s : State) (b : Blk)
  | wait
  | waitIn (s : State)
  | trap (cause : Nat) (code : Word) (faddr : DWord) (after : Bool)
  | ended (s : State)

/-- A fence, acquire or release in progress holds the instruction (R160, R163, R315). -/
def Env.held (e : Env) (i : Instr) : Bool :=
  e.cwbHolds || !e.t.arrivals.isEmpty ||
  e.t.holds.any fun h =>
    (match i.fenceClass with
     | .free => false
     | .loads => h.loads
     | .others => h.others) && (e.s.anyOutstanding h.ids || decide (e.s.now < h.till))

/-- Instructions that raise no poison trap (R124, R271). -/
def noPoisonTrap : Instr → Bool
  | .pref _ _ _ _ _ | .cwb _ _ _ _ | .cinv _ _ _ _ | .chint _ _ _ _ | .pzap _ _ _ _ => true
  | _ => false

/-- A poisoned guard, address or operand: the poison-use trap (R119). DESIGN CHOICE: where R124 or R271 rules the trap
out the lane goes on without effect (log 64). -/
def poisonRes (i : Instr) : Res := if noPoisonTrap i then .skip else .trap 5 0 0 false

/-- One thread's execution of an instruction of opcode 0x080 or above: guard, scoreboard, fences, poison, meaning. -/
def threadStep (i : Instr) (body : Env → Res) (e : Env) : Res :=
  let t := e.t
  if e.chk && !e.predReady i.hdr.g then .trap 2 0 0 false
  else if (e.pred i.hdr.g).2 then poisonRes i
  else if !e.guard i.hdr then .skip
  else if e.chk && e.shortfall i then .trap 2 0 0 false
  else if e.awaits i || e.held i then .wait
  else if e.poisoned i then poisonRes i
  else body { e with t := e.latchClock i t }

/-- The state after one thread's execution. A trap that resumes after the instruction counts its stall too (R42). -/
def applyRes (i : Instr) (e : Env) : Res → State
  | .done s => s.modThread e.g.core e.g.slot e.t.tid fun t =>
      e.latchClock i (t.retire e.s.now i.hdr.stall (e.t.pc + 8))
  | .skip => e.s.modThread e.g.core e.g.slot e.t.tid fun t => t.retire e.s.now i.hdr.stall (e.t.pc + 8)
  | .jump s pc => s.modThread e.g.core e.g.slot e.t.tid fun t =>
      e.latchClock i (t.retire e.s.now i.hdr.stall pc)
  | .block s b => s.modThread e.g.core e.g.slot e.t.tid fun t =>
      { e.latchClock i (t.retire e.s.now i.hdr.stall e.t.pc) with run := .blocked b }
  | .wait => e.s.modThread e.g.core e.g.slot e.t.tid (Thread.waitIssue e.s.now)
  | .waitIn s => s.modThread e.g.core e.g.slot e.t.tid (Thread.waitIssue e.s.now)
  | .trap c code fa after => e.s.modThread e.g.core e.g.slot e.t.tid fun t =>
      if after then { t.trap c code e.t.pc fa (e.t.pc + 8) with next := e.s.now + max 1 i.hdr.stall }
      else t.trap c code e.t.pc fa e.t.pc
  | .ended s => s

/-- The thread's environment in the present state, when it is still at the path's pc. -/
def State.env? (s : State) (p : Path) (tid : Nat) : Option Env :=
  match s.wg? p.core p.slot with
  | none => none
  | some g =>
    match g.thread? tid with
    | none => none
    | some t => if t.run == .runnable && t.pc == p.pc then some { s := s, g := g, t := t, path := p } else none

/-- One thread of the path. -/
def oneThread (i : Instr) (body : Env → Res) (p : Path) (s : State) (tid : Nat) : State :=
  match s.env? p tid with
  | none => s
  | some e => applyRes i e (threadStep i body e)

/-- Threads of a path in ascending index. DESIGN CHOICE where a card states no order among the threads of one instruction
(commands into an engine's queue and their tokens, entries of the matrix table): ascending (R28, log 62). -/
def Path.rising (p : Path) : List Nat := p.tids.foldl (fun l t => nsInsert t l) []

/-- An instruction of opcode 0x080 or above in every thread of the current path. -/
def threadOp (i : Instr) (body : Env → Res) (s : State) : Host.Outcome State Fault Refusal :=
  match s.cur with
  | none => .next s
  | some p => .next (p.rising.foldl (oneThread i body p) s)

/-- A fresh id for a request. -/
def State.fresh (s : State) : State := { s with nextId := s.nextId + 1 }

/-- The thread as issuer of a request. -/
def Env.who (e : Env) : Who :=
  { core := e.g.core, slot := e.g.slot, tid := e.t.tid, uid := e.g.uid, pc := e.t.pc, issued := e.t.issued + 1 }

/-- Write a workgroup register that R38 governs, from a thread. -/
def Workgroup.noteW (now tid : Nat) (g : Workgroup) : Workgroup :=
  g.modThread tid fun t => { t with lastW := max t.lastW (now + 8) }

def State.modWg (s : State) (core slot : Nat) (f : Workgroup → Workgroup) : State :=
  { s with wgs := s.wgs.map fun g => if g.core == core && g.slot == slot then f g else g }

/-- The unit id of a core's unit, of a memory controller, of the put engine (R256). -/
def unitCore (core k : Nat) : Nat := 16 * core + k
def unitCtrl (die ctrl : Nat) : Nat := 4096 + 4 * die + ctrl
def unitPut : Nat := 4112

end Sys2Proof.Machine
end

