-- ==== Sys2Proof/Machine/Address.lean ====
section
/-! DEFINITION. Addresses: range registers, homes, the view aperture and its descriptors, page tables, the physical
allocation table and the access tables (R102-R108, R127-R132, R209, R301, R304). -/

namespace Sys2Proof.Machine

/-- n bits of a number from bit k up. -/
def fld (x k n : Nat) : Nat := x / 2 ^ k % 2 ^ n

/-- A range register read as fields (R102). -/
structure Range where
  base : Nat
  limit : Nat
  off : Nat
  rd : Bool
  w : Bool
  x : Bool
  msa : Bool
  hom : Bool
  hdie : Nat
  deriving DecidableEq, Repr

/-- The register's contents, or none where it behaves as V = 0 (R103). -/
def rangeOf (r : BitVec 256) : Option Range :=
  let n := r.toNat
  let base := fld n 0 57
  let limit := fld n 64 57
  let off := fld n 128 52
  if fld n 192 1 == 1 && fld n 57 7 == 0 && fld n 121 7 == 0 && fld n 180 12 == 0 && fld n 200 56 == 0 &&
     base % 2 ^ 16 == 0 && limit % 2 ^ 16 == 0 && off % 2 ^ 16 == 0 && decide (base < limit) then
    some { base := base, limit := limit, off := off, rd := fld n 193 1 == 1, w := fld n 194 1 == 1,
           x := fld n 195 1 == 1, msa := fld n 196 1 == 1, hom := fld n 197 1 == 1, hdie := fld n 198 2 }
  else none

/-- The lowest range register that matches a virtual address whose bits 63:57 equal bit 56 (R102, R103). -/
def Context.match? (c : Context) (ea : DWord) : Option Range :=
  let va := ea.toNat % 2 ^ 57
  let top := ea.toNat / 2 ^ 56
  if top != 0 && top != 255 then none
  else (c.rg.filterMap rangeOf).find? fun r => decide (r.base ≤ va) && decide (va < r.limit)

/-- IA of a virtual address in a range (R103). -/
def Range.ia (r : Range) (ea : DWord) : Nat := (ea.toNat % 2 ^ 57 - r.base + r.off) % 2 ^ 52

/-- The permission an access needs (R103). -/
def Range.allows (r : Range) : Acc → Bool
  | .read | .prefetch => r.rd
  | .write => r.w
  | .rmw => r.rd && r.w
  | .fetch => r.x

/-- Home die of an IA reached through a range (R104). -/
def Range.home (r : Range) (ia : Nat) : Nat := if r.hom then r.hdie else fld ia 21 2

/-- Home die of an IA that no virtual address reached (R104). -/
def Context.homeOf (c : Context) (ia : Nat) : Nat :=
  match (c.rg.filterMap rangeOf).find? fun r => decide (r.off ≤ ia) && decide (ia < r.off + (r.limit - r.base)) with
  | some r => r.home ia
  | none => fld ia 21 2

/-- Home slice of a line within its die: the hash of R104. -/
def sliceOf (ia : Nat) : Nat :=
  (fld ia 7 6) ^^^ (fld ia 13 6) ^^^ (fld ia 19 6) ^^^ (fld ia 25 6) ^^^ (fld ia 31 6) ^^^ (fld ia 37 6) ^^^
    (fld ia 43 6) ^^^ (fld ia 49 3)

/-- Home controller of an IA on its home die (R134). -/
def ctrlOf (ia : Nat) : Nat := fld ia 23 2

/-- The IA lies in the context's view aperture (R127). -/
def Context.inAperture (c : Context) (ia : Nat) : Bool :=
  let v := c.vwbase.toNat
  fld v 63 1 == 0 && ia / 2 ^ 40 == fld v 40 12

/-- The window whose local aperture holds the IA (R296). -/
def Context.window? (c : Context) (ia : Nat) : Option Window :=
  c.windows.find? fun w => decide (w.lia ≤ ia) && decide (ia < w.lia + w.size)

/-- No frame backs an IA of the view aperture or of a fabric window (R127, R296). -/
def Context.unbacked (c : Context) (ia : Nat) : Bool := c.inAperture ia || (c.window? ia).isSome

/-! View descriptors (R129-R132). -/

structure View where
  baseIa : Nat
  esz : Nat
  kind : Nat
  rank : Nat
  writable : Bool
  remote : Bool
  flagsHi : Nat
  fill : Nat
  ext : List Nat
  padl : List Nat
  stride : List Nat
  perm : List Nat
  tile : List Nat
  permHi : Nat
  tileHi : Nat
  interleave : Nat
  gatherIa : Nat
  gatherDim : Nat
  indexSize : Nat
  reserved : Nat
  shadow : Nat
  deriving DecidableEq, Repr

def viewOf (d : BitVec 1024) : View :=
  let n := d.toNat
  let six (f : Nat → Nat) := (List.range 6).map f
  { baseIa := fld n 0 64, esz := fld n 64 2, kind := fld n 66 3, rank := fld n 69 3, writable := fld n 72 1 == 1,
    remote := fld n 73 1 == 1, flagsHi := fld n 74 22, fill := fld n 96 32,
    ext := six fun k => fld n (128 + 32 * k) 28, padl := six fun k => fld n (156 + 32 * k) 4,
    stride := six fun k => fld n (320 + 64 * k) 64, perm := six fun k => fld n (704 + 4 * k) 4,
    permHi := fld n 728 8, tile := six fun k => fld n (736 + 4 * k) 4, tileHi := fld n 760 8,
    interleave := fld n 768 64, gatherIa := fld n 832 64, gatherDim := fld n 896 8, indexSize := fld n 904 8,
    reserved := fld n 912 48, shadow := fld n 960 64 }

namespace View

def elem (v : View) : Nat := 2 ^ v.esz

def roundUp (x m : Nat) : Nat := (x + m - 1) / m * m

/-- Padded extents S (R130). -/
def padded (v : View) : List Nat :=
  (List.range v.rank).map fun d =>
    let s := roundUp (v.ext.getD d 0) (2 ^ v.padl.getD d 0)
    if d == 0 then roundUp s (32 / v.elem) else s

/-- Shadow size Z in bytes (R130). -/
def size (v : View) : Nat := v.elem * v.padded.foldl (· * ·) 1

/-- View index of element e (R130). -/
def index (v : View) (e : Nat) : List Nat :=
  (v.padded.foldl (fun (a : List Nat × Nat) s => (a.1 ++ [a.2 % s], a.2 / s)) ([], e)).1

/-- The index is inside every extent (R130). -/
def inBounds (v : View) (i : List Nat) : Bool := i.zipIdx.all fun q => decide (q.1 < v.ext.getD q.2 0)

/-- Base index j: j[perm[d]] = i[d] (R131). -/
def baseIndex (v : View) (i : List Nat) : List Nat :=
  (List.range 6).map fun b =>
    match (List.range v.rank).find? fun d => v.perm.getD d 0 == b with
    | some d => i.getD d 0
    | none => 0

/-- One field of the interleave after another: offset bits taken so far, counts per base dim (R131 kind 2). -/
def weave (il : Nat) (j : List Nat) : Nat → Nat → Nat → List Nat → Nat × List Nat
  | 0, _, off, c => (off, c)
  | k + 1, n, off, c =>
    let f := fld il (3 * n) 3
    if f == 7 then (off, c)
    else
      let bit := j.getD f 0 / 2 ^ c.getD f 0 % 2
      weave il j k (n + 1) (off + bit * 2 ^ n) (c.modify f (· + 1))

/-- Element offset from the base index (R131), wrapping at 64 bits. -/
def offset (v : View) (j : List Nat) : Nat :=
  let dot (x : Nat → Nat) := (List.range 6).foldl (fun a b => a + x b) 0
  let r := match v.kind with
    | 1 =>
      let q (b : Nat) := ((v.tile.take b).map (2 ^ ·)).foldl (· * ·) 1
      dot fun b =>
        let t := v.tile.getD b 0
        j.getD b 0 / 2 ^ t * v.stride.getD b 0 + j.getD b 0 % 2 ^ t * q b
    | 2 =>
      let w := weave v.interleave j 21 0 0 (List.replicate 6 0)
      w.1 + dot fun b => j.getD b 0 / 2 ^ w.2.getD b 0 * v.stride.getD b 0
    | _ => dot fun b => j.getD b 0 * v.stride.getD b 0
  r % 2 ^ 64

/-- Byte q of the fill value, zero-extended for 8-byte elements (R133). -/
def fillByte (v : View) (q : Nat) : Byte := BitVec.ofNat 8 (v.fill / 2 ^ (8 * q))

/-- IA of the index element that shadow offset o needs under kind 3 (R131), for an element inside every extent. -/
def gatherAt (v : View) (o : Nat) : Option Nat :=
  let i := v.index (o / v.elem)
  if v.kind == 3 && v.inBounds i then
    some ((v.gatherIa + i.getD v.gatherDim 0 * 2 ^ v.indexSize) % 2 ^ 52)
  else none

/-- The base byte of shadow offset o, or none out of bounds (R130, R131). g: index elements by IA. -/
def byteAt (v : View) (g : Nat → Nat) (o : Nat) : Option Nat :=
  let e := o / v.elem
  let q := o % v.elem
  let i := v.index e
  if !v.inBounds i then none
  else
    let x := match v.gatherAt o with
      | some a => some (g a)
      | none => none
    let ones := 2 ^ (8 * 2 ^ v.indexSize) - 1
    match x with
    | some x =>
      if x == ones then none
      else
        let j := (v.baseIndex i).set (v.perm.getD v.gatherDim 0) x
        some ((v.baseIa + v.elem * v.offset j + q) % 2 ^ 52)
    | none => some ((v.baseIa + v.elem * v.offset (v.baseIndex i) + q) % 2 ^ 52)

/-- Gather index elements, by rule R131 one for each element. -/
def usesGather (v : View) : Bool := v.kind == 3

end View

/-- The installed slot whose shadow range holds the IA (R127, R130). -/
def Context.slotAt (c : Context) (ia : Nat) : Option (Nat × View) :=
  (c.vw.zipIdx.filterMap fun q => q.1.map fun d => (q.2, viewOf d)).find? fun q =>
    decide (q.2.shadow ≤ ia) && decide (ia < q.2.shadow + q.2.size)

/-! Physical memory. -/

/-- Physical sector of an address. -/
def sectorOf (a : Nat) : Nat := a / 32

/-- Stack and stack address of a physical address (log 9). -/
def stackOf (pa : Nat) : Nat := pa / 2 ^ 36 % 16
def inStack (pa : Nat) : Nat := pa % 2 ^ 36

/-- 64 KiB frames of a stack of 48 GB (R10, log 9). -/
def stackFrames : Nat := 3 * 2 ^ 18

/-- A stack holds the physical address (R10). -/
def paExists (pa : Nat) : Bool := decide (pa < 2 ^ 40) && decide (inStack pa < stackFrames * 2 ^ 16)

/-- Pseudo-channel, column, bank and row of a stack address (R209). -/
def pchOf (pa : Nat) : Nat := fld pa 5 6 ^^^ fld pa 11 6
def colOf (pa : Nat) : Nat := fld pa 11 5
def bankOf (pa : Nat) : Nat := fld pa 16 4
def rowOf (pa : Nat) : Nat := inStack pa / 2 ^ 20

/-- Tag of a frame in the physical allocation table (R304); a frame with no entry is free (log 7). -/
def Dev.tag (y : Dev) (stack frame : Nat) : Nat :=
  match y.pat.find? fun e => e.1 == stack && e.2.1 == frame with
  | some e => e.2.2
  | none => 0xFF

/-- The context may use the frame (R304); no frame lies where no stack does (R10). -/
def Dev.frameOk (y : Dev) (ctx pa : Nat) : Bool :=
  let t := y.tag (stackOf pa) (inStack pa / 2 ^ 16)
  paExists pa && (t == ctx || t == 0xFE)

/-- Rights of a master to n bytes at an IA (R301): one entry covers them all. BASE bit 0 is the read right and bit 1
the write right (log 7). Abmen is never checked. -/
def Dev.allowed (y : Dev) (master ia n : Nat) (r w : Bool) : Bool :=
  master == 65 || y.access.any fun e =>
    let b := e.2.2.base.toNat
    let l := fld e.2.2.limit.toNat 16 36 * 2 ^ 16
    e.1 == master && decide (fld b 16 36 * 2 ^ 16 ≤ ia) && decide (ia + n ≤ l) &&
      (!r || b % 2 == 1) && (!w || b / 2 % 2 == 1)

/-- Rights an access kind needs of the access table. -/
def Dev.allowedAcc (y : Dev) (master ia n : Nat) : Acc → Bool
  | .read | .prefetch | .fetch => y.allowed master ia n true false
  | .write => y.allowed master ia n false true
  | .rmw => y.allowed master ia n true true

/-- Table levels: index bits and the span that one entry maps (R106). -/
def levelSpan : Nat → Nat
  | 0 => 2 ^ 16
  | 1 => 2 ^ 21
  | 2 => 2 ^ 31
  | _ => 2 ^ 41

def levelIndex (ia : Nat) : Nat → Nat
  | 0 => fld ia 16 5
  | 1 => fld ia 21 10
  | 2 => fld ia 31 10
  | _ => fld ia 41 11

/-- Bytes of a table of a level (R106). -/
def tableBytes : Nat → Nat
  | 0 => 256
  | 3 => 16384
  | _ => 8192

/-- Result of a walk (R106-R108): a leaf's level, frame and host bit, or the level of the invalid entry. -/
inductive Walk where
  | leaf (level pa : Nat) (hst : Bool)
  | miss (level : Nat)
  deriving DecidableEq, Repr

/-- The walk from a table of level n - 1 down (R106, R107). -/
def walkFrom (cells : List Host.Cell) (ia : Nat) : Nat → Nat → Walk
  | 0, _ => .miss 0
  | n + 1, table =>
    let e := leNat (cellsGet (table + 8 * levelIndex ia n) 8 cells)
    let addr := fld e 8 44 * 2 ^ 8
    let lf := fld e 1 1 == 1
    let hst := fld e 2 1 == 1
    let ok := fld e 0 1 == 1 && fld e 52 12 == 0 && fld e 3 5 == 0 &&
      (if n == 0 then lf else if n == 3 then !lf else true) && (lf || !hst) &&
      (if lf then addr % levelSpan n == 0 else addr % tableBytes (n - 1) == 0)
    if !ok then .miss n
    else if lf then .leaf n (addr + ia % levelSpan n) hst
    else walkFrom cells ia n addr

/-- A context's walk of an IA (R106). -/
def State.walk (s : State) (ctx ia : Nat) : Walk := walkFrom s.m.cells ia 4 (s.ctx ctx).ptroot.toNat

/-- Base of the unit of a level that holds an IA. -/
def unitBase (level ia : Nat) : Nat := ia / levelSpan level * levelSpan level

/-- A missing unit on which the agent holds requests holds this IA (R108). -/
def State.missing? (s : State) (die ctx ia : Nat) : Option Miss :=
  s.m.missing.find? fun m => m.die == die && m.ctrl == ctrlOf ia && m.ctx == ctx && unitBase m.level ia == m.ia

/-- A translation: frame address and whether it is host memory. -/
structure Xl where
  pa : Nat
  hst : Bool
  deriving DecidableEq, Repr

/-- What the home's translation agent answers: the frame, a missing unit, or a frame of another tenant (R106-R108,
R304). A cached entry answers before the tables do. -/
inductive XlRes where
  | ok (x : Xl)
  | fault (level : Nat)
  | violation
  deriving DecidableEq, Repr

def State.xlate (s : State) (home ctx ia : Nat) : XlRes :=
  match s.m.l2.find? fun e => e.home == home && e.ctx == ctx && e.ia == ia / 32 * 32 with
  | some e => .ok ⟨e.pa + ia % 32, false⟩
  | none =>
    match s.missing? home ctx ia with
    | some m => .fault m.level
    | none =>
      let r : Walk := match s.m.xlat.find? fun e =>
          e.die == home && e.ctrl == ctrlOf ia && e.ctx == ctx && unitBase e.level ia == e.ia with
        | some e => .leaf e.level (e.pa + ia % levelSpan e.level) e.hst
        | none => s.walk ctx ia
      match r with
      | .miss l => .fault l
      | .leaf _ pa hst => if hst || s.y.frameOk ctx pa then .ok ⟨pa, hst⟩ else .violation

/-- Bytes at a frame: device memory or host memory. -/
def Mem.bytesAt (m : Mem) (x : Xl) (n : Nat) : List Byte := cellsGet x.pa n (if x.hst then m.host else m.cells)

/-- The sector of a frame is poisoned (R119). -/
def Mem.poisonedAt (m : Mem) (x : Xl) : Bool :=
  if x.hst then m.hostPoison.contains (sectorOf x.pa) else m.marked (sectorOf x.pa)

/-- Number of a sector over device and host memory. -/
def Xl.key (x : Xl) : Nat := sectorOf x.pa + if x.hst then 2 ^ 60 else 0

/-! Waits on an address (R150). -/

/-- The condition of a waita. -/
def waitOk (c : WCmp) (ty : STy) (x y : Word) : Bool :=
  match c, ty with
  | .eq, _ => x == y
  | .ne, _ => x != y
  | .lt, .i32 => x.slt y
  | .lt, .n32 => x.ult y
  | .ge, .i32 => !x.slt y
  | .ge, .n32 => !x.ult y

/-- A waita ends with a status (R150). -/
def State.endWait (s : State) (e : WaitEnt) (status : Word) : State :=
  let s := { s with m := { s.m with waits := s.m.waits.filter (·.id != e.id) } }
  if !s.lives e.who then s
  else
    let s := s.deliver e.who.core e.who.slot e.who.tid (.v e.d) status false
    s.mod e.who fun t => if t.run == .blocked (.waita e.id) then t.past else t

/-- The frame of a wait's word in a sector. -/
def WaitEnt.word (e : WaitEnt) (x : Xl) : Xl := { x with pa := x.pa / 32 * 32 + e.ia % 32 }

/-- A wait is evaluated again on ordinary data. -/
def State.wakeWait (s : State) (x : Xl) (e : WaitEnt) : State :=
  let v := BitVec.ofNat 32 (leNat (s.m.bytesAt (e.word x) 4))
  if waitOk e.cmp e.ty (v &&& e.mask) (e.exp &&& e.mask) then s.endWait e 0 else s

/-! Event records (R273). -/

/-- A cached sector is a copy of the physical sector. -/
def State.cachedFrom (s : State) (pa : Nat) (c : CEnt) : Bool :=
  match s.xlate c.home c.ctx c.ia with
  | .ok x => !x.hst && sectorOf x.pa == sectorOf pa
  | _ => false

/-- The device's own write of one sector of device memory: complete at the frame, with every copy invalidated (R273). -/
def State.ringWrite (s : State) (pa : Nat) (bs : List Byte) : State :=
  let m := { s.m with cells := cellsSet pa bs s.m.cells, cache := s.m.cache.filter fun c => !s.cachedFrom pa c
                      l2 := s.m.l2.filter fun e => sectorOf e.pa != sectorOf pa }
  let x : Xl := ⟨pa, false⟩
  (m.waits.filter fun e => e.key == x.key).foldl (fun s e => s.wakeWait x e) { s with m := m.mark (sectorOf pa) false }

/-- Write an event record at the head, advance it, signal MSI-X; a record that finds the ring full or disabled is
counted as lost (R273). -/
def State.event (s : State) (kind ctx unit addr detail : Nat) : State :=
  if s.y.evOn && !s.y.evFull then
    let base := (s.y.evq.toNat / 2 ^ 15 % 2 ^ 37) * 2 ^ 15 + 32 * (s.y.evhead.toNat % 1024)
    let s' := if paExists base then
        s.ringWrite base (evBytes kind (ctx % 64 + unit % 2 ^ 13 * 2 ^ 16) addr s.ptpNs detail) else s
    { s' with y := { s.y with evhead := BitVec.ofNat 32 ((s.y.evhead.toNat + 1) % 1024), msix := s.y.msix + 1 } }
  else { s with y := { s.y with evlost := s.y.evlost + 1 } }

/-- A late trap (R253): recorded in the thread while it lives and has none, else reported as an event of kind 6. -/
def State.lateTrap (s : State) (w : Who) (ctx cause : Nat) (faddr : DWord) (ia kind : Nat) : State :=
  match s.thread? w.core w.slot w.tid with
  | none => s.event 6 ctx 0 ia (kind + ctx * 256)
  | some t =>
    if !s.lives w || t.run == .exited || t.run == .trapPending then s.event 6 ctx 0 ia (kind + ctx * 256)
    else s.modThread w.core w.slot w.tid fun t =>
      ((t.trap cause 0 w.pc faddr (if t.issued == w.issued then w.pc else t.pc)).inLine true) (s.ctx ctx).state

/-- The agent holds a request on the missing unit; it writes one record for the unit, when the ring takes it (R108,
R273, R312). -/
def State.pageFault (s : State) (home ctx ia level : Nat) (acc : Acc) : State :=
  match s.missing? home ctx ia with
  | some _ => s
  | none =>
    let u := unitBase level ia
    let k := match acc with
      | .read | .prefetch => 0
      | .write => 1
      | .fetch => 2
      | .rmw => 3
    let can := s.y.evOn && !s.y.evFull
    let m : Miss := { die := home, ctrl := ctrlOf ia, ctx := ctx, level := level, ia := u, acc := acc, recorded := can }
    let s := { s with m := { s.m with missing := s.m.missing ++ [m] } }
    if can then s.event 1 ctx (unitCtrl home (ctrlOf ia)) u (k + ctx * 256) else s

/-- Records that waited for the ring (R273). -/
def Miss.kind (m : Miss) : Nat :=
  match m.acc with
  | .read | .prefetch => 0
  | .write => 1
  | .fetch => 2
  | .rmw => 3

def State.flushMissing (s : State) : State :=
  (List.range s.m.missing.length).foldl (fun s k =>
    match s.m.missing[k]? with
    | none => s
    | some m =>
      if m.recorded || !s.y.evOn || s.y.evFull then s
      else
        let s := { s with m := { s.m with missing := s.m.missing.set k { m with recorded := true } } }
        s.event 1 m.ctx (unitCtrl m.die m.ctrl) m.ia (m.kind + m.ctx * 256)) s

/-- An access that the tables refuse: an event record of kind 2 (R302). -/
def State.violationBy (s : State) (ctx master ia : Nat) (acc : Acc) (unit : Nat) : State :=
  let k := match acc with
    | .read | .prefetch => 0
    | .write => 1
    | .fetch => 2
    | .rmw => 3
  s.event 2 ctx unit ia (k + master * 256)

def State.violation (s : State) (ctx ia : Nat) (acc : Acc) (unit : Nat) : State := s.violationBy ctx ctx ia acc unit

end Sys2Proof.Machine
end

