-- ==== Sys2Proof/Machine/Home.lean ====
section
/-! DEFINITION. Home slices and visitor slices: what a request meets where it is served (dies, access tables,
translation, leases, directory), tenures, reading a sector, completing a write (R114, R115, R155, R282-R292, R302). -/

namespace Sys2Proof.Machine

/-- The first whole number of core cycles in which n slice cycles have gone by: 1.65 GHz against 1.1 GHz (R6, R117, log 75). -/
def sliceCycles (n : Nat) : Nat := (2 * n + 2) / 3

/-- IA of the 128-byte line (R100, R153). -/
def lineOf (ia : Nat) : Nat := ia / 128 * 128

/-- IA of the 32-byte sector (R111). -/
def secOf (ia : Nat) : Nat := ia / 32 * 32

def Mem.setBytes (m : Mem) (x : Xl) (bs : List Byte) : Mem :=
  if x.hst then { m with host := cellsSet x.pa bs m.host } else { m with cells := cellsSet x.pa bs m.cells }

def Mem.setPoison (m : Mem) (x : Xl) (b : Bool) : Mem :=
  if x.hst then
    { m with hostPoison := if b then nsInsert (sectorOf x.pa) m.hostPoison else nsErase (sectorOf x.pa) m.hostPoison }
  else m.mark (sectorOf x.pa) b

/-! Tenures (R114). -/

/-- Latest tenure end granted by a die's slice on a sector. -/
def Mem.tenEnd (m : Mem) (die key : Nat) : Nat :=
  m.tenures.foldl (fun a t => if t.die == die && t.pa == key then max a t.till else a) 0

/-- Grant a tenure: the latest end is kept. -/
def Mem.grantTen (m : Mem) (die key till : Nat) : Mem :=
  let e := max till (m.tenEnd die key)
  { m with tenures := m.tenures.filter (fun t => !(t.die == die && t.pa == key)) ++ [{ die := die, pa := key, till := e }] }

/-- Length of a tenure by hint (R114). -/
def hintTenure : Hint → Nat
  | .strm => 64
  | .dflt => 256
  | .stky => 1024
  | .byp => 0

/-! Requests at the place that serves them. -/

/-- A request: who, for which bytes, by a core's own slice (atHome false) or at the home slice (R285, R286). -/
structure Need where
  ctx : Nat
  master : Nat                     -- master id of the access tables (R301)
  ia : Nat
  home : Nat
  die : Nat
  atHome : Bool
  acc : Acc
  n : Nat
  who : Option Who
  place : Option Nat
  id : Nat := 0                    -- of the request, at the memory controllers (R249)
  keeps : Bool := false            -- the requester can hold a place in the lease queue (log 70)

def Need.isWrite (r : Need) : Bool :=
  match r.acc with
  | .write | .rmw => true
  | .read | .fetch | .prefetch => false

/-- The die whose slice serves it first. -/
def Need.serving (r : Need) : Nat := if r.atHome then r.home else r.die

def Who.same (a b : Who) : Bool := a.core == b.core && a.slot == b.slot && a.tid == b.tid && a.uid == b.uid

/-- The requester's own held lease on the line (R155). -/
def State.ownLease? (s : State) (r : Need) : Option LeaseEnt :=
  s.m.leases.find? fun l => l.ctx == r.ctx && l.line == lineOf r.ia && l.state == .held && match r.who with
    | some w => w.same l.who
    | none => false

/-- The entry of a die's lease table for a line (R155, R286). -/
def State.leasedAt? (s : State) (die ctx line : Nat) : Option LeaseEnt :=
  s.m.leases.find? fun l => l.ctx == ctx && l.line == line && l.state != .sent && dieOf l.who.core == die

/-- A place in the lease queue of a die's slice. -/
structure QPlace where
  ctx : Nat
  line : Nat
  die : Nat
  n : Nat
  deriving DecidableEq

/-- The die whose slice completes a write (R145, R285, R286). -/
def WEnt.queueDie (w : WEnt) : Nat :=
  match w.kind with
  | .st | .strl => dieOf w.who.core
  | .pzap | .red _ _ | .redf _ => w.home

/-- Some request of the die still wants what the RdS or RdX asks for (R285). -/
def Mem.wants (m : Mem) (q : DirReq) : Bool :=
  if q.ex then
    m.leases.any (fun l => l.state == .waiting && l.ctx == q.ctx && l.line == q.line && dieOf l.who.core == q.die) ||
    m.writes.any fun w => w.queueDie == q.die && w.ctx == q.ctx && lineOf w.ia == q.line && match w.state with
      | .queued | .leaseQueue _ => true
      | _ => false
  else m.reads.any fun r => r.ctx == q.ctx && dieOf r.who.core == q.die &&
    r.secs.any fun x => x.got.isNone && lineOf x.ia == q.line

/-- The request of a unit at the home. -/
def UReq.need (u : UReq) : Need :=
  { ctx := u.ctx, master := u.master, ia := u.ia, home := u.home, die := u.die, atHome := true, acc := u.acc, n := u.n, who := none
    place := u.place, id := u.id, keeps := true }

/-- The unit still asks: a fetch or a line of a thread, an engine's command or an entry while its context runs; another unit
until it is served. -/
def State.unitWants (s : State) (u : UReq) : Bool :=
  let runs := (s.ctx u.ctx).runs
  match u.act with
  | .ifetchFill core slot tid => runs && match s.thread? core slot tid with
    | some t => t.run == .runnable
    | none => false
  | .cmdAccept id | .engineCommandComplete id => runs && s.e.cmds.any (·.id == id)
  | .registerCacheFill _ _ _ | .matrixGrant _ | .deltaWriteback _ _ => runs
  | _ => true

/-- Every place taken in a lease queue (R155, R285). The lanes of a bundle that miss one sector share a place (R208). -/
def State.placeList (s : State) : List QPlace :=
  (s.m.reads.flatMap fun r => r.secs.filterMap fun x => x.queued.map fun n => QPlace.mk r.ctx (lineOf x.ia) (dieOf r.who.core) n).eraseDups ++
  s.m.unitq.filterMap (fun u => if s.unitWants u then u.place.map fun n => ⟨u.ctx, lineOf u.ia, u.home, n⟩ else none) ++
  s.m.writes.filterMap (fun w => match w.state with
    | .leaseQueue n => some ⟨w.ctx, lineOf w.ia, w.queueDie, n⟩
    | _ => none) ++
  s.m.atoms.filterMap (fun a => a.queued.map fun n => ⟨a.ctx, lineOf a.ia, a.home, n⟩) ++
  s.m.leases.filterMap (fun l => l.queued.map fun n => ⟨l.ctx, l.line, dieOf l.who.core, n⟩) ++
  s.m.dirq.filterMap (fun q => if s.m.wants q then q.place.map fun n => ⟨q.ctx, q.line, q.home, n⟩ else none) ++
  s.wgs.flatMap fun g => g.threads.filterMap fun t =>
    if t.run == .runnable && (s.ctx g.ctx).runs then t.wplace.map fun p => ⟨g.ctx, lineOf p.2.1, p.2.2, p.1⟩ else none

/-- Places taken on a line at a die. -/
def State.placesOn (s : State) (die ctx line : Nat) : List Nat :=
  s.placeList.filterMap fun p => if p.die == die && p.ctx == ctx && p.line == line then some p.n else none

/-- Requests queued in the slice of a die that an IA names (R9, R155): all that hold a place, but for one that is being
served, the first on a line with no lease (R285). -/
def State.queueLen (s : State) (die ia : Nat) : Nat :=
  (s.placeList.filter fun p => p.die == die && sliceOf p.line == sliceOf ia &&
    ((s.leasedAt? die p.ctx p.line).isSome || (s.placesOn die p.ctx p.line).any fun q => decide (q < p.n))).length

/-- No other request has an earlier place on the line. -/
def State.first (s : State) (r : Need) : Bool :=
  let ps := s.placesOn r.serving r.ctx (lineOf r.ia)
  match r.place with
  | some p => ps.all fun q => decide (p ≤ q)
  | none => ps.isEmpty

/-- What a request meets. -/
inductive Gate where
  | go (x : Xl)                    -- served now at the place of completion
  | own (x : Xl) (lease : Nat)     -- the lessee's own line
  | wait                           -- directory, host, memory-side unit, memory controller or an earlier queued request
  | queue                          -- joins the lease queue
  | nack (cycles : Nat)            -- refused with retry-after
  | fault (level : Nat)            -- page not mapped
  | viol                           -- access table or allocation table
  | dead                           -- the home die has failed (R300)
  deriving DecidableEq, Repr

def State.dir? (s : State) (ctx line : Nat) : Option DirEnt := s.m.dir.find? fun e => e.ctx == ctx && e.line == line

def State.snoop? (s : State) (ctx line : Nat) : Option SnoopEnt :=
  s.m.snoop.find? fun e => e.ctx == ctx && e.line == line

/-- A die holds a copy of the line (R282). -/
def DirEnt.holds (e : DirEnt) (d : Nat) : Bool :=
  match e.st with
  | .i => false
  | .s => e.sh.contains d
  | .e | .m | .o => e.own == d || e.sh.contains d

/-- The transition takes the copies away; else the owner keeps one (R285). -/
def DKind.invalidates : DKind → Bool
  | .rds _ | .homeRead => false
  | .rdx _ _ | .homeWrite | .victim => true

/-- The visitor slice of die d may serve a read (R284): it holds a copy that no transition takes away, or its acknowledgement
is still out. -/
def DirEnt.readable (e : DirEnt) (d : Nat) : Bool :=
  e.holds d && match e.trans with
    | none => true
    | some t => !t.kind.invalidates || t.tell.contains d || t.told.contains d || match t.kind with
      | .rdx k _ => k == d
      | _ => false

/-- A cinv has still to drop the visitor copy of a line from a die (R124). -/
def Mem.dropping (m : Mem) (ctx line die : Nat) : Bool :=
  m.drops.any fun q => q.ctx == ctx && q.line == line && q.die == die && q.host.isNone

/-- The same for a host line. -/
def Mem.droppingHost (m : Mem) (die pa : Nat) : Bool := m.drops.any fun q => q.die == die && q.host == some (pa / 128 * 128)

/-- The visitor slice of die d may complete a write (R284). -/
def DirEnt.writable (e : DirEnt) (d : Nat) : Bool :=
  e.trans.isNone && e.own == d && (e.st == .e || e.st == .m)

/-- The directory and the host let the request be served (R284-R286, R290). -/
def State.dirOk (s : State) (r : Need) : Bool :=
  let line := lineOf r.ia
  let e := s.dir? r.ctx line
  let host := s.snoop? r.ctx line
  if r.serving == r.home then
    (match e with
     | none => true
     | some e => e.trans.isNone && (e.st == .i || (e.st == .s && (!r.isWrite || e.sh.isEmpty)))) &&
    (match host with
     | none => true
     | some h => !r.isWrite && !h.owned)
  else match e with
    | none => false
    | some e => if r.isWrite then e.writable r.die && host.isNone && !s.m.dropping r.ctx line r.die else e.readable r.die

/-- An operation on the sector is at its memory-side unit (R145). -/
def State.forwardedOn (s : State) (ctx sec : Nat) : Bool :=
  s.m.atoms.any (fun a => a.fwd && a.ctx == ctx && secOf a.ia == sec) ||
  s.m.writes.any fun w => w.state == .forwarded && w.ctx == ctx && w.ia == sec

/-- A self-test has the DRAM row of the frame (R303). -/
def SelfTest.onRow (x : Xl) (t : SelfTest) : Bool :=
  match t.place with
  | .sector pa => stackOf pa == stackOf x.pa && pchOf pa == pchOf x.pa && bankOf pa == bankOf x.pa && rowOf pa == rowOf x.pa
  | _ => false

/-- The controller holds a request for the frame: a bank session has its pseudo-channel, a stream has its bank open on
another row, or a self-test has its row (R240, R242, R303). -/
def State.dramBusy (s : State) (x : Xl) : Bool :=
  !x.hst && (s.y.selfTests.any (SelfTest.onRow x) || s.e.sessions.any (fun q => q.stack == stackOf x.pa && q.pch == pchOf x.pa) ||
    s.e.streams.any fun q => q.stack == stackOf x.pa && q.pch == pchOf x.pa && q.bank == bankOf x.pa && q.row != rowOf x.pa)

/-- The whole sector is in its home slice (R112). -/
def State.present (s : State) (home ctx ia : Nat) : Bool :=
  s.m.l2.any fun e => e.home == home && e.ctx == ctx && e.ia == secOf ia && !e.part

/-- The request needs the sector's bytes from the DRAM: a read, or an operation on them, of a sector that its home slice
does not have. -/
def State.needsDram (s : State) (r : Need) : Bool :=
  (!r.isWrite || r.acc == .rmw) && r.serving == r.home && !s.present r.home r.ctx r.ia

/-- A request that the controller holds still wants its sector. -/
def State.dramWants (s : State) (q : DramHeld) : Bool :=
  let m := s.m
  m.reads.any (fun r => r.id == q.id && !r.held && r.secs.any fun x => x.ia == q.sec && x.got.isNone && x.retry == 0) ||
  m.atoms.any (fun a => a.id == q.id && !a.held && !a.fwd) || m.writes.any (fun w => w.id == q.id && w.state == .queued) ||
  m.unitq.any (fun u => u.id == q.id && s.unitWants u) || m.dirq.any (fun d => d.id == q.id && m.wants d) ||
  s.e.cmds.any (fun c => c.id == q.id && c.state == .accepted && c.heldOn.isNone && (s.ctx c.ctx).runs) || m.leases.any fun l => l.id == q.id && l.state == .waiting

/-- The controller holds it for the request. -/
def DramHeld.isFor (q : DramHeld) (id ctx sec : Nat) : Bool := q.id == id && q.ctx == ctx && q.sec == sec

/-- The controller holds the request, and an earlier one for the same bank, or for any under a session (R240, R249). -/
def State.dramBehind (s : State) (id ctx sec : Nat) : Bool :=
  match s.m.dramq.find? (·.isFor id ctx sec) with
  | none => false
  | some own => (s.m.dramq.takeWhile fun q => !q.isFor id ctx sec).any fun q =>
      q.stack == own.stack && q.pch == own.pch && (q.bank.isNone || own.bank.isNone || q.bank == own.bank) && s.dramWants q

/-- A request that needs the DRAM, or that its controller holds already, waits there (R240, R242, R249). -/
def State.dramWaits (s : State) (id ctx sec : Nat) (needs : Bool) (x : Xl) : Bool :=
  !x.hst && (needs || s.m.dramq.any (·.isFor id ctx sec)) && (s.dramBusy x || s.dramBehind id ctx sec)

/-- The controller holds the request from now on, behind those it holds already (R249). -/
def State.dramKeep (s : State) (id ctx sec : Nat) (needs : Bool) (x : Xl) : State :=
  if id == 0 || !needs || !s.dramBusy x || s.m.dramq.any (·.isFor id ctx sec) then s
  else
    let all := s.e.sessions.any fun q => q.stack == stackOf x.pa && q.pch == pchOf x.pa
    let q : DramHeld := { id := id, ctx := ctx, sec := sec, stack := stackOf x.pa, pch := pchOf x.pa
                          bank := if all then none else some (bankOf x.pa) }
    { s with m := { s.m with dramq := s.m.dramq.filter s.dramWants ++ [q] } }

def State.dramHold (s : State) (r : Need) : State :=
  match s.xlate r.home r.ctx r.ia with
  | .ok x => s.dramKeep r.id r.ctx (secOf r.ia) (s.needsDram r) x
  | _ => s

/-- A sector of a line that the home slice does not have waits at its memory controller (R249). -/
def State.lineDram (s : State) (home id ctx line : Nat) (x : Xl) : Bool :=
  (List.range 4).any fun k =>
    s.dramWaits id ctx (line + 32 * k) (!s.present home ctx (line + 32 * k)) { x with pa := x.pa / 128 * 128 + 32 * k }

def State.lineKeep (s : State) (home id ctx line : Nat) (x : Xl) : State :=
  (List.range 4).foldl (fun s k =>
    s.dramKeep id ctx (line + 32 * k) (!s.present home ctx (line + 32 * k)) { x with pa := x.pa / 128 * 128 + 32 * k }) s

/-- A self-test has a word of the serving slice that belongs to the line (R303). -/
def State.sliceTested (s : State) (die ctx line : Nat) : Bool :=
  s.testing fun p => match p with
    | .slice d c ia => d == die && c == ctx && lineOf ia == line
    | .lease id => s.m.leases.any fun l => l.id == id && l.ctx == ctx && l.line == line && dieOf l.who.core == die
    | _ => false

/-! Room in a slice (R9). -/

/-- The sectors of a home slice: 1.5 MiB hold 49,152 (R9). -/
def sliceSectors : Nat := 49152

/-- The die has the line as a visitor, or is about to get it. -/
def DirEnt.takes (e : DirEnt) (d : Nat) : Bool :=
  e.holds d || match e.trans with
    | some t => (match t.kind with
      | .rds k | .rdx k _ => k == d
      | _ => false)
    | none => false

/-- Sectors that a slice of a die holds: its own, and four for each visitor and host line. -/
def Mem.sliceLoad (m : Mem) (die ia : Nat) : Nat :=
  (m.l2.filter fun e => e.home == die && sliceOf e.ia == sliceOf ia).length +
  4 * ((m.dir.filter fun e => e.home != die && e.takes die && sliceOf e.line == sliceOf ia).length +
       (m.hostLines.filter fun h => h.die == die && sliceOf h.ia == sliceOf ia).length)

/-- A slice gives up free ones of its own sectors until n more fit (log 46). -/
def Mem.freeSectors (m : Mem) (now die ia n : Nat) : Nat → Mem
  | 0 => m
  | k + 1 =>
    if m.sliceLoad die ia + n ≤ sliceSectors then m
    else
      let l := m.l2.filter fun e => e.home == die && sliceOf e.ia == sliceOf ia
      match l[Config.l2Victim now (secOf ia) % l.length]? with
      | some v => { m with l2 := m.l2.filter (· != v) }.freeSectors now die ia n k
      | none => m

/-- Every tenure that a die granted on the line has ended. -/
def State.tenLine (s : State) (home die ctx line : Nat) : Bool :=
  match s.xlate home ctx line with
  | .ok x => (List.range 4).all fun k => decide (s.m.tenEnd die (({ x with pa := x.pa + 32 * k } : Xl).key) ≤ s.now)
  | _ => true

def State.setDir (s : State) (e : DirEnt) : State :=
  { s with m := { s.m with dir := s.m.dir.map fun x => if x.ctx == e.ctx && x.line == e.line then e else x } }

/-- Every tenure that a die granted on a host line has ended (R291). -/
def State.hostFree (s : State) (die pa : Nat) : Bool :=
  (List.range 4).all fun k => decide (s.m.tenEnd die (({ pa := pa / 128 * 128 + 32 * k, hst := true } : Xl).key) ≤ s.now)

/-- Room for one more line in a slice of a die: its own sectors go first, then a shared copy, which a die drops silently
(R285), then a host line; none while every line in it must stay (log 46). -/
def State.lineRoom (s : State) (die ia : Nat) : Option State :=
  let m := s.m.freeSectors s.now die ia 4 4
  if m.sliceLoad die ia + 4 ≤ sliceSectors then some { s with m := m }
  else
    let silent (e : DirEnt) : Bool := e.home != die && sliceOf e.line == sliceOf ia && e.sh.contains die && e.trans.isNone &&
      (e.st == .s || (e.st == .o && e.own != die)) && s.tenLine e.home die e.ctx e.line
    match s.m.dir.find? silent with
    | some e => some (({ s with m := m } : State).setDir { e with sh := nsErase die e.sh })
    | none => match m.hostLines.find? fun h => h.die == die && sliceOf h.ia == sliceOf ia && h.snoop.isNone && s.hostFree die h.pa with
      | some h => some { s with m := { m with hostLines := m.hostLines.filter (· != h) } }
      | none => none

/-- End of the last tenure that a die granted on a sector's line (R285). -/
def Mem.lineEnd (m : Mem) (die : Nat) (x : Xl) : Nat :=
  (List.range 4).foldl (fun a k => max a (m.tenEnd die (({ x with pa := x.pa / 128 * 128 + 32 * k } : Xl).key))) 0

/-- A host line is a visitor of the die already. -/
def Mem.hostHeld (m : Mem) (die : Nat) (x : Xl) : Bool := m.hostLines.any fun h => h.die == die && h.pa == x.pa / 128 * 128

/-- A host line held as a visitor of a die (R291). -/
def State.hostVisit (s : State) (die ia : Nat) (x : Xl) : State :=
  if !x.hst || s.m.hostHeld die x then s
  else match s.lineRoom die ia with
    | some s => { s with m := { s.m with hostLines := s.m.hostLines ++ [{ die := die, pa := x.pa / 128 * 128, snoop := none, ia := ia }] } }
    | none => s

/-- The slices of a die serve its own cores. -/
def Die.works (d : Die) : Bool := d.st == .running || d.st == .quiescing

/-- What the request meets where it is served. An IA that no frame backs is refused (log 82). -/
def State.gate (s : State) (r : Need) : Gate :=
  let d := s.y.dies.getD r.home {}
  if d.st == .failed || d.lost then .dead
  else if d.st != .running then .nack (sliceCycles 16384)
  else if !(s.y.dies.getD r.serving {}).works then .wait
  else if !s.y.allowedAcc r.master r.ia r.n r.acc || (s.ctx r.ctx).unbacked r.ia then .viol
  else match s.xlate r.home r.ctx r.ia with
    | .fault l => .fault l
    | .violation => .viol
    | .ok x =>
      let join (t : Nat) : Gate :=
        if r.place.isSome then .wait
        else if s.queueLen r.serving r.ia < 64 then .queue else .nack (max (sliceCycles 64) t)
      match s.ownLease? r, s.leasedAt? r.serving r.ctx (lineOf r.ia) with
      | some l, _ => .own x l.id
      | none, some l => join (l.expiry - s.now)
      | none, none =>
        if !s.first r then join 0
        else if s.forwardedOn r.ctx (secOf r.ia) || s.sliceTested r.serving r.ctx (lineOf r.ia) then .wait
        else if s.dramWaits r.id r.ctx (secOf r.ia) (s.needsDram r) x then .wait
        else if x.hst then
          if r.isWrite && s.m.tenures.any (fun t => t.pa == x.key && t.die != r.die && decide (s.now < t.till)) ||
             (!s.m.hostHeld r.die x && (s.lineRoom r.die r.ia).isNone)
          then .wait else .go x
        else if s.dirOk r then .go x
        else if r.serving == r.home && r.keeps then join 0
        else .wait

/-! Directory entries. -/

def State.dropDir (s : State) (ctx line : Nat) : State :=
  { s with m := { s.m with dir := s.m.dir.filter fun x => !(x.ctx == ctx && x.line == line) } }

/-! Reading. -/

/-- A lane of the write is of the thread. -/
def WEnt.of (x : WEnt) (w : Who) : Bool := x.lanes.any fun l => l.who.same w

/-- Bytes of the write that the thread's lanes have. -/
def WEnt.mine (x : WEnt) (w : Who) : List Bool :=
  x.mask.zipIdx.map fun q => q.1 && x.lanes.any fun l => l.who.same w && l.bs.contains q.2

/-- Plain writes of the core on a sector, as a load issued after them sees them (R111, R115): those in the write queue in the
order in which they entered it, leased ones for the lessee alone (R155); then the thread's own that have not entered it
(R116, R159). -/
def State.ownWrites (s : State) (w : Who) (id ctx sec : Nat) : List WEnt :=
  let l := s.m.writes.filter fun x => x.who.core == w.core && x.ctx == ctx && x.ia == sec &&
    (match x.kind with
     | .st | .strl | .pzap => true
     | .red _ _ | .redf _ => false)
  (l.filter fun x => x.ord != 0 && (if x.of w then decide (x.id < id) else decide (x.ord < id) && match x.state with
     | .leased _ => false
     | _ => true)) ++
  (l.filter fun x => x.ord == 0 && x.of w && decide (x.id < id)).map fun x => { x with mask := x.mine w }

def maskWrite (mask : List Bool) (data old : List Byte) : List Byte :=
  (List.range 32).map fun k => if mask.getD k false then data.getD k 0 else old.getD k 0

/-- A sector as a reader of a core sees it: 32 bytes and poison. -/
def State.readSec (s : State) (w : Option Who) (id ctx sec : Nat) (x : Xl) : List Byte × Bool :=
  let b : Xl := { x with pa := x.pa / 32 * 32 }
  let base := (s.m.bytesAt b 32, s.m.poisonedAt b)
  match w with
  | none => base
  | some w => (s.ownWrites w id ctx sec).foldl
      (fun a e => (maskWrite e.mask e.data a.1, a.2 && !e.full)) base

/-- Completion time of the first write pending on a sector, none if no write is (R115). -/
def Mem.firstPending (m : Mem) (ctx sec : Nat) : Option Nat :=
  m.writes.foldl (fun a w => match w.state with
    | .arrived c _ =>
      if w.ctx == ctx && w.ia == sec then some (match a with
        | some b => min b c
        | none => c) else a
    | _ => a) none

def Mem.lastPending (m : Mem) (ctx sec : Nat) : Nat :=
  m.writes.foldl (fun a w => match w.state with
    | .arrived c _ => if w.ctx == ctx && w.ia == sec then max a c else a
    | _ => a) 0

/-- A sector present in the home slice from now on (R112), whole or in part; a full slice gives up a free one of its sectors
for it, and one that has none keeps the new one out (log 46). -/
def Mem.install (m : Mem) (now home ctx ia : Nat) (x : Xl) (part : Bool := false) : Mem :=
  let same (e : L2Ent) : Bool := e.home == home && e.ctx == ctx && e.ia == secOf ia
  if x.hst then m
  else if m.l2.any same then { m with l2 := m.l2.map fun e => if same e then { e with part := e.part && part } else e }
  else
    let m := m.freeSectors now home ia 1 1
    if m.sliceLoad home ia < sliceSectors then
      { m with l2 := m.l2 ++ [{ home := home, ctx := ctx, ia := secOf ia, pa := x.pa / 32 * 32, part := part }] }
    else m

/-- A host snoop for the line, or a cinv, waits at the die for its tenures (R124, R291). -/
def Mem.hostAsked (m : Mem) (die : Nat) (x : Xl) : Bool :=
  x.hst && (m.droppingHost die x.pa || m.hostLines.any fun h => h.die == die && h.pa == x.pa / 128 * 128 && h.snoop.isSome)

/-- End of the tenure that a read takes from the slice that serves it (R114, R284, R291): no later than a pending
write, nor, while an invalidation that has reached the visitor waits, than the tenures granted already. -/
def State.tenureTill (s : State) (r : Need) (x : Xl) (h : Hint) : Nat :=
  let t := s.now + hintTenure h
  let t := match s.m.firstPending r.ctx (secOf r.ia) with
    | some c => min t c
    | none => t
  let asked := s.m.hostAsked r.serving x || s.m.dropping r.ctx (lineOf r.ia) r.serving ||
    match (s.dir? r.ctx (lineOf r.ia)).bind (·.trans) with
    | some t => r.serving != r.home && t.kind.invalidates && t.told.contains r.serving
    | none => false
  if asked then min t (s.m.tenEnd r.serving x.key) else t

/-- A read of one sector is served: its tenure, if it keeps a copy, and what the slices hold then (R112, R114, R135). -/
def State.serveRead (s : State) (r : Need) (x : Xl) (h : Hint) (composed : Bool) : State × Nat :=
  let keeps := !composed && h != .byp
  let t := s.tenureTill r x h
  let m := if keeps then s.m.grantTen r.serving x.key t else s.m
  let m := if h == .byp then m else m.install s.now r.home r.ctx r.ia x
  (({ s with m := m } : State).hostVisit r.die r.ia x, if keeps then t else 0)

/-! Waits on an address (R150). -/

/-- A write has completed to a sector: its waits are evaluated again, oldest first (R150). -/
def State.rewait (s : State) (x : Xl) : State :=
  (s.m.waits.filter fun e => e.key == x.key).foldl (fun s e =>
    if s.m.poisonedAt (e.word x) then
      let s := { s with m := { s.m with waits := s.m.waits.filter (·.id != e.id) } }
      let s := s.mod e.who fun t => if t.run == .blocked (.waita e.id) then { t with run := .runnable } else t
      (s.releaseTag e.who e.id).lateTrap e.who e.ctx 5 e.va e.ia 3
    else s.wakeWait x e) s

/-! Completing a write. -/

/-- A write completes to a sector of a context's IA space on a die: each watch whose ranges it overlaps counts it
(R217). -/
def Watch.bump (ctx sec die : Nat) (w : Watch) : Watch :=
  let hit (lo n : Nat) : Bool := decide (sec < lo + n) && decide (lo < sec + 32)
  if w.ctx == ctx && (hit w.w0 w.w1 || hit w.s0 w.s1) then
    { w with cnt := w.cnt.modify die fun c => min (c + 1) 0x3FFFFFFF }
  else w

/-- What a bank session's arrays keep of a sector that is written meanwhile (R242). -/
def Session.keep (m : Mem) (x : Xl) (q : Session) : Session :=
  if x.hst || q.stack != stackOf x.pa || q.pch != pchOf x.pa || q.dram.any (fun d => d.1 == sectorOf x.pa) then q
  else { q with dram := q.dram ++ [(sectorOf x.pa, m.bytesAt x 32, m.poisonedAt x)] }

/-- A masked write of one sector completes at its place of completion, on a die (R115, R120, R150, R217). clear: the
write makes the sector ordinary data; poison: it makes it poisoned; count: the watches count it now. -/
def State.complete (s : State) (ctx ia die : Nat) (x : Xl) (mask : List Bool) (data : List Byte)
    (clear poison count : Bool) : State :=
  let b : Xl := { x with pa := x.pa / 32 * 32 }
  let s := { s with e := { s.e with sessions := s.e.sessions.map (Session.keep s.m b) } }
  let m := s.m.setBytes b (maskWrite mask data (s.m.bytesAt b 32))
  let m := if poison then m.setPoison b true else if clear then m.setPoison b false else m
  let m := if count then { m with watches := m.watches.map (Watch.bump ctx (secOf ia) die) } else m
  ({ s with m := m } : State).rewait b

/-- Drop the copies of a sector in sector caches of the cores that p names (R124). -/
def Mem.dropCopies (m : Mem) (ctx lo n : Nat) (p : Nat → Bool) : Mem :=
  { m with cache := m.cache.filter fun c =>
      !(c.ctx == ctx && decide (lo ≤ c.ia) && decide (c.ia < lo + n) && p c.core) }

/-- The die where a write of this request completes, with the owner's E turned into M (R284). -/
def State.toM (s : State) (r : Need) : State :=
  if r.serving == r.home then s
  else match s.dir? r.ctx (lineOf r.ia) with
    | some e => if e.st == .e && e.own == r.die then s.setDir { e with st := .m } else s
    | none => s

/-- No write is pending on any sector of a line. -/
def Mem.quietLine (m : Mem) (ctx line : Nat) : Bool :=
  m.writes.all fun w => match w.state with
    | .arrived _ _ | .forwarded => !(w.ctx == ctx && lineOf w.ia == line)
    | _ => true

/-! Directory transitions that a request at the home starts (R285, R290). -/

/-- Dies with a copy, to be told of an invalidation. -/
def DirEnt.copies (e : DirEnt) : List Nat := (List.range 4).filter e.holds

/-- Send BISnpData (1) or BISnpInv (2) for a line the host may hold (R290). -/
def State.askHost (s : State) (ctx line k : Nat) : State :=
  let ask (h : SnoopEnt) : SnoopEnt := if h.ctx == ctx && h.line == line then { h with asked := max h.asked k } else h
  { s with m := { s.m with snoop := s.m.snoop.map ask } }

/-- A line goes to I: the entry stays for the host alone, else it is freed. -/
def State.toI (s : State) (e : DirEnt) : State :=
  if e.hb then s.setDir { e with st := .i, l := false, sh := [], own := 0, trans := none } else s.dropDir e.ctx e.line

/-- A transition whose acknowledgements are in ends (R285); a grant of M and a home write wait for the tenures of the
whole line too. -/
def State.dirTry (s : State) (ctx line : Nat) : State :=
  match s.dir? ctx line with
  | none => s
  | some e =>
    match e.trans with
    | none => s
    | some t =>
      if !(t.tell.isEmpty && t.told.isEmpty && t.acks.isEmpty) then s
      else match t.kind with
        | .rds d => match e.st with
          | .e => s.setDir { e with st := .s, sh := nsInsert d (nsInsert e.own []), trans := none, used := s.now }
          | .m => s.setDir { e with st := .o, sh := [d], trans := none, used := s.now }
          | _ => s.setDir { e with sh := nsInsert d e.sh, trans := none, used := s.now }
        | .rdx d l =>
          if s.tenLine e.home e.home ctx line && s.m.quietLine ctx line then
            s.setDir { e with st := .m, own := d, sh := [], l := l, trans := none, used := s.now }
          else s
        | .homeRead => s.setDir { e with st := .s, sh := nsInsert e.own e.sh, trans := none, used := s.now }
        | .homeWrite => if s.tenLine e.home e.home ctx line then s.toI { e with trans := none } else s
        | .victim => if (s.snoop? ctx line).isSome then s else s.dropDir ctx line

/-- What the first waiting request at the home sets going: probes, invalidations, snoops to the host. -/
def State.prepare (s : State) (r : Need) : State :=
  let s := s.dramHold r
  if r.serving != r.home then
    if r.isWrite then s.askHost r.ctx (lineOf r.ia) 2 else s
  else if !s.first r then s
  else
    let line := lineOf r.ia
    let s := match s.snoop? r.ctx line with
      | some h => if r.isWrite then s.askHost r.ctx line 2 else if h.owned then s.askHost r.ctx line 1 else s
      | none => s
    match s.dir? r.ctx line with
    | none => s
    | some e =>
      if e.trans.isSome then s.dirTry r.ctx line
      else if e.l then s
      else if r.isWrite then
        if e.copies.isEmpty then s
        else s.setDir { e with trans := some { kind := .homeWrite, tell := e.copies, told := [], acks := [], host := false } }
      else match e.st with
        | .i | .s => s
        | .e | .m | .o =>
          s.setDir { e with trans := some { kind := .homeRead, tell := [e.own], told := [], acks := [], host := false } }

/-! Requests of units (R117, R155, R249, R285). -/

/-- The core of the unit that asks, where it has one. -/
def State.askCore (s : State) : Option Nat :=
  match s.asker with
  | none => s.cur.map (·.core)
  | some i => match i with
    | .ifetchFill core _ _ | .registerCacheFill core _ _ | .contextEvict core _ | .matrixGrant core | .deltaWriteback core _ => some core
    | .cmdAccept id | .engineCommandComplete id => (s.e.cmds.find? (·.id == id)).map (·.core)
    | _ => none

/-- The die from which it asks, where host memory lines become visitors (R145, R291): an I/O unit's is the home. -/
def State.askDie (s : State) (home : Nat) : Nat := (s.askCore.map dieOf).getD home

def UReq.isFor (u : UReq) (i : Instr) (r : Need) : Bool := u.act == i && u.ctx == r.ctx && u.master == r.master && u.ia == r.ia && u.acc == r.acc

/-- What the unit's event has waiting for the request. -/
def State.unitRec? (s : State) (r : Need) : Option UReq := s.asker.bind fun i => s.m.unitq.find? (·.isFor i r)

/-- The request with the place that it has; outside an event it keeps none. -/
def State.asUnit (s : State) (r : Need) : Need :=
  match s.unitRec? r with
  | some u => { r with place := u.place, id := u.id }
  | none => { r with keeps := s.asker.isSome }

/-- The request waits; outside an event it is made again. -/
def State.unitHold (s : State) (r : Need) (f : UReq → UReq) : State :=
  match s.asker with
  | none => s
  | some i => match s.unitRec? r with
    | some _ => { s with m := { s.m with unitq := s.m.unitq.map fun u => if u.isFor i r then { f u with asked := true } else u } }
    | none =>
      let u : UReq := { act := i, id := s.nextId, ctx := r.ctx, master := r.master, ia := r.ia, home := r.home, die := r.die, acc := r.acc, n := r.n }
      let s := s.fresh
      { s with m := { s.m with unitq := s.m.unitq ++ [f u] } }

/-- What a unit's request meets, and the state in which it waits: in the lease queue, turned away, or otherwise. -/
def State.unitGate (s : State) (r : Need) : Gate × State :=
  let r := s.asUnit r
  let early := match s.unitRec? r with
    | some u => decide (s.now < u.retry)
    | none => false
  if early then (.wait, s.unitHold r id)
  else match s.gate r with
    | .wait =>
      let s := s.unitHold r fun u => { u with retry := 0 }
      (.wait, s.prepare (s.asUnit r))
    | .queue => (.wait, s.fresh.unitHold r fun u => { u with place := some s.nextId, retry := 0 })
    | .nack c => (.wait, s.unitHold r fun u => { u with place := none, retry := s.now + c })
    | g => (g, s)

/-- An event begins, and ends: of the requests that wait for its unit those remain that it has made again (log 70). -/
def State.asking (s : State) (i : Instr) : State :=
  let old (u : UReq) : UReq := if u.act == i then { u with asked := false } else u
  { s with cur := none, asker := some i, m := { s.m with unitq := s.m.unitq.map old } }

def State.asked (s : State) (i : Instr) : State :=
  { s with asker := none, m := { s.m with unitq := s.m.unitq.filter fun u => u.act != i || u.asked } }

/-- The first place on a line is a unit's, which the slice then makes the line ready for (R285). -/
def State.unitTick (s : State) : State :=
  s.m.unitq.foldl (fun s u => if s.unitWants u && (u.place.isSome || u.retry == 0) && (s.leasedAt? u.home u.ctx (lineOf u.ia)).isNone then s.prepare u.need else s) s

/-- The unit's request would be served now, or its time to be sent again has run out (R117). -/
def State.unitDue (s : State) (u : UReq) : Bool :=
  s.unitWants u && if u.place.isNone && u.retry != 0 then decide (u.retry + sliceCycles 1024 ≤ s.now) else match s.gate u.need with
    | .wait | .queue | .nack _ => false
    | _ => true

end Sys2Proof.Machine
end

