-- ==== Sys2Proof/Machine/Access.lean ====
section
/-! DEFINITION. Loads, stores, cache control and tile-store instructions 0x0A0-0x0AC, and the steps their requests take
(R102-R126, R133-R141). -/

namespace Sys2Proof.Machine

/-! Where an address leads. -/

/-- Result of the address checks (R102, R103, R121, R127, R296). -/
inductive Where where
  | access                                   -- access fault
  | misaligned
  | plain (ia home : Nat) (r : Range)
  | shadow (slot : Nat) (v : View) (off : Nat)

/-- Range check, then alignment, then the aperture and the windows. DESIGN CHOICE: a misaligned address in an aperture takes
the misaligned-access trap before the aperture's access fault (R140, log 65). -/
def Context.locate (c : Context) (va : DWord) (n : Nat) (acc : Acc) : Where :=
  match c.match? va with
  | none => .access
  | some r =>
    if !r.allows acc then .access
    else if va.toNat % n != 0 then .misaligned
    else
      let ia := r.ia va
      if c.inAperture ia then
        match c.slotAt ia with
        | some (k, v) => .shadow k v (ia - v.shadow)
        | none => .access
      else if (c.window? ia).isSome then .access
      else .plain ia (r.home ia) r

def Env.ctx (e : Env) : Context := e.s.ctx e.g.ctx

def Env.locate (e : Env) (va : DWord) (n : Nat) (acc : Acc) : Where := e.ctx.locate va n acc

/-- Range check and alignment for an instruction that refuses shadow addresses (R140, R153, R271). -/
def Env.plainAt (e : Env) (va : DWord) (n : Nat) (acc : Acc) : Except Nat (Nat × Nat × Range) :=
  match e.locate va n acc with
  | .misaligned => .error 3
  | .plain ia home r => .ok (ia, home, r)
  | _ => .error 4

def Env.mem (e : Env) : Mem := e.s.m

/-- Distinct sectors of base bytes, in order of first use. -/
def secsOf (l : List BSrc) : List Nat :=
  l.foldl (fun a b => match b with
    | .mem ia => if a.contains (secOf ia) then a else a ++ [secOf ia]
    | .fill _ | .far _ _ => a) []

def State.setReads (s : State) (f : List RReq → List RReq) : State := { s with m := { s.m with reads := f s.m.reads } }
def State.setWrites (s : State) (f : List WEnt → List WEnt) : State := { s with m := { s.m with writes := f s.m.writes } }

/-- Performance counter k of a core and context; at its highest value it stays there, as the counters never wrap (R272). -/
def State.perfAdd (s : State) (core ctx k n : Nat) : State :=
  let has := s.perf.any fun p => p.core == core && p.ctx == ctx
  let l := if has then s.perf else s.perf ++ [{ core := core, ctx := ctx, n := List.replicate 8 0 }]
  { s with perf := l.map fun p =>
      if p.core == core && p.ctx == ctx then
        { p with n := p.n.modify k fun x => BitVec.ofNat 64 (min (x.toNat + n) (2 ^ 64 - 1)) } else p }

/-! Order of one thread's accesses to one location (R121). -/

/-- An earlier atomic or reduction of the thread on the sector is still under way. -/
def Mem.rmwBefore (m : Mem) (w : Who) (id ctx sec : Nat) : Bool :=
  m.atoms.any (fun a => decide (a.id < id) && a.ctx == ctx && secOf a.ia == sec && a.lanes.any fun l => l.who.same w) ||
  m.writes.any fun x => decide (x.id < id) && x.ctx == ctx && x.ia == sec && x.of w &&
    match x.kind with
    | .red _ _ | .redf _ => true
    | _ => false

/-- An earlier load of the thread has still to read the sector. -/
def Mem.readBefore (m : Mem) (w : Who) (id ctx sec : Nat) : Bool :=
  m.reads.any fun r => decide (r.id < id) && r.ctx == ctx && r.who.same w &&
    r.secs.any fun x => x.ia == sec && x.got.isNone

/-- The write completes on the copy of a lessee. -/
def WEnt.onCopy (x : WEnt) : Bool := x.ord != 0 && match x.state with
  | .leased _ => true
  | _ => false

/-- An earlier write on the sector has not completed: of the thread, or, unless the thread holds a lease there (lessee), of
its core's write queue, whose other threads it may have synchronised with (R161). A lessee's own are on its copy. -/
def Mem.writeBefore (m : Mem) (w : Who) (id ctx sec : Nat) (lessee : Bool) : Bool :=
  m.writes.any fun x => x.ctx == ctx && x.ia == sec && !x.onCopy &&
    ((x.of w && decide (x.id < id)) || (!lessee && x.who.core == w.core && x.ord != 0 && decide (x.ord < id)))

/-- The thread holds a lease on the line (R155). -/
def State.leaseOf? (s : State) (w : Who) (ctx line : Nat) : Option LeaseEnt :=
  s.m.leases.find? fun l => l.state == .held && l.ctx == ctx && l.line == line && l.who.same w

/-- Two addresses of a context lie in one page: the leaf that maps the first covers both. DESIGN CHOICE: where nothing maps
it, the page is 64 KiB (R118, log 66). -/
def State.samePage (s : State) (ctx a b : Nat) : Bool :=
  match s.walk ctx a with
  | .leaf l _ _ => unitBase l a == unitBase l b
  | .miss _ => unitBase 0 a == unitBase 0 b

/-- Side-log entries of the core lie in the page (R118). -/
def State.loggedPage (s : State) (core ctx ia : Nat) : Bool :=
  s.m.writes.any fun x => x.who.core == core && x.ctx == ctx && (match x.state with
    | .logged _ => true
    | _ => false) && s.samePage ctx ia x.ia

/-! The sector cache (R111-R113). -/

/-- A resident sector whose tenure runs. -/
def State.resident? (s : State) (core ctx sec : Nat) : Option CEnt :=
  s.m.cache.find? fun c => c.core == core && c.ctx == ctx && c.ia == sec && decide (s.now < c.till)

/-- More retentive: sticky over default over streaming; bypass leaves a hint as it is (R112). -/
def hintRank : Hint → Nat
  | .byp => 0
  | .strm => 1
  | .dflt => 2
  | .stky => 3

def hintRaise (old new : Hint) : Hint := if hintRank old < hintRank new then new else old

/-- An access to a resident sector: its hint may rise, and it is the most recently used (R112). -/
def State.touch (s : State) (core ctx sec : Nat) (h : Hint) : State :=
  { s with m := { s.m with cache := s.m.cache.map fun c =>
      if c.core == core && c.ctx == ctx && c.ia == sec && decide (s.now < c.till) then
        { c with hint := hintRaise c.hint h, used := s.now } else c } }

/-- Set of a sector: 512 sets (R111). -/
def setOf (sec : Nat) : Nat := sec / 32 % 512

/-- Ways of a set that leases pin (R111). -/
def State.pinned (s : State) (core set : Nat) : Nat :=
  (s.m.leases.filter fun l => l.who.core == core && (l.state == .held || l.state == .draining) &&
    (List.range 4).any fun k => setOf (l.line + 32 * k) == set).length

/-- The set has a way that neither a lease pins nor a read in flight that was issued before id holds for its fill (R113). -/
def State.setFree (s : State) (core id set : Nat) : Bool :=
  let inFlight := (s.m.reads.filter fun q => decide (q.id < id) && q.who.core == core && !q.composed && q.hint != .byp).flatMap fun q =>
    (q.secs.filter fun x => setOf x.ia == set && (x.got.isNone || decide (s.now < x.till))).map fun x => (q.ctx, x.ia)
  decide (s.pinned core set + inFlight.eraseDups.length < 16)

/-- A self-test has the word that holds the sector (R303). -/
def State.cacheTested (s : State) (core ctx sec : Nat) : Bool :=
  (s.resident? core ctx sec).isSome && s.testing fun p => match p with
    | .cache c ia => c == core && secOf ia == sec
    | _ => false

/-- The sector a fill replaces: an expired one, else the least recently used streaming, default, sticky one (R113). -/
def victimOf (now : Nat) (l : List CEnt) : Option CEnt :=
  match l.find? fun c => decide (c.till ≤ now) with
  | some c => some c
  | none =>
    l.foldl (fun a c => match a with
      | none => some c
      | some b => if hintRank c.hint < hintRank b.hint || (hintRank c.hint == hintRank b.hint && decide (c.used < b.used)) then some c else a) none

/-- A fill. -/
def State.fill (s : State) (core ctx sec home : Nat) (h : Hint) (till : Nat) : State :=
  let same (c : CEnt) : Bool := c.core == core && c.ctx == ctx && c.ia == sec
  match s.m.cache.find? same with
  | some old =>
    let up (c : CEnt) : CEnt := if same c then { c with hint := hintRaise old.hint h, till := till, used := s.now } else c
    { s with m := { s.m with cache := s.m.cache.map up } }
  | none =>
    let inSet (c : CEnt) : Bool := c.core == core && setOf c.ia == setOf sec
    let l := s.m.cache.filter inSet
    let cache := if l.length + s.pinned core (setOf sec) < 16 then s.m.cache
      else match victimOf s.now l with
        | some v => s.m.cache.filter fun c => !(c.core == v.core && c.ctx == v.ctx && c.ia == v.ia)
        | none => s.m.cache
    { s with m := { s.m with cache := cache ++
        [{ core := core, ctx := ctx, ia := sec, home := home, hint := h, till := till, used := s.now }] } }

/-! Gather indices (R131, R133, R137). -/

/-- Index elements that n shadow bytes need. -/
def View.indexes (v : View) (off n : Nat) : List Nat :=
  (List.range n).foldl (fun a k => match v.gatherAt (off + k) with
    | some x => if a.contains x then a else a ++ [x]
    | none => a) []

/-- A default-hint read that fetches a sector for a thread. -/
def Env.fetchReq (e : Env) (va : DWord) (ia home : Nat) : State :=
  if e.s.m.reads.any (fun r => r.kind == .pref && r.who.same e.who && r.secs.any fun x => x.ia == secOf ia) then e.s
  else
    let r : RReq := { id := e.s.nextId, who := e.who, ctx := e.g.ctx, va := va, kind := .pref, hint := .dflt, sc := .wg,
                      cycle := e.s.now, bytes := [], secs := [⟨secOf ia, home, none, 0, none, 0⟩], held := false, view := false
                      composed := false }
    e.s.fresh.setReads (· ++ [r])

/-- A load's own checks of a sector before its caches (R118, R121). -/
def State.loadWaits (s : State) (w : Who) (id ctx sec : Nat) : Bool :=
  s.m.rmwBefore w id ctx sec || s.m.readBefore w id ctx sec

/-- One index element read at issue with the default hint through the sector cache: the state after it and its value, or
what the thread does instead (R133, R137). -/
def Env.indexAt (e : Env) (v : View) (va : DWord) (a : Nat) : Except Res (State × Nat × Bool) :=
  let home := e.ctx.homeOf a
  let sec := secOf a
  let core := e.g.core
  let c := e.g.ctx
  let nb := 2 ^ v.indexSize
  let r : Need := { ctx := c, master := c, ia := a, home := home, die := dieOf core, atHome := false, acc := .read, n := nb,
                    who := some e.who, place := none }
  let give (s : State) (x : Xl) : Except Res (State × Nat × Bool) :=
    let q := e.s.readSec (some e.who) e.s.nextId c sec x
    .ok (s, numAt q.1 (a % 32) nb, q.2)
  let later (s : State) : Except Res (State × Nat × Bool) := .error (.waitIn (({ e with s := s } : Env).fetchReq va a home))
  if e.ctx.unbacked a then .error (.trap 4 0 va false)
  else if e.s.loadWaits e.who e.s.nextId c sec || e.s.cacheTested core c sec then .error .wait
  else if e.s.loggedPage core c a then .error (.block e.s (.page home a))
  else match e.s.resident? core c sec, e.s.xlate home c sec with
    | some _, .ok x =>
      if e.s.y.allowed c sec 32 true false then give (e.s.touch core c sec .dflt) x
      else .error (.ended ((e.s.violation c a .read (unitCtrl home (ctrlOf a))).modThread core e.g.slot e.t.tid
        fun t => t.trap 4 0 t.pc va t.pc))
    | _, _ => match e.s.gate r with
      | .go x =>
        if !e.s.setFree core e.s.nextId (setOf sec) then later e.s
        else
          let q := e.s.serveRead r x .dflt false
          give (if e.s.now < q.2 then q.1.fill core c sec home .dflt q.2 else q.1) x
      | .own x _ => give e.s x
      | .fault l => .error (.block (e.s.pageFault home c a l .read) (.page home a))
      | .viol => .error (.ended ((e.s.violation c a .read (unitCtrl home (ctrlOf a))).modThread core e.g.slot e.t.tid
          fun t => t.trap 4 0 t.pc va t.pc))
      | .dead => .error (.trap 5 0 va false)
      | _ => later (e.s.prepare r)

/-- All index elements, by IA, and the state after reading them. A poisoned one raises the poison-use trap (R137); for
an instruction that raises none (skip) its element counts as out of bounds (R124, log 64). -/
def Env.gather (e : Env) (skip : Bool) (v : View) (va : DWord) (off n : Nat) : Except Res (State × List (Nat × Nat)) :=
  if !v.usesGather || v.remote then .ok (e.s, [])
  else (v.indexes off n).foldl (fun a x => match a with
    | .error r => .error r
    | .ok (s, l) => match ({ e with s := s } : Env).indexAt v va x with
      | .error r => .error r
      | .ok (s, y, poi) =>
        if poi then (if skip then .ok (s, l ++ [(x, 2 ^ (8 * 2 ^ v.indexSize) - 1)]) else .error (.trap 5 0 va false))
        else .ok (s, l ++ [(x, y)])) (.ok (e.s, []))

def lookupIx (l : List (Nat × Nat)) (a : Nat) : Nat :=
  match l.find? fun q => q.1 == a with
  | some q => q.2
  | none => 0

/-- Base bytes of n shadow bytes: mapped, or the fill value's (R130, R133). -/
def View.map (v : View) (ix : List (Nat × Nat)) (off n : Nat) : List BSrc :=
  (List.range n).map fun k =>
    match v.byteAt (lookupIx ix) (off + k) with
    | some a => .mem a
    | none => .fill (v.fillByte ((off + k) % v.elem))

/-- Some mapped byte lies in an aperture (R127, R296). DESIGN CHOICE: a base byte that lies in the view aperture itself is
not mapped again, it is an access fault (log 67). -/
def Context.unbackedAny (c : Context) (l : List BSrc) : Bool :=
  l.any fun b => match b with
    | .mem ia => c.unbacked ia
    | .fill _ | .far _ _ => false

/-! Loads (R122, R133-R137, R141). -/

/-- A sector of a load at issue: taken from the sector cache or the lessee's copy where it hits. -/
def Env.hit (e : Env) (id home sec : Nat) : RSec :=
  let w := e.who
  let miss : RSec := ⟨sec, home, none, 0, none, 0⟩
  if e.s.loadWaits w id e.g.ctx sec || e.s.loggedPage e.g.core e.g.ctx sec || !e.s.y.allowed e.g.ctx sec 32 true false then miss
  else
    if (e.s.leaseOf? w e.g.ctx (lineOf sec)).isSome || (e.s.resident? e.g.core e.g.ctx sec).isSome then
      match e.s.xlate home e.g.ctx sec with
      | .ok x => { miss with got := some (e.s.readSec (some w) id e.g.ctx sec x) }
      | _ => miss
    else miss

/-- A load from these bytes: sectors looked up, the request sent, the destination awaited (R44). -/
def Env.sendLoad (e : Env) (va : DWord) (kind : RKindReq) (h : Hint) (sc : Scope) (bytes : List BSrc)
    (homeOf : Nat → Nat) (view composed : Bool) (far : Option Nat) (gather : Bool) : State :=
  let id := e.s.nextId
  let secs := (secsOf bytes).map fun x => e.hit id (homeOf x) x
  let r : RReq := { id := id, who := e.who, ctx := e.g.ctx, va := va, kind := kind, hint := h, sc := sc,
                    cycle := e.s.now, bytes := bytes, secs := secs, far := far, gather := gather, held := false, view := view, composed := composed }
  let s := e.s.fresh.setReads (· ++ [r])
  let s := if secs.isEmpty then s else s.perfAdd e.g.core e.g.ctx (if secs.all (·.got.isSome) then 4 else 5) 1
  let s := (secs.filter (·.got.isSome)).foldl (fun s x => s.touch e.g.core e.g.ctx x.ia h) s
  match kind with
  | .load z _ d acq =>
    let s := s.awaitV e.g.core e.g.slot e.t.tid id d z.group
    if acq then s.modThread e.g.core e.g.slot e.t.tid fun t =>
      { t with holds := t.holds.filter (fun h => s.anyOutstanding h.ids || decide (s.now < h.till)) ++
                 [{ loads := true, others := true, ids := [id], till := 0 }] }
    else s
  | _ => s

/-- A word of the sector cache that the access names is under test: the access waits (R303). -/
def Env.tested (e : Env) (bytes : List BSrc) : Bool := (secsOf bytes).any (e.s.cacheTested e.g.core e.g.ctx)

/-- Bytes that a get from another chip returns: the fill value outside the extents, else what that chip answers (log 12). -/
def View.farBytes (v : View) (id off n : Nat) : List BSrc :=
  (List.range n).map fun k =>
    if v.inBounds (v.index ((off + k) / v.elem)) then .far (Config.farByte id (off + k)) (Config.farPoison id (off + k))
    else .fill (v.fillByte ((off + k) % v.elem))

/-- ld and lda. -/
def Env.load (e : Env) (acq : Bool) (sc : Scope) (h : Hint) (sx : Bool) (z : Size) (d : Nat) (a : Reg) (b : Src) : Res :=
  let va := e.ea a b
  match e.locate va z.bytes .read with
  | .access => .trap 4 0 va false
  | .misaligned => .trap 3 0 va false
  | .plain ia home _ =>
    let bytes := (List.range z.bytes).map fun k => BSrc.mem (ia + k)
    if e.tested bytes then .wait
    else .done (e.sendLoad va (.load z sx d acq) h sc bytes (fun _ => home) false (h == .byp) none false)
  | .shadow _ v off =>
    if v.remote then
      match e.ctx.window? v.baseIa with
      | none => .trap 4 0 va false
      | some w =>
        if w.rt / 2 % 2 == 0 then .trap 4 0 va false
        else .done (e.sendLoad va (.load z sx d acq) h sc (v.farBytes e.s.nextId off z.bytes) (fun _ => 0) true true (some w.n) v.usesGather)
    else match e.gather false v va off z.bytes with
      | .error r => r
      | .ok (s, ix) =>
        let bytes := v.map ix off z.bytes
        if e.ctx.unbackedAny bytes then .trap 4 0 va false
        else if ({ e with s := s } : Env).tested bytes then .waitIn s
        else .done (({ e with s := s } : Env).sendLoad va (.load z sx d acq) h sc bytes e.ctx.homeOf true (h == .strm || h == .byp) none false)

def execLd (h : Hdr) (sc : Scope) (hn : Hint) (sx : Bool) (sz : Size) (d : Nat) (a : Reg) (b : Src) (s : State) :
    Host.Outcome State Fault Refusal :=
  threadOp (.ld h sc hn sx sz d a b) (fun e => e.load false sc hn sx sz d a b) s

def execLda (h : Hdr) (sc : Scope) (hn : Hint) (sx : Bool) (sz : Size) (d : Nat) (a : Reg) (b : Src) (s : State) :
    Host.Outcome State Fault Refusal :=
  threadOp (.lda h sc hn sx sz d a b) (fun e => e.load true sc hn sx sz d a b) s

/-- pref: raises the hint of sectors that are resident, and sends reads for the others (R112, R124, R135). -/
def Env.prefetch (e : Env) (sc : Scope) (h : Hint) (a : Reg) (b : Src) : Res :=
  let va := e.ea a b
  let homeOnly := !(sc == .wg || sc == .cl)
  let go (s : State) (bytes : List BSrc) (homeOf : Nat → Nat) (view : Bool) : Res :=
    let here (x : Nat) : Bool := !homeOnly && (s.resident? e.g.core e.g.ctx x).isSome
    let all := (secsOf bytes).filter fun x => !e.ctx.unbacked x
    let s := (all.filter here).foldl (fun s x => s.touch e.g.core e.g.ctx x h) s
    let secs := all.filter fun x => !here x
    if secs.isEmpty then .done s
    else
      let r : RReq := { id := s.nextId, who := e.who, ctx := e.g.ctx, va := va, kind := .pref, hint := h, sc := sc, cycle := s.now
                        bytes := [], secs := secs.map fun x => ⟨x, homeOf x, none, 0, none, 0⟩, held := false, view := view
                        composed := homeOnly || (view && h == .strm) }
      .done (s.fresh.setReads (· ++ [r]))
  match e.locate va 1 .prefetch with
  | .access | .misaligned => .done e.s
  | .plain ia home _ => go e.s [.mem ia] (fun _ => home) false
  | .shadow _ v off =>
    if v.remote then .done e.s
    else match e.gather true v va (off / 32 * 32) 32 with
      | .error .wait => .wait
      | .error (.waitIn s) => .waitIn s
      | .error _ => .done e.s
      | .ok (s, ix) => go s (v.map ix (off / 32 * 32) 32) e.ctx.homeOf true

def execPref (h : Hdr) (sc : Scope) (hn : Hint) (a : Reg) (b : Src) (s : State) : Host.Outcome State Fault Refusal :=
  threadOp (.pref h sc hn a b) (fun e => e.prefetch sc hn a b) s

/-! The steps of a read. -/

def RReq.setSec (r : RReq) (k : Nat) (f : RSec → RSec) : RReq := { r with secs := r.secs.modify k f }

def State.modRead (s : State) (id : Nat) (f : RReq → RReq) : State :=
  s.setReads fun l => l.map fun r => if r.id == id then f r else r

def State.dropRead (s : State) (id : Nat) : State := s.setReads fun l => l.filter (·.id != id)

/-- A request holds its thread (R117). -/
def State.holdThread (s : State) (w : Who) (id : Nat) : State :=
  s.mod w fun t => if t.run == .runnable then { t with run := .blocked (.req id) } else t

/-- A held request has been served: its thread goes on, unless another request of it is held. -/
def State.letGo (s : State) (w : Who) (id : Nat) : State :=
  let other := (s.m.reads.filterMap fun r => if r.held && r.who.same w && r.id != id then some r.id else none) ++
    (s.m.atoms.filterMap fun a => if a.held && a.id != id && a.lanes.any (fun l => l.who.same w) then some a.id else none) ++
    (s.m.leases.filterMap fun l => if l.page && l.id != id && l.who.same w then some l.id else none)
  s.mod w fun t => if t.run == .blocked (.req id) then
      { t with run := match other with
          | [] => .runnable
          | k :: _ => .blocked (.req k) } else t

/-- A read ends without data: nothing is written, the destination is released (R253). -/
def State.failRead (s : State) (r : RReq) (cause : Nat) (ia : Nat) : State :=
  let s := ((s.dropRead r.id).letGo r.who r.id).releaseTag r.who r.id
  match r.kind with
  | .pref => s
  | _ => s.lateTrap r.who r.ctx cause r.va ia 0

/-- A lane's read and the place of a sector in it. -/
abbrev ReadLane := RReq × Nat

def ReadLane.sec? (q : ReadLane) : Option RSec := q.1.secs[q.2]?

/-- The lane may ask now: its sector is not read yet, nor refused, and its earlier accesses are done (R117, R121). -/
def State.laneAsks (s : State) (q : ReadLane) : Bool :=
  match q.sec? with
  | none => false
  | some x => x.got.isNone && x.retry == 0 && !s.loadWaits q.1.who q.1.id q.1.ctx x.ia

/-- One sector of a read at the slice that serves it (R114, R115, R136): once for all lanes of a bundle that miss it, when each of
them may ask (R208). -/
def State.readLanes (s : State) (l : List ReadLane) : State :=
  match l with
  | [] => s
  | q :: _ => match q.sec? with
    | none => s
    | some x =>
      let r := q.1
      if !l.all s.laneAsks then s
      else
        let n : Need := { ctx := r.ctx, master := r.ctx, ia := x.ia, home := x.home, die := dieOf r.who.core, atHome := false,
                          acc := if r.kind == .pref then .prefetch else .read, n := 32, who := some r.who, place := x.queued
                          id := r.id, keeps := true }
        let each (f : State → RReq → State) (s : State) : State := l.foldl (fun s q => f s q.1) s
        let sec (f : RReq → RSec → RSec) (s : State) : State := l.foldl (fun s q => s.modRead q.1.id fun r => r.setSec q.2 (f r)) s
        let hold (s : State) : State := each (fun s r => (s.modRead r.id fun r => { r with held := true }).holdThread r.who r.id) s
        if s.loggedPage r.who.core r.ctx x.ia then if r.kind == .pref then each (fun s r => s.dropRead r.id) s else hold s
        else match s.gate n with
          | .go q =>
            let t := s.serveRead n q r.hint r.composed
            sec (fun r x => { x with got := some (s.readSec (some r.who) r.id r.ctx x.ia q), till := t.2, queued := none }) t.1
          | .own q _ => sec (fun r x => { x with got := some (s.readSec (some r.who) r.id r.ctx x.ia q), queued := none }) s
          | .wait => s.prepare n
          | .queue => sec (fun _ x => { x with queued := some s.nextId }) s.fresh
          | .nack c => sec (fun _ x => { x with retry := s.now + c }) s
          | .fault k => if r.kind == .pref then each (fun s r => s.dropRead r.id) s else hold (s.pageFault x.home r.ctx x.ia k .read)
          | .viol => each (fun s r => s.failRead r 4 x.ia) (s.violation r.ctx x.ia .read (unitCtrl x.home (ctrlOf x.ia)))
          | .dead => sec (fun _ x => { x with got := some (List.replicate 32 0, true) }) s

/-- One sector of one read. -/
def State.readAt (s : State) (r : RReq) (k : Nat) : State := s.readLanes [(r, k)]

def State.read? (s : State) (id : Nat) : Option RReq := s.m.reads.find? (·.id == id)

/-- HOME_READ_REQUEST: a read of one sector reaches the slice that serves it (R114). -/
def execHomeReadRequest (id sec : Nat) (s : State) : Host.Outcome State Fault Refusal :=
  match s.read? id with
  | some r => .next (if r.view then s else s.readAt r sec)
  | none => .next s

/-- Reads that the lanes of one bundle sent by one instruction (R208). -/
def RReq.bundled (r q : RReq) : Bool :=
  q.view && q.cycle == r.cycle && q.ctx == r.ctx && q.who.core == r.who.core && q.who.slot == r.who.slot && q.who.uid == r.who.uid &&
  q.who.pc == r.who.pc && q.who.tid % 4 == r.who.tid % 4 && q.hint == r.hint

/-- VIEW_COMPOSE: the composer of one home controller reads the sectors that the lanes of a bundle miss there, each once:
at one instant for every lane that wants it (R134, R208). A lessee's own copy is read for it alone (R155). -/
def execViewCompose (id : Nat) (s : State) : Host.Outcome State Fault Refusal :=
  match s.read? id with
  | none => .next s
  | some r =>
    let ctl (x : RSec) : Nat × Nat := (x.home, ctrlOf x.ia)
    match r.secs.find? (·.got.isNone) with
    | none => .next s
    | some c =>
      if !r.view then .next s
      else
        let missing (x : RSec) : Bool := x.got.isNone && ctl x == ctl c
        let lanes (s : State) (p : RReq → RSec → Bool) : List ReadLane :=
          (s.m.reads.filter r.bundled).flatMap fun q => q.secs.zipIdx.filterMap fun x => if missing x.1 && p q x.1 then some (q, x.2) else none
        let lessee (q : RReq) (x : RSec) : Bool := (s.leaseOf? q.who q.ctx (lineOf x.ia)).isSome
        let s' := (lanes s lessee).foldl (fun s q => s.readLanes [q]) s
        let secs := ((lanes s fun q x => !lessee q x).filterMap fun q => q.sec?.map (·.ia)).eraseDups
        .next (secs.foldl (fun s k => s.readLanes (lanes s fun q x => x.ia == k && !lessee q x)) s')

/-- Bytes of a read with their poison. -/
def RReq.byteOf (r : RReq) (b : BSrc) : Byte × Bool :=
  match b with
  | .fill x => (x, false)
  | .far x p => (x, p)
  | .mem ia =>
    match r.secs.find? fun x => x.ia == secOf ia with
    | some x => match x.got with
      | some g => (g.1.getD (ia % 32) 0, g.2)
      | none => (0, false)
    | none => (0, false)

/-- Load results: 32-bit registers, low bytes first; a poisoned register receives 0 (R119, R122, R137). -/
def loadRegs (z : Size) (sx : Bool) (bs : List (Byte × Bool)) : List (Word × Bool) :=
  (List.range z.group).map fun k =>
    let part := (bs.drop (4 * k)).take 4
    let x := leNat (part.map (·.1))
    let w : Word := match z with
      | .byte => if sx then (BitVec.ofNat 8 x).signExtend 32 else BitVec.ofNat 32 x
      | .half => if sx then (BitVec.ofNat 16 x).signExtend 32 else BitVec.ofNat 32 x
      | _ => BitVec.ofNat 32 x
    let p := part.any (·.2)
    (if p then 0 else w, p)

/-- Every set that the request fills has a way that neither a lease pins nor an earlier fill in flight holds (R113). -/
def State.canFill (s : State) (r : RReq) : Bool :=
  r.secs.all fun x => decide (x.till ≤ s.now) || s.setFree r.who.core r.id (setOf x.ia)

/-- Sectors that arrive are installed (R112, R113). -/
def State.fillAll (s : State) (r : RReq) : State :=
  r.secs.foldl (fun s x => if s.now < x.till then s.fill r.who.core r.ctx x.ia x.home r.hint x.till else s) s

/-- A load's data reach its thread (R119, R122, R137): lda traps on poison (R120). -/
def State.finishLoad (s : State) (r : RReq) (z : Size) (sx : Bool) (d : Nat) (acq : Bool) : State :=
  let regs := loadRegs z sx (r.bytes.map r.byteOf)
  if acq && regs.any (·.2) then s.failRead r 5 ((secsOf r.bytes).headD 0)
  else
    let s := (s.dropRead r.id).letGo r.who r.id
    if !s.lives r.who then s
    else regs.zipIdx.foldl (fun s q => s.deliver r.who.core r.who.slot r.who.tid (.v (d + q.2)) q.1.1 q.1.2) s

def State.modWEnt (s : State) (id : Nat) (f : WEnt → WEnt) : State :=
  s.setWrites fun l => l.map fun w => if w.id == id then f w else w

/-! Stores (R123, R138, R139). -/

/-- Requests that a release of the thread waits for (R159). At .wg another thread of the core must see the thread's
writes: they enter the write queue first, and DEDUCED from R161, its reductions and atomics, which no queue
supplies to loads, are done (log 22). -/
def Mem.releaseIds (m : Mem) (w : Who) (sc : Scope) : List Nat :=
  let mine := m.writes.filter fun x => x.of w
  (m.reads.filterMap fun r => if r.who.same w && r.kind != .pref then some r.id else none) ++
  (m.atoms.filterMap fun a => if a.lanes.any (fun l => l.who.same w) then some a.id else none) ++
  (if sc == .wg then mine.flatMap fun x => match x.kind with
      | .st | .strl | .pzap => if x.ord == 0 then [x.eid] else []
      | .red _ _ | .redf _ => [x.id]
   else mine.map (·.id))

/-- With the results that are still to reach its w registers (R38, R159). -/
def Env.releaseIds (e : Env) (sc : Scope) : List Nat :=
  e.s.m.releaseIds e.who sc ++ (e.t.wbusy.filter (·.tag != 0)).map (·.tag)

/-- Requests that an acquire of the thread waits for (R163): loads and atomics that have not returned. -/
def Mem.acquireIds (m : Mem) (w : Who) : List Nat :=
  (m.reads.filterMap fun r => if r.who.same w && r.kind != .pref then some r.id else none) ++
  (m.atoms.filterMap fun a => if a.lanes.any (fun l => l.who.same w) then some a.id else none)

/-- A write of the thread that has not entered the write queue has some of the bytes of a sector (R121). -/
def Mem.unentered (m : Mem) (w : Who) (id ctx sec : Nat) (bs : List Nat) : Bool :=
  m.writes.any fun x => x.ord == 0 && decide (x.id < id) && x.ctx == ctx && x.ia == sec && x.lanes.any fun l => l.who.same w && l.bs.any bs.contains

/-- A new write of one lane to some bytes of one sector. A release store enters the core's write queue once what it waits for is
done, and a write of the thread to the same bytes follows it (R116, R121, R159). -/
def Env.newWrite (e : Env) (va : DWord) (sec home : Nat) (msa : Bool) (kind : WKind) (sc : Scope) (byp : Bool)
    (after : List Nat) (till : Nat) (bs : List Nat) : WEnt :=
  let id := e.s.nextId
  let late := e.s.anyOutstanding after || decide (e.s.now < till) || e.s.m.unentered e.who id e.g.ctx sec bs
  { id := id, ord := if late then 0 else id, eid := if late then id + 1 else 0, who := e.who, lanes := [{ who := e.who, va := va, bs := bs }],
    cycle := e.s.now, ctx := e.g.ctx, va := va, ia := sec, home := home,
    msa := msa, kind := kind, sc := sc, byp := byp, mask := List.replicate 32 false, data := List.replicate 32 0,
    pri := List.replicate 32 0, ops := [], full := false, after := after, till := till,
    state := match e.s.leaseOf? e.who e.g.ctx (lineOf sec) with
      | some l => if e.s.y.allowed e.g.ctx sec 32 false true then .leased l.id else .queued
      | none => .queued }

/-- The write belongs to the same instruction and bundle as a lane's (R118, R120, R139, R149). -/
def WEnt.sameBundle (x y : WEnt) : Bool :=
  x.cycle == y.cycle && x.ctx == y.ctx && x.ia == y.ia && x.kind == y.kind && x.state == y.state &&
  x.who.core == y.who.core && x.who.slot == y.who.slot && x.who.uid == y.who.uid && x.who.pc == y.who.pc &&
  x.who.tid % 4 == y.who.tid % 4

/-- They travel together: those that have entered the write queue, and those that have not. -/
def WEnt.joins (x y : WEnt) : Bool := x.sameBundle y && (x.ord == 0) == (y.ord == 0)

/-- Put bytes into a write: (byte in the sector, value, shadow offset). A byte of equal or higher shadow offset replaces
what a lower thread wrote. -/
def WEnt.put (x : WEnt) (l : List (Nat × Byte × Nat)) : WEnt :=
  let x := l.foldl (fun (x : WEnt) q =>
    if x.mask.getD q.1 false && decide (q.2.2 < x.pri.getD q.1 0) then x
    else { x with mask := x.mask.set q.1 true, data := x.data.set q.1 q.2.1, pri := x.pri.set q.1 q.2.2 }) x
  { x with full := (x.kind == .st || x.kind == .pzap) && x.mask.all fun b => b }

/-- Where some lanes of a bundle enter the write queue later, the whole sector is written once they have (R120). -/
def State.fullLate (s : State) (w : WEnt) : State :=
  let l := s.m.writes.filter (·.sameBundle w)
  if l.length < 2 then s
  else
    let whole := (w.kind == .st || w.kind == .pzap) && (List.range 32).all fun k => l.any fun x => x.mask.getD k false
    s.setWrites fun ws => ws.map fun x => if x.sameBundle w then { x with full := whole && x.ord == 0 } else x

/-- A lane's bytes join the write of its bundle to the sector, or make a new one. -/
def State.addWrite (s : State) (w : WEnt) (l : List (Nat × Byte × Nat)) : State :=
  match s.m.writes.find? fun x => x.joins w with
  | some old => (s.modWEnt old.id fun x =>
      ({ x with lanes := x.lanes ++ w.lanes
                after := x.after ++ w.after.filter (fun k => !x.after.contains k), till := max x.till w.till } : WEnt).put l).fullLate w
  | none => (({ s with nextId := s.nextId + 2 } : State).setWrites (· ++ [w.put l])).fullLate w

/-- Of these requests, those that a write to a line of the lease waits for: the lessee's writes on its copy complete together
with it (R157). -/
def Mem.notTogether (m : Mem) (l : Option LeaseEnt) (ids : List Nat) : List Nat :=
  match l with
  | none => ids
  | some l => ids.filter fun k => !m.writes.any fun x => x.id == k && x.ord != 0 && x.state == .leased l.id

/-- Store bytes at base addresses: (IA, value, shadow offset), sector by sector. -/
def Env.sendStore (e : Env) (va : DWord) (kind : WKind) (sc : Scope) (h : Hint) (homeOf : Nat → Nat)
    (bytes : List (Nat × Byte × Nat)) : State :=
  let before := if kind == .strl then e.releaseIds sc else []
  let till := if kind == .strl then e.t.lastW else 0
  (secsOf (bytes.map fun q => .mem q.1)).foldl (fun s sec =>
    let mine := (bytes.filter fun q => secOf q.1 == sec).map fun q => (q.1 % 32, q.2)
    let after := e.s.m.notTogether (e.s.leaseOf? e.who e.g.ctx (lineOf sec)) before
    let w := ({ e with s := s } : Env).newWrite va sec (homeOf sec) false kind sc (h == .byp) after till (mine.map (·.1))
    (s.addWrite w mine).touch e.g.core e.g.ctx sec h) e.s

/-- The write takes up a place of the core's write queue: until it completes, but in the side log and on a lessee's copy (R111,
R118). -/
def WEnt.inQueue (x : WEnt) (core : Nat) : Bool :=
  x.who.core == core && x.ord != 0 && match x.state with
    | .logged _ | .leased _ => false
    | _ => true

/-- The core's write queue is full of writes of other bundles (R118). -/
def State.queueFull (s : State) (core : Nat) (p : WEnt → Bool) : Bool :=
  decide (Config.writeQueue < (s.m.writes.filter fun x => x.inQueue core && !p x).length)

/-- The write is of the instruction that issues now. -/
def Env.issues (e : Env) (x : WEnt) : Bool :=
  x.cycle == e.s.now && x.who.slot == e.g.slot && x.who.uid == e.g.uid && x.who.pc == e.t.pc

/-- A store to these sectors finds the write queue full, and waits at issue (R118); a lessee's own line needs no place. -/
def Env.mustQueue (e : Env) (secs : List Nat) : Bool :=
  e.s.queueFull e.g.core e.issues && secs.any fun x => (e.s.leaseOf? e.who e.g.ctx (lineOf x)).isNone

/-- Lanes of the instruction that its store has been held back for, in this bundle's quarter (R139). -/
def Env.gatherPeers (e : Env) : List Thread :=
  e.g.threads.filter fun t => t.tid % 4 == e.t.tid % 4 && t.pc == e.t.pc && t.gwait && match t.run with
    | .runnable | .blocked (.page _ _) => true
    | _ => false

/-- Every lane of the bundle has resolved its gather indices, those that were held back for it among them (R139). -/
def Env.allGathered (e : Env) (h : Hdr) (n : Nat) (a : Reg) (b : Src) : Bool :=
  (e.gatherPeers.all fun t => e.path.tids.contains t.tid) &&
  e.path.tids.all fun tid => match e.s.env? e.path tid with
    | none => match e.g.thread? tid with
      | some t => match t.run with
        | .blocked (.page _ _) => t.pc != e.path.pc
        | _ => true
      | none => true
    | some e' =>
      if !e'.guard h then true
      else match e'.locate (e'.ea a b) n .write with
        | .shadow _ v off => match e'.gather false v (e'.ea a b) off n with
          | .ok _ => true
          | .error (.trap _ _ _ _) | .error (.ended _) => true
          | .error _ => false
        | _ => true

/-- A store through a gather view that its bundle holds back tries again at the next multiple of eight cycles, so that its
lanes come together (R139, log 13). -/
def Env.gatherWait (e : Env) (s : State) : Res :=
  .ended (s.modThread e.g.core e.g.slot e.t.tid fun t => { t with next := (s.now / 8 + 1) * 8, gwait := true })

/-- st and strl. A lane that an unmapped index page holds stays one of its bundle (R139). A poisoned gather index raises the
poison-use trap, for a store too (DEDUCED: R137 says it of a load; log 24). -/
def Env.store (e : Env) (hd : Hdr) (kind : WKind) (sc : Scope) (h : Hint) (z : Size) (a : Reg) (b c : Src) : Res :=
  let va := e.ea a b
  let x := leBytes z.bytes (e.data z c)
  match e.locate va z.bytes .write with
  | .access => .trap 4 0 va false
  | .misaligned => .trap 3 0 va false
  | .plain ia home _ =>
    if e.s.cacheTested e.g.core e.g.ctx (secOf ia) || e.mustQueue [secOf ia] then .wait
    else .done (e.sendStore va kind sc h (fun _ => home) (x.zipIdx.map fun q => (ia + q.2, q.1, 0)))
  | .shadow _ v off =>
    if !v.writable || v.remote then .trap 4 0 va false
    else match e.gather false v va off z.bytes with
      | .error (.block s b) => .ended (s.modThread e.g.core e.g.slot e.t.tid fun t =>
          { t.retire e.s.now hd.stall e.t.pc with run := .blocked b, gwait := true })
      | .error .wait => e.gatherWait e.s
      | .error (.waitIn s) => e.gatherWait s
      | .error r => r
      | .ok (s, ix) =>
        let bytes := v.map ix off z.bytes
        if e.ctx.unbackedAny bytes then .trap 4 0 va false
        else if v.usesGather && !e.allGathered hd z.bytes a b then e.gatherWait s
        else
          let bs := (x.zip bytes).zipIdx.filterMap fun q => match q.1.2 with
            | .mem ia => some (ia, q.1.1, off + q.2)
            | .fill _ | .far _ _ => none
          if ({ e with s := s } : Env).tested bytes || e.mustQueue (secsOf bytes) then if v.usesGather then e.gatherWait s else .waitIn s
          else .done (({ e with s := s } : Env).sendStore va kind sc h e.ctx.homeOf bs)

def execSt (h : Hdr) (sc : Scope) (hn : Hint) (sz : Size) (a : Reg) (b c : Src) (s : State) :
    Host.Outcome State Fault Refusal :=
  threadOp (.st h sc hn sz a b c) (fun e => e.store h .st sc hn sz a b c) s

def execStrl (h : Hdr) (sc : Scope) (hn : Hint) (sz : Size) (a : Reg) (b c : Src) (s : State) :
    Host.Outcome State Fault Refusal :=
  threadOp (.strl h sc hn sz a b c) (fun e => e.store h .strl sc hn sz a b c) s

/-- pzap: 32 zero bytes that clear the sector's poison (R271). -/
def execPzap (h : Hdr) (sc : Scope) (a : Reg) (b : Src) (s : State) : Host.Outcome State Fault Refusal :=
  threadOp (.pzap h sc a b) (fun e =>
    let va := e.ea a b
    match e.plainAt va 1 .write with
    | .error c => .trap c 0 va false
    | .ok (ia, home, _) =>
      if e.mustQueue [secOf ia] then .wait
      else .done (e.sendStore va .pzap sc .dflt (fun _ => home) ((List.range 32).map fun k => (secOf ia + k, 0, 0)))) s

/-! The steps of a write. -/

def State.write? (s : State) (id : Nat) : Option WEnt := s.m.writes.find? (·.id == id)

def State.dropWrite (s : State) (id : Nat) : State := s.setWrites fun l => l.filter (·.id != id)

def WState.waits : WState → Bool
  | .arrived _ _ => false
  | .leased _ => false
  | _ => true

/-- Writes of the core to the sector that entered its write queue before this one and have not arrived (R118). -/
def Mem.behind (m : Mem) (w : WEnt) : List WEnt :=
  m.writes.filter fun x => x.ord != 0 && decide (x.ord < w.ord) && x.who.core == w.who.core && x.ctx == w.ctx && x.ia == w.ia && x.state.waits

/-- Its turn has come: it has entered the write queue, and what it must follow there is done (R118, R121, R159). -/
def State.mayGo (s : State) (w : WEnt) : Bool :=
  w.ord != 0 && (s.m.behind w).isEmpty &&
  w.lanes.all fun k => !s.m.readBefore k.who w.id w.ctx w.ia &&
    !s.m.atoms.any fun a => decide (a.id < w.id) && a.ctx == w.ctx && secOf a.ia == w.ia && a.lanes.any fun l => l.who.same k.who

/-- The write may enter the core's write queue: what it waits for is done, an earlier write of its threads to its bytes has
entered, and there is room (R116, R118, R159). -/
def State.mayEnter (s : State) (w : WEnt) : Bool :=
  w.ord == 0 && !s.anyOutstanding w.after && decide (w.till ≤ s.now) &&
  (w.lanes.all fun k => !s.m.unentered k.who w.id w.ctx w.ia k.bs) &&
  match w.state with
  | .leased _ => true
  | _ => !s.queueFull w.who.core fun _ => false

/-- It enters it, behind the writes that are there; a lessee's goes to its copy while it holds the line. -/
def State.enter (s : State) (w : WEnt) : State :=
  let q : WState := match w.state with
    | .leased k => if s.m.leases.any fun l => l.id == k && l.state == .held then .leased k else .queued
    | _ => .queued
  s.fresh.setWrites fun l => l.filter (·.id != w.id) ++ [{ w with ord := s.nextId, state := q }]

/-- Every write that may enter its write queue does. -/
def State.enterAll (s : State) : State :=
  (s.m.writes.filter (·.ord == 0)).foldl (fun s w => if s.mayEnter w then s.enter w else s) s

/-- A write is refused: each of its lanes traps late, at its own instruction and address (R253, R302). -/
def State.failWrite (s : State) (w : WEnt) (cause kind : Nat) : State :=
  w.lanes.foldl (fun s l => s.lateTrap l.who w.ctx cause l.va w.ia kind) (s.dropWrite w.id)

def WEnt.need (w : WEnt) (acc : Acc) (atHome : Bool) : Need :=
  { ctx := w.ctx, master := w.ctx, ia := w.ia, home := w.home, die := dieOf w.who.core, atHome := atHome, acc := acc, n := 32,
    who := if w.lanes.length == 1 then some w.who else none
    place := match w.state with
      | .leaseQueue n => some n
      | _ => none
    id := w.id, keeps := true }

/-- The place where a plain write completes: the die's own slice, but for pzap, which is a home write (R285). -/
def WEnt.plainNeed (w : WEnt) : Need := w.need .write (w.kind == .pzap)

def WState.canArrive : WState → Bool
  | .queued | .leaseQueue _ => true
  | _ => false

def WKind.plain : WKind → Bool
  | .st | .strl | .pzap => true
  | .red _ _ | .redf _ => false

/-- WRITE_ARRIVAL: a write reaches the slice where it completes and becomes pending (R115). -/
def State.arrive (s : State) (w : WEnt) : State :=
  let n := w.plainNeed
  match s.gate n with
  | .go x =>
    let ten := if n.serving == n.home && !x.hst then s.m.lineEnd n.home x else s.m.tenEnd n.serving x.key
    let c := max s.now (max ten (s.m.lastPending w.ctx w.ia))
    let s := s.toM n
    let m := if w.byp then s.m else s.m.install s.now w.home w.ctx w.ia x (!w.mask.all fun b => b)
    (({ s with m := m } : State).hostVisit n.die w.ia x).fresh.modWEnt w.id fun w => { w with state := .arrived c s.nextId }
  | .own _ l => s.modWEnt w.id fun w => { w with state := .leased l }
  | .wait => s.prepare n
  | .queue => s.fresh.modWEnt w.id fun w => { w with state := .leaseQueue s.nextId }
  | .nack c => s.modWEnt w.id fun w => { w with state := .retry (s.now + c) }
  | .fault l => s.pageFault w.home w.ctx w.ia l .write
  | .viol => (s.violation w.ctx w.ia .write (unitCtrl w.home (ctrlOf w.ia))).failWrite w 4 1
  | .dead => s.dropWrite w.id

def execWriteArrival (id : Nat) (s : State) : Host.Outcome State Fault Refusal :=
  match s.write? id with
  | some w => .next (if w.kind.plain && w.state.canArrive && s.mayGo w then s.arrive w else s)
  | none => .next s

/-- The write is the oldest pending on its sector, and its time has come (R115). -/
def State.completes (s : State) (w : WEnt) : Bool :=
  match w.state with
  | .arrived c q => decide (c ≤ s.now) && s.m.writes.all fun x => match x.state with
    | .arrived _ q' => !(x.ctx == w.ctx && x.ia == w.ia) || decide (q ≤ q')
    | _ => true
  | _ => false

/-- WRITE_COMPLETE: bytes merge into the sector; a store of all 32 bytes and pzap clear poison (R115, R120). -/
def execWriteComplete (id : Nat) (s : State) : Host.Outcome State Fault Refusal :=
  match s.write? id with
  | none => .next s
  | some w =>
    if !s.completes w then .next s
    else match s.xlate w.home w.ctx w.ia with
      | .ok x => .next ((s.dropWrite id).complete w.ctx w.ia w.plainNeed.serving x w.mask w.data w.full false true)
      | _ => .next (s.modWEnt id fun w => { w with state := .queued })

/-- TENURE_EXPIRY: a sector whose tenure has ended leaves the cache (R111, R114). -/
def execTenureExpiry (core ctx sec : Nat) (s : State) : Host.Outcome State Fault Refusal :=
  .next { s with m := { s.m with
    cache := s.m.cache.filter fun c => !(c.core == core && c.ctx == ctx && c.ia == sec && decide (c.till ≤ s.now))
    tenures := s.m.tenures.filter fun t => decide (s.now < t.till) } }

def Mem.loggedOn (m : Mem) (core : Nat) : List WEnt :=
  m.writes.filter fun x => x.who.core == core && match x.state with
    | .logged _ => true
    | _ => false

/-- SIDE_LOG_RETIRE: a write whose page is not mapped enters the side log, when it has room (R118, R312). -/
def execSideLogRetire (id : Nat) (s : State) : Host.Outcome State Fault Refusal :=
  match s.write? id with
  | none => .next s
  | some w =>
    let core := w.who.core
    if w.ord != 0 && w.state.canArrive && (s.missing? w.home w.ctx w.ia).isSome && decide ((s.m.loggedOn core).length < 512) &&
       (s.m.behind w).all (fun x => match x.state with
         | .logged _ => true
         | _ => false) then
      let q := s.m.nextSeq.getD core 1
      .next (({ s with m := { s.m with nextSeq := s.m.nextSeq.set core (q + 1) } } : State).modWEnt id fun w =>
        { w with state := .logged q })
    else .next s

/-- SIDE_LOG_REPLAY: an entry whose page is mapped goes out again, in sequence order in its page (R118, R257). -/
def execSideLogReplay (core seq : Nat) (s : State) : Host.Outcome State Fault Refusal :=
  let mapped (w : WEnt) : Bool := match s.xlate w.home w.ctx w.ia with
    | .fault _ => false
    | _ => true
  match s.m.writes.find? fun x => x.who.core == core && x.state == .logged seq && mapped x with
  | none => .next s
  | some w =>
    let older := (s.m.loggedOn core).any fun x => x.ctx == w.ctx && s.samePage w.ctx w.ia x.ia && match x.state with
      | .logged q => decide (q < seq)
      | _ => false
    .next (if older then s else s.modWEnt w.id fun w => { w with state := .queued })

/-- RETRY_RESEND: a refused request is sent again once its hint has elapsed (R117); one that a bundle's lanes share, for all of
them (R208). -/
def execRetryResend (id : Nat) (s : State) : Host.Outcome State Fault Refusal :=
  let clear (r : Nat) : Nat := if r ≤ s.now then 0 else r
  let shares (r : RReq) : Bool := match s.read? id with
    | some q => q.view && q.bundled r
    | none => false
  .next { s with
    m := { s.m with
      reads := s.m.reads.map fun r => if r.id == id || shares r then { r with secs := r.secs.map fun x => { x with retry := clear x.retry } } else r
      writes := s.m.writes.map fun w => if w.id == id then (match w.state with
        | .retry t => if t ≤ s.now then { w with state := .queued } else w
        | _ => w) else w
      atoms := s.m.atoms.map fun a => if a.id == id then { a with retry := clear a.retry } else a
      leases := s.m.leases.map fun l => if l.id == id then { l with retry := clear l.retry } else l } }

/-- A request of the context that has reached the home needs the translation, for an access of this kind that the access tables
allow (R106, R301). -/
def State.walkWanted (s : State) (die ctx sec : Nat) (acc : Acc) : Bool :=
  s.y.allowedAcc ctx sec 32 acc && match acc with
  | .read => s.m.reads.any fun r => r.ctx == ctx && r.kind != .pref && !s.loadWaits r.who r.id ctx sec && r.secs.any fun x =>
      x.ia == sec && x.home == die && x.got.isNone && x.retry == 0
  | .write => s.m.writes.any fun w => w.ctx == ctx && w.ia == sec && w.home == die && w.state.canArrive && s.mayGo w
  | .rmw => s.m.atoms.any fun a => a.ctx == ctx && secOf a.ia == sec && a.home == die && !a.fwd && a.retry == 0 &&
      a.lanes.all fun l => !s.loadWaits l.who a.id ctx sec && !s.m.writeBefore l.who a.id ctx sec (s.leaseOf? l.who ctx (lineOf sec)).isSome
  | .fetch | .prefetch => false

/-- PAGE_WALK: a translation agent walks for a request that has reached it and caches the leaf, or holds the missing unit
(R106, R108, R312). -/
def execPageWalk (die ctrl ctx ia : Nat) (acc : Acc) (s : State) : Host.Outcome State Fault Refusal :=
  let wanted := s.walkWanted die ctx (secOf ia) acc
  if !wanted || ctrl != ctrlOf ia || (s.missing? die ctx ia).isSome || (s.y.dies.getD die {}).st != .running then .next s
  else match s.walk ctx ia with
    | .miss l => .next (s.pageFault die ctx ia l acc)
    | .leaf l pa hst =>
      let b := unitBase l ia
      let e : XEnt := { die := die, ctrl := ctrl, ctx := ctx, level := l, ia := b, pa := pa - (ia - b), hst := hst }
      .next { s with m := { s.m with xlat := s.m.xlat.filter (fun x => !(x.die == die && x.ctrl == ctrl && x.ctx == ctx &&
        x.level == l && x.ia == b)) ++ [e] } }

/-! Cache control (R124). -/

/-- Base sectors that the aligned span of n bytes around an address reaches, and the state after their index elements have
been read (R140). -/
def Env.span (e : Env) (va : DWord) (n : Nat) (acc : Acc) : Except Res (State × List Nat × (Nat → Nat)) :=
  match e.locate va 1 acc with
  | .access | .misaligned => .error (.trap 4 0 va false)
  | .plain ia home _ => .ok (e.s, (List.range (n / 32)).map (fun k => ia / n * n + 32 * k), fun _ => home)
  | .shadow _ v off =>
    let lo := off / n * n
    let len := min n (v.size - lo)
    if v.remote then .ok (e.s, [], fun _ => 0)
    else match e.gather true v va lo len with
      | .error r => .error r
      | .ok (s, ix) => .ok (s, (secsOf (v.map ix lo len)).filter fun x => !e.ctx.unbacked x, e.ctx.homeOf)

/-- Write a modified visitor copy back and keep it: M to E, O to S (R285). -/
def DirEnt.keep (e : DirEnt) : DirEnt :=
  match e.st with
  | .m => { e with st := .e, l := false }
  | .o => { e with st := .s, sh := nsInsert e.own e.sh }
  | _ => e

/-- A die writes its modified copies of lines back to their homes and keeps them clean. -/
def Mem.writeBack (m : Mem) (ctx die : Nat) (lines : List Nat) : Mem :=
  { m with dir := m.dir.map fun d =>
      if d.ctx == ctx && lines.contains d.line && d.own == die && d.trans.isNone && !d.l then d.keep else d }

def execCwb (h : Hdr) (sc : Scope) (a : Reg) (b : Src) (s : State) : Host.Outcome State Fault Refusal :=
  threadOp (.cwb h sc a b) (fun e =>
    match e.span (e.ea a b) 128 .read with
    | .error r => r
    | .ok (s, secs, _) =>
      let w := e.who
      let ids := (e.mem.writes.filterMap fun x => if x.of w && x.ctx == e.g.ctx && secs.contains x.ia then some x.id else none) ++
        (e.mem.atoms.filterMap fun a => if a.ctx == e.g.ctx && secs.contains (secOf a.ia) && a.lanes.any (fun l => l.who.same w)
          then some a.id else none)
      let back := if sc == .dev || sc == .sys then (secs.map lineOf).eraseDups else []
      .done (s.modThread e.g.core e.g.slot e.t.tid fun t => { t with cwb := ids, cwbBack := back })) s

/-- The write-backs of a cwb, once the writes it awaits are complete (R124). -/
def State.cwbStep (s : State) (g : Workgroup) (t : Thread) : State :=
  if t.cwbBack.isEmpty || t.cwb.any s.pending then s
  else
    let m := s.m.writeBack g.ctx (dieOf g.core) t.cwbBack
    ({ s with m := m } : State).modThread g.core g.slot t.tid fun t => { t with cwbBack := [] }

/-- Cores in scope of a core (R15). -/
def coresIn (sc : Scope) (core k : Nat) : Bool :=
  match sc with
  | .wg => k == core
  | .cl => k / 4 == core / 4
  | .die => dieOf k == dieOf core
  | .dev | .sys => true

/-- A cinv drops a die's visitor copy once no tenure of the die covers it, its writes are complete and no lease has the line
(R111, R124, R284, R285); none while it must wait. -/
def State.dropNow (s : State) (q : PendDrop) : Option State :=
  match q.host with
  | some pa =>
    if !s.hostFree q.die pa || s.m.hostLines.any (fun l => l.die == q.die && l.pa == pa && l.snoop.isSome) then none
    else some { s with m := { s.m with hostLines := s.m.hostLines.filter fun l => !(l.die == q.die && l.pa == pa) } }
  | none => match s.dir? q.ctx q.line with
    | none => some s
    | some e =>
      if !e.holds q.die then some s
      else if e.trans.isSome || e.l || !s.tenLine e.home q.die q.ctx q.line || !s.m.quietLine q.ctx q.line then none
      else some (match e.st with
        | .s => s.setDir { e with sh := nsErase q.die e.sh }
        | .e | .m => s.toI e
        | .o =>
          if e.own != q.die then s.setDir { e with sh := nsErase q.die e.sh }
          else if e.sh.isEmpty then s.toI e else s.setDir { e with st := .s }
        | .i => s)

/-- The copy is dropped, now or once it can be. -/
def State.dropCopy (s : State) (q : PendDrop) : State :=
  match s.dropNow q with
  | some s => s
  | none => if s.m.drops.contains q then s else { s with m := { s.m with drops := s.m.drops ++ [q] } }

/-- Every cinv that can drop its copy does. -/
def State.dropAll (s : State) : State :=
  s.m.drops.foldl (fun s q => ({ s with m := { s.m with drops := s.m.drops.filter (· != q) } } : State).dropCopy q) s

def execCinv (h : Hdr) (sc : Scope) (a : Reg) (b : Src) (s : State) : Host.Outcome State Fault Refusal :=
  threadOp (.cinv h sc a b) (fun e =>
    match e.span (e.ea a b) 128 .read with
    | .error r => r
    | .ok (s, secs, homeOf) =>
      let die := dieOf e.g.core
      let inScope (k : Nat) : Bool := coresIn (if sc == .wg || sc == .cl then sc else .die) e.g.core k
      .done (secs.foldl (fun s x =>
        let s := { s with m := s.m.dropCopies e.g.ctx x 32 inScope }
        if sc == .dev || sc == .sys then
          let s := s.dropCopy { ctx := e.g.ctx, line := lineOf x, die := die, host := none }
          match sc, s.xlate (homeOf x) e.g.ctx x with
          | .sys, .ok q => if q.hst then s.dropCopy { ctx := e.g.ctx, line := lineOf x, die := die, host := some (q.pa / 128 * 128) } else s
          | _, _ => s
        else s) s)) s

def execChint (h : Hdr) (hn : Hint) (a : Reg) (b : Src) (s : State) : Host.Outcome State Fault Refusal :=
  threadOp (.chint h hn a b) (fun e =>
    match e.span (e.ea a b) 32 .read with
    | .error r => r
    | .ok (s, secs, _) =>
      let f (c : CEnt) : Option CEnt :=
        if c.core == e.g.core && c.ctx == e.g.ctx && secs.contains c.ia && decide (s.now < c.till) then
          (if hn == .byp then none else some { c with hint := hn })
        else some c
      .done { s with m := { s.m with cache := s.m.cache.filterMap f } }) s

/-! Tile store (R109, R110, R125, R126). -/

/-- OWN of a granule (R110). -/
def Gran.owned (g : Gran) : Bool := g.ref != 0 || g.gv

def Workgroup.gran? (g : Workgroup) (off : Nat) : Gran := g.gran.getD (off / 1024) {}

/-- Offset of a tile-store access. -/
def Env.tileOff (e : Env) (a b : Src) : Nat := (e.src a + e.src b).toNat

/-- Range check, then alignment. -/
def Env.tileAt (e : Env) (off n : Nat) : Option Nat :=
  if e.g.tile.length ≤ off then some 4 else if off % n != 0 then some 3 else none

/-- A self-test has a word of n bytes of the tile store, whose requests wait (R303). -/
def Env.tileTested (e : Env) (off n : Nat) : Bool :=
  e.s.testing fun p => match p with
    | .tile c k o => c == e.g.core && k == e.g.slot && decide (off / 4 ≤ o / 4) && decide (o / 4 ≤ (off + n - 1) / 4)
    | _ => false

def execLdt (h : Hdr) (sx : Bool) (sz : Size) (d : Nat) (a b : Src) (s : State) : Host.Outcome State Fault Refusal :=
  threadOp (.ldt h sx sz d a b) (fun e =>
    let off := e.tileOff a b
    match e.tileAt off sz.bytes with
    | some c => .trap c 0 (BitVec.ofNat 64 off) false
    | none =>
      if (e.g.gran? off).owned || e.tileTested off sz.bytes then .wait
      else
        let bs := (List.range sz.bytes).map fun k => (e.g.tile.getD (off + k) 0, e.g.tpoi.contains ((off + k) / 4))
        .done ((loadRegs sz sx bs).zipIdx.foldl (fun s q =>
          s.deliver e.g.core e.g.slot e.t.tid (.v (d + q.2)) q.1.1 q.1.2) e.s)) s

/-- Lower threads of the bundle that have executed the instruction (R119). -/
def Env.peers (e : Env) (h : Hdr) : List Env :=
  (e.g.threads.filter fun t => e.path.tids.contains t.tid && decide (t.tid < e.t.tid) && t.pc == e.path.pc + 8 &&
    t.run == .runnable && decide (e.s.now < t.next)).filterMap fun t =>
      let e' : Env := { e with t := t }
      if e'.guard h then some e' else none

/-- Poison bits after an instruction has written bytes: a word whose four bytes it wrote is ordinary (R119). -/
def clearTile (tpoi : List Nat) (written : List Nat) (words : List Nat) : List Nat :=
  words.foldl (fun l w => if (List.range 4).all fun k => written.contains (4 * w + k) then nsErase w l else l) tpoi

def execStt (h : Hdr) (sz : Size) (a b c : Src) (s : State) : Host.Outcome State Fault Refusal :=
  threadOp (.stt h sz a b c) (fun e =>
    let off := e.tileOff a b
    match e.tileAt off sz.bytes with
    | some k => .trap k 0 (BitVec.ofNat 64 off) false
    | none =>
      if (e.g.gran? off).owned || e.tileTested off sz.bytes then .wait
      else
        let span (o : Nat) := (List.range sz.bytes).map (o + ·)
        let written := span off ++ (e.peers h).flatMap fun e' => span (e'.tileOff a b)
        let words := (List.range ((sz.bytes + 3) / 4)).map (off / 4 + ·)
        .done (e.s.modWg e.g.core e.g.slot fun g =>
          { g with tile := splice g.tile off (leBytes sz.bytes (e.data sz c)), tpoi := clearTile g.tpoi written words })) s

def execOwn (h : Hdr) (d : Nat) (a : Src) (s : State) : Host.Outcome State Fault Refusal :=
  threadOp (.own h d a) (fun e =>
    let off := (e.src a).toNat
    if e.g.tile.length ≤ off then .trap 4 0 (BitVec.ofNat 64 off) false
    else
      let q := e.g.gran? off
      let x := (if q.owned then 2 ^ 31 else 0) + (if q.gv then 2 ^ 30 else 0) + q.ref
      .done (e.s.deliver e.g.core e.g.slot e.t.tid (.v d) (BitVec.ofNat 32 x) false)) s

/-- Granules of tgive and ttake, or none outside the allocation (R126). -/
def Env.granules (e : Env) (a b : Src) : Option (List Nat) :=
  let x := (e.src a).toNat
  let n := (e.src b).toNat
  if n == 0 then some []
  else
    let lo := x / 1024
    let hi := (x + n - 1) / 1024
    if e.g.gran.length ≤ hi then none else some ((List.range (hi + 1 - lo)).map (lo + ·))

def Workgroup.setGv (g : Workgroup) (l : List Nat) (v : Bool) : Workgroup :=
  { g with gran := l.foldl (fun q k => q.modify k fun x => { x with gv := v }) g.gran }

def execTgive (h : Hdr) (a b : Src) (s : State) : Host.Outcome State Fault Refusal :=
  threadOp (.tgive h a b) (fun e =>
    match e.granules a b with
    | none => .trap 4 0 ((e.src a).setWidth 64) false
    | some l => .done (e.s.modWg e.g.core e.g.slot (·.setGv l true))) s

def execTtake (h : Hdr) (a b : Src) (s : State) : Host.Outcome State Fault Refusal :=
  threadOp (.ttake h a b) (fun e =>
    match e.granules a b with
    | none => .trap 4 0 ((e.src a).setWidth 64) false
    | some l =>
      let s := e.s.modWg e.g.core e.g.slot (·.setGv l false)
      if l.all fun k => (e.g.gran.getD k {}).ref == 0 then .done s
      else .block s (.ttake (l.headD 0) l.length)) s

end Sys2Proof.Machine
end

