-- ==== Sys2Proof/Machine/Integer.lean ====
section
/-! DEFINITION. Integer and address instructions 0x000-0x028 (R50-R65). -/

namespace Sys2Proof.Machine

/-- One 32-bit result. -/
def r1 (d : Reg) (x : Word) : LaneRes := { regs := [(d, x)] }

/-- A 64-bit result in a pair, low half in the even register (R28). -/
def r2 (d : Reg) (x : DWord) : LaneRes :=
  { regs := (d.regs 2).zip [x.setWidth 32, (x >>> 32).setWidth 32] }

/-- A predicate result. -/
def rp (n : Nat) (b : Bool) : LaneRes := { preds := [(n, b)] }

/-- A binary operation at the width of the type (R51). -/
def Env.binW (e : Env) (ty : ITy) (d : Reg) (a b : Src) (f : Word → Word → Word) (g : DWord → DWord → DWord) :
    LaneRes :=
  if ty.wide then r2 d (g (e.src64 a) (e.src64 b)) else r1 d (f (e.src a) (e.src b))

/-- Signed type (R33). -/
def itySigned : ITy → Bool
  | .i32 | .i64 => true
  | .n32 | .n64 => false

/-- A 32-bit value extended to 64 bits (R55). -/
def ext64 (ty : STy) (x : Word) : DWord :=
  match ty with
  | .i32 => x.signExtend 64
  | .n32 => x.setWidth 64

/-- The smaller or larger operand (R52). -/
def pickMin {n : Nat} (sg : Bool) (x y : BitVec n) : BitVec n :=
  if (if sg then y.slt x else y.ult x) then y else x
def pickMax {n : Nat} (sg : Bool) (x y : BitVec n) : BitVec n :=
  if (if sg then x.slt y else x.ult y) then y else x

/-- Count of a register shift: the low 8 bits (R53). -/
def shCount {n : Nat} (b : BitVec n) : Nat := b.toNat % 256

/-- IMM28 sign-extended to 32 bits (R31, R54). -/
def imm32 (imm : Nat) : Word := (BitVec.ofNat 28 imm).signExtend 32

/-- Quotient and remainder (R56). -/
def divRem (ty : STy) (a b : Word) : Word × Word :=
  if b == 0 then (0xFFFFFFFF, a)
  else match ty with
    | .i32 => if a == 0x80000000 && b == 0xFFFFFFFF then (0x80000000, 0) else (a.sdiv b, a.srem b)
    | .n32 => (a / b, a % b)

/-- Number of 1 bits. -/
def popCount (x : Word) : Nat := (List.range 32).foldl (fun n i => if x.getLsbD i then n + 1 else n) 0

/-- Leading zeros; 32 for 0. -/
def leadZeros (x : Word) : Nat := if x == 0 then 32 else 31 - Nat.log2 x.toNat

/-- Bits in reverse order. -/
def bitRev (x : Word) : Word :=
  BitVec.ofNat 32 ((List.range 32).foldl (fun n i => n * 2 + (if x.getLsbD i then 1 else 0)) 0)

def absWord (x : Word) : Word := if x.msb then -x else x

/-- bfe (R58). -/
def bitExtract (ty : STy) (a b c : Word) : Word :=
  let pos := b.toNat % 32
  let len := min (c.toNat % 64) (32 - pos)
  if len == 0 then 0
  else
    let f := a.toNat / 2 ^ pos % 2 ^ len
    match ty with
    | .i32 => if f / 2 ^ (len - 1) % 2 == 1 then BitVec.ofNat 32 (f + (2 ^ 32 - 2 ^ len)) else BitVec.ofNat 32 f
    | .n32 => BitVec.ofNat 32 f

/-- bfi (R58). -/
def bitInsert (a b c : Word) : Word :=
  let pos := c.toNat % 32
  let len := min (c.toNat / 256 % 64) (32 - pos)
  let mask := BitVec.ofNat 32 ((2 ^ len - 1) * 2 ^ pos)
  (a &&& ~~~mask) ||| (b <<< pos &&& mask)

/-- iset (R60). -/
def intCmp {n : Nat} (sg : Bool) (c : ICmp) (x y : BitVec n) : Bool :=
  let lt := if sg then x.slt y else x.ult y
  match c with
  | .eq => x == y
  | .ne => x != y
  | .lt => lt
  | .le => lt || x == y
  | .gt => !lt && x != y
  | .ge => !lt

/-- pset (R61). -/
def predFn (f : PFn) (a b : Bool) : Bool :=
  match f with
  | .and => a && b
  | .or => a || b
  | .xor => xor a b
  | .andn => a && !b
  | .orn => a || !b
  | .nand => !(a && b)
  | .nor => !(a || b)
  | .xnor => !(xor a b)

/-- Signed by the 32-bit type. -/
def stySigned : STy → Bool
  | .i32 => true
  | .n32 => false

def execIadd (h : Hdr) (ty : STy) (d : Reg) (a b : Src) (s : State) : Host.Outcome State Fault Refusal :=
  laneOp (.iadd h ty d a b) (fun e => r1 d (e.src a + e.src b)) s

def execIsub (h : Hdr) (ty : STy) (d : Reg) (a b : Src) (s : State) : Host.Outcome State Fault Refusal :=
  laneOp (.isub h ty d a b) (fun e => r1 d (e.src a - e.src b)) s

def execImul (h : Hdr) (ty : STy) (d : Reg) (a b : Src) (s : State) : Host.Outcome State Fault Refusal :=
  laneOp (.imul h ty d a b) (fun e => r1 d (e.src a * e.src b)) s

def execImulh (h : Hdr) (ty : STy) (d : Reg) (a b : Src) (s : State) : Host.Outcome State Fault Refusal :=
  laneOp (.imulh h ty d a b) (fun e => r1 d ((ext64 ty (e.src a) * ext64 ty (e.src b)) >>> 32 |>.setWidth 32)) s

def execImad (h : Hdr) (ty : STy) (d : Reg) (a b c : Src) (s : State) : Host.Outcome State Fault Refusal :=
  laneOp (.imad h ty d a b c) (fun e => r1 d (e.src a * e.src b + e.src c)) s

def execImadw (h : Hdr) (ty : STy) (d : Reg) (a b : Src) (c : Option Reg) (s : State) :
    Host.Outcome State Fault Refusal :=
  laneOp (.imadw h ty d a b c) (fun e => r2 d (ext64 ty (e.src a) * ext64 ty (e.src b) + e.pairZ c)) s

def execIadd64 (h : Hdr) (sub : Bool) (d a b : Reg) (s : State) : Host.Outcome State Fault Refusal :=
  laneOp (.iadd64 h sub d a b) (fun e => r2 d (if sub then e.pair a - e.pair b else e.pair a + e.pair b)) s

def execImin (h : Hdr) (ty : ITy) (d : Reg) (a b : Src) (s : State) : Host.Outcome State Fault Refusal :=
  laneOp (.imin h ty d a b) (fun e => e.binW ty d a b (pickMin (itySigned ty)) (pickMin (itySigned ty))) s

def execImax (h : Hdr) (ty : ITy) (d : Reg) (a b : Src) (s : State) : Host.Outcome State Fault Refusal :=
  laneOp (.imax h ty d a b) (fun e => e.binW ty d a b (pickMax (itySigned ty)) (pickMax (itySigned ty))) s

def execIabs (h : Hdr) (d : Reg) (a : Src) (s : State) : Host.Outcome State Fault Refusal :=
  laneOp (.iabs h d a) (fun e => r1 d (absWord (e.src a))) s

def execAnd (h : Hdr) (ty : ITy) (d : Reg) (a b : Src) (s : State) : Host.Outcome State Fault Refusal :=
  laneOp (.and h ty d a b) (fun e => e.binW ty d a b (· &&& ·) (· &&& ·)) s

def execOr (h : Hdr) (ty : ITy) (d : Reg) (a b : Src) (s : State) : Host.Outcome State Fault Refusal :=
  laneOp (.or h ty d a b) (fun e => e.binW ty d a b (· ||| ·) (· ||| ·)) s

def execXor (h : Hdr) (ty : ITy) (d : Reg) (a b : Src) (s : State) : Host.Outcome State Fault Refusal :=
  laneOp (.xor h ty d a b) (fun e => e.binW ty d a b (· ^^^ ·) (· ^^^ ·)) s

/-- shl: a count of the width or more gives 0 (R53). -/
def execShl (h : Hdr) (ty : ITy) (d : Reg) (a b : Src) (s : State) : Host.Outcome State Fault Refusal :=
  laneOp (.shl h ty d a b) (fun e => e.binW ty d a b (fun x y => x <<< shCount y) (fun x y => x <<< shCount y)) s

def execShr (h : Hdr) (ty : ITy) (d : Reg) (a b : Src) (s : State) : Host.Outcome State Fault Refusal :=
  laneOp (.shr h ty d a b) (fun e => e.binW ty d a b (fun x y => x >>> shCount y) (fun x y => x >>> shCount y)) s

def execSar (h : Hdr) (ty : ITy) (d : Reg) (a b : Src) (s : State) : Host.Outcome State Fault Refusal :=
  laneOp (.sar h ty d a b)
    (fun e => e.binW ty d a b (fun x y => x.sshiftRight (shCount y)) (fun x y => x.sshiftRight (shCount y))) s

def execRotl (h : Hdr) (ty : STy) (d : Reg) (a b : Src) (s : State) : Host.Outcome State Fault Refusal :=
  laneOp (.rotl h ty d a b) (fun e => r1 d ((e.src a).rotateLeft ((e.src b).toNat % 32))) s

def execBfe (h : Hdr) (ty : STy) (d : Reg) (a b c : Src) (s : State) : Host.Outcome State Fault Refusal :=
  laneOp (.bfe h ty d a b c) (fun e => r1 d (bitExtract ty (e.src a) (e.src b) (e.src c))) s

def execBfi (h : Hdr) (d : Reg) (a b c : Src) (s : State) : Host.Outcome State Fault Refusal :=
  laneOp (.bfi h d a b c) (fun e => r1 d (bitInsert (e.src a) (e.src b) (e.src c))) s

def execPopc (h : Hdr) (d : Reg) (a : Src) (s : State) : Host.Outcome State Fault Refusal :=
  laneOp (.popc h d a) (fun e => r1 d (BitVec.ofNat 32 (popCount (e.src a)))) s

def execClz (h : Hdr) (d : Reg) (a : Src) (s : State) : Host.Outcome State Fault Refusal :=
  laneOp (.clz h d a) (fun e => r1 d (BitVec.ofNat 32 (leadZeros (e.src a)))) s

def execBrev (h : Hdr) (d : Reg) (a : Src) (s : State) : Host.Outcome State Fault Refusal :=
  laneOp (.brev h d a) (fun e => r1 d (bitRev (e.src a))) s

/-- sel (R59). -/
def execSel (h : Hdr) (ty : ITy) (pn : Nat) (inv : Bool) (d : Reg) (a b : Src) (s : State) :
    Host.Outcome State Fault Refusal :=
  laneOp (.sel h ty pn inv d a b)
    (fun e => e.binW ty d a b (fun x y => if (e.pred pn).1 != inv then x else y)
      (fun x y => if (e.pred pn).1 != inv then x else y)) s

def execIset (h : Hdr) (ty : ITy) (cmp : ICmp) (d : Nat) (a b : Src) (s : State) :
    Host.Outcome State Fault Refusal :=
  laneOp (.iset h ty cmp d a b)
    (fun e => rp d (if ty.wide then intCmp (itySigned ty) cmp (e.src64 a) (e.src64 b)
      else intCmp (itySigned ty) cmp (e.src a) (e.src b))) s

def execPset (h : Hdr) (fn : PFn) (d a b : Nat) (s : State) : Host.Outcome State Fault Refusal :=
  laneOp (.pset h fn d a b) (fun e => rp d (predFn fn (e.pred a).1 (e.pred b).1)) s

def execMov (h : Hdr) (ty : ITy) (d : Reg) (a : Src) (s : State) : Host.Outcome State Fault Refusal :=
  laneOp (.mov h ty d a) (fun e => if ty.wide then r2 d (e.src64 a) else r1 d (e.src a)) s

/-- lea (R65). -/
def execLea (h : Hdr) (d : Reg) (a b c : Src) (s : State) : Host.Outcome State Fault Refusal :=
  laneOp (.lea h d a b c) (fun e => r1 d (e.src a + e.src b <<< ((e.src c).toNat % 32))) s

/-- lea64 (R65). -/
def execLea64 (h : Hdr) (ty : STy) (d a : Reg) (b c : Src) (s : State) : Host.Outcome State Fault Refusal :=
  laneOp (.lea64 h ty d a b c) (fun e => r2 d (e.pair a + ext64 ty (e.src b) <<< ((e.src c).toNat % 64))) s

def execIdiv (h : Hdr) (ty : STy) (d : Reg) (a b : Src) (s : State) : Host.Outcome State Fault Refusal :=
  laneOp (.idiv h ty d a b) (fun e => r1 d (divRem ty (e.src a) (e.src b)).1) s

def execIrem (h : Hdr) (ty : STy) (d : Reg) (a b : Src) (s : State) : Host.Outcome State Fault Refusal :=
  laneOp (.irem h ty d a b) (fun e => r1 d (divRem ty (e.src a) (e.src b)).2) s

/-- p0-p6 at bits 0-6, and 1 at bit 7 (R62). -/
def Env.predWord (e : Env) : Word :=
  BitVec.ofNat 32 ((List.range 7).foldl (fun n i => n + (if (e.pred i).1 then 2 ^ i else 0)) 128)

def execP2v (h : Hdr) (d : Reg) (s : State) : Host.Outcome State Fault Refusal :=
  laneOp (.p2v h d) (fun e => r1 d e.predWord) s

def execV2p (h : Hdr) (a b : Src) (s : State) : Host.Outcome State Fault Refusal :=
  laneOp (.v2p h a b)
    (fun e => { preds := ((List.range 7).filter fun i => (e.src b).getLsbD i).map fun i =>
      (i, (e.src a).getLsbD i) }) s

def execIaddi (h : Hdr) (d : Reg) (a : Src) (imm : Nat) (s : State) : Host.Outcome State Fault Refusal :=
  laneOp (.iaddi h d a imm) (fun e => r1 d (e.src a + imm32 imm)) s

def execAndi (h : Hdr) (d : Reg) (a : Src) (imm : Nat) (s : State) : Host.Outcome State Fault Refusal :=
  laneOp (.andi h d a imm) (fun e => r1 d (e.src a &&& imm32 imm)) s

def execOri (h : Hdr) (d : Reg) (a : Src) (imm : Nat) (s : State) : Host.Outcome State Fault Refusal :=
  laneOp (.ori h d a imm) (fun e => r1 d (e.src a ||| imm32 imm)) s

def execXori (h : Hdr) (d : Reg) (a : Src) (imm : Nat) (s : State) : Host.Outcome State Fault Refusal :=
  laneOp (.xori h d a imm) (fun e => r1 d (e.src a ^^^ imm32 imm)) s

def execShli (h : Hdr) (d : Reg) (a : Src) (imm : Nat) (s : State) : Host.Outcome State Fault Refusal :=
  laneOp (.shli h d a imm) (fun e => r1 d (e.src a <<< imm)) s

def execShri (h : Hdr) (d : Reg) (a : Src) (imm : Nat) (s : State) : Host.Outcome State Fault Refusal :=
  laneOp (.shri h d a imm) (fun e => r1 d (e.src a >>> imm)) s

def execSari (h : Hdr) (d : Reg) (a : Src) (imm : Nat) (s : State) : Host.Outcome State Fault Refusal :=
  laneOp (.sari h d a imm) (fun e => r1 d ((e.src a).sshiftRight imm)) s

def execMovi (h : Hdr) (d : Reg) (imm : Nat) (s : State) : Host.Outcome State Fault Refusal :=
  laneOp (.movi h d imm) (fun _ => r1 d (imm32 imm)) s

/-- movh (R54). -/
def execMovh (h : Hdr) (d : Reg) (a : Src) (imm : Nat) (s : State) : Host.Outcome State Fault Refusal :=
  laneOp (.movh h d a imm) (fun e => r1 d (BitVec.ofNat 32 (imm % 65536 * 65536) ||| (e.src a &&& 0xFFFF))) s

end Sys2Proof.Machine
end

