-- ==== Sys2Proof/Machine/Soft.lean ====
section
/-! DEFINITION. Floating-point arithmetic in exact integers (R67-R72): a value is a NaN, an infinity or sign, magnitude
and exponent; results are computed exactly and rounded once. -/

namespace Sys2Proof.Machine

/-- A format (R68): exponent bits, fraction bits, and whether it is E4M3. -/
structure Fmt where
  eb : Nat
  mb : Nat
  e4 : Bool
  deriving DecidableEq, Repr

def fp32 : Fmt := ⟨8, 23, false⟩
def fp16 : Fmt := ⟨5, 10, false⟩
def bfl16 : Fmt := ⟨8, 7, false⟩
def fp8 : Fmt := ⟨4, 3, true⟩

def Fmt.bias (f : Fmt) : Nat := 2 ^ (f.eb - 1) - 1

/-- Exponent of the least subnormal. -/
def Fmt.qmin (f : Fmt) : Int := 1 - (f.bias : Int) - (f.mb : Int)

/-- Bits, without the sign, of the largest finite value (R68). -/
def Fmt.maxFin (f : Fmt) : Nat := if f.e4 then 0x7E else (2 ^ f.eb - 1) * 2 ^ f.mb - 1

def Fmt.infBits (f : Fmt) : Nat := (2 ^ f.eb - 1) * 2 ^ f.mb

/-- The canonical NaN (R68). -/
def Fmt.canon (f : Fmt) : Nat := if f.e4 then 0x7F else (2 ^ f.eb - 1) * 2 ^ f.mb + 2 ^ (f.mb - 1)

def Fmt.signBit (f : Fmt) : Nat := 2 ^ (f.eb + f.mb)

/-- A number of any format: NaN, infinity, or (-1)^neg times m times 2^e. -/
inductive Val where
  | nan (sig : Bool)
  | inf (neg : Bool)
  | fin (neg : Bool) (m : Nat) (e : Int)
  deriving DecidableEq, Repr

/-- The value of an encoding (R67, R68). Higher bits of the register are ignored. -/
def Fmt.val (f : Fmt) (x : Nat) : Val :=
  let neg := x / f.signBit % 2 == 1
  let ex := x / 2 ^ f.mb % 2 ^ f.eb
  let fr := x % 2 ^ f.mb
  if f.e4 && x % 128 == 0x7F then .nan false
  else if !f.e4 && ex == 2 ^ f.eb - 1 then
    if fr == 0 then .inf neg else .nan (fr < 2 ^ (f.mb - 1))
  else if ex == 0 then .fin neg fr f.qmin
  else .fin neg (2 ^ f.mb + fr) (f.qmin + (ex : Int) - 1)

def Val.isNan : Val → Bool
  | .nan _ => true
  | _ => false
def Val.isSig : Val → Bool
  | .nan b => b
  | _ => false
def Val.isInf : Val → Bool
  | .inf _ => true
  | _ => false
def Val.isZero : Val → Bool
  | .fin _ m _ => m == 0
  | _ => false
def Val.neg : Val → Bool
  | .nan _ => false
  | .inf n => n
  | .fin n _ _ => n
def Val.flip : Val → Val
  | .nan s => .nan s
  | .inf n => .inf (!n)
  | .fin n m e => .fin (!n) m e
def Val.abs : Val → Val
  | .nan s => .nan s
  | .inf _ => .inf false
  | .fin _ m e => .fin false m e

/-- m times 2^e rounded to a multiple of 2^k, with whether it changed (R70). -/
def roundAt (rm : Rm) (neg : Bool) (m : Nat) (e k : Int) : Nat × Bool :=
  if k ≤ e then (m * 2 ^ (e - k).toNat, false)
  else
    let d := 2 ^ (k - e).toNat
    let q := m / d
    let r := m % d
    let up := match rm with
      | .rn => d < 2 * r || (2 * r == d && q % 2 == 1)
      | .rz => false
      | .ru => !neg && r != 0
      | .rd => neg && r != 0
    (if up then q + 1 else q, r != 0)

/-- Result of an overflow (R70). -/
def Fmt.overflow (f : Fmt) (rm : Rm) (neg : Bool) : Nat :=
  let big := match rm with
    | .rn => true
    | .rz => false
    | .ru => !neg
    | .rd => neg
  (if neg then f.signBit else 0) + (if big && !f.e4 then f.infBits else f.maxFin)

/-- The exact value (-1)^neg * m * 2^e rounded once into the format, with of, uf, nx (R70, R72). -/
def Fmt.round (f : Fmt) (rm : Rm) (neg : Bool) (m : Nat) (e : Int) : Nat × Fl :=
  let sg := if neg then f.signBit else 0
  if m == 0 then (sg, 0)
  else
    let top := e + (Nat.log2 m : Int)
    let ku := top - (f.mb : Int)
    let ru := (roundAt rm neg m e ku).1
    let tiny := (if ru < 2 ^ (f.mb + 1) then top else top + 1) < 1 - (f.bias : Int)
    let k := if ku < f.qmin then f.qmin else ku
    let r := roundAt rm neg m e k
    let bits := (k - f.qmin).toNat * 2 ^ f.mb + r.1
    if f.maxFin < bits then (f.overflow rm neg, fOf ||| fNx)
    else (sg + bits, (if tiny && r.2 then fUf else 0) ||| (if r.2 then fNx else 0))

/-- One exact term of a sum. -/
structure Term where
  neg : Bool
  m : Nat
  e : Int
  deriving DecidableEq, Repr

def Term.toInt (t : Term) (k : Int) : Int :=
  let a : Int := (t.m * 2 ^ (t.e - k).toNat : Nat)
  if t.neg then -a else a

/-- An exact sum rounded once; the sign of an exact zero is the operands' common sign, else + or, under rd, - (R70). -/
def Fmt.sum (f : Fmt) (rm : Rm) (ts : List Term) : Nat × Fl :=
  let k := ts.foldl (fun a t => if t.e < a then t.e else a) 0
  let s := ts.foldl (fun a t => a + t.toInt k) 0
  if s == 0 then
    let neg := if ts.all (·.neg) then true else if ts.all (!·.neg) then false else rm == .rd
    (if neg then f.signBit else 0, 0)
  else f.round rm (s < 0) s.natAbs k

/-- A product as one operand of a sum: a NaN, an infinity or an exact term; invalid is 0 times infinity (R72). -/
structure Prod where
  nan : Bool
  invalid : Bool
  inf : Option Bool
  term : Term

def Val.times (a b : Val) : Prod :=
  let n := xor a.neg b.neg
  let bad := (a.isInf && b.isZero) || (a.isZero && b.isInf)
  match a, b with
  | .fin _ m e, .fin _ m' e' => ⟨false, false, none, ⟨n, m * m', e + e'⟩⟩
  | _, _ => ⟨a.isNan || b.isNan, bad, if a.isNan || b.isNan || bad then none else some n, ⟨n, 0, 0⟩⟩

def Val.asProd : Val → Prod
  | .nan _ => ⟨true, false, none, ⟨false, 0, 0⟩⟩
  | .inf n => ⟨false, false, some n, ⟨n, 0, 0⟩⟩
  | .fin n m e => ⟨false, false, none, ⟨n, m, e⟩⟩

/-- Rounded sum of products, NaN and infinity cases included (R70, R72, R76, R81). sig: some operand is a signalling
NaN. -/
def Fmt.dot (f : Fmt) (rm : Rm) (sig : Bool) (ps : List Prod) : Nat × Fl :=
  let infs := ps.filterMap (·.inf)
  let clash := infs.any id && infs.any (!·)
  let nv := sig || ps.any (·.invalid) || clash
  if ps.any (·.nan) || nv then (f.canon, if nv then fNv else 0)
  else match infs with
    | n :: _ => ((if n then f.signBit else 0) + f.infBits, 0)
    | [] => f.sum rm (ps.map (·.term))

def Fmt.add (f : Fmt) (rm : Rm) (a b : Nat) : Nat × Fl :=
  f.dot rm ((f.val a).isSig || (f.val b).isSig) [(f.val a).asProd, (f.val b).asProd]

def Fmt.sub (f : Fmt) (rm : Rm) (a b : Nat) : Nat × Fl :=
  f.dot rm ((f.val a).isSig || (f.val b).isSig) [(f.val a).asProd, (f.val b).flip.asProd]

def Fmt.mul (f : Fmt) (rm : Rm) (a b : Nat) : Nat × Fl :=
  f.dot rm ((f.val a).isSig || (f.val b).isSig) [(f.val a).times (f.val b)]

def Fmt.fma (f : Fmt) (rm : Rm) (a b c : Nat) : Nat × Fl :=
  f.dot rm ((f.val a).isSig || (f.val b).isSig || (f.val c).isSig) [(f.val a).times (f.val b), (f.val c).asProd]

/-- Order of finite values and infinities, -0 below +0 (R73). -/
def Val.ltTotal (a b : Val) : Bool :=
  match a, b with
  | .nan _, _ | _, .nan _ => false
  | .inf n, .inf n' => n && !n'
  | .inf n, _ => n
  | _, .inf n' => !n'
  | .fin n m e, .fin n' m' e' =>
    if n != n' then n
    else
      let k := if e < e' then e else e'
      let x := m * 2 ^ (e - k).toNat
      let y := m' * 2 ^ (e' - k).toNat
      if n then y < x else x < y

/-- Numeric comparison: less, equal (R74); -0 equals +0. Neither holds of a NaN. -/
def Val.eqNum (a b : Val) : Bool :=
  !a.isNan && !b.isNan && ((a.isZero && b.isZero) || (!a.ltTotal b && !b.ltTotal a))
def Val.ltNum (a b : Val) : Bool := !(a.isZero && b.isZero) && a.ltTotal b

/-- minimumNumber and maximumNumber (R73), on encodings. -/
def Fmt.minmax (f : Fmt) (mx : Bool) (a b : Nat) : Nat × Fl :=
  let x := f.val a
  let y := f.val b
  let fl := if x.isSig || y.isSig then fNv else 0
  let r := if x.isNan && y.isNan then f.canon
    else if x.isNan then b else if y.isNan then a
    else if mx then (if x.ltTotal y then b else a) else (if y.ltTotal x then b else a)
  (r, fl)

/-- A value rounded into a format other than E4M3 (R83); an infinity stays, a NaN is canonical. -/
def Fmt.ofVal (f : Fmt) (rm : Rm) (v : Val) : Nat × Fl :=
  match v with
  | .nan s => (f.canon, if s then fNv else 0)
  | .inf n => ((if n then f.signBit else 0) + f.infBits, 0)
  | .fin n m e => f.round rm n m e

/-- Conversion to E4M3 with and without saturation (R83). -/
def toE4 (nsat : Bool) (v : Val) : Nat × Fl :=
  let beyond (n : Bool) : Nat × Fl := (if nsat then 0x7F else (if n then 0xFE else 0x7E), fOf ||| fNx)
  match v with
  | .nan s => (0x7F, if s then fNv else 0)
  | .inf n => beyond n
  | .fin n m e =>
    let r := fp8.round .rn n m e
    if r.2 &&& fOf == 0 then r else beyond n

/-- Integer square root, one binary digit at a time from bit k down. -/
def isqrtGo (n : Nat) : Nat → Nat → Nat
  | 0, r => r
  | k + 1, r =>
    let t := r + 2 ^ k
    isqrtGo n k (if t * t ≤ n then t else r)

def isqrt (n : Nat) : Nat := isqrtGo n (Nat.log2 n / 2 + 1) 0

/-- Correctly rounded square root (R79). -/
def fsqrtVal (rm : Rm) (v : Val) : Nat × Fl :=
  match v with
  | .nan s => (fp32.canon, if s then fNv else 0)
  | .inf n => if n then (fp32.canon, fNv) else (fp32.infBits, 0)
  | .fin n m e =>
    if m == 0 then (if n then fp32.signBit else 0, 0)
    else if n then (fp32.canon, fNv)
    else
      let m' := if e % 2 == 0 then m else 2 * m
      let e' := (if e % 2 == 0 then e else e - 1) / 2
      let x := m' * 2 ^ 64
      let r := isqrt x
      -- a nonzero remainder is kept as a sticky last bit
      fp32.round rm false (2 * r + (if r * r == x then 0 else 1)) (e' - 33)

/-- A value rounded to an integer (R76 frnd, R83). -/
def roundInt (rm : Rm) (n : Bool) (m : Nat) (e : Int) : Nat × Bool := roundAt rm n m e 0

/-- frnd (R76): integral value, sign kept, nx never set. -/
def frndVal (rm : Rm) (x : Nat) : Nat × Fl :=
  match fp32.val x with
  | .nan s => (fp32.canon, if s then fNv else 0)
  | .inf n => ((if n then fp32.signBit else 0) + fp32.infBits, 0)
  | .fin n m e => ((fp32.round .rn n (roundInt rm n m e).1 0).1, 0)

/-- fscale (R76). -/
def fscaleVal (rm : Rm) (x : Nat) (k : Int) : Nat × Fl :=
  match fp32.val x with
  | .nan s => (fp32.canon, if s then fNv else 0)
  | .inf _ => (x, 0)
  | .fin n m e => if m == 0 then (x, 0) else
    -- beyond this range the result is past overflow or below the smallest rounding step
    let k' : Int := if k < -600 then -600 else if 600 < k then 600 else k
    fp32.round rm n m (e + k')

/-- Float to integer (R83): rounded, then saturated to [lo, hi]. -/
def toIntVal (rm : Rm) (lo hi : Int) (v : Val) : Int × Fl :=
  match v with
  | .nan _ => (0, fNv)
  | .inf n => (if n then lo else hi, fNv)
  | .fin n m e =>
    let r := roundInt rm n m e
    let i : Int := if n then -(r.1 : Int) else r.1
    if i < lo then (lo, fNv) else if hi < i then (hi, fNv) else (i, if r.2 then fNx else 0)

/-- Integer to float (R83). -/
def ofIntVal (f : Fmt) (rm : Rm) (nsat : Bool) (i : Int) : Nat × Fl :=
  if f.e4 then toE4 nsat (.fin (i < 0) i.natAbs 0) else f.round rm (i < 0) i.natAbs 0

/-! Special functions (R77, R78). For an operand whose result is not fixed by the spec, the model takes the largest
FP32 magnitude not above the exact one and adds a free offset inside the bound (log 4). -/

def signOf (n : Bool) : Nat := if n then 0x80000000 else 0

/-- The magnitude bits not above m * 2^e. -/
def floorBits (m : Nat) (e : Int) : Nat := (fp32.round .rz false m e).1

/-- Magnitudes below and above the greatest one not above a value that lie within n units in the last place of it: below
a power of two they are half as far apart as the unit at the value, above the next one twice. up: the value lies in the
upper half of its step. -/
def nearSteps (n bits : Nat) (up : Bool) : Nat × Nat :=
  let d := bits % 2 ^ 23
  (if 2 ^ 24 ≤ bits && d < n then d + (2 * (n - d) - if up then 2 else 1) else n - 1,
   if 2 ^ 24 ≤ bits + 1 && (bits + 1) % 2 ^ 23 == 0 then (n + 1) / 2 else n)

/-- A free number within n units in the last place of the value (-1)^neg * m * 2^e, which FP32 does not hold. Next to
zero the numbers within the bound go on through both zeros to the other sign. -/
def nearVal (n fn : Nat) (x : BitVec 32) (neg : Bool) (m : Nat) (e : Int) : Nat :=
  let b := floorBits m e
  let q := nearSteps n b ((fp32.round .rn false m e).1 != b)
  let lo := if b ≤ q.1 then q.1 + 1 else q.1
  let p : Int := ((b + Config.special fn x % (lo + q.2 + 1) : Nat) : Int) - (lo : Int)
  signOf (neg != decide (p < 0)) + min (if p < 0 then -p - 1 else p).toNat fp32.infBits

/-- ln 2 in units of 2^-128. -/
def ln2Fix : Nat := 0xB17217F7D1CF79ABC9E3B39803F2F6AF
/-- pi in units of 2^-192. -/
def piFix : Nat := 0x3243F6A8885A308D313198A2E03707344A4093822299F31D0

/-- Taylor sum of exp, argument and result in units of 2^-128. -/
def expGo (y : Nat) : Nat → Nat → Nat → Nat → Nat
  | 0, _, _, acc => acc
  | k + 1, i, term, acc => expGo y k (i + 1) (term * y / 2 ^ 128 / i) (acc + term)

/-- 2^x for a fraction x in units of 2^-128. -/
def exp2Frac (x : Nat) : Nat := expGo (x * ln2Fix / 2 ^ 128) 40 1 (2 ^ 128) 0

/-- Binary digits of log2 of z, 1 ≤ z < 2 in units of 2^-200. -/
def log2Go : Nat → Nat → Nat → Nat
  | 0, _, acc => acc
  | k + 1, z, acc =>
    let q := z * z / 2 ^ 200
    if 2 ^ 201 ≤ q then log2Go k (q / 2) (2 * acc + 1) else log2Go k q (2 * acc)

/-- Alternating Taylor sum: term i is multiplied by r2 / ((i + 1)(i + 2)); units of 2^-192. -/
def sinGo (r2 : Nat) : Nat → Nat → Nat → Int → Int → Int
  | 0, _, _, _, acc => acc
  | k + 1, i, term, s, acc =>
    sinGo r2 k (i + 2) (term * r2 / 2 ^ 192 / ((i + 1) * (i + 2))) (-s) (acc + s * term)

/-- sine of m * 2^e by quarter turns q, magnitude and sign, in units of 2^-192. -/
def sineFix (cos : Bool) (m : Nat) (e : Int) : Bool × Nat :=
  let a := if 0 ≤ e + 192 then m * 2 ^ (e + 192).toNat else m / 2 ^ (-(e + 192)).toNat
  let half := piFix / 2
  let n := (2 * a + half) / (2 * half)
  let r : Int := (a : Int) - (n * half : Nat)
  let r2 := r.natAbs * r.natAbs / 2 ^ 192
  let q := (n + (if cos then 1 else 0)) % 4
  let sn := sinGo r2 30 1 r.natAbs 1 0
  let cs := sinGo r2 30 0 (2 ^ 192) 1 0
  let v : Int := if q % 2 == 0 then (if r < 0 then -sn else sn) else cs
  let v := if 2 ≤ q then -v else v
  (v < 0, v.natAbs)

/-- Special function fn: 0 frcp, 1 frsq, 2 fex2, 3 flg2, 4 fsin, 5 fcos (R77, R78). -/
def specialVal (fn : Nat) (x : BitVec 32) : Nat × Fl :=
  match fp32.val x.toNat with
  | .nan s => (fp32.canon, if s then fNv else 0)
  | .inf n => match fn with
    | 0 => (signOf n, 0)
    | 1 => if n then (fp32.canon, fNv) else (0, 0)
    | 2 => if n then (0, 0) else (fp32.infBits, 0)
    | 3 => if n then (fp32.canon, fNv) else (fp32.infBits, 0)
    | _ => (fp32.canon, fNv)
  | .fin n m e =>
    if m == 0 then match fn with
      | 0 | 1 => (signOf n + fp32.infBits, fDz)
      | 3 => (signOf true + fp32.infBits, fDz)
      | 4 => (signOf n, 0)
      | _ => (0x3F800000, 0)
    else
      let pow2 := m == 2 ^ Nat.log2 m
      let top := e + (Nat.log2 m : Int)
      match fn with
      | 0 =>
        -- 1/A is beyond FP32: some finite value for a negative A, some value for another
        if top < -127 && (pow2 || top < -128) then
          (signOf n + Config.special fn x % (if n then fp32.infBits else fp32.infBits + 1), 0)
        else if pow2 then ((fp32.round .rn n 1 (-top)).1, 0)
        else
          let r := nearVal 1 fn x n (2 * (2 ^ 96 / m) + 1) (-e - 97)
          (if n then min r (0x80000000 + fp32.infBits - 1) else r, 0)
      | 1 =>
        if n then (fp32.canon, fNv)
        else if pow2 && top % 2 == 0 then ((fp32.round .rn false 1 (-(top / 2))).1, 0)
        else
          let m' := if e % 2 == 0 then m else 2 * m
          let e' := (if e % 2 == 0 then e else e - 1) / 2
          (nearVal 2 fn x false (2 * isqrt (2 ^ 160 / m') + 1) (-e' - 81), 0)
      | 2 =>
        -- 2^A is beyond FP32: some finite value or +inf
        if 7 ≤ top && !n then (Config.special fn x % (fp32.infBits + 1), 0)
        else if 8 ≤ top then (nearVal 2 fn x false 1 (-151), 0)
        else
          let i := roundAt .rd n m e 0
          let ip : Int := if n then -(i.1 : Int) else i.1
          if ip < -149 then (nearVal 2 fn x false 1 (-151), 0)
          else if !i.2 then ((fp32.round .rn false 1 ip).1, 0)
          else
            -- fraction in units of 2^-128, truncated
            let a := if 0 ≤ e + 128 then m * 2 ^ (e + 128).toNat else m / 2 ^ (-(e + 128)).toNat
            let fr := if n then i.1 * 2 ^ 128 - a else a - i.1 * 2 ^ 128
            let fr := if fr == 2 ^ 128 then fr - 1 else fr
            (nearVal 2 fn x false (exp2Frac fr) (ip - 128), 0)
      | 3 =>
        if n then (fp32.canon, fNv)
        else if pow2 then ((ofIntVal fp32 .rn false top).1, 0)
        else
          let z := m * 2 ^ (200 - Nat.log2 m)
          let d := log2Go 100 z 0
          let t : Int := top * 2 ^ 100 + d
          (nearVal 2 fn x (t < 0) (2 * (if t < 0 then t.natAbs - 1 else t.natAbs) + 1) (-101), 0)
      | _ =>
        -- 2^10 pi lies between 0x45490FDA and 0x45490FDB
        if 0x45490FDA < x.toNat % 2 ^ 31 then
          let w := Config.farSine fn x
          (if w.toNat % 2 ^ 31 ≤ 0x3F800000 then w.toNat else 0x3F800000, 0)
        else if top < -30 then
          if fn == 4 then (nearVal 2 fn x n (m * 2 ^ 60 - 1) (e - 60), 0)
          else (nearVal 2 fn x false (2 ^ 60 - 1) (-60), 0)
        else
          let r := sineFix (fn != 4) m e
          (nearVal 2 fn x (if fn == 4 then xor n r.1 else r.1) (min r.2 (2 ^ 192 - 1)) (-192), 0)

end Sys2Proof.Machine
end

