-- ==== Sys2Proof/Machine/FloatOps.lean ====
section
/-! DEFINITION. Floating-point instructions 0x040-0x05E (R66-R86) and the pair word (R39-R41). -/

namespace Sys2Proof.Machine

/-- A 32-bit result with its flags. -/
def rf (d : Reg) (x : Nat × Fl) : LaneRes := { regs := [(d, BitVec.ofNat 32 x.1)], fl := x.2 }

def Env.nat (e : Env) (a : Src) : Nat := (e.src a).toNat

/-- A format named by a scalar type (R33). -/
def fmtOf : FTy → Fmt
  | .f32 => fp32
  | .f16 => fp16
  | .bf16 => bfl16
  | .e4m3 => fp8

def fmtOfP : PTy → Fmt
  | .f16x2 => fp16
  | .bf16x2 => bfl16

/-- Packed halves (R67): the operation on each, results and flags combined (R72, R80). -/
def packed (f : Nat → Nat → Nat → Nat × Fl) (a b c : Nat) : Nat × Fl :=
  let lo := f (a % 65536) (b % 65536) (c % 65536)
  let hi := f (a / 65536) (b / 65536) (c / 65536)
  (lo.1 + hi.1 * 65536, lo.2 ||| hi.2)

/-- fset (R74). -/
def floatCmp (c : FCmp) (x y : Nat) : Bool × Fl :=
  let a := fp32.val x
  let b := fp32.val y
  let un := a.isNan || b.isNan
  let sig := a.isSig || b.isSig
  let ordered := c == .lt || c == .le || c == .gt || c == .ge
  let r := match c with
    | .eq => a.eqNum b
    | .ne => un || !a.eqNum b
    | .lt => a.ltNum b
    | .le => a.ltNum b || a.eqNum b
    | .gt => b.ltNum a
    | .ge => b.ltNum a || a.eqNum b
    | .uo => un
    | .ord => !un
  (r, if sig || (un && ordered) then fNv else 0)

/-- fclass (R75). -/
def classOf (f : Fmt) (x : Nat) : Nat :=
  match f.val x with
  | .nan s => if s then 2 ^ 8 else 2 ^ 9
  | .inf n => if n then 1 else 2 ^ 7
  | .fin n m _ =>
    if m == 0 then (if n then 2 ^ 3 else 2 ^ 4)
    else if m < 2 ^ f.mb then (if n then 2 ^ 2 else 2 ^ 5)
    else if n then 2 else 2 ^ 6

/-- Bounds of an integer type. -/
def ityLo : ITy → Int
  | .i32 => -(2 ^ 31)
  | .i64 => -(2 ^ 63)
  | .n32 | .n64 => 0
def ityHi : ITy → Int
  | .i32 => 2 ^ 31 - 1
  | .i64 => 2 ^ 63 - 1
  | .n32 => 2 ^ 32 - 1
  | .n64 => 2 ^ 64 - 1

/-- An operand of an integer type as an integer. -/
def ityInt (ty : ITy) (x : DWord) : Int :=
  match ty with
  | .i32 => (x.setWidth 32).toInt
  | .n32 => ((x.setWidth 32).toNat : Nat)
  | .i64 => x.toInt
  | .n64 => (x.toNat : Nat)

/-- cvt (R82, R83): 64-bit operand in, 64-bit result out. -/
def convert (cv : Cvt) (ns : Bool) (rm : Rm) (x : DWord) : DWord × Fl :=
  match cv with
  | .ff d s =>
    let r := if d == .e4m3 then toE4 ns ((fmtOf s).val x.toNat) else (fmtOf d).ofVal rm ((fmtOf s).val x.toNat)
    (BitVec.ofNat 64 r.1, r.2)
  | .ofInt s d =>
    let r := ofIntVal (fmtOf d) rm ns (ityInt s x)
    (BitVec.ofNat 64 r.1, r.2)
  | .toInt d s =>
    let r := toIntVal rm (ityLo d) (ityHi d) ((fmtOf s).val x.toNat)
    (BitVec.ofInt 64 r.1, r.2)

/-- fdot2 (R81): two exact products and an addend, rounded once. -/
def dot2 (f : Fmt) (rm : Rm) (a b c : Nat) : Nat × Fl :=
  let al := f.val (a % 65536)
  let ah := f.val (a / 65536)
  let bl := f.val (b % 65536)
  let bh := f.val (b / 65536)
  let cv := fp32.val c
  fp32.dot rm (al.isSig || ah.isSig || bl.isSig || bh.isSig || cv.isSig) [al.times bl, ah.times bh, cv.asProd]

/-- e4pk (R85). -/
def packE4 (hi ns : Bool) (a b c : Nat) : Nat × Fl :=
  let x := toE4 ns (fp32.val a)
  let y := toE4 ns (fp32.val b)
  let p := y.1 * 256 + x.1
  (if hi then p * 65536 + c % 65536 else c / 65536 * 65536 + p, x.2 ||| y.2)

/-- famax (R73): maximumNumber of the magnitudes. -/
def absMax (a b : Nat) : Nat × Fl := fp32.minmax true (a % 2 ^ 31) (b % 2 ^ 31)

def execFadd (h : Hdr) (rm : Rm) (d : Reg) (a b : Src) (s : State) : Host.Outcome State Fault Refusal :=
  laneOp (.fadd h rm d a b) (fun e => rf d (fp32.add rm (e.nat a) (e.nat b))) s

def execFsub (h : Hdr) (rm : Rm) (d : Reg) (a b : Src) (s : State) : Host.Outcome State Fault Refusal :=
  laneOp (.fsub h rm d a b) (fun e => rf d (fp32.sub rm (e.nat a) (e.nat b))) s

def execFmul (h : Hdr) (rm : Rm) (d : Reg) (a b : Src) (s : State) : Host.Outcome State Fault Refusal :=
  laneOp (.fmul h rm d a b) (fun e => rf d (fp32.mul rm (e.nat a) (e.nat b))) s

def execFfma (h : Hdr) (rm : Rm) (d : Reg) (a b c : Src) (s : State) : Host.Outcome State Fault Refusal :=
  laneOp (.ffma h rm d a b c) (fun e => rf d (fp32.fma rm (e.nat a) (e.nat b) (e.nat c))) s

def execFmin (h : Hdr) (d : Reg) (a b : Src) (s : State) : Host.Outcome State Fault Refusal :=
  laneOp (.fmin h d a b) (fun e => rf d (fp32.minmax false (e.nat a) (e.nat b))) s

def execFmax (h : Hdr) (d : Reg) (a b : Src) (s : State) : Host.Outcome State Fault Refusal :=
  laneOp (.fmax h d a b) (fun e => rf d (fp32.minmax true (e.nat a) (e.nat b))) s

def execFamax (h : Hdr) (d : Reg) (a b : Src) (s : State) : Host.Outcome State Fault Refusal :=
  laneOp (.famax h d a b) (fun e => rf d (absMax (e.nat a) (e.nat b))) s

def execFneg (h : Hdr) (d : Reg) (a : Src) (s : State) : Host.Outcome State Fault Refusal :=
  laneOp (.fneg h d a) (fun e => r1 d (e.src a ^^^ 0x80000000)) s

def execFabs (h : Hdr) (d : Reg) (a : Src) (s : State) : Host.Outcome State Fault Refusal :=
  laneOp (.fabs h d a) (fun e => r1 d (e.src a &&& 0x7FFFFFFF)) s

def execFset (h : Hdr) (cmp : FCmp) (d : Nat) (a b : Src) (s : State) : Host.Outcome State Fault Refusal :=
  laneOp (.fset h cmp d a b) (fun e => { preds := [(d, (floatCmp cmp (e.nat a) (e.nat b)).1)], fl := (floatCmp cmp (e.nat a) (e.nat b)).2 }) s

def execFrcp (h : Hdr) (d : Reg) (a : Src) (s : State) : Host.Outcome State Fault Refusal :=
  laneOp (.frcp h d a) (fun e => rf d (specialVal 0 (e.src a))) s

def execFrsq (h : Hdr) (d : Reg) (a : Src) (s : State) : Host.Outcome State Fault Refusal :=
  laneOp (.frsq h d a) (fun e => rf d (specialVal 1 (e.src a))) s

def execFex2 (h : Hdr) (d : Reg) (a : Src) (s : State) : Host.Outcome State Fault Refusal :=
  laneOp (.fex2 h d a) (fun e => rf d (specialVal 2 (e.src a))) s

def execFlg2 (h : Hdr) (d : Reg) (a : Src) (s : State) : Host.Outcome State Fault Refusal :=
  laneOp (.flg2 h d a) (fun e => rf d (specialVal 3 (e.src a))) s

def execFsin (h : Hdr) (d : Reg) (a : Src) (s : State) : Host.Outcome State Fault Refusal :=
  laneOp (.fsin h d a) (fun e => rf d (specialVal 4 (e.src a))) s

def execFcos (h : Hdr) (d : Reg) (a : Src) (s : State) : Host.Outcome State Fault Refusal :=
  laneOp (.fcos h d a) (fun e => rf d (specialVal 5 (e.src a))) s

def execFsqrt (h : Hdr) (rm : Rm) (d : Reg) (a : Src) (s : State) : Host.Outcome State Fault Refusal :=
  laneOp (.fsqrt h rm d a) (fun e => rf d (fsqrtVal rm (fp32.val (e.nat a)))) s

def execFscale (h : Hdr) (rm : Rm) (d : Reg) (a b : Src) (s : State) : Host.Outcome State Fault Refusal :=
  laneOp (.fscale h rm d a b) (fun e => rf d (fscaleVal rm (e.nat a) (e.src b).toInt)) s

def execFrnd (h : Hdr) (rm : Rm) (d : Reg) (a : Src) (s : State) : Host.Outcome State Fault Refusal :=
  laneOp (.frnd h rm d a) (fun e => rf d (frndVal rm (e.nat a))) s

def execFclass (h : Hdr) (ft : FTy) (d : Reg) (a : Src) (s : State) : Host.Outcome State Fault Refusal :=
  laneOp (.fclass h ft d a) (fun e => r1 d (BitVec.ofNat 32 (classOf (fmtOf ft) (e.nat a)))) s

def execHadd2 (h : Hdr) (rm : Rm) (d : Reg) (a b : Src) (s : State) : Host.Outcome State Fault Refusal :=
  laneOp (.hadd2 h rm d a b) (fun e => rf d (packed (fun x y _ => fp16.add rm x y) (e.nat a) (e.nat b) 0)) s

def execHmul2 (h : Hdr) (rm : Rm) (d : Reg) (a b : Src) (s : State) : Host.Outcome State Fault Refusal :=
  laneOp (.hmul2 h rm d a b) (fun e => rf d (packed (fun x y _ => fp16.mul rm x y) (e.nat a) (e.nat b) 0)) s

def execHfma2 (h : Hdr) (rm : Rm) (d : Reg) (a b c : Src) (s : State) : Host.Outcome State Fault Refusal :=
  laneOp (.hfma2 h rm d a b c) (fun e => rf d (packed (fp16.fma rm) (e.nat a) (e.nat b) (e.nat c))) s

def execHmnx2 (h : Hdr) (mx : Bool) (d : Reg) (a b : Src) (s : State) : Host.Outcome State Fault Refusal :=
  laneOp (.hmnx2 h mx d a b) (fun e => rf d (packed (fun x y _ => fp16.minmax mx x y) (e.nat a) (e.nat b) 0)) s

def execBadd2 (h : Hdr) (rm : Rm) (d : Reg) (a b : Src) (s : State) : Host.Outcome State Fault Refusal :=
  laneOp (.badd2 h rm d a b) (fun e => rf d (packed (fun x y _ => bfl16.add rm x y) (e.nat a) (e.nat b) 0)) s

def execBmul2 (h : Hdr) (rm : Rm) (d : Reg) (a b : Src) (s : State) : Host.Outcome State Fault Refusal :=
  laneOp (.bmul2 h rm d a b) (fun e => rf d (packed (fun x y _ => bfl16.mul rm x y) (e.nat a) (e.nat b) 0)) s

def execBfma2 (h : Hdr) (rm : Rm) (d : Reg) (a b c : Src) (s : State) : Host.Outcome State Fault Refusal :=
  laneOp (.bfma2 h rm d a b c) (fun e => rf d (packed (bfl16.fma rm) (e.nat a) (e.nat b) (e.nat c))) s

def execBmnx2 (h : Hdr) (mx : Bool) (d : Reg) (a b : Src) (s : State) : Host.Outcome State Fault Refusal :=
  laneOp (.bmnx2 h mx d a b) (fun e => rf d (packed (fun x y _ => bfl16.minmax mx x y) (e.nat a) (e.nat b) 0)) s

def execCvt (h : Hdr) (cv : Cvt) (ns : Bool) (rm : Rm) (d : Reg) (a : Src) (s : State) : Host.Outcome State Fault Refusal :=
  laneOp (.cvt h cv ns rm d a) (fun e => 
    let x := if cv.wideA then e.src64 a else (e.src a).setWidth 64
    let r := convert cv ns rm x
    { (if cv.wideD then r2 d r.1 else r1 d (r.1.setWidth 32)) with fl := r.2 }) s

def execCvtp (h : Hdr) (pt : PTy) (rm : Rm) (d : Reg) (a b : Src) (s : State) : Host.Outcome State Fault Refusal :=
  laneOp (.cvtp h pt rm d a b) (fun e => 
    let x := (fmtOfP pt).ofVal rm (fp32.val (e.nat a))
    let y := (fmtOfP pt).ofVal rm (fp32.val (e.nat b))
    rf d (x.1 + y.1 * 65536, x.2 ||| y.2)) s

def execE4pk (h : Hdr) (hi ns : Bool) (d : Reg) (a b c : Src) (s : State) : Host.Outcome State Fault Refusal :=
  laneOp (.e4pk h hi ns d a b c) (fun e => rf d (packE4 hi ns (e.nat a) (e.nat b) (e.nat c))) s

def execE4up (h : Hdr) (byte : Nat) (d : Reg) (a : Src) (s : State) : Host.Outcome State Fault Refusal :=
  laneOp (.e4up h byte d a) (fun e => r1 d (BitVec.ofNat 32 (fp32.ofVal .rn (fp8.val (e.nat a / 2 ^ (8 * byte)))).1)) s

def execFdot2 (h : Hdr) (pt : PTy) (rm : Rm) (d : Reg) (a b c : Src) (s : State) : Host.Outcome State Fault Refusal :=
  laneOp (.fdot2 h pt rm d a b c) (fun e => rf d (dot2 (fmtOfP pt) rm (e.nat a) (e.nat b) (e.nat c))) s

/-- Result of one slot of a pair (R41): x is the destination's old value, y the source, m the immediate. -/
def slotVal (op m : Nat) (x y : Word) : Nat × Fl :=
  let w (v : Word) : Nat × Fl := (v.toNat, 0)
  let im : Word := (BitVec.ofNat 7 m).signExtend 32
  match op with
  | 0 => w y
  | 1 => w (x + y)
  | 2 => w (x - y)
  | 3 => w (x * y)
  | 4 => w (pickMin true x y)
  | 5 => w (pickMax true x y)
  | 6 => w (x &&& y)
  | 7 => w (x ||| y)
  | 8 => w (x ^^^ y)
  | 9 => w (y <<< m)
  | 10 => w (y >>> m)
  | 11 => w (y.sshiftRight m)
  | 12 => w (y + im)
  | 13 => w im
  | 14 => fp32.add .rn x.toNat y.toNat
  | 15 => fp32.sub .rn x.toNat y.toNat
  | 16 => fp32.mul .rn x.toNat y.toNat
  | 17 => fp32.minmax false x.toNat y.toNat
  | 18 => fp32.minmax true x.toNat y.toNat
  | 19 => packed (fun p q _ => fp16.add .rn p q) x.toNat y.toNat 0
  | 20 => packed (fun p q _ => fp16.mul .rn p q) x.toNat y.toNat 0
  | 21 => packed (fun p q _ => bfl16.add .rn p q) x.toNat y.toNat 0
  | 22 => packed (fun p q _ => bfl16.mul .rn p q) x.toNat y.toNat 0
  | 23 => w (y ^^^ 0x80000000)
  | 24 => w (y &&& 0x7FFFFFFF)
  | 25 => w (absWord y)
  | 26 => (popCount y, 0)
  | 27 => (leadZeros y, 0)
  | 28 => w (bitRev y)
  | 29 => ofIntVal fp32 .rn false y.toInt
  | _ => ((BitVec.ofInt 32 (toIntVal .rz (-(2 ^ 31)) (2 ^ 31 - 1) (fp32.val y.toNat)).1).toNat,
          (toIntVal .rz (-(2 ^ 31)) (2 ^ 31 - 1) (fp32.val y.toNat)).2)

/-- One slot's result in a lane: its destination v register, value and flags. -/
def Env.slotRes (e : Env) (hi : Bool) (t : Slot) : Nat × Nat × Fl :=
  let d := slotReg hi t.d
  let r := slotVal t.op t.m (e.reg (.v d)).1 (e.reg (.v (slotReg hi t.s))).1
  (d, r.1, r.2)

/-- Poison and latency of the two slots are their own (R41, R119): each slot is written as its equivalent instruction
would write it. -/
def pairThread (stall : Nat) (x y : Slot) (e : Env) : Thread × List WWrite :=
  let i : Instr := .pair stall x y
  let t := e.t
  if !e.live then (t, [])
  else if e.cwbHolds then (t.waitIssue e.s.now, [])
  else if e.chk && e.shortfall i then (t.trap 2 0 t.pc 0 t.pc, [])
  else if e.awaits i then (t.waitIssue e.s.now, [])
  else
    let rx := e.slotRes false x
    let ry := e.slotRes true y
    let t := (t.writeLane e.s.now (.fixed x.latency) ((x.srcs false).any fun r => (e.reg r).2)
      { regs := [(.v rx.1, BitVec.ofNat 32 rx.2.1)], fl := rx.2.2 }).1
    let t := (t.writeLane e.s.now (.fixed y.latency) ((y.srcs true).any fun r => (e.reg r).2)
      { regs := [(.v ry.1, BitVec.ofNat 32 ry.2.1)], fl := ry.2.2 }).1
    (t.retire e.s.now stall (e.t.pc + 8), [])

/-- The issued workgroup after a pair. -/
def pairWg (stall : Nat) (x y : Slot) (s : State) (p : Path) (g : Workgroup) : Workgroup :=
  let step (t : Thread) : Thread :=
    if p.tids.contains t.tid then (pairThread stall x y { s := s, g := g, t := t, path := p }).1 else t
  { g with threads := g.threads.map step }

/-- A pair executes in every thread of its path; it has no guard (R41). -/
def execPair (stall : Nat) (x y : Slot) (s : State) : Host.Outcome State Fault Refusal :=
  match s.cur with
  | none => .next s
  | some p =>
    match s.wg? p.core p.slot with
    | none => .next s
    | some g => .next (s.setWg (pairWg stall x y s p g))

/-- The tracked lane results of request id arrive in one thread of a workgroup; no request has the id 0. -/
def arriveThread (now id : Nat) (g : Workgroup) (t : Thread) : Workgroup :=
  if id != 0 && (t.v.any (fun c => c.tag == id && c.ready != 0) || t.wbusy.any (fun b => b.tag == id)) then
    let g := (t.wbusy.filter (·.tag == id)).foldl (fun g b => g.arriveReg now t.tid id (.w b.w) b.val b.poi) g
    g.modThread t.tid fun t =>
      { t with v := t.v.map fun c => if c.tag == id then { c with tag := 0, ready := 0 } else c }
  else g

/-- SCOREBOARD_RESULT_ARRIVE: the tracked results of request id arrive (R44, R56, R79); a w register takes its value
now (R38). -/
def execScoreboardResultArrive (id : Nat) (s : State) : Host.Outcome State Fault Refusal :=
  .next { s with wgs := s.wgs.map fun g => g.threads.foldl (arriveThread s.now id) g }

end Sys2Proof.Machine
end

