-- ==== Sys2Proof/Machine/Atomics.lean ====
section
/-! DEFINITION. Atomics, reductions, waits on an address, arrival words and line leases 0x0E0-0x0EB, and their steps
(R145-R157, R307-R311). -/

namespace Sys2Proof.Machine

/-! Values (R148, R149). -/

/-- The stored value at a width of n bits. -/
def opVal {n : Nat} (op : AOp) (sg : Bool) (old x : BitVec n) : BitVec n :=
  match op with
  | .add => old + x
  | .and => old &&& x
  | .or => old ||| x
  | .xor => old ^^^ x
  | .min => pickMin sg old x
  | .max => pickMax sg old x
  | .exch => x
  | .inc => if x.ule old then 0 else old + 1
  | .dec => if old == 0 || x.ult old then x else old - 1

def atomBytes (ty : ITy) : Nat := if ty.wide then 8 else 4

/-- An integer operation at the type's width. -/
def intAtom (op : AOp) (ty : ITy) (old x : DWord) : DWord :=
  if ty.wide then opVal op (itySigned ty) old x
  else (opVal op (itySigned ty) (old.setWidth 32 : Word) (x.setWidth 32)).setWidth 64

/-- A float operation; no flag is set (R148). -/
def floatAtom (op : AFOp) (old x : DWord) : DWord :=
  match op with
  | .add => BitVec.ofNat 64 (fp32.add .rn (old.toNat % 2 ^ 32) (x.toNat % 2 ^ 32)).1
  | .min => BitVec.ofNat 64 (fp32.minmax false (old.toNat % 2 ^ 32) (x.toNat % 2 ^ 32)).1
  | .max => BitVec.ofNat 64 (fp32.minmax true (old.toNat % 2 ^ 32) (x.toNat % 2 ^ 32)).1
  | .exch => (x.setWidth 32).setWidth 64

/-- Operands in lane order: the stored value and what each lane receives (R149). -/
def chain (f : DWord → DWord → DWord) (old : DWord) (xs : List DWord) : DWord × List DWord :=
  xs.foldl (fun a x => (f a.1 x, a.2 ++ [a.1])) (old, [])

/-- Float adds of one bundle: the operands are summed first (R149). -/
def floatAdds (old : DWord) (xs : List DWord) : DWord × List DWord :=
  match xs with
  | [] => (old, [])
  | x :: rest =>
    let ps := rest.foldl (fun a y => a ++ [floatAtom .add (a.getLastD x) y]) [x]
    (floatAtom .add old (ps.getLastD x), old :: (ps.take rest.length).map (floatAtom .add old))

/-- Result of a combined atomic: the value to store, or none where nothing is written, and the lanes' values. -/
def AReq.result (a : AReq) (old : DWord) : Option DWord × List DWord :=
  match a.kind with
  | .atom op =>
    let r := chain (intAtom op a.ty) old (a.lanes.map (·.x))
    (some r.1, r.2)
  | .atomf .add =>
    let r := floatAdds old (a.lanes.map (·.x))
    (some r.1, r.2)
  | .atomf op =>
    let r := chain (floatAtom op) old (a.lanes.map (·.x))
    (some r.1, r.2)
  | .acas =>
    a.lanes.foldl (fun q l =>
      let v := q.1.getD old
      if v == l.cmp then (some l.x, q.2 ++ [v]) else (q.1, q.2 ++ [v])) (none, [])

/-! Issue. -/

/-- A register group awaits a request (R44). -/
def State.awaitR (s : State) (core slot tid id : Nat) (r : Reg) (k : Nat) : State :=
  match r with
  | .v n => s.awaitV core slot tid id n k
  | .w n =>
    let s := s.modThread core slot tid fun t =>
      { t with wbusy := t.wbusy.filter (fun b => !(n ≤ b.w && b.w < n + k)) ++
          (List.range k).map fun j => { w := n + j, ready := 0, tag := id } }
    s.modWg core slot fun g =>
      { g with w := (List.range k).foldl (fun w j => w.modify (n + j) (·.expect s.now id tid)) g.w }

/-- The request of an earlier lane of the bundle on the same word (R149). Lanes of a lessee stay apart. -/
def Env.combines (e : Env) (ia : Nat) (kind : AKind) (ty : ITy) (a : AReq) : Bool :=
  a.cycle == e.s.now && a.ctx == e.g.ctx && a.ia == ia && a.kind == kind && a.ty == ty &&
  (match a.lanes.head? with
   | some l => l.who.core == e.g.core && l.who.slot == e.g.slot && l.who.uid == e.g.uid && l.who.pc == e.t.pc &&
     l.who.tid % 4 == e.t.tid % 4
   | none => false) &&
  (e.s.leaseOf? e.who e.g.ctx (lineOf ia)).isNone &&
  a.lanes.all fun l => (e.s.leaseOf? l.who e.g.ctx (lineOf ia)).isNone

/-- atom, acas and atomf in one thread (R145-R149). -/
def Env.atomic (e : Env) (kind : AKind) (ty : ITy) (sc : Scope) (d a : Reg) (b : Src) (x cmp : DWord) : Res :=
  let va := e.ea a b
  match e.plainAt va (atomBytes ty) .rmw with
  | .error c => .trap c 0 va false
  | .ok (ia, home, r) =>
    let lane : ALane := { who := e.who, d := d, x := x, cmp := cmp }
    let m := e.s.m.dropCopies e.g.ctx (secOf ia) 32 (· == e.g.core)
    let k := if ty.wide then 2 else 1
    match m.atoms.find? (e.combines ia kind ty) with
    | some q =>
      let join (y : AReq) : AReq := if y.id == q.id then { y with lanes := y.lanes ++ [lane] } else y
      let s := { e.s with m := { m with atoms := m.atoms.map join } }
      .done (s.awaitR e.g.core e.g.slot e.t.tid q.id d k)
    | none =>
      let q : AReq := { id := e.s.nextId, ctx := e.g.ctx, va := va, ia := ia, home := home, msa := r.msa, kind := kind, ty := ty,
                        sc := sc, cycle := e.s.now, lanes := [lane], fwd := false, queued := none, held := false, retry := 0 }
      let s := ({ e.s with m := { m with atoms := m.atoms ++ [q] } } : State).fresh
      .done (s.awaitR e.g.core e.g.slot e.t.tid q.id d k)

/-- An operand at the type's width. -/
def Env.opnd (e : Env) (ty : ITy) (c : Src) : DWord := if ty.wide then e.src64 c else (e.src c).setWidth 64

def execAtom (h : Hdr) (op : AOp) (ty : ITy) (sc : Scope) (d a : Reg) (b c : Src) (s : State) :
    Host.Outcome State Fault Refusal :=
  threadOp (.atom h op ty sc d a b c) (fun e => e.atomic (.atom op) ty sc d a b (e.opnd ty c) 0) s

def execAcas (h : Hdr) (ty : ITy) (sc : Scope) (d a : Reg) (b : Src) (c : Nat) (s : State) :
    Host.Outcome State Fault Refusal :=
  threadOp (.acas h ty sc d a b c) (fun e =>
    if ty.wide then e.atomic .acas ty sc d a b (e.pair (.v (c + 2))) (e.pair (.v c))
    else e.atomic .acas ty sc d a b ((e.reg (.v (c + 1))).1.setWidth 64) ((e.reg (.v c)).1.setWidth 64)) s

def execAtomf (h : Hdr) (op : AFOp) (sc : Scope) (d : Nat) (a : Reg) (b c : Src) (s : State) :
    Host.Outcome State Fault Refusal :=
  threadOp (.atomf h op sc d a b c) (fun e => e.atomic (.atomf op) .n32 sc (.v d) a b ((e.src c).setWidth 64) 0) s

/-- red and redf in one thread. R146 asks RD and W of a reduction; R103's list names W for reductions (log 27). -/
def Env.reduce (e : Env) (kind : WKind) (n : Nat) (sc : Scope) (a : Reg) (b : Src) (x : DWord) : Res :=
  let va := e.ea a b
  match e.plainAt va n .rmw with
  | .error c => .trap c 0 va false
  | .ok (ia, home, r) =>
    let s := { e.s with m := e.s.m.dropCopies e.g.ctx (secOf ia) 32 (· == e.g.core) }
    let w := { e.newWrite va (secOf ia) home r.msa kind sc false [] 0 ((List.range n).map (ia % 32 + ·)) with state := .queued }
    let op := (ia % 32, x)
    let lessee (q : Who) : Bool := (s.leaseOf? q e.g.ctx (lineOf ia)).isSome
    if e.mustQueue [secOf ia] then .wait
    else match s.m.writes.find? fun y => y.joins w && !lessee w.who && !lessee y.who with
      | some y => .done (s.modWEnt y.id fun y => { y with ops := y.ops ++ [op], lanes := y.lanes ++ w.lanes })
      | none => .done (({ s with nextId := s.nextId + 2 } : State).setWrites (· ++ [{ w with ops := [op] }]))

def execRed (h : Hdr) (op : AOp) (ty : ITy) (sc : Scope) (a : Reg) (b c : Src) (s : State) :
    Host.Outcome State Fault Refusal :=
  threadOp (.red h op ty sc a b c) (fun e => e.reduce (.red op ty) (atomBytes ty) sc a b (e.opnd ty c)) s

def execRedf (h : Hdr) (op : AFOp) (sc : Scope) (a : Reg) (b c : Src) (s : State) : Host.Outcome State Fault Refusal :=
  threadOp (.redf h op sc a b c) (fun e => e.reduce (.redf op) 4 sc a b ((e.src c).setWidth 64)) s

/-! Execution. -/

/-- Bytes in a sector as a mask and data. -/
def maskAt (off n : Nat) : List Bool := (List.range 32).map fun k => decide (off ≤ k) && decide (k < off + n)

def placeAt (off n : Nat) (x : Nat) : List Byte := splice (List.replicate 32 0) off (leBytes n x)

/-- A reduction applied to the bytes of a sector: word by word, the lanes in order (R149). -/
def WEnt.reduced (w : WEnt) (sec : List Byte) : List Bool × List Byte :=
  let words := w.ops.foldl (fun l q => if l.contains q.1 then l else l ++ [q.1]) []
  words.foldl (fun a off =>
    let xs := (w.ops.filter fun q => q.1 == off).map (·.2)
    let n := match w.kind with
      | .red _ ty => atomBytes ty
      | _ => 4
    let old := BitVec.ofNat 64 (numAt sec off n)
    let r := match w.kind with
      | .red op ty => (chain (intAtom op ty) old xs).1
      | .redf .add => (floatAdds old xs).1
      | .redf op => (chain (floatAtom op) old xs).1
      | _ => old
    ((maskAt off n).zipWith (fun x y => x || y) a.1, splice a.2 off (leBytes n r.toNat))) (List.replicate 32 false, sec)

def State.setAtoms (s : State) (f : List AReq → List AReq) : State := { s with m := { s.m with atoms := f s.m.atoms } }
def State.modAtom (s : State) (id : Nat) (f : AReq → AReq) : State :=
  s.setAtoms fun l => l.map fun a => if a.id == id then f a else a
def State.dropAtom (s : State) (id : Nat) : State := s.setAtoms fun l => l.filter (·.id != id)

/-- An atomic is refused: every lane traps late (R253). -/
def State.failAtom (s : State) (a : AReq) (cause : Nat) : State :=
  a.lanes.foldl (fun s l => ((s.letGo l.who a.id).releaseTag l.who a.id).lateTrap l.who a.ctx cause a.va a.ia 3) (s.dropAtom a.id)

/-- The lanes of an atomic receive their values. -/
def State.answerAtom (s : State) (a : AReq) (vals : List DWord) : State :=
  (a.lanes.zip vals).foldl (fun s q =>
    let s := s.letGo q.1.who a.id
    if s.lives q.1.who then
      s.arriveN q.1.who.core q.1.who.slot q.1.who.tid a.id q.1.d (if a.ty.wide then 2 else 1) q.2.toNat false
    else s) (s.dropAtom a.id)

def AReq.need (a : AReq) : Need :=
  let who := match a.lanes with
    | [l] => some l.who
    | _ => none
  { ctx := a.ctx, master := a.ctx, ia := a.ia, home := a.home, die := (a.lanes.head?.map fun l => dieOf l.who.core).getD a.home, atHome := true,
    acc := .rmw, n := atomBytes a.ty, who := who, place := a.queued, id := a.id, keeps := true }

/-- The die where an atomic or a reduction completes: the issuing die for host memory, else the home (R145). -/
def Need.doneAt (r : Need) (x : Xl) : Nat := if x.hst then r.die else r.home

/-- An atomic reads and writes its word at one instant (R145). -/
def State.runAtom (s : State) (a : AReq) (x : Xl) (count : Bool) : State :=
  let n := atomBytes a.ty
  if s.m.poisonedAt x then s.failAtom a 5
  else
    let r := a.result (BitVec.ofNat 64 (leNat (s.m.bytesAt x n)))
    let s := match r.1 with
      | some v => s.complete a.ctx a.ia (a.need.doneAt x) x (maskAt (a.ia % 32) n) (placeAt (a.ia % 32) n v.toNat) false false count
      | none => s
    s.answerAtom a r.2

/-- A write in its place in the write queue. -/
def insertWrite (w : WEnt) (l : List WEnt) : List WEnt :=
  (l.takeWhile fun x => decide (x.ord ≤ w.ord)) ++ w :: l.dropWhile fun x => decide (x.ord ≤ w.ord)

/-- An atomic on the lessee's own copy (R145, R155). -/
def State.runLeased (s : State) (a : AReq) (lease : Nat) (x : Xl) : State :=
  match a.lanes.head? with
  | none => s.dropAtom a.id
  | some l =>
    let n := atomBytes a.ty
    let q := s.readSec (some l.who) a.id a.ctx (secOf a.ia) x
    if q.2 then s.failAtom a 5
    else
      let r := a.result (BitVec.ofNat 64 (numAt q.1 (a.ia % 32) n))
      let s := match r.1 with
        | none => s
        | some v => s.setWrites (insertWrite {
            id := a.id, ord := a.id, eid := 0, who := l.who, lanes := [⟨l.who, a.va, (List.range n).map (a.ia % 32 + ·)⟩]
            cycle := s.now, ctx := a.ctx, va := a.va, ia := secOf a.ia
            home := a.home, msa := false, kind := .st, sc := a.sc, byp := false, mask := maskAt (a.ia % 32) n
            data := placeAt (a.ia % 32) n v.toNat, pri := List.replicate 32 0, ops := [], full := false, after := [], till := 0
            state := .leased lease })
      s.answerAtom a r.2

/-- Nothing is pending on the sector, and its tenures have ended; for a home write those of its line (R145, R285). -/
def State.settled (s : State) (die ctx sec : Nat) (x : Xl) : Bool :=
  (s.m.firstPending ctx sec).isNone && decide ((if x.hst then s.m.tenEnd die x.key else s.m.lineEnd die x) ≤ s.now)

/-- Earlier accesses of the lanes to the sector are done, and earlier writes of their core there (R121, R161). -/
def State.atomMayGo (s : State) (a : AReq) : Bool :=
  let sec := secOf a.ia
  a.lanes.all fun l => !s.m.rmwBefore l.who a.id a.ctx sec && !s.m.readBefore l.who a.id a.ctx sec &&
    !s.m.writeBefore l.who a.id a.ctx sec (s.leaseOf? l.who a.ctx (lineOf sec)).isSome

/-- An atomic at its home slice (R145, R307). -/
def State.atomStep (s : State) (a : AReq) : State :=
  if a.fwd || a.retry != 0 || !s.atomMayGo a || (a.held && !(s.ctx a.ctx).runs) then s
  else
    let n := a.need
    let hold (s : State) : State :=
      a.lanes.foldl (fun s l => s.holdThread l.who a.id) (s.modAtom a.id fun a => { a with held := true })
    match s.gate n with
    | .go x =>
      if !s.settled (n.doneAt x) a.ctx (secOf a.ia) x then s
      else if a.msa && !x.hst then
        if s.dramWaits a.id a.ctx (secOf a.ia) true x then s.dramKeep a.id a.ctx (secOf a.ia) true x else
        let m := { s.m with l2 := s.m.l2.filter (fun e => !(e.home == a.home && e.ctx == a.ctx && e.ia == secOf a.ia))
                            watches := s.m.watches.map (Watch.bump a.ctx (secOf a.ia) a.home) }
        ({ s with m := m } : State).modAtom a.id fun a => { a with fwd := true, queued := none }
      else
        (({ s with m := s.m.install s.now a.home a.ctx a.ia x } : State).hostVisit n.die a.ia x).runAtom a x true
    | .own x l => s.runLeased a l x
    | .wait => s.prepare n
    | .queue => s.fresh.modAtom a.id fun a => { a with queued := some s.nextId }
    | .nack c => s.modAtom a.id fun a => { a with retry := s.now + c }
    | .fault l => hold (s.pageFault a.home a.ctx a.ia l .rmw)
    | .viol => (s.violation a.ctx a.ia .rmw (unitCtrl a.home (ctrlOf a.ia))).failAtom a 4
    | .dead => s.failAtom a 5

/-- A reduction applied at its place (R146): poison leaves it unapplied. -/
def State.runRed (s : State) (w : WEnt) (x : Xl) (count : Bool) : State :=
  let b : Xl := { x with pa := x.pa / 32 * 32 }
  if s.m.poisonedAt b then s.failWrite w 5 1
  else
    let r := w.reduced (s.m.bytesAt b 32)
    (s.dropWrite w.id).complete w.ctx w.ia ((w.need .rmw true).doneAt x) b r.1 r.2 false false count

/-- A reduction at its home slice (R145, R146). -/
def State.redStep (s : State) (w : WEnt) : State :=
  if w.kind.plain || !w.state.canArrive || !s.mayGo w then s
  else
    let n := w.need .rmw true
    match s.gate n with
    | .go x =>
      if !s.settled (n.doneAt x) w.ctx w.ia x then s
      else if w.msa && !x.hst then
        if s.dramWaits w.id w.ctx w.ia true x then s.dramKeep w.id w.ctx w.ia true x else
        let m := { s.m with l2 := s.m.l2.filter (fun e => !(e.home == w.home && e.ctx == w.ctx && e.ia == w.ia))
                            watches := s.m.watches.map (Watch.bump w.ctx w.ia w.home) }
        ({ s with m := m } : State).modWEnt w.id fun w => { w with state := .forwarded }
      else
        (({ s with m := s.m.install s.now w.home w.ctx w.ia x } : State).hostVisit n.die w.ia x).runRed w x true
    | .own x l =>
      let q := s.readSec (some w.who) w.id w.ctx w.ia x
      if q.2 then s.failWrite w 5 1
      else
        let r := w.reduced q.1
        s.modWEnt w.id fun w => { w with kind := .st, mask := r.1, data := r.2, ops := [], state := .leased l }
    | .wait => s.prepare n
    | .queue => s.fresh.modWEnt w.id fun w => { w with state := .leaseQueue s.nextId }
    | .nack c => s.modWEnt w.id fun w => { w with state := .retry (s.now + c) }
    | .fault l => s.pageFault w.home w.ctx w.ia l .write
    | .viol => (s.violation w.ctx w.ia .write (unitCtrl w.home (ctrlOf w.ia))).failWrite w 4 1
    | .dead => s.dropWrite w.id

/-- ATOMIC_EXECUTE. -/
def execAtomicExecute (id : Nat) (s : State) : Host.Outcome State Fault Refusal :=
  match s.m.atoms.find? (·.id == id), s.write? id with
  | some a, _ => .next (s.atomStep a)
  | none, some w => .next (s.redStep w)
  | none, none => .next s

/-- MSU_EXECUTE: the memory-side unit applies a forwarded operation and replies (R145). -/
def execMsuExecute (id : Nat) (s : State) : Host.Outcome State Fault Refusal :=
  match s.m.atoms.find? (·.id == id), s.write? id with
  | some a, _ =>
    if !a.fwd then .next s
    else match s.xlate a.home a.ctx a.ia with
      | .ok x => .next (if s.dramBusy x then s else s.runAtom a x false)
      | _ => .next (s.modAtom id fun a => { a with fwd := false })
  | none, some w =>
    if w.state != .forwarded then .next s
    else match s.xlate w.home w.ctx w.ia with
      | .ok x => .next (if s.dramBusy x then s else s.runRed w x false)
      | _ => .next (s.modWEnt id fun w => { w with state := .queued })
  | none, none => .next s

/-! Waits (R150). -/

/-- Entries of a home slice's wait table. -/
def State.waitCount (s : State) (home ia : Nat) : Nat :=
  (s.m.waits.filter fun e => e.home == home && sliceOf e.ia == sliceOf ia).length

/-- The place that the thread's waita holds in the lease queue of its word (R155). -/
def Env.place? (e : Env) (ia home : Nat) : Option Nat :=
  match e.t.wplace with
  | some p => if p.2 == (ia, home) then some p.1 else none
  | none => none

/-- waita in one thread: its registration is a request at the home slice, which a lease queues or turns away (R150, R155). -/
def Env.waita (e : Env) (cmp : WCmp) (ty : STy) (sc : Scope) (d : Nat) (a : Reg) (b : Src) (c : Reg) : Res :=
  let va := e.pair a
  match e.plainAt va 4 .rmw with
  | .error k => .trap k 0 va false
  | .ok (ia, home, _) =>
    let w := e.who
    let answer (s : State) (v : Word) : Res := .done (s.deliver e.g.core e.g.slot e.t.tid (.v d) v false)
    let n : Need := { ctx := e.g.ctx, master := e.g.ctx, ia := ia, home := home, die := dieOf e.g.core, atHome := true, acc := .rmw, n := 4,
                      who := some w, place := e.place? ia home, keeps := true }
    let rd : Need := { n with acc := .read }
    let set (f : Thread → Thread) (s : State) : State := s.modThread e.g.core e.g.slot e.t.tid f
    if e.t.waitaEvicted then answer e.s 3
    else if !e.s.y.allowed e.g.ctx ia 4 true true then
      .ended ((e.s.violation e.g.ctx ia .rmw (unitCtrl home (ctrlOf ia))).modThread e.g.core e.g.slot e.t.tid fun t =>
        t.trap 4 0 t.pc va t.pc)
    else if e.mem.rmwBefore w e.s.nextId e.g.ctx (secOf ia) || e.mem.readBefore w e.s.nextId e.g.ctx (secOf ia) ||
       e.mem.writeBefore w e.s.nextId e.g.ctx (secOf ia) (e.s.leaseOf? w e.g.ctx (lineOf ia)).isSome then .wait
    else match e.s.gate rd with
      | .go x | .own x _ =>
        let mine := (e.s.leaseOf? w e.g.ctx (lineOf ia)).isSome
        let q := e.s.readSec (if mine then some w else none) e.s.nextId e.g.ctx (secOf ia) x
        if q.2 then .trap 5 0 va false
        else
          let v := BitVec.ofNat 32 (numAt q.1 (ia % 32) 4)
          let exp := (e.pair c).setWidth 32
          let mask : Word := (e.pair c >>> 32).setWidth 32
          let t := (e.src b).toNat
          if waitOk cmp ty (v &&& mask) (exp &&& mask) then answer e.s 0
          else if t == 0 then answer e.s 1
          else if 256 ≤ e.s.waitCount home ia then answer e.s 2
          else
            let q : WaitEnt := { id := e.s.nextId, who := w, ctx := e.g.ctx, va := va, ia := ia, key := x.key, home := home,
                                 cmp := cmp, ty := ty, exp := exp, mask := mask, sc := sc, d := d, timeout := t, since := e.s.now }
            let s := e.s.fresh
            .block { s with m := { s.m with waits := s.m.waits ++ [q] } } (.waita q.id)
      | .fault l => .block (e.s.pageFault home e.g.ctx ia l .rmw) (.page home ia)
      | .viol =>
        .ended ((e.s.violation e.g.ctx ia .rmw (unitCtrl home (ctrlOf ia))).modThread e.g.core e.g.slot e.t.tid fun t =>
          t.trap 4 0 t.pc va t.pc)
      | .dead => .trap 5 0 va false
      | .wait => .waitIn (e.s.prepare rd)
      | .queue => .waitIn (set (fun t => { t with wplace := some (e.s.nextId, ia, home) }) e.s.fresh)
      | .nack c => .ended (set (fun t => { t with next := e.s.now + c }) e.s)

def execWaita (h : Hdr) (cmp : WCmp) (ty : STy) (sc : Scope) (d : Nat) (a : Reg) (b : Src) (c : Reg) (s : State) :
    Host.Outcome State Fault Refusal :=
  threadOp (.waita h cmp ty sc d a b c) (fun e => e.waita cmp ty sc d a b c) s

/-- Timeout of an entry (R150); 0xFFFF_FFFF never comes. -/
def WaitEnt.expired (now : Nat) (e : WaitEnt) : Bool := e.timeout != 0xFFFFFFFF && decide (e.since + e.timeout ≤ now)

def execWaitaTimeout (id : Nat) (s : State) : Host.Outcome State Fault Refusal :=
  match s.m.waits.find? (·.id == id) with
  | some e => .next (if e.expired s.now then s.endWait e 1 else s)
  | none => .next s

/-- Entries evicted: status 3 (R150). -/
def State.evictWaits (s : State) (p : WaitEnt → Bool) : State :=
  (s.m.waits.filter p).foldl (fun s e => s.endWait e 3) s

/-! Arrival words (R151, R152). -/

/-- The update of an arrival word by n bytes. -/
def arrivalAdd (target count gen flags n : Nat) : Nat × Nat × Nat :=
  let past := decide (0xFFFFFFFF < count + n)
  let c := if past then 0xFFFFFFFF else count + n
  let f := if past then flags ||| 1 else flags
  if target == 0 then (c, gen, f) else (c % target, (gen + c / target) % 2 ^ 32, f)

/-- 32-bit word of the tile store. -/
def Workgroup.tileWord (g : Workgroup) (off : Nat) : Nat := numAt g.tile off 4

/-- Write a word: its poison clears (R119). -/
def Workgroup.setWord (g : Workgroup) (off x : Nat) : Workgroup :=
  { g with tile := splice g.tile off (leBytes 4 x), tpoi := nsErase (off / 4) g.tpoi }

/-- An update of the arrival word at an offset. -/
def Workgroup.arrive (g : Workgroup) (off n : Nat) : Workgroup :=
  let r := arrivalAdd (g.tileWord off) (g.tileWord (off + 4)) (g.tileWord (off + 8)) (g.tileWord (off + 12)) n
  ((g.setWord (off + 4) r.1).setWord (off + 8) r.2.1).setWord (off + 12) r.2.2

/-- A command that ends in error sets the error flag and adds nothing. -/
def Workgroup.arriveError (g : Workgroup) (off : Nat) : Workgroup := g.setWord (off + 12) (g.tileWord (off + 12) ||| 2)

/-- Checks of an arrival-word card: allocation, then alignment. -/
def Env.arrivalAt (e : Env) (a : Src) : Except Nat Nat :=
  let off := (e.src a).toNat
  if e.g.tile.length ≤ off then .error 4 else if off % 16 != 0 then .error 3 else .ok off

/-- The generation has moved on, or the error flag is set. -/
def Workgroup.awDone (g : Workgroup) (off : Nat) (gen : Word) : Bool :=
  g.tileWord (off + 8) != gen.toNat || g.tileWord (off + 12) / 2 % 2 == 1

/-- An awwait ends once its condition holds: D receives the generation (R152). -/
def Workgroup.awEnd (g : Workgroup) (t : Thread) : Thread :=
  match t.run with
  | .blocked (.awwait off gen d) =>
    if !t.resident || !g.awDone off gen then t
    else match d with
      | some n => t.past.setV n (.arrived (BitVec.ofNat 32 (g.tileWord (off + 8))) false)
      | none => t.past
  | _ => t

/-- Every awwait of a workgroup whose condition holds ends. -/
def Workgroup.awWake (g : Workgroup) : Workgroup := { g with threads := g.threads.map g.awEnd }

/-- An update of a workgroup's words, with the waits on them before and after it. -/
def State.onWords (s : State) (core slot : Nat) (f : Workgroup → Workgroup) : State :=
  let run := match s.wg? core slot with
    | some g => (s.ctx g.ctx).runs
    | none => false
  s.modWg core slot fun g => if run then (f g.awWake).awWake else f g

/-- awinit. DEDUCED from "never wait on OWN" (R151): REF that other operands of a command raise on the word's granule does not
hold awinit, awadd and awwait either, as REF > 0 is OWN (log 81). -/
def execAwinit (h : Hdr) (a b : Src) (s : State) : Host.Outcome State Fault Refusal :=
  threadOp (.awinit h a b) (fun e =>
    match e.arrivalAt a with
    | .error c => .trap c 0 ((e.src a).setWidth 64) false
    | .ok off => .done (e.s.onWords e.g.core e.g.slot fun g =>
        ((g.setWord off (e.src b).toNat).setWord (off + 4) 0).setWord (off + 12) 0)) s

/-- A v-register result, where the card names one. -/
def Env.giveV (e : Env) (s : State) (d : Option Nat) (x : Word) : State :=
  match d with
  | some n => s.deliver e.g.core e.g.slot e.t.tid (.v n) x false
  | none => s

/-- awadd; it waits on no granule (log 81). -/
def execAwadd (h : Hdr) (d : Option Nat) (a b : Src) (s : State) : Host.Outcome State Fault Refusal :=
  threadOp (.awadd h d a b) (fun e =>
    match e.arrivalAt a with
    | .error c => .trap c 0 ((e.src a).setWidth 64) false
    | .ok off =>
      let g := e.g.arrive off (e.src b).toNat
      .done (e.giveV (e.s.onWords e.g.core e.g.slot fun g => g.arrive off (e.src b).toNat) d (BitVec.ofNat 32 (g.tileWord (off + 12))))) s

/-- awwait; it waits on no granule (log 81). -/
def execAwwait (h : Hdr) (d : Option Nat) (a b : Src) (s : State) : Host.Outcome State Fault Refusal :=
  threadOp (.awwait h d a b) (fun e =>
    match e.arrivalAt a with
    | .error c => .trap c 0 ((e.src a).setWidth 64) false
    | .ok off =>
      if e.g.awDone off (e.src b) then .done (e.giveV e.s d (BitVec.ofNat 32 (e.g.tileWord (off + 8))))
      else .block e.s (.awwait off (e.src b) d)) s

/-! Leases (R153-R157). -/

def State.setLeases (s : State) (f : List LeaseEnt → List LeaseEnt) : State := { s with m := { s.m with leases := f s.m.leases } }
def State.modLease (s : State) (id : Nat) (f : LeaseEnt → LeaseEnt) : State :=
  s.setLeases fun l => l.map fun x => if x.id == id then f x else x
def State.dropLease (s : State) (id : Nat) : State := s.setLeases fun l => l.filter (·.id != id)

/-- Granted cycles (R154). -/
def leaseCycles (b cls : Nat) : Nat :=
  let lim := if cls == 0 then 1024 else if cls == 1 then 2048 else 4096
  max 256 (min b (min 4096 lim))

def execLease (h : Hdr) (d : Nat) (a : Reg) (b : Src) (s : State) : Host.Outcome State Fault Refusal :=
  threadOp (.lease h d a b) (fun e =>
    let va := e.pair a
    match e.plainAt va 1 .rmw with
    | .error c => .trap c 0 va false
    | .ok (ia, home, _) =>
      let line := lineOf ia
      let mine := e.mem.leases.filter fun l => l.who.same e.who && (l.state == .held || l.state == .waiting || l.state == .sent)
      if 4 ≤ mine.length || mine.any (fun l => decide (line ≤ l.line)) then
        .done (e.s.deliver e.g.core e.g.slot e.t.tid (.v d) 2 false)
      else
        let l : LeaseEnt := { id := e.s.nextId, who := e.who, ctx := e.g.ctx, va := va, line := line, home := home, d := d
                              g := leaseCycles (e.src b).toNat e.g.cls, state := .sent, expiry := 0, poisoned := false
                              lrel := none, queued := none, page := false, retry := 0 }
        .done ((e.s.fresh.setLeases (· ++ [l])).awaitV e.g.core e.g.slot e.t.tid l.id d 1)) s

/-- A lease request is answered with a status and leaves the table. -/
def State.answerLease (s : State) (l : LeaseEnt) (v : Word) : State :=
  let s := (s.dropLease l.id).letGo l.who l.id
  if s.lives l.who then s.deliver l.who.core l.who.slot l.who.tid (.v l.d) v false else s

/-- A lease request ends in a late trap. -/
def State.failLease (s : State) (l : LeaseEnt) (cause : Nat) : State :=
  (((s.dropLease l.id).letGo l.who l.id).releaseTag l.who l.id).lateTrap l.who l.ctx cause l.va l.line 3

def LState.inTable : LState → Bool
  | .sent => false
  | .waiting | .held | .draining => true

def State.leaseTable (s : State) (die line : Nat) : Nat :=
  (s.m.leases.filter fun l => l.state.inTable && dieOf l.who.core == die && sliceOf l.line == sliceOf line).length

def LeaseEnt.need (l : LeaseEnt) : Need :=
  { ctx := l.ctx, master := l.ctx, ia := l.line, home := l.home, die := dieOf l.who.core, atHome := false, acc := .rmw, n := 128
    who := some l.who, place := l.queued, keeps := true }

/-- Earlier writes of the thread's core to the line have still to reach the slice, or atomics of the thread to run there: the
request follows them, or they would wait for its lease (R121, R157). -/
def State.leaseBehind (s : State) (l : LeaseEnt) : Bool :=
  s.m.writes.any (fun w => w.ctx == l.ctx && lineOf w.ia == l.line && w.who.core == l.who.core &&
    (if w.ord == 0 then w.of l.who && decide (w.id < l.id) else decide (w.ord < l.id) && match w.state with
      | .queued | .retry _ | .logged _ => true
      | _ => false)) ||
  s.m.atoms.any fun a => decide (a.id < l.id) && a.ctx == l.ctx && lineOf a.ia == l.line && a.lanes.any fun k => k.who.same l.who

/-- LEASE_REQUEST_ARRIVE: the request reaches the slice that will hold its entry (R154, R155). -/
def State.leaseArrive (s : State) (l : LeaseEnt) : State :=
  let dst := (s.y.dies.getD l.home {}).st
  if l.state != .sent || l.retry != 0 || !(s.ctx l.ctx).runs then s
  else if dst == .failed || (s.y.dies.getD l.home {}).lost then s.failLease l 5
  else if dst != .running then s.modLease l.id fun l => { l with retry := s.now + sliceCycles 16384 }
  else if !s.y.allowed l.ctx l.line 128 true true then
    (s.violation l.ctx l.line .rmw (unitCtrl l.home (ctrlOf l.line))).failLease l 4
  else match s.xlate l.home l.ctx l.line with
    | .violation => (s.violation l.ctx l.line .rmw (unitCtrl l.home (ctrlOf l.line))).failLease l 4
    | .fault lv =>
      ((s.pageFault l.home l.ctx l.line lv .rmw).modLease l.id fun l => { l with page := true }).holdThread l.who l.id
    | .ok x =>
      let n := l.need
      let b := s.leasedAt? n.die l.ctx l.line
      let turn := b.isNone && s.first n
      if x.hst then s.answerLease l 3
      else if s.leaseBehind l then s
      else if (turn || l.queued.isNone) && 64 ≤ s.leaseTable n.die l.line then s.answerLease l 1
      else if turn then (s.modLease l.id fun l => { l with state := .waiting, queued := none, page := false }).letGo l.who l.id
      else if l.queued.isSome then s
      else if s.queueLen n.die l.line < 64 then s.fresh.modLease l.id fun l => { l with queued := some s.nextId }
      else
        let left := match b with
          | some q => q.expiry - s.now
          | none => 0
        s.modLease l.id fun l => { l with retry := s.now + max (sliceCycles 64) left }

def execLeaseRequestArrive (id : Nat) (s : State) : Host.Outcome State Fault Refusal :=
  match s.m.leases.find? (·.id == id) with
  | some l => .next (s.leaseArrive l)
  | none => .next s

/-- Clear L in the home directory by a write-back with keep (R285). -/
def State.clearL (s : State) (l : LeaseEnt) : State :=
  match s.dir? l.ctx l.line with
  | some e => if e.l && e.own == dieOf l.who.core then s.setDir e.keep else s
  | none => s

/-- LEASE_GRANT: pending writes complete, tenures ended, the directory has given the line (R155, R286). -/
def State.leaseGrant (s : State) (l : LeaseEnt) : State :=
  let n := l.need
  if l.state != .waiting then s
  else if n.die == l.home && !s.dirOk n then s.prepare { n with place := some 0 }
  else
    let given := n.die == l.home || match s.dir? l.ctx l.line with
      | some e => e.trans.isNone && e.st == .m && e.own == n.die && e.l
      | none => false
    match s.xlate l.home l.ctx l.line with
    | .ok x =>
      if n.die == l.home && s.lineDram n.die l.id l.ctx l.line x then s.lineKeep l.home l.id l.ctx l.line x
      else if !given || s.sliceTested n.die l.ctx l.line || !s.m.quietLine l.ctx l.line || !s.tenLine l.home n.die l.ctx l.line ||
          (List.range 4).any (fun k => s.forwardedOn l.ctx (l.line + 32 * k)) then s
      else if (List.range 4).any fun k => s.m.poisonedAt { x with pa := x.pa + 32 * k } then (s.clearL l).failLease l 5
      else
        let m := (List.range 4).foldl (fun m k => m.install s.now l.home l.ctx (l.line + 32 * k) { x with pa := x.pa + 32 * k }) s.m
        let s := ({ s with m := m } : State).modLease l.id fun l => { l with state := .held, expiry := s.now + l.g }
        if s.lives l.who then s.deliver l.who.core l.who.slot l.who.tid (.v l.d) 0 false else s
    | _ => s

def execLeaseGrant (id : Nat) (s : State) : Host.Outcome State Fault Refusal :=
  match s.m.leases.find? (·.id == id) with
  | some l => .next (s.leaseGrant l)
  | none => .next s

def execLeaseExpiry (id : Nat) (s : State) : Host.Outcome State Fault Refusal :=
  match s.m.leases.find? (·.id == id) with
  | some l => .next (if l.state == .held && decide (l.expiry ≤ s.now) then s.modLease id fun l => { l with state := .draining } else s)
  | none => .next s

/-- The lessee's writes to one sector complete in one piece (R155, R156). -/
def State.drainSec (s : State) (l : LeaseEnt) (sec : Nat) : State :=
  let mine := s.m.writes.filter fun w => w.state == .leased l.id && w.ia == sec && w.ord != 0
  if mine.isEmpty then s
  else match s.xlate l.home l.ctx sec with
    | .ok x =>
      let mask := (List.range 32).map fun k => mine.any fun w => w.mask.getD k false
      let data := mine.foldl (fun d w => maskWrite w.mask w.data d) (List.replicate 32 0)
      (s.setWrites fun ws => ws.filter fun w => !(w.state == .leased l.id && w.ia == sec && w.ord != 0)).complete l.ctx sec (dieOf l.who.core) x
        mask data (mine.any (·.full)) false true
    | _ => mine.foldl (fun s w => s.modWEnt w.id fun w => { w with state := .queued }) s

/-- LEASE_DRAIN_COMPLETE: the lessee's writes complete together, lrel is answered, the entry is free (R155-R157, R309). -/
def State.leaseDrain (s : State) (l : LeaseEnt) : State :=
  if l.state != .draining || s.sliceTested (dieOf l.who.core) l.ctx l.line then s
  else
    let s := (List.range 4).foldl (fun s k => s.drainSec l (l.line + 32 * k)) s
    let s := ({ s with m := s.m.dropCopies l.ctx l.line 128 (· == l.who.core) } : State).clearL l
    let s := s.dropLease l.id
    match l.lrel with
    | some d => if s.lives l.who then s.deliver l.who.core l.who.slot l.who.tid (.v d) (if l.poisoned then 4 else 0) false else s
    | none => s

def execLeaseDrainComplete (id : Nat) (s : State) : Host.Outcome State Fault Refusal :=
  match s.m.leases.find? (·.id == id) with
  | some l => .next (s.leaseDrain l)
  | none => .next s

/-- Leases of threads or contexts that end: a held line drains, a request is withdrawn (R155). -/
def State.endLeases (s : State) (p : LeaseEnt → Bool) : State :=
  (s.m.leases.filter p).foldl (fun s l => match l.state with
    | .held => s.modLease l.id fun l => { l with state := .draining }
    | .draining => s
    | .sent | .waiting => ((s.clearL l).dropLease l.id).letGo l.who l.id) s

/-- Leases of a context that halts: a held line drains, a waiting request is withdrawn and issued again at resume (R155). -/
def State.haltLeases (s : State) (ctx : Nat) : State :=
  (s.m.leases.filter (·.ctx == ctx)).foldl (fun s l => match l.state with
    | .held => s.modLease l.id fun l => { l with state := .draining }
    | .waiting => (s.clearL l).modLease l.id fun l => { l with state := .sent, queued := none }
    | .sent => s.modLease l.id fun l => { l with queued := none }
    | .draining => s) s

def execLrel (h : Hdr) (d : Nat) (a : Reg) (s : State) : Host.Outcome State Fault Refusal :=
  threadOp (.lrel h d a) (fun e =>
    let va := e.pair a
    match e.plainAt va 1 .rmw with
    | .error c => .trap c 0 va false
    | .ok (ia, _, _) =>
      match e.s.leaseOf? e.who e.g.ctx (lineOf ia) with
      | none => .done (e.s.deliver e.g.core e.g.slot e.t.tid (.v d) 1 false)
      | some l =>
        let busy := e.mem.atoms.any (fun q => q.ctx == e.g.ctx && lineOf q.ia == l.line && q.lanes.any fun k => k.who.same e.who) ||
          e.mem.writes.any (fun w => w.ctx == e.g.ctx && lineOf w.ia == l.line && w.of e.who && (w.state != .leased l.id || w.ord == 0))
        if busy then .wait
        else .done ((e.s.modLease l.id fun l => { l with state := .draining, lrel := some d }).awaitV
          e.g.core e.g.slot e.t.tid l.id d 1)) s

def execLchk (h : Hdr) (d : Nat) (a : Reg) (s : State) : Host.Outcome State Fault Refusal :=
  threadOp (.lchk h d a) (fun e =>
    let va := e.pair a
    match e.plainAt va 1 .rmw with
    | .error c => .trap c 0 va false
    | .ok (ia, _, _) =>
      let v := match e.s.leaseOf? e.who e.g.ctx (lineOf ia) with
        | some l => l.expiry - e.s.now
        | none => 0
      .done (e.s.deliver e.g.core e.g.slot e.t.tid (.v d) (BitVec.ofNat 32 v) false)) s

end Sys2Proof.Machine
end

