-- ==== Sys2Proof/Machine/Control.lean ====
section
/-! DEFINITION. Control 0x080-0x08F (R93-R101), ordering 0x100-0x103 (R158-R168), convergence registers and barriers. -/

namespace Sys2Proof.Machine

/-! Convergence registers (R96, R97). -/

def kindIdent : RKind → Word
  | .add => 0
  | .minI => 0x7FFFFFFF
  | .maxI => 0x80000000
  | .minN => 0xFFFFFFFF
  | .maxN => 0
  | .and => 0xFFFFFFFF
  | .or => 0

def kindOp (k : RKind) (x y : Word) : Word :=
  match k with
  | .add => x + y
  | .minI => pickMin true x y
  | .maxI => pickMax true x y
  | .minN => pickMin false x y
  | .maxN => pickMax false x y
  | .and => x &&& y
  | .or => x ||| y

/-- Threads of the workgroup that have not exited. -/
def Workgroup.live (g : Workgroup) : Nat := (g.threads.filter fun t => t.run != .exited).length

def CReg.target (g : Workgroup) (c : CReg) : Nat := if c.cnt == 0 then g.live else c.cnt

def Thread.setConv (t : Thread) (n : Nat) (p : PSg) : Thread := { t with conv := t.conv.set n p }

/-- A join on c n ends: P clears, joinr receives RES, the thread goes on. -/
def Thread.joined (n : Nat) (res : Word) (t : Thread) : Thread :=
  match t.run with
  | .blocked (.join m d) =>
    if m != n then t
    else
      let t := (t.setConv n { (t.conv.getD n {}) with p := false }).past
      match d with
      | some k => t.setV k (.arrived res false)
      | none => t
  | _ => t

/-- complete(c). -/
def Workgroup.convDone (g : Workgroup) (n : Nat) : Workgroup :=
  let c := g.c.getD n {}
  { g with
    c := g.c.set n { c with res := c.acc, acc := kindIdent c.kind, arr := 0, gen := (c.gen + 1) % 32, done := c.done + 1 }
    threads := g.threads.map (Thread.joined n c.acc) }

def Workgroup.convTest (g : Workgroup) (n : Nat) : Workgroup :=
  let c := g.c.getD n {}
  if 0 < c.arr && decide (c.target g ≤ c.arr) then g.convDone n else g

/-- arrive(t, c, x). -/
def Workgroup.convArrive (g : Workgroup) (tid n : Nat) (x : Word) : Workgroup :=
  match g.thread? tid with
  | none => g
  | some t =>
    if (t.conv.getD n {}).p then g
    else
      let c := g.c.getD n {}
      let g := g.modThread tid fun t => t.setConv n { p := true, sg := c.gen }
      ({ g with c := g.c.set n { c with arr := c.arr + 1, acc := kindOp c.kind c.acc x } } : Workgroup).convTest n

/-- The thread's generation of c n has completed. -/
def Workgroup.convPassed (g : Workgroup) (tid n : Nat) : Bool :=
  match g.thread? tid with
  | none => false
  | some t => (g.c.getD n {}).gen != (t.conv.getD n {}).sg

/-- join and joinr: arrive, then wait for the completion. -/
def Env.joinOn (e : Env) (n : Nat) (x : Word) (d : Option Nat) : Res :=
  let g := e.g.convArrive e.t.tid n x
  let s := e.s.setWg g
  if g.convPassed e.t.tid n then
    let s := s.modThread e.g.core e.g.slot e.t.tid fun t => t.setConv n { (t.conv.getD n {}) with p := false }
    .done (e.giveV s d (g.c.getD n {}).res)
  else .block s (.join n d)

def execSign (h : Hdr) (cn : Nat) (s : State) : Host.Outcome State Fault Refusal :=
  threadOp (.sign h cn) (fun e => .done (e.s.setWg (e.g.convArrive e.t.tid cn (kindIdent (e.g.c.getD cn {}).kind)))) s

def execJoin (h : Hdr) (cn : Nat) (s : State) : Host.Outcome State Fault Refusal :=
  threadOp (.join h cn) (fun e => e.joinOn cn (kindIdent (e.g.c.getD cn {}).kind) none) s

def execJoinr (h : Hdr) (cn d : Nat) (a : Src) (s : State) : Host.Outcome State Fault Refusal :=
  threadOp (.joinr h cn d a) (fun e => e.joinOn cn (e.src a) (some d)) s

def execCdecl (h : Hdr) (cn : Nat) (kind : RKind) (a : Src) (s : State) : Host.Outcome State Fault Refusal :=
  threadOp (.cdecl h cn kind a) (fun e =>
    let c := e.g.c.getD cn {}
    let c := { c with cnt := min (e.src a).toNat 2048 }
    let c := if c.arr == 0 then { c with kind := kind, acc := kindIdent kind } else c
    .done (e.s.setWg (({ e.g with c := e.g.c.set cn c } : Workgroup).convTest cn))) s

/-! Workgroup barriers (R164, R166). -/

def BReg.target (g : Workgroup) (b : BReg) : Nat := if b.cnt == 0 then g.live else b.cnt

/-- A wait on b n ends. -/
def Thread.barPast (n : Nat) (t : Thread) : Thread :=
  if t.run == .blocked (.bar n true) then
    ({ t with bars := t.bars.modify n fun p => { p with p := false } } : Thread).past
  else t

def Workgroup.barDone (g : Workgroup) (n : Nat) : Workgroup :=
  let b := g.b.getD n {}
  { g with b := g.b.set n { b with arr := 0, gen := (b.gen + 1) % 32 }, threads := g.threads.map (Thread.barPast n) }

def Workgroup.barTest (g : Workgroup) (n : Nat) : Workgroup :=
  let b := g.b.getD n {}
  if 0 < b.arr && decide (b.target g ≤ b.arr) then g.barDone n else g

/-- The arrival is applied: one a thread and generation; the opening arrival sets the count. -/
def Workgroup.barArrive (g : Workgroup) (tid n : Nat) (x : Word) : Workgroup :=
  match g.thread? tid with
  | none => g
  | some t =>
    if (t.bars.getD n {}).p then g
    else
      let b := g.b.getD n {}
      let b := if b.arr == 0 then { b with cnt := min x.toNat 2048 } else b
      let g := g.modThread tid fun t => { t with bars := t.bars.set n { p := true, sg := b.gen } }
      ({ g with b := g.b.set n { b with arr := b.arr + 1 } } : Workgroup).barTest n

def Workgroup.barPassed (g : Workgroup) (tid n : Nat) : Bool :=
  match g.thread? tid with
  | none => false
  | some t => (t.bars.getD n {}).p && (g.b.getD n {}).gen != (t.bars.getD n {}).sg

/-! Cluster barriers (R167). -/

def clusterOf (core : Nat) : Nat := core / 4

def State.clbar (s : State) (ctx lid cl : Nat) : ClBar :=
  match s.y.clbars.find? fun b => b.ctx == ctx && b.lid == lid && b.cluster == cl with
  | some b => b
  | none => { ctx := ctx, lid := lid, cluster := cl, b := List.replicate 8 {} }

def State.setClbar (s : State) (c : ClBar) : State :=
  let other (b : ClBar) : Bool := !(b.ctx == c.ctx && b.lid == c.lid && b.cluster == c.cluster)
  { s with y := { s.y with clbars := s.y.clbars.filter other ++ [c] } }

def Workgroup.inCluster (ctx lid cl : Nat) (g : Workgroup) : Bool :=
  g.ctx == ctx && g.lid == lid && clusterOf g.core == cl

def State.clTarget (s : State) (c : ClBar) (b : BReg) : Nat :=
  if b.cnt == 0 then ((s.wgs.filter (Workgroup.inCluster c.ctx c.lid c.cluster)).map (·.live)).foldl (· + ·) 0 else b.cnt

def Thread.cbarPast (n : Nat) (t : Thread) : Thread :=
  if t.run == .blocked (.cbar n true) then
    ({ t with cbars := t.cbars.modify n fun p => { p with p := false } } : Thread).past
  else t

def State.cbarDone (s : State) (c : ClBar) (n : Nat) : State :=
  let b := c.b.getD n {}
  let s := s.setClbar { c with b := c.b.set n { b with arr := 0, gen := (b.gen + 1) % 32 } }
  { s with wgs := s.wgs.map fun g =>
      if g.inCluster c.ctx c.lid c.cluster then { g with threads := g.threads.map (Thread.cbarPast n) } else g }

def State.cbarTest (s : State) (ctx lid cl n : Nat) : State :=
  let c := s.clbar ctx lid cl
  let b := c.b.getD n {}
  if 0 < b.arr && decide (s.clTarget c b ≤ b.arr) then s.cbarDone c n else s

def State.cbarArrive (s : State) (core slot tid n : Nat) (x : Word) : State :=
  match s.wg? core slot with
  | none => s
  | some g =>
    match g.thread? tid with
    | none => s
    | some t =>
      if (t.cbars.getD n {}).p then s
      else
        let c := s.clbar g.ctx g.lid (clusterOf core)
        let b := c.b.getD n {}
        let b := if b.arr == 0 then { b with cnt := min x.toNat 32768 } else b
        let s := s.modThread core slot tid fun t => { t with cbars := t.cbars.set n { p := true, sg := b.gen } }
        (s.setClbar { c with b := c.b.set n { b with arr := b.arr + 1 } }).cbarTest g.ctx g.lid (clusterOf core) n

def State.cbarPassed (s : State) (core slot tid n : Nat) : Bool :=
  match s.wg? core slot with
  | none => false
  | some g =>
    match g.thread? tid with
    | none => false
    | some t => (t.cbars.getD n {}).p && ((s.clbar g.ctx g.lid (clusterOf core)).b.getD n {}).gen != (t.cbars.getD n {}).sg

/-- Cluster barriers of a launch on a cluster tested again, after a thread exits or a workgroup is placed. -/
def State.cbarAll (s : State) (ctx lid cl : Nat) (p : BReg → Bool) : State :=
  (List.range 8).foldl (fun s n => if p ((s.clbar ctx lid cl).b.getD n {}) then s.cbarTest ctx lid cl n else s) s

/-! Arrivals (R159, R166). -/

/-- An arrival is sent: it is applied once its release is complete. -/
def Env.sendArrival (e : Env) (cluster : Bool) (b : Nat) (n : Word) (sc : Scope) (sync : Bool) : State :=
  e.s.modThread e.g.core e.g.slot e.t.tid fun t =>
    { t with arrivals := t.arrivals ++ [{ cluster := cluster, b := b, n := n, ids := e.releaseIds sc, till := e.t.lastW, sync := sync }] }

/-- BARRIER_ARRIVAL_APPLY (R166, R167). -/
def execBarrierArrivalApply (core slot tid : Nat) (s : State) : Host.Outcome State Fault Refusal :=
  match s.thread? core slot tid with
  | none => .next s
  | some t =>
    match t.arrivals with
    | [] => .next s
    | a :: rest =>
      let stopped := match s.wg? core slot with
        | some g => !(s.ctx g.ctx).runs
        | none => true
      if stopped || s.anyOutstanding a.ids || decide (s.now < a.till) then .next s
      else
        let s := s.modThread core slot tid fun t => { t with arrivals := rest }
        if a.cluster then
          let s := s.cbarArrive core slot tid a.b a.n
          if !a.sync then .next s
          else
            let s := s.modThread core slot tid fun t =>
              if t.run == .blocked (.cbar a.b false) then { t with run := .blocked (.cbar a.b true) } else t
            .next (if s.cbarPassed core slot tid a.b then s.modThread core slot tid (Thread.cbarPast a.b) else s)
        else
          let s := s.modWg core slot fun g => g.barArrive tid a.b a.n
          if !a.sync then .next s
          else .next (s.modWg core slot fun g =>
            let g := g.modThread tid fun t =>
              if t.run == .blocked (.bar a.b false) then { t with run := .blocked (.bar a.b true) } else t
            if g.barPassed tid a.b then g.modThread tid (Thread.barPast a.b) else g)

def execBarSync (h : Hdr) (sc : Scope) (bn : Nat) (a : Src) (s : State) : Host.Outcome State Fault Refusal :=
  threadOp (.barSync h sc bn a) (fun e => .block (e.sendArrival false bn (e.src a) sc true) (.bar bn false)) s

def execBarArrive (h : Hdr) (sc : Scope) (bn : Nat) (a : Src) (s : State) : Host.Outcome State Fault Refusal :=
  threadOp (.barArrive h sc bn a) (fun e => .done (e.sendArrival false bn (e.src a) sc false)) s

def execBarWait (h : Hdr) (sc : Scope) (bn : Nat) (s : State) : Host.Outcome State Fault Refusal :=
  threadOp (.barWait h sc bn) (fun e =>
    if e.g.barPassed e.t.tid bn then
      .done (e.s.modThread e.g.core e.g.slot e.t.tid fun t => { t with bars := t.bars.modify bn fun p => { p with p := false } })
    else .block e.s (.bar bn true)) s

/-- The scope of a cbar as a memory scope. -/
def scopeOfC : CScope → Scope
  | .cl => .cl
  | .die => .die
  | .dev => .dev
  | .sys => .sys

def execCbarSync (h : Hdr) (sc : CScope) (bn : Nat) (a : Src) (s : State) : Host.Outcome State Fault Refusal :=
  threadOp (.cbarSync h sc bn a) (fun e => .block (e.sendArrival true bn (e.src a) (scopeOfC sc) true) (.cbar bn false)) s

def execCbarArrive (h : Hdr) (sc : CScope) (bn : Nat) (a : Src) (s : State) : Host.Outcome State Fault Refusal :=
  threadOp (.cbarArrive h sc bn a) (fun e => .done (e.sendArrival true bn (e.src a) (scopeOfC sc) false)) s

def execCbarWait (h : Hdr) (sc : CScope) (bn : Nat) (s : State) : Host.Outcome State Fault Refusal :=
  threadOp (.cbarWait h sc bn) (fun e =>
    if e.s.cbarPassed e.g.core e.g.slot e.t.tid bn then
      .done (e.s.modThread e.g.core e.g.slot e.t.tid fun t => { t with cbars := t.cbars.modify bn fun p => { p with p := false } })
    else .block e.s (.cbar bn true)) s

/-! Fences (R162, R163, R315). -/

/-- What a fence holds, and what it waits for. -/
def Env.fenceHolds (e : Env) (kind : FKind) (sc : Scope) : List Hold :=
  let acq := e.mem.acquireIds e.who
  let rel := e.releaseIds sc
  match kind with
  | .acq => [⟨true, true, acq, 0⟩]
  | .rel => [⟨false, true, rel, e.t.lastW⟩]
  | .ar => [⟨true, true, acq, 0⟩, ⟨false, true, rel, e.t.lastW⟩]
  | .sc => [⟨true, true, acq ++ rel, e.t.lastW⟩]

def execFence (h : Hdr) (kind : FKind) (sc : Scope) (s : State) : Host.Outcome State Fault Refusal :=
  threadOp (.fence h kind sc) (fun e =>
    .done (e.s.modThread e.g.core e.g.slot e.t.tid fun t =>
      { t with holds := t.holds.filter (fun h => e.s.anyOutstanding h.ids || decide (e.s.now < h.till)) ++ e.fenceHolds kind sc })) s

/-- Every earlier command of the thread has been accepted (R168). -/
def State.accepted (s : State) (core slot uid tid : Nat) : Bool :=
  (s.e.cmds.all fun c => !(c.core == core && c.slot == slot && c.uid == uid && c.tid == tid) || c.state == .accepted) &&
  s.m.reads.all fun r => !(r.who.core == core && r.who.slot == slot && r.who.uid == uid && r.who.tid == tid) ||
    match r.kind with
    | .vset _ _ => false
    | _ => true

def execEfence (h : Hdr) (s : State) : Host.Outcome State Fault Refusal :=
  threadOp (.efence h) (fun e => if e.s.accepted e.g.core e.g.slot e.g.uid e.t.tid then .done e.s else .block e.s .efence) s

/-! Transfers (R94, R95). -/

/-- Displacement of bra and call: IMM28 words. -/
def disp (imm : Nat) : DWord := (BitVec.ofNat 28 imm).signExtend 64 * 8

def execNop (h : Hdr) (s : State) : Host.Outcome State Fault Refusal := threadOp (.nop h) (fun e => .done e.s) s

def execBra (h : Hdr) (imm : Nat) (s : State) : Host.Outcome State Fault Refusal :=
  threadOp (.bra h imm) (fun e => .jump e.s (e.t.pc + disp imm)) s

/-- A computed target must be a word address (R94). -/
def Env.jumpTo (e : Env) (t : DWord) : Res := if t.toNat % 8 != 0 then .trap 3 0 t false else .jump e.s t

def execBrx (h : Hdr) (a : Reg) (b : Src) (s : State) : Host.Outcome State Fault Refusal :=
  threadOp (.brx h a b) (fun e => e.jumpTo (e.ea a b)) s

def execCall (h : Hdr) (d imm : Nat) (s : State) : Host.Outcome State Fault Refusal :=
  threadOp (.call h d imm) (fun e =>
    .jump (e.s.deliverN e.g.core e.g.slot e.t.tid (.v d) 2 (e.t.pc + 8).toNat false) (e.t.pc + disp imm)) s

def execRet (h : Hdr) (a : Reg) (s : State) : Host.Outcome State Fault Refusal :=
  threadOp (.ret h a) (fun e => e.jumpTo (e.pair a)) s

/-- What an exit does to the registers the thread signed (R97, R166). DESIGN CHOICE: where ARR is 0, as after GEN has come
round to SG again, ARR - 1 is 0 (log 63). -/
def Workgroup.exitSigns (g : Workgroup) (t : Thread) : Workgroup :=
  let takeC (q : CReg × Nat) : CReg :=
    let p := t.conv.getD q.2 {}
    if p.p && p.sg == q.1.gen then { q.1 with arr := q.1.arr - 1 } else q.1
  let takeB (q : BReg × Nat) : BReg :=
    let p := t.bars.getD q.2 {}
    if p.p && p.sg == q.1.gen then { q.1 with arr := q.1.arr - 1 } else q.1
  let g := { g with c := g.c.zipIdx.map takeC, b := g.b.zipIdx.map takeB }
  let g := (List.range 16).foldl (fun g n => if (g.c.getD n {}).cnt == 0 then g.convTest n else g) g
  (List.range 16).foldl Workgroup.barTest g

/-- The same for the launch's cluster barriers (R167). -/
def State.exitCluster (s : State) (g : Workgroup) (t : Thread) : State :=
  let c := s.clbar g.ctx g.lid (clusterOf g.core)
  let takeB (q : BReg × Nat) : BReg :=
    let p := t.cbars.getD q.2 {}
    if p.p && p.sg == q.1.gen then { q.1 with arr := q.1.arr - 1 } else q.1
  let c := { c with b := c.b.zipIdx.map takeB }
  (s.setClbar c).cbarAll g.ctx g.lid (clusterOf g.core) fun _ => true

/-- A thread ends (R95): its signs, its leases. -/
def State.exitThread (s : State) (g : Workgroup) (t : Thread) : State :=
  let s := s.modThread g.core g.slot t.tid fun t => { t with run := .exited }
  let s := s.modWg g.core g.slot fun g => g.exitSigns t
  let s := s.exitCluster g t
  s.endLeases fun l => l.who.core == g.core && l.who.slot == g.slot && l.who.tid == t.tid && l.who.uid == g.uid

def execExit (h : Hdr) (s : State) : Host.Outcome State Fault Refusal :=
  threadOp (.exit h) (fun e =>
    let s := e.s.modThread e.g.core e.g.slot e.t.tid fun t => t.retire e.s.now h.stall t.pc
    .ended (s.exitThread e.g e.t)) s

/-! Scheduling, traps and code coherence (R97, R99, R101). -/

def execYield (h : Hdr) (s : State) : Host.Outcome State Fault Refusal :=
  threadOp (.yield h) (fun e => .done (e.s.modThread e.g.core e.g.slot e.t.tid fun t => { t with yieldLeft := 66 })) s

/-- YIELD_EXPIRY: 64 runnable cycles have passed. -/
def execYieldExpiry (core slot tid : Nat) (s : State) : Host.Outcome State Fault Refusal :=
  .next (s.modThread core slot tid fun t => if t.yieldLeft == 1 then { t with yieldLeft := 0 } else t)

def execSleep (h : Hdr) (a : Src) (s : State) : Host.Outcome State Fault Refusal :=
  threadOp (.sleep h a) (fun e =>
    let n := min (e.src a).toNat 16777215
    if n == 0 then .done e.s
    else .block (e.s.modThread e.g.core e.g.slot e.t.tid fun t => { t with sleep := n }) (.sleep 0)) s

/-- SLEEP_EXPIRY: the count is used up; a halted thread sleeps on, and one whose state line is in its image awaits that
(R97, R252). -/
def execSleepExpiry (core slot tid : Nat) (s : State) : Host.Outcome State Fault Refusal :=
  let runs := match s.wg? core slot with
    | some g => (s.ctx g.ctx).runs
    | none => false
  .next (if !runs then s else s.modThread core slot tid fun t =>
    match t.run with
    | .blocked (.sleep _) => if t.resident && t.sleep == 0 then t.past else t
    | _ => t)

def execBrk (h : Hdr) (code : Nat) (s : State) : Host.Outcome State Fault Refusal :=
  threadOp (.brk h code) (fun _ => .trap 6 (BitVec.ofNat 32 code) 0 true) s

def execTrap (h : Hdr) (a : Src) (s : State) : Host.Outcome State Fault Refusal :=
  threadOp (.trap h a) (fun e => .trap 7 (e.src a) 0 true) s

def execIsync (h : Hdr) (s : State) : Host.Outcome State Fault Refusal :=
  threadOp (.isync h) (fun e =>
    if e.t.icinvs.all fun k => e.mem.icinv.all (·.id != k) then
      .done (e.s.modThread e.g.core e.g.slot e.t.tid fun t => { t with fbuf := [], icinvs := [] })
    else .block e.s .isync) s

def execIcinv (h : Hdr) (sc : Scope) (a : Reg) (b : Src) (s : State) : Host.Outcome State Fault Refusal :=
  threadOp (.icinv h sc a b) (fun e =>
    let va := e.ea a b
    match e.ctx.match? va with
    | none => .done e.s
    | some r =>
      let q : IcInv := { id := e.s.nextId, ctx := e.g.ctx, line := lineOf (r.ia va),
                         cores := (List.range 256).filter (coresIn sc e.g.core) }
      let s := e.s.fresh
      let s := { s with m := { s.m with icinv := s.m.icinv ++ [q] } }
      .done (s.modThread e.g.core e.g.slot e.t.tid fun t => { t with icinvs := t.icinvs ++ [q.id] })) s

/-- ICINV_COMPLETE: the line has left every instruction cache in scope. -/
def execIcinvComplete (id : Nat) (s : State) : Host.Outcome State Fault Refusal :=
  match s.m.icinv.find? (·.id == id) with
  | none => .next s
  | some q =>
    .next { s with m := { s.m with
      icinv := s.m.icinv.filter (·.id != id)
      icache := s.m.icache.filter fun l => !(l.ctx == q.ctx && l.line == q.line && q.cores.contains l.core) } }

end Sys2Proof.Machine
end

