-- ==== Sys2Proof/Machine/Views.lean ====
section
/-! DEFINITION. The view instructions 0x0C0-0x0C4 (R142-R144) and the checks of a descriptor (R129, R132, R143). -/

namespace Sys2Proof.Machine

namespace View

def dims (_ : View) : List Nat := List.range 6

/-- Fields of the interleave before the first 7 (R131). -/
def weaveFields (v : View) : List Nat :=
  ((List.range 21).map fun n => fld v.interleave (3 * n) 3).takeWhile (· != 7)

/-- log2 of 32/E. -/
def secBits (v : View) : Nat := 5 - v.esz

/-- Elements of a sector, 32/E. -/
def secElems (v : View) : Nat := 2 ^ v.secBits

/-- Status 1: a reserved field, kind or rank (R143). -/
def reservedBad (v : View) : Bool :=
  v.flagsHi != 0 || v.reserved != 0 || v.permHi != 0 || v.tileHi != 0 || (v.kind == 2 && v.interleave / 2 ^ 63 == 1) ||
  4 ≤ v.kind || v.rank == 0 || v.rank == 7

/-- The interleave breaks a rule of R131 or R132. -/
def weaveBad (v : View) : Bool :=
  let f := v.weaveFields
  let rest := ((List.range 21).map fun n => fld v.interleave (3 * n) 3).drop f.length
  rest.any (· != 7) || f.any (fun b => decide (v.rank ≤ b)) || decide (f.length < v.secBits) ||
  (f.take v.secBits).any (· != 0) || (List.range v.rank).any fun b => decide (28 < f.count b)

/-- Status 2: the shape rules (R132, R143). -/
def shapeBad (v : View) : Bool :=
  let r := v.rank
  (List.range r).any (fun d => v.ext.getD d 0 == 0) ||
  (List.range r).any (fun d => !(v.perm.take r).contains d) ||
  v.dims.any (fun d => decide (r ≤ d) && (v.ext.getD d 0 != 0 || v.padl.getD d 0 != 0 || v.perm.getD d 0 != 0 ||
    v.stride.getD d 0 != 0 || v.tile.getD d 0 != 0)) ||
  (v.kind != 1 && v.tile.any (· != 0)) || (v.kind != 2 && v.interleave != 0) ||
  (if v.kind == 3 then v.gatherDim == 0 || decide (r ≤ v.gatherDim) || v.indexSize == 0 || decide (3 < v.indexSize)
   else v.gatherIa != 0 || v.gatherDim != 0 || v.indexSize != 0) ||
  (v.kind == 2 && v.weaveBad)

/-- Status 3: the address rules (R132, R143). -/
def addressBad (v : View) (c : Context) : Bool :=
  let st := v.stride.take v.rank
  let u := v.secElems
  v.baseIa % 32 != 0 || v.baseIa / 2 ^ 52 != 0 || v.shadow % 2 ^ 21 != 0 || v.shadow / 2 ^ 52 != 0 ||
  (v.kind == 3 && (v.gatherIa % 2 ^ v.indexSize != 0 || v.gatherIa / 2 ^ 52 != 0)) ||
  (if v.kind == 0 || v.kind == 3 then st.headD 0 != 1 || (st.drop 1).any (fun x => x % u != 0)
   else st.any (fun x => x % u != 0)) ||
  (v.kind == 1 && 2 ^ v.tile.headD 0 * v.elem % 32 != 0) ||
  !c.inAperture v.shadow || !c.inAperture (v.shadow + v.size - 1)

/-- Window of an IA, by number. -/
def winOf (c : Context) (ia : Nat) : Option Nat := (c.window? ia).map (·.n)

/-- The index vector lies in the base's window, or outside every window as the base does (R132, R143). -/
def vectorBad (v : View) (c : Context) : Bool :=
  let lo := v.gatherIa
  let hi := lo + v.ext.getD v.gatherDim 0 * 2 ^ v.indexSize
  match c.window? v.baseIa with
  | some w => !(decide (w.lia ≤ lo) && decide (hi ≤ w.lia + w.size))
  | none => c.windows.any fun w =>
      (decide (w.lia < hi) && decide (lo < w.lia + w.size)) || decide (w.lia + 2 ^ 52 < hi)

/-- Status of a descriptor for a slot: the lowest applicable (R143). DESIGN CHOICE: that holds while NONE = 1 too, where a
malformed descriptor gives 1 or 2 and every other one 3 (R127, log 73). -/
def status (v : View) (c : Context) (slot : Nat) : Nat :=
  if v.reservedBad then 1
  else if v.shapeBad then 2
  else if v.addressBad c then 3
  else if c.vw.zipIdx.any fun q => q.2 != slot && match q.1 with
      | some d => decide ((viewOf d).shadow < v.shadow + v.size) && decide (v.shadow < (viewOf d).shadow + (viewOf d).size)
      | none => false
    then 4
  else if ((winOf c v.baseIa).isSome && v.writable) || (v.kind == 3 && v.vectorBad c) then 5
  else 0

end View

/-- What a read of a block of bytes sends: the bytes, the homes of their sectors, whether they lie behind a view, and for a
remote one its window and whether it gathers (R141). -/
structure Block where
  bytes : List BSrc
  homeOf : Nat → Nat
  view : Bool
  far : Option Nat := none
  gather : Bool := false

/-- Base bytes of 128 aligned shadow bytes, and the state after their index elements have been read; a byte outside the
view is an access fault (R130). -/
def Env.shadowBlock (e : Env) (v : View) (va : DWord) (off : Nat) : Except Res (State × Block) :=
  if v.size < off + 128 then .error (.trap 4 0 va false)
  else if v.remote then
    match e.ctx.window? v.baseIa with
    | none => .error (.trap 4 0 va false)
    | some w =>
      if w.rt / 2 % 2 == 0 then .error (.trap 4 0 va false)
      else .ok (e.s, ⟨v.farBytes e.s.nextId off 128, fun _ => 0, true, some w.n, v.usesGather⟩)
  else match e.gather false v va off 128 with
    | .error r => .error r
    | .ok (s, ix) =>
      let bytes := v.map ix off 128
      if e.ctx.unbackedAny bytes then .error (.trap 4 0 va false)
      else if ({ e with s := s } : Env).tested bytes then .error (.waitIn s)
      else .ok (s, { bytes := bytes, homeOf := e.ctx.homeOf, view := true })

/-- The 128 bytes that vset and launch read, at a 128-byte aligned address. -/
def Env.block128 (e : Env) (va : DWord) : Except Res (State × Block) :=
  match e.locate va 128 .read with
  | .access => .error (.trap 4 0 va false)
  | .misaligned => .error (.trap 3 0 va false)
  | .plain ia home _ =>
    let bytes := (List.range 128).map fun k => BSrc.mem (ia + k)
    if e.tested bytes then .error .wait else .ok (e.s, { bytes := bytes, homeOf := fun _ => home, view := false })
  | .shadow _ v off => e.shadowBlock v va off

/-- The read of such a block, whose status the card's D awaits. -/
def Env.sendBlock (e : Env) (s : State) (va : DWord) (kind : RKindReq) (sc : Scope) (d : Option Nat) (b : Block) : State :=
  let s' := ({ e with s := s } : Env).sendLoad va kind .dflt sc b.bytes b.homeOf b.view true b.far b.gather
  match d with
  | some n => s'.awaitV e.g.core e.g.slot e.t.tid s.nextId n 1
  | none => s'

/-- vset sends the read of the descriptor (R143); what follows in the thread waits for it. DESIGN CHOICE: the read has the
default hint and a composed return, so the home slice keeps its sectors and the sector cache does not (log 74). -/
def Env.vset (e : Env) (slot : Nat) (d : Option Nat) (a : Reg) (b : Src) : Res :=
  let va := e.ea a b
  match e.block128 va with
  | .error r => r
  | .ok (s, q) => .done ((e.sendBlock s va (.vset slot d) .wg d q).modThread e.g.core e.g.slot e.t.tid fun t =>
      { t with holds := t.holds ++ [{ loads := true, others := true, ids := [s.nextId], till := 0 }] })

def execVset (h : Hdr) (slot : Nat) (d : Option Nat) (a : Reg) (b : Src) (s : State) : Host.Outcome State Fault Refusal :=
  threadOp (.vset h slot d a b) (fun e => e.vset slot d a b) s

/-- An earlier vset of the same instruction has not returned: threads install in ascending order (R143). -/
def State.vsetBefore (s : State) (r : RReq) : Bool :=
  s.m.reads.any fun x => decide (x.id < r.id) && x.who.core == r.who.core && x.who.slot == r.who.slot && x.who.pc == r.who.pc &&
    match x.kind with
    | .vset _ _ => true
    | _ => false

/-- The descriptor has been read: its status, and the slot installed (R143). -/
def State.finishVset (s : State) (r : RReq) (slot : Nat) (d : Option Nat) : State :=
  let bs := r.bytes.map r.byteOf
  if bs.any (·.2) then s.failRead r 5 ((secsOf r.bytes).headD 0)
  else
    let n := leNat (bs.map (·.1))
    let c := s.ctx r.ctx
    let v := viewOf (BitVec.ofNat 1024 n)
    let st := v.status c slot
    let remote := (View.winOf c v.baseIa).isSome
    let n' := n - fld n 73 1 * 2 ^ 73 + (if remote then 2 ^ 73 else 0)
    let s := (s.dropRead r.id).letGo r.who r.id
    let s := if st == 0 then s.setCtx r.ctx { c with vw := c.vw.set slot (some (BitVec.ofNat 1024 n')) } else s
    match d with
    | some k => if s.lives r.who then s.deliver r.who.core r.who.slot r.who.tid (.v k) (BitVec.ofNat 32 st) false else s
    | none => s

def execVclr (h : Hdr) (slot : Nat) (s : State) : Host.Outcome State Fault Refusal :=
  threadOp (.vclr h slot) (fun e => .done (e.s.setCtx e.g.ctx { e.ctx with vw := e.ctx.vw.set slot none })) s

def execVqry (h : Hdr) (slot d : Nat) (a : Src) (s : State) : Host.Outcome State Fault Refusal :=
  threadOp (.vqry h slot d a) (fun e =>
    let x := match e.ctx.vw.getD slot none with
      | some b => fld b.toNat (32 * ((e.src a).toNat % 32)) 32
      | none => 0
    .done (e.s.deliver e.g.core e.g.slot e.t.tid (.v d) (BitVec.ofNat 32 x) false)) s

def execVfill (h : Hdr) (slot : Nat) (a : Src) (s : State) : Host.Outcome State Fault Refusal :=
  threadOp (.vfill h slot a) (fun e =>
    match e.ctx.vw.getD slot none with
    | none => .done e.s
    | some b =>
      let n := b.toNat - fld b.toNat 96 32 * 2 ^ 96 + (e.src a).toNat * 2 ^ 96
      .done (e.s.setCtx e.g.ctx { e.ctx with vw := e.ctx.vw.set slot (some (BitVec.ofNat 1024 n)) })) s

def execVaddrIa (h : Hdr) (d a : Reg) (b : Src) (s : State) : Host.Outcome State Fault Refusal :=
  threadOp (.vaddrIa h d a b) (fun e =>
    let va := e.ea a b
    match e.ctx.match? va with
    | some r =>
      if r.rd || r.w || r.x then .done (e.s.deliverN e.g.core e.g.slot e.t.tid d 2 (r.ia va) false) else .trap 4 0 va false
    | none => .trap 4 0 va false) s

def execVaddrVa (h : Hdr) (d a : Reg) (b : Src) (s : State) : Host.Outcome State Fault Refusal :=
  threadOp (.vaddrVa h d a b) (fun e =>
    let x := (e.ea a b).toNat % 2 ^ 52
    match (e.ctx.rg.filterMap rangeOf).find? fun r => decide (r.off ≤ x) && decide (x < r.off + (r.limit - r.base)) with
    | none => .trap 4 0 (e.ea a b) false
    | some r =>
      let va : DWord := (BitVec.ofNat 57 (x - r.off + r.base)).signExtend 64
      .done (e.s.deliverN e.g.core e.g.slot e.t.tid d 2 va.toNat false)) s

end Sys2Proof.Machine
end

