-- ==== Sys2Proof/Machine/Directory.lean ====
section
/-! DEFINITION. Steps of the cross-die directory, of visitor slices and of the host (R172, R282-R293). -/

namespace Sys2Proof.Machine

/-- Directory set of a line: home slice and IA[16:7] (R283). -/
def DirEnt.sameSet (home line : Nat) (e : DirEnt) : Bool :=
  e.home == home && sliceOf e.line == sliceOf line && fld e.line 7 10 == fld line 7 10

/-- Ways in use: sys.sfways limits them, 0 means all sixteen (R264, R283). -/
def Dev.ways (y : Dev) : Nat :=
  let n := y.sfways.toNat % 16
  if n == 0 then 16 else n

/-- The least recently used entry of a set that is neither transient nor marked L (R283). -/
def lruDir (l : List DirEnt) : Option DirEnt :=
  (l.filter fun e => e.trans.isNone && !e.l).foldl (fun a e => match a with
    | none => some e
    | some b => if e.used < b.used then some e else a) none

/-- Room for a new entry in its set, or the victim that makes it (R283); none where every way is transient or leased, or a
victim is on its way out already. -/
def State.dirRoom (s : State) (home line : Nat) : Except (Option DirEnt) Unit :=
  let l := s.m.dir.filter (DirEnt.sameSet home line)
  let leaving := l.any fun e => match e.trans with
    | some t => t.kind == .victim
    | none => false
  if l.length < s.y.ways then .ok () else .error (if leaving then none else lruDir l)

/-- A victim is back-invalidated; the request that needs its entry waits. -/
def State.evictDir (s : State) (v : DirEnt) : State :=
  let s := s.askHost v.ctx v.line 2
  s.setDir { v with trans := some { kind := .victim, tell := v.copies, told := [], acks := []
                                    host := (s.snoop? v.ctx v.line).isSome } }

def State.addDir (s : State) (e : DirEnt) : State :=
  { s with m := { s.m with dir := s.m.dir ++ [{ e with used := s.now }] } }

def newDir (ctx line home : Nat) (st : DState) : DirEnt :=
  { ctx := ctx, line := line, home := home, st := st, l := false, hb := false, sh := [], own := 0, used := 0, trans := none }

/-- A die's core waits to read the line. -/
def State.wantsRead (s : State) (ctx line die : Nat) : Option Nat :=
  (s.m.reads.filterMap fun r =>
    if r.ctx == ctx && dieOf r.who.core == die then
      (r.secs.find? fun x => x.got.isNone && x.retry == 0 && lineOf x.ia == line && x.home != die).map (·.home)
    else none).head?

/-- A die's core waits to write the line, or to lease it. -/
def State.wantsWrite (s : State) (ctx line die : Nat) : Option (Nat × Bool) :=
  match s.m.leases.find? fun l => l.state == .waiting && l.ctx == ctx && l.line == line && dieOf l.who.core == die &&
      l.home != die with
  | some l => some (l.home, true)
  | none =>
    (s.m.writes.find? fun w => w.kind.plain && w.kind != .pzap && w.state.canArrive && w.ctx == ctx && lineOf w.ia == line &&
      dieOf w.who.core == die && w.home != die && s.mayGo w).map fun w => (w.home, false)

/-- The home may answer: page mapped to device memory, access allowed, no host owner. -/
def State.homeMay (s : State) (ctx line home : Nat) : Bool :=
  (s.y.dies.getD home {}).st == .running && match s.xlate home ctx line with
    | .ok x => !x.hst
    | _ => false

/-! Requests of other dies at the home (R285). -/

def DirReq.isFor (q : DirReq) (ctx line die : Nat) (ex : Bool) : Bool :=
  q.ctx == ctx && q.line == line && q.die == die && q.ex == ex

def State.setDirq (s : State) (f : List DirReq → List DirReq) : State := { s with m := { s.m with dirq := f s.m.dirq } }

/-- The request has been served, or nothing wants it any more. -/
def State.dropReq (s : State) (ctx line die : Nat) (ex : Bool) : State :=
  s.setDirq fun l => l.filter fun q => !q.isFor ctx line die ex

/-- A transient entry, an entry marked L, a lease of the home die, or an earlier request on the line (R155, R285). -/
def State.dirBusy (s : State) (ctx line home : Nat) (place : Option Nat) : Option Nat :=
  match s.leasedAt? home ctx line with
  | some l => some (l.expiry - s.now)
  | none =>
    let held := match s.dir? ctx line with
      | some e => e.trans.isSome || e.l
      | none => false
    let before := (s.placesOn home ctx line).any fun q => match place with
      | some p => decide (q < p)
      | none => true
    if held || before then some 0 else none

/-- It waits in the slice's lease queue in arrival order, or is turned away with a retry-after hint (R155, R285). -/
def State.dirWait (s : State) (ctx line home die : Nat) (ex : Bool) (left : Nat) : State :=
  let old := s.m.dirq.find? (·.isFor ctx line die ex)
  if (old.bind (·.place)).isSome then s
  else
    let room := s.queueLen home line < 64
    let q : DirReq := { ctx := ctx, line := line, home := home, die := die, ex := ex
                        place := if room then some s.nextId else none
                        retry := if room then 0 else s.now + max (sliceCycles 64) left
                        id := (old.map (·.id)).getD s.nextId }
    (s.dropReq ctx line die ex).fresh.setDirq (· ++ [q])

/-- It waits for the memory controller of the line (R249). -/
def State.dirHold (s : State) (ctx line home die : Nat) (ex : Bool) (x : Xl) : State :=
  match s.m.dirq.find? (·.isFor ctx line die ex) with
  | some q => s.lineKeep home q.id ctx line x
  | none =>
    let q : DirReq := { ctx := ctx, line := line, home := home, die := die, ex := ex, place := none, retry := 0, id := s.nextId }
    (s.fresh.setDirq (· ++ [q])).lineKeep home q.id ctx line x

/-- The home slice supplies the data: no die owns the line (R285). -/
def State.fromHome (s : State) (ctx line : Nat) : Bool :=
  match s.dir? ctx line with
  | some e => e.st == .i || e.st == .s
  | none => true

/-- The slice of the requesting die has room for the line (R9). -/
def State.dirSeat (s : State) (ctx line die : Nat) : Option State :=
  match s.dir? ctx line with
  | some e => if e.takes die then some s else s.lineRoom die line
  | none => s.lineRoom die line

/-- A request of die d that has reached its home: served, set going, or made to wait. -/
def State.dirRequest (s : State) (ctx line home die : Nat) (ex : Bool) (serve : State → Except State State) : State :=
  let q := s.m.dirq.find? (·.isFor ctx line die ex)
  let early := match q with
    | some q => decide (s.now < q.retry)
    | none => false
  if early || !s.homeMay ctx line home then s
  else match s.dirBusy ctx line home (q.bind (·.place)), s.xlate home ctx line with
    | some left, _ => s.dirWait ctx line home die ex left
    | none, .ok x =>
      if s.fromHome ctx line && s.lineDram home ((q.map (·.id)).getD 0) ctx line x then s.dirHold ctx line home die ex x
      else match s.dirSeat ctx line die with
        | none => s
        | some s => match serve s with
          | .ok s => s.dropReq ctx line die ex
          | .error s => s
    | none, _ => s

/-- A new entry, when the set has room; else the set loses a victim and the request waits (R283). -/
def State.newEntry (s : State) (home line : Nat) (e : DirEnt) : Except State State :=
  match s.dirRoom home line with
  | .ok () => .ok (s.addDir e)
  | .error (some v) => .error (s.evictDir v)
  | .error none => .error s

/-- DIR_RDS (R285). -/
def execDirRds (ctx line die : Nat) (s : State) : Host.Outcome State Fault Refusal :=
  match s.wantsRead ctx line die with
  | none => .next (s.dropReq ctx line die false)
  | some home =>
    let owned := match s.snoop? ctx line with
      | some h => h.owned
      | none => false
    if owned then .next (if s.homeMay ctx line home then s.askHost ctx line 1 else s)
    else
      let serve (s : State) : Except State State :=
        match s.dir? ctx line with
        | none =>
          if !s.m.quietLine ctx line then .error s
          else s.newEntry home line { newDir ctx line home .e with own := die }
        | some e => match e.st with
          | .i => if s.m.quietLine ctx line then .ok (s.setDir { e with st := .e, own := die, used := s.now }) else .error s
          | .s => .ok (s.setDir { e with sh := nsInsert die e.sh, used := s.now })
          | .e | .m | .o =>
            if e.holds die then .ok s
            else .ok (s.setDir { e with trans := some { kind := .rds die, tell := [e.own], told := [], acks := [], host := false } })
      .next (s.dirRequest ctx line home die false serve)

/-- DIR_RDX, and the request marked for lease (R285, R286). -/
def execDirRdx (ctx line die : Nat) (s : State) : Host.Outcome State Fault Refusal :=
  match s.wantsWrite ctx line die with
  | none => .next (s.dropReq ctx line die true)
  | some (home, lease) =>
    if (s.snoop? ctx line).isSome then .next (if s.homeMay ctx line home then s.askHost ctx line 2 else s)
    else
      let own : Bool := match s.dir? ctx line with
        | some e => e.trans == some { kind := .rdx die lease, tell := [], told := [], acks := [], host := false }
        | none => false
      if own then .next (s.dirTry ctx line)
      else
        let serve (s : State) : Except State State :=
          match s.dir? ctx line with
          | none =>
            if !s.m.quietLine ctx line || !s.tenLine home home ctx line then .error s
            else s.newEntry home line { newDir ctx line home .m with own := die, l := lease }
          | some e =>
            let others := e.copies.filter (· != die)
            let t : DTrans := { kind := .rdx die lease, tell := others, told := [], acks := [], host := false }
            .ok ((s.setDir { e with trans := some t }).dirTry ctx line)
        .next (s.dirRequest ctx line home die true serve)

/-- Another line is in the slice of the visiting die (R308). -/
def State.crowded (s : State) (die ctx line : Nat) : Bool :=
  s.m.l2.any (fun e => e.home == die && sliceOf e.ia == sliceOf line) ||
  s.m.dir.any fun x => x.home != die && x.holds die && sliceOf x.line == sliceOf line && !(x.ctx == ctx && x.line == line)

/-- Conditions of an eviction by the owner: no transition, no lease, tenures ended, writes complete. DEDUCED: a slice makes
room for another line only, so one that has no other gives up nothing (R310, log 78). -/
def State.mayEvict (s : State) (e : DirEnt) : Bool :=
  s.crowded e.own e.ctx e.line && e.trans.isNone && !e.l && s.tenLine e.home e.own e.ctx e.line && s.m.quietLine e.ctx e.line

/-- DIR_WRITEBACK: the owner evicts a modified line. -/
def execDirWriteback (ctx line : Nat) (s : State) : Host.Outcome State Fault Refusal :=
  match s.dir? ctx line with
  | none => .next s
  | some e =>
    if !s.mayEvict e then .next s
    else match e.st with
      | .m => .next (s.toI e)
      | .o => .next (if e.sh.isEmpty then s.toI e else s.setDir { e with st := .s })
      | _ => .next s

/-- DIR_WRITEBACK_KEEP: the owner writes back and keeps a clean copy. -/
def execDirWritebackKeep (ctx line : Nat) (s : State) : Host.Outcome State Fault Refusal :=
  match s.dir? ctx line with
  | some e => .next (if e.trans.isNone && !e.l && s.m.quietLine ctx line then s.setDir e.keep else s)
  | none => .next s

/-- DIR_CLEAN_EVICTION. -/
def execDirCleanEviction (ctx line : Nat) (s : State) : Host.Outcome State Fault Refusal :=
  match s.dir? ctx line with
  | some e => .next (if e.st == .e && s.mayEvict e then s.toI e else s)
  | none => .next s

/-- VISITOR_PROBE: a probe or an invalidation reaches a die (R284). -/
def execVisitorProbe (ctx line die : Nat) (s : State) : Host.Outcome State Fault Refusal :=
  match s.dir? ctx line with
  | none => .next s
  | some e =>
    match e.trans with
    | some t =>
      .next (if t.tell.contains die then
          s.setDir { e with trans := some { t with tell := t.tell.filter (· != die), told := t.told ++ [die] } }
        else s)
    | none => .next s

/-- VISITOR_ACK: the die acknowledges once its writes are complete and, for an invalidation, its tenures have ended. -/
def execVisitorAck (ctx line die : Nat) (s : State) : Host.Outcome State Fault Refusal :=
  match s.dir? ctx line with
  | none => .next s
  | some e =>
    match e.trans with
    | some t =>
      .next (if t.told.contains die && s.m.quietLine ctx line &&
          (!t.kind.invalidates || s.tenLine e.home die ctx line) then
          s.setDir { e with trans := some { t with told := t.told.filter (· != die), acks := t.acks ++ [die] } }
        else s)
    | none => .next s

/-- DIR_ACK_RECEIVE: the acknowledgement reaches the home, and the transition ends with the last one. -/
def execDirAckReceive (ctx line die : Nat) (s : State) : Host.Outcome State Fault Refusal :=
  match s.dir? ctx line with
  | none => .next s
  | some e =>
    match e.trans with
    | some t => .next ((s.setDir { e with trans := some { t with acks := t.acks.filter (· != die) } }).dirTry ctx line)
    | none => .next s

/-! The host (R172, R287-R292). -/

/-- Snoop filter set (R290). -/
def snoopSet (line : Nat) : Nat := fld line 7 16

/-- The host's entry is freed: HB clears. -/
def State.freeSnoop (s : State) (ctx line : Nat) : State :=
  let s := { s with m := { s.m with snoop := s.m.snoop.filter fun h => !(h.ctx == ctx && h.line == line) } }
  match s.dir? ctx line with
  | some e => if e.st == .i then s.dropDir ctx line else s.setDir { e with hb := false }
  | none => s

/-- The least recently used of the filter's entries that no victim's snoop is out for (R290). -/
def lruSnoop (l : List SnoopEnt) : Option SnoopEnt :=
  (l.filter (·.asked == 0)).foldl (fun a h => match a with
    | none => some h
    | some b => if h.used < b.used then some h else a) none

/-- The host may cache the line from now on; a full set of the filter or of the directory first loses a victim. -/
def State.hostCaches (s : State) (ctx line home : Nat) (owned : Bool) : Except State State :=
  let record (s : State) : State :=
    let h : SnoopEnt := { ctx := ctx, line := line, owned := owned, asked := 0, used := s.now }
    { s with m := { s.m with snoop := s.m.snoop.filter (fun x => !(x.ctx == ctx && x.line == line)) ++ [h] } }
  let set := s.m.snoop.filter fun h => snoopSet h.line == snoopSet line
  if (s.snoop? ctx line).isSome then .ok (record s)
  else if s.y.ways ≤ set.length then
    match lruSnoop set with
    | some v => .error (if set.any (·.asked == 2) then s else s.askHost v.ctx v.line 2)
    | none => .error s
  else match s.dir? ctx line with
    | some e => .ok (record (s.setDir { e with hb := true }))
    | none => match s.newEntry home line { newDir ctx line home .i with hb := true } with
      | .ok s => .ok (record s)
      | .error s => .error s

/-- Request of the host at a home (master 64). -/
def hostNeed (home ctx ia n : Nat) (w : Bool) : Need :=
  { ctx := ctx, master := 64, ia := ia, home := home, die := home, atHome := true, acc := if w then .write else .read, n := n,
    who := none, place := none, keeps := true }

/-- Every sector of the bytes is settled at its home. -/
def State.settledAll (s : State) (home ctx ia n : Nat) : Bool :=
  match s.xlate home ctx ia with
  | .ok x => (List.range ((n + 31) / 32)).all fun k =>
      s.settled home ctx (secOf ia + 32 * k) { x with pa := x.pa / 32 * 32 + 32 * k }
  | _ => true

def State.reply (s : State) (r : Reply) : State := { s with y := { s.y with reply := some r } }

/-- HOST_MEM_READ: the host reads 64 bytes; cache 0 keeps nothing, 1 shared, 2 owned (R172, R290, R302). -/
def execHostMemRead (ctx ia cache : Nat) (s : State) : Host.Outcome State Fault Refusal :=
  let a := ia / 64 * 64
  let home := (s.ctx ctx).homeOf a
  let n := hostNeed home ctx a 64 (cache == 2)
  let g := s.unitGate n
  match g.1 with
  | .go x =>
    if cache == 2 && !s.settledAll home ctx (lineOf a) 128 then .next (s.unitHold n id)
    else
      let give (s : State) : Host.Outcome State Fault Refusal :=
        .next (s.reply (.bytes (s.m.bytesAt x 64) (s.m.poisonedAt x || s.m.poisonedAt { x with pa := x.pa + 32 })))
      if cache == 0 || x.hst then give s
      else match s.hostCaches ctx (lineOf a) home (cache == 2) with
        | .ok s => give s
        | .error s => .next (s.unitHold n id)
  | .viol => .next ((s.violationBy ctx 64 a n.acc 0).reply (.bytes (List.replicate 64 0) true))
  | .dead | .fault _ => .next (s.reply (.bytes (List.replicate 64 0) true))
  | .own _ _ | .wait | .queue | .nack _ => .next g.2

/-- Bytes written at a home in one instant, sector by sector. -/
def State.writeBytes (s : State) (ctx ia home : Nat) (x : Xl) (data : List Byte) (clear : Bool) : State :=
  let lo := ia / 32
  let hi := (ia + data.length + 31) / 32
  (List.range (hi - lo)).foldl (fun s k =>
    let sec := 32 * (lo + k)
    let idx (j : Nat) : Option Nat := if ia ≤ sec + j && sec + j < ia + data.length then some (sec + j - ia) else none
    let mask := (List.range 32).map fun j => (idx j).isSome
    let bs := (List.range 32).map fun j => data.getD ((idx j).getD 0) 0
    s.complete ctx sec home { x with pa := x.pa - ia % 32 + 32 * k } mask bs (clear && mask.all fun b => b) false true) s

/-- HOST_MEM_WRITE: completes at the home like a device write (R172); a violation drops it (R302). -/
def execHostMemWrite (ctx ia : Nat) (data : List (BitVec 8)) (s : State) : Host.Outcome State Fault Refusal :=
  let data := data.take (64 - ia % 64)
  let home := (s.ctx ctx).homeOf ia
  let n := hostNeed home ctx ia data.length true
  let s' := s.freeSnoop ctx (lineOf ia)
  match (s'.unitGate n).1 with
  | .go x =>
    if x.hst then
      if s.m.hostLines.any fun l => l.pa == x.pa / 128 * 128 then .next (s.unitHold n id)
      else .next (s.writeBytes ctx ia home x data false)
    else if s'.settledAll home ctx ia (ia % 32 + data.length) then .next (s'.writeBytes ctx ia home x data false)
    else .next (s.unitHold n id)
  | .viol => .next (s.violationBy ctx 64 ia .write 0)
  | .dead | .fault _ => .next s
  | .own _ _ | .wait | .queue | .nack _ => .next (s.unitGate n).2

/-- BISNP_RESPONSE: the host gives up or shares a line it was asked for, with its dirty data (R290). -/
def execBisnpResponse (ctx line : Nat) (data : List (BitVec 8)) (s : State) : Host.Outcome State Fault Refusal :=
  match s.snoop? ctx line with
  | none => .next s
  | some h =>
    if h.asked == 0 then .next s
    else
      let home := (s.ctx ctx).homeOf line
      let s := if h.owned && !data.isEmpty then
          match s.xlate home ctx line with
          | .ok x => s.writeBytes ctx line home x (data.take 128) false
          | _ => s
        else s
      if h.asked == 2 then .next ((s.freeSnoop ctx line).dirTry ctx line)
      else
        let share (x : SnoopEnt) : SnoopEnt := if x.ctx == ctx && x.line == line then { x with owned := false, asked := 0 } else x
        .next { s with m := { s.m with snoop := s.m.snoop.map share } }

/-- The lines that p names leave the dies as poison in host memory (R292). -/
def Mem.hostLost (m : Mem) (p : HostLine → Bool) : Mem :=
  let m' := (m.hostLines.filter p).foldl (fun m h =>
    (List.range 4).foldl (fun (m : Mem) k => m.setPoison ⟨h.pa + 32 * k, true⟩ true) m) m
  { m' with hostLines := m'.hostLines.filter fun h => !p h }

/-- Waits on the words of a host line are evaluated again. -/
def State.rewaitHost (s : State) (pa : Nat) : State :=
  (List.range 4).foldl (fun s k => s.rewait { pa := pa + 32 * k, hst := true }) s

/-- HOST_SNOOP: the host asks for one of its lines; the slice answers once its tenures have ended, and a die that is
being reset leaves the snoop held, or has it answered with poison once one was held too long (R291, R292). -/
def execHostSnoop (line : Nat) (inv : Bool) (s : State) : Host.Outcome State Fault Refusal :=
  let pa := line / 128 * 128
  let up (die : Nat) : Bool := (s.y.dies.getD die {}).st == .running
  let free (die : Nat) : Bool := up die && (List.range 4).all fun k =>
    decide (s.m.tenEnd die (({ pa := pa + 32 * k, hst := true } : Xl).key) ≤ s.now)
  let f (h : HostLine) : Option HostLine :=
    if h.pa != pa then some h
    else if inv && free h.die then none
    else if inv || !up h.die then
      some { h with snoop := some (match h.snoop with
        | some q => (q.1, q.2 || inv)
        | none => (s.now, inv)) }
    else some h
  let m := s.m.hostLost fun h => h.pa == pa && !up h.die && (s.y.dies.getD h.die {}).late
  .next (({ s with m := { m with hostLines := m.hostLines.filterMap f } } : State).rewaitHost pa)

/-- HOST_SNOOP_TIMEOUT: 50 us after the first held snoop the I/O die answers it and each later one with poison (R292). -/
def execHostSnoopTimeout (die : Nat) (s : State) : Host.Outcome State Fault Refusal :=
  let late := s.m.hostLines.any fun h => h.die == die && match h.snoop with
    | some q => decide (q.1 + 55000 ≤ s.now)
    | none => false
  if (s.y.dies.getD die {}).st == .running || !late then .next s
  else .next { s with m := s.m.hostLost fun h => h.die == die && h.snoop.isSome
                      y := { s.y with dies := s.y.dies.modify die fun d => { d with late := true } } }

end Sys2Proof.Machine
end

