-- ==== Sys2Proof/Machine/Matrix.lean ====
section
/-! DEFINITION. Matrix instructions 0x120-0x12E, the reservation table and its steps (R185-R207). -/

namespace Sys2Proof.Machine

/-! Panels and values (R185, R192). -/

/-- Tile-store offset of byte c of row n of a panel. -/
def panelOff (off n c : Nat) : Nat := off + 128 * n + 16 * ((c / 16) ^^^ (n % 8)) + c % 16

/-- n bytes of the tile store as a number, and whether a word they lie in is poisoned (R119, R207). -/
def Workgroup.tileNum (g : Workgroup) (off n : Nat) : Nat × Bool :=
  (numAt g.tile off n, (List.range ((off + n + 3) / 4 - off / 4)).any fun k => g.tpoi.contains (off / 4 + k))

def mfmt : MFmt → Fmt
  | .bf16 => bfl16
  | .f16 => fp16
  | .e4m3 => fp8

def mbytes : MFmt → Nat
  | .e4m3 => 1
  | .bf16 | .f16 => 2

/-- k-extent of a panel. -/
def mdepth : MFmt → Nat
  | .e4m3 => 128
  | .bf16 | .f16 => 64

def hfmt : HFmt → Fmt
  | .bf16 => bfl16
  | .f16 => fp16

/-- Element k of row n of a panel. -/
def Workgroup.panelElem (g : Workgroup) (off sz n k : Nat) : Nat × Bool := g.tileNum (panelOff off n (sz * k)) sz

/-- RN(acc + a b), the product exact; every NaN canonical (R192). -/
def mac (x y : Val) (acc : Nat) : Nat := (fp32.dot .rn false [x.times y, (fp32.val acc).asProd]).1

/-- RN(fma(p, s, d)). -/
def macScale (p s d : Nat) : Nat := mac (fp32.val p) (fp32.val s) d

def mul32 (x y : Nat) : Nat := (fp32.mul .rn x y).1

/-- One element of a multiply: row a, column b, accumulator d, row scale and column scale (R192). -/
def mmaElem (fmt : MFmt) (a b : List (Nat × Bool)) (d : PWord) (sa sb : PWord) : PWord :=
  let f := mfmt fmt
  let bad := a.any (·.2) || b.any (·.2) || d.poi
  let run (acc : Nat) : Nat := (a.zip b).foldl (fun acc q => mac (f.val q.1.1) (f.val q.2.1) acc) acc
  match fmt with
  | .e4m3 =>
    let s := mul32 sa.val.toNat sb.val.toNat
    { val := BitVec.ofNat 32 (macScale (run 0) s d.val.toNat), poi := bad || sa.poi || sb.poi }
  | .bf16 | .f16 => { val := BitVec.ofNat 32 (run d.val.toNat), poi := bad }

/-- A tile computed element by element. -/
def tileOf (f : Nat → Nat → PWord) : List PWord := (List.range 4096).map fun x => f (x / 64) (x % 64)

/-- D with A B added; arow gives the rows of A (R192, R194). -/
def Workgroup.mma (g : Workgroup) (fmt : MFmt) (arow : Nat → List (Nat × Bool)) (b : Nat) (sa : List PWord) (sb : PWord)
    (d : List PWord) : List PWord :=
  let rows := (List.range 64).map arow
  let cols := (List.range 64).map fun j => (List.range (mdepth fmt)).map (g.panelElem b (mbytes fmt) j)
  tileOf fun i j => mmaElem fmt (rows.getD i []) (cols.getD j []) (d.getD (64 * i + j) {}) (sa.getD i {}) sb

def Workgroup.panelRow (g : Workgroup) (fmt : MFmt) (a i : Nat) : List (Nat × Bool) :=
  (List.range (mdepth fmt)).map (g.panelElem a (mbytes fmt) i)

/-! Unfold descriptors (R193, R194). -/

structure Unfold where
  off : Nat
  h : Nat
  w : Nat
  c : Nat
  kh : Nat
  kw : Nat
  sh : Nat
  sw : Nat
  dh : Nat
  dw : Nat
  pt : Nat
  pl : Nat
  fill : Nat
  p0 : Nat
  k0 : Nat
  deriving DecidableEq, Repr

def unfoldOf (l : List Byte) : Unfold :=
  { off := numAt l 0 4, h := numAt l 4 2, w := numAt l 6 2, c := numAt l 8 2, kh := numAt l 10 1, kw := numAt l 11 1,
    sh := numAt l 12 1, sw := numAt l 13 1, dh := numAt l 14 1, dw := numAt l 15 1, pt := numAt l 16 2, pl := numAt l 18 2,
    fill := numAt l 20 4, p0 := numAt l 24 4, k0 := numAt l 28 4 }

namespace Unfold

/-- Output extent, or none below 1. -/
def outDim (n pad d k s : Nat) : Option Nat :=
  if n + 2 * pad < d * (k - 1) + 1 then none else some ((n + 2 * pad - d * (k - 1) - 1) / s + 1)

def oh (u : Unfold) : Option Nat := outDim u.h u.pt u.dh u.kh u.sh
def ow (u : Unfold) : Option Nat := outDim u.w u.pl u.dw u.kw u.sw

def inRange (lo hi x : Nat) : Bool := decide (lo ≤ x) && decide (x ≤ hi)

/-- Every field lies in its limits (R193). -/
def ok (u : Unfold) (fmt : MFmt) : Bool :=
  u.off % 32 == 0 && inRange 1 65535 u.h && inRange 1 65535 u.w && inRange 1 65535 u.c &&
  inRange 1 7 u.kh && inRange 1 7 u.kw && inRange 1 8 u.sh && inRange 1 8 u.sw && inRange 1 8 u.dh && inRange 1 8 u.dw &&
  decide (u.pt ≤ 255) && decide (u.pl ≤ 255) && decide (u.fill < 2 ^ (8 * mbytes fmt)) && u.k0 % mdepth fmt == 0 &&
  u.oh.isSome && u.ow.isSome

def bytes (u : Unfold) (fmt : MFmt) : Nat := u.h * u.w * u.c * mbytes fmt

/-- Element kk of row i of A. -/
def elem (u : Unfold) (g : Workgroup) (fmt : MFmt) (i kk : Nat) : Nat × Bool :=
  let ow := u.ow.getD 1
  let p := u.p0 + i
  let k := u.k0 + kk
  if u.oh.getD 0 * ow ≤ p || u.kh * u.kw * u.c ≤ k then (0, false)
  else
    let c := k % u.c
    let kw := k / u.c % u.kw
    let kh := k / (u.c * u.kw)
    let ih := p / ow * u.sh + kh * u.dh
    let iw := p % ow * u.sw + kw * u.dw
    if ih < u.pt || u.h + u.pt ≤ ih || iw < u.pl || u.w + u.pl ≤ iw then (u.fill, false)
    else g.tileNum (u.off + mbytes fmt * (((ih - u.pt) * u.w + (iw - u.pl)) * u.c + c)) (mbytes fmt)

end Unfold

/-! Generated products (R195). -/

def oneV : Val := .fin false 1 0
def zeroV : Val := .fin false 0 0

/-- Sum of 64 products from +0. -/
def prodSum (l : Nat → Val) (q : Nat → Val) : Nat := (List.range 64).foldl (fun acc k => mac (l k) (q k) acc) 0

/-- A 64 x 64 panel of 16-bit elements. -/
def Workgroup.panel16 (g : Workgroup) (a : Nat) : List (List (Nat × Bool)) :=
  (List.range 64).map fun n => (List.range 64).map fun k => g.panelElem a 2 n k

def at2 (m : List (List (Nat × Bool))) (i k : Nat) : Nat × Bool := (m.getD i []).getD k (0, false)

def permTile (fmt : HFmt) (m : List (List (Nat × Bool))) (x : List Byte) (xp : List Bool) : List PWord :=
  tileOf fun i j =>
    let s := prodSum (fun k => if (x.getD i 0).toNat == k then oneV else zeroV) (fun k => (hfmt fmt).val (at2 m k j).1)
    { val := BitVec.ofNat 32 s, poi := xp.getD i false || (List.range 64).any fun k => (at2 m k j).2 }

def trnTile (fmt : HFmt) (m : List (List (Nat × Bool))) : List PWord :=
  tileOf fun i j =>
    let s := prodSum (fun k => (hfmt fmt).val (at2 m k i).1) (fun k => if k == j then oneV else zeroV)
    { val := BitVec.ofNat 32 s, poi := (List.range 64).any fun k => (at2 m k i).2 }

def rsumTile (fmt : HFmt) (col : Bool) (m : List (List (Nat × Bool))) : List PWord :=
  tileOf fun i j =>
    let v (r c : Nat) : Val := (hfmt fmt).val (at2 m r c).1
    if col then
      { val := BitVec.ofNat 32 (prodSum (fun _ => if i == 0 then oneV else zeroV) (fun k => v k j))
        poi := (List.range 64).any fun k => (at2 m k j).2 }
    else
      { val := BitVec.ofNat 32 (prodSum (fun k => v i k) (fun _ => if j == 0 then oneV else zeroV))
        poi := (List.range 64).any fun k => (at2 m i k).2 }

/-! Moving tiles (R196). -/

def lbytes : LFmt → Nat
  | .f32 => 4
  | .bf16 | .f16 => 2

def sbytes : SFmt → Nat
  | .f32 => 4
  | .bf16 | .f16 => 2
  | .e4m3 => 1

/-- Exact widening; a NaN is canonical. -/
def widenBits (fmt : LFmt) (x : Nat) : Nat :=
  match fmt with
  | .f32 => if (fp32.val x).isNan then fp32.canon else x
  | .bf16 => (fp32.ofVal .rn (bfl16.val x)).1
  | .f16 => (fp32.ofVal .rn (fp16.val x)).1

/-- conv of tsta. -/
def narrow (fmt : SFmt) (x sb : Nat) : Nat :=
  match fmt with
  | .f32 => x
  | .bf16 => (bfl16.ofVal .rn (fp32.val x)).1
  | .f16 => (fp16.ofVal .rn (fp32.val x)).1
  | .e4m3 =>
    let p := (fp32.val x).times (fp32.val sb)
    if p.nan || p.invalid then 0x7F
    else match p.inf with
      | some n => if n then 0xFE else 0x7E
      | none => (toE4 false (.fin p.term.neg p.term.m p.term.e)).1

def clip (n : Nat) : Nat := if n == 0 || 64 < n then 64 else n

/-- The tile store after tsta: bytes, and poison word by word. -/
def Workgroup.storeTile (g : Workgroup) (fmt : SFmt) (d : List PWord) (a rows cols : Nat) (sb : PWord) : Workgroup :=
  let n := sbytes fmt
  let cells := (List.range rows).flatMap fun i => (List.range cols).map fun j => (64 * i + j)
  let tile := cells.foldl (fun t x =>
    splice t (a + n * x) (leBytes n (narrow fmt (d.getD x {}).val.toNat sb.val.toNat))) g.tile
  let bad (x : Nat) : Bool := (d.getD x {}).poi || (fmt == .e4m3 && sb.poi)
  let written := cells.flatMap fun x => (List.range n).map fun k => a + n * x + k
  let words := written.foldl (fun l b => if l.contains (b / 4) then l else l ++ [b / 4]) []
  let tpoi := clearTile g.tpoi written words
  let tpoi := cells.foldl (fun l x => if bad x then nsInsert ((a + n * x) / 4) l else l) tpoi
  { g with tile := tile, tpoi := tpoi }

/-! Issue (R187-R190). -/

/-- Granules of n bytes at an offset. -/
def granulesOf (off n : Nat) : List Nat := if n == 0 then [] else (List.range ((off + n - 1) / 1024 + 1 - off / 1024)).map (off / 1024 + ·)

def unionN (a b : List Nat) : List Nat := b.foldl (fun l x => if l.contains x then l else l ++ [x]) a

/-- A tile-store operand of an entry: offset, alignment, bytes. -/
structure TOpnd where
  off : Nat
  al : Nat
  n : Nat

/-- Step 1 of R187: ranges first, then alignment (R121). -/
def Workgroup.badOpnd (g : Workgroup) (l : List TOpnd) : Option (Nat × Nat) :=
  match l.find? fun o => decide (g.tile.length < o.off + o.n) with
  | some o => some (4, o.off)
  | none => match l.find? fun o => o.off % o.al != 0 with
    | some o => some (3, o.off)
    | none => none

/-- The k guard (R188). -/
def Env.kGuard (e : Env) (kg : KSel) (kn d a b : Nat) : Bool :=
  let k := ((e.g.k.getD kn { base := 0 }).readOwn e.s.now e.t.tid (keyK kn)).1
  match kg with
  | .off => true
  | .a => k.getLsbD (a / 8192)
  | .b => k.getLsbD (b / 8192)
  | .d => k.getLsbD d

def Workgroup.raiseRef (g : Workgroup) (l : List Nat) : Workgroup :=
  { g with gran := l.foldl (fun q k => q.modify k fun x => { x with ref := x.ref + 1 }) g.gran }

def Workgroup.lowerRef (g : Workgroup) (l : List Nat) : Workgroup :=
  { g with gran := l.foldl (fun q k => q.modify k fun x => { x with ref := x.ref - 1 }) g.gran }

/-- REF stays at or below 255 (R110). -/
def Workgroup.refRoom (g : Workgroup) (l : List Nat) : Bool := l.all fun k => decide ((g.gran.getD k {}).ref < 255)

/-- Lowest free index of a core's table, of 32 (R187). -/
def Eng.freeIdx (q : Eng) (core : Nat) : Option Nat :=
  (List.range 32).find? fun k => !q.entries.any fun m => m.core == core && m.idx == k

/-- Steps 4 and 5 of R187: the entry enters the table and raises REF; with no room the thread waits. -/
def Env.enter (e : Env) (op : MOp) (d : Nat) (after : Option Nat) (ref : List Nat) : Res :=
  match e.s.e.freeIdx e.g.core with
  | none => .wait
  | some k =>
    if !e.g.refRoom ref then .wait
    else
      let q : MEnt := { core := e.g.core, idx := k, ord := e.s.e.nextOrd, slot := e.g.slot, ctx := e.g.ctx, tid := e.t.tid,
                        uid := e.g.uid, issued := e.t.issued + 1, pc := e.t.pc, cls := (e.g.mcls.readOwn e.s.now e.t.tid keyCls).1, raised := 0, issue := e.s.now, eligible := none,
                        op := op, d := d, after := after.map fun c => (c, (e.g.c.getD c {}).done), group := none, ref := ref,
                        granted := none, drun := none }
      .done { (e.s.modWg e.g.core e.g.slot fun g => g.raiseRef ref) with
        e := { e.s.e with entries := e.s.e.entries ++ [q], nextOrd := e.s.e.nextOrd + 1 } }

/-- Checks and guard, then the rest. -/
def Env.entry (e : Env) (l : List TOpnd) (kg : KSel) (kn d a b : Nat) (rest : Unit → Res) : Res :=
  match e.g.badOpnd l with
  | some (c, off) => .trap c 0 (BitVec.ofNat 64 off) false
  | none => if e.kGuard kg kn d a b then rest () else .done e.s

def Env.scaleA (e : Env) (n : Nat) : List PWord := ((e.g.sa.getD n { base := [] }).readOwn e.s.now e.t.tid (keySa n)).1
def Env.scaleB (e : Env) (n : Nat) : PWord := ((e.g.sb.getD n { base := {} }).readOwn e.s.now e.t.tid (keySb n)).1

/-- Some granule of the bytes is engine-owned. -/
def Workgroup.ownedAt (g : Workgroup) (off n : Nat) : Bool := (granulesOf off n).any fun k => (g.gran.getD k {}).owned

def execTmma (h : Hdr) (fmt : MFmt) (sn : Nat) (kg : KSel) (kn d : Nat) (a b : Src) (c : Option Nat) (s : State) :
    Host.Outcome State Fault Refusal :=
  threadOp (.tmma h fmt sn kg kn d a b c) (fun e =>
    let x := (e.src a).toNat
    let y := (e.src b).toNat
    e.entry [⟨x, 8192, 8192⟩, ⟨y, 8192, 8192⟩] kg kn d x y fun _ =>
      e.enter (.mma fmt x y (e.scaleA sn) (e.scaleB sn)) d c (unionN (granulesOf x 8192) (granulesOf y 8192))) s

/-- DESIGN CHOICE: the descriptor is read for the malformed check of step 1 of R187, so its OWN is waited for before the k
guard of step 2 (log 80). -/
def execTmmau (h : Hdr) (fmt : MFmt) (sn : Nat) (kg : KSel) (kn d : Nat) (a b : Src) (c : Option Nat) (s : State) :
    Host.Outcome State Fault Refusal :=
  threadOp (.tmmau h fmt sn kg kn d a b c) (fun e =>
    let x := (e.src a).toNat
    let y := (e.src b).toNat
    match e.g.badOpnd [⟨x, 32, 32⟩, ⟨y, 8192, 8192⟩] with
    | some (c, off) => .trap c 0 (BitVec.ofNat 64 off) false
    | none =>
      if e.g.ownedAt x 32 then .wait
      else
        let u := unfoldOf (slice e.g.tile x 32)
        if !u.ok fmt then .trap 1 0 0 false
        else e.entry [⟨u.off, 32, u.bytes fmt⟩] kg kn d x y fun _ =>
          e.enter (.mmau fmt (slice e.g.tile x 32) (e.g.tileNum x 32).2 y (e.scaleA sn) (e.scaleB sn)) d c
            (unionN (granulesOf u.off (u.bytes fmt)) (granulesOf y 8192))) s

def execTperm (h : Hdr) (fmt : HFmt) (kg : KSel) (kn d : Nat) (a b : Src) (c : Option Nat) (s : State) :
    Host.Outcome State Fault Refusal :=
  threadOp (.tperm h fmt kg kn d a b c) (fun e =>
    let x := (e.src a).toNat
    let y := (e.src b).toNat
    e.entry [⟨x, 8192, 8192⟩, ⟨y, 64, 64⟩] kg kn d x y fun _ =>
      if e.g.ownedAt y 64 then .wait
      else e.enter (.perm fmt x (slice e.g.tile y 64) ((List.range 64).map fun k => (e.g.tileNum (y + k) 1).2)) d c
        (granulesOf x 8192)) s

def execTtrn (h : Hdr) (fmt : HFmt) (kg : KSel) (kn d : Nat) (a : Src) (c : Option Nat) (s : State) :
    Host.Outcome State Fault Refusal :=
  threadOp (.ttrn h fmt kg kn d a c) (fun e =>
    let x := (e.src a).toNat
    e.entry [⟨x, 8192, 8192⟩] kg kn d x 0 fun _ => e.enter (.trn fmt x) d c (granulesOf x 8192)) s

def execTrsum (h : Hdr) (fmt : HFmt) (col : Bool) (kg : KSel) (kn d : Nat) (a : Src) (c : Option Nat) (s : State) :
    Host.Outcome State Fault Refusal :=
  threadOp (.trsum h fmt col kg kn d a c) (fun e =>
    let x := (e.src a).toNat
    e.entry [⟨x, 8192, 8192⟩] kg kn d x 0 fun _ => e.enter (.rsum fmt x col) d c (granulesOf x 8192)) s

def execTzero (h : Hdr) (kg : KSel) (kn d : Nat) (c : Option Nat) (s : State) : Host.Outcome State Fault Refusal :=
  threadOp (.tzero h kg kn d c) (fun e => e.entry [] kg kn d 0 0 fun _ => e.enter .zero d c []) s

def execTlda (h : Hdr) (fmt : LFmt) (kg : KSel) (kn d : Nat) (a : Src) (c : Option Nat) (s : State) :
    Host.Outcome State Fault Refusal :=
  threadOp (.tlda h fmt kg kn d a c) (fun e =>
    let x := (e.src a).toNat
    let n := 4096 * lbytes fmt
    e.entry [⟨x, 32, n⟩] kg kn d x 0 fun _ => e.enter (.lda fmt x) d c (granulesOf x n)) s

def execTsta (h : Hdr) (fmt : SFmt) (sn : Nat) (kg : KSel) (kn d : Nat) (a b : Src) (c : Option Nat) (s : State) :
    Host.Outcome State Fault Refusal :=
  threadOp (.tsta h fmt sn kg kn d a b c) (fun e =>
    let x := (e.src a).toNat
    let y := (e.src b).toNat
    let n := 4096 * sbytes fmt
    e.entry [⟨x, 32, n⟩] kg kn d x y fun _ =>
      e.enter (.sta fmt x (clip (y % 128)) (clip (y / 256 % 128)) (e.scaleB sn)) d c (granulesOf x n)) s

/-! Groups, scales, predicates, class (R197-R201). -/

def MEnt.ofWg (m : MEnt) (g : Workgroup) : Bool := m.core == g.core && m.slot == g.slot

def Eng.count (q : Eng) (g : Workgroup) (gn : Nat) : Nat := (q.entries.filter fun m => m.ofWg g && m.group == some gn).length

def execTcommit (h : Hdr) (gn : Nat) (s : State) : Host.Outcome State Fault Refusal :=
  threadOp (.tcommit h gn) (fun e =>
    let join (m : MEnt) : MEnt := if m.ofWg e.g && m.group.isNone then { m with group := some gn } else m
    .done { e.s with e := { e.s.e with entries := e.s.e.entries.map join } }) s

/-- Status word of a group. -/
def Env.group (e : Env) (gn : Nat) : Nat := e.s.e.count e.g gn % 64

def execTwait (h : Hdr) (gn : Nat) (d : Option Nat) (s : State) : Host.Outcome State Fault Refusal :=
  threadOp (.twait h gn d) (fun e =>
    if e.s.e.count e.g gn == 0 then .done (e.giveV e.s d 0) else .block e.s (.twait gn)) s

def execTtest (h : Hdr) (gn d : Nat) (s : State) : Host.Outcome State Fault Refusal :=
  threadOp (.ttest h gn d) (fun e => .done (e.giveV e.s (some d) (BitVec.ofNat 32 (e.group gn)))) s

/-- Entries leave the table with no effect: REF falls, they count as complete. -/
def State.dropEntries (s : State) (p : MEnt → Bool) : State :=
  let gone := s.e.entries.filter p
  let s := { s with e := { s.e with entries := s.e.entries.filter fun m => !p m } }
  gone.foldl (fun s m => s.modWg m.core m.slot fun g => g.lowerRef m.ref) s

def execTcancel (h : Hdr) (gn : Nat) (d : Option Nat) (s : State) : Host.Outcome State Fault Refusal :=
  threadOp (.tcancel h gn d) (fun e =>
    let p (m : MEnt) : Bool := m.ofWg e.g && m.group == some gn && m.granted.isNone
    .done (e.giveV (e.s.dropEntries p) d (BitVec.ofNat 32 (e.s.e.entries.filter p).length))) s

def execTscl (h : Hdr) (sb : Bool) (idx : Nat) (a : Src) (s : State) : Host.Outcome State Fault Refusal :=
  threadOp (.tscl h sb idx a) (fun e =>
    let off := (e.src a).toNat
    let n := if sb then 4 else 256
    match e.g.badOpnd [⟨off, if sb then 4 else 16, n⟩] with
    | some (c, o) => .trap c 0 (BitVec.ofNat 64 o) false
    | none =>
      if e.g.ownedAt off n then .wait
      else
        let val (k : Nat) : PWord :=
          let q := e.g.tileNum (off + 4 * k) 4
          { val := BitVec.ofNat 32 q.1, poi := q.2 }
        .done (e.s.modWg e.g.core e.g.slot fun g =>
          let g := if sb then { g with sb := g.sb.modify idx fun x => x.write e.s.now 0 e.t.tid (val 0) false }
            else { g with sa := g.sa.modify idx fun x => x.write e.s.now 0 e.t.tid ((List.range 64).map val) false }
          g.noteW e.s.now e.t.tid)) s

def execTpred (h : Hdr) (fn : TPFn) (kn : Nat) (d a : Option Reg) (s : State) : Host.Outcome State Fault Refusal :=
  threadOp (.tpred h fn kn d a) (fun e =>
    let k := ((e.g.k.getD kn { base := 0 }).readOwn e.s.now e.t.tid (keyK kn)).1
    let x := e.pairZ a
    let put (v : DWord) : Res := .done (e.s.modWg e.g.core e.g.slot fun g =>
      ({ g with k := g.k.modify kn fun q => q.write e.s.now 0 e.t.tid v false } : Workgroup).noteW e.s.now e.t.tid)
    match fn with
    | .set => put x
    | .or => put (k ||| x)
    | .andn => put (k &&& ~~~x)
    | .rd => match d with
      | some r => .done (e.s.deliverN e.g.core e.g.slot e.t.tid r 2 k.toNat false)
      | none => .done e.s) s

def execTcls (h : Hdr) (d : Option Nat) (a : Src) (s : State) : Host.Outcome State Fault Refusal :=
  threadOp (.tcls h d a) (fun e =>
    let old := (e.g.mcls.readOwn e.s.now e.t.tid keyCls).1
    let new := min (e.src a).toNat e.g.cls
    let s := e.s.modWg e.g.core e.g.slot fun g =>
      ({ g with mcls := g.mcls.write e.s.now 0 e.t.tid new false } : Workgroup).noteW e.s.now e.t.tid
    .done (e.giveV s d (BitVec.ofNat 32 old))) s

/-! The table (R202, R203). -/

/-- Tiles that an entry names: one, or N/64 for a dmul. -/
def Eng.tilesOf (q : Eng) (m : MEnt) : Nat :=
  match m.op with
  | .dmul layer _ =>
    match q.slots.find? fun s => s.core == m.core && s.ctx == m.ctx && s.layer == layer with
    | some s => numAt s.raw 28 4 / 64
    | none => 1
  | _ => 1

def MEnt.writesTile (m : MEnt) : Bool :=
  match m.op with
  | .sta _ _ _ _ _ => true
  | _ => false

/-- m depends on the earlier entry x (R202, R218). -/
def Eng.depends (q : Eng) (m x : MEnt) : Bool :=
  decide (x.ord < m.ord) && x.core == m.core &&
  ((x.slot == m.slot && (decide (m.d < x.d + q.tilesOf x) && decide (x.d < m.d + q.tilesOf m) ||
      (x.writesTile || m.writesTile) && m.ref.any x.ref.contains)) ||
   match m.op, x.op with
   | .dmul a _, .dmul b _ => a == b && x.ctx == m.ctx
   | _, _ => false)

/-- The entry may be granted: .after met, what it depends on complete (R189, R203). -/
def Eng.ready (q : Eng) (m : MEnt) : Bool := m.after.isNone && q.entries.all fun x => !q.depends m x

/-- What a cycle does to the tables: .after conditions that are met, and since when an entry is eligible. -/
def State.matrixTick (s : State) : State :=
  let met (m : MEnt) : MEnt :=
    match m.after with
    | none => m
    | some (c, n) =>
      match s.wg? m.core m.slot with
      | some g => if (g.c.getD c {}).done != n then { m with after := none } else m
      | none => m
  let q := { s.e with entries := s.e.entries.map met }
  let mark (m : MEnt) : MEnt := if m.eligible.isNone && q.ready m then { m with eligible := some s.now } else m
  { s with e := { q with entries := q.entries.map mark } }

/-- Effective class (R203). -/
def MEnt.eff (m : MEnt) : Nat := m.cls + m.raised

/-- Steps that a dmul still needs. -/
def MEnt.wantsGrant (m : MEnt) : Bool :=
  match m.op with
  | .dmul _ _ => match m.drun with
    | none => true
    | some r => !r.writing && decide (0 < r.steps)
  | _ => m.granted.isNone

def State.grantable (s : State) (m : MEnt) : Bool :=
  m.wantsGrant && s.e.ready m && (s.ctx m.ctx).runs && match s.wg? m.core m.slot with
    | some g => g.resident && !s.testing (inStores m.core m.slot)
    | none => false

/-- The arbiter's order: class, issue time, index. -/
def MEnt.before (a b : MEnt) : Bool :=
  decide (b.eff < a.eff) || (a.eff == b.eff && (decide (a.issue < b.issue) || (a.issue == b.issue && decide (a.idx < b.idx))))

def State.arbiter (s : State) (core : Nat) (p : MEnt → Bool) : Option MEnt :=
  (s.e.entries.filter fun m => m.core == core && s.grantable m && p m).foldl (fun a m => match a with
    | none => some m
    | some b => if m.before b then some m else a) none

def State.modEntry (s : State) (core idx : Nat) (f : MEnt → MEnt) : State :=
  { s with e := { s.e with entries := s.e.entries.map fun m => if m.core == core && m.idx == idx then f m else m } }

/-- The last entry granted, for the stop record (R205). -/
def State.noteGrant (s : State) (m : MEnt) : State :=
  let old := match s.e.last.find? fun x => x.core == m.core && x.ctx == m.ctx with
    | some x => x.skid
    | none => []
  let keep (x : MLast) : Bool := !(x.core == m.core && x.ctx == m.ctx)
  { s with e := { s.e with last := s.e.last.filter keep ++
      [{ core := m.core, ctx := m.ctx, idx := some m.idx, slot := m.slot, tid := m.tid, pc := m.pc, skid := old }] } }

/-- MATRIX_CLASS_AGING: 16,384 cycles eligible without a grant raise the class by one, up to 2 (R203). -/
def MEnt.agingDue (now : Nat) (m : MEnt) : Bool :=
  m.wantsGrant && decide (m.eff < 2) && match m.eligible with
    | some t => decide (t + 16384 ≤ now)
    | none => false

def execMatrixClassAging (core idx : Nat) (s : State) : Host.Outcome State Fault Refusal :=
  .next (s.modEntry core idx fun m =>
    if m.agingDue s.now then { m with raised := m.raised + 1, eligible := m.eligible.map (· + 16384) } else m)

/-- Results of an entry in its workgroup (R192-R196). -/
def Workgroup.runEntry (g : Workgroup) (m : MEnt) : Workgroup :=
  let d := g.acc.getD m.d []
  let put (l : List PWord) : Workgroup := { g with acc := g.acc.set m.d l }
  match m.op with
  | .mma fmt a b sa sb => put (g.mma fmt (g.panelRow fmt a) b sa sb d)
  | .mmau fmt desc dpoi b sa sb =>
    let u := unfoldOf desc
    put (g.mma fmt (fun i => (List.range (mdepth fmt)).map fun k =>
      let x := u.elem g fmt i k
      (x.1, x.2 || dpoi)) b sa sb d)
  | .perm fmt a x xp => put (permTile fmt (g.panel16 a) x xp)
  | .trn fmt a => put (trnTile fmt (g.panel16 a))
  | .rsum fmt a col => put (rsumTile fmt col (g.panel16 a))
  | .zero => put (List.replicate 4096 {})
  | .lda fmt a => put (tileOf fun i j =>
      let q := g.tileNum (a + lbytes fmt * (64 * i + j)) (lbytes fmt)
      { val := BitVec.ofNat 32 (widenBits fmt q.1), poi := q.2 })
  | .sta fmt a rows cols sb => g.storeTile fmt d a rows cols sb
  | .dmul _ _ => g

/-- An entry leaves the table, its REF lowered; one that completes while the halt line is high is noted (R205). -/
def State.endEntry (s : State) (m : MEnt) : State :=
  let s := s.dropEntries fun x => x.core == m.core && x.idx == m.idx
  if (s.ctx m.ctx).halt.high then
    let note (x : MLast) : MLast := if x.core == m.core && x.ctx == m.ctx then { x with skid := x.skid ++ [m.idx] } else x
    { s with e := { s.e with last := s.e.last.map note } }
  else s

/-- MATRIX_ENTRY_COMPLETE: no earlier than 16 cycles after the grant (R203). -/
def execMatrixEntryComplete (core idx : Nat) (s : State) : Host.Outcome State Fault Refusal :=
  match s.e.entries.find? fun m => m.core == core && m.idx == idx with
  | none => .next s
  | some m =>
    match m.op, m.granted with
    | .dmul _ _, _ => .next s
    | _, none => .next s
    | _, some t =>
      if s.now < t + 16 then .next s
      else .next ((s.modWg m.core m.slot fun g => g.runEntry m).endEntry m)

end Sys2Proof.Machine
end

