-- ==== Sys2Proof/Machine/Reach.lean ====
section
/-! DEFINITION. How engines, the front end and the I/O die reach memory: reads and writes at the home slices, and byte
ranges of virtual addresses, views included (R120, R170, R229, R233, R302). -/

namespace Sys2Proof.Machine

/-- A byte with its poison. -/
abbrev PByte := Byte × Bool

/-- What an access of a unit comes to: done; held by the directory, a lease, a die or the DRAM; held on an unmapped page;
refused by an access table. -/
inductive Reach (α : Type) where
  | ok (a : α)
  | hold (s : State)
  | page (s : State) (home ia : Nat)
  | viol (ia : Nat) (acc : Acc)

def Reach.bind {α β : Type} (r : Reach α) (f : α → Reach β) : Reach β :=
  match r with
  | .ok a => f a
  | .hold s => .hold s
  | .page s h i => .page s h i
  | .viol i a => .viol i a

def reachAll {α β : Type} (f : α → Reach β) : List α → Reach (List β)
  | [] => .ok []
  | a :: l => (f a).bind fun b => (reachAll f l).bind fun bs => .ok (b :: bs)

/-- Request of a unit at the home, under a master's rights. -/
def unitNeed (master ctx home ia n : Nat) (acc : Acc) : Need :=
  { ctx := ctx, master := master, ia := ia, home := home, die := home, atHome := true, acc := acc, n := n, who := none, place := none
    keeps := true }

/-- Under the context's own rights. -/
def engNeed (ctx home ia n : Nat) (acc : Acc) : Need := unitNeed ctx ctx home ia n acc

/-- The frame, or none on a failed die (R300). A line of host memory is first obtained as a visitor line of the unit's die
(R291). -/
def State.reach (s : State) (n : Need) : Reach (Option Xl) :=
  let n := { n with die := s.askDie n.home }
  let g := s.unitGate n
  match g.1 with
  | .go x | .own x _ =>
    if x.hst && !s.m.hostHeld n.die x then .hold ((s.unitHold n id).hostVisit n.die n.ia x) else .ok (some x)
  | .dead => .ok none
  | .wait | .queue | .nack _ => .hold g.2
  | .fault l => .page (s.pageFault n.home n.ctx n.ia l n.acc) n.home n.ia
  | .viol => .viol n.ia n.acc

/-- The die at which a unit's access to a frame is counted: its own for host memory, else the home (R145, R217). -/
def State.unitDie (s : State) (home : Nat) (x : Xl) : Nat := if x.hst then s.askDie home else home

/-- n bytes from an address, cut at multiples of a size. -/
def cut (z a n : Nat) : List (Nat × Nat) :=
  if n == 0 then []
  else (List.range ((a + n - 1) / z + 1 - a / z)).map fun k =>
    let lo := max a (z * (a / z + k))
    (lo, min (a + n) (z * (a / z + k) + z) - lo)

/-- Cut at sector boundaries. -/
def pieces (a n : Nat) : List (Nat × Nat) := cut 32 a n

/-- Bytes of one sector read at its home. -/
def State.readPieceBy (s : State) (master ctx home ia n : Nat) : Reach (List PByte) :=
  (s.reach (unitNeed master ctx home ia n .read)).bind fun x => .ok (match x with
    | none => List.replicate n (0, true)
    | some x => (s.m.bytesAt x n).map fun b => (b, s.m.poisonedAt x))

def State.readPiece (s : State) (ctx home ia n : Nat) : Reach (List PByte) := s.readPieceBy ctx ctx home ia n

/-- n bytes from an IA. -/
def State.readIaBy (s : State) (master ctx ia n : Nat) : Reach (List PByte) :=
  (reachAll (fun p => s.readPieceBy master ctx ((s.ctx ctx).homeOf p.1) p.1 p.2) (pieces ia n)).bind fun l => .ok l.flatten

def State.readIa (s : State) (ctx ia n : Nat) : Reach (List PByte) := s.readIaBy ctx ctx ia n

/-- The number in bytes, and whether any is poisoned. -/
def pnum (l : List PByte) : Nat × Bool := (leNat (l.map (·.1)), l.any (·.2))

/-- Number in n bytes of a list at an offset. -/
def pnumAt (l : List PByte) (off n : Nat) : Nat × Bool := pnum ((l.drop off).take n)

/-- Bytes of a number, with one poison. -/
def pbytes (n x : Nat) (poi : Bool) : List PByte := (leBytes n x).map fun b => (b, poi)

/-- A masked write of one sector by a unit. -/
structure SecW where
  ia : Nat
  home : Nat
  mask : List Bool
  data : List Byte
  poi : Bool
  alloc : Bool := false            -- the home slice keeps the sector (R112, R235)

/-- Bytes of one sector as a write: (place in the sector, byte). -/
def secWrite (sec home : Nat) (l : List (Nat × PByte)) : SecW :=
  let w : SecW := { ia := sec, home := home, mask := List.replicate 32 false, data := List.replicate 32 0, poi := false }
  l.foldl (fun w q => { w with mask := w.mask.set q.1 true, data := w.data.set q.1 q.2.1, poi := w.poi || q.2.2 }) w

/-- The sector may be written now: nothing pending, tenures ended (R115). -/
def State.reachWrite (s : State) (master ctx : Nat) (w : SecW) : Reach (Option Xl) :=
  let n := unitNeed master ctx w.home w.ia 32 .write
  (s.reach n).bind fun x => match x with
    | none => .ok none
    | some x =>
      if s.settled (s.unitDie w.home x) ctx w.ia x then .ok (some x)
      else .hold (s.unitHold { n with die := s.askDie n.home } id)

/-- The die that holds a frame's stack was scrubbed, so a whole-sector write of an engine makes it ordinary (R300). -/
def State.scrubbed (s : State) (x : Xl) : Bool := !x.hst && s.m.scrub.contains (stackOf x.pa / 4)

/-- A unit's write completes at the home; poisoned data arrive as poison (R120). -/
def State.putSec (s : State) (ctx : Nat) (w : SecW) (x : Xl) : State :=
  let s := if w.alloc then { s with m := s.m.install s.now w.home ctx w.ia x (!w.mask.all fun b => b) } else s
  s.complete ctx w.ia (s.unitDie w.home x) x w.mask w.data (w.mask.all (fun b => b) && s.scrubbed x) w.poi true

/-- Writes of several sectors at one instant. -/
def State.writeSecsBy (s : State) (master ctx : Nat) (ws : List SecW) : Reach State :=
  (reachAll (s.reachWrite master ctx) ws).bind fun xs => .ok ((ws.zip xs).foldl (fun s q => match q.2 with
    | some x => s.putSec ctx q.1 x
    | none => s) s)

def State.writeSecs (s : State) (ctx : Nat) (ws : List SecW) : Reach State := s.writeSecsBy ctx ctx ws

/-- Bytes from an IA on as writes. -/
def secWrites (c : Context) (ia : Nat) (l : List PByte) : List SecW :=
  (pieces ia l.length).map fun p =>
    secWrite (secOf p.1) (c.homeOf p.1) (((l.drop (p.1 - ia)).take p.2).zipIdx.map fun q => (p.1 % 32 + q.2, q.1))

def State.writeIaBy (s : State) (master ctx ia : Nat) (l : List PByte) : Reach State :=
  s.writeSecsBy master ctx (secWrites (s.ctx ctx) ia l)

def State.writeIa (s : State) (ctx ia : Nat) (l : List PByte) : Reach State := s.writeIaBy ctx ctx ia l

/-! Virtual addresses (R233). -/

/-- Where a byte of a unit's range lies; poi: its gather index is poisoned. -/
structure BAt where
  src : BSrc
  home : Nat
  poi : Bool

def Acc.writes : Acc → Bool
  | .write | .rmw => true
  | .read | .fetch | .prefetch => false

/-- Gather index elements that n shadow bytes need. -/
def State.indexList (s : State) (ctx : Nat) (v : View) (off n : Nat) : Reach (List (Nat × Nat × Bool)) :=
  if !v.usesGather then .ok []
  else reachAll (fun a => (s.readIa ctx a (2 ^ v.indexSize)).bind fun l => .ok (a, pnum l)) (v.indexes off n)

/-- The bytes of a piece inside one sector, or none where the range check or a permission fails. -/
def State.resolvePiece (s : State) (id ctx : Nat) (va : DWord) (n : Nat) (acc : Acc) : Reach (Option (List BAt)) :=
  let c := s.ctx ctx
  match c.locate va 1 acc with
  | .access | .misaligned => .ok none
  | .plain ia home _ => .ok (some ((List.range n).map fun k => ⟨.mem (ia + k), home, false⟩))
  | .shadow _ v off =>
    if v.remote then
      match c.window? v.baseIa with
      | some w =>
        if Acc.writes acc || w.rt / 2 % 2 == 0 then .ok none
        else .ok (some ((v.farBytes id off n).map fun b => ⟨b, 0, false⟩))
      | none => .ok none
    else if Acc.writes acc && !v.writable then .ok none
    else if v.usesGather && (v.indexes off n).any c.unbacked then .ok none
    else (s.indexList ctx v off n).bind fun ix =>
      let vals := ix.map fun q => (q.1, q.2.1)
      let bad (k : Nat) : Bool := match v.gatherAt (off + k) with
        | some a => ix.any fun q => q.1 == a && q.2.2
        | none => false
      .ok (if c.unbackedAny (v.map vals off n) then none else some ((v.map vals off n).zipIdx.map fun q =>
        let home := match q.1 with
          | .mem ia => c.homeOf ia
          | .fill _ | .far _ _ => 0
        ⟨q.1, home, bad q.2⟩))

/-- An address passes the range check and the permission. -/
def Context.passes (c : Context) (a : Nat) (acc : Acc) : Bool :=
  match c.locate (BitVec.ofNat 64 a) 1 acc with
  | .access | .misaligned => false
  | .plain _ _ _ => true
  | .shadow _ v _ => if v.remote then !Acc.writes acc && (match c.window? v.baseIa with
      | some w => w.rt / 2 % 2 == 1
      | none => false) else !Acc.writes acc || v.writable

/-- Every byte of the range passes (R102, R103, R233): ranges, windows and the aperture are whole 64 KiB units, shadow
ranges whole sectors. -/
def Context.covers (c : Context) (va n : Nat) (acc : Acc) : Bool :=
  decide (va + n ≤ 2 ^ 64) && (cut (2 ^ 16) va n).all fun u => match c.locate (BitVec.ofNat 64 u.1) 1 acc with
    | .plain _ _ _ => true
    | _ => (pieces u.1 u.2).all fun p => c.passes p.1 acc

/-- Options joined. -/
def joinOpt {α : Type} : List (Option (List α)) → Option (List α)
  | [] => some []
  | none :: _ => none
  | some a :: l => match joinOpt l with
    | none => none
    | some b => some (a ++ b)

def lookupSec (l : List (Nat × List PByte)) (ia : Nat) : PByte :=
  match l.find? fun q => q.1 == secOf ia with
  | some q => q.2.getD (ia % 32) (0, false)
  | none => (0, false)

/-- Bytes resolved in one piece, read at their homes. -/
def State.readBytesAt (s : State) (ctx : Nat) (l : List BAt) : Reach (List PByte) :=
  let homeOf (sec : Nat) : Nat := match l.find? fun b => (match b.src with
      | .mem ia => secOf ia == sec
      | .fill _ | .far _ _ => false) with
    | some b => b.home
    | none => 0
  (reachAll (fun sec => (s.readPiece ctx (homeOf sec) sec 32).bind fun x => .ok (sec, x)) (secsOf (l.map (·.src)))).bind fun secs =>
    .ok (l.map fun b => match b.src with
      | .fill x => (x, b.poi)
      | .far x p => (x, p)
      | .mem ia =>
        let q := lookupSec secs ia
        (q.1, q.2 || b.poi))

/-- n bytes from a virtual address; none where a check fails. -/
def State.readVa (s : State) (id ctx : Nat) (va : DWord) (n : Nat) : Reach (Option (List PByte)) :=
  (reachAll (fun p => (s.resolvePiece id ctx (BitVec.ofNat 64 p.1) p.2 .read).bind fun o => match o with
    | none => .ok none
    | some l => (s.readBytesAt ctx l).bind fun x => .ok (some x)) (pieces va.toNat n)).bind fun l => .ok (joinOpt l)

/-- Resolved bytes with their data as writes of base sectors; bytes out of bounds are dropped (R138). -/
def groupWrites (l : List (BAt × PByte)) : List SecW :=
  (secsOf (l.map (·.1.src))).map fun sec =>
    let mine := l.filterMap fun q => match q.1.src with
      | .mem ia => if secOf ia == sec && !q.1.poi then some (ia % 32, q.2) else none
      | .fill _ | .far _ _ => none
    let home := match l.find? fun q => (match q.1.src with
        | .mem ia => secOf ia == sec
        | .fill _ | .far _ _ => false) with
      | some q => q.1.home
      | none => 0
    secWrite sec home mine

/-- Writes that put bytes at a virtual address; none where a check fails. -/
def State.writesVa (s : State) (id ctx : Nat) (va : DWord) (l : List PByte) : Reach (Option (List SecW)) :=
  (reachAll (fun p => (s.resolvePiece id ctx (BitVec.ofNat 64 p.1) p.2 .write).bind fun o => .ok (match o with
    | none => none
    | some b => some (groupWrites (b.zip ((l.drop (p.1 - va.toNat)).take p.2))))) (pieces va.toNat l.length)).bind fun l =>
      .ok (joinOpt l)

/-! The tile store (R119). -/

/-- n bytes of a tile store with their poison. -/
def Workgroup.tileBytes (g : Workgroup) (off n : Nat) : List PByte :=
  (List.range n).map fun k => (g.tile.getD (off + k) 0, g.tpoi.contains ((off + k) / 4))

/-- An engine command writes bytes: a word it writes whole is ordinary, a word that receives poison is poisoned. -/
def Workgroup.putTile (g : Workgroup) (off : Nat) (l : List PByte) : Workgroup :=
  let n := l.length
  let words := if n == 0 then [] else (List.range ((off + n - 1) / 4 + 1 - off / 4)).map (off / 4 + ·)
  let bad (w : Nat) : Bool := (List.range 4).any fun k =>
    decide (off ≤ 4 * w + k) && (match l[4 * w + k - off]? with
      | some q => q.2
      | none => false)
  let tpoi := words.foldl (fun p w =>
    if bad w then nsInsert w p else if off ≤ 4 * w && 4 * w + 4 ≤ off + n then nsErase w p else p) g.tpoi
  { g with tile := splice g.tile off (l.map (·.1)), tpoi := tpoi }

/-! Errors met by engines. -/

/-- Issuer of a unit's work, for late traps. -/
def MEnt.who (m : MEnt) : Who := { core := m.core, slot := m.slot, tid := m.tid, uid := m.uid, pc := m.pc, issued := m.issued }

end Sys2Proof.Machine
end

