-- ==== Sys2Proof/Machine/Delta.lean ====
section
/-! DEFINITION. The delta engine: instructions 0x160-0x164, the grants of a core's matrix engine, and write-back
(R203, R211-R228). -/

namespace Sys2Proof.Machine

/-! Layer slots (R211, R212). -/

def DSlot.num (q : DSlot) (off n : Nat) : Nat := numAt q.raw off n
def DSlot.k (q : DSlot) : Nat := q.num 24 4
def DSlot.n (q : DSlot) : Nat := q.num 28 4
def DSlot.m (q : DSlot) : Nat := q.num 32 2
def DSlot.period (q : DSlot) : Nat := q.num 34 1
def DSlot.expLimit (q : DSlot) : Int := (BitVec.ofNat 8 (q.num 35 1)).toInt
/-- Threshold as magnitude bits. -/
def DSlot.tau (q : DSlot) : Nat := q.num 36 4 % 2 ^ 31
def DSlot.weight (q : DSlot) : Nat := q.num 0 8
def DSlot.xprev (q : DSlot) : Nat := q.num 8 8
def DSlot.yprev (q : DSlot) : Nat := q.num 16 8
def DSlot.scale (q : DSlot) : Nat := q.num 48 8

def overlaps (a b : Nat × Nat) : Bool := decide (a.1 < b.1 + b.2) && decide (b.1 < a.1 + a.2)

/-- A malformed slot (R212). DESIGN CHOICE: bits 30:18 of watch_id are reserved within a field of the hardware's own, which a
load ignores; they make no slot malformed (log 89). -/
def DSlot.bad (q : DSlot) (c : Context) : Bool :=
  let t := q.num 36 4
  let ia (x al : Nat) : Bool := x % al != 0 || decide (2 ^ 52 ≤ x) || c.inAperture x
  let rs := [(q.weight, q.k * q.n), (q.scale, q.k * q.n / 2048), (q.xprev, 4 * q.m * q.k), (q.yprev, 4 * q.m * q.n)]
  q.num 60 4 != 0 || q.num 46 2 / 4 != 0 ||
  q.k % 128 != 0 || q.k < 128 || 65536 < q.k || q.n % 64 != 0 || q.n < 64 || 3072 < q.n || q.m == 0 || 64 < q.m ||
  q.period == 0 || (0x7F800000 ≤ t && t != 0x80000000) ||
  ia q.weight 128 || ia q.scale 4 || ia q.xprev 32 || ia q.yprev 32 ||
  (List.range 4).any fun i => (List.range i).any fun j => overlaps (rs.getD i (0, 0)) (rs.getD j (0, 0))

def State.slot? (s : State) (core ctx layer : Nat) : Option DSlot :=
  s.e.slots.find? fun q => q.core == core && q.ctx == ctx && q.layer == layer

def State.modSlot (s : State) (core ctx layer : Nat) (f : DSlot → DSlot) : State :=
  { s with e := { s.e with slots := s.e.slots.map fun q =>
      if q.core == core && q.ctx == ctx && q.layer == layer then f q else q } }

/-- A dmul entry on a slot. -/
def MEnt.onSlot (core ctx layer : Nat) (m : MEnt) : Bool :=
  m.core == core && m.ctx == ctx && match m.op with
    | .dmul l _ => l == layer
    | _ => false

/-- dmul entries on a slot (R214). -/
def State.pendingOn (s : State) (core ctx layer : Nat) : Bool := s.e.entries.any (MEnt.onSlot core ctx layer)

/-- dmul entries on a slot that entered the table before another (R225). -/
def State.pendingBefore (s : State) (core ctx layer ord : Nat) : Bool :=
  s.e.entries.any fun m => m.onSlot core ctx layer && decide (m.ord < ord)

/-! Watches (R216, R217). -/

/-- The watch version: the sum of the counts, all ones when one is saturated. -/
def Watch.version (w : Watch) : Nat :=
  if w.cnt.any fun c => decide (0x3FFFFFFF ≤ c) then 0xFFFFFFFF else w.cnt.foldl (· + ·) 0

/-- Version of a slot; a slot without a watch never matches. -/
def State.versionOf (s : State) (q : DSlot) : Nat :=
  match q.watch with
  | none => 0xFFFFFFFF
  | some n => match s.m.watches.find? (·.n == n) with
    | some w => w.version
    | none => 0xFFFFFFFF

def Mem.freeWatch (m : Mem) : Option Nat := (List.range 1024).find? fun n => !m.watches.any (·.n == n)

def DSlot.watchId (q : DSlot) : Nat := 2 ^ 31 + q.core * 1024 + q.watch.getD 0x3FF

/-! Loading and eviction (R214, R224). -/

/-- Hardware fields written back, the watch released, H cleared: one write at the slot's second sector. -/
def State.evictSlot (s : State) (q : DSlot) : Reach State :=
  let c := s.ctx q.ctx
  let sec := q.ia + 32
  let flags := if q.valid then 1 else 0
  let l := leBytes 4 q.versionSeen.toNat ++ leBytes 2 q.count ++ leBytes 2 flags
  let w := secWrite sec (c.homeOf sec) ((l.zipIdx.map fun x => (8 + x.2, (x.1, false))) ++
    ((leBytes 4 0x3FF).zipIdx.map fun x => (24 + x.2, (x.1, false))))
  (s.writeSecs q.ctx [w]).bind fun s =>
    let keep (x : DSlot) : Bool := !(x.core == q.core && x.ctx == q.ctx && x.layer == q.layer)
    let m := match q.watch with
      | some n => { s.m with watches := s.m.watches.filter (·.n != n) }
      | none => s.m
    .ok { s with m := m, e := { s.e with slots := s.e.slots.filter keep } }

/-- What a load of a slot comes to. -/
inductive SlotRes where
  | got (s : State) (q : DSlot) (status : Nat)
  | fail (status : Nat)
  | poison
  | wait (s : State)
  | page (s : State) (home ia : Nat)
  | viol (ia : Nat) (acc : Acc)

def Reach.slot {α : Type} (r : Reach α) (f : α → SlotRes) : SlotRes :=
  match r with
  | .ok a => f a
  | .hold s => .wait s
  | .page s h i => .page s h i
  | .viol i a => .viol i a

/-- The least recently used slot without a pending dmul. -/
def State.slotVictim (s : State) (core : Nat) : Option DSlot :=
  (s.e.slots.filter fun q => q.core == core && !q.saved && !s.pendingOn core q.ctx q.layer).foldl (fun a q => match a with
    | none => some q
    | some b => if q.used < b.used then some q else a) none

/-- Both sectors of the slot, read at their homes with the right to write, settled. -/
def State.readSlot (s : State) (ctx ia : Nat) : Reach (List PByte) :=
  (reachAll (fun k =>
    let sec := ia + 32 * k
    let home := (s.ctx ctx).homeOf sec
    (s.reach (engNeed ctx home sec 32 .rmw)).bind fun x => match x with
      | none => .ok (List.replicate 32 (0, true))
      | some x =>
        if s.settled home ctx sec x then .ok ((s.m.bytesAt x 32).map fun b => (b, s.m.poisonedAt x)) else .hold s)
    [0, 1]).bind fun l => .ok l.flatten

/-- The slot enters the cache and takes the lowest free watch. -/
def State.enterSlot (s : State) (q : DSlot) : State × DSlot :=
  match s.m.freeWatch with
  | none => ({ s with e := { s.e with slots := s.e.slots ++ [q] } }, q)
  | some n =>
    let q := { q with watch := some n }
    let w : Watch := { n := n, ctx := q.ctx, w0 := q.weight, w1 := q.k * q.n, s0 := q.scale, s1 := q.k * q.n / 2048,
                       cnt := List.replicate 4 0 }
    ({ s with m := { s.m with watches := s.m.watches ++ [w] }, e := { s.e with slots := s.e.slots ++ [q] } }, q)

/-- Room for one more slot in a core's cache of 16: a victim leaves for the table, or, its context being Out, for the
context image (R214, R226). -/
def State.slotRoom (s : State) (core : Nat) (go : State → SlotRes) : SlotRes :=
  if (s.e.slots.filter fun q => q.core == core && !q.saved).length < 16 then go s
  else match s.slotVictim core with
    | none => .wait s
    | some v =>
      if (s.ctx v.ctx).state == .out then go (s.modSlot core v.ctx v.layer fun q => { q with saved := true })
      else (s.evictSlot v).slot go

/-- A load of layer L on a core: one step at the home of the slot's line. The holder is looked at before the rest of the
slot (R214). -/
def State.loadSlot (s : State) (core ctx layer : Nat) : SlotRes :=
  match s.slot? core ctx layer with
  | some q =>
    let hit (s : State) : SlotRes := .got (s.modSlot core ctx layer fun q => { q with used := s.now, saved := false }) q 1
    if q.saved then s.slotRoom core hit else hit s
  | none =>
    let ia := ((s.ctx ctx).slotbase.toNat + 64 * layer) % 2 ^ 52
    (s.readSlot ctx ia).slot fun l =>
      let raw := l.map (·.1)
      let id := numAt raw 56 4
      let q : DSlot := { core := core, ctx := ctx, layer := layer, ia := ia, raw := raw, valid := false, watch := none,
                         versionSeen := Config.openWord s.nextId, count := 0, skipped := 0, computed := 0,
                         calls := 0, fulls := 0, used := s.now }
      if (l.drop 32).any (·.2) then .poison
      else if id / 2 ^ 31 == 1 && fld id 10 8 != core then .fail 4
      else if l.any (·.2) then .poison
      else if q.bad (s.ctx ctx) then .fail 3
      else
        s.slotRoom core fun s =>
          let s := s.fresh
          (s.writeIa ctx (ia + 56) (pbytes 4 (id % 2 ^ 10 + core * 2 ^ 10 + fld id 18 13 * 2 ^ 18 + 2 ^ 31) false)).slot fun s =>
            let r := s.enterSlot q
            .got r.1 r.2 (if r.2.watch.isSome then 0 else 2)

/-! Instructions (R218, R223-R225). -/

/-- A slot load that does not succeed, as the thread meets it. -/
def Env.slotFail (e : Env) (r : SlotRes) (onFail : Nat → Res) : Res :=
  match r with
  | .got s _ _ => .done s
  | .fail k => onFail k
  | .poison => .trap 5 0 0 false
  | .wait s => .waitIn s
  | .page s h i => .block s (.page h i)
  | .viol i a => .ended ((e.s.violation e.g.ctx i a (unitCore e.g.core 2)).modThread e.g.core e.g.slot e.t.tid fun t =>
      t.trap 4 0 t.pc (BitVec.ofNat 64 i) t.pc)

def execDslot (h : Hdr) (d : Option Nat) (a : Src) (s : State) : Host.Outcome State Fault Refusal :=
  threadOp (.dslot h d a) (fun e =>
    let layer := (e.src a).toNat
    if 4095 < layer then .trap 4 0 ((e.src a).setWidth 64) false
    else match e.s.loadSlot e.g.core e.g.ctx layer with
      | .got s _ k => .done (e.giveV s d (BitVec.ofNat 32 k))
      | r => e.slotFail r fun k => .done (e.giveV e.s d (BitVec.ofNat 32 k))) s

def execDmul (h : Hdr) (d : Nat) (a b : Src) (c : Option Nat) (s : State) : Host.Outcome State Fault Refusal :=
  threadOp (.dmul h d a b c) (fun e =>
    let layer := (e.src a).toNat
    let x := (e.src b).toNat
    if 4095 < layer then .trap 4 0 ((e.src a).setWidth 64) false
    else match e.s.loadSlot e.g.core e.g.ctx layer with
      | .got s q _ =>
        let n := 2 * q.k * q.m
        let trapped (cause : Nat) (fa : Nat) : Res := .ended (s.modThread e.g.core e.g.slot e.t.tid fun t =>
          t.trap cause 0 t.pc (BitVec.ofNat 64 fa) t.pc)
        if e.g.accum < d + q.n / 64 then trapped 4 0
        else if e.g.tile.length < x + n then trapped 4 x
        else if x % 32 != 0 then trapped 3 x
        else match ({ e with s := s } : Env).enter (.dmul layer x) d c (granulesOf x n) with
          | .wait => .waitIn s
          | r => r
      | r => e.slotFail r fun _ => .trap 4 0 ((e.src a).setWidth 64) false) s

/-- The thread waits for the dmul entries on the slot that are earlier than the instruction (R225). -/
def Env.afterCalls (e : Env) (a : Src) (f : Nat → Res) : Res :=
  let layer := (e.src a).toNat
  let ord := e.t.dwait.getD e.s.e.nextOrd
  if e.s.pendingBefore e.g.core e.g.ctx layer ord then .block e.s (.delta layer ord) else f layer

def execDfresh (h : Hdr) (a : Src) (s : State) : Host.Outcome State Fault Refusal :=
  threadOp (.dfresh h a) (fun e => e.afterCalls a fun layer =>
    .done (e.s.modSlot e.g.core e.g.ctx layer fun q => { q with valid := false })) s

/-- dinval. DESIGN CHOICE: dmul entries on the slot that are later than the instruction do not hold it; such an entry then gets
no step and writes nothing back until the slot is loaded again (R225, log 91). -/
def execDinval (h : Hdr) (d : Option Nat) (a : Src) (s : State) : Host.Outcome State Fault Refusal :=
  threadOp (.dinval h d a) (fun e => e.afterCalls a fun layer =>
    match e.s.slot? e.g.core e.g.ctx layer with
    | none => .done (e.giveV e.s d 1)
    | some q => match e.s.evictSlot { q with valid := false } with
      | .ok s => .done (e.giveV s d 0)
      | .hold s => .waitIn s
      | .page s h i => .block s (.page h i)
      | .viol i w => e.slotFail (.viol i w) fun _ => .skip) s

/-- Words of dstat. -/
def State.slotWord (s : State) (q : DSlot) (n : Nat) : Word :=
  BitVec.ofNat 32 (match n with
    | 0 => q.versionSeen.toNat
    | 1 => s.versionOf q
    | 2 => 2 ^ 31 + ((if q.valid then 1 else 0) + if q.watch.isSome then 2 else 0) * 2 ^ 16 + q.count
    | 3 => q.watchId
    | 4 => q.skipped
    | 5 => q.computed
    | 6 => q.calls
    | _ => q.fulls)

def execDstat (h : Hdr) (d : Nat) (a b : Src) (s : State) : Host.Outcome State Fault Refusal :=
  threadOp (.dstat h d a b) (fun e => e.afterCalls a fun layer =>
    .done (e.giveV e.s (some d) (match e.s.slot? e.g.core e.g.ctx layer with
      | some q => e.s.slotWord q ((e.src b).toNat % 8)
      | none => 0))) s

/-! Quantisation (R219). -/

/-- x element (i, k). -/
def Workgroup.deltaX (g : Workgroup) (q : DSlot) (x i k : Nat) : Nat × Bool := g.tileNum (x + 2 * (q.k * i + k)) 2

/-- d of one element: bits of the rounded difference. -/
def deltaD (x xp : Nat) : Nat := (fp32.dot .rn false [(bfl16.val x).asProd, (fp32.val xp).flip.asProd]).1

/-- Smallest e with m at most 448 times 2^e. -/
def deltaExp (m : Nat) : Int :=
  match fp32.val m with
  | .fin _ k e =>
    let n := Nat.log2 k + 1
    if 8 * k ≤ 7 * 2 ^ n then e + n - 9 else e + n - 8
  | _ => 0

/-- A quantised vector: largest |d|, exponent, E4M3 elements. -/
structure Quant where
  d : List Nat
  big : Nat
  e : Int
  q : List Nat

def quantise (tau : Nat) (d : List Nat) : Quant :=
  let big := d.foldl (fun a x => max a (x % 2 ^ 31)) 0
  let e : Int := if tau < big then deltaExp big else 0
  let f (x : Nat) : Nat :=
    if x % 2 ^ 31 ≤ tau then 0
    else match fp32.val x with
      | .fin n m k => (toE4 false (.fin n m (k - e))).1
      | v => (toE4 false v).1
  { d := d, big := big, e := e, q := d.map f }

/-- Vector (i, b) from x and a row of x_prev. -/
def Workgroup.deltaVec (g : Workgroup) (q : DSlot) (x i b : Nat) (xp : List PByte) : Quant :=
  quantise q.tau ((List.range 128).map fun k =>
    deltaD (g.deltaX q x i (128 * b + k)).1 (pnumAt xp (4 * (128 * b + k)) 4).1)

/-- Every q of the vector is a zero. -/
def Quant.zero (v : Quant) : Bool := v.q.all fun x => x % 128 == 0

def rowsOf (n : Nat) : List Nat := List.range n

/-- x_prev, row by row. -/
def State.readRows (s : State) (ctx ia pitch m : Nat) : Reach (List (List PByte)) :=
  reachAll (fun i => s.readIa ctx (ia + pitch * i) pitch) (rowsOf m)

/-- First grant (R219): with the version v that it read, the mode and the steps the call takes. -/
def State.startCall (s : State) (q : DSlot) (g : Workgroup) (x v : Nat) : Reach DRun :=
  (s.readRows q.ctx q.xprev (4 * q.k) q.m).bind fun xs =>
    (s.readRows q.ctx q.yprev (4 * q.n) q.m).bind fun ys =>
      let nb := q.k / 128
      let vecs := (rowsOf q.m).map fun i => (List.range nb).map fun b => g.deltaVec q x i b (xs.getD i [])
      let poisoned := xs.any (fun r => r.any (·.2)) || ys.any fun r => r.any (·.2)
      let wild := vecs.any fun r => r.any fun u =>
        u.d.any (fun d => decide (0x7F800000 ≤ d % 2 ^ 31)) || (decide (q.tau < u.big) && decide (q.expLimit < u.e))
      let full := !q.valid || q.watch.isNone || v != q.versionSeen.toNat || v == 0xFFFFFFFF ||
        decide (q.period ≤ q.count) || poisoned || wild
      let skipped := if full then 0
        else ((List.range nb).filter fun b => vecs.all fun r => match r[b]? with
          | some u => u.zero
          | none => true).length
      .ok { full := full, version := BitVec.ofNat 32 v, steps := (nb - skipped) * (q.n / 64), computed := nb - skipped,
            skipped := skipped, writing := false, units := 0 }

/-! Grants (R203, R204). -/

/-- A step is granted to an entry. -/
def State.takeStep (s : State) (m : MEnt) (run : Option DRun) : State :=
  let s := (s.modEntry m.core m.idx fun x =>
    { x with granted := some s.now, drun := run, eligible := if run.isSome then some s.now else x.eligible, heldOn := 0 }).noteGrant m
  { s.perfAdd m.core m.ctx 6 1 with e := { (s.perfAdd m.core m.ctx 6 1).e with step := s.e.step.set m.core (s.now + 16) } }

/-- An access of a call was refused: the lane traps late, the entry goes (R215). -/
def State.failCall (s : State) (m : MEnt) (ia : Nat) (acc : Acc) : State :=
  ((s.violation m.ctx ia acc (unitCore m.core 2)).lateTrap m.who m.ctx 4 (BitVec.ofNat 64 ia) ia 0).endEntry m

/-- The arbiter's grants at one boundary: calls without steps, and held calls, leave the step to the next entry. -/
def State.grantGo (core : Nat) : Nat → List Nat → State → State
  | 0, _, s => s
  | f + 1, skip, s =>
    match s.arbiter core fun m => !skip.contains m.idx with
    | none => s
    | some m =>
      match m.op, m.drun with
      | .dmul layer x, none =>
        match s.slot? core m.ctx layer, s.wg? m.core m.slot with
        | some q, some g =>
          let v := m.vread.getD (BitVec.ofNat 32 (s.versionOf q))
          let held (ia : Nat) (y : MEnt) : MEnt := { y with vread := some v, heldOn := ia, granted := some s.now }
          match s.startCall q g x v.toNat with
          | .ok r =>
            if r.steps == 0 then
              State.grantGo core f skip ((s.modEntry core m.idx fun y =>
                { y with granted := some s.now, drun := some r, vread := some v, heldOn := 0 }).noteGrant m)
            else (s.modEntry core m.idx (held 0)).takeStep m (some { r with steps := r.steps - 1 })
          | .hold s => State.grantGo core f (skip ++ [m.idx]) (s.modEntry core m.idx (held 0))
          | .page s _ ia => State.grantGo core f (skip ++ [m.idx]) (s.modEntry core m.idx (held ia))
          | .viol ia a => State.grantGo core f skip (s.failCall m ia a)
        | _, _ => State.grantGo core f (skip ++ [m.idx]) s
      | .dmul _ _, some r => s.takeStep m (some { r with steps := r.steps - 1 })
      | _, _ => s.takeStep m none

/-- MATRIX_GRANT: at a step boundary the arbiter grants one entry. -/
def execMatrixGrant (core : Nat) (s : State) : Host.Outcome State Fault Refusal :=
  .next (if s.now < s.e.step.getD core 0 then s else State.grantGo core 40 [] s)

/-! Computing and writing back (R220, R221, R227). -/

/-- Left operand of a row: values of a block, its scale, whether some x of the row is poisoned. -/
structure DRow where
  vals : List (List Val)
  scales : List Val
  poi : Bool

def Workgroup.deltaRow (g : Workgroup) (q : DSlot) (full : Bool) (x i : Nat) (xp : List PByte) : DRow :=
  let blocks := List.range (q.k / 128)
  let poi := (List.range q.k).any fun k => (g.deltaX q x i k).2
  if full then
    { vals := blocks.map fun b => (List.range 128).map fun k => bfl16.val (g.deltaX q x i (128 * b + k)).1
      scales := blocks.map fun _ => oneV, poi := poi }
  else
    let vs := blocks.map fun b => g.deltaVec q x i b xp
    { vals := vs.map fun v => v.q.map fp8.val, scales := vs.map fun v => .fin false 1 v.e, poi := poi }

/-- A panel and its scale. -/
structure DPanel where
  b : Nat
  w : List PByte
  sw : Nat × Bool

/-- One element: the blocks in ascending order. -/
def deltaElem (r : DRow) (ps : List DPanel) (j : Nat) (acc : PWord) : PWord :=
  ps.foldl (fun (acc : PWord) p =>
    let vals := r.vals.getD p.b []
    let ws := (List.range 128).map fun k => p.w.getD (panelOff 0 j k) (0, false)
    let s := (vals.zip ws).foldl (fun a q => mac q.1 (fp8.val q.2.1.toNat) a) 0
    let sc := (fp32.dot .rn false [(r.scales.getD p.b oneV).times (fp32.val p.sw.1)]).1
    { val := BitVec.ofNat 32 (macScale s sc acc.val.toNat), poi := acc.poi || ws.any (·.2) || p.sw.2 }) acc

/-- The panels of column block c that the call computes. -/
def State.readPanels (s : State) (q : DSlot) (c : Nat) (blocks : List Nat) : Reach (List DPanel) :=
  reachAll (fun b =>
    let at_ := b * (q.n / 64) + c
    (s.readIa q.ctx (q.weight + 8192 * at_) 8192).bind fun w =>
      (s.readIa q.ctx (q.scale + 4 * at_) 4).bind fun sw => .ok { b := b, w := w, sw := pnum sw }) blocks

/-- The tiles of a call. -/
def State.callTiles (s : State) (q : DSlot) (g : Workgroup) (r : DRun) (x : Nat) : Reach (List (List PWord)) :=
  (s.readRows q.ctx q.xprev (4 * q.k) q.m).bind fun xs =>
    (s.readRows q.ctx q.yprev (4 * q.n) q.m).bind fun ys =>
      let rows := (rowsOf q.m).map fun i => g.deltaRow q r.full x i (xs.getD i [])
      let skip (b : Nat) : Bool := !r.full && (rowsOf q.m).all fun i => (g.deltaVec q x i b (xs.getD i [])).zero
      let blocks := (List.range (q.k / 128)).filter fun b => !skip b
      reachAll (fun c => (s.readPanels q c blocks).bind fun ps =>
        .ok (tileOf fun i j =>
          match rows[i]? with
          | none => {}
          | some row =>
            let y := pnumAt (ys.getD i []) (4 * (64 * c + j)) 4
            let acc : PWord := if r.full then {} else { val := BitVec.ofNat 32 y.1, poi := y.2 }
            let v := deltaElem row ps j acc
            { v with poi := v.poi || row.poi })) (List.range (q.n / 64))

/-- A row of y_prev from the tiles. -/
def Workgroup.yRow (g : Workgroup) (q : DSlot) (d i : Nat) : List PByte :=
  (List.range q.n).flatMap fun n =>
    let v := (g.acc.getD (d + n / 64) []).getD (64 * i + n % 64) {}
    pbytes 4 v.val.toNat v.poi

/-- A vector of x_prev after the call, from what it held. -/
def Workgroup.xVec (g : Workgroup) (q : DSlot) (full : Bool) (x i b : Nat) (old : List PByte) : List PByte :=
  let xs := (List.range 128).map fun k => g.deltaX q x i (128 * b + k)
  if full then xs.flatMap fun v => pbytes 4 (v.1 * 2 ^ 16) v.2
  else
    let bad := xs.any (·.2)
    let v := quantise q.tau (xs.zipIdx.map fun p => deltaD p.1.1 (pnumAt old (4 * p.2) 4).1)
    (List.range 128).flatMap fun k =>
      let o := pnumAt old (4 * k) 4
      let e := v.q.getD k 0
      if e % 128 == 0 then pbytes 4 o.1 (o.2 || bad)
      else pbytes 4 (fp32.dot .rn false [(fp8.val e).times (.fin false 1 v.e), (fp32.val o.1).asProd]).1 (o.2 || bad)

/-- The slot after a call, and its entry gone. -/
def State.endCall (s : State) (m : MEnt) (layer : Nat) (r : DRun) : State :=
  let s := s.modSlot m.core m.ctx layer fun q =>
    { q with
      valid := true
      versionSeen := if r.full then r.version else q.versionSeen
      count := if r.full then 0 else q.count + 1
      skipped := r.skipped
      computed := r.computed
      calls := q.calls + 1
      fulls := if r.full then q.fulls + 1 else q.fulls
      used := s.now }
  (s.perfAdd m.core m.ctx 7 r.skipped).endEntry m

/-- One event of a call: its tiles, or one write-back unit, or its end. -/
def State.callStep (s : State) (m : MEnt) (layer x : Nat) (q : DSlot) (g : Workgroup) (r : DRun) : State :=
  let put (s : State) (r : DRun) : State := s.modEntry m.core m.idx fun y => { y with drun := some r, heldOn := 0 }
  let finish (o : Reach State) : State :=
    match o with
    | .ok s => s
    | .hold s => s
    | .page s _ ia => s.modEntry m.core m.idx fun y => { y with heldOn := ia }
    | .viol ia a => (s.modSlot m.core m.ctx layer fun q => { q with valid := false }).failCall m ia a
  if !r.writing then
    if 0 < r.computed && s.now < m.granted.getD 0 + 16 then s
    else finish ((s.callTiles q g r x).bind fun ts =>
      .ok (put (s.modWg m.core m.slot fun g =>
        { g with acc := ts.zipIdx.foldl (fun acc t => acc.set (m.d + t.2) t.1) g.acc }) { r with writing := true }))
  else if r.units < q.m then
    finish ((s.writeIa q.ctx (q.yprev + 4 * q.n * r.units) (g.yRow q m.d r.units)).bind fun s =>
      .ok (put s { r with units := r.units + 1 }))
  else if r.units < q.m + q.m * (q.k / 128) then
    let u := r.units - q.m
    let i := u / (q.k / 128)
    let b := u % (q.k / 128)
    let ia := q.xprev + 4 * (q.k * i + 128 * b)
    finish ((s.readIa q.ctx ia 512).bind fun old =>
      (s.writeIa q.ctx ia (g.xVec q r.full x i b old)).bind fun s => .ok (put s { r with units := r.units + 1 }))
  else s.endCall m layer r

/-- DELTA_WRITEBACK: after the last step (R221), unit by unit while the context runs. -/
def execDeltaWriteback (core idx : Nat) (s : State) : Host.Outcome State Fault Refusal :=
  match s.e.entries.find? fun m => m.core == core && m.idx == idx with
  | none => .next s
  | some m =>
    match m.op, m.drun with
    | .dmul layer x, some r =>
      match s.slot? core m.ctx layer, s.wg? m.core m.slot with
      | some q, some g =>
        .next (if r.steps == 0 && (s.ctx m.ctx).runs && g.resident then s.callStep m layer x q g r else s)
      | _, _ => .next s
    | _, _ => .next s

end Sys2Proof.Machine
end

