-- ==== Sys2Proof/Machine/Commands.lean ====
section
/-! DEFINITION. Engine commands: parameter blocks, checks at acceptance, and what each command does
(R229-R246). -/

namespace Sys2Proof.Machine

/-! Blocks and checks (R231). -/

/-- The lowest code whose condition holds (log 16). -/
def lowCode (l : List (Nat × Bool)) : Option Nat :=
  l.foldl (fun a q => if !q.2 then a else match a with
    | none => some q.1
    | some k => some (min k q.1)) none

/-- Result of the checks of a block: a code, or the tile-store ranges that the command reads or writes. -/
abbrev Examined := Except Nat (List (Nat × Nat))

/-- Limits first, then the rest. -/
def examined (limits : List (Nat × Bool)) (rest : Unit → List (Nat × Bool)) (ranges : List (Nat × Nat)) : Examined :=
  match lowCode limits with
  | some k => .error k
  | none => match lowCode (rest ()) with
    | some k => .error k
    | none => .ok ranges

/-- Bytes of a block from one offset to another are zero. -/
def zeroIn (blk : List Byte) (a b : Nat) : Bool := numAt blk a (b - a) == 0

/-- A tile-store range leaves the allocation. -/
def Workgroup.outside (g : Workgroup) (off n : Nat) : Bool := decide (g.tile.length < off + n)

/-- Where a location fails: the tile store, or memory. -/
def locBad (c : Context) (g : Workgroup) (tile : Bool) (at_ n : Nat) (acc : Acc) : List (Nat × Bool) :=
  if tile then [(4, g.outside at_ n)] else [(2, !c.covers at_ n acc)]

/-! The copy block (R235-R238). -/

structure Copy where
  fn : Nat
  src : Nat
  dst : Nat
  sdst : Nat
  cnt : Nat
  fmt : Nat
  flg : Nat
  nc : Nat
  pitch : Nat
  rest : Bool                      -- a reserved byte is not zero

def copyOf (fn : Nat) (b : List Byte) : Copy :=
  { fn := fn, src := numAt b 0 8, dst := numAt b 8 8, sdst := numAt b 0x10 8, cnt := numAt b 0x18 4, fmt := numAt b 0x1C 1,
    flg := numAt b 0x1D 1, nc := numAt b 0x20 4, pitch := numAt b 0x24 4, rest := !zeroIn b 0x1E 0x20 || !zeroIn b 0x28 0x40 }

namespace Copy

def none64 : Nat := 0xFFFFFFFFFFFFFFFF
def srcTile (q : Copy) : Bool := q.flg % 2 == 1
def dstTile (q : Copy) : Bool := q.flg / 2 % 2 == 1
def orientB (q : Copy) : Bool := q.flg / 4 % 2 == 1
def onBytes (q : Copy) : Bool := q.flg / 8 % 2 == 1
def rowMajor (q : Copy) : Bool := q.fmt == 2 || q.fmt == 3
def nrb (q : Copy) : Nat := (q.cnt + 63) / 64
def ncb (q : Copy) : Nat := (q.nc + 63) / 64
def panels (q : Copy) : Nat := if q.rowMajor then q.nrb * q.ncb else q.cnt
def scaled (q : Copy) : Bool := q.fn == 1 && (q.fmt == 0 || q.fmt == 1) && q.sdst != none64
def scaleBytes (q : Copy) : Nat := if q.fmt == 0 then 4 else 256
def groups (q : Copy) : Nat := (q.cnt + 63) / 64

/-- Bits 5:4 of FLG name the bypass hint (R34, R235). -/
def bypass (q : Copy) : Bool := q.flg / 16 % 4 == 3

/-- Bytes of the storage side; first: bytes of the first group of a format-4 source. -/
def storage (q : Copy) (first : Nat) : Nat :=
  match q.fmt with
  | 0 => if q.cnt % 2 == 1 then 16416 * (q.cnt / 2) + 32 + 128 * 127 + 64 else 16416 * (q.cnt / 2)
  | 1 => 8448 * q.cnt
  | 4 => if q.fn == 1 then first else 8 * q.groups + 8192 * q.cnt
  | _ => q.pitch * (q.cnt - 1) + 2 * q.nc

def srcLen (q : Copy) (first : Nat) : Nat :=
  match q.fn with
  | 0 => q.cnt
  | 1 => q.storage first
  | _ => 8192 * q.panels

def dstLen (q : Copy) : Nat :=
  match q.fn with
  | 0 => q.cnt
  | 1 => 8192 * q.panels
  | _ => q.storage 0

def storageAlign (q : Copy) : Nat :=
  match q.fmt with
  | 0 | 1 => 32
  | 4 => 8
  | _ => 2

def panelAlign (tile : Bool) : Nat := if tile then 8192 else 128

def srcAlign (q : Copy) : Nat :=
  match q.fn with
  | 0 => 4
  | 1 => q.storageAlign
  | _ => panelAlign q.srcTile

def dstAlign (q : Copy) : Nat :=
  match q.fn with
  | 0 => 4
  | 1 => panelAlign q.dstTile
  | _ => q.storageAlign

/-- Reserved and unused fields, and limits. -/
def limits (q : Copy) : Bool :=
  let unused2 := q.fn == 0 || !q.rowMajor
  q.rest || decide (64 ≤ q.flg) ||
  (q.orientB && unused2) || (q.onBytes && !(q.fn == 2 && q.fmt == 4)) ||
  (!(q.fn == 1 && (q.fmt == 0 || q.fmt == 1)) && q.sdst != 0 && q.sdst != none64) ||
  (match q.fn with
   | 0 => q.fmt != 0 || q.nc != 0 || q.pitch != 0 || q.cnt < 4 || 16777216 < q.cnt
   | _ => 4 < q.fmt || (q.fn == 2 && q.fmt < 2) || q.cnt == 0 || 65535 < q.cnt ||
     (if q.rowMajor then q.nc == 0 || 65535 < q.nc || q.pitch % 2 == 1 || q.pitch < 2 * q.nc
      else q.nc != 0 || q.pitch != 0))

/-- Bytes of the groups of a format-4 source from panel p on, by the bitmaps that stand in the tile store. -/
def tileLen (q : Copy) (g : Workgroup) : Nat → Nat → Nat → Nat
  | 0, _, _ => 0
  | f + 1, src, p =>
    let n := 8 + 8192 * ((List.range (min 64 (q.cnt - p))).filter fun k => numAt g.tile src 8 / 2 ^ k % 2 == 1).length
    n + q.tileLen g f (src + n) (p + 64)

/-- Bytes of the source that the command will read from the tile store: of a format-4 source those of all groups. -/
def tileSrc (q : Copy) (g : Workgroup) (first : Nat) : Nat :=
  if q.fn == 1 && q.fmt == 4 then min (q.tileLen g q.groups q.src 0) (g.tile.length - q.src) else q.srcLen first

def examine (q : Copy) (c : Context) (g : Workgroup) (first : Nat) : Examined :=
  let sl := q.srcLen first
  let range (tile : Bool) (at_ n : Nat) : List (Nat × Nat) := if tile then [(at_, n)] else []
  examined [(1, q.limits)] (fun _ =>
    [(3, q.src % q.srcAlign != 0), (3, q.dst % q.dstAlign != 0), (3, q.fn == 0 && q.cnt % 4 != 0)] ++
    locBad c g q.srcTile q.src sl .read ++ locBad c g q.dstTile q.dst q.dstLen .write ++
    (if q.scaled then locBad c g q.dstTile q.sdst (q.scaleBytes * q.cnt) .write else []))
    (range q.srcTile q.src (q.tileSrc g first) ++ range q.dstTile q.dst q.dstLen ++
      if q.scaled then range q.dstTile q.sdst (q.scaleBytes * q.cnt) else [])

end Copy

/-! Reading and writing for a command. -/

def Cmd.num (c : Cmd) (off n : Nat) : Nat := numAt c.blk off n

/-- What the command touches of memory stays in the home slices: a Retriever's, unless its hint is bypass (R235). -/
def Cmd.allocs (c : Cmd) : Bool := c.eng == 0 && c.num 0x1D 1 / 16 % 4 != 3

/-- n bytes of the tile store or of memory. -/
def State.fetchLoc (s : State) (c : Cmd) (g : Workgroup) (tile : Bool) (at_ n : Nat) : Reach (Option (List PByte)) :=
  if tile then .ok (some (g.tileBytes at_ n)) else s.readVa c.id c.ctx (BitVec.ofNat 64 at_) n

/-- Bytes put into the tile store or memory. -/
def State.putLoc (s : State) (c : Cmd) (tile : Bool) (q : Nat × List PByte) : Reach (Option State) :=
  if tile then .ok (some (s.modWg c.core c.slot fun g => g.putTile q.1 q.2))
  else (s.writesVa c.id c.ctx (BitVec.ofNat 64 q.1) q.2).bind fun o => match o with
    | none => .ok none
    | some ws => (s.writeSecs c.ctx (ws.map fun w => { w with alloc := c.allocs })).bind fun s => .ok (some s)

/-- Bytes at an address, some of which a command writes now. -/
abbrev Part := Nat × List (Option PByte)

/-- The runs of bytes that a part writes. -/
def runsOf : Nat → List (Option PByte) → List (Nat × List PByte)
  | _, [] => []
  | a, none :: l => runsOf (a + 1) l
  | a, some b :: l => match runsOf (a + 1) l with
    | (k, bs) :: r => if k == a + 1 then (a, b :: bs) :: r else (a, [b]) :: (k, bs) :: r
    | [] => [(a, [b])]

/-- How many bytes are written. -/
def written (l : List Part) : Nat := (l.map fun q => (q.2.filter (·.isSome)).length).foldl (· + ·) 0

/-- A command writes parts of the tile store: a word whose four bytes it writes is ordinary, one that receives poison is
poisoned (R119). -/
def Workgroup.putTiles (g : Workgroup) (l : List Part) : Workgroup :=
  let bs := l.flatMap fun q => q.2.zipIdx.filterMap fun x => x.1.map fun b => (q.1 + x.2, b)
  let bad (w : Nat) : Bool := bs.any fun b => b.1 / 4 == w && b.2.2
  let whole (w : Nat) : Bool := (List.range 4).all fun k => bs.any fun b => b.1 == 4 * w + k
  { g with
    tile := bs.foldl (fun t b => t.set b.1 b.2.1) g.tile
    tpoi := (bs.map fun b => b.1 / 4).foldl (fun p w => if bad w then nsInsert w p else if whole w then nsErase w p else p) g.tpoi }

def State.putRuns (s : State) (c : Cmd) : List (Nat × List PByte) → Reach (Option State)
  | [] => .ok (some s)
  | q :: l => (s.putLoc c false q).bind fun o => match o with
    | none => .ok none
    | some s => s.putRuns c l

def State.putAll (s : State) (c : Cmd) (tile : Bool) (l : List Part) : Reach (Option State) :=
  if tile then .ok (some (s.modWg c.core c.slot fun g => g.putTiles l))
  else s.putRuns c (l.flatMap fun q => runsOf q.1 q.2)

/-- Hint of a Retriever's reads (R34, R235). -/
def Cmd.hint (c : Cmd) : Hint :=
  match c.num 0x1D 1 / 16 % 4 with
  | 0 => .dflt
  | 1 => .strm
  | 2 => .stky
  | _ => .byp

/-- One sector that a Retriever read: its home slice keeps it, and where a view's sector return brought it, the core's sector
cache, if the set has a way (R113, R135, log 84). -/
def State.keepSec (s : State) (c : Cmd) (view : Bool) (home sec : Nat) : State :=
  match s.xlate home c.ctx sec with
  | .ok x =>
    if view && !x.hst && (c.hint == .dflt || c.hint == .stky) && s.setFree c.core s.nextId (setOf sec) then
      let q := s.serveRead (unitNeed c.ctx c.ctx home sec 32 .read) x c.hint false
      if s.now < q.2 then q.1.fill c.core c.ctx sec home c.hint q.2 else q.1
    else { s with m := s.m.install s.now home c.ctx sec x }
  | _ => s

/-- Sectors that a Retriever read from memory stay in their home slices, unless the hint is bypass (R135, R235). -/
def State.keepRead (s : State) (c : Cmd) (tile : Bool) (va n : Nat) : State :=
  if tile || !c.allocs then s
  else (pieces va n).foldl (fun s p => match s.resolvePiece c.id c.ctx (BitVec.ofNat 64 p.1) p.2 .read with
    | .ok (some l) =>
      let view := match (s.ctx c.ctx).locate (BitVec.ofNat 64 p.1) 1 .read with
        | .shadow _ _ _ => true
        | _ => false
      (secsOf (l.map (·.src))).foldl (fun s sec => s.keepSec c view (((l.find? fun b => match b.src with
        | .mem ia => secOf ia == sec
        | .fill _ | .far _ _ => false).map (·.home)).getD 0) sec) s
    | _ => s) s

/-- What a command that runs comes to: the state, what it counts, or the code it ends with. -/
structure Ran where
  s : State
  n : Nat := 0
  err : Option Nat := none

def ranOr (s : State) (n : Nat) (o : Option State) : Reach Ran :=
  match o with
  | some s => .ok { s := s, n := n }
  | none => .ok { s := s, err := some 2 }

/-- Contents of a canonical panel, from the byte c of row r (R185). -/
def mkPanel {α : Type} (f : Nat → Nat → α) : List α :=
  (List.range 8192).map fun o =>
    let r := o / 128
    f r (16 * ((o % 128 / 16) ^^^ (r % 8)) + o % 16)

/-- Byte c of row r of a panel in a list. -/
def ofPanel {α : Type} (z : α) (l : List α) (p r c : Nat) : α := l.getD (8192 * p + panelOff 0 r c) z

namespace Copy

/-- Panel p under formats 0 to 3, from the bytes of the storage, with z beyond the elements. -/
def panel {α : Type} (q : Copy) (z : α) (l : List α) (p : Nat) : List α :=
  let at_ (k : Nat) : α := l.getD k z
  match q.fmt with
  | 0 => mkPanel fun j kk => at_ (16416 * (p / 2) + 32 + 128 * kk + 64 * (p % 2) + j)
  | 1 => mkPanel fun i k => at_ (8448 * p + 256 + 128 * i + k)
  | _ =>
    let elem (r c : Nat) (k : Nat) : α := if r < q.cnt && c < q.nc then at_ (q.pitch * r + 2 * c + k) else z
    if q.orientB then mkPanel fun j o => elem (64 * (p % q.nrb) + o / 2) (64 * (p / q.nrb) + j) (o % 2)
    else mkPanel fun i o => elem (64 * (p / q.ncb) + i) (64 * (p % q.ncb) + o / 2) (o % 2)

/-- Scales of panel p. -/
def scale {α : Type} (q : Copy) (l : List α) (p : Nat) : List α :=
  let base := if q.fmt == 0 then 16416 * (p / 2) else 8448 * p
  (l.drop base).take q.scaleBytes

/-- Element (r, c) of row-major storage from the panels. -/
def element {α : Type} (q : Copy) (z : α) (l : List α) (r c : Nat) : List α :=
  (List.range 2).map fun k =>
    if q.orientB then ofPanel z l (c / 64 * q.nrb + r / 64) (c % 64) (2 * (r % 64) + k)
    else ofPanel z l (r / 64 * q.ncb + c / 64) (r % 64) (2 * (c % 64) + k)

end Copy

/-- Every element of a panel is a zero of either sign. -/
def zeroPanel (onBytes : Bool) (l : List PByte) : Bool :=
  if onBytes then l.all fun b => b.1.toNat % 128 == 0
  else (List.range (l.length / 2)).all fun k => (pnumAt l (2 * k) 2).1 % 32768 == 0

/-- Panels present in a bitmap, of n. DESIGN CHOICE: the bits of the last group beyond its panels have no effect (R237, log 86). -/
def bitsIn (bitmap n : Nat) : List Nat := (List.range n).filter fun p => bitmap / 2 ^ p % 2 == 1

/-- Format 4 expanded, group by group: each group is checked when its bitmap is read (R233). -/
def State.expandGroups (c : Cmd) (g : Workgroup) (q : Copy) : Nat → Nat → Nat → Nat → State → Reach Ran
  | 0, _, _, n, s => .ok { s := s, n := n }
  | f + 1, src, p, n, s =>
    let k := min 64 (q.cnt - p)
    let ctx := s.ctx c.ctx
    let bad (len : Nat) : Bool := (locBad ctx g q.srcTile src len .read).any (·.2)
    let stop : Reach Ran := .ok { s := s, n := n, err := some 2 }
    if bad 8 then stop
    else (s.fetchLoc c g q.srcTile src 8).bind fun o => match o with
      | none => stop
      | some bm =>
        let here := bitsIn (pnum bm).1 k
        let len := 8 + 8192 * here.length
        if bad len then stop
        else (s.fetchLoc c g q.srcTile (src + 8) (len - 8)).bind fun o => match o with
          | none => stop
          | some data =>
            let out : List Part := (List.range k).map fun j =>
              (q.dst + 8192 * (p + j),
               if here.contains j then ((data.drop (8192 * (here.takeWhile (· != j)).length)).take 8192).map some
               else List.replicate 8192 (some (0, false)))
            ((s.keepRead c q.srcTile src len).putAll c q.dstTile out).bind fun o => match o with
              | none => .ok { s := s, n := n, err := some 2 }
              | some s => State.expandGroups c g q f (src + len) (p + k) (n + 8192 * k) s

/-- cpy, cpyx and cpyk, for the source bytes from lo up to hi: format 4 always as a whole (log 10). What no source byte gives is
written with the first of them. -/
def State.runCopy (s : State) (c : Cmd) (g : Workgroup) (lo hi : Nat) : Reach Ran :=
  let q := copyOf c.fn c.blk
  if q.fn == 1 && q.fmt == 4 then State.expandGroups c g q q.groups q.src 0 0 s
  else (s.fetchLoc c g q.srcTile (q.src + lo) (hi - lo)).bind fun o => match o with
    | none => .ok { s := s, err := some 2 }
    | some l =>
      let s := s.keepRead c q.srcTile (q.src + lo) (hi - lo)
      let part : List (Option PByte) := List.replicate lo none ++ l.map some ++ List.replicate (q.srcLen 0 - hi) none
      let z : Option PByte := if lo == 0 then some (0, false) else none
      let put (l : List Part) : Reach Ran := (s.putAll c q.dstTile l).bind (ranOr s (written l))
      match q.fn, q.fmt with
      | 0, _ => (s.putLoc c q.dstTile (q.dst + lo, l)).bind (ranOr s (hi - lo))
      | 1, _ =>
        let ps := (List.range q.panels).map fun p => (q.dst + 8192 * p, q.panel z part p)
        let sc := if q.scaled then (List.range q.cnt).map fun p => (q.sdst + q.scaleBytes * p, q.scale part p) else []
        put (ps ++ sc)
      | _, 4 =>
        let groups := (List.range q.groups).map fun k =>
          let ps := (List.range (min 64 (q.cnt - 64 * k))).map fun j => (l.drop (8192 * (64 * k + j))).take 8192
          let keep := ps.zipIdx.filter fun p => !zeroPanel q.onBytes p.1
          pbytes 8 (keep.foldl (fun a p => a + 2 ^ p.2) 0) false ++ (keep.map (·.1)).flatten
        let out := groups.flatten
        (s.putLoc c q.dstTile (q.dst, out)).bind (ranOr s out.length)
      | _, _ =>
        put ((List.range q.cnt).map fun r => (q.dst + q.pitch * r, (List.range q.nc).flatMap (q.element z part r)))

/-- Source bytes of a copy that may stop at a 4 KiB boundary (R247, log 10). -/
def Copy.divides (q : Copy) : Bool := q.fmt != 4 || q.fn == 0

/-- First group's length of a format-4 source (R233). -/
def State.firstGroup (s : State) (c : Cmd) (g : Workgroup) (q : Copy) : Reach Nat :=
  if !(q.fn == 1 && q.fmt == 4) || q.limits || (locBad (s.ctx c.ctx) g q.srcTile q.src 8 .read).any (·.2) then .ok 8
  else (s.fetchLoc c g q.srcTile q.src 8).bind fun o => .ok (match o with
    | some b => 8 + 8192 * (bitsIn (pnum b).1 (min 64 q.cnt)).length
    | none => 8)

/-! cpyz (R239). -/

def examineZ (b : List Byte) (g : Workgroup) : Examined :=
  let po := numAt b 0 4
  let np := numAt b 4 1
  examined [(1, np == 0 || 64 < np || 64 < po / 8192 + np || 15 < numAt b 5 1 || 1 < numAt b 6 1 || !zeroIn b 7 64)]
    (fun _ => [(3, po % 8192 != 0), (4, g.outside po (8192 * np))]) [(po, 8192 * np)]

/-- The bits of kN stand for every thread at once (R198, R239). -/
def State.runCpyz (s : State) (c : Cmd) (g : Workgroup) : Reach Ran :=
  let po := c.num 0 4
  let np := c.num 4 1
  let bit (v : Nat) (n : Nat) : Nat :=
    let i := po / 8192 + n
    let z := zeroPanel (c.num 6 1 == 1) (g.tileBytes (po + 8192 * n) 8192)
    v - v / 2 ^ i % 2 * 2 ^ i + if z then 0 else 2 ^ i
  let s := s.modWg c.core c.slot fun g =>
    { g with k := g.k.modify (c.num 5 1) fun x =>
        x.patch fun v => BitVec.ofNat 64 ((List.range np).foldl bit v.toNat) }
  .ok { s := s, n := 8192 * np }

/-! Bulk streams and bank sessions (R240-R243). -/

/-- Frame of a VA in device memory: IA, home and frame; none where there is none. DESIGN CHOICE: bsopen, bkon and bkact refuse a
VA in host memory or in a view's fill with code 2 (log 85). -/
def State.frameOf (s : State) (c : Cmd) (va : Nat) : Reach (Option (Nat × Nat × Xl)) :=
  (s.resolvePiece c.id c.ctx (BitVec.ofNat 64 va) 1 .read).bind fun o => match o with
    | some [b] => match b.src with
      | .mem ia => match s.xlate b.home c.ctx ia with
        | .ok x => .ok (if x.hst then none else some (ia, b.home, x))
        | .fault l => .page (s.pageFault b.home c.ctx ia l .read) b.home ia
        | .violation => .viol ia .read
      | .fill _ | .far _ _ => .ok none
    | _ => .ok none

def State.stream? (s : State) (core ctx tok : Nat) : Option Stream :=
  s.e.streams.find? fun q => q.core == core && q.ctx == ctx && q.tok == tok

def State.session? (s : State) (core ctx tok : Nat) : Option Session :=
  s.e.sessions.find? fun q => q.core == core && q.ctx == ctx && q.tok == tok

def Stream.on (stack pch : Nat) (q : Stream) : Bool := q.stack == stack && q.pch == pch

/-- bsopen and bkon at acceptance. -/
def State.examineOpen (s : State) (c : Cmd) (blk : List Byte) (bank : Bool) : Reach (Except Nat Unit) :=
  if !zeroIn blk 8 64 then .ok (.error 1)
  else (s.frameOf c (numAt blk 0 8)).bind fun o => match o with
    | none => .ok (.error 2)
    | some (_, _, x) =>
      let st := stackOf x.pa
      let p := pchOf x.pa
      let busy := s.y.throttle.contains st || s.e.sessions.any (fun q => q.stack == st && q.pch == p) ||
        if bank then s.e.streams.any (Stream.on st p)
        else s.e.streams.any (fun q => q.on st p && q.bank == bankOf x.pa) ||
          decide (4 ≤ (s.e.streams.filter (·.core == c.core)).length)
      .ok (if busy then .error 5 else .ok ())

/-- The stream or session opens with the command's token. -/
def State.openIt (s : State) (c : Cmd) (tok : Nat) (bank : Bool) : State :=
  match s.frameOf c (c.num 0 8) with
  | .ok (some (ia, home, x)) =>
    if bank then
      let q : Session := { core := c.core, ctx := c.ctx, tok := tok, slot := c.slot, tid := c.tid, stack := stackOf x.pa, pch := pchOf x.pa
                           x := List.replicate 16 (List.replicate 16 (List.replicate 16 {}))
                           acc := List.replicate 16 (List.replicate 8 (List.replicate 16 {}))
                           row := none, used := s.now, last := 0, dram := [] }
      { s with e := { s.e with sessions := s.e.sessions ++ [q] } }
    else
      let q : Stream := { core := c.core, ctx := c.ctx, tok := tok, stack := stackOf x.pa, pch := pchOf x.pa, bank := bankOf x.pa
                          row := rowOf x.pa, page := ia / 2 ^ 16 * 2 ^ 16, home := home, since := s.now }
      { s with e := { s.e with streams := s.e.streams ++ [q] } }
  | _ => s

/-- Stack physical address of column c of bank b and row w of a pseudo-channel (R241). -/
def arrayPa (stack pch w b c : Nat) : Nat := stack * 2 ^ 36 + w * 2 ^ 20 + b * 2 ^ 16 + c * 2 ^ 11 + 32 * (pch ^^^ (32 * (b % 2) + c))

def examineRow (s : State) (c : Cmd) (b : List Byte) (g : Workgroup) : Examined :=
  let off := numAt b 4 4
  let col := numAt b 8 1
  let n := numAt b 9 1
  examined [(1, n == 0 || 32 < col + n || !zeroIn b 10 64)]
    (fun _ => [(3, off % 32 != 0), (4, g.outside off (32 * n)), (6, (s.stream? c.core c.ctx (numAt b 0 4)).isNone)]) [(off, 32 * n)]

/-- bsrow: the columns of the open row, each read at its home slice. -/
def State.runRow (s : State) (c : Cmd) : Reach Ran :=
  let n := c.num 9 1
  match s.stream? c.core c.ctx (c.num 0 4) with
  | none => .ok { s := s, err := some 6 }
  | some q =>
    (reachAll (fun t =>
      s.readPiece c.ctx q.home (q.page + arrayPa q.stack q.pch q.row q.bank (c.num 8 1 + t) % 2 ^ 16) 32) (List.range n)).bind fun l =>
      .ok { s := s.modWg c.core c.slot fun g => g.putTile (c.num 4 4) l.flatten, n := 32 * n }

/-- Sector of the DRAM arrays as a session sees it. -/
def State.arraySector (s : State) (q : Session) (pa : Nat) : List PByte :=
  match q.dram.find? fun d => d.1 == sectorOf pa with
  | some d => d.2.1.map fun b => (b, d.2.2)
  | none => (cellsGet pa 32 s.m.cells).map fun b => (b, s.m.marked (sectorOf pa))

def getX (l : List (List (List PWord))) (b i k : Nat) : PWord := ((l.getD b []).getD i []).getD k {}

/-- One column step of bkmac. -/
def State.macColumn (s : State) (q : Session) (row col slot a : Nat) : Session :=
  { q with acc := q.acc.zipIdx.map fun r =>
      let w := s.arraySector q (arrayPa q.stack q.pch row r.2 col)
      r.1.modify a fun lanes => lanes.zipIdx.map fun v =>
        let e := pnumAt w (2 * v.2) 2
        let x := getX q.x r.2 slot v.2
        { val := BitVec.ofNat 32 (mac (fp16.val e.1) (fp16.val x.val.toNat) v.1.val.toNat), poi := v.1.poi || e.2 || x.poi } }

/-- One level of a balanced tree: neighbours added. -/
def pairUp : List PWord → List PWord
  | a :: b :: l => { val := BitVec.ofNat 32 (fp32.add .rn a.val.toNat b.val.toNat).1, poi := a.poi || b.poi } :: pairUp l
  | l => l

/-- The fixed tree over a list, rounding at every node; an element without a neighbour passes (log 17). -/
def treeSum (l : List PWord) : PWord := ((List.range 5).foldl (fun l _ => pairUp l) l).headD {}

def maskBits (mask : Nat) : List Nat := (List.range 8).filter fun a => mask / 2 ^ a % 2 == 1

/-- Checks of a session's commands. -/
def State.examineBank (s : State) (c : Cmd) (b : List Byte) (g : Workgroup) : Reach Examined :=
  let handle := numAt b 0 4
  let sess := s.session? c.core c.ctx handle
  let closed := (6, sess.isNone)
  match c.fn with
  | 2 =>
    if !zeroIn b 4 8 || !zeroIn b 16 64 then .ok (.error 1)
    else match s.frameOf c (numAt b 8 8), sess with
      | .viol ia a, some _ => .viol ia a
      | .viol _ _, none => .ok (.error 6)
      | r, _ => r.bind fun o => .ok (match o, sess with
        | none, _ => .error 2
        | _, none => .error 6
        | some (_, _, x), some q => if stackOf x.pa != q.stack || pchOf x.pa != q.pch then .error 1 else .ok [])
  | 3 => .ok (examined [(1, 15 < numAt b 4 1 || !zeroIn b 5 0x20), closed] (fun _ => []) [])
  | 4 => .ok (examined [(1, numAt b 5 1 == 0 || 32 < numAt b 4 1 + numAt b 5 1 || 15 < numAt b 6 1 || 7 < numAt b 7 1 ||
      !zeroIn b 8 64), closed] (fun _ => []) [])
  | 6 =>
    let off := numAt b 8 4
    let n := (maskBits (numAt b 4 1)).length * if numAt b 12 1 == 0 then 1024 else 64
    .ok (examined [(1, !zeroIn b 5 8 || 1 < numAt b 12 1 || !zeroIn b 13 64)]
      (fun _ => [(3, off % 64 != 0), (4, g.outside off n), closed]) [(off, n)])
  | _ => .ok (examined [(1, !zeroIn b 5 64), closed] (fun _ => []) [])

def State.setSession (s : State) (q : Session) : State :=
  { s with e := { s.e with sessions := s.e.sessions.map fun x =>
      if x.core == q.core && x.ctx == q.ctx && x.tok == q.tok then q else x } }

/-- bkact, bkbc, bkmac, bkred, bkrd, bkclr. -/
def State.runBank (s : State) (c : Cmd) : Reach Ran :=
  match s.session? c.core c.ctx (c.num 0 4) with
  | none => .ok { s := s, err := some 6 }
  | some q =>
    let q := { q with used := s.now, last := c.tok }
    let masked := maskBits (c.num 4 1)
    let done (q : Session) (n : Nat) : Reach Ran := .ok { s := s.setSession q, n := n }
    match c.fn with
    | 2 => (s.frameOf c (c.num 8 8)).bind fun o => match o with
      | none => .ok { s := s, err := some 2 }
      | some (ia, _, x) =>
        if s.y.allowed c.ctx (secOf ia) 32 true false then done { q with row := some (rowOf x.pa) } 1 else .viol ia .read
    | 3 =>
      let xs := (List.range 16).map fun l => ({ val := BitVec.ofNat 32 (c.num (0x20 + 2 * l) 2) } : PWord)
      done { q with x := q.x.map fun b => b.set (c.num 4 1) xs } 32
    | 4 => match q.row with
      | none => .ok { s := s, err := some 6 }
      | some w => done ((List.range (c.num 5 1)).foldl (fun q t =>
          s.macColumn q w (c.num 4 1 + t) ((c.num 6 1 + t) % 16) (c.num 7 1)) q) 1
    | 5 => done { q with acc := q.acc.map fun b => masked.foldl (fun b a =>
        b.modify a fun v => treeSum v :: List.replicate 15 {}) b } 1
    | 6 =>
      let lanes := if c.num 12 1 == 0 then 16 else 1
      let out := masked.flatMap fun a => (List.range 16).flatMap fun b => (List.range lanes).flatMap fun l =>
        let v := getX q.acc b a l
        pbytes 4 v.val.toNat v.poi
      .ok { s := (s.setSession q).modWg c.core c.slot fun g => g.putTile (c.num 8 4) out, n := out.length }
    | _ => done { q with acc := q.acc.map fun b => masked.foldl (fun b a => b.set a (List.replicate 16 {})) b } 1

/-! The memory-side unit (R244). -/

def examineMsu (fn : Nat) (b : List Byte) (c : Context) : Examined :=
  let y := numAt b 0 8
  let x := numAt b 8 8
  let n := numAt b 0x10 4
  let usesX := fn == 0 || fn == 2
  let yn := if fn == 2 then 4 else 4 * n
  examined [(1, n == 0 || 16777216 < n || !zeroIn b 0x18 64 || (!usesX && x != 0) || (fn == 2 && numAt b 0x14 4 != 0))]
    (fun _ => [(3, y % 4 != 0), (2, !c.covers y yn .rmw)] ++
      if usesX then [(3, x % 4 != 0), (2, !c.covers x (4 * n) .read),
        (1, !(x == y && (fn == 0 || n == 1)) && overlaps (x, 4 * n) (y, yn))] else []) []

/-- Words of a byte list. -/
def words (l : List PByte) : List PWord :=
  (List.range (l.length / 4)).map fun k =>
    let q := pnumAt l (4 * k) 4
    { val := BitVec.ofNat 32 q.1, poi := q.2 }

/-- Blocks of 32. -/
def blocks32 (l : List PWord) : List (List PWord) := (List.range ((l.length + 31) / 32)).map fun k => (l.drop (32 * k)).take 32

/-- Sum of x by blocks. -/
def msumOf (l : List PWord) : PWord :=
  match (blocks32 l).map treeSum with
  | [] => {}
  | a :: r => r.foldl (fun a b => { val := BitVec.ofNat 32 (fp32.add .rn a.val.toNat b.val.toNat).1, poi := a.poi || b.poi }) a

def ofWords (l : List PWord) : List PByte := l.flatMap fun w => pbytes 4 w.val.toNat w.poi

/-- Sectors of memory that a unit's range names, through its views: home, IA and frame. -/
def State.framesOf (s : State) (c : Cmd) (va n : Nat) : List (Nat × Nat × Xl) :=
  (pieces va n).flatMap fun p => match s.resolvePiece c.id c.ctx (BitVec.ofNat 64 p.1) p.2 .read with
    | .ok (some l) => (secsOf (l.map (·.src))).filterMap fun sec =>
        let home := ((l.find? fun b => match b.src with
          | .mem ia => secOf ia == sec
          | .fill _ | .far _ _ => false).map (·.home)).getD 0
        match s.xlate home c.ctx sec with
        | .ok x => some (home, sec, x)
        | _ => none
    | _ => []

/-- Ranges of y and of x, in bytes, that the elements from lo up to hi take. -/
def Cmd.msuRanges (c : Cmd) (lo hi : Nat) : List (Nat × Nat) :=
  (if c.fn == 2 then [(c.num 0 8, 4)] else [(c.num 0 8 + 4 * lo, 4 * (hi - lo))]) ++
  if c.fn == 0 || c.fn == 2 then [(c.num 8 8 + 4 * lo, 4 * (hi - lo))] else []

/-- The memory-side unit, for the elements from lo up to hi (msum: all). Every sector is settled, its tenures have ended,
and no session or stream keeps the unit from it; then the home slices have dropped their copies (R145, R240, R242, R244). -/
def State.runMsu (s : State) (c : Cmd) (lo hi : Nat) : Reach Ran :=
  let y := c.num 0 8 + 4 * lo
  let n := hi - lo
  let a := c.num 0x14 4
  let secs := (c.msuRanges lo hi).flatMap fun r => s.framesOf c r.1 r.2
  let s' := { s with m := { s.m with l2 := s.m.l2.filter fun e => !secs.any fun q => e.home == q.1 && e.ctx == c.ctx && e.ia == q.2.1 } }
  let hold := secs.foldl (fun s q => s.dramKeep c.id c.ctx q.2.1 true q.2.2) s
  if secs.any (fun q => s.dramWaits c.id c.ctx q.2.1 true q.2.2 || !s.settled q.1 c.ctx q.2.1 q.2.2) then .hold hold else
  let s := s'
  let rd (va k : Nat) : Reach (Option (List PWord)) :=
    (s.readVa c.id c.ctx (BitVec.ofNat 64 va) k).bind fun o => .ok (o.map words)
  let out (l : List PWord) : Reach Ran := (s.putLoc c false (y, ofWords l)).bind (ranOr s (4 * l.length))
  let bad : Reach Ran := .ok { s := s, err := some 2 }
  match c.fn with
  | 0 => (rd (c.num 8 8 + 4 * lo) (4 * n)).bind fun ox => (rd y (4 * n)).bind fun oy => match ox, oy with
    | some xs, some ys => out ((xs.zip ys).map fun q =>
        { val := BitVec.ofNat 32 (mac (fp32.val a) (fp32.val q.1.val.toNat) q.2.val.toNat), poi := q.1.poi || q.2.poi })
    | _, _ => bad
  | 1 => (rd y (4 * n)).bind fun oy => match oy with
    | some ys => out (ys.map fun q => { q with val := BitVec.ofNat 32 (mul32 a q.val.toNat) })
    | none => bad
  | 2 => (rd (c.num 8 8) (4 * n)).bind fun ox => match ox with
    | some xs => out [msumOf xs]
    | none => bad
  | _ => out (List.replicate n { val := BitVec.ofNat 32 a })

/-! The put engine (R245, R246). -/

/-- Checks of a put or get. DESIGN CHOICE: SIX and SVAL, which only fputs uses, are ignored elsewhere (R246, log 87). -/
def examinePut (fn : Nat) (b : List Byte) (c : Context) (g : Workgroup) : Examined :=
  let loc := numAt b 0 8
  let wof := numAt b 8 8
  let len := numAt b 0x10 4
  let win := numAt b 0x14 2
  let tile := numAt b 0x16 1 == 1
  let w := c.windows.find? (·.n == win)
  let right := if fn == 2 then 2 else 1
  examined [(1, len < 4 || 16777216 < len || 255 < win || 1 < numAt b 0x16 1 || (fn == 1 && 15 < numAt b 0x17 1) || !zeroIn b 0x1C 64)]
    (fun _ => [(3, loc % 4 != 0), (3, wof % 4 != 0), (3, len % 4 != 0),
      (7, match w with
        | none => true
        | some w => decide (w.size < wof + len) || w.rt / right % 2 == 0)] ++
      locBad c g tile loc len (if fn == 2 then .write else .read)) (if tile then [(loc, len)] else [])

/-- A word of a window's counters (R246). -/
def Context.counts (c : Context) (n : Nat) : WinCount := match c.wincount.find? (·.n == n) with
  | some w => w
  | none => { n := n, issued := 0, completed := 0 }

def Context.setCounts (c : Context) (w : WinCount) : Context :=
  { c with wincount := c.wincount.filter (·.n != w.n) ++ [w] }

/-- IA of the chip's own tables lie in the IA space of context 0 (log 18). -/
def chipCtx : Nat := 0

/-- A port of the route mask is up (R295). -/
def State.routeUp (s : State) (chip : Nat) : Reach Bool :=
  (s.readIaBy 65 chipCtx ((s.y.route.toNat + 2 * chip) % 2 ^ 52) 2).bind fun l =>
    .ok ((List.range 12).any fun k => (pnum l).1 / 2 ^ k % 2 == 1 && (s.y.ports.getD k {}).up)

/-- Bytes of a put or get. -/
def Cmd.len (c : Cmd) : Nat := c.num 0x10 4

def State.addPacket (s : State) (p : Packet) : State := { s with e := { s.e with packets := s.e.packets ++ [p] } }

def State.dropPacket (s : State) (cmd : Nat) : State := { s with e := { s.e with packets := s.e.packets.filter (·.cmd != cmd) } }

/-- A put or a get goes out, through the window entry in force at its acceptance (R245, R246, R296). -/
def State.runPut (s : State) (c : Cmd) (g : Workgroup) : Reach Ran :=
  let win := c.num 0x14 2
  let gone : Reach Ran := .ok { s := s, err := some 9 }
  match c.win with
  | none => gone
  | some w => (s.routeUp w.chip).bind fun up =>
    let p : Packet := { cmd := c.id, chip := w.chip, exp := w.exp, wof := c.num 8 8, bytes := c.len }
    if !up then gone
    else if c.fn == 2 then .ok { s := s.addPacket { p with get := true } }
    else (s.fetchLoc c g (c.num 0x16 1 == 1) (c.num 0 8) c.len).bind fun o => match o with
      | none => .ok { s := s, err := some 2 }
      | some l =>
        let ctx := s.ctx c.ctx
        let n := ctx.counts win
        let s := s.setCtx c.ctx (ctx.setCounts { n with issued := n.issued + BitVec.ofNat 64 c.len })
        .ok { s := s.addPacket { p with
          data := l, sig := if c.fn == 1 then some (c.num 0x17 1, BitVec.ofNat 32 (c.num 0x18 4)) else none } }

/-- The bytes that a get has fetched are written (R246, log 12). -/
def State.runGet (s : State) (c : Cmd) : Reach Ran :=
  let l := (List.range c.len).map fun k => (Config.farByte c.id k, Config.farPoison c.id k)
  ((s.dropPacket c.id).putLoc c (c.num 0x16 1 == 1) (c.num 0 8, l)).bind (ranOr s c.len)

end Sys2Proof.Machine
end

