-- ==== Sys2Proof/Machine/Engines.lean ====
section
/-! DEFINITION. ecmd: its twenty-four functions, acceptance and completion of commands, streams and sessions that close,
puts and gets across chips (R229-R246, R294-R297). -/

namespace Sys2Proof.Machine

/-! Issue (R229). -/

/-- No arrival word. -/
def noWord : Nat := 0xFFFFFFFF

/-- Commands of an engine of a core that wait for acceptance. -/
def Eng.waiting (q : Eng) (core eng : Nat) : List Cmd :=
  q.cmds.filter fun c => c.core == core && c.eng == eng && c.state == .issued

/-- An ecmd whose A names a parameter block and B an arrival word (block), or whose A is a handle. -/
def Env.ecmd (e : Env) (eng fn : Nat) (d : Option Reg) (a b : Word) (block : Bool) : Res :=
  let x := a.toNat
  let y := b.toNat
  let word := block && y != noWord
  let gs := granulesOf x 64
  if block && e.g.tile.length ≤ x then .trap 4 0 (a.setWidth 64) false
  else if word && e.g.tile.length ≤ y then .trap 4 0 (b.setWidth 64) false
  else if block && x % 64 != 0 then .trap 3 0 (a.setWidth 64) false
  else if word && y % 16 != 0 then .trap 3 0 (b.setWidth 64) false
  else if 16 ≤ (e.s.e.waiting e.g.core eng).length || (block && !e.g.refRoom gs) then .wait
  else
    let c : Cmd := { id := e.s.nextId, core := e.g.core, eng := eng, fn := fn, ctx := e.g.ctx, slot := e.g.slot, tid := e.t.tid,
                     uid := e.g.uid, pc := e.t.pc, a := a, b := if block then b else BitVec.ofNat 32 noWord, dst := d, state := .issued
                     tok := 0, blk := [], ref := if block then gs else [], sent := 0 }
    let s := e.s.fresh.modWg e.g.core e.g.slot fun g => g.raiseRef c.ref
    let s := { s with e := { s.e with cmds := s.e.cmds ++ [c] } }
    .done (match d with
      | some r => s.awaitR e.g.core e.g.slot e.t.tid c.id r 1
      | none => s)

def execCpy (h : Hdr) (d : Option Reg) (a b : Src) (s : State) : Host.Outcome State Fault Refusal :=
  threadOp (.cpy h d a b) (fun e => e.ecmd 0 0 d (e.src a) (e.src b) true) s

def execCpyx (h : Hdr) (d : Option Reg) (a b : Src) (s : State) : Host.Outcome State Fault Refusal :=
  threadOp (.cpyx h d a b) (fun e => e.ecmd 0 1 d (e.src a) (e.src b) true) s

def execCpyk (h : Hdr) (d : Option Reg) (a b : Src) (s : State) : Host.Outcome State Fault Refusal :=
  threadOp (.cpyk h d a b) (fun e => e.ecmd 0 2 d (e.src a) (e.src b) true) s

def execCpyz (h : Hdr) (d : Option Reg) (a b : Src) (s : State) : Host.Outcome State Fault Refusal :=
  threadOp (.cpyz h d a b) (fun e => e.ecmd 0 3 d (e.src a) (e.src b) true) s

def execBsopen (h : Hdr) (d : Option Reg) (a b : Src) (s : State) : Host.Outcome State Fault Refusal :=
  threadOp (.bsopen h d a b) (fun e => e.ecmd 0 4 d (e.src a) (e.src b) true) s

def execBsrow (h : Hdr) (d : Option Reg) (a b : Src) (s : State) : Host.Outcome State Fault Refusal :=
  threadOp (.bsrow h d a b) (fun e => e.ecmd 0 5 d (e.src a) (e.src b) true) s

def execBsclose (h : Hdr) (d : Option Reg) (a : Src) (s : State) : Host.Outcome State Fault Refusal :=
  threadOp (.bsclose h d a) (fun e => e.ecmd 0 6 d (e.src a) 0 false) s

def execBkon (h : Hdr) (d : Option Reg) (a b : Src) (s : State) : Host.Outcome State Fault Refusal :=
  threadOp (.bkon h d a b) (fun e => e.ecmd 1 0 d (e.src a) (e.src b) true) s

def execBkoff (h : Hdr) (d : Option Reg) (a : Src) (s : State) : Host.Outcome State Fault Refusal :=
  threadOp (.bkoff h d a) (fun e => e.ecmd 1 1 d (e.src a) 0 false) s

def execBkact (h : Hdr) (d : Option Reg) (a b : Src) (s : State) : Host.Outcome State Fault Refusal :=
  threadOp (.bkact h d a b) (fun e => e.ecmd 1 2 d (e.src a) (e.src b) true) s

def execBkbc (h : Hdr) (d : Option Reg) (a b : Src) (s : State) : Host.Outcome State Fault Refusal :=
  threadOp (.bkbc h d a b) (fun e => e.ecmd 1 3 d (e.src a) (e.src b) true) s

def execBkmac (h : Hdr) (d : Option Reg) (a b : Src) (s : State) : Host.Outcome State Fault Refusal :=
  threadOp (.bkmac h d a b) (fun e => e.ecmd 1 4 d (e.src a) (e.src b) true) s

def execBkred (h : Hdr) (d : Option Reg) (a b : Src) (s : State) : Host.Outcome State Fault Refusal :=
  threadOp (.bkred h d a b) (fun e => e.ecmd 1 5 d (e.src a) (e.src b) true) s

def execBkrd (h : Hdr) (d : Option Reg) (a b : Src) (s : State) : Host.Outcome State Fault Refusal :=
  threadOp (.bkrd h d a b) (fun e => e.ecmd 1 6 d (e.src a) (e.src b) true) s

def execBkclr (h : Hdr) (d : Option Reg) (a b : Src) (s : State) : Host.Outcome State Fault Refusal :=
  threadOp (.bkclr h d a b) (fun e => e.ecmd 1 7 d (e.src a) (e.src b) true) s

def execMaxpy (h : Hdr) (d : Option Reg) (a b : Src) (s : State) : Host.Outcome State Fault Refusal :=
  threadOp (.maxpy h d a b) (fun e => e.ecmd 2 0 d (e.src a) (e.src b) true) s

def execMscal (h : Hdr) (d : Option Reg) (a b : Src) (s : State) : Host.Outcome State Fault Refusal :=
  threadOp (.mscal h d a b) (fun e => e.ecmd 2 1 d (e.src a) (e.src b) true) s

def execMsum (h : Hdr) (d : Option Reg) (a b : Src) (s : State) : Host.Outcome State Fault Refusal :=
  threadOp (.msum h d a b) (fun e => e.ecmd 2 2 d (e.src a) (e.src b) true) s

def execMfill (h : Hdr) (d : Option Reg) (a b : Src) (s : State) : Host.Outcome State Fault Refusal :=
  threadOp (.mfill h d a b) (fun e => e.ecmd 2 3 d (e.src a) (e.src b) true) s

def execFput (h : Hdr) (d : Option Reg) (a b : Src) (s : State) : Host.Outcome State Fault Refusal :=
  threadOp (.fput h d a b) (fun e => e.ecmd 3 0 d (e.src a) (e.src b) true) s

def execFputs (h : Hdr) (d : Option Reg) (a b : Src) (s : State) : Host.Outcome State Fault Refusal :=
  threadOp (.fputs h d a b) (fun e => e.ecmd 3 1 d (e.src a) (e.src b) true) s

def execFget (h : Hdr) (d : Option Reg) (a b : Src) (s : State) : Host.Outcome State Fault Refusal :=
  threadOp (.fget h d a b) (fun e => e.ecmd 3 2 d (e.src a) (e.src b) true) s

/-- Reply to D at once, where the card names one. -/
def Env.giveR (e : Env) (s : State) (d : Option Reg) (x : Word) : State :=
  match d with
  | some r => s.deliver e.g.core e.g.slot e.t.tid r x false
  | none => s

/-- cstat (R234). -/
def execCstat (h : Hdr) (d : Option Reg) (a b : Src) (s : State) : Host.Outcome State Fault Refusal :=
  threadOp (.cstat h d a b) (fun e =>
    let tok := (e.src a).toNat % 2 ^ 16
    let eng := (e.src b).toNat % 4
    let v := match e.s.e.toks.find? fun t => t.core == e.g.core && t.ctx == e.g.ctx && t.eng == eng && t.tok == tok with
      | some t => t.state * 2 ^ 30 + t.n % 2 ^ 30
      | none => 0
    .done (e.giveR e.s d (BitVec.ofNat 32 v))) s

/-- wcnt (R246); a counter word beyond 3 is left open (log 19). -/
def execWcnt (h : Hdr) (d : Option Reg) (a b : Src) (s : State) : Host.Outcome State Fault Refusal :=
  threadOp (.wcnt h d a b) (fun e =>
    let w := e.ctx.counts ((e.src a).toNat % 256)
    let v : Word := match (e.src b).toNat with
      | 0 => w.issued.setWidth 32
      | 1 => (w.issued >>> 32).setWidth 32
      | 2 => w.completed.setWidth 32
      | 3 => (w.completed >>> 32).setWidth 32
      | _ => Config.openWord e.s.nextId
    .done (e.giveR e.s.fresh d v)) s

/-! Acceptance (R229-R231, R234). -/

def Cmd.block (c : Cmd) : Bool := !(c.eng == 0 && c.fn == 6) && !(c.eng == 1 && c.fn == 1)

def Cmd.who (c : Cmd) : Who := { core := c.core, slot := c.slot, tid := c.tid, uid := c.uid, pc := c.pc, issued := 0 }

def State.modCmd (s : State) (id : Nat) (f : Cmd → Cmd) : State :=
  { s with e := { s.e with cmds := s.e.cmds.map fun c => if c.id == id then f c else c } }

/-- The command leaves its queue, and its REF falls. -/
def State.dropCmd (s : State) (c : Cmd) : State :=
  let s := { s with e := { s.e with cmds := s.e.cmds.filter (·.id != c.id) } }
  if s.lives c.who then s.modWg c.core c.slot fun g => g.lowerRef c.ref else s

/-- The thread receives the reply. -/
def State.answerCmd (s : State) (c : Cmd) (v : Word) : State :=
  match c.dst with
  | some r => if s.lives c.who then s.arriveN c.core c.slot c.tid c.id r 1 v.toNat false else s
  | none => s

/-- An update of the command's arrival word. -/
def State.wordOf (s : State) (c : Cmd) (f : Workgroup → Nat → Workgroup) : State :=
  if c.b.toNat == noWord || !s.lives c.who then s else s.onWords c.core c.slot fun g => f g c.b.toNat

/-- The record of a command's token. -/
def Cmd.sameTok (c : Cmd) (t : TokRec) : Bool := t.core == c.core && t.ctx == c.ctx && t.eng == c.eng && t.tok == c.tok

/-- What cstat reads of a token from now on, where its record is still kept. -/
def State.setTok (s : State) (c : Cmd) (st n : Nat) : State :=
  { s with e := { s.e with toks := s.e.toks.map fun t => if c.sameTok t then { t with state := st, n := n } else t } }

/-- An accepted command's token; the 64 most recent of an engine of a core are kept. -/
def State.addTok (s : State) (c : Cmd) : State :=
  let old := s.e.toks.filter fun t => !c.sameTok t
  let mine := old.filter fun t => t.core == c.core && t.eng == c.eng
  let toks := match mine with
    | o :: _ => if 64 ≤ mine.length then old.filter (· != o) else old
    | [] => old
  { s with e := { s.e with toks := toks ++ [{ core := c.core, ctx := c.ctx, eng := c.eng, tok := c.tok, state := 1, n := 0 }] } }

def Eng.nextTok (q : Eng) (core ctx eng : Nat) : Nat :=
  match q.tokNext.find? fun t => t.core == core && t.ctx == ctx && t.eng == eng with
  | some t => t.tok
  | none => 1

def Eng.bumpTok (q : Eng) (core ctx eng : Nat) : Eng :=
  let n := (q.nextTok core ctx eng + 1) % 2 ^ 16
  { q with tokNext := q.tokNext.filter (fun t => !(t.core == core && t.ctx == ctx && t.eng == eng)) ++
      [{ core := core, ctx := ctx, eng := eng, tok := n }] }

/-- A refused command has no effect; the reply and the arrival word say so. -/
def State.refuseCmd (s : State) (c : Cmd) (code : Nat) : State :=
  ((s.dropCmd c).answerCmd c (BitVec.ofNat 32 (2 ^ 31 + code))).wordOf c Workgroup.arriveError

/-- A command ends in error. -/
def State.endError (s : State) (c : Cmd) (code : Nat) : State :=
  ((s.dropCmd c).wordOf c Workgroup.arriveError).setTok c 3 code

/-- The checks of a command's block. -/
def State.examine (s : State) (c : Cmd) (g : Workgroup) (blk : List Byte) : Reach Examined :=
  let ctx := s.ctx c.ctx
  let noRange (r : Except Nat Unit) : Examined := match r with
    | .ok () => .ok []
    | .error k => .error k
  match c.eng, c.fn with
  | 0, 3 => .ok (examineZ blk g)
  | 0, 4 => (s.examineOpen c blk false).bind fun r => .ok (noRange r)
  | 0, 5 => .ok (examineRow s c blk g)
  | 0, 6 => .ok (if (s.stream? c.core c.ctx c.a.toNat).isSome then .ok [] else .error 6)
  | 0, fn =>
    let q := copyOf fn blk
    match s.firstGroup { c with blk := blk } g q, q.examine ctx g 8 with
    | .viol _ _, .error k => .ok (.error k)
    | r, _ => r.bind fun first => .ok (q.examine ctx g first)
  | 1, 0 => (s.examineOpen c blk true).bind fun r => .ok (noRange r)
  | 1, 1 => .ok (if (s.session? c.core c.ctx c.a.toNat).isSome then .ok [] else .error 6)
  | 1, _ => s.examineBank c blk g
  | 2, fn => .ok (examineMsu fn blk ctx)
  | _, fn => .ok (examinePut fn blk ctx g)

/-- Granules of tile-store ranges. -/
def rangeGranules (l : List (Nat × Nat)) : List Nat := l.foldl (fun a r => unionN a (granulesOf r.1 r.2)) []

/-- Unit of a stack's controller (R256): controller k of die d has stack 4 d + k. -/
def unitStack (stack : Nat) : Nat := 4096 + stack

/-- Unit that works on a command (R256): the Retriever, the controller of the session's or of y's stack, the put engine. -/
def State.cmdUnit (s : State) (c : Cmd) : Nat :=
  match c.eng with
  | 0 => unitCore c.core 3
  | 1 =>
    let handle := if c.fn == 0 then c.tok else if c.fn == 1 then c.a.toNat else numAt c.blk 0 4
    match s.session? c.core c.ctx handle with
    | some q => unitStack q.stack
    | none => unitStack (4 * dieOf c.core)
  | 2 =>
    match (s.ctx c.ctx).match? (BitVec.ofNat 64 (c.num 0 8)) with
    | some r =>
      let ia := r.ia (BitVec.ofNat 64 (c.num 0 8))
      match s.xlate (r.home ia) c.ctx ia with
      | .ok x => unitStack (stackOf x.pa)
      | _ => unitCtrl (r.home ia) (ctrlOf ia)
    | none => unitStack (4 * dieOf c.core)
  | _ => unitPut

/-- The memory-side unit that has the frame of a VA (R244). -/
def State.stackAt (s : State) (c : Cmd) (va : Nat) : Option Nat :=
  match s.framesOf c va 1 with
  | q :: _ => if q.2.2.hst then none else some (unitStack (stackOf q.2.2.pa))
  | [] => none

/-- Every unit that works on a command: one for each stack that holds frames of a memory-side unit's ranges (R244). -/
def State.cmdUnits (s : State) (c : Cmd) : List Nat :=
  let at_ (va : Nat) : List Nat := (s.stackAt c va).toList
  let l := if c.eng == 2 then
      ((c.msuRanges 0 (c.num 0x10 4)).flatMap fun r => (cut (2 ^ 16) r.1 r.2).flatMap fun p => at_ p.1).foldl (fun a k => nsInsert k a) []
    else []
  if l.isEmpty then [s.cmdUnit c] else l

/-- An engine's access was refused: code 8, a violation record, and the context halts (R231, R302). -/
def State.violCmd (s : State) (c : Cmd) (ia : Nat) (acc : Acc) : State :=
  (s.violation c.ctx ia acc (s.cmdUnit c)).raiseHalt c.ctx 4 0

/-- A command as it stands once it is accepted: its block read, with the next token, and for the put engine the window
entry in force (R230, R296). -/
def State.asAccepted (s : State) (c : Cmd) (blk : List Byte) (ref : List Nat) : Cmd :=
  { c with blk := blk, turn := s.nextId, tok := s.e.nextTok c.core c.ctx c.eng, state := .accepted, ref := ref, heldOn := none
           win := if c.eng == 3 then (s.ctx c.ctx).windows.find? (·.n == numAt blk 0x14 2) else none }

/-- Handle that a command names. -/
def Cmd.handle (c : Cmd) : Option Nat :=
  match c.eng, c.fn with
  | 0, 5 => some (numAt c.blk 0 4)
  | 0, 6 => some c.a.toNat
  | 1, 0 => some c.tok
  | 1, 1 => some c.a.toNat
  | 1, _ => some (numAt c.blk 0 4)
  | _, _ => none

/-- The command is accepted: its block is read, REF moves to what it touches, the token goes to D. -/
def State.acceptCmd (s : State) (c : Cmd) (blk : List Byte) (ref : List Nat) : State :=
  let c' := s.asAccepted c blk ref
  let tok := c'.tok
  let s := { s.fresh with e := s.e.bumpTok c.core c.ctx c.eng }
  let s := (s.modWg c.core c.slot fun g => (g.lowerRef c.ref).raiseRef ref).modCmd c.id fun _ => c'
  let s := if c.eng == 0 && c.fn == 4 then s.openIt c' tok false else if c.eng == 1 && c.fn == 0 then s.openIt c' tok true else s
  let s := if c.eng == 1 then
      let touch (q : Session) : Session := if q.core == c.core && q.ctx == c.ctx && c'.handle == some q.tok then { q with used := s.now } else q
      { s with e := { s.e with sessions := s.e.sessions.map touch } }
    else s
  (s.answerCmd c (BitVec.ofNat 32 tok)).addTok c'

/-- A request of a memory-side unit is at the controller of a pseudo-channel: bkon lets it finish (R242, R249). -/
def State.pchBusy (s : State) (stack pch : Nat) : Bool :=
  let on (home ctx ia : Nat) : Bool := match s.xlate home ctx (secOf ia) with
    | .ok x => !x.hst && stackOf x.pa == stack && pchOf x.pa == pch
    | _ => false
  s.m.atoms.any (fun a => a.fwd && on a.home a.ctx a.ia) || s.m.writes.any fun w => w.state == .forwarded && on w.home w.ctx w.ia

/-- bkon waits for what the controller of its pseudo-channel has accepted. -/
def State.bkonWaits (s : State) (c : Cmd) (blk : List Byte) : Bool :=
  c.eng == 1 && c.fn == 0 && match s.frameOf c (numAt blk 0 8) with
    | .ok (some (_, _, x)) => s.pchBusy (stackOf x.pa) (pchOf x.pa)
    | _ => false

/-- Held on an unmapped page, where it tries again; what follows it goes on (R233). -/
def State.holdCmd (s : State) (id home ia : Nat) : State := s.modCmd id fun c => { c with heldOn := some (home, ia) }

/-- CMD_ACCEPT: the oldest issued command of a core's engine that no unmapped page holds (R229, R231, R233). -/
def execCmdAccept (id : Nat) (s : State) : Host.Outcome State Fault Refusal :=
  match s.e.cmds.find? (·.id == id) with
  | none => .next s
  | some c =>
    match s.wg? c.core c.slot with
    | none => .next s
    | some g =>
      let first := (s.e.waiting c.core c.eng).all fun x => decide (c.id ≤ x.id) || x.heldOn.isSome
      if c.state != .issued || !first || !(s.ctx c.ctx).runs || !g.resident then .next s
      else
        let blk := if c.block then slice g.tile c.a.toNat 64 else []
        match s.examine c g blk with
        | .ok (.error k) => .next (s.refuseCmd c k)
        | .ok (.ok ranges) =>
          let ref := rangeGranules ranges
          .next (if (g.lowerRef c.ref).refRoom ref && !s.bkonWaits c blk then s.acceptCmd c blk ref else s)
        | .hold s => .next s
        | .page s home ia => .next (s.holdCmd id home ia)
        | .viol ia a => .next (((s.acceptCmd c blk []).violCmd c ia a).endError (s.asAccepted c blk []) 8)

/-! Completion (R232, R243). -/

/-- A command completes and counts n. -/
def State.endOk (s : State) (c : Cmd) (n total : Nat) : State :=
  ((s.dropCmd c).wordOf c fun g off => if n == 0 then g else g.arrive off n).setTok c 0 total

/-- Its turn: four commands of a Retriever run at once, and one that an unmapped page holds holds no other (R233, R235);
commands of one handle run in acceptance order. -/
def Eng.turn (q : Eng) (c : Cmd) : Bool :=
  let ahead := q.cmds.filter fun x => x.core == c.core && x.eng == c.eng && x.state == .accepted && decide (x.turn < c.turn)
  (c.eng != 0 || decide ((ahead.filter (·.heldOn.isNone)).length < 4)) &&
  (c.handle.isNone || ahead.all fun x => !(x.ctx == c.ctx && x.handle == c.handle))

/-- Source bytes that a copy reads, and elements of a memory-side unit's command (R247). -/
def Cmd.total (c : Cmd) : Nat :=
  match c.eng with
  | 0 => (copyOf c.fn c.blk).srcLen 0
  | 2 => c.num 0x10 4
  | _ => 0

/-- An accepted command runs from where it stands up to hi source bytes or elements. -/
def State.runCmd (s : State) (c : Cmd) (g : Workgroup) (hi : Nat) : Reach Ran :=
  match c.eng, c.fn with
  | 0, 3 => s.runCpyz c g
  | 0, 4 => .ok { s := s, n := 1 }
  | 0, 5 => s.runRow c
  | 0, 6 =>
    let keep (q : Stream) : Bool := !(q.core == c.core && q.ctx == c.ctx && q.tok == c.a.toNat)
    .ok { s := { s with e := { s.e with streams := s.e.streams.filter keep } }
          err := if (s.stream? c.core c.ctx c.a.toNat).isSome then none else some 6 }
  | 0, _ => s.runCopy c g c.sent hi
  | 1, 0 => .ok { s := s, n := 1 }
  | 1, 1 =>
    let keep (q : Session) : Bool := !(q.core == c.core && q.ctx == c.ctx && q.tok == c.a.toNat)
    .ok { s := { s with e := { s.e with sessions := s.e.sessions.filter keep } }
          err := if (s.session? c.core c.ctx c.a.toNat).isSome then none else some 6 }
  | 1, _ => s.runBank c
  | 2, _ => s.runMsu c 0 hi
  | _, _ => s.runPut c g

/-- What a command's run comes to. -/
def State.finishCmd (s : State) (c : Cmd) (r : Reach Ran) (ok : Ran → State) : State :=
  match r with
  | .ok r => match r.err with
    | some k => r.s.endError c k
    | none => ok r
  | .hold s => s.modCmd c.id fun c => { c with heldOn := none }
  | .page s home ia => s.holdCmd c.id home ia
  | .viol ia a => (s.violCmd c ia a).endError c 8

/-- First element of each 64 KiB page of y, and the first beyond it (R244). -/
def Cmd.pageSpans (c : Cmd) : List (Nat × Nat) :=
  let y := c.num 0 8
  (cut (2 ^ 16) y (4 * c.num 0x10 4)).map fun p => ((p.1 - y) / 4, (p.1 + p.2 - y) / 4)

/-- Elements that a memory-side command has done in a page. -/
def Cmd.pageDone (c : Cmd) (k : Nat) : Nat := ((c.pages.find? (·.1 == k)).map (·.2)).getD 0

/-- The unit that has the page of y from an element on. -/
def State.pageUnit (s : State) (c : Cmd) (el : Nat) : Nat := (s.stackAt c (c.num 0 8 + 4 * el)).getD (s.cmdUnit c)

/-- What a memory-side command does next: a page of y, and its elements up to the next sector. Each unit takes its pages in
ascending order; which unit goes first is left open (R244, log 10). -/
def State.msuNext (s : State) (c : Cmd) : Option (Nat × Nat × Nat) :=
  let stopped := (s.ctx c.ctx).halt.stopped
  let left := c.pageSpans.zipIdx.filter fun p => decide (p.1.1 + c.pageDone p.2 < p.1.2) && !stopped.contains (s.pageUnit c p.1.1)
  let us := (left.map fun p => s.pageUnit c p.1.1).eraseDups
  match us[Config.msuNext c.id s.now % us.length]? with
  | none => none
  | some u => (left.find? fun p => s.pageUnit c p.1.1 == u).map fun p =>
    let lo := p.1.1 + c.pageDone p.2
    let y := c.num 0 8
    (p.2, lo, min p.1.2 (((y + 4 * lo) / 32 * 32 + 32 - y) / 4))

/-- A memory-side command goes on: msum as a whole, any other by one sector of y (R244). -/
def State.stepMsu (s : State) (c : Cmd) : State :=
  if c.fn == 2 then s.finishCmd c (s.runMsu c 0 c.total) fun r => r.s.endOk c r.n r.n
  else match s.msuNext c with
    | none => s
    | some (k, lo, hi) => s.finishCmd c (s.runMsu c lo hi) fun r =>
      let c' := { c with sent := c.sent + (hi - lo), counted := c.counted + r.n, heldOn := none
                         pages := c.pages.filter (·.1 != k) ++ [(k, c.pageDone k + (hi - lo))] }
      if c.total ≤ c'.sent then r.s.endOk c c'.counted c'.counted
      else (r.s.modCmd c.id fun _ => c').setTok c 2 c'.counted

/-- Counted so far: nothing, where nothing has been done. -/
def Cmd.soFar (c : Cmd) : Nat := if c.sent == 0 then 0 else c.counted

/-- A put or get goes out; what a put has been refused goes out again; a get that has gone out is answered: data, a
retry-after hint of 16,384 slice cycles (R117), code 7, or code 9 (R231, log 12). A cancelled get is not sent again (R280). -/
def State.stepPut (s : State) (c : Cmd) (g : Workgroup) : State :=
  if s.now < c.resend then s
  else if c.sent == 0 then
    s.finishCmd c (s.runPut c g) fun r => (r.s.modCmd c.id fun c => { c with sent := c.len, resend := 0 }).setTok c 2 0
  else if c.fn != 2 then
    let again (p : Packet) : Packet := if p.cmd == c.id then { p with held := 0 } else p
    { s with e := { s.e with packets := s.e.packets.map again } }.modCmd c.id fun c => { c with resend := 0 }
  else match Config.farAnswer c.id c.tries % 4 with
    | 0 => s.finishCmd c (s.runGet c) fun r => r.s.endOk c r.n r.n
    | 1 =>
      if g.hard then (s.dropPacket c.id).dropCmd c
      else (s.dropPacket c.id).modCmd c.id fun c =>
        { c with sent := 0, tries := c.tries + 1, resend := s.now + sliceCycles 16384 }
    | 2 => (s.dropPacket c.id).endError c 7
    | _ => (s.dropPacket c.id).endError c 9

/-- Where a Retriever's command stops when it is told to stop: at a 4 KiB boundary of its source (R247, log 10). -/
def Cmd.stop (c : Cmd) : Nat :=
  let k := Config.stopAt c.id c.sent
  match c.eng, c.fn with
  | 0, 0 | 0, 1 | 0, 2 =>
    if (copyOf c.fn c.blk).divides then c.sent + 4096 * (k % ((c.total - 1) / 4096 - c.sent / 4096 + 1)) else c.sent
  | _, _ => c.sent

/-- A running command goes on to where it stops. -/
def State.partCmd (s : State) (c : Cmd) : State :=
  match s.wg? c.core c.slot with
  | none => s
  | some g =>
    if c.state != .accepted || !s.e.turn c || c.stop ≤ c.sent then s
    else s.finishCmd c (s.runCmd c g c.stop) fun r =>
      (r.s.modCmd c.id fun x => { x with sent := c.stop, counted := c.soFar + r.n, heldOn := none }).setTok c 2 (c.soFar + r.n)

def Context.stopping (c : Context) : Bool := c.state == .halting || c.state == .preempting

/-- The command may go on: while its context runs; a memory-side command and a get that is out also while it halts, until
their unit has stopped (R247). -/
def State.cmdGoes (s : State) (c : Cmd) : Bool :=
  let x := s.ctx c.ctx
  x.runs || (x.stopping && (c.eng == 2 || (c.eng == 3 && c.fn == 2 && c.sent != 0 && !x.halt.stopped.contains unitPut)))

/-- ENGINE_COMMAND_COMPLETE: a command runs and completes, a memory-side command does its next sector, a put or get goes out, or
a get is answered. -/
def execEngineCommandComplete (id : Nat) (s : State) : Host.Outcome State Fault Refusal :=
  match s.e.cmds.find? (·.id == id) with
  | none => .next s
  | some c =>
    match s.wg? c.core c.slot with
    | none => .next s
    | some g =>
      if c.state != .accepted || !s.e.turn c || !s.cmdGoes c || !g.resident || s.testing (inStores c.core c.slot) then .next s
      else if c.eng == 3 then .next (s.stepPut c g)
      else if c.eng == 2 then .next (s.stepMsu c)
      else .next (s.finishCmd c (s.runCmd c g c.total) fun r => r.s.endOk c (c.soFar + r.n) (c.soFar + r.n))

/-- BSTREAM_FORCED_CLOSE: 4 us after activation (R240). -/
def execBstreamForcedClose (core tok : Nat) (s : State) : Host.Outcome State Fault Refusal :=
  let due (q : Stream) : Bool := q.core == core && q.tok == tok && decide (q.since + 4400 ≤ s.now)
  .next { s with e := { s.e with streams := s.e.streams.filter fun q => !due q } }

/-- A command of the session waits or runs. -/
def Eng.inUse (q : Eng) (x : Session) : Bool :=
  q.cmds.any fun c => c.core == x.core && c.ctx == x.ctx && c.eng == 1 && c.state == .accepted && c.handle == some x.tok

/-- BANK_SESSION_IDLE_END: 20 us without a command (R242). -/
def execBankSessionIdleEnd (core tok : Nat) (s : State) : Host.Outcome State Fault Refusal :=
  let due (q : Session) : Bool := q.core == core && q.tok == tok && decide (q.used + 22000 ≤ s.now) && !s.e.inUse q
  .next { s with e := { s.e with sessions := s.e.sessions.filter fun q => !due q } }

/-! Across chips (R171, R245, R295-R297). -/

/-- PUT_ACK: the target acknowledges bytes of a put, or refuses it (code 7), or its export is gone (code 9); any other code
is a retry-after hint, after which the engine sends those bytes again (R117), but for a cancelled command (R280). -/
def execPutAck (id bytes code : Nat) (s : State) : Host.Outcome State Fault Refusal :=
  match s.e.cmds.find? (·.id == id), s.e.packets.find? (·.cmd == id) with
  | some c, some p =>
    let less (n held : Nat) : State :=
      let f (q : Packet) : Packet := if q.cmd == id then { q with bytes := q.bytes - n, held := held } else q
      { s with e := { s.e with packets := s.e.packets.map f } }
    if code == 7 || code == 9 then .next ((s.dropPacket id).endError c code)
    else if p.get then .next s
    else if code != 0 then
      let n := min bytes p.bytes
      if p.held != 0 || n == 0 then .next s
      else if s.wgs.any fun g => g.core == c.core && g.slot == c.slot && g.uid == c.uid && g.hard then
        .next (if n == p.bytes then (s.dropPacket id).dropCmd c else less n 0)
      else .next ((less 0 n).modCmd id fun c => { c with resend := s.now + sliceCycles (max 64 (min code 65535)) })
    else
      let n := min bytes (p.bytes - p.held)
      let win := c.num 0x14 2
      let total := c.num 0x10 4
      let ctx := s.ctx c.ctx
      let w := ctx.counts win
      let s := s.setCtx c.ctx (ctx.setCounts { w with completed := w.completed + BitVec.ofNat 64 n })
      if n < p.bytes then
        let less (q : Packet) : Packet := if q.cmd == id then { q with bytes := q.bytes - n } else q
        let s := { s with e := { s.e with packets := s.e.packets.map less } }
        .next ((if n == 0 then s else s.wordOf c fun g off => g.arrive off n).setTok c 2 (total + n - p.bytes))
      else .next ((s.dropPacket id).endOk c n total)
  | _, _ => .next s

/-- The export that a packet may use (R297). -/
def Dev.exportFor (y : Dev) (chip exp wof len size bit : Nat) (right : Bool) : Option Export :=
  match y.exports.find? (·.n == exp) with
  | none => none
  | some x =>
    if decide (x.clo ≤ chip) && decide (chip ≤ x.chi) && right && x.rt / bit % 2 == 1 && decide (wof + len ≤ x.size) &&
       decide (wof + len ≤ size) then some x else none

/-- Add to a 32-bit word, or a 64-bit one, of the window control block. -/
def State.addWord (s : State) (x : Export) (off n k : Nat) : Reach State :=
  let ia := x.cbia + off
  (s.readIaBy 65 x.ctx ia n).bind fun l => s.writeIaBy 65 x.ctx ia (pbytes n ((pnum l).1 + k) false)

/-- Set bits of ERR. -/
def State.orErr (s : State) (x : Export) (k : Nat) : Reach State :=
  (s.readIaBy 65 x.ctx (x.cbia + 8) 4).bind fun l => s.writeIaBy 65 x.ctx (x.cbia + 8) (pbytes 4 ((pnum l).1 ||| k) false)

/-- A put at its target: data, then ARR, then the signal. -/
def State.takePut (s : State) (x : Export) (wof : Nat) (data : List Byte) (poi : Bool) (sig : Option (Nat × BitVec 32)) : Reach State :=
  let ia := x.tia + wof
  if !s.y.allowed x.ctx ia data.length false true then (s.violation x.ctx ia .write unitPut).orErr x 1
  else (s.writeIa x.ctx ia (data.map fun b => (b, poi))).bind fun s =>
    (if poi then s.orErr x 2 else .ok s).bind fun s =>
      (s.addWord x 0 8 data.length).bind fun s => match sig with
        | some q => s.addWord x (0x10 + 4 * (q.1 % 16)) 4 q.2.toNat
        | none => .ok s

/-- A hint of 16,384 slice cycles for another chip whose request met an unmapped page (R117). -/
def State.farRetry (s : State) : State := { s with y := { s.y with reply := some (.retry 16384) } }

/-- PUT_ARRIVE: a put from another chip; what the export does not allow is dropped. -/
def execPutArrive (chip exp wof : Nat) (right : Bool) (size : Nat) (data : List (BitVec 8)) (poi : Bool)
    (sig : Option (Nat × BitVec 32)) (s : State) : Host.Outcome State Fault Refusal :=
  match s.y.exportFor chip exp wof data.length size 1 right with
  | none => .next s
  | some x =>
    match s.takePut x wof data poi sig with
    | .ok s' => .next s'
    | .hold s => .next s
    | .page s _ _ => .next s.farRetry
    | .viol ia a => .next (s.violation x.ctx ia a unitPut)

/-- Bytes of an element that another chip's view composer asks for: a gather index is read here (R141). None where the
window does not hold them. DESIGN CHOICE: an element whose index is all ones, out of bounds (R131), comes back as zero bytes, for
which the asking chip has its fill value (log 83). -/
def State.farElem (s : State) (x : Export) (fits : Nat → Nat → Bool) (q : FarElem) : Reach (Option (List PByte)) :=
  let read (off n : Nat) (poi : Bool) : Reach (Option (List PByte)) :=
    if !fits off n then .ok none
    else (s.readIaBy 65 x.ctx (x.tia + off) n).bind fun l => .ok (some (l.map fun b => (b.1, b.2 || poi)))
  match q.idx with
  | none => read q.off q.n false
  | some (at_, n, stride) => (read at_ n false).bind fun o => match o with
    | none => .ok none
    | some l =>
      if (pnum l).1 == 2 ^ (8 * n) - 1 then .ok (some (List.replicate q.n (0, (pnum l).2)))
      else read (q.off + (pnum l).1 * stride) q.n (pnum l).2

/-- REMOTE_GET_ARRIVE: a get from another chip reads each sector complete at its home, or the elements of a list, which it
composes (R115, R141); the reply leaves the chip. -/
def execRemoteGetArrive (chip exp wof : Nat) (right : Bool) (size : Nat) (ask : FarAsk) (s : State) :
    Host.Outcome State Fault Refusal :=
  match s.y.exportFor chip exp wof ask.len size 2 right with
  | none => .next s
  | some x =>
    let fits (off n : Nat) : Bool := (s.y.exportFor chip exp off n size 2 right).isSome
    let r : Reach (Option (List PByte)) :=
      if ask.elems.isEmpty then (s.readIaBy 65 x.ctx (x.tia + wof) ask.len).bind fun l => .ok (some l)
      else (reachAll (s.farElem x fits) ask.elems).bind fun l => .ok (joinOpt l)
    match r with
    | .ok (some l) => .next (s.reply (.bytes (l.map (·.1)) (l.any (·.2))))
    | .ok none => .next s
    | .hold s => .next s
    | .page s _ _ => .next s.farRetry
    | .viol ia a => .next (s.violation x.ctx ia a unitPut)

end Sys2Proof.Machine
end

