-- ==== Sys2Proof/Decode.lean ====
section
/-! DEFINITION. Decoding of instruction words (R29-R49) and the encoder of the same tables.

A word is read as a number. decode is total and rejects by name (the cases of R49); encode gives the word of a
well-formed instruction. Events have no word. -/

namespace Sys2Proof

/-- Why a word is not an instruction (R49). Each case is the illegal-instruction trap. -/
inductive DecodeErr where
  | opcode        -- OP unassigned (R48)
  | pairWord      -- bit 0 of a pair word, op6, codes, unused positions, shift counts (R39-R41)
  | source        -- source operand 469-479 (R37)
  | destination   -- destination 448-511, or a kind of register the card does not take (R37)
  | pairOperand   -- not an even v or w register (R37)
  | unused        -- unused operand field other than 480 (R32)
  | modifier      -- undefined M bit, reserved type, scope, size or function code (R32-R34, R47)
  | immediate     -- IMM28 outside the legal values (R31)
  deriving DecidableEq, Repr

abbrev Dec := Except DecodeErr

/-- n bits of a number from bit k up. -/
def bits (x k n : Nat) : Nat := x / 2 ^ k % 2 ^ n

/-- The fields of a full word (R29); IMM28 is B, C and M together (R31). -/
structure Fields where
  s : Nat
  g : Nat
  gn : Nat
  op : Nat
  d : Nat
  a : Nat
  b : Nat
  c : Nat
  m : Nat
  deriving DecidableEq, Repr

def Fields.ofWord (w : Nat) : Fields :=
  { s := bits w 59 4, g := bits w 56 3, gn := bits w 55 1, op := bits w 46 9, d := bits w 37 9, a := bits w 28 9,
    b := bits w 19 9, c := bits w 10 9, m := bits w 0 10 }

def Fields.toWord (f : Fields) : Nat :=
  f.s * 2 ^ 59 + f.g * 2 ^ 56 + f.gn * 2 ^ 55 + f.op * 2 ^ 46 + f.d * 2 ^ 37 + f.a * 2 ^ 28 + f.b * 2 ^ 19
    + f.c * 2 ^ 10 + f.m

def Fields.imm (f : Fields) : Nat := f.b * 524288 + f.c * 1024 + f.m

def Fields.hdr (f : Fields) : Hdr := { stall := f.s, g := f.g, gn := f.gn == 1 }

def need (b : Bool) (e : DecodeErr) : Dec Unit := if b then .ok () else .error e

/-- A code that no name of the enumeration has is a reserved modifier. -/
def orBad {α : Type} : Option α → Dec α
  | some x => .ok x
  | none => .error .modifier

def decBool (n : Nat) : Dec Bool := if n == 0 then .ok false else if n == 1 then .ok true else .error .modifier

def STy.code : STy → Nat
  | .i32 => 0
  | .n32 => 1
def STy.ofCode : Nat → Option STy
  | 0 => some .i32
  | 1 => some .n32
  | _ => none

def ITy.code : ITy → Nat
  | .i32 => 0
  | .n32 => 1
  | .i64 => 2
  | .n64 => 3
def ITy.ofCode : Nat → Option ITy
  | 0 => some .i32
  | 1 => some .n32
  | 2 => some .i64
  | 3 => some .n64
  | _ => none

def FTy.code : FTy → Nat
  | .f32 => 0
  | .f16 => 1
  | .bf16 => 2
  | .e4m3 => 3
def FTy.ofCode : Nat → Option FTy
  | 0 => some .f32
  | 1 => some .f16
  | 2 => some .bf16
  | 3 => some .e4m3
  | _ => none

def PTy.code : PTy → Nat
  | .f16x2 => 4
  | .bf16x2 => 5
def PTy.ofCode : Nat → Option PTy
  | 4 => some .f16x2
  | 5 => some .bf16x2
  | _ => none

def Rm.code : Rm → Nat
  | .rn => 0
  | .rz => 1
  | .ru => 2
  | .rd => 3
def Rm.ofCode : Nat → Option Rm
  | 0 => some .rn
  | 1 => some .rz
  | 2 => some .ru
  | 3 => some .rd
  | _ => none

def Scope.code : Scope → Nat
  | .wg => 0
  | .cl => 1
  | .die => 2
  | .dev => 3
  | .sys => 4
def Scope.ofCode : Nat → Option Scope
  | 0 => some .wg
  | 1 => some .cl
  | 2 => some .die
  | 3 => some .dev
  | 4 => some .sys
  | _ => none

def CScope.code : CScope → Nat
  | .cl => 0
  | .die => 2
  | .dev => 3
  | .sys => 4
def CScope.ofCode : Nat → Option CScope
  | 0 => some .cl
  | 2 => some .die
  | 3 => some .dev
  | 4 => some .sys
  | _ => none

def Hint.code : Hint → Nat
  | .dflt => 0
  | .strm => 1
  | .stky => 2
  | .byp => 3
def Hint.ofCode : Nat → Option Hint
  | 0 => some .dflt
  | 1 => some .strm
  | 2 => some .stky
  | 3 => some .byp
  | _ => none

def Size.code : Size → Nat
  | .byte => 0
  | .half => 1
  | .word => 2
  | .double => 3
  | .quad => 4
def Size.ofCode : Nat → Option Size
  | 0 => some .byte
  | 1 => some .half
  | 2 => some .word
  | 3 => some .double
  | 4 => some .quad
  | _ => none

def ICmp.code : ICmp → Nat
  | .eq => 0
  | .ne => 1
  | .lt => 2
  | .le => 3
  | .gt => 4
  | .ge => 5
def ICmp.ofCode : Nat → Option ICmp
  | 0 => some .eq
  | 1 => some .ne
  | 2 => some .lt
  | 3 => some .le
  | 4 => some .gt
  | 5 => some .ge
  | _ => none

def PFn.code : PFn → Nat
  | .and => 0
  | .or => 1
  | .xor => 2
  | .andn => 3
  | .orn => 4
  | .nand => 5
  | .nor => 6
  | .xnor => 7
def PFn.ofCode : Nat → Option PFn
  | 0 => some .and
  | 1 => some .or
  | 2 => some .xor
  | 3 => some .andn
  | 4 => some .orn
  | 5 => some .nand
  | 6 => some .nor
  | 7 => some .xnor
  | _ => none

def FCmp.code : FCmp → Nat
  | .eq => 0
  | .ne => 1
  | .lt => 2
  | .le => 3
  | .gt => 4
  | .ge => 5
  | .uo => 6
  | .ord => 7
def FCmp.ofCode : Nat → Option FCmp
  | 0 => some .eq
  | 1 => some .ne
  | 2 => some .lt
  | 3 => some .le
  | 4 => some .gt
  | 5 => some .ge
  | 6 => some .uo
  | 7 => some .ord
  | _ => none

def RKind.code : RKind → Nat
  | .add => 0
  | .minI => 1
  | .maxI => 2
  | .minN => 3
  | .maxN => 4
  | .and => 5
  | .or => 6
def RKind.ofCode : Nat → Option RKind
  | 0 => some .add
  | 1 => some .minI
  | 2 => some .maxI
  | 3 => some .minN
  | 4 => some .maxN
  | 5 => some .and
  | 6 => some .or
  | _ => none

def AOp.code : AOp → Nat
  | .add => 0
  | .and => 1
  | .or => 2
  | .xor => 3
  | .min => 4
  | .max => 5
  | .exch => 6
  | .inc => 7
  | .dec => 8
def AOp.ofCode : Nat → Option AOp
  | 0 => some .add
  | 1 => some .and
  | 2 => some .or
  | 3 => some .xor
  | 4 => some .min
  | 5 => some .max
  | 6 => some .exch
  | 7 => some .inc
  | 8 => some .dec
  | _ => none

def AFOp.code : AFOp → Nat
  | .add => 0
  | .min => 1
  | .max => 2
  | .exch => 3
def AFOp.ofCode : Nat → Option AFOp
  | 0 => some .add
  | 1 => some .min
  | 2 => some .max
  | 3 => some .exch
  | _ => none

def WCmp.code : WCmp → Nat
  | .eq => 0
  | .ne => 1
  | .lt => 2
  | .ge => 3
def WCmp.ofCode : Nat → Option WCmp
  | 0 => some .eq
  | 1 => some .ne
  | 2 => some .lt
  | 3 => some .ge
  | _ => none

def FKind.code : FKind → Nat
  | .acq => 0
  | .rel => 1
  | .ar => 2
  | .sc => 3
def FKind.ofCode : Nat → Option FKind
  | 0 => some .acq
  | 1 => some .rel
  | 2 => some .ar
  | 3 => some .sc
  | _ => none

def KSel.code : KSel → Nat
  | .off => 0
  | .a => 1
  | .b => 2
  | .d => 3
def KSel.ofCode : Nat → Option KSel
  | 0 => some .off
  | 1 => some .a
  | 2 => some .b
  | 3 => some .d
  | _ => none

def MFmt.code : MFmt → Nat
  | .bf16 => 0
  | .f16 => 1
  | .e4m3 => 2
def MFmt.ofCode : Nat → Option MFmt
  | 0 => some .bf16
  | 1 => some .f16
  | 2 => some .e4m3
  | _ => none

def HFmt.code : HFmt → Nat
  | .bf16 => 0
  | .f16 => 1
def HFmt.ofCode : Nat → Option HFmt
  | 0 => some .bf16
  | 1 => some .f16
  | _ => none

def LFmt.code : LFmt → Nat
  | .f32 => 0
  | .bf16 => 1
  | .f16 => 2
def LFmt.ofCode : Nat → Option LFmt
  | 0 => some .f32
  | 1 => some .bf16
  | 2 => some .f16
  | _ => none

def SFmt.code : SFmt → Nat
  | .f32 => 0
  | .bf16 => 1
  | .f16 => 2
  | .e4m3 => 3
def SFmt.ofCode : Nat → Option SFmt
  | 0 => some .f32
  | 1 => some .bf16
  | 2 => some .f16
  | 3 => some .e4m3
  | _ => none

def TPFn.code : TPFn → Nat
  | .set => 0
  | .or => 1
  | .andn => 2
  | .rd => 3
def TPFn.ofCode : Nat → Option TPFn
  | 0 => some .set
  | 1 => some .or
  | 2 => some .andn
  | 3 => some .rd
  | _ => none

def SysReg.code : SysReg → Nat
  | .fpflags => 0
  | .ctl => 1
  | .cancel => 2
  | .ptroot => 3
  | .vwbase => 4
  | .slotbase => 5
  | .stoparea => 6
  | .ctximg => 7
  | .ctxlen => 8
  | .state => 9
  | .evq => 16
  | .evhead => 17
  | .evtail => 18
  | .evlost => 19
  | .faultack => 20
  | .sfways => 21
  | .frzctl => 22
  | .xlinv => 23
def SysReg.ofCode : Nat → Option SysReg
  | 0 => some .fpflags
  | 1 => some .ctl
  | 2 => some .cancel
  | 3 => some .ptroot
  | 4 => some .vwbase
  | 5 => some .slotbase
  | 6 => some .stoparea
  | 7 => some .ctximg
  | 8 => some .ctxlen
  | 9 => some .state
  | 16 => some .evq
  | 17 => some .evhead
  | 18 => some .evtail
  | 19 => some .evlost
  | 20 => some .faultack
  | 21 => some .sfways
  | 22 => some .frzctl
  | 23 => some .xlinv
  | _ => none

def Level.code : Level → Nat
  | .launch => 0
  | .graph => 1
  | .phase => 2
  | .job => 3
def Level.ofCode : Nat → Option Level
  | 0 => some .launch
  | 1 => some .graph
  | 2 => some .phase
  | 3 => some .job
  | _ => none

def CWord.code : CWord → Nat
  | .done => 0
  | .total => 1
  | .flags => 2
def CWord.ofCode : Nat → Option CWord
  | 0 => some .done
  | 1 => some .total
  | 2 => some .flags
  | _ => none

/-- XOP and TY of cvt as one number (R82). -/
def Cvt.code : Cvt → Nat
  | .ff d s => d.code * 8 + s.code
  | .ofInt s d => (4 + s.code) * 8 + d.code
  | .toInt d s => (8 + d.code) * 8 + s.code

def Cvt.ofCode (n : Nat) : Option Cvt :=
  match FTy.ofCode (n % 8) with
  | none => none
  | some f =>
    if n / 8 < 4 then (FTy.ofCode (n / 8)).map (.ff · f)
    else if n / 8 < 8 then (ITy.ofCode (n / 8 - 4)).map (.ofInt · f)
    else (ITy.ofCode (n / 8 - 8)).map (.toInt · f)

def Reg.code : Reg → Nat
  | .v n => n
  | .w n => 384 + n

def Src.code : Src → Nat
  | .v n => n
  | .w n => 384 + n
  | .sp k => 448 + k
  | .c n => 480 + n

def codeRegZ : Option Reg → Nat
  | none => 480
  | some r => r.code
def codeVZ : Option Nat → Nat
  | none => 480
  | some n => n
def codeAfter : Option Nat → Nat
  | none => 480
  | some n => 496 + n

def decNone (n : Nat) : Dec Unit := need (n == 480) .unused

def decSrc (n : Nat) : Dec Src :=
  if n < 384 then .ok (.v n) else if n < 448 then .ok (.w (n - 384)) else if n < 469 then .ok (.sp (n - 448))
  else if n < 480 then .error .source else if n < 512 then .ok (.c (n - 480)) else .error .source

def decReg (n : Nat) : Dec Reg :=
  if n < 384 then .ok (.v n) else if n < 448 then .ok (.w (n - 384)) else .error .destination

def decPair (n : Nat) : Dec Reg :=
  if n % 2 == 0 then
    if n < 384 then .ok (.v n) else if n < 448 then .ok (.w (n - 384)) else .error .pairOperand
  else .error .pairOperand

def decPairZ (n : Nat) : Dec (Option Reg) := if n == 480 then .ok none else (decPair n).map some

def decRegZ (n : Nat) : Dec (Option Reg) := if n == 480 then .ok none else (decReg n).map some

def decV (group n : Nat) : Dec Nat := if wfV group n then .ok n else .error .destination

def decVZ (n : Nat) : Dec (Option Nat) := if n == 480 then .ok none else (decV 1 n).map some

def decLt (k n : Nat) : Dec Nat := if n < k then .ok n else .error .destination

def decRegW (wide : Bool) (n : Nat) : Dec Reg := if wide then decPair n else decReg n

def decVW (wide : Bool) (n : Nat) : Dec Reg := if wide then decPair n else (decV 1 n).map .v

/-- A register or, of a mov of 64 bits, a pair. DESIGN CHOICE: under a 64-bit type A is a register pair, and a word whose A
names a constant or a special operand fails to decode (R37, R51, R64; log 72). -/
def decSrcW (wide : Bool) (n : Nat) : Dec Src :=
  if wide then
    (decPair n).map fun r =>
      match r with
      | .v k => .v k
      | .w k => .w k
  else decSrc n

/-- Store data (R121). -/
def decData (z : Size) (n : Nat) : Dec Src :=
  match decSrc n with
  | .error e => .error e
  | .ok s => if s.wfData z then .ok s else .error .source

def decAfter (n : Nat) : Dec (Option Nat) :=
  if n == 480 then .ok none else if 496 ≤ n && n < 512 then .ok (some (n - 496)) else .error .unused

def decPairIf (b : Bool) (n : Nat) : Dec (Option Reg) :=
  if b then (decPair n).map some else if n == 480 then .ok none else .error .unused

def decTpA (fn : TPFn) (n : Nat) : Dec (Option Reg) :=
  if n == 480 then .ok none else if fn == .rd then .error .unused else (decPair n).map some

def decCtxA (ot : Bool) (n : Nat) : Dec Src :=
  if ot then decSrc n else if n == 480 then .ok (.c 0) else .error .unused

/-- Words of opcodes 0x000-0x03f. -/
def decodeInt (f : Fields) : Dec Instr :=
  match f.op with
  | 0x000 => do
    let ty ← orBad (STy.ofCode (bits f.m 3 3))
    need (f.m == ty.code * 8) .modifier
    let d ← decReg f.d
    let a ← decSrc f.a
    let b ← decSrc f.b
    decNone f.c
    .ok (.iadd f.hdr ty d a b)
  | 0x001 => do
    let d ← decReg f.d
    let a ← decSrc f.a
    let imm := f.imm
    .ok (.iaddi f.hdr d a imm)
  | 0x002 => do
    let ty ← orBad (STy.ofCode (bits f.m 3 3))
    need (f.m == ty.code * 8) .modifier
    let d ← decReg f.d
    let a ← decSrc f.a
    let b ← decSrc f.b
    decNone f.c
    .ok (.isub f.hdr ty d a b)
  | 0x003 => do
    let ty ← orBad (STy.ofCode (bits f.m 3 3))
    need (f.m == ty.code * 8) .modifier
    let d ← decReg f.d
    let a ← decSrc f.a
    let b ← decSrc f.b
    decNone f.c
    .ok (.imul f.hdr ty d a b)
  | 0x004 => do
    let ty ← orBad (STy.ofCode (bits f.m 3 3))
    need (f.m == ty.code * 8) .modifier
    let d ← decReg f.d
    let a ← decSrc f.a
    let b ← decSrc f.b
    decNone f.c
    .ok (.imulh f.hdr ty d a b)
  | 0x005 => do
    let ty ← orBad (STy.ofCode (bits f.m 3 3))
    need (f.m == ty.code * 8) .modifier
    let d ← decReg f.d
    let a ← decSrc f.a
    let b ← decSrc f.b
    let c ← decSrc f.c
    .ok (.imad f.hdr ty d a b c)
  | 0x006 => do
    let ty ← orBad (STy.ofCode (bits f.m 3 3))
    need (f.m == ty.code * 8) .modifier
    let d ← decPair f.d
    let a ← decSrc f.a
    let b ← decSrc f.b
    let c ← decPairZ f.c
    .ok (.imadw f.hdr ty d a b c)
  | 0x007 => do
    let sub ← decBool (bits f.m 6 4)
    need (f.m == sub.toNat * 64) .modifier
    let d ← decPair f.d
    let a ← decPair f.a
    let b ← decPair f.b
    decNone f.c
    .ok (.iadd64 f.hdr sub d a b)
  | 0x008 => do
    let ty ← orBad (ITy.ofCode (bits f.m 3 3))
    need (f.m == ty.code * 8) .modifier
    let d ← decRegW ty.wide f.d
    let a ← decSrcW ty.wide f.a
    let b ← decSrcW ty.wide f.b
    decNone f.c
    .ok (.imin f.hdr ty d a b)
  | 0x009 => do
    let ty ← orBad (ITy.ofCode (bits f.m 3 3))
    need (f.m == ty.code * 8) .modifier
    let d ← decRegW ty.wide f.d
    let a ← decSrcW ty.wide f.a
    let b ← decSrcW ty.wide f.b
    decNone f.c
    .ok (.imax f.hdr ty d a b)
  | 0x00a => do
    need (f.m == 0) .modifier
    let d ← decReg f.d
    let a ← decSrc f.a
    decNone f.b
    decNone f.c
    .ok (.iabs f.hdr d a)
  | 0x00b => do
    let ty ← orBad (ITy.ofCode (bits f.m 3 3))
    need (f.m == ty.code * 8) .modifier
    let d ← decRegW ty.wide f.d
    let a ← decSrcW ty.wide f.a
    let b ← decSrcW ty.wide f.b
    decNone f.c
    .ok (.and f.hdr ty d a b)
  | 0x00c => do
    let ty ← orBad (ITy.ofCode (bits f.m 3 3))
    need (f.m == ty.code * 8) .modifier
    let d ← decRegW ty.wide f.d
    let a ← decSrcW ty.wide f.a
    let b ← decSrcW ty.wide f.b
    decNone f.c
    .ok (.or f.hdr ty d a b)
  | 0x00d => do
    let ty ← orBad (ITy.ofCode (bits f.m 3 3))
    need (f.m == ty.code * 8) .modifier
    let d ← decRegW ty.wide f.d
    let a ← decSrcW ty.wide f.a
    let b ← decSrcW ty.wide f.b
    decNone f.c
    .ok (.xor f.hdr ty d a b)
  | 0x00e => do
    let d ← decReg f.d
    let a ← decSrc f.a
    let imm := f.imm
    .ok (.andi f.hdr d a imm)
  | 0x00f => do
    let d ← decReg f.d
    let a ← decSrc f.a
    let imm := f.imm
    .ok (.ori f.hdr d a imm)
  | 0x010 => do
    let d ← decReg f.d
    let a ← decSrc f.a
    let imm := f.imm
    .ok (.xori f.hdr d a imm)
  | 0x011 => do
    let ty ← orBad (ITy.ofCode (bits f.m 3 3))
    need (f.m == ty.code * 8) .modifier
    let d ← decRegW ty.wide f.d
    let a ← decSrcW ty.wide f.a
    let b ← decSrcW ty.wide f.b
    decNone f.c
    .ok (.shl f.hdr ty d a b)
  | 0x012 => do
    let ty ← orBad (ITy.ofCode (bits f.m 3 3))
    need (f.m == ty.code * 8) .modifier
    let d ← decRegW ty.wide f.d
    let a ← decSrcW ty.wide f.a
    let b ← decSrcW ty.wide f.b
    decNone f.c
    .ok (.shr f.hdr ty d a b)
  | 0x013 => do
    let ty ← orBad (ITy.ofCode (bits f.m 3 3))
    need (f.m == ty.code * 8) .modifier
    let d ← decRegW ty.wide f.d
    let a ← decSrcW ty.wide f.a
    let b ← decSrcW ty.wide f.b
    decNone f.c
    .ok (.sar f.hdr ty d a b)
  | 0x014 => do
    let d ← decReg f.d
    let a ← decSrc f.a
    let imm := f.imm
    need (imm < 32) .immediate
    .ok (.shli f.hdr d a imm)
  | 0x015 => do
    let d ← decReg f.d
    let a ← decSrc f.a
    let imm := f.imm
    need (imm < 32) .immediate
    .ok (.shri f.hdr d a imm)
  | 0x016 => do
    let d ← decReg f.d
    let a ← decSrc f.a
    let imm := f.imm
    need (imm < 32) .immediate
    .ok (.sari f.hdr d a imm)
  | 0x017 => do
    let ty ← orBad (STy.ofCode (bits f.m 3 3))
    need (f.m == ty.code * 8) .modifier
    let d ← decReg f.d
    let a ← decSrc f.a
    let b ← decSrc f.b
    decNone f.c
    .ok (.rotl f.hdr ty d a b)
  | 0x018 => do
    let ty ← orBad (STy.ofCode (bits f.m 3 3))
    need (f.m == ty.code * 8) .modifier
    let d ← decReg f.d
    let a ← decSrc f.a
    let b ← decSrc f.b
    let c ← decSrc f.c
    .ok (.bfe f.hdr ty d a b c)
  | 0x019 => do
    need (f.m == 0) .modifier
    let d ← decReg f.d
    let a ← decSrc f.a
    let b ← decSrc f.b
    let c ← decSrc f.c
    .ok (.bfi f.hdr d a b c)
  | 0x01a => do
    need (f.m == 0) .modifier
    let d ← decReg f.d
    let a ← decSrc f.a
    decNone f.b
    decNone f.c
    .ok (.popc f.hdr d a)
  | 0x01b => do
    need (f.m == 0) .modifier
    let d ← decReg f.d
    let a ← decSrc f.a
    decNone f.b
    decNone f.c
    .ok (.clz f.hdr d a)
  | 0x01c => do
    need (f.m == 0) .modifier
    let d ← decReg f.d
    let a ← decSrc f.a
    decNone f.b
    decNone f.c
    .ok (.brev f.hdr d a)
  | 0x01d => do
    let ty ← orBad (ITy.ofCode (bits f.m 3 3))
    let pn ← pure (bits f.m 6 3)
    let inv ← decBool (bits f.m 9 1)
    need (f.m == ty.code * 8 + pn * 64 + inv.toNat * 512) .modifier
    let d ← decRegW ty.wide f.d
    let a ← decSrcW ty.wide f.a
    let b ← decSrcW ty.wide f.b
    decNone f.c
    .ok (.sel f.hdr ty pn inv d a b)
  | 0x01e => do
    let ty ← orBad (ITy.ofCode (bits f.m 3 3))
    let cmp ← orBad (ICmp.ofCode (bits f.m 6 4))
    need (f.m == ty.code * 8 + cmp.code * 64) .modifier
    let d ← decLt 7 f.d
    let a ← decSrcW ty.wide f.a
    let b ← decSrcW ty.wide f.b
    decNone f.c
    .ok (.iset f.hdr ty cmp d a b)
  | 0x01f => do
    let fn ← orBad (PFn.ofCode (bits f.m 6 4))
    need (f.m == fn.code * 64) .modifier
    let d ← decLt 7 f.d
    let a ← decLt 8 f.a
    let b ← decLt 8 f.b
    decNone f.c
    .ok (.pset f.hdr fn d a b)
  | 0x020 => do
    let ty ← orBad (ITy.ofCode (bits f.m 3 3))
    need (f.m == ty.code * 8) .modifier
    let d ← decRegW ty.wide f.d
    let a ← decSrcW ty.wide f.a
    decNone f.b
    decNone f.c
    .ok (.mov f.hdr ty d a)
  | 0x021 => do
    let d ← decReg f.d
    decNone f.a
    let imm := f.imm
    .ok (.movi f.hdr d imm)
  | 0x022 => do
    let d ← decReg f.d
    let a ← decSrc f.a
    let imm := f.imm
    need (imm < 65536) .immediate
    .ok (.movh f.hdr d a imm)
  | 0x023 => do
    need (f.m == 0) .modifier
    let d ← decReg f.d
    let a ← decSrc f.a
    let b ← decSrc f.b
    let c ← decSrc f.c
    .ok (.lea f.hdr d a b c)
  | 0x024 => do
    let ty ← orBad (STy.ofCode (bits f.m 3 3))
    need (f.m == ty.code * 8) .modifier
    let d ← decPair f.d
    let a ← decPair f.a
    let b ← decSrc f.b
    let c ← decSrc f.c
    .ok (.lea64 f.hdr ty d a b c)
  | 0x025 => do
    let ty ← orBad (STy.ofCode (bits f.m 3 3))
    need (f.m == ty.code * 8) .modifier
    let d ← decReg f.d
    let a ← decSrc f.a
    let b ← decSrc f.b
    decNone f.c
    .ok (.idiv f.hdr ty d a b)
  | 0x026 => do
    let ty ← orBad (STy.ofCode (bits f.m 3 3))
    need (f.m == ty.code * 8) .modifier
    let d ← decReg f.d
    let a ← decSrc f.a
    let b ← decSrc f.b
    decNone f.c
    .ok (.irem f.hdr ty d a b)
  | 0x027 => do
    need (f.m == 0) .modifier
    let d ← decReg f.d
    decNone f.a
    decNone f.b
    decNone f.c
    .ok (.p2v f.hdr d)
  | 0x028 => do
    need (f.m == 0) .modifier
    decNone f.d
    let a ← decSrc f.a
    let b ← decSrc f.b
    decNone f.c
    .ok (.v2p f.hdr a b)
  | _ => .error .opcode

/-- Words of opcodes 0x040-0x07f. -/
def decodeFloat (f : Fields) : Dec Instr :=
  match f.op with
  | 0x040 => do
    let rm ← orBad (Rm.ofCode (bits f.m 0 2))
    need (f.m == rm.code) .modifier
    let d ← decReg f.d
    let a ← decSrc f.a
    let b ← decSrc f.b
    decNone f.c
    .ok (.fadd f.hdr rm d a b)
  | 0x041 => do
    let rm ← orBad (Rm.ofCode (bits f.m 0 2))
    need (f.m == rm.code) .modifier
    let d ← decReg f.d
    let a ← decSrc f.a
    let b ← decSrc f.b
    decNone f.c
    .ok (.fsub f.hdr rm d a b)
  | 0x042 => do
    let rm ← orBad (Rm.ofCode (bits f.m 0 2))
    need (f.m == rm.code) .modifier
    let d ← decReg f.d
    let a ← decSrc f.a
    let b ← decSrc f.b
    decNone f.c
    .ok (.fmul f.hdr rm d a b)
  | 0x043 => do
    let rm ← orBad (Rm.ofCode (bits f.m 0 2))
    need (f.m == rm.code) .modifier
    let d ← decReg f.d
    let a ← decSrc f.a
    let b ← decSrc f.b
    let c ← decSrc f.c
    .ok (.ffma f.hdr rm d a b c)
  | 0x044 => do
    need (f.m == 0) .modifier
    let d ← decReg f.d
    let a ← decSrc f.a
    let b ← decSrc f.b
    decNone f.c
    .ok (.fmin f.hdr d a b)
  | 0x045 => do
    need (f.m == 0) .modifier
    let d ← decReg f.d
    let a ← decSrc f.a
    let b ← decSrc f.b
    decNone f.c
    .ok (.fmax f.hdr d a b)
  | 0x046 => do
    let cmp ← orBad (FCmp.ofCode (bits f.m 6 4))
    need (f.m == cmp.code * 64) .modifier
    let d ← decLt 7 f.d
    let a ← decSrc f.a
    let b ← decSrc f.b
    decNone f.c
    .ok (.fset f.hdr cmp d a b)
  | 0x047 =>
    match bits f.m 6 4 with
    | 0 => do
      need (f.m == 0) .modifier
      let d ← decReg f.d
      let a ← decSrc f.a
      let b ← decSrc f.b
      decNone f.c
      .ok (.famax f.hdr d a b)
    | 1 => do
      need (f.m == 64) .modifier
      let d ← decReg f.d
      let a ← decSrc f.a
      decNone f.b
      decNone f.c
      .ok (.fneg f.hdr d a)
    | 2 => do
      need (f.m == 128) .modifier
      let d ← decReg f.d
      let a ← decSrc f.a
      decNone f.b
      decNone f.c
      .ok (.fabs f.hdr d a)
    | _ => .error .modifier
  | 0x048 => do
    need (f.m == 0) .modifier
    let d ← decReg f.d
    let a ← decSrc f.a
    decNone f.b
    decNone f.c
    .ok (.frcp f.hdr d a)
  | 0x049 => do
    need (f.m == 0) .modifier
    let d ← decReg f.d
    let a ← decSrc f.a
    decNone f.b
    decNone f.c
    .ok (.frsq f.hdr d a)
  | 0x04a => do
    let rm ← orBad (Rm.ofCode (bits f.m 0 2))
    need (f.m == rm.code) .modifier
    let d ← decReg f.d
    let a ← decSrc f.a
    decNone f.b
    decNone f.c
    .ok (.fsqrt f.hdr rm d a)
  | 0x04b => do
    need (f.m == 0) .modifier
    let d ← decReg f.d
    let a ← decSrc f.a
    decNone f.b
    decNone f.c
    .ok (.fex2 f.hdr d a)
  | 0x04c => do
    need (f.m == 0) .modifier
    let d ← decReg f.d
    let a ← decSrc f.a
    decNone f.b
    decNone f.c
    .ok (.flg2 f.hdr d a)
  | 0x04d => do
    need (f.m == 0) .modifier
    let d ← decReg f.d
    let a ← decSrc f.a
    decNone f.b
    decNone f.c
    .ok (.fsin f.hdr d a)
  | 0x04e => do
    need (f.m == 0) .modifier
    let d ← decReg f.d
    let a ← decSrc f.a
    decNone f.b
    decNone f.c
    .ok (.fcos f.hdr d a)
  | 0x04f => do
    let rm ← orBad (Rm.ofCode (bits f.m 0 2))
    need (f.m == rm.code) .modifier
    let d ← decReg f.d
    let a ← decSrc f.a
    let b ← decSrc f.b
    decNone f.c
    .ok (.fscale f.hdr rm d a b)
  | 0x050 => do
    let rm ← orBad (Rm.ofCode (bits f.m 0 2))
    need (f.m == rm.code) .modifier
    let d ← decReg f.d
    let a ← decSrc f.a
    decNone f.b
    decNone f.c
    .ok (.frnd f.hdr rm d a)
  | 0x051 => do
    let ft ← orBad (FTy.ofCode (bits f.m 3 3))
    need (f.m == ft.code * 8) .modifier
    let d ← decReg f.d
    let a ← decSrc f.a
    decNone f.b
    decNone f.c
    .ok (.fclass f.hdr ft d a)
  | 0x052 => do
    let rm ← orBad (Rm.ofCode (bits f.m 0 2))
    need (f.m == rm.code + 32) .modifier
    let d ← decReg f.d
    let a ← decSrc f.a
    let b ← decSrc f.b
    decNone f.c
    .ok (.hadd2 f.hdr rm d a b)
  | 0x053 => do
    let rm ← orBad (Rm.ofCode (bits f.m 0 2))
    need (f.m == rm.code + 32) .modifier
    let d ← decReg f.d
    let a ← decSrc f.a
    let b ← decSrc f.b
    decNone f.c
    .ok (.hmul2 f.hdr rm d a b)
  | 0x054 => do
    let rm ← orBad (Rm.ofCode (bits f.m 0 2))
    need (f.m == rm.code + 32) .modifier
    let d ← decReg f.d
    let a ← decSrc f.a
    let b ← decSrc f.b
    let c ← decSrc f.c
    .ok (.hfma2 f.hdr rm d a b c)
  | 0x055 => do
    let rm ← orBad (Rm.ofCode (bits f.m 0 2))
    need (f.m == rm.code + 40) .modifier
    let d ← decReg f.d
    let a ← decSrc f.a
    let b ← decSrc f.b
    decNone f.c
    .ok (.badd2 f.hdr rm d a b)
  | 0x056 => do
    let rm ← orBad (Rm.ofCode (bits f.m 0 2))
    need (f.m == rm.code + 40) .modifier
    let d ← decReg f.d
    let a ← decSrc f.a
    let b ← decSrc f.b
    decNone f.c
    .ok (.bmul2 f.hdr rm d a b)
  | 0x057 => do
    let rm ← orBad (Rm.ofCode (bits f.m 0 2))
    need (f.m == rm.code + 40) .modifier
    let d ← decReg f.d
    let a ← decSrc f.a
    let b ← decSrc f.b
    let c ← decSrc f.c
    .ok (.bfma2 f.hdr rm d a b c)
  | 0x058 => do
    let mx ← decBool (bits f.m 6 4)
    need (f.m == mx.toNat * 64 + 32) .modifier
    let d ← decReg f.d
    let a ← decSrc f.a
    let b ← decSrc f.b
    decNone f.c
    .ok (.hmnx2 f.hdr mx d a b)
  | 0x059 => do
    let mx ← decBool (bits f.m 6 4)
    need (f.m == mx.toNat * 64 + 40) .modifier
    let d ← decReg f.d
    let a ← decSrc f.a
    let b ← decSrc f.b
    decNone f.c
    .ok (.bmnx2 f.hdr mx d a b)
  | 0x05a => do
    let cv ← orBad (Cvt.ofCode (bits f.m 3 7))
    let ns ← decBool (bits f.m 2 1)
    let rm ← orBad (Rm.ofCode (bits f.m 0 2))
    need (f.m == cv.code * 8 + ns.toNat * 4 + rm.code) .modifier
    need (cvtOk cv ns rm) .modifier
    let d ← decRegW cv.wideD f.d
    let a ← decSrcW cv.wideA f.a
    decNone f.b
    decNone f.c
    .ok (.cvt f.hdr cv ns rm d a)
  | 0x05b => do
    let pt ← orBad (PTy.ofCode (bits f.m 3 3))
    let rm ← orBad (Rm.ofCode (bits f.m 0 2))
    need (f.m == pt.code * 8 + rm.code) .modifier
    let d ← decReg f.d
    let a ← decSrc f.a
    let b ← decSrc f.b
    decNone f.c
    .ok (.cvtp f.hdr pt rm d a b)
  | 0x05c => do
    let hi ← decBool (bits f.m 6 4)
    let ns ← decBool (bits f.m 2 1)
    need (f.m == hi.toNat * 64 + ns.toNat * 4) .modifier
    let d ← decReg f.d
    let a ← decSrc f.a
    let b ← decSrc f.b
    let c ← decSrc f.c
    .ok (.e4pk f.hdr hi ns d a b c)
  | 0x05d => do
    let byte ← pure (bits f.m 6 2)
    need (f.m == byte * 64) .modifier
    let d ← decReg f.d
    let a ← decSrc f.a
    decNone f.b
    decNone f.c
    .ok (.e4up f.hdr byte d a)
  | 0x05e => do
    let pt ← orBad (PTy.ofCode (bits f.m 3 3))
    let rm ← orBad (Rm.ofCode (bits f.m 0 2))
    need (f.m == pt.code * 8 + rm.code) .modifier
    let d ← decReg f.d
    let a ← decSrc f.a
    let b ← decSrc f.b
    let c ← decSrc f.c
    .ok (.fdot2 f.hdr pt rm d a b c)
  | _ => .error .opcode

/-- Words of opcodes 0x080-0x09f. -/
def decodeControl (f : Fields) : Dec Instr :=
  match f.op with
  | 0x080 => do
    need (f.m == 0) .modifier
    decNone f.d
    decNone f.a
    decNone f.b
    decNone f.c
    .ok (.nop f.hdr)
  | 0x081 => do
    decNone f.d
    decNone f.a
    let imm := f.imm
    .ok (.bra f.hdr imm)
  | 0x082 => do
    need (f.m == 0) .modifier
    decNone f.d
    let a ← decPair f.a
    let b ← decSrc f.b
    decNone f.c
    .ok (.brx f.hdr a b)
  | 0x083 => do
    let d ← decV 2 f.d
    decNone f.a
    let imm := f.imm
    .ok (.call f.hdr d imm)
  | 0x084 => do
    need (f.m == 0) .modifier
    decNone f.d
    let a ← decPair f.a
    decNone f.b
    decNone f.c
    .ok (.ret f.hdr a)
  | 0x085 => do
    need (f.m == 0) .modifier
    decNone f.d
    decNone f.a
    decNone f.b
    decNone f.c
    .ok (.exit f.hdr)
  | 0x086 => do
    let cn ← pure (bits f.m 0 4)
    need (f.m == cn) .modifier
    decNone f.d
    decNone f.a
    decNone f.b
    decNone f.c
    .ok (.sign f.hdr cn)
  | 0x087 => do
    let cn ← pure (bits f.m 0 4)
    need (f.m == cn) .modifier
    decNone f.d
    decNone f.a
    decNone f.b
    decNone f.c
    .ok (.join f.hdr cn)
  | 0x088 => do
    let cn ← pure (bits f.m 0 4)
    need (f.m == cn) .modifier
    let d ← decV 1 f.d
    let a ← decSrc f.a
    decNone f.b
    decNone f.c
    .ok (.joinr f.hdr cn d a)
  | 0x089 => do
    let cn ← pure (bits f.m 0 4)
    let kind ← orBad (RKind.ofCode (bits f.m 4 3))
    need (f.m == cn + kind.code * 16) .modifier
    decNone f.d
    let a ← decSrc f.a
    decNone f.b
    decNone f.c
    .ok (.cdecl f.hdr cn kind a)
  | 0x08a => do
    need (f.m == 0) .modifier
    decNone f.d
    decNone f.a
    decNone f.b
    decNone f.c
    .ok (.yield f.hdr)
  | 0x08b => do
    need (f.m == 0) .modifier
    decNone f.d
    let a ← decSrc f.a
    decNone f.b
    decNone f.c
    .ok (.sleep f.hdr a)
  | 0x08c => do
    let code ← pure (bits f.m 0 10)
    need (f.m == code) .modifier
    decNone f.d
    decNone f.a
    decNone f.b
    decNone f.c
    .ok (.brk f.hdr code)
  | 0x08d => do
    need (f.m == 0) .modifier
    decNone f.d
    decNone f.a
    decNone f.b
    decNone f.c
    .ok (.isync f.hdr)
  | 0x08e => do
    let sc ← orBad (Scope.ofCode (bits f.m 6 3))
    need (f.m == sc.code * 64) .modifier
    decNone f.d
    let a ← decPair f.a
    let b ← decSrc f.b
    decNone f.c
    .ok (.icinv f.hdr sc a b)
  | 0x08f => do
    need (f.m == 0) .modifier
    decNone f.d
    let a ← decSrc f.a
    decNone f.b
    decNone f.c
    .ok (.trap f.hdr a)
  | _ => .error .opcode

/-- Words of opcodes 0x0a0-0x0bf. -/
def decodeMemory (f : Fields) : Dec Instr :=
  match f.op with
  | 0x0a0 => do
    let sc ← orBad (Scope.ofCode (bits f.m 6 3))
    let hn ← orBad (Hint.ofCode (bits f.m 4 2))
    let sx ← decBool (bits f.m 3 1)
    let sz ← orBad (Size.ofCode (bits f.m 0 3))
    need (f.m == sc.code * 64 + hn.code * 16 + sx.toNat * 8 + sz.code) .modifier
    need (!sx || sz.val < 2) .modifier
    let d ← decV sz.group f.d
    let a ← decPair f.a
    let b ← decSrc f.b
    decNone f.c
    .ok (.ld f.hdr sc hn sx sz d a b)
  | 0x0a1 => do
    let sc ← orBad (Scope.ofCode (bits f.m 6 3))
    let hn ← orBad (Hint.ofCode (bits f.m 4 2))
    let sz ← orBad (Size.ofCode (bits f.m 0 3))
    need (f.m == sc.code * 64 + hn.code * 16 + sz.code) .modifier
    decNone f.d
    let a ← decPair f.a
    let b ← decSrc f.b
    let c ← decData sz f.c
    .ok (.st f.hdr sc hn sz a b c)
  | 0x0a2 => do
    let sc ← orBad (Scope.ofCode (bits f.m 6 3))
    let hn ← orBad (Hint.ofCode (bits f.m 4 2))
    let sx ← decBool (bits f.m 3 1)
    let sz ← orBad (Size.ofCode (bits f.m 0 3))
    need (f.m == sc.code * 64 + hn.code * 16 + sx.toNat * 8 + sz.code) .modifier
    need (!sx || sz.val < 2) .modifier
    need (sz != .quad) .modifier
    let d ← decV sz.group f.d
    let a ← decPair f.a
    let b ← decSrc f.b
    decNone f.c
    .ok (.lda f.hdr sc hn sx sz d a b)
  | 0x0a3 => do
    let sc ← orBad (Scope.ofCode (bits f.m 6 3))
    let hn ← orBad (Hint.ofCode (bits f.m 4 2))
    let sz ← orBad (Size.ofCode (bits f.m 0 3))
    need (f.m == sc.code * 64 + hn.code * 16 + sz.code) .modifier
    need (sz != .quad) .modifier
    decNone f.d
    let a ← decPair f.a
    let b ← decSrc f.b
    let c ← decData sz f.c
    .ok (.strl f.hdr sc hn sz a b c)
  | 0x0a4 => do
    let sx ← decBool (bits f.m 3 1)
    let sz ← orBad (Size.ofCode (bits f.m 0 3))
    need (f.m == sx.toNat * 8 + sz.code) .modifier
    need (!sx || sz.val < 2) .modifier
    let d ← decV sz.group f.d
    let a ← decSrc f.a
    let b ← decSrc f.b
    decNone f.c
    .ok (.ldt f.hdr sx sz d a b)
  | 0x0a5 => do
    let sz ← orBad (Size.ofCode (bits f.m 0 3))
    need (f.m == sz.code) .modifier
    decNone f.d
    let a ← decSrc f.a
    let b ← decSrc f.b
    let c ← decData sz f.c
    .ok (.stt f.hdr sz a b c)
  | 0x0a6 => do
    let sc ← orBad (Scope.ofCode (bits f.m 6 3))
    let hn ← orBad (Hint.ofCode (bits f.m 4 2))
    need (f.m == sc.code * 64 + hn.code * 16) .modifier
    need (hn != .byp) .modifier
    decNone f.d
    let a ← decPair f.a
    let b ← decSrc f.b
    decNone f.c
    .ok (.pref f.hdr sc hn a b)
  | 0x0a7 => do
    let sc ← orBad (Scope.ofCode (bits f.m 6 3))
    need (f.m == sc.code * 64) .modifier
    decNone f.d
    let a ← decPair f.a
    let b ← decSrc f.b
    decNone f.c
    .ok (.cwb f.hdr sc a b)
  | 0x0a8 => do
    let sc ← orBad (Scope.ofCode (bits f.m 6 3))
    need (f.m == sc.code * 64) .modifier
    decNone f.d
    let a ← decPair f.a
    let b ← decSrc f.b
    decNone f.c
    .ok (.cinv f.hdr sc a b)
  | 0x0a9 => do
    let hn ← orBad (Hint.ofCode (bits f.m 4 2))
    need (f.m == hn.code * 16) .modifier
    decNone f.d
    let a ← decPair f.a
    let b ← decSrc f.b
    decNone f.c
    .ok (.chint f.hdr hn a b)
  | 0x0aa => do
    need (f.m == 0) .modifier
    let d ← decV 1 f.d
    let a ← decSrc f.a
    decNone f.b
    decNone f.c
    .ok (.own f.hdr d a)
  | 0x0ab => do
    need (f.m == 0) .modifier
    decNone f.d
    let a ← decSrc f.a
    let b ← decSrc f.b
    decNone f.c
    .ok (.tgive f.hdr a b)
  | 0x0ac => do
    need (f.m == 0) .modifier
    decNone f.d
    let a ← decSrc f.a
    let b ← decSrc f.b
    decNone f.c
    .ok (.ttake f.hdr a b)
  | _ => .error .opcode

/-- Words of opcodes 0x0c0-0x0df. -/
def decodeViews (f : Fields) : Dec Instr :=
  match f.op with
  | 0x0c0 => do
    let slot ← pure (bits f.m 0 6)
    need (f.m == slot) .modifier
    let d ← decVZ f.d
    let a ← decPair f.a
    let b ← decSrc f.b
    decNone f.c
    .ok (.vset f.hdr slot d a b)
  | 0x0c1 => do
    let slot ← pure (bits f.m 0 6)
    need (f.m == slot) .modifier
    decNone f.d
    decNone f.a
    decNone f.b
    decNone f.c
    .ok (.vclr f.hdr slot)
  | 0x0c2 => do
    let slot ← pure (bits f.m 0 6)
    need (f.m == slot) .modifier
    let d ← decV 1 f.d
    let a ← decSrc f.a
    decNone f.b
    decNone f.c
    .ok (.vqry f.hdr slot d a)
  | 0x0c3 =>
    match bits f.m 6 4 with
    | 0 => do
      need (f.m == 0) .modifier
      let d ← decPair f.d
      let a ← decPair f.a
      let b ← decSrc f.b
      decNone f.c
      .ok (.vaddrIa f.hdr d a b)
    | 1 => do
      need (f.m == 64) .modifier
      let d ← decPair f.d
      let a ← decPair f.a
      let b ← decSrc f.b
      decNone f.c
      .ok (.vaddrVa f.hdr d a b)
    | _ => .error .modifier
  | 0x0c4 => do
    let slot ← pure (bits f.m 0 6)
    need (f.m == slot) .modifier
    decNone f.d
    let a ← decSrc f.a
    decNone f.b
    decNone f.c
    .ok (.vfill f.hdr slot a)
  | _ => .error .opcode

/-- Words of opcodes 0x0e0-0x0ff. -/
def decodeAtomics (f : Fields) : Dec Instr :=
  match f.op with
  | 0x0e0 => do
    let op ← orBad (AOp.ofCode (bits f.m 6 4))
    let ty ← orBad (ITy.ofCode (bits f.m 3 3))
    let sc ← orBad (Scope.ofCode (bits f.m 0 3))
    need (f.m == op.code * 64 + ty.code * 8 + sc.code) .modifier
    let d ← decVW ty.wide f.d
    let a ← decPair f.a
    let b ← decSrc f.b
    let c ← decSrcW ty.wide f.c
    .ok (.atom f.hdr op ty sc d a b c)
  | 0x0e1 => do
    let ty ← orBad (ITy.ofCode (bits f.m 3 3))
    let sc ← orBad (Scope.ofCode (bits f.m 0 3))
    need (f.m == ty.code * 8 + sc.code) .modifier
    let d ← decVW ty.wide f.d
    let a ← decPair f.a
    let b ← decSrc f.b
    let c ← decV (if ty.wide then 4 else 2) f.c
    .ok (.acas f.hdr ty sc d a b c)
  | 0x0e2 => do
    let op ← orBad (AFOp.ofCode (bits f.m 6 4))
    let sc ← orBad (Scope.ofCode (bits f.m 0 3))
    need (f.m == op.code * 64 + sc.code) .modifier
    let d ← decV 1 f.d
    let a ← decPair f.a
    let b ← decSrc f.b
    let c ← decSrc f.c
    .ok (.atomf f.hdr op sc d a b c)
  | 0x0e3 => do
    let op ← orBad (AOp.ofCode (bits f.m 6 4))
    let ty ← orBad (ITy.ofCode (bits f.m 3 3))
    let sc ← orBad (Scope.ofCode (bits f.m 0 3))
    need (f.m == op.code * 64 + ty.code * 8 + sc.code) .modifier
    need (op != .exch) .modifier
    decNone f.d
    let a ← decPair f.a
    let b ← decSrc f.b
    let c ← decSrcW ty.wide f.c
    .ok (.red f.hdr op ty sc a b c)
  | 0x0e4 => do
    let op ← orBad (AFOp.ofCode (bits f.m 6 4))
    let sc ← orBad (Scope.ofCode (bits f.m 0 3))
    need (f.m == op.code * 64 + sc.code) .modifier
    need (op != .exch) .modifier
    decNone f.d
    let a ← decPair f.a
    let b ← decSrc f.b
    let c ← decSrc f.c
    .ok (.redf f.hdr op sc a b c)
  | 0x0e5 => do
    need (f.m == 0) .modifier
    let d ← decV 1 f.d
    let a ← decPair f.a
    let b ← decSrc f.b
    decNone f.c
    .ok (.lease f.hdr d a b)
  | 0x0e6 => do
    need (f.m == 0) .modifier
    let d ← decV 1 f.d
    let a ← decPair f.a
    decNone f.b
    decNone f.c
    .ok (.lrel f.hdr d a)
  | 0x0e7 => do
    need (f.m == 0) .modifier
    let d ← decV 1 f.d
    let a ← decPair f.a
    decNone f.b
    decNone f.c
    .ok (.lchk f.hdr d a)
  | 0x0e8 => do
    let cmp ← orBad (WCmp.ofCode (bits f.m 6 4))
    let ty ← orBad (STy.ofCode (bits f.m 3 3))
    let sc ← orBad (Scope.ofCode (bits f.m 0 3))
    need (f.m == cmp.code * 64 + ty.code * 8 + sc.code) .modifier
    let d ← decV 1 f.d
    let a ← decPair f.a
    let b ← decSrc f.b
    let c ← decPair f.c
    .ok (.waita f.hdr cmp ty sc d a b c)
  | 0x0e9 => do
    need (f.m == 0) .modifier
    decNone f.d
    let a ← decSrc f.a
    let b ← decSrc f.b
    decNone f.c
    .ok (.awinit f.hdr a b)
  | 0x0ea => do
    need (f.m == 0) .modifier
    let d ← decVZ f.d
    let a ← decSrc f.a
    let b ← decSrc f.b
    decNone f.c
    .ok (.awadd f.hdr d a b)
  | 0x0eb => do
    need (f.m == 0) .modifier
    let d ← decVZ f.d
    let a ← decSrc f.a
    let b ← decSrc f.b
    decNone f.c
    .ok (.awwait f.hdr d a b)
  | _ => .error .opcode

/-- Words of opcodes 0x100-0x11f. -/
def decodeOrder (f : Fields) : Dec Instr :=
  match f.op with
  | 0x100 => do
    let kind ← orBad (FKind.ofCode (bits f.m 3 2))
    let sc ← orBad (Scope.ofCode (bits f.m 0 3))
    need (f.m == kind.code * 8 + sc.code) .modifier
    decNone f.d
    decNone f.a
    decNone f.b
    decNone f.c
    .ok (.fence f.hdr kind sc)
  | 0x101 =>
    match bits f.m 4 2 with
    | 0 => do
      let sc ← orBad (Scope.ofCode (bits f.m 6 3))
      let bn ← pure (bits f.m 0 4)
      need (f.m == sc.code * 64 + bn) .modifier
      decNone f.d
      let a ← decSrc f.a
      decNone f.b
      decNone f.c
      .ok (.barSync f.hdr sc bn a)
    | 1 => do
      let sc ← orBad (Scope.ofCode (bits f.m 6 3))
      let bn ← pure (bits f.m 0 4)
      need (f.m == sc.code * 64 + bn + 16) .modifier
      decNone f.d
      let a ← decSrc f.a
      decNone f.b
      decNone f.c
      .ok (.barArrive f.hdr sc bn a)
    | 2 => do
      let sc ← orBad (Scope.ofCode (bits f.m 6 3))
      let bn ← pure (bits f.m 0 4)
      need (f.m == sc.code * 64 + bn + 32) .modifier
      decNone f.d
      decNone f.a
      decNone f.b
      decNone f.c
      .ok (.barWait f.hdr sc bn)
    | _ => .error .modifier
  | 0x102 =>
    match bits f.m 4 2 with
    | 0 => do
      let sc ← orBad (CScope.ofCode (bits f.m 6 3))
      let bn ← pure (bits f.m 0 3)
      need (f.m == sc.code * 64 + bn) .modifier
      decNone f.d
      let a ← decSrc f.a
      decNone f.b
      decNone f.c
      .ok (.cbarSync f.hdr sc bn a)
    | 1 => do
      let sc ← orBad (CScope.ofCode (bits f.m 6 3))
      let bn ← pure (bits f.m 0 3)
      need (f.m == sc.code * 64 + bn + 16) .modifier
      decNone f.d
      let a ← decSrc f.a
      decNone f.b
      decNone f.c
      .ok (.cbarArrive f.hdr sc bn a)
    | 2 => do
      let sc ← orBad (CScope.ofCode (bits f.m 6 3))
      let bn ← pure (bits f.m 0 3)
      need (f.m == sc.code * 64 + bn + 32) .modifier
      decNone f.d
      decNone f.a
      decNone f.b
      decNone f.c
      .ok (.cbarWait f.hdr sc bn)
    | _ => .error .modifier
  | 0x103 => do
    need (f.m == 0) .modifier
    decNone f.d
    decNone f.a
    decNone f.b
    decNone f.c
    .ok (.efence f.hdr)
  | _ => .error .opcode

/-- Words of opcodes 0x120-0x15f. DESIGN CHOICE: the selector KG = 2 (.k=kN[b]) of tsta, whose card has Clip in B and no
offset operand, names an operand the card does not have, and the word fails to decode (R3, R188, log 71). -/
def decodeMatrix (f : Fields) : Dec Instr :=
  match f.op with
  | 0x120 => do
    let fmt ← orBad (MFmt.ofCode (bits f.m 8 2))
    let sn ← pure (bits f.m 6 2)
    let kg ← orBad (KSel.ofCode (bits f.m 4 2))
    let kn ← pure (bits f.m 0 4)
    need (f.m == fmt.code * 256 + sn * 64 + kg.code * 16 + kn) .modifier
    need (kg != .off || kn == 0) .modifier
    need (fmt == .e4m3 || sn == 0) .modifier
    let d ← decLt 48 f.d
    let a ← decSrc f.a
    let b ← decSrc f.b
    let c ← decAfter f.c
    .ok (.tmma f.hdr fmt sn kg kn d a b c)
  | 0x121 => do
    let fmt ← orBad (MFmt.ofCode (bits f.m 8 2))
    let sn ← pure (bits f.m 6 2)
    let kg ← orBad (KSel.ofCode (bits f.m 4 2))
    let kn ← pure (bits f.m 0 4)
    need (f.m == fmt.code * 256 + sn * 64 + kg.code * 16 + kn) .modifier
    need (kg != .off || kn == 0) .modifier
    need (fmt == .e4m3 || sn == 0) .modifier
    let d ← decLt 48 f.d
    let a ← decSrc f.a
    let b ← decSrc f.b
    let c ← decAfter f.c
    .ok (.tmmau f.hdr fmt sn kg kn d a b c)
  | 0x122 => do
    let fmt ← orBad (HFmt.ofCode (bits f.m 8 2))
    let kg ← orBad (KSel.ofCode (bits f.m 4 2))
    let kn ← pure (bits f.m 0 4)
    need (f.m == fmt.code * 256 + kg.code * 16 + kn) .modifier
    need (kg != .off || kn == 0) .modifier
    let d ← decLt 48 f.d
    let a ← decSrc f.a
    let b ← decSrc f.b
    let c ← decAfter f.c
    .ok (.tperm f.hdr fmt kg kn d a b c)
  | 0x123 => do
    let fmt ← orBad (HFmt.ofCode (bits f.m 8 2))
    let kg ← orBad (KSel.ofCode (bits f.m 4 2))
    let kn ← pure (bits f.m 0 4)
    need (f.m == fmt.code * 256 + kg.code * 16 + kn) .modifier
    need (kg != .off || kn == 0) .modifier
    need (kg != .b) .modifier
    let d ← decLt 48 f.d
    let a ← decSrc f.a
    decNone f.b
    let c ← decAfter f.c
    .ok (.ttrn f.hdr fmt kg kn d a c)
  | 0x124 => do
    let fmt ← orBad (HFmt.ofCode (bits f.m 8 2))
    let col ← decBool (bits f.m 6 1)
    let kg ← orBad (KSel.ofCode (bits f.m 4 2))
    let kn ← pure (bits f.m 0 4)
    need (f.m == fmt.code * 256 + col.toNat * 64 + kg.code * 16 + kn) .modifier
    need (kg != .off || kn == 0) .modifier
    need (kg != .b) .modifier
    let d ← decLt 48 f.d
    let a ← decSrc f.a
    decNone f.b
    let c ← decAfter f.c
    .ok (.trsum f.hdr fmt col kg kn d a c)
  | 0x125 => do
    let kg ← orBad (KSel.ofCode (bits f.m 4 2))
    let kn ← pure (bits f.m 0 4)
    need (f.m == kg.code * 16 + kn) .modifier
    need (kg != .off || kn == 0) .modifier
    need (kg != .a && kg != .b) .modifier
    let d ← decLt 48 f.d
    decNone f.a
    decNone f.b
    let c ← decAfter f.c
    .ok (.tzero f.hdr kg kn d c)
  | 0x126 => do
    let fmt ← orBad (LFmt.ofCode (bits f.m 8 2))
    let kg ← orBad (KSel.ofCode (bits f.m 4 2))
    let kn ← pure (bits f.m 0 4)
    need (f.m == fmt.code * 256 + kg.code * 16 + kn) .modifier
    need (kg != .off || kn == 0) .modifier
    need (kg != .b) .modifier
    let d ← decLt 48 f.d
    let a ← decSrc f.a
    decNone f.b
    let c ← decAfter f.c
    .ok (.tlda f.hdr fmt kg kn d a c)
  | 0x127 => do
    let fmt ← orBad (SFmt.ofCode (bits f.m 8 2))
    let sn ← pure (bits f.m 6 2)
    let kg ← orBad (KSel.ofCode (bits f.m 4 2))
    let kn ← pure (bits f.m 0 4)
    need (f.m == fmt.code * 256 + sn * 64 + kg.code * 16 + kn) .modifier
    need (kg != .off || kn == 0) .modifier
    need (kg != .b) .modifier
    need (fmt == .e4m3 || sn == 0) .modifier
    let d ← decLt 48 f.d
    let a ← decSrc f.a
    let b ← decSrc f.b
    let c ← decAfter f.c
    .ok (.tsta f.hdr fmt sn kg kn d a b c)
  | 0x128 => do
    let gn ← pure (bits f.m 0 3)
    need (f.m == gn) .modifier
    decNone f.d
    decNone f.a
    decNone f.b
    decNone f.c
    .ok (.tcommit f.hdr gn)
  | 0x129 => do
    let gn ← pure (bits f.m 0 3)
    need (f.m == gn) .modifier
    let d ← decVZ f.d
    decNone f.a
    decNone f.b
    decNone f.c
    .ok (.twait f.hdr gn d)
  | 0x12a => do
    let gn ← pure (bits f.m 0 3)
    need (f.m == gn) .modifier
    let d ← decV 1 f.d
    decNone f.a
    decNone f.b
    decNone f.c
    .ok (.ttest f.hdr gn d)
  | 0x12b => do
    let sb ← decBool (bits f.m 2 1)
    let idx ← pure (bits f.m 0 2)
    need (f.m == sb.toNat * 4 + idx) .modifier
    decNone f.d
    let a ← decSrc f.a
    decNone f.b
    decNone f.c
    .ok (.tscl f.hdr sb idx a)
  | 0x12c => do
    let fn ← orBad (TPFn.ofCode (bits f.m 8 2))
    let kn ← pure (bits f.m 0 4)
    need (f.m == fn.code * 256 + kn) .modifier
    let d ← decPairIf (fn == .rd) f.d
    let a ← decTpA fn f.a
    decNone f.b
    decNone f.c
    .ok (.tpred f.hdr fn kn d a)
  | 0x12d => do
    need (f.m == 0) .modifier
    let d ← decVZ f.d
    let a ← decSrc f.a
    decNone f.b
    decNone f.c
    .ok (.tcls f.hdr d a)
  | 0x12e => do
    let gn ← pure (bits f.m 0 3)
    need (f.m == gn) .modifier
    let d ← decVZ f.d
    decNone f.a
    decNone f.b
    decNone f.c
    .ok (.tcancel f.hdr gn d)
  | _ => .error .opcode

/-- Words of opcodes 0x160-0x16f. -/
def decodeDelta (f : Fields) : Dec Instr :=
  match f.op with
  | 0x160 => do
    need (f.m == 0) .modifier
    let d ← decVZ f.d
    let a ← decSrc f.a
    decNone f.b
    decNone f.c
    .ok (.dslot f.hdr d a)
  | 0x161 => do
    need (f.m == 0) .modifier
    let d ← decLt 48 f.d
    let a ← decSrc f.a
    let b ← decSrc f.b
    let c ← decAfter f.c
    .ok (.dmul f.hdr d a b c)
  | 0x162 => do
    need (f.m == 0) .modifier
    decNone f.d
    let a ← decSrc f.a
    decNone f.b
    decNone f.c
    .ok (.dfresh f.hdr a)
  | 0x163 => do
    need (f.m == 0) .modifier
    let d ← decVZ f.d
    let a ← decSrc f.a
    decNone f.b
    decNone f.c
    .ok (.dinval f.hdr d a)
  | 0x164 => do
    need (f.m == 0) .modifier
    let d ← decV 1 f.d
    let a ← decSrc f.a
    let b ← decSrc f.b
    decNone f.c
    .ok (.dstat f.hdr d a b)
  | _ => .error .opcode

/-- Words of opcodes 0x170-0x17f. -/
def decodeEngine (f : Fields) : Dec Instr :=
  match f.op with
  | 0x170 =>
    match bits f.m 0 10 with
    | 0 => do
      need (f.m == 0) .modifier
      let d ← decRegZ f.d
      let a ← decSrc f.a
      let b ← decSrc f.b
      decNone f.c
      .ok (.cpy f.hdr d a b)
    | 1 => do
      need (f.m == 1) .modifier
      let d ← decRegZ f.d
      let a ← decSrc f.a
      let b ← decSrc f.b
      decNone f.c
      .ok (.cpyx f.hdr d a b)
    | 2 => do
      need (f.m == 2) .modifier
      let d ← decRegZ f.d
      let a ← decSrc f.a
      let b ← decSrc f.b
      decNone f.c
      .ok (.cpyk f.hdr d a b)
    | 3 => do
      need (f.m == 3) .modifier
      let d ← decRegZ f.d
      let a ← decSrc f.a
      let b ← decSrc f.b
      decNone f.c
      .ok (.cpyz f.hdr d a b)
    | 4 => do
      need (f.m == 4) .modifier
      let d ← decRegZ f.d
      let a ← decSrc f.a
      let b ← decSrc f.b
      decNone f.c
      .ok (.bsopen f.hdr d a b)
    | 5 => do
      need (f.m == 5) .modifier
      let d ← decRegZ f.d
      let a ← decSrc f.a
      let b ← decSrc f.b
      decNone f.c
      .ok (.bsrow f.hdr d a b)
    | 6 => do
      need (f.m == 6) .modifier
      let d ← decRegZ f.d
      let a ← decSrc f.a
      decNone f.b
      decNone f.c
      .ok (.bsclose f.hdr d a)
    | 7 => do
      need (f.m == 7) .modifier
      let d ← decRegZ f.d
      let a ← decSrc f.a
      let b ← decSrc f.b
      decNone f.c
      .ok (.cstat f.hdr d a b)
    | 128 => do
      need (f.m == 128) .modifier
      let d ← decRegZ f.d
      let a ← decSrc f.a
      let b ← decSrc f.b
      decNone f.c
      .ok (.bkon f.hdr d a b)
    | 129 => do
      need (f.m == 129) .modifier
      let d ← decRegZ f.d
      let a ← decSrc f.a
      decNone f.b
      decNone f.c
      .ok (.bkoff f.hdr d a)
    | 130 => do
      need (f.m == 130) .modifier
      let d ← decRegZ f.d
      let a ← decSrc f.a
      let b ← decSrc f.b
      decNone f.c
      .ok (.bkact f.hdr d a b)
    | 131 => do
      need (f.m == 131) .modifier
      let d ← decRegZ f.d
      let a ← decSrc f.a
      let b ← decSrc f.b
      decNone f.c
      .ok (.bkbc f.hdr d a b)
    | 132 => do
      need (f.m == 132) .modifier
      let d ← decRegZ f.d
      let a ← decSrc f.a
      let b ← decSrc f.b
      decNone f.c
      .ok (.bkmac f.hdr d a b)
    | 133 => do
      need (f.m == 133) .modifier
      let d ← decRegZ f.d
      let a ← decSrc f.a
      let b ← decSrc f.b
      decNone f.c
      .ok (.bkred f.hdr d a b)
    | 134 => do
      need (f.m == 134) .modifier
      let d ← decRegZ f.d
      let a ← decSrc f.a
      let b ← decSrc f.b
      decNone f.c
      .ok (.bkrd f.hdr d a b)
    | 135 => do
      need (f.m == 135) .modifier
      let d ← decRegZ f.d
      let a ← decSrc f.a
      let b ← decSrc f.b
      decNone f.c
      .ok (.bkclr f.hdr d a b)
    | 256 => do
      need (f.m == 256) .modifier
      let d ← decRegZ f.d
      let a ← decSrc f.a
      let b ← decSrc f.b
      decNone f.c
      .ok (.maxpy f.hdr d a b)
    | 257 => do
      need (f.m == 257) .modifier
      let d ← decRegZ f.d
      let a ← decSrc f.a
      let b ← decSrc f.b
      decNone f.c
      .ok (.mscal f.hdr d a b)
    | 258 => do
      need (f.m == 258) .modifier
      let d ← decRegZ f.d
      let a ← decSrc f.a
      let b ← decSrc f.b
      decNone f.c
      .ok (.msum f.hdr d a b)
    | 259 => do
      need (f.m == 259) .modifier
      let d ← decRegZ f.d
      let a ← decSrc f.a
      let b ← decSrc f.b
      decNone f.c
      .ok (.mfill f.hdr d a b)
    | 384 => do
      need (f.m == 384) .modifier
      let d ← decRegZ f.d
      let a ← decSrc f.a
      let b ← decSrc f.b
      decNone f.c
      .ok (.fput f.hdr d a b)
    | 385 => do
      need (f.m == 385) .modifier
      let d ← decRegZ f.d
      let a ← decSrc f.a
      let b ← decSrc f.b
      decNone f.c
      .ok (.fputs f.hdr d a b)
    | 386 => do
      need (f.m == 386) .modifier
      let d ← decRegZ f.d
      let a ← decSrc f.a
      let b ← decSrc f.b
      decNone f.c
      .ok (.fget f.hdr d a b)
    | 387 => do
      need (f.m == 387) .modifier
      let d ← decRegZ f.d
      let a ← decSrc f.a
      let b ← decSrc f.b
      decNone f.c
      .ok (.wcnt f.hdr d a b)
    | _ => .error .modifier
  | _ => .error .opcode

/-- Words of opcodes 0x180-0x1bf. -/
def decodeSystem (f : Fields) : Dec Instr :=
  match f.op with
  | 0x180 => do
    let num ← orBad (SysReg.ofCode (bits f.m 0 9))
    let ot ← decBool (bits f.m 9 1)
    need (f.m == num.code + ot.toNat * 512) .modifier
    need (!ot || num.ctxScope) .modifier
    let d ← decVW num.wide f.d
    let a ← decCtxA ot f.a
    decNone f.b
    decNone f.c
    .ok (.srd f.hdr num ot d a)
  | 0x181 => do
    let num ← orBad (SysReg.ofCode (bits f.m 0 9))
    let ot ← decBool (bits f.m 9 1)
    need (f.m == num.code + ot.toNat * 512) .modifier
    need (!ot || num.ctxScope) .modifier
    decNone f.d
    let a ← decCtxA ot f.a
    let b ← decSrcW num.wide f.b
    decNone f.c
    .ok (.swr f.hdr num ot a b)
  | 0x182 => do
    need (f.m == 0) .modifier
    decNone f.d
    let a ← decSrc f.a
    let b ← decSrc f.b
    let c ← decV 8 f.c
    .ok (.rgset f.hdr a b c)
  | 0x183 =>
    match bits f.m 0 2 with
    | 0 => do
      need (f.m == 0) .modifier
      let d ← decVZ f.d
      let a ← decSrc f.a
      decNone f.b
      decNone f.c
      .ok (.ctxswOut f.hdr d a)
    | 1 => do
      need (f.m == 1) .modifier
      let d ← decVZ f.d
      let a ← decSrc f.a
      decNone f.b
      decNone f.c
      .ok (.ctxswIn f.hdr d a)
    | 2 => do
      need (f.m == 2) .modifier
      let d ← decVZ f.d
      let a ← decSrc f.a
      decNone f.b
      decNone f.c
      .ok (.ctxswDrop f.hdr d a)
    | _ => .error .modifier
  | 0x184 => do
    let sc ← orBad (Scope.ofCode (bits f.m 6 3))
    need (f.m == sc.code * 64) .modifier
    decNone f.d
    let a ← decPair f.a
    let b ← decSrc f.b
    decNone f.c
    .ok (.pzap f.hdr sc a b)
  | 0x185 => do
    need (f.m == 0) .modifier
    let d ← decVZ f.d
    let a ← decPair f.a
    let b ← decSrc f.b
    decNone f.c
    .ok (.launch f.hdr d a b)
  | 0x186 => do
    let hard ← decBool (bits f.m 2 1)
    let lvl ← orBad (Level.ofCode (bits f.m 0 2))
    need (f.m == hard.toNat * 4 + lvl.code) .modifier
    decNone f.d
    let a ← decSrc f.a
    decNone f.b
    decNone f.c
    .ok (.cancel f.hdr hard lvl a)
  | 0x187 => do
    let free ← decBool (bits f.m 4 1)
    let word ← orBad (CWord.ofCode (bits f.m 2 2))
    let lvl ← orBad (Level.ofCode (bits f.m 0 2))
    need (f.m == free.toNat * 16 + word.code * 4 + lvl.code) .modifier
    let d ← decPair f.d
    let a ← decSrc f.a
    decNone f.b
    decNone f.c
    .ok (.cntr f.hdr free word lvl d a)
  | 0x188 => do
    need (f.m == 0) .modifier
    let d ← decV 4 f.d
    decNone f.a
    decNone f.b
    decNone f.c
    .ok (.time f.hdr d)
  | 0x189 => do
    need (f.m == 0) .modifier
    decNone f.d
    let a ← decPair f.a
    decNone f.b
    decNone f.c
    .ok (.waitt f.hdr a)
  | 0x18a => do
    let clr ← decBool (bits f.m 0 1)
    need (f.m == clr.toNat) .modifier
    let d ← decPair f.d
    let a ← decSrc f.a
    decNone f.b
    decNone f.c
    .ok (.perf f.hdr clr d a)
  | 0x18b => do
    need (f.m == 0) .modifier
    let d ← decV 1 f.d
    let a ← decSrc f.a
    decNone f.b
    decNone f.c
    .ok (.stopr f.hdr d a)
  | 0x18c => do
    let code ← pure (bits f.m 0 8)
    need (f.m == code) .modifier
    let d ← decVZ f.d
    let a ← decSrc f.a
    decNone f.b
    decNone f.c
    .ok (.halt f.hdr code d a)
  | 0x18d => do
    need (f.m == 0) .modifier
    let d ← decVZ f.d
    let a ← decSrc f.a
    decNone f.b
    decNone f.c
    .ok (.resume f.hdr d a)
  | _ => .error .opcode

/-- A full word (R29), by the ranges of the opcode map (R48). -/
def decodeFull (f : Fields) : Dec Instr :=
  if f.op < 0x040 then decodeInt f else
  if f.op < 0x080 then decodeFloat f else
  if f.op < 0x0a0 then decodeControl f else
  if f.op < 0x0c0 then decodeMemory f else
  if f.op < 0x0e0 then decodeViews f else
  if f.op < 0x100 then decodeAtomics f else
  if f.op < 0x120 then decodeOrder f else
  if f.op < 0x160 then decodeMatrix f else
  if f.op < 0x170 then decodeDelta f else
  if f.op < 0x180 then decodeEngine f else
  if f.op < 0x1c0 then decodeSystem f else
  .error .opcode

/-- One slot of a pair word. -/
def Slot.ofNat (x : Nat) : Slot := { op := bits x 23 6, d := bits x 15 8, s := bits x 7 8, m := bits x 0 7 }
def Slot.toNat (t : Slot) : Nat := t.op * 2 ^ 23 + t.d * 2 ^ 15 + t.s * 2 ^ 7 + t.m

/-- A pair word (R39-R41). -/
def decodePair (w : Nat) : Dec Instr := do
  need (w % 2 == 0) .pairWord
  let x := Slot.ofNat (bits w 30 29)
  let y := Slot.ofNat (bits w 1 29)
  need x.wf .pairWord
  need y.wf .pairWord
  .ok (.pair (bits w 59 4) x y)

/-- The instruction of a 64-bit word. The checks that need the workgroup (register count, accumulator grant) are made
at issue. -/
def decodeWord (w : Nat) : Dec Instr :=
  if bits w 63 1 == 1 then decodePair w else decodeFull (Fields.ofWord w)

/-- The fields that encode an instruction of the full form. -/
def Instr.fields : Instr → Fields
  | .iadd h ty d a b =>
    ⟨h.stall, h.g, h.gn.toNat, 0x000, d.code, a.code, b.code, 480, ty.code * 8⟩
  | .isub h ty d a b =>
    ⟨h.stall, h.g, h.gn.toNat, 0x002, d.code, a.code, b.code, 480, ty.code * 8⟩
  | .imul h ty d a b =>
    ⟨h.stall, h.g, h.gn.toNat, 0x003, d.code, a.code, b.code, 480, ty.code * 8⟩
  | .imulh h ty d a b =>
    ⟨h.stall, h.g, h.gn.toNat, 0x004, d.code, a.code, b.code, 480, ty.code * 8⟩
  | .imad h ty d a b c =>
    ⟨h.stall, h.g, h.gn.toNat, 0x005, d.code, a.code, b.code, c.code, ty.code * 8⟩
  | .imadw h ty d a b c =>
    ⟨h.stall, h.g, h.gn.toNat, 0x006, d.code, a.code, b.code, codeRegZ c, ty.code * 8⟩
  | .iadd64 h sub d a b =>
    ⟨h.stall, h.g, h.gn.toNat, 0x007, d.code, a.code, b.code, 480, sub.toNat * 64⟩
  | .imin h ty d a b =>
    ⟨h.stall, h.g, h.gn.toNat, 0x008, d.code, a.code, b.code, 480, ty.code * 8⟩
  | .imax h ty d a b =>
    ⟨h.stall, h.g, h.gn.toNat, 0x009, d.code, a.code, b.code, 480, ty.code * 8⟩
  | .iabs h d a =>
    ⟨h.stall, h.g, h.gn.toNat, 0x00a, d.code, a.code, 480, 480, 0⟩
  | .and h ty d a b =>
    ⟨h.stall, h.g, h.gn.toNat, 0x00b, d.code, a.code, b.code, 480, ty.code * 8⟩
  | .or h ty d a b =>
    ⟨h.stall, h.g, h.gn.toNat, 0x00c, d.code, a.code, b.code, 480, ty.code * 8⟩
  | .xor h ty d a b =>
    ⟨h.stall, h.g, h.gn.toNat, 0x00d, d.code, a.code, b.code, 480, ty.code * 8⟩
  | .shl h ty d a b =>
    ⟨h.stall, h.g, h.gn.toNat, 0x011, d.code, a.code, b.code, 480, ty.code * 8⟩
  | .shr h ty d a b =>
    ⟨h.stall, h.g, h.gn.toNat, 0x012, d.code, a.code, b.code, 480, ty.code * 8⟩
  | .sar h ty d a b =>
    ⟨h.stall, h.g, h.gn.toNat, 0x013, d.code, a.code, b.code, 480, ty.code * 8⟩
  | .rotl h ty d a b =>
    ⟨h.stall, h.g, h.gn.toNat, 0x017, d.code, a.code, b.code, 480, ty.code * 8⟩
  | .bfe h ty d a b c =>
    ⟨h.stall, h.g, h.gn.toNat, 0x018, d.code, a.code, b.code, c.code, ty.code * 8⟩
  | .bfi h d a b c =>
    ⟨h.stall, h.g, h.gn.toNat, 0x019, d.code, a.code, b.code, c.code, 0⟩
  | .popc h d a =>
    ⟨h.stall, h.g, h.gn.toNat, 0x01a, d.code, a.code, 480, 480, 0⟩
  | .clz h d a =>
    ⟨h.stall, h.g, h.gn.toNat, 0x01b, d.code, a.code, 480, 480, 0⟩
  | .brev h d a =>
    ⟨h.stall, h.g, h.gn.toNat, 0x01c, d.code, a.code, 480, 480, 0⟩
  | .sel h ty pn inv d a b =>
    ⟨h.stall, h.g, h.gn.toNat, 0x01d, d.code, a.code, b.code, 480, ty.code * 8 + pn * 64 + inv.toNat * 512⟩
  | .iset h ty cmp d a b =>
    ⟨h.stall, h.g, h.gn.toNat, 0x01e, d, a.code, b.code, 480, ty.code * 8 + cmp.code * 64⟩
  | .pset h fn d a b =>
    ⟨h.stall, h.g, h.gn.toNat, 0x01f, d, a, b, 480, fn.code * 64⟩
  | .mov h ty d a =>
    ⟨h.stall, h.g, h.gn.toNat, 0x020, d.code, a.code, 480, 480, ty.code * 8⟩
  | .lea h d a b c =>
    ⟨h.stall, h.g, h.gn.toNat, 0x023, d.code, a.code, b.code, c.code, 0⟩
  | .lea64 h ty d a b c =>
    ⟨h.stall, h.g, h.gn.toNat, 0x024, d.code, a.code, b.code, c.code, ty.code * 8⟩
  | .idiv h ty d a b =>
    ⟨h.stall, h.g, h.gn.toNat, 0x025, d.code, a.code, b.code, 480, ty.code * 8⟩
  | .irem h ty d a b =>
    ⟨h.stall, h.g, h.gn.toNat, 0x026, d.code, a.code, b.code, 480, ty.code * 8⟩
  | .p2v h d =>
    ⟨h.stall, h.g, h.gn.toNat, 0x027, d.code, 480, 480, 480, 0⟩
  | .v2p h a b =>
    ⟨h.stall, h.g, h.gn.toNat, 0x028, 480, a.code, b.code, 480, 0⟩
  | .fadd h rm d a b =>
    ⟨h.stall, h.g, h.gn.toNat, 0x040, d.code, a.code, b.code, 480, rm.code⟩
  | .fsub h rm d a b =>
    ⟨h.stall, h.g, h.gn.toNat, 0x041, d.code, a.code, b.code, 480, rm.code⟩
  | .fmul h rm d a b =>
    ⟨h.stall, h.g, h.gn.toNat, 0x042, d.code, a.code, b.code, 480, rm.code⟩
  | .ffma h rm d a b c =>
    ⟨h.stall, h.g, h.gn.toNat, 0x043, d.code, a.code, b.code, c.code, rm.code⟩
  | .fmin h d a b =>
    ⟨h.stall, h.g, h.gn.toNat, 0x044, d.code, a.code, b.code, 480, 0⟩
  | .fmax h d a b =>
    ⟨h.stall, h.g, h.gn.toNat, 0x045, d.code, a.code, b.code, 480, 0⟩
  | .fset h cmp d a b =>
    ⟨h.stall, h.g, h.gn.toNat, 0x046, d, a.code, b.code, 480, cmp.code * 64⟩
  | .famax h d a b =>
    ⟨h.stall, h.g, h.gn.toNat, 0x047, d.code, a.code, b.code, 480, 0⟩
  | .fneg h d a =>
    ⟨h.stall, h.g, h.gn.toNat, 0x047, d.code, a.code, 480, 480, 64⟩
  | .fabs h d a =>
    ⟨h.stall, h.g, h.gn.toNat, 0x047, d.code, a.code, 480, 480, 128⟩
  | .frcp h d a =>
    ⟨h.stall, h.g, h.gn.toNat, 0x048, d.code, a.code, 480, 480, 0⟩
  | .frsq h d a =>
    ⟨h.stall, h.g, h.gn.toNat, 0x049, d.code, a.code, 480, 480, 0⟩
  | .fsqrt h rm d a =>
    ⟨h.stall, h.g, h.gn.toNat, 0x04a, d.code, a.code, 480, 480, rm.code⟩
  | .fex2 h d a =>
    ⟨h.stall, h.g, h.gn.toNat, 0x04b, d.code, a.code, 480, 480, 0⟩
  | .flg2 h d a =>
    ⟨h.stall, h.g, h.gn.toNat, 0x04c, d.code, a.code, 480, 480, 0⟩
  | .fsin h d a =>
    ⟨h.stall, h.g, h.gn.toNat, 0x04d, d.code, a.code, 480, 480, 0⟩
  | .fcos h d a =>
    ⟨h.stall, h.g, h.gn.toNat, 0x04e, d.code, a.code, 480, 480, 0⟩
  | .fscale h rm d a b =>
    ⟨h.stall, h.g, h.gn.toNat, 0x04f, d.code, a.code, b.code, 480, rm.code⟩
  | .frnd h rm d a =>
    ⟨h.stall, h.g, h.gn.toNat, 0x050, d.code, a.code, 480, 480, rm.code⟩
  | .fclass h ft d a =>
    ⟨h.stall, h.g, h.gn.toNat, 0x051, d.code, a.code, 480, 480, ft.code * 8⟩
  | .hadd2 h rm d a b =>
    ⟨h.stall, h.g, h.gn.toNat, 0x052, d.code, a.code, b.code, 480, rm.code + 32⟩
  | .hmul2 h rm d a b =>
    ⟨h.stall, h.g, h.gn.toNat, 0x053, d.code, a.code, b.code, 480, rm.code + 32⟩
  | .hfma2 h rm d a b c =>
    ⟨h.stall, h.g, h.gn.toNat, 0x054, d.code, a.code, b.code, c.code, rm.code + 32⟩
  | .badd2 h rm d a b =>
    ⟨h.stall, h.g, h.gn.toNat, 0x055, d.code, a.code, b.code, 480, rm.code + 40⟩
  | .bmul2 h rm d a b =>
    ⟨h.stall, h.g, h.gn.toNat, 0x056, d.code, a.code, b.code, 480, rm.code + 40⟩
  | .bfma2 h rm d a b c =>
    ⟨h.stall, h.g, h.gn.toNat, 0x057, d.code, a.code, b.code, c.code, rm.code + 40⟩
  | .hmnx2 h mx d a b =>
    ⟨h.stall, h.g, h.gn.toNat, 0x058, d.code, a.code, b.code, 480, mx.toNat * 64 + 32⟩
  | .bmnx2 h mx d a b =>
    ⟨h.stall, h.g, h.gn.toNat, 0x059, d.code, a.code, b.code, 480, mx.toNat * 64 + 40⟩
  | .cvt h cv ns rm d a =>
    ⟨h.stall, h.g, h.gn.toNat, 0x05a, d.code, a.code, 480, 480, cv.code * 8 + ns.toNat * 4 + rm.code⟩
  | .cvtp h pt rm d a b =>
    ⟨h.stall, h.g, h.gn.toNat, 0x05b, d.code, a.code, b.code, 480, pt.code * 8 + rm.code⟩
  | .e4pk h hi ns d a b c =>
    ⟨h.stall, h.g, h.gn.toNat, 0x05c, d.code, a.code, b.code, c.code, hi.toNat * 64 + ns.toNat * 4⟩
  | .e4up h byte d a =>
    ⟨h.stall, h.g, h.gn.toNat, 0x05d, d.code, a.code, 480, 480, byte * 64⟩
  | .fdot2 h pt rm d a b c =>
    ⟨h.stall, h.g, h.gn.toNat, 0x05e, d.code, a.code, b.code, c.code, pt.code * 8 + rm.code⟩
  | .nop h =>
    ⟨h.stall, h.g, h.gn.toNat, 0x080, 480, 480, 480, 480, 0⟩
  | .brx h a b =>
    ⟨h.stall, h.g, h.gn.toNat, 0x082, 480, a.code, b.code, 480, 0⟩
  | .ret h a =>
    ⟨h.stall, h.g, h.gn.toNat, 0x084, 480, a.code, 480, 480, 0⟩
  | .exit h =>
    ⟨h.stall, h.g, h.gn.toNat, 0x085, 480, 480, 480, 480, 0⟩
  | .sign h cn =>
    ⟨h.stall, h.g, h.gn.toNat, 0x086, 480, 480, 480, 480, cn⟩
  | .join h cn =>
    ⟨h.stall, h.g, h.gn.toNat, 0x087, 480, 480, 480, 480, cn⟩
  | .joinr h cn d a =>
    ⟨h.stall, h.g, h.gn.toNat, 0x088, d, a.code, 480, 480, cn⟩
  | .cdecl h cn kind a =>
    ⟨h.stall, h.g, h.gn.toNat, 0x089, 480, a.code, 480, 480, cn + kind.code * 16⟩
  | .yield h =>
    ⟨h.stall, h.g, h.gn.toNat, 0x08a, 480, 480, 480, 480, 0⟩
  | .sleep h a =>
    ⟨h.stall, h.g, h.gn.toNat, 0x08b, 480, a.code, 480, 480, 0⟩
  | .brk h code =>
    ⟨h.stall, h.g, h.gn.toNat, 0x08c, 480, 480, 480, 480, code⟩
  | .isync h =>
    ⟨h.stall, h.g, h.gn.toNat, 0x08d, 480, 480, 480, 480, 0⟩
  | .icinv h sc a b =>
    ⟨h.stall, h.g, h.gn.toNat, 0x08e, 480, a.code, b.code, 480, sc.code * 64⟩
  | .trap h a =>
    ⟨h.stall, h.g, h.gn.toNat, 0x08f, 480, a.code, 480, 480, 0⟩
  | .ld h sc hn sx sz d a b =>
    ⟨h.stall, h.g, h.gn.toNat, 0x0a0, d, a.code, b.code, 480, sc.code * 64 + hn.code * 16 + sx.toNat * 8 + sz.code⟩
  | .st h sc hn sz a b c =>
    ⟨h.stall, h.g, h.gn.toNat, 0x0a1, 480, a.code, b.code, c.code, sc.code * 64 + hn.code * 16 + sz.code⟩
  | .lda h sc hn sx sz d a b =>
    ⟨h.stall, h.g, h.gn.toNat, 0x0a2, d, a.code, b.code, 480, sc.code * 64 + hn.code * 16 + sx.toNat * 8 + sz.code⟩
  | .strl h sc hn sz a b c =>
    ⟨h.stall, h.g, h.gn.toNat, 0x0a3, 480, a.code, b.code, c.code, sc.code * 64 + hn.code * 16 + sz.code⟩
  | .ldt h sx sz d a b =>
    ⟨h.stall, h.g, h.gn.toNat, 0x0a4, d, a.code, b.code, 480, sx.toNat * 8 + sz.code⟩
  | .stt h sz a b c =>
    ⟨h.stall, h.g, h.gn.toNat, 0x0a5, 480, a.code, b.code, c.code, sz.code⟩
  | .pref h sc hn a b =>
    ⟨h.stall, h.g, h.gn.toNat, 0x0a6, 480, a.code, b.code, 480, sc.code * 64 + hn.code * 16⟩
  | .cwb h sc a b =>
    ⟨h.stall, h.g, h.gn.toNat, 0x0a7, 480, a.code, b.code, 480, sc.code * 64⟩
  | .cinv h sc a b =>
    ⟨h.stall, h.g, h.gn.toNat, 0x0a8, 480, a.code, b.code, 480, sc.code * 64⟩
  | .chint h hn a b =>
    ⟨h.stall, h.g, h.gn.toNat, 0x0a9, 480, a.code, b.code, 480, hn.code * 16⟩
  | .own h d a =>
    ⟨h.stall, h.g, h.gn.toNat, 0x0aa, d, a.code, 480, 480, 0⟩
  | .tgive h a b =>
    ⟨h.stall, h.g, h.gn.toNat, 0x0ab, 480, a.code, b.code, 480, 0⟩
  | .ttake h a b =>
    ⟨h.stall, h.g, h.gn.toNat, 0x0ac, 480, a.code, b.code, 480, 0⟩
  | .vset h slot d a b =>
    ⟨h.stall, h.g, h.gn.toNat, 0x0c0, codeVZ d, a.code, b.code, 480, slot⟩
  | .vclr h slot =>
    ⟨h.stall, h.g, h.gn.toNat, 0x0c1, 480, 480, 480, 480, slot⟩
  | .vqry h slot d a =>
    ⟨h.stall, h.g, h.gn.toNat, 0x0c2, d, a.code, 480, 480, slot⟩
  | .vaddrIa h d a b =>
    ⟨h.stall, h.g, h.gn.toNat, 0x0c3, d.code, a.code, b.code, 480, 0⟩
  | .vaddrVa h d a b =>
    ⟨h.stall, h.g, h.gn.toNat, 0x0c3, d.code, a.code, b.code, 480, 64⟩
  | .vfill h slot a =>
    ⟨h.stall, h.g, h.gn.toNat, 0x0c4, 480, a.code, 480, 480, slot⟩
  | .atom h op ty sc d a b c =>
    ⟨h.stall, h.g, h.gn.toNat, 0x0e0, d.code, a.code, b.code, c.code, op.code * 64 + ty.code * 8 + sc.code⟩
  | .acas h ty sc d a b c =>
    ⟨h.stall, h.g, h.gn.toNat, 0x0e1, d.code, a.code, b.code, c, ty.code * 8 + sc.code⟩
  | .atomf h op sc d a b c =>
    ⟨h.stall, h.g, h.gn.toNat, 0x0e2, d, a.code, b.code, c.code, op.code * 64 + sc.code⟩
  | .red h op ty sc a b c =>
    ⟨h.stall, h.g, h.gn.toNat, 0x0e3, 480, a.code, b.code, c.code, op.code * 64 + ty.code * 8 + sc.code⟩
  | .redf h op sc a b c =>
    ⟨h.stall, h.g, h.gn.toNat, 0x0e4, 480, a.code, b.code, c.code, op.code * 64 + sc.code⟩
  | .lease h d a b =>
    ⟨h.stall, h.g, h.gn.toNat, 0x0e5, d, a.code, b.code, 480, 0⟩
  | .lrel h d a =>
    ⟨h.stall, h.g, h.gn.toNat, 0x0e6, d, a.code, 480, 480, 0⟩
  | .lchk h d a =>
    ⟨h.stall, h.g, h.gn.toNat, 0x0e7, d, a.code, 480, 480, 0⟩
  | .waita h cmp ty sc d a b c =>
    ⟨h.stall, h.g, h.gn.toNat, 0x0e8, d, a.code, b.code, c.code, cmp.code * 64 + ty.code * 8 + sc.code⟩
  | .awinit h a b =>
    ⟨h.stall, h.g, h.gn.toNat, 0x0e9, 480, a.code, b.code, 480, 0⟩
  | .awadd h d a b =>
    ⟨h.stall, h.g, h.gn.toNat, 0x0ea, codeVZ d, a.code, b.code, 480, 0⟩
  | .awwait h d a b =>
    ⟨h.stall, h.g, h.gn.toNat, 0x0eb, codeVZ d, a.code, b.code, 480, 0⟩
  | .fence h kind sc =>
    ⟨h.stall, h.g, h.gn.toNat, 0x100, 480, 480, 480, 480, kind.code * 8 + sc.code⟩
  | .barSync h sc bn a =>
    ⟨h.stall, h.g, h.gn.toNat, 0x101, 480, a.code, 480, 480, sc.code * 64 + bn⟩
  | .barArrive h sc bn a =>
    ⟨h.stall, h.g, h.gn.toNat, 0x101, 480, a.code, 480, 480, sc.code * 64 + bn + 16⟩
  | .barWait h sc bn =>
    ⟨h.stall, h.g, h.gn.toNat, 0x101, 480, 480, 480, 480, sc.code * 64 + bn + 32⟩
  | .cbarSync h sc bn a =>
    ⟨h.stall, h.g, h.gn.toNat, 0x102, 480, a.code, 480, 480, sc.code * 64 + bn⟩
  | .cbarArrive h sc bn a =>
    ⟨h.stall, h.g, h.gn.toNat, 0x102, 480, a.code, 480, 480, sc.code * 64 + bn + 16⟩
  | .cbarWait h sc bn =>
    ⟨h.stall, h.g, h.gn.toNat, 0x102, 480, 480, 480, 480, sc.code * 64 + bn + 32⟩
  | .efence h =>
    ⟨h.stall, h.g, h.gn.toNat, 0x103, 480, 480, 480, 480, 0⟩
  | .tmma h fmt sn kg kn d a b c =>
    ⟨h.stall, h.g, h.gn.toNat, 0x120, d, a.code, b.code, codeAfter c, fmt.code * 256 + sn * 64 + kg.code * 16 + kn⟩
  | .tmmau h fmt sn kg kn d a b c =>
    ⟨h.stall, h.g, h.gn.toNat, 0x121, d, a.code, b.code, codeAfter c, fmt.code * 256 + sn * 64 + kg.code * 16 + kn⟩
  | .tperm h fmt kg kn d a b c =>
    ⟨h.stall, h.g, h.gn.toNat, 0x122, d, a.code, b.code, codeAfter c, fmt.code * 256 + kg.code * 16 + kn⟩
  | .ttrn h fmt kg kn d a c =>
    ⟨h.stall, h.g, h.gn.toNat, 0x123, d, a.code, 480, codeAfter c, fmt.code * 256 + kg.code * 16 + kn⟩
  | .trsum h fmt col kg kn d a c =>
    ⟨h.stall, h.g, h.gn.toNat, 0x124, d, a.code, 480, codeAfter c, fmt.code * 256 + col.toNat * 64 + kg.code * 16 + kn⟩
  | .tzero h kg kn d c =>
    ⟨h.stall, h.g, h.gn.toNat, 0x125, d, 480, 480, codeAfter c, kg.code * 16 + kn⟩
  | .tlda h fmt kg kn d a c =>
    ⟨h.stall, h.g, h.gn.toNat, 0x126, d, a.code, 480, codeAfter c, fmt.code * 256 + kg.code * 16 + kn⟩
  | .tsta h fmt sn kg kn d a b c =>
    ⟨h.stall, h.g, h.gn.toNat, 0x127, d, a.code, b.code, codeAfter c, fmt.code * 256 + sn * 64 + kg.code * 16 + kn⟩
  | .tcommit h gn =>
    ⟨h.stall, h.g, h.gn.toNat, 0x128, 480, 480, 480, 480, gn⟩
  | .twait h gn d =>
    ⟨h.stall, h.g, h.gn.toNat, 0x129, codeVZ d, 480, 480, 480, gn⟩
  | .ttest h gn d =>
    ⟨h.stall, h.g, h.gn.toNat, 0x12a, d, 480, 480, 480, gn⟩
  | .tscl h sb idx a =>
    ⟨h.stall, h.g, h.gn.toNat, 0x12b, 480, a.code, 480, 480, sb.toNat * 4 + idx⟩
  | .tpred h fn kn d a =>
    ⟨h.stall, h.g, h.gn.toNat, 0x12c, codeRegZ d, codeRegZ a, 480, 480, fn.code * 256 + kn⟩
  | .tcls h d a =>
    ⟨h.stall, h.g, h.gn.toNat, 0x12d, codeVZ d, a.code, 480, 480, 0⟩
  | .tcancel h gn d =>
    ⟨h.stall, h.g, h.gn.toNat, 0x12e, codeVZ d, 480, 480, 480, gn⟩
  | .dslot h d a =>
    ⟨h.stall, h.g, h.gn.toNat, 0x160, codeVZ d, a.code, 480, 480, 0⟩
  | .dmul h d a b c =>
    ⟨h.stall, h.g, h.gn.toNat, 0x161, d, a.code, b.code, codeAfter c, 0⟩
  | .dfresh h a =>
    ⟨h.stall, h.g, h.gn.toNat, 0x162, 480, a.code, 480, 480, 0⟩
  | .dinval h d a =>
    ⟨h.stall, h.g, h.gn.toNat, 0x163, codeVZ d, a.code, 480, 480, 0⟩
  | .dstat h d a b =>
    ⟨h.stall, h.g, h.gn.toNat, 0x164, d, a.code, b.code, 480, 0⟩
  | .cpy h d a b =>
    ⟨h.stall, h.g, h.gn.toNat, 0x170, codeRegZ d, a.code, b.code, 480, 0⟩
  | .cpyx h d a b =>
    ⟨h.stall, h.g, h.gn.toNat, 0x170, codeRegZ d, a.code, b.code, 480, 1⟩
  | .cpyk h d a b =>
    ⟨h.stall, h.g, h.gn.toNat, 0x170, codeRegZ d, a.code, b.code, 480, 2⟩
  | .cpyz h d a b =>
    ⟨h.stall, h.g, h.gn.toNat, 0x170, codeRegZ d, a.code, b.code, 480, 3⟩
  | .bsopen h d a b =>
    ⟨h.stall, h.g, h.gn.toNat, 0x170, codeRegZ d, a.code, b.code, 480, 4⟩
  | .bsrow h d a b =>
    ⟨h.stall, h.g, h.gn.toNat, 0x170, codeRegZ d, a.code, b.code, 480, 5⟩
  | .bsclose h d a =>
    ⟨h.stall, h.g, h.gn.toNat, 0x170, codeRegZ d, a.code, 480, 480, 6⟩
  | .cstat h d a b =>
    ⟨h.stall, h.g, h.gn.toNat, 0x170, codeRegZ d, a.code, b.code, 480, 7⟩
  | .bkon h d a b =>
    ⟨h.stall, h.g, h.gn.toNat, 0x170, codeRegZ d, a.code, b.code, 480, 128⟩
  | .bkoff h d a =>
    ⟨h.stall, h.g, h.gn.toNat, 0x170, codeRegZ d, a.code, 480, 480, 129⟩
  | .bkact h d a b =>
    ⟨h.stall, h.g, h.gn.toNat, 0x170, codeRegZ d, a.code, b.code, 480, 130⟩
  | .bkbc h d a b =>
    ⟨h.stall, h.g, h.gn.toNat, 0x170, codeRegZ d, a.code, b.code, 480, 131⟩
  | .bkmac h d a b =>
    ⟨h.stall, h.g, h.gn.toNat, 0x170, codeRegZ d, a.code, b.code, 480, 132⟩
  | .bkred h d a b =>
    ⟨h.stall, h.g, h.gn.toNat, 0x170, codeRegZ d, a.code, b.code, 480, 133⟩
  | .bkrd h d a b =>
    ⟨h.stall, h.g, h.gn.toNat, 0x170, codeRegZ d, a.code, b.code, 480, 134⟩
  | .bkclr h d a b =>
    ⟨h.stall, h.g, h.gn.toNat, 0x170, codeRegZ d, a.code, b.code, 480, 135⟩
  | .maxpy h d a b =>
    ⟨h.stall, h.g, h.gn.toNat, 0x170, codeRegZ d, a.code, b.code, 480, 256⟩
  | .mscal h d a b =>
    ⟨h.stall, h.g, h.gn.toNat, 0x170, codeRegZ d, a.code, b.code, 480, 257⟩
  | .msum h d a b =>
    ⟨h.stall, h.g, h.gn.toNat, 0x170, codeRegZ d, a.code, b.code, 480, 258⟩
  | .mfill h d a b =>
    ⟨h.stall, h.g, h.gn.toNat, 0x170, codeRegZ d, a.code, b.code, 480, 259⟩
  | .fput h d a b =>
    ⟨h.stall, h.g, h.gn.toNat, 0x170, codeRegZ d, a.code, b.code, 480, 384⟩
  | .fputs h d a b =>
    ⟨h.stall, h.g, h.gn.toNat, 0x170, codeRegZ d, a.code, b.code, 480, 385⟩
  | .fget h d a b =>
    ⟨h.stall, h.g, h.gn.toNat, 0x170, codeRegZ d, a.code, b.code, 480, 386⟩
  | .wcnt h d a b =>
    ⟨h.stall, h.g, h.gn.toNat, 0x170, codeRegZ d, a.code, b.code, 480, 387⟩
  | .srd h num ot d a =>
    ⟨h.stall, h.g, h.gn.toNat, 0x180, d.code, a.code, 480, 480, num.code + ot.toNat * 512⟩
  | .swr h num ot a b =>
    ⟨h.stall, h.g, h.gn.toNat, 0x181, 480, a.code, b.code, 480, num.code + ot.toNat * 512⟩
  | .rgset h a b c =>
    ⟨h.stall, h.g, h.gn.toNat, 0x182, 480, a.code, b.code, c, 0⟩
  | .ctxswOut h d a =>
    ⟨h.stall, h.g, h.gn.toNat, 0x183, codeVZ d, a.code, 480, 480, 0⟩
  | .ctxswIn h d a =>
    ⟨h.stall, h.g, h.gn.toNat, 0x183, codeVZ d, a.code, 480, 480, 1⟩
  | .ctxswDrop h d a =>
    ⟨h.stall, h.g, h.gn.toNat, 0x183, codeVZ d, a.code, 480, 480, 2⟩
  | .pzap h sc a b =>
    ⟨h.stall, h.g, h.gn.toNat, 0x184, 480, a.code, b.code, 480, sc.code * 64⟩
  | .launch h d a b =>
    ⟨h.stall, h.g, h.gn.toNat, 0x185, codeVZ d, a.code, b.code, 480, 0⟩
  | .cancel h hard lvl a =>
    ⟨h.stall, h.g, h.gn.toNat, 0x186, 480, a.code, 480, 480, hard.toNat * 4 + lvl.code⟩
  | .cntr h free word lvl d a =>
    ⟨h.stall, h.g, h.gn.toNat, 0x187, d.code, a.code, 480, 480, free.toNat * 16 + word.code * 4 + lvl.code⟩
  | .time h d =>
    ⟨h.stall, h.g, h.gn.toNat, 0x188, d, 480, 480, 480, 0⟩
  | .waitt h a =>
    ⟨h.stall, h.g, h.gn.toNat, 0x189, 480, a.code, 480, 480, 0⟩
  | .perf h clr d a =>
    ⟨h.stall, h.g, h.gn.toNat, 0x18a, d.code, a.code, 480, 480, clr.toNat⟩
  | .stopr h d a =>
    ⟨h.stall, h.g, h.gn.toNat, 0x18b, d, a.code, 480, 480, 0⟩
  | .halt h code d a =>
    ⟨h.stall, h.g, h.gn.toNat, 0x18c, codeVZ d, a.code, 480, 480, code⟩
  | .resume h d a =>
    ⟨h.stall, h.g, h.gn.toNat, 0x18d, codeVZ d, a.code, 480, 480, 0⟩
  | .iaddi h d a imm =>
    ⟨h.stall, h.g, h.gn.toNat, 0x001, d.code, a.code, imm / 524288, imm / 1024 % 512, imm % 1024⟩
  | .andi h d a imm =>
    ⟨h.stall, h.g, h.gn.toNat, 0x00e, d.code, a.code, imm / 524288, imm / 1024 % 512, imm % 1024⟩
  | .ori h d a imm =>
    ⟨h.stall, h.g, h.gn.toNat, 0x00f, d.code, a.code, imm / 524288, imm / 1024 % 512, imm % 1024⟩
  | .xori h d a imm =>
    ⟨h.stall, h.g, h.gn.toNat, 0x010, d.code, a.code, imm / 524288, imm / 1024 % 512, imm % 1024⟩
  | .shli h d a imm =>
    ⟨h.stall, h.g, h.gn.toNat, 0x014, d.code, a.code, imm / 524288, imm / 1024 % 512, imm % 1024⟩
  | .shri h d a imm =>
    ⟨h.stall, h.g, h.gn.toNat, 0x015, d.code, a.code, imm / 524288, imm / 1024 % 512, imm % 1024⟩
  | .sari h d a imm =>
    ⟨h.stall, h.g, h.gn.toNat, 0x016, d.code, a.code, imm / 524288, imm / 1024 % 512, imm % 1024⟩
  | .movi h d imm =>
    ⟨h.stall, h.g, h.gn.toNat, 0x021, d.code, 480, imm / 524288, imm / 1024 % 512, imm % 1024⟩
  | .movh h d a imm =>
    ⟨h.stall, h.g, h.gn.toNat, 0x022, d.code, a.code, imm / 524288, imm / 1024 % 512, imm % 1024⟩
  | .bra h imm =>
    ⟨h.stall, h.g, h.gn.toNat, 0x081, 480, 480, imm / 524288, imm / 1024 % 512, imm % 1024⟩
  | .call h d imm =>
    ⟨h.stall, h.g, h.gn.toNat, 0x083, d, 480, imm / 524288, imm / 1024 % 512, imm % 1024⟩
  | _ => ⟨0, 0, 0, 0, 0, 0, 0, 0, 0⟩

/-- The word of an instruction. -/
def encode : Instr → Nat
  | .pair stall x y => 2 ^ 63 + stall * 2 ^ 59 + x.toNat * 2 ^ 30 + y.toNat * 2
  | i => i.fields.toWord

/-- The host's reading: nbits bits numbered as the opcode table numbers them, bits above nbits 0; a word of this
hardware is 64 bits stored little-endian (R29), so the number is the word. -/
def decodeTableWord (nbits w : Nat) : Option Instr :=
  if nbits ≤ 64 then
    match decodeWord (w % 2 ^ nbits) with
    | .ok i => some i
    | .error _ => none
  else none

end Sys2Proof
end

