-- ==== Sys2Proof/Machine/System.lean ====
section
/-! DEFINITION. System registers, srd, swr, rgset and perf; fault acknowledgement and translation invalidation (R264-R269,
R272-R274). -/

namespace Sys2Proof.Machine

/-! System registers (R264-R266). -/

def clampN (lo hi x : Nat) : Nat := max lo (min hi x)

/-- sys.ctl as written by a supervisor: chk and CLSMAX change, SUP is the host's (R265). -/
def ctlWrite (host : Bool) (old new : Word) : Word :=
  let keep : Word := if host then 0 else old &&& 2
  (new &&& (if host then 0xC3 else 0xC1)) ||| keep

/-- sys.frzctl: both fields clamped (R265). -/
def frzWrite (x : Nat) : Word := BitVec.ofNat 32 (clampN 85 115 (x % 256) + 256 * clampN 1 40 (x / 256 % 256))

/-- sys.xlinv as a write leaves it: as written, with BSY (R266). -/
def xlinvValue (x : Nat) : DWord := BitVec.ofNat 64 (2 ^ 63 + x % 2 ^ 63)

/-- A write of sys.xlinv (R266): ignored while BSY is 1. -/
def State.xlinvStart (s : State) (x : Nat) : State :=
  if s.y.xlinv.getLsbD 63 then s else { s with y := { s.y with xlinv := xlinvValue x } }

/-- The range of an invalidation: lowest IA and length; none for the whole context, which a reserved bit or a misaligned
IA stands for too (R266). -/
def xlinvRange (x : Nat) : Option (Nat × Nat) :=
  let ia := fld x 16 36 * 2 ^ 16
  let span := match fld x 2 2 with
    | 0 => some (2 ^ 16)
    | 1 => some (2 ^ 21)
    | 2 => some (2 ^ 31)
    | _ => none
  match span with
  | none => none
  | some n =>
    if fld x 52 11 != 0 || fld x 14 2 != 0 || fld x 4 4 != 0 || fld x 0 2 != 0 || ia % n != 0 then none else some (ia, n)

/-- The invalidation finishes: cached entries that translate an IA of the range go, and with them the sectors found
through them (log 20). -/
def State.xlinvEnd (s : State) : State :=
  let x := s.y.xlinv.toNat
  let ctx := fld x 8 6
  let hit (lo n : Nat) : Bool := match xlinvRange x with
    | some r => overlaps (lo, n) r
    | none => true
  if !s.y.xlinv.getLsbD 63 then s
  else { s with
    y := { s.y with xlinv := BitVec.ofNat 64 (x % 2 ^ 63) }
    m := { s.m with
      xlat := s.m.xlat.filter fun e => !(e.ctx == ctx && hit e.ia (levelSpan e.level))
      l2 := s.m.l2.filter fun e => !(e.ctx == ctx && hit e.ia 32)
      cache := s.m.cache.filter fun e => !(e.ctx == ctx && hit e.ia 32) } }

/-! Fault acknowledgement (R108, R274). -/

/-- IAs of the requests held on a missing unit. -/
def State.heldOn (s : State) (m : Miss) : List Nat :=
  let here (home ia : Nat) : Bool := home == m.die && ctrlOf ia == m.ctrl && unitBase m.level ia == m.ia
  (s.m.reads.filter (·.ctx == m.ctx)).flatMap (fun r => r.secs.filterMap fun x => if x.got.isNone && here x.home x.ia then some x.ia else none) ++
  (s.m.writes.filter (·.ctx == m.ctx)).filterMap (fun w => if here w.home w.ia then some w.ia else none) ++
  (s.m.atoms.filter (·.ctx == m.ctx)).filterMap (fun a => if here a.home a.ia then some a.ia else none) ++
  (s.m.leases.filter (·.ctx == m.ctx)).filterMap (fun l => if l.page && here l.home l.line then some l.line else none) ++
  (s.wgs.filter (·.ctx == m.ctx)).flatMap (fun g => g.threads.filterMap fun t => match t.run with
    | .blocked (.page home ia) => if here home ia then some ia else none
    | _ => none)

/-- The agents walk again: a unit that is now mapped above its level lets its requests go, those that still miss are
held on a smaller unit. -/
def State.rewalk (s : State) (m : Miss) : State :=
  let still := match s.walk m.ctx m.ia with
    | .miss l => decide (m.level ≤ l)
    | .leaf _ _ _ => false
  if still then s
  else
    let same (x : Miss) : Bool := x.die == m.die && x.ctrl == m.ctrl && x.ctx == m.ctx && x.level == m.level && x.ia == m.ia
    let s' := { s with m := { s.m with missing := s.m.missing.filter fun x => !same x } }
    (s.heldOn m).foldl (fun s ia => match s.walk m.ctx ia with
      | .miss l => s.pageFault m.die m.ctx ia l m.acc
      | .leaf _ _ _ => s) s'

/-- Missing units that hold the IA of an acknowledgement; none where bits 15:1 are set. -/
def State.ackUnits (s : State) (x : Nat) : List Miss :=
  if fld x 1 15 != 0 then [] else s.m.missing.filter fun m => unitBase m.level (fld x 16 36 * 2 ^ 16) == m.ia

/-! Launch queues as an acknowledgement meets them (R275, R276). -/

namespace Queue

def en (q : Queue) : Bool := q.ctl.getLsbD 0
def dev (q : Queue) : Bool := q.ctl.getLsbD 3
def ctx (q : Queue) : Nat := fld q.ctl.toNat 4 6
def cls (q : Queue) : Nat := fld q.ctl.toNat 10 2
def size (q : Queue) : Nat := fld q.ctl.toNat 12 4

/-- Enabled, with a legal size. -/
def live (q : Queue) : Bool := q.en && decide (4 ≤ q.size) && decide (q.size ≤ 12)

/-- IA of the slot of packet n. -/
def slot (q : Queue) (n : Nat) : Nat := q.base.toNat % 2 ^ 52 + 128 * (n % 2 ^ q.size)

/-- Packet n is refused: QERR, EN cleared, the packet counts as taken (R276). -/
def refuse (code n : Nat) (q : Queue) : Queue :=
  { q with err := BitVec.ofNat 32 (code * 2 ^ 24 + n % 2 ^ 24), ctl := q.ctl &&& ~~~1, head := BitVec.ofNat 32 (n + 1)
           taken := none }

end Queue

def State.modQueue (s : State) (q : Nat) (f : Queue → Queue) : State :=
  { s with y := { s.y with queues := s.y.queues.modify q f } }

/-- The held requests of an unmappable unit end (an engine command with code 2, log 49), a packet that lies there is
refused, and the context halts with reason 3. -/
def State.unmappable (s : State) (m : Miss) : State :=
  let here (home ia : Nat) : Bool := home == m.die && ctrlOf ia == m.ctrl && unitBase m.level ia == m.ia
  let same (x : Miss) : Bool := x.die == m.die && x.ctrl == m.ctrl && x.ctx == m.ctx && x.level == m.level && x.ia == m.ia
  let s := { s with m := { s.m with missing := s.m.missing.filter fun x => !same x } }
  let rs := s.m.reads.filter fun r => r.ctx == m.ctx && r.secs.any fun x => x.got.isNone && here x.home x.ia
  let s := rs.foldl (fun s r => ((s.dropRead r.id).letGo r.who r.id).releaseTag r.who r.id) s
  let as := s.m.atoms.filter fun a => a.ctx == m.ctx && here a.home a.ia
  let s := as.foldl (fun s a => a.lanes.foldl (fun s l => (s.letGo l.who a.id).releaseTag l.who a.id) (s.dropAtom a.id)) s
  let ls := s.m.leases.filter fun l => l.ctx == m.ctx && l.page && here l.home l.line
  let s := ls.foldl (fun s l => ((s.dropLease l.id).letGo l.who l.id).releaseTag l.who l.id) s
  let s := s.setWrites fun ws => ws.filter fun w => !(w.ctx == m.ctx && here w.home w.ia)
  let cs := s.e.cmds.filter fun c => c.ctx == m.ctx && match c.heldOn with
    | some q => here q.1 q.2
    | none => false
  let s := cs.foldl (fun s c => if c.state == .issued then s.refuseCmd c 2 else s.endError c 2) s
  let wake (t : Thread) : Thread := match t.run with
    | .blocked (.page home ia) => if here home ia then { t with run := .runnable } else t
    | _ => t
  let wakeAll (g : Workgroup) : Workgroup := if g.ctx == m.ctx then { g with threads := g.threads.map wake } else g
  let s := { s with wgs := s.wgs.map wakeAll }
  let stuck (q : Queue) : Bool :=
    let ia := q.slot q.head.toNat
    q.live && q.ctx == m.ctx && q.head != q.tail && q.taken.isNone && here ((s.ctx m.ctx).homeOf ia) ia
  let s := { s with y := { s.y with queues := s.y.queues.map fun q => if stuck q then q.refuse 5 q.head.toNat else q } }
  s.raiseHalt m.ctx 3 0

/-- A write of sys.faultack (R274). -/
def State.faultack (s : State) (x : Nat) : State :=
  (s.ackUnits x).foldl (fun s m => if x % 2 == 0 then s.rewalk m else s.unmappable m) s

def execFaultackMap (val : BitVec 64) (s : State) : Host.Outcome State Fault Refusal :=
  .next (if val.toNat % 2 == 0 then s.faultack val.toNat else s)

def execFaultackUnmappable (val : BitVec 64) (s : State) : Host.Outcome State Fault Refusal :=
  .next (if val.toNat % 2 == 1 then s.faultack val.toNat else s)

def execXlinvWrite (val : BitVec 64) (s : State) : Host.Outcome State Fault Refusal := .next (s.xlinvStart val.toNat)

def execXlinvDone (s : State) : Host.Outcome State Fault Refusal := .next s.xlinvEnd

/-! Reading and writing system registers (R264, R268). -/

def CtxState.code : CtxState → Nat
  | .free => 0
  | .running => 1
  | .halting => 2
  | .halted => 3
  | .preempting => 4
  | .out => 5

/-- A context or device register as it reads; c is the context that the access names. sys.faultack reads 0. -/
def State.regRead (s : State) (c : Context) (r : SysReg) : DWord :=
  match r with
  | .fpflags | .cancel => 0
  | .ctl => c.ctl.setWidth 64
  | .ptroot => c.ptroot
  | .vwbase => c.vwbase
  | .slotbase => c.slotbase
  | .stoparea => c.stoparea
  | .ctximg => c.ctximg
  | .ctxlen => c.ctxlen
  | .state => BitVec.ofNat 64 c.state.code
  | .evq => s.y.evq
  | .evhead => s.y.evhead.setWidth 64
  | .evtail => s.y.evtail.setWidth 64
  | .evlost => s.y.evlost.setWidth 64
  | .faultack => 0
  | .sfways => s.y.sfways.setWidth 64
  | .frzctl => s.y.frzctl.setWidth 64
  | .xlinv => s.y.xlinv

/-- A register as a thread reads it. -/
def State.sysRead (s : State) (t : Thread) (cancel : Word) (c : Context) (r : SysReg) : DWord :=
  match r with
  | .fpflags => t.flags.setWidth 64
  | .cancel => cancel.setWidth 64
  | _ => s.regRead c r

/-- Context registers as written; reserved bits are ignored. -/
def Context.sysWrite (host : Bool) (c : Context) (r : SysReg) (x : DWord) : Context :=
  match r with
  | .ctl => { c with ctl := ctlWrite host c.ctl (x.setWidth 32) }
  | .ptroot => { c with ptroot := x }
  | .vwbase => { c with vwbase := x &&& 0x800FFF0000000000 }
  | .slotbase => { c with slotbase := x &&& 0x000FFFFFFFFC0000 }
  | .stoparea => { c with stoparea := x &&& 0x000FFFFFFFF80001 }
  | .ctximg => { c with ctximg := x &&& 0x000FFFFFFFE00000 }
  | .ctxlen => { c with ctxlen := x }
  | _ => c

/-- Device registers as written. Room in the ring lets waiting page-fault records out (R273). -/
def State.devWrite (s : State) (r : SysReg) (x : DWord) : State :=
  match r with
  | .evq => ({ s with y := { s.y with evq := x &&& 0x000FFFFFFFFF8001 } } : State).flushMissing
  | .evtail => ({ s with y := { s.y with evtail := x.setWidth 32 } } : State).flushMissing
  | .evlost => { s with y := { s.y with evlost := 0 } }
  | .faultack => s.faultack x.toNat
  | .sfways => { s with y := { s.y with sfways := x.setWidth 32 &&& 15 } }
  | .frzctl => { s with y := { s.y with frzctl := frzWrite x.toNat } }
  | .xlinv => s.xlinvStart x.toNat
  | _ => s

def execEvtailWrite (val : BitVec 32) (s : State) : Host.Outcome State Fault Refusal :=
  .next (s.devWrite .evtail (val.setWidth 64))

def execEvlostClear (s : State) : Host.Outcome State Fault Refusal := .next (s.devWrite .evlost 0)

/-- Context that an operand names: bits 31:6 must be 0 (R267). -/
def Env.target (e : Env) (a : Src) : Option Nat := if (e.src a).toNat < 64 then some (e.src a).toNat else none

/-- Context of an access: the thread's own, or under OT the one that A names. -/
def Env.named (e : Env) (ot : Bool) (a : Src) : Option Nat := if ot then e.target a else some e.g.ctx

/-- Issued by a supervisor context. -/
def Env.sup (e : Env) : Bool := e.ctx.sup

def SysReg.mayRead (sup : Bool) : SysReg → Bool
  | .fpflags | .ctl | .cancel => true
  | _ => sup

def SysReg.mayWrite (sup : Bool) : SysReg → Bool
  | .fpflags => true
  | .cancel | .state | .evhead => false
  | _ => sup

def illegal : Res := .trap 1 0 0 false

/-- srd. Flags are set as an instruction issues, so nothing is left to wait for (R72). -/
def execSrd (h : Hdr) (num : SysReg) (ot : Bool) (d : Reg) (a : Src) (s : State) : Host.Outcome State Fault Refusal :=
  threadOp (.srd h num ot d a) (fun e =>
    match e.named ot a with
    | none => illegal
    | some c =>
      if !SysReg.mayRead e.sup num || (c != e.g.ctx && !e.sup) then illegal
      else .done (e.s.deliverN e.g.core e.g.slot e.t.tid d (if num.wide then 2 else 1)
        (e.s.sysRead e.t e.g.cancel (e.s.ctx c) num).toNat false)) s

def execSwr (h : Hdr) (num : SysReg) (ot : Bool) (a b : Src) (s : State) : Host.Outcome State Fault Refusal :=
  threadOp (.swr h num ot a b) (fun e =>
    let x := if num.wide then e.src64 b else (e.src b).setWidth 64
    match e.named ot a with
    | none => illegal
    | some c =>
      if !SysReg.mayWrite e.sup num || (c != e.g.ctx && !e.sup) then illegal
      else if num == .fpflags then
        .done (e.s.modThread e.g.core e.g.slot e.t.tid fun t => { t with flags := x.setWidth 5 })
      else if num.ctxScope then .done (e.s.setCtx c ((e.s.ctx c).sysWrite false num x))
      else .done (e.s.devWrite num x)) s

/-- rgset (R269): eight v registers, and every wait of the context ends with status 3. -/
def execRgset (h : Hdr) (a b : Src) (c : Nat) (s : State) : Host.Outcome State Fault Refusal :=
  threadOp (.rgset h a b c) (fun e =>
    let n := (e.src b).toNat
    match e.target a with
    | none => illegal
    | some k =>
      if !e.sup || 16 ≤ n then illegal
      else
        let x := (List.range 8).foldr (fun m y => (e.reg (.v (c + m))).1.toNat + y * 2 ^ 32) 0
        let q := e.s.ctx k
        .done ((e.s.setCtx k { q with rg := q.rg.set n (BitVec.ofNat 256 x) }).evictWaits fun w => w.ctx == k)) s

/-- perf (R272). -/
def execPerf (h : Hdr) (clr : Bool) (d : Reg) (a : Src) (s : State) : Host.Outcome State Fault Refusal :=
  threadOp (.perf h clr d a) (fun e =>
    let k := (e.src a).toNat % 8
    let mine (p : Perf) : Bool := p.core == e.g.core && p.ctx == e.g.ctx
    let v : DWord := match e.s.perf.find? mine with
      | some p => p.n.getD k 0
      | none => 0
    let zero (p : Perf) : Perf := if mine p then { p with n := p.n.set k 0 } else p
    let s := if clr then { e.s with perf := e.s.perf.map zero } else e.s
    .done (s.deliverN e.g.core e.g.slot e.t.tid d 2 v.toNat false)) s

end Sys2Proof.Machine
end

