-- ==== Sys2Proof/Machine/Halts.lean ====
section
/-! DEFINITION. Traps taken, halts, stop records, context images, context states, eviction, freezes: ctxsw, stopr, halt,
resume and their events (R206, R226, R247, R251-R263, R270). -/

namespace Sys2Proof.Machine

/-! Halt events (R253, R254). -/

def Run.still : Run → Bool
  | .runnable => false
  | .blocked _ | .trapPending | .exited => true

/-- A thread's state as the core has it: one whose state line is in its image awaits that (R87), unless a trap holds it. -/
def Thread.runNow (t : Thread) : Run :=
  if t.resident || t.run == .exited || t.run == .trapPending then t.run else .blocked (.miss [])

/-- The lowest-numbered trap-pending thread. -/
def Workgroup.trapped (g : Workgroup) : Option Thread :=
  (g.threads.filter (·.runNow == .trapPending)).foldl (fun a t => match a with
    | none => some t
    | some b => if t.tid < b.tid then some t else a) none

/-- The workgroup's trap may be taken: every thread is exited, blocked or trap-pending. In the states that a halt leaves, its
threads stand as their images have them, and only a trap recorded while Out is new (R253, R257, R259). -/
def Workgroup.takesTrap (g : Workgroup) : CtxState → Bool
  | .running | .halting | .preempting => g.threads.all fun x => x.runNow.still
  | .out => g.threads.any (·.late) && g.threads.all fun x => x.run.still
  | .free | .halted => false

/-- TRAP_TAKEN: every thread is exited, blocked or trap-pending, one at least trap-pending (R253). -/
def execTrapTaken (core slot : Nat) (s : State) : Host.Outcome State Fault Refusal :=
  match s.wg? core slot with
  | none => .next s
  | some g => match g.trapped with
    | none => .next s
    | some t =>
      .next (if g.takesTrap (s.ctx g.ctx).state then s.raiseHalt g.ctx 1 t.tcause else s)

/-- UNCORRECTABLE_STATE_ERROR: every thread that has not exited becomes trap-pending with cause 8, at once (R253). -/
def State.stateError (s : State) (core slot : Nat) : State :=
  match s.wg? core slot with
  | none => s
  | some g =>
    let hit (t : Thread) : Thread := if t.run == .exited then t else ((t.trap 8 0 0 0 t.pc).inLine false) (s.ctx g.ctx).state
    (s.setWg { g with threads := g.threads.map hit }).raiseHalt g.ctx 5 0

def execUncorrectableStateError (core slot : Nat) (s : State) : Host.Outcome State Fault Refusal :=
  .next (s.stateError core slot)

/-! Stop records (R205, R226, R247, R256). -/

/-- What a unit puts into its record: PC or command, progress, thread, fault address, 16 bytes of its own. -/
structure Rec where
  pc : Nat := 0
  progress : Nat := 0
  slot : Nat := 0
  tid : Nat := 0
  fault : Nat := 0
  own : Nat := 0

def stopBytes (unit kind reason detail time : Nat) (r : Rec) : List Byte :=
  leBytes 4 unit ++ leBytes 4 (kind * 2 ^ 24 + reason * 2 ^ 8 + detail % 256) ++ leBytes 8 time ++ leBytes 8 r.pc ++
  leBytes 8 r.progress ++ leBytes 8 (r.slot % 16 * 2 ^ 32 + r.tid % 2048) ++ leBytes 8 r.fault ++ leBytes 16 r.own

/-- Workgroups of a context on a core. -/
def State.wgsOn (s : State) (core ctx : Nat) : List Workgroup := s.wgs.filter fun g => g.core == core && g.ctx == ctx

/-- Side-log entries of a context on a core, in sequence order. -/
def State.logOf (s : State) (core ctx : Nat) : List (Nat × WEnt) :=
  let l := s.m.writes.filterMap fun w => match w.state with
    | .logged q => if w.who.core == core && w.ctx == ctx then some (q, w) else none
    | _ => none
  l.foldl (fun a x => a.takeWhile (fun y => decide (y.1 < x.1)) ++ [x] ++ a.dropWhile (fun y => decide (y.1 < x.1))) []

/-- Issued accesses have completed, entered the side log, or are held on a page. -/
def State.coreQuiet (s : State) (core ctx : Nat) : Bool :=
  (s.m.reads.all fun r => !(r.who.core == core && r.ctx == ctx) || r.held || r.kind == .pref) &&
  (s.m.writes.all fun w => !(w.who.core == core && w.ctx == ctx) || match w.state with
    | .logged _ => true
    | .leased _ => w.ord != 0
    | _ => (s.missing? w.home w.ctx w.ia).isSome) &&
  s.m.atoms.all fun a => a.ctx != ctx || a.held || a.lanes.all fun l => l.who.core != core

def cap16 (n : Nat) : Nat := min n 0xFFFF

def State.coreRec (s : State) (core ctx : Nat) : Rec :=
  let ts := (s.wgsOn core ctx).flatMap fun g => g.threads.map fun t => (g.slot, t)
  let count (p : Run → Bool) : Nat := cap16 (ts.filter fun q => p q.2.runNow).length
  let traps := count fun r => r == .trapPending
  let blocked := count fun r => match r with
    | .blocked _ => true
    | _ => false
  let low := (ts.filter fun q => q.2.runNow == .trapPending).foldl (fun a q => match a with
    | none => some q
    | some b => if q.1 < b.1 || (q.1 == b.1 && decide (q.2.tid < b.2.tid)) then some q else a) none
  let logs := cap16 (s.logOf core ctx).length
  let base : Rec := { progress := traps + blocked * 2 ^ 16 + count (· == .runnable) * 2 ^ 32, own := logs * 2 ^ 16 }
  match low with
  | none => base
  | some q => { base with pc := q.2.taddr.toNat, slot := q.1, tid := q.2.tid, fault := q.2.faddr.toNat
                          own := q.2.tcause + logs * 2 ^ 16 }

/-- Entries of a context in a core's reservation table. -/
def State.entriesOf (s : State) (core ctx : Nat) : List MEnt := s.e.entries.filter fun m => m.core == core && m.ctx == ctx

def MEnt.isDmul (m : MEnt) : Bool :=
  match m.op with
  | .dmul _ _ => true
  | _ => false

def State.matrixRec (s : State) (core ctx : Nat) : Rec :=
  let last := s.e.last.find? fun x => x.core == core && x.ctx == ctx
  let skid := match last with
    | some x => x.skid
    | none => []
  let pending := (s.entriesOf core ctx).map (·.idx)
  let bits (n : Nat) : Nat := if pending.contains n then 1 else if skid.contains n then 2 else 0
  let progress := (List.range 32).foldl (fun a n => a + bits n * 2 ^ (2 * n)) 0
  match last with
  | some x => match x.idx with
    | some k => { pc := x.pc.toNat, progress := progress, slot := x.slot, tid := x.tid, own := k }
    | none => { progress := progress, own := 0xFF }
  | none => { progress := progress, own := 0xFF }

/-- The call that the delta engine reports: one in progress, else one that its first grant holds on a page, else the oldest. -/
def State.deltaEntry (s : State) (core ctx : Nat) : Option MEnt :=
  let l := (s.entriesOf core ctx).filter (·.isDmul)
  (l.find? (·.drun.isSome)).or ((l.find? (·.granted.isSome)).or l.head?)

def State.deltaRec (s : State) (core ctx : Nat) : Rec :=
  match s.deltaEntry core ctx with
  | none => {}
  | some m =>
    let layer := match m.op with
      | .dmul l _ => l
      | _ => 0
    let progress := match m.drun with
      | none => if m.granted.isSome then 2 ^ 62 else 0
      | some r => (if r.writing then 2 else 1) * 2 ^ 62 + (if r.full then 2 ^ 61 else 0) + r.units % 2 ^ 32
    { pc := m.pc.toNat, progress := progress, slot := m.slot, tid := m.tid, fault := m.heldOn, own := layer }

/-- Accepted commands at a unit, oldest first. -/
def State.cmdsAt (s : State) (ctx unit : Nat) : List Cmd :=
  s.e.cmds.filter fun c => c.ctx == ctx && c.state == .accepted && (s.cmdUnits c).contains unit

/-- Those that run (R235, R243). -/
def State.runningAt (s : State) (ctx unit : Nat) : List Cmd := (s.cmdsAt ctx unit).filter s.e.turn

/-- IA of the page on which a command is held, or 0. -/
def Cmd.fault (c : Cmd) : Nat := (c.heldOn.map (·.2)).getD 0

/-- What a unit has done of a command: source bytes read, elements done of its own pages, or bytes sent (R247, R256). -/
def State.cmdDone (s : State) (unit : Nat) (c : Cmd) : Nat :=
  match c.eng with
  | 2 => ((c.pageSpans.zipIdx.filter fun p => s.pageUnit c p.1.1 == unit).map fun p => c.pageDone p.2).foldl (· + ·) 0
  | 3 => if c.fn == 2 then 0 else c.sent - ((s.e.packets.find? (·.cmd == c.id)).map (·.held)).getD 0
  | _ => c.sent

/-- The Retriever, a memory-side unit and the put engine (R247, R256). -/
def State.cmdRec (s : State) (ctx unit : Nat) : Rec :=
  match s.runningAt ctx unit with
  | [] => {}
  | c :: l => { pc := c.tok, progress := s.cmdDone unit c, slot := c.slot, tid := c.tid, fault := c.fault, own := l.length + 1 }

/-- Sessions of a context at a controller. -/
def State.sessionsAt (s : State) (ctx unit : Nat) : List Session :=
  s.e.sessions.filter fun q => q.ctx == ctx && unitStack q.stack == unit

/-- A controller: its memory-side unit's command where one runs (log 10), else a session's handle, the last command
completed, and who issued the session's command that runs, or the one that opened it. -/
def State.bankRec (s : State) (ctx unit : Nat) : Rec :=
  match s.sessionsAt ctx unit, (s.runningAt ctx unit).any (·.eng == 2) with
  | q :: _, false =>
    let c := (s.runningAt ctx unit).head?
    { pc := q.tok, progress := q.last, slot := (c.map (·.slot)).getD q.slot, tid := (c.map (·.tid)).getD q.tid }
  | _, _ => s.cmdRec ctx unit

/-- Streams of a context that a core's Retriever has open. -/
def State.streamsOf (s : State) (core ctx : Nat) : List Stream := s.e.streams.filter fun q => q.core == core && q.ctx == ctx

/-- An operation of the context is at a memory-side unit of the controller. -/
def State.atUnit (s : State) (ctx unit : Nat) : Bool :=
  s.m.atoms.any (fun a => a.fwd && a.ctx == ctx && unitCtrl a.home (ctrlOf a.ia) == unit) ||
  s.m.writes.any fun w => w.state == .forwarded && w.ctx == ctx && unitCtrl w.home (ctrlOf w.ia) == unit

/-- Units of the device (R256). -/
def unitIds : List Nat :=
  (List.range 256).flatMap (fun c => (List.range 4).map fun k => unitCore c k) ++ (List.range 16).map (4096 + ·) ++ [unitPut]

/-- The unit holds work of the context (R254). -/
def State.unitBusy (s : State) (ctx unit : Nat) : Bool :=
  let core := unit / 16
  if unit < 4096 then
    match unit % 16 with
    | 0 => (s.wgsOn core ctx).any (fun g => g.threads.any (·.run != .exited)) || !(s.logOf core ctx).isEmpty ||
        !s.coreQuiet core ctx
    | 1 => !(s.entriesOf core ctx).isEmpty || s.e.last.any fun x => x.core == core && x.ctx == ctx && !x.skid.isEmpty
    | 2 => (s.entriesOf core ctx).any (·.isDmul)
    | _ => !(s.cmdsAt ctx unit).isEmpty || !(s.streamsOf core ctx).isEmpty
  else if unit == unitPut then !(s.cmdsAt ctx unit).isEmpty
  else !(s.cmdsAt ctx unit).isEmpty || !(s.sessionsAt ctx unit).isEmpty || s.atUnit ctx unit

/-- What it does of the context's has reached the point where it stops. -/
def State.unitQuiet (s : State) (ctx unit : Nat) : Bool :=
  let core := unit / 16
  if unit < 4096 then
    match unit % 16 with
    | 0 => s.coreQuiet core ctx
    | 1 => (s.entriesOf core ctx).all fun m => match m.granted with
        | none => true
        | some t => m.isDmul && decide (t + 16 ≤ s.now)
    | 2 => (s.entriesOf core ctx).all fun m => !m.isDmul || match m.granted with
        | none => true
        | some t => decide (t + 16 ≤ s.now)
    | _ => true
  else if unit == unitPut then (s.cmdsAt ctx unit).all fun c =>
    s.e.packets.all fun p => p.cmd != c.id || p.get || decide (p.bytes ≤ p.held)
  else !s.atUnit ctx unit

def State.unitOf (s : State) (ctx unit : Nat) : Rec :=
  if unit < 4096 then
    match unit % 16 with
    | 0 => s.coreRec (unit / 16) ctx
    | 1 => s.matrixRec (unit / 16) ctx
    | 2 => s.deltaRec (unit / 16) ctx
    | _ => s.cmdRec ctx unit
  else if unit == unitPut then s.cmdRec ctx unit
  else s.bankRec ctx unit

/-- How far the running commands of a Retriever go before it stops (R247). -/
def State.unitRun (s : State) (ctx unit : Nat) : State :=
  if unit < 4096 && unit % 16 == 3 then (s.runningAt ctx unit).foldl State.partCmd s else s

/-- The put engine stops: a get that is out is given up, and goes out again at resume (R247). -/
def State.stopGets (s : State) (ctx : Nat) : State :=
  (s.e.cmds.filter fun c => c.ctx == ctx && s.e.packets.any fun p => p.cmd == c.id && p.get).foldl (fun s c =>
    (s.dropPacket c.id).modCmd c.id fun c => { c with sent := 0, tries := c.tries + 1 }) s

/-- What stopping does: a call in compute starts again, streams close, sessions end (R226, R247). -/
def State.unitEffect (s : State) (ctx unit : Nat) : State :=
  let core := unit / 16
  let restart (m : MEnt) : MEnt :=
    if m.core == core && m.ctx == ctx && m.isDmul && !(m.drun.any (·.writing)) then { m with drun := none, granted := none } else m
  if unit < 4096 then
    match unit % 16 with
    | 2 => { s with e := { s.e with entries := s.e.entries.map restart } }
    | 3 => { s with e := { s.e with streams := s.e.streams.filter fun q => !(q.core == core && q.ctx == ctx) } }
    | _ => s
  else if unit == unitPut then s.stopGets ctx
  else { s with e := { s.e with sessions := s.e.sessions.filter fun q => !(q.ctx == ctx && unitStack q.stack == unit) } }

/-- A device write of stop records or images: done, or not yet possible. What the access table refuses is dropped with
a record (R273, R302). -/
def State.imageWrite (s : State) (ctx ia : Nat) (l : List PByte) : Except State State :=
  match s.writeIa ctx ia l with
  | .ok s => .ok s
  | .hold s => .error s
  | .page s _ _ => .error s
  | .viol a k => .ok (s.violation ctx a k 0)

def plainBytes (l : List Byte) : List PByte := l.map fun b => (b, false)

/-- UNIT_STOP: a unit that holds work of the context stops and writes its record (R254, R256). The matrix engine's record
comes before the delta engine's effect on shared entries. -/
def execUnitStop (ctx unit : Nat) (s : State) : Host.Outcome State Fault Refusal :=
  let c := s.ctx ctx
  let early := unit % 16 == 2 && unit < 4096 && s.unitBusy ctx (unit - 1) && !c.halt.stopped.contains (unit - 1)
  if !c.stopping || c.halt.stopped.contains unit || !s.unitBusy ctx unit || !s.unitQuiet ctx unit || early then .next s
  else
    let area := c.stoparea.toNat
    let on := area % 2 == 1
    let s := s.unitRun ctx unit
    let bs := stopBytes unit c.halt.kind c.halt.reason c.halt.detail s.ptpNs (s.unitOf ctx unit)
    match if on then s.imageWrite ctx (area / 2 ^ 19 * 2 ^ 19 + 64 * unit) (plainBytes bs) else .ok s with
    | .error s => .next s
    | .ok s =>
      let s := s.unitEffect ctx unit
      let c := s.ctx ctx
      .next (s.setCtx ctx { c with halt := { c.halt with stopped := c.halt.stopped ++ [unit], records := c.halt.records + 1 } })

/-! Images (R252, R257, R258). -/

/-- P and SG of registers, six bits each. -/
def psgBits (l : List PSg) : Nat :=
  l.zipIdx.foldl (fun a q => a + (q.1.sg % 32 + if q.1.p then 32 else 0) * 2 ^ (6 * q.2)) 0

def psgOf (x n : Nat) : List PSg := (List.range n).map fun k => { p := fld x (6 * k + 5) 1 == 1, sg := fld x (6 * k) 5 }

def Run.code : Run → Nat
  | .runnable => 0
  | .blocked _ => 1
  | .trapPending => 2
  | .exited => 3

def bitsOf (l : List Bool) : Nat := l.zipIdx.foldl (fun a q => a + if q.1 then 2 ^ q.2 else 0) 0

/-- The state line (R252). -/
def Thread.stateLine (t : Thread) : Nat :=
  bitsOf (t.p.map (·.val)) * 2 ^ 32 + bitsOf (t.p.map (·.poi)) * 2 ^ 40 + t.flags.toNat * 2 ^ 48 + t.run.code * 2 ^ 56 +
  psgBits t.conv * 2 ^ 64 + psgBits t.bars * 2 ^ 160 + t.tcause % 256 * 2 ^ 256 + t.sleep % 2 ^ 24 * 2 ^ 264 +
  t.pc.toNat * 2 ^ 288 + t.tcode.toNat * 2 ^ 352 + t.taddr.toNat * 2 ^ 384 + t.faddr.toNat * 2 ^ 448

/-- Register lines of an image (R258). -/
def imageLines (regs : Nat) : Nat := (regs + 1 + 15) / 16

/-- Register line l of an image. -/
def Thread.line (l : Nat) (t : Thread) : List Byte :=
  (List.range 16).flatMap fun n => leBytes 4 (t.v.getD (16 * l + n) {}).val.toNat

/-- Some register of a line is in the image, and nowhere else. -/
def Thread.inImage (l : Nat) (t : Thread) : Bool := (List.range 16).any fun n => (t.v.getD (16 * l + n) {}).img

/-- Some register of a line awaits a result. -/
def Thread.pinned (now l : Nat) (t : Thread) : Bool :=
  (List.range 16).any fun n => let c := t.v.getD (16 * l + n) {}; c.tag != 0 || decide (now < c.ready)

/-- The last value written to a workgroup register. -/
def Shared.latest {α : Type} (x : Shared α) : α × Bool :=
  match x.hist.getLast? with
  | some v => (v.val, v.poi)
  | none => (x.base, x.poi)

def CReg.bytes (c : CReg) : List Byte :=
  leBytes 4 (c.cnt % 4096 + c.arr % 4096 * 2 ^ 12 + c.kind.code * 2 ^ 24 + c.gen % 32 * 2 ^ 27) ++ leBytes 4 c.acc.toNat ++
  leBytes 4 c.res.toNat

def BReg.bytes (b : BReg) : List Byte := leBytes 4 (b.cnt % 4096 + b.arr % 4096 * 2 ^ 12 + b.gen % 32 * 2 ^ 27)

/-- The save area up to the tile-store partition (R258). -/
def State.saveArea (s : State) (g : Workgroup) : List Byte :=
  g.w.flatMap (fun x => leBytes 4 x.latest.1.toNat) ++ g.c.flatMap CReg.bytes ++ g.b.flatMap BReg.bytes ++
  g.k.flatMap (fun x => leBytes 8 x.latest.1.toNat) ++ g.sb.flatMap (fun x => leBytes 4 x.latest.1.val.toNat) ++
  (List.range 8).flatMap (fun n => leBytes 1 (s.e.count g n)) ++ leBytes 1 g.mcls.latest.1 ++ leBytes 7 0 ++
  leBytes 8 (bitsOf (g.w.map (·.latest.2))) ++ leBytes 344 0 ++
  g.sa.flatMap (fun x => (List.range 64).flatMap fun n => leBytes 4 (x.latest.1.getD n {}).val.toNat) ++
  g.threads.flatMap fun t => leBytes 48 (bitsOf (t.v.map (·.poi)))

/-- Offset of the tile-store partition in the save area: the next 4 KiB boundary. -/
def Workgroup.tileOffset (g : Workgroup) : Nat := (0x800 + 48 * g.threads.length + 4095) / 4096 * 4096

def WKind.opk : WKind → Nat
  | .st => 0
  | .strl => 1
  | .pzap => 2
  | .red _ _ => 3
  | .redf _ => 4

def WKind.xt : WKind → Nat
  | .red op ty => op.code + ty.code * 16
  | .redf op => op.code
  | _ => 0

/-- A side-log entry (R257): the operands that lanes of one bundle have for one word are combined (R149). -/
def WEnt.logBytes (w : WEnt) (seq : Nat) : List Byte :=
  let n := match w.kind with
    | .red _ ty => atomBytes ty
    | _ => 4
  let head (q : Nat) : Bool := (w.ops.take q).all fun x => some x.1 != (w.ops[q]?).map (·.1)
  let heads := (w.ops.zipIdx.filter fun q => head q.2).map (·.1)
  let rest := (w.ops.zipIdx.filter fun q => !head q.2).map (·.1)
  let mask := if w.kind.plain then bitsOf w.mask
    else w.ops.foldl (fun a q => a ||| ((2 ^ n - 1) * 2 ^ q.1)) 0
  let data := if w.kind.plain then (List.range 32).map fun k => if w.mask.getD k false then w.data.getD k 0 else 0
    else (({ w with ops := rest } : WEnt).reduced (heads.foldl (fun d q => splice d q.1 (leBytes n q.2.toNat)) (List.replicate 32 0))).2
  leBytes 8 w.ia ++ leBytes 4 mask ++ leBytes 1 w.kind.opk ++ leBytes 1 w.kind.xt ++ leBytes 1 w.sc.code ++ leBytes 1 1 ++
  data ++ leBytes 8 seq ++ leBytes 4 w.ctx ++ leBytes 4 (w.who.slot * 2 ^ 16 + w.who.tid)

/-- A core's side-log area: 512 entries, unused ones 0. -/
def State.logArea (s : State) (core ctx : Nat) : List Byte :=
  let l := (s.logOf core ctx).take 512
  l.flatMap (fun q => q.2.logBytes q.1) ++ List.replicate (64 * (512 - l.length)) 0

def eachCtx {α : Type} (f : State → α → Except State State) : List α → State → Except State State
  | [], s => .ok s
  | a :: l, s => match f s a with
    | .ok s => eachCtx f l s
    | .error s => .error s

/-- IA of line l of a thread's image: its register lines, then its state line. -/
def Workgroup.lineAt (g : Workgroup) (tid l : Nat) : Nat := g.image + g.stride * tid + 64 * l

/-- Bytes of an image or a save area as the device reads them; what a table refuses reads as poison (R302). -/
def State.imageRead (s : State) (ctx ia n : Nat) : Except State (State × List PByte) :=
  match s.readIa ctx ia n with
  | .ok l => .ok (s, l)
  | .hold s | .page s _ _ => .error s
  | .viol a k => .ok (s.violation ctx a k 0, List.replicate n (0, true))

/-- Some bits of a number replaced. -/
def setFld (n off w x : Nat) : Nat := n - fld n off w * 2 ^ off + x % 2 ^ w * 2 ^ off

/-- A state line in the image with the thread's trap record: a trap that came after the line was written, or none any more
since its context resumed (R253, R261). A thread that the supervisor has stopped stays so. -/
def Thread.patched (n : Nat) (t : Thread) : Nat :=
  let run := fld n 56 2
  if run == 3 || (t.patch.isNone && run != 2) then n
  else
    let code := match t.run with
      | .trapPending => 2
      | _ => 0
    let n := setFld (setFld (setFld (setFld (setFld n 56 2 code) 256 8 t.tcause) 352 32 t.tcode.toNat) 384 64 t.taddr.toNat) 448 64 t.faddr.toNat
    if t.patch == some true then setFld n 288 64 t.pc.toNat else n

/-- That line written; one that reads as poison is written whole. -/
def State.patchLine (s : State) (g : Workgroup) (t : Thread) : Except State State :=
  if t.patch.isNone && !t.cleared then .ok s
  else
    let ia := g.lineAt t.tid (imageLines g.regs)
    match s.imageRead g.ctx ia 64 with
    | .error s => .error s
    | .ok q =>
      let n := if q.2.any (·.2) then t.stateLine else t.patched (pnum q.2).1
      match q.1.imageWrite g.ctx ia (plainBytes (leBytes 64 n)) with
      | .error s => .error s
      | .ok s => .ok (s.modThread g.core g.slot t.tid fun t => { t with patch := none })

/-- Every trap that a line in an image has not yet goes there. -/
def State.patchAll (s : State) : State :=
  s.wgs.foldl (fun s g => (g.threads.filter (·.patch.isSome)).foldl (fun s t => match s.patchLine g t with
    | .ok s => s
    | .error s => s) s) s

/-- What of a thread is not in its image already. -/
def State.saveThread (g : Workgroup) (s : State) (t : Thread) : Except State State :=
  let lines := (List.range (imageLines g.regs)).filter fun l => !t.inImage l
  match eachCtx (fun s l => s.imageWrite g.ctx (g.lineAt t.tid l) (plainBytes (t.line l))) lines s with
  | .error s => .error s
  | .ok s =>
    if t.saved then s.patchLine g t else s.imageWrite g.ctx (g.lineAt t.tid (imageLines g.regs)) (plainBytes (leBytes 64 t.stateLine))

/-- Every thread has exited, and every engine command and matrix entry is done: its stores and images are free again
(R87). -/
def State.finished (s : State) (g : Workgroup) : Bool :=
  g.threads.all (·.run == .exited) &&
  s.e.cmds.all (fun c => !(c.core == g.core && c.slot == g.slot && c.uid == g.uid)) &&
  s.e.entries.all fun m => !(m.core == g.core && m.slot == g.slot && m.uid == g.uid)

/-- A workgroup's images and save area written. -/
def State.saveWg (s : State) (g : Workgroup) : Except State State :=
  match s.imageWrite g.ctx g.save (plainBytes (s.saveArea g)) with
  | .error s => .error s
  | .ok s => eachCtx (State.saveThread g) g.threads s

/-- Cores with workgroups or side-log entries of a context, and those whose copies in its image hold entries. -/
def State.coresOf (s : State) (ctx : Nat) : List Nat :=
  (List.range 256).filter fun k => !(s.wgsOn k ctx).isEmpty || !(s.logOf k ctx).isEmpty || (s.ctx ctx).logCores.contains k

/-- Images, save areas and side-log copies of a context. -/
def State.saveAll (s : State) (ctx : Nat) : Except State State :=
  match eachCtx State.saveWg (s.wgs.filter fun g => g.ctx == ctx && !s.finished g) s with
  | .error s => .error s
  | .ok s =>
    let base := (s.ctx ctx).ctximg.toNat + 0x40000
    match eachCtx (fun s k => s.imageWrite ctx (base + 0x8000 * k) (plainBytes (s.logArea k ctx))) (s.coresOf ctx) s with
    | .error s => .error s
    | .ok s => .ok (s.setCtx ctx { s.ctx ctx with logCores := (List.range 256).filter fun k => !(s.logOf k ctx).isEmpty })

/-- Waits of a context are evicted; their threads stay at the waita, which returns 3 (R150, R255). -/
def State.haltWaits (s : State) (ctx : Nat) : State :=
  (s.m.waits.filter (·.ctx == ctx)).foldl (fun s e =>
    s.mod e.who fun t => if t.run == .blocked (.waita e.id) then { t with waitaEvicted := true } else t)
    { s with m := { s.m with waits := s.m.waits.filter (·.ctx != ctx) } }

/-- A thread whose lines have all gone into its image and left the register cache. -/
def Thread.drop (regs : Nat) (t : Thread) : Thread :=
  let out (c : VCell) : VCell := { c with img := c.tag == 0 }
  { t with resident := false, saved := true, cleared := false, patch := none, late := false, away := 0, out := List.range (imageLines regs), v := t.v.map out, fbuf := []
           wplace := none, gwait := false }

/-- HALT_COMPLETE: units stopped, leases ended, waits evicted, images written (R255, R259). -/
def execHaltComplete (ctx : Nat) (s : State) : Host.Outcome State Fault Refusal :=
  let c := s.ctx ctx
  let busy := unitIds.any fun u => !c.halt.stopped.contains u && s.unitBusy ctx u
  if !c.stopping || busy then .next s
  else
    let s := s.haltLeases ctx
    let leased := s.m.leases.any fun l => l.ctx == ctx && l.state != .sent
    if leased || !(List.range 256).all fun k => s.coreQuiet k ctx then .next s
    else match (s.haltWaits ctx).saveAll ctx with
      | .error s => .next s
      | .ok s =>
        let pre := c.state == .preempting
        let dropAll (g : Workgroup) : Workgroup := if g.ctx == ctx then { g with threads := g.threads.map (Thread.drop g.regs) } else g
        let s := { s with wgs := s.wgs.map dropAll }
        let c := s.ctx ctx
        let s := s.setCtx ctx { c with state := if pre then .out else .halted, halt := { c.halt with complete := true } }
        .next (s.event (if pre then 4 else 3) ctx 0 0 0)

/-! Going on (R255, R260, R261). -/

/-- A register as its image holds it; one that is not in the image stands as it is. -/
def VCell.reload (val : Word) (poi : Bool) (c : VCell) : VCell := if c.img then .arrived val (poi || c.poi) else c

/-- Register line l comes back from the bytes of the image. -/
def Thread.reloadLine (l : Nat) (bs : List PByte) (t : Thread) : Thread :=
  { t with
    out := t.out.filter (· != l)
    v := t.v.zipIdx.map fun q =>
      if q.2 / 16 == l then
        let x := pnumAt bs (4 * (q.2 % 16)) 4
        q.1.reload (BitVec.ofNat 32 x.1) x.2
      else q.1 }

/-- Poison bits of the registers in the image, as the save area holds them. -/
def Thread.reloadPoison (x : Nat) (t : Thread) : Thread :=
  { t with v := t.v.zipIdx.map fun q => if q.1.img then { q.1 with poi := x.testBit q.2 } else q.1 }

/-- What a thread that was blocked does at resume: it stays blocked, or is at its instruction again (R255). -/
def Blk.kept : Blk → Bool
  | .join _ _ | .bar _ _ | .cbar _ _ | .sleep _ | .req _ | .delta _ _ => true
  | .waita _ | .page _ _ | .awwait _ _ _ | .twait _ | .ttake _ _ | .waitt _ | .miss _ | .isync | .efence => false

/-- A thread as its state line has it. A sleep goes on with its SLEEP count, less the Running cycles it has slept since. A trap
record that came after its context resumed stands (R253); any other is cleared (R261). -/
def Thread.fromLine (n : Nat) (t : Thread) : Thread :=
  let pc : DWord := BitVec.ofNat 64 (fld n 288 64)
  let run := fld n 56 2
  let slept := fld n 264 24
  let trap := run == 2 && !t.cleared
  let kept := match t.run with
    | .blocked b => run == 1 && pc == t.pc && b.kept
    | _ => false
  let p := t.p.zipIdx.map fun q =>
    let v := fld n (32 + q.2) 1 == 1
    let x := fld n (40 + q.2) 1 == 1
    ({ val := v, poi := x, old := v, oldPoi := x, ready := 0 } : PCell)
  { t with
    p := p, pc := pc, flags := BitVec.ofNat 5 (fld n 48 5), sleep := slept - t.away, away := 0
    conv := psgOf (fld n 64 96) 16, bars := psgOf (fld n 160 96) 16
    tcause := if trap then fld n 256 8 else 0, tcode := if trap then BitVec.ofNat 32 (fld n 352 32) else 0
    taddr := if trap then BitVec.ofNat 64 (fld n 384 64) else 0, faddr := if trap then BitVec.ofNat 64 (fld n 448 64) else 0
    fbuf := [], resident := true, saved := false, cleared := false, patch := none, late := false
    waitaEvicted := t.waitaEvicted && pc == t.pc, dwait := if pc == t.pc then t.dwait else none
    run := if trap then .trapPending else if !kept then .runnable else match t.run with
      | .blocked (.sleep k) => .blocked (.sleep (k + (t.away - slept)))
      | r => r }

/-! The register cache (R7, R16, R87, R260). -/

/-- Lines that a core's register cache holds: those of the threads that have not exited. -/
def State.cachedLines (s : State) (core : Nat) : Nat :=
  ((s.wgs.filter (·.core == core)).flatMap fun g => (g.threads.filter (·.run != .exited)).map fun t =>
    imageLines g.regs - t.out.length + if t.resident then 1 else 0).foldl (· + ·) 0

/-- 1 MiB of lines (R7). -/
def cacheLines : Nat := 16384

/-- Register lines that a full cache may give up: none that awaits a result, none of a lessee (R157), none of a thread that
is being filled; state lines stay (log 68). -/
def State.victims (s : State) (core slot tid : Nat) : List (Workgroup × Thread × Nat) :=
  let leased (g : Workgroup) (t : Thread) : Bool := s.m.leases.any fun l => l.state == .held && l.who.core == core && l.who.slot == g.slot &&
    l.who.tid == t.tid && l.who.uid == g.uid
  (s.wgs.filter (·.core == core)).flatMap fun g => (g.threads.filter fun t => t.run != .exited && !(g.slot == slot && t.tid == tid) &&
    !leased g t).flatMap fun t =>
      ((List.range (imageLines g.regs)).filter fun l => !t.out.contains l && !t.pinned s.now l).map fun l => (g, t, l)

/-- IA of a thread's poison bits in the save area (R258). -/
def Workgroup.poisonAt (g : Workgroup) (tid : Nat) : Nat := g.save + 0x800 + 48 * tid

/-- A register line is written to its image, with the thread's poison bits, and leaves the cache. -/
def State.evictLine (s : State) (g : Workgroup) (t : Thread) (l : Nat) : Except State State :=
  match s.imageWrite g.ctx (g.lineAt t.tid l) (plainBytes (t.line l)) with
  | .error s => .error s
  | .ok s => match s.imageWrite g.ctx (g.poisonAt t.tid) (plainBytes (leBytes 48 (bitsOf (t.v.map (·.poi))))) with
    | .error s => .error s
    | .ok s =>
      let gone (c : VCell × Nat) : VCell := if c.2 / 16 == l then { c.1 with img := true } else c.1
      .ok (s.modThread g.core g.slot t.tid fun t => { t with out := nsInsert l t.out, v := t.v.zipIdx.map gone })

/-- Room for n lines: lines of other threads go until they fit. -/
def State.makeRoom (s : State) (core slot tid n : Nat) : Nat → Except State State
  | 0 => if s.cachedLines core + n ≤ cacheLines then .ok s else .error s
  | k + 1 =>
    if s.cachedLines core + n ≤ cacheLines then .ok s
    else
      let l := s.victims core slot tid
      match l[Config.lineVictim s.now % l.length]? with
      | none => .error s
      | some v => match s.evictLine v.1 v.2.1 v.2.2 with
        | .error s => .error s
        | .ok s => s.makeRoom core slot tid n k

/-- A register line comes into the cache. -/
def State.fillLine (g : Workgroup) (t : Thread) (s : State) (l : Nat) : Except State State :=
  if !t.inImage l then .ok (s.modThread g.core g.slot t.tid fun t => { t with out := t.out.filter (· != l) })
  else match s.imageRead g.ctx (g.lineAt t.tid l) 64 with
    | .error s => .error s
    | .ok q => .ok (q.1.modThread g.core g.slot t.tid (Thread.reloadLine l q.2))

/-- A thread's state line comes into the cache, and the thread goes on as it says; an exited one is done. -/
def State.fillState (s : State) (g : Workgroup) (t : Thread) : Except State State :=
  if !t.saved then .ok (s.modThread g.core g.slot t.tid fun t => { t with resident := true })
  else if t.patch.isSome then s.patchLine g t
  else match s.imageRead g.ctx (g.lineAt t.tid (imageLines g.regs)) 64 with
    | .error s => .error s
    | .ok q => match q.1.imageRead g.ctx (g.poisonAt t.tid) 48 with
      | .error s => .error s
      | .ok p =>
        if q.2.any (·.2) then .ok (p.1.stateError g.core g.slot)
        else
          let x := (pnum q.2).1
          let s := p.1.modThread g.core g.slot t.tid fun t => (t.reloadPoison (pnum p.2).1).fromLine x
          .ok (if fld x 56 2 == 3 then s.exitThread g t else s)

/-- At resume a trap-pending thread's record is cleared (R261), in the line that its image has too. -/
def Thread.goOn (t : Thread) : Thread := { t.resume with cleared := t.saved, late := false }

/-- A context runs again; its threads' lines come back on demand (R260). -/
def State.toRunning (s : State) (ctx : Nat) : State :=
  let c := s.ctx ctx
  let s := s.setCtx ctx { c with state := .running, halt := {} }
  let clear (x : MLast) : MLast := if x.ctx == ctx then { x with skid := [] } else x
  let wake (g : Workgroup) : Workgroup := if g.ctx == ctx then { g with threads := g.threads.map Thread.goOn } else g
  { s with wgs := s.wgs.map wake, e := { s.e with last := s.e.last.map clear } }

/-- What a fill comes to: done, or waiting for memory. -/
def fillDone (r : Except State State) : Host.Outcome State Fault Refusal :=
  match r with
  | .ok s => .next s
  | .error s => .next s

/-- REGISTER_CACHE_FILL: a thread's state line, or the register lines that it misses, are back (R16, R87, R260). -/
def execRegisterCacheFill (core slot tid : Nat) (s : State) : Host.Outcome State Fault Refusal :=
  match s.wg? core slot with
  | none => .next s
  | some g => match g.thread? tid with
    | none => .next s
    | some t =>
      if !(s.ctx g.ctx).runs || t.run == .exited then .next s
      else if !t.resident then
        fillDone (match s.makeRoom core slot tid 1 1 with
          | .error s => .error s
          | .ok s => s.fillState g t)
      else match t.run with
        | .blocked (.miss need) =>
          fillDone (match s.makeRoom core slot tid need.length need.length with
            | .error s => .error s
            | .ok s => match eachCtx (State.fillLine g t) need s with
              | .error s => .error s
              | .ok s => .ok (s.modThread core slot tid fun t => { t with run := .runnable }))
        | _ => .next s

/-- Watches, slots, entries, commands, requests and workgroups of a context go (R259). -/
def State.dropCtx (s : State) (ctx : Nat) : State :=
  let s := (s.e.slots.filter (·.ctx == ctx)).foldl (fun s q => match s.evictSlot q with
    | .ok s => s
    | _ => s) s
  let logged (w : WEnt) : Bool := match w.state with
    | .logged _ => true
    | _ => false
  let m := { s.m with
    writes := s.m.writes.filter fun w => !(w.ctx == ctx && (logged w || (s.missing? w.home w.ctx w.ia).isSome))
    reads := s.m.reads.filter (·.ctx != ctx), atoms := s.m.atoms.filter (·.ctx != ctx)
    waits := s.m.waits.filter (·.ctx != ctx), leases := s.m.leases.filter (·.ctx != ctx)
    missing := s.m.missing.filter (·.ctx != ctx), watches := s.m.watches.filter (·.ctx != ctx)
    cache := s.m.cache.filter (·.ctx != ctx), icache := s.m.icache.filter (·.ctx != ctx)
    icinv := s.m.icinv.filter (·.ctx != ctx) }
  let e := { s.e with
    entries := s.e.entries.filter (·.ctx != ctx), last := s.e.last.filter (·.ctx != ctx)
    slots := s.e.slots.filter (·.ctx != ctx), cmds := s.e.cmds.filter (·.ctx != ctx)
    toks := s.e.toks.filter (·.ctx != ctx), tokNext := s.e.tokNext.filter (·.ctx != ctx)
    streams := s.e.streams.filter (·.ctx != ctx), sessions := s.e.sessions.filter (·.ctx != ctx)
    packets := s.e.packets.filter fun p => s.e.cmds.all fun c => c.id != p.cmd || c.ctx != ctx }
  let y := { s.y with
    launches := s.y.launches.filter (·.ctx != ctx), clbars := s.y.clbars.filter (·.ctx != ctx) }
  let s := { s with m := m, e := e, y := y, wgs := s.wgs.filter (·.ctx != ctx), perf := s.perf.filter (·.ctx != ctx) }
  s.setCtx ctx Context.fresh

/-- CONTEXT_CREATION: the supervisor makes a context of a free one; its registers stand as the host has written them. -/
def execContextCreation (ctx : Nat) (s : State) : Host.Outcome State Fault Refusal :=
  let c := s.ctx ctx
  .next (if c.state == .free then s.setCtx ctx { c with state := .running, ctl := c.ctl ||| 1 } else s)

/-! ctxsw, stopr, halt, resume (R270). -/

/-- A supervisor's operation on another context: 2 for its own; else the operation's status. -/
def Env.onCtx (e : Env) (d : Option Nat) (a : Src) (f : State → Nat → Context → State × Word) : Res :=
  match e.target a with
  | none => illegal
  | some k =>
    if !e.sup then illegal
    else if k == e.g.ctx then .done (e.giveV e.s d 2)
    else
      let r := f e.s k (e.s.ctx k)
      .done (e.giveV r.1 d r.2)

def execCtxswOut (h : Hdr) (d : Option Nat) (a : Src) (s : State) : Host.Outcome State Fault Refusal :=
  threadOp (.ctxswOut h d a) (fun e => e.onCtx d a fun s k c => match c.state with
    | .running => (s.raiseHalt k 6 0, 0)
    | .halted => (s.setCtx k { c with state := .out }, 0)
    | _ => (s, 1)) s

def execCtxswIn (h : Hdr) (d : Option Nat) (a : Src) (s : State) : Host.Outcome State Fault Refusal :=
  threadOp (.ctxswIn h d a) (fun e => e.onCtx d a fun s k c => match c.state with
    | .out =>
      if c.halt.pendingOut then
        (s.setCtx k { c with state := .halted, halt := { c.halt with pendingOut := false, high := true, complete := true } }, 0)
      else (s.toRunning k, 0)
    | _ => (s, 1)) s

def execCtxswDrop (h : Hdr) (d : Option Nat) (a : Src) (s : State) : Host.Outcome State Fault Refusal :=
  threadOp (.ctxswDrop h d a) (fun e => e.onCtx d a fun s k c => match c.state with
    | .halted | .out => (s.dropCtx k, 0)
    | _ => (s, 1)) s

/-- The status word of stopr. -/
def Context.stopWord (c : Context) : Word :=
  let b (x : Bool) (n : Nat) : Nat := if x then 2 ^ n else 0
  BitVec.ofNat 32 (c.state.code * 2 ^ 28 + b c.halt.high 27 + b c.halt.complete 26 + b c.halt.pendingOut 25 +
    min c.halt.records 4095 * 2 ^ 13)

def execStopr (h : Hdr) (d : Nat) (a : Src) (s : State) : Host.Outcome State Fault Refusal :=
  threadOp (.stopr h d a) (fun e => match e.target a with
    | none => illegal
    | some k => if !e.sup then illegal else .done (e.giveV e.s (some d) (e.s.ctx k).stopWord)) s

def execHalt (h : Hdr) (code : Nat) (d : Option Nat) (a : Src) (s : State) : Host.Outcome State Fault Refusal :=
  threadOp (.halt h code d a) (fun e => e.onCtx d a fun s k c =>
    (s.raiseHalt k 2 code, if c.state == .running then 0 else 1)) s

def execResume (h : Hdr) (d : Option Nat) (a : Src) (s : State) : Host.Outcome State Fault Refusal :=
  threadOp (.resume h d a) (fun e => e.onCtx d a fun s k c => match c.state with
    | .halted => (s.toRunning k, 0)
    | _ => (s, 1)) s

/-! Eviction and return (R258, R260). -/

/-- Bytes of accumulator tiles, row-major. -/
def accBytes (l : List (List PWord)) : List PByte := l.flatMap fun t => t.flatMap fun x => pbytes 4 x.val.toNat false

/-- CONTEXT_EVICT: an Out context's tile-store partition and accumulator tiles go to its save area. DESIGN CHOICE: its pending
matrix entries stay in the core's table, where R205 allows that or a place in the context image, and keep their index (log 90). -/
def State.evictWg (s : State) (g : Workgroup) : Except State State :=
  match s.imageWrite g.ctx (g.save + g.tileOffset) (plainBytes g.tile ++ accBytes g.acc) with
  | .error s => .error s
  | .ok s => .ok (s.modWg g.core g.slot fun g => { g with resident := false })

/-- Its tile-store partition and accumulator tiles may go to its save area (R109, R260). -/
def State.evictable (s : State) (g : Workgroup) : Bool := (s.ctx g.ctx).state == .out && g.resident && !s.finished g

def execContextEvict (core slot : Nat) (s : State) : Host.Outcome State Fault Refusal :=
  match s.wg? core slot with
  | none => .next s
  | some g =>
    if !s.evictable g then .next s
    else match s.evictWg g with
      | .ok s => .next s
      | .error s => .next s

/-- Workgroups whose partitions and tiles are on a core, but for those in the slots named. -/
def State.holders (s : State) (core : Nat) (gone : List Nat) : List Workgroup :=
  s.wgs.filter fun g => g.core == core && g.resident && !s.finished g && !gone.contains g.slot

/-- Granules of a tile store that partitions take, as (first, count). -/
def spans (l : List Workgroup) : List (Nat × Nat) := l.map fun g => (g.tileBase, g.tile.length / 1024)

/-- Accumulator tiles that workgroups leave free, of 48 (R186). -/
def tilesFree (l : List Workgroup) : Nat := 48 - (l.map (·.accum)).foldl (· + ·) 0

/-- Granules of a core's 512 KiB tile store that resident partitions take. -/
def State.partitions (s : State) (core : Nat) : List (Nat × Nat) := spans (s.holders core [])

/-- First granule of a free contiguous run of n (R109). -/
def freeRun (taken : List (Nat × Nat)) (n : Nat) : Option Nat :=
  (List.range (513 - n)).find? fun b => taken.all fun t => t.2 == 0 || n == 0 || !overlaps (b, n) t

def State.freeTiles (s : State) (core : Nat) : Nat := tilesFree (s.holders core [])

/-- PARTITION_RETURN: the partition and the tiles are back, in any free granules and tiles. -/
def execPartitionReturn (core slot : Nat) (s : State) : Host.Outcome State Fault Refusal :=
  match s.wg? core slot with
  | none => .next s
  | some g =>
    let n := g.tile.length
    if !(s.ctx g.ctx).runs || g.resident || s.freeTiles core < g.accum then .next s
    else match freeRun (s.partitions core) (n / 1024), s.readIa g.ctx (g.save + g.tileOffset) (n + 16384 * g.acc.length) with
      | some b, .ok l =>
        let acc := g.acc.zipIdx.map fun q => q.1.zipIdx.map fun x =>
          let v := pnumAt l (n + 16384 * q.2 + 4 * x.2) 4
          { x.1 with val := BitVec.ofNat 32 v.1, poi := x.1.poi || v.2 }
        let bad := (List.range (n / 4)).filter fun k => ((l.drop (4 * k)).take 4).any (·.2)
        let tpoi := bad.foldl (fun p k => nsInsert k p) g.tpoi
        .next (s.modWg core slot fun g =>
          { g with resident := true, tileBase := b, tile := (l.take n).map (·.1), tpoi := tpoi, acc := acc })
      | _, .page s _ _ => .next s
      | _, .hold s => .next s
      | _, _ => .next s

/-! Thermal freeze (R262, R263). -/

def State.crit (s : State) : Nat := s.y.frzctl.toNat % 256
def State.hyst (s : State) : Nat := s.y.frzctl.toNat / 256 % 256

/-- FREEZE_START: a stack reaches the critical level, and the whole device stops. -/
def execFreezeStart (stack : Nat) (s : State) : Host.Outcome State Fault Refusal :=
  .next (if s.y.freeze.isSome || 16 ≤ stack then s
    else ({ s with y := { s.y with freeze := some { stack := stack, ptp := s.ptp } } } : State).event 7 0 (unitStack stack) 0 0)

/-- FREEZE_END: the stack reads the hysteresis below the critical level. -/
def execFreezeEnd (temp : Nat) (s : State) : Host.Outcome State Fault Refusal :=
  match s.y.freeze with
  | none => .next s
  | some f =>
    .next (if temp + s.hyst ≤ s.crit then
        ({ s with y := { s.y with freeze := none } } : State).event 8 0 (unitStack f.stack) 0 0
      else s)

/-- 48 ms in units of 2^-16 ns. -/
def freezeBound : Nat := 48000000 * 2 ^ 16

/-- The context has work on the device. -/
def State.hasWork (s : State) (ctx : Nat) : Bool :=
  s.wgs.any (·.ctx == ctx) || s.e.cmds.any (·.ctx == ctx) || s.y.launches.any (·.ctx == ctx)

/-- FREEZE_BOUND: after 48 ms the freeze becomes a thermal halt (R263). -/
def execFreezeBound (s : State) : Host.Outcome State Fault Refusal :=
  match s.y.freeze with
  | none => .next s
  | some f =>
    if s.ptp < f.ptp + freezeBound then .next s
    else
      let s := { s with y := { s.y with freeze := none, throttle := nsInsert f.stack s.y.throttle } }
      let s := ((List.range 64).filter fun c => s.hasWork c && (s.ctx c).state == .running).foldl (fun s c => s.raiseHalt c 7 0) s
      .next (s.event 9 0 (unitStack f.stack) 0 0)

/-- THROTTLE_END: a throttled stack reads at or below CRIT - HYST. -/
def execThrottleEnd (r : StackTemp) (s : State) : Host.Outcome State Fault Refusal :=
  let stack := r.stack
  .next (if s.y.throttle.contains stack && decide (r.temp + s.hyst ≤ s.crit) then
      ({ s with y := { s.y with throttle := s.y.throttle.filter (· != stack) } } : State).event 8 0 (unitStack stack) 0 0
    else s)

end Sys2Proof.Machine
end

