-- ==== Sys2Proof/Machine/Launch.lean ====
section
/-! DEFINITION. The launch front end: queues, packets, starting and placing, counters, cancel; launch, cancel, cntr, time,
waitt and their events; the return of read data (R122, R275-R281, R289). -/

namespace Sys2Proof.Machine

/-! Packets (R277). -/

namespace Packet

/-- Field of a launch packet. -/
def f (p : List Byte) (off n : Nat) : Nat := numAt p off n

def entry (p : List Byte) : Nat := f p 0 8
def counts (p : List Byte) : Nat × Nat × Nat := (f p 8 4, f p 0xC 4, f p 0x10 4)
def shape (p : List Byte) : Nat × Nat × Nat := (f p 0x14 2, f p 0x16 2, f p 0x18 2)
def cls (p : List Byte) : Nat := f p 0x1A 1
def flags (p : List Byte) : Nat := f p 0x1B 1
def regs (p : List Byte) : Nat := f p 0x1C 2
def tiles (p : List Byte) : Nat := f p 0x20 4
def accum (p : List Byte) : Nat := f p 0x24 1
def start (p : List Byte) : Nat := f p 0x28 8
def waitWord (p : List Byte) : Nat := f p 0x30 8
def waitValue (p : List Byte) : Nat := f p 0x38 8
def ctx (p : List Byte) : Nat := f p 0x4C 4

def prod (x : Nat × Nat × Nat) : Nat := x.1 * x.2.1 * x.2.2
def total (p : List Byte) : Nat := prod (counts p)
def threads (p : List Byte) : Nat := prod (shape p)

def wt (p : List Byte) : Bool := flags p % 2 == 1
def wsrc (p : List Byte) : Bool := flags p / 2 % 2 == 1
def st (p : List Byte) : Bool := flags p / 4 % 2 == 1
def qb (p : List Byte) : Bool := flags p / 8 % 2 == 1
def xa (p : List Byte) : Bool := flags p / 16 % 2 == 1

/-- Graph, phase and job ids that the packet names, with their levels. -/
def ids (p : List Byte) : List (Nat × Nat) :=
  [(1, f p 0x40 4), (2, f p 0x44 4), (3, f p 0x48 4)].filter fun q => q.2 != 0

def within (lo hi x : Nat) : Bool := decide (lo ≤ x) && decide (x ≤ hi)

/-- A field outside its limits: code 1. -/
def bad (p : List Byte) : Bool :=
  let c := counts p
  let h := shape p
  entry p % 8 != 0 || c.1 == 0 || c.2.1 == 0 || c.2.2 == 0 || decide (2 ^ 48 - 1 < total p) ||
  !within 1 2048 h.1 || !within 1 2048 h.2.1 || !within 1 2048 h.2.2 || decide (2048 < threads p) ||
  decide (3 < cls p) || decide (31 < flags p) || decide (383 < regs p) || f p 0x1E 2 != 0 ||
  tiles p % 1024 != 0 || decide (524288 < tiles p) || decide (48 < accum p) || f p 0x25 3 != 0 ||
  (!st p && start p != 0) || (xa p && wt p) ||
  (!xa p && (if wsrc p then waitWord p / 4 % 2 ^ 30 != 0 else waitWord p % 8 != 0))

/-- Code that refuses the packet when it is taken, of queue context k (log 16). -/
def code (c : Context) (k : Nat) (p : List Byte) : Option Nat :=
  let execOk := match c.match? (BitVec.ofNat 64 (entry p)) with
    | some r => r.x
    | none => false
  let waitOk := !wt p || wsrc p || c.passes (waitWord p) .read
  lowCode [(1, bad p), (2, ctx p != k), (3, !execOk), (4, !waitOk)]

end Packet

/-! Counters (R279). -/

def Context.counter? (c : Context) (level id : Nat) : Option Counter :=
  c.counters.find? fun k => k.level == level && k.id == id

/-- A launch id whose counter has been reused. -/
def Context.reused (c : Context) (level id : Nat) : Bool :=
  level == 0 && id != 0 && decide (id < c.nextLid) && (c.counter? level id).isNone

/-- A taken packet that names the counter has not started. -/
def State.awaited (s : State) (ctx level id : Nat) : Bool :=
  s.y.queues.any fun q => match q.taken with
    | some p => Packet.ctx p == ctx && (Packet.ids p).contains (level, id)
    | none => false

def State.isDone (s : State) (ctx : Nat) (k : Counter) : Bool :=
  decide (0 < k.total) && k.done == k.total && !s.awaited ctx k.level k.id

/-- A word of a counter: 0 DONE, 1 TOTAL, 2 FLAGS; 0 where the id names none. -/
def State.counterWord (s : State) (ctx level id word : Nat) : Nat :=
  let c := s.ctx ctx
  match c.counter? level id with
  | some k => match word with
    | 0 => k.done
    | 1 => k.total
    | _ => (if s.isDone ctx k then 1 else 0) + if k.cancelled then 2 else 0
  | none => if c.reused level id then (if word < 2 then 2 ^ 64 - 1 else 1) else 0

def sat64 (n : Nat) : Nat := min n (2 ^ 64 - 1)

/-- Counters of a context changed. -/
def State.modCounters (s : State) (ctx : Nat) (f : List Counter → List Counter) : State :=
  let c := s.ctx ctx
  s.setCtx ctx { c with counters := f c.counters }

/-- Add to DONE and TOTAL of the counters named. -/
def State.count (s : State) (ctx : Nat) (keys : List (Nat × Nat)) (done total : Nat) : State :=
  s.modCounters ctx fun l => l.map fun k =>
    if keys.contains (k.level, k.id) then { k with done := sat64 (k.done + done), total := sat64 (k.total + total) } else k

/-- Counters for the ids of a packet that have none. -/
def State.openCounters (s : State) (ctx : Nat) (keys : List (Nat × Nat)) : State :=
  s.modCounters ctx fun l => keys.foldl (fun l q =>
    if l.any (fun k => k.level == q.1 && k.id == q.2) then l
    else l ++ [{ level := q.1, id := q.2, done := 0, total := 0, cancelled := false, order := 0 }]) l

/-- The packet that was to open counters has no effect: those that count nothing and that no other packet awaits go (R276). -/
def State.closeCounters (s : State) (ctx : Nat) (keys : List (Nat × Nat)) : State :=
  let idle (k : Counter) : Bool := keys.contains (k.level, k.id) && k.total == 0 && !s.awaited ctx k.level k.id
  s.modCounters ctx fun l => l.filter fun k => !idle k

/-- Room for the ids of a packet among the 192 shared counters. -/
def Context.roomFor (c : Context) (keys : List (Nat × Nat)) : Bool :=
  let new := keys.filter fun q => (c.counter? q.1 q.2).isNone
  decide ((c.counters.filter (·.level != 0)).length + new.length ≤ 192)

/-- The launch counters with room for one more: at 64, the oldest complete one is reused. -/
def State.launchRoom (s : State) (ctx : Nat) : Option (List Counter) :=
  let c := s.ctx ctx
  let mine := c.counters.filter (·.level == 0)
  if mine.length < 64 then some c.counters
  else match (mine.filter (s.isDone ctx)).foldl (fun a k => match a with
      | none => some k
      | some b => if k.order < b.order then some k else a) (none : Option Counter) with
    | some k => some (c.counters.filter (· != k))
    | none => none

/-! Queue registers (R275, R289). -/

/-- A host write of a queue register; reserved offsets ignore it. -/
def Queue.write (off : Nat) (x : DWord) (q : Queue) : Queue :=
  match off with
  | 0x00 => { q with base := x &&& 0x000FFFFFFFFFF000 }
  | 0x08 => { q with ctl := x.setWidth 32 &&& 0xFFF9 }
  | 0x0C =>
    let v : Word := x.setWidth 32
    if !q.en then { q with head := v, tail := v } else if q.dev then q else { q with tail := v }
  | 0x14 => { q with err := 0 }
  | _ => q

def execQtailWrite (q : Nat) (val : BitVec 32) (s : State) : Host.Outcome State Fault Refusal :=
  .next (match s.y.queues[q]? with
    | some x => if x.en then s.modQueue q (Queue.write 0x0C (val.setWidth 64)) else s
    | none => s)

def execQtailReset (q : Nat) (val : BitVec 32) (s : State) : Host.Outcome State Fault Refusal :=
  .next (match s.y.queues[q]? with
    | some x => if x.en then s else s.modQueue q (Queue.write 0x0C (val.setWidth 64))
    | none => s)

def execQerrClear (q : Nat) (s : State) : Host.Outcome State Fault Refusal := .next (s.modQueue q (Queue.write 0x14 0))

/-! Taking and starting (R276, R278). -/

/-- PACKET_TAKE: the next packet of a queue is read and checked; a failing one is refused. -/
def execPacketTake (q : Nat) (s : State) : Host.Outcome State Fault Refusal :=
  match s.y.queues[q]? with
  | none => .next s
  | some x =>
    let n := x.head.toNat
    if !x.live || x.taken.isSome || x.head == x.tail then .next s
    else match s.readIa x.ctx (x.slot n) 128 with
      | .hold s => .next s
      | .page s _ _ => .next s
      | .viol ia a => .next ((s.violation x.ctx ia a 0).modQueue q (Queue.refuse 5 n))
      | .ok l =>
        let p := l.map (·.1)
        if l.any (·.2) then .next (s.modQueue q (Queue.refuse 5 n))
        else match Packet.code (s.ctx x.ctx) x.ctx p with
          | some k => .next (s.modQueue q (Queue.refuse k n))
          | none =>
            if !(s.ctx x.ctx).roomFor (Packet.ids p) || (s.launchRoom x.ctx).isNone then .next s
            else
              let s := s.modQueue q fun x => { x with head := x.head + 1, taken := some p, takenN := n }
              .next (s.openCounters x.ctx (Packet.ids p))

/-- Whether the wait of a held packet is satisfied; a poisoned wait word, or one an access table refuses, refuses it. -/
inductive WaitRes where
  | yes
  | no (s : State)
  | refuse (s : State) (code : Nat)

def State.waitDone (s : State) (ctx : Nat) (p : List Byte) : WaitRes :=
  let w := Packet.waitWord p
  let enough (n : Nat) : WaitRes := if Packet.waitValue p ≤ n then .yes else .no s
  if !Packet.wt p then .yes
  else if Packet.wsrc p then enough (s.counterWord ctx (w % 4) (w / 2 ^ 32) 0)
  else match s.readVa s.nextId ctx (BitVec.ofNat 64 w) 8 with
    | .ok (some l) => if l.any (·.2) then .refuse s 1 else enough (pnum l).1
    | .ok none => .refuse s 4
    | .hold s => .no s
    | .page s _ _ => .no s
    | .viol ia a => .refuse (s.violation ctx ia a 0) 4

/-- Launch ids count up and skip 0. -/
def nextLaunchId (n : Nat) : Nat := if n + 1 == 2 ^ 32 then 1 else n + 1

/-- The packet starts: it gets a launch id and a counter, and its workgroups wait for places. -/
def State.startLaunch (s : State) (q : Nat) (x : Queue) (p : List Byte) (counters : List Counter) : State :=
  let k := Packet.ctx p
  let c := s.ctx k
  let lid := c.nextLid
  let n := Packet.total p
  let cnt : Counter := { level := 0, id := lid, done := 0, total := n, cancelled := false, order := s.y.nextStart }
  let s := s.setCtx k { c with nextLid := nextLaunchId lid, counters := counters ++ [cnt] }
  let s := s.count k (Packet.ids p) 0 n
  let cls := min (Packet.cls p) (min x.cls (fld c.ctl.toNat 6 2))
  let l : Launch := { ctx := k, lid := lid, q := q, cls := cls, pkt := p, nextFlat := 0, total := n, left := n
                      started := s.y.nextStart, dropped := false }
  let s := { s with y := { s.y with launches := s.y.launches ++ [l], nextStart := s.y.nextStart + 1 } }
  s.modQueue q fun x => { x with taken := none }

/-- LAUNCH_START: every enabled condition of a held packet holds (R278). -/
def execLaunchStart (q : Nat) (s : State) : Host.Outcome State Fault Refusal :=
  match s.y.queues[q]? with
  | none => .next s
  | some x =>
    match x.taken with
    | none => .next s
    | some p =>
      let k := Packet.ctx p
      match s.waitDone k p with
      | .no s => .next s
      | .refuse s c => .next ((s.modQueue q (Queue.refuse c x.takenN)).closeCounters k (Packet.ids p))
      | .yes =>
        if (Packet.qb p && s.y.launches.any (·.q == q)) || (Packet.st p && decide (s.ptpNs < Packet.start p)) then .next s
        else match s.launchRoom k with
          | none => .next s
          | some l => .next (s.startLaunch q x p l)

/-! Placing (R96, R109, R186, R258, R277, R278). -/

/-- Bytes of a save area, to the next register line (R258). -/
def saveBytes (threads tiles accum : Nat) : Nat :=
  if tiles == 0 && accum == 0 then (0x800 + 48 * threads + 63) / 64 * 64
  else (0x800 + 48 * threads + 4095) / 4096 * 4096 + tiles + 16384 * accum

/-- A workgroup's block of the pool: the save area, then its images, in whole 4 KiB. -/
def blockBytes (threads regs tiles accum : Nat) : Nat :=
  (saveBytes threads tiles accum + 64 * (imageLines regs + 1) * threads + 4095) / 4096 * 4096

def Workgroup.block (g : Workgroup) : Nat × Nat :=
  (g.save, blockBytes g.threads.length g.regs g.tile.length g.acc.length)

/-- First place of the pool with room for n bytes; a finished workgroup's images are free (R87). -/
def State.poolFor (s : State) (ctx n : Nat) : Option Nat :=
  let c := s.ctx ctx
  let lo := c.ctximg.toNat + 0x840000
  let hi := c.ctximg.toNat + c.ctxlen.toNat
  let used := (s.wgs.filter fun g => g.ctx == ctx && !s.finished g).map Workgroup.block
  (lo :: used.map fun b => b.1 + b.2).find? fun b =>
    decide (lo ≤ b) && decide (b + n ≤ hi) && used.all fun u => !overlaps (b, n) u

/-- Thread slots of a quarter in use (R87). -/
def State.slotsUsed (s : State) (core q : Nat) : Nat :=
  ((s.wgs.filter (·.core == core)).map fun g => (g.threads.filter fun t => t.tid % 4 == q && t.run != .exited).length).foldl (· + ·) 0

/-- Where a workgroup of a packet goes on a core: slot, first granule, pool block, and the slots of the workgroups whose
partitions and tiles are evicted first. -/
structure Place where
  slot : Nat
  gran : Nat
  block : Nat
  evict : List Nat

/-- First granule of n free ones beside free accumulator tiles, and what is evicted for them: as few as will do of the
workgroups of contexts that are Out, in order of placement (R109, R260, log 77). -/
def State.roomOn (s : State) (core n accum : Nat) : Option (Nat × List Nat) :=
  let out := (s.wgs.filter fun g => g.core == core && s.evictable g).map (·.slot)
  (List.range (out.length + 1)).findSome? fun k =>
    let l := s.holders core (out.take k)
    if tilesFree l < accum then none else (freeRun (spans l) n).map fun g => (g, out.take k)

/-- Where a launch's next workgroup may go on a core. Free space alone decides: DEDUCED, the 16 workgroups that R15 names for a
cluster bound no placement (R278, R310, log 76). -/
def State.placeOn (s : State) (l : Launch) (core : Nat) : Option Place :=
  let p := l.pkt
  let n := Packet.threads p
  let fits := (List.range 4).all fun q => decide (s.slotsUsed core q + (n + 3 - q) / 4 ≤ 1024)
  let die := s.y.dies.getD (dieOf core) {}
  if die.st != .running || die.rst || die.gate || 256 ≤ core || !fits then none
  else match (List.range 16).find? fun k => (s.wg? core k).isNone, s.roomOn core (Packet.tiles p / 1024) (Packet.accum p),
      s.poolFor l.ctx (blockBytes n (Packet.regs p) (Packet.tiles p) (Packet.accum p)) with
    | some k, some g, some b => some { slot := k, gran := g.1, block := b, evict := g.2 }
    | _, _, _ => none

/-- The place is made: partitions and tiles go, and the register cache has room for the threads' state lines. -/
def State.clearPlace (s : State) (core threads : Nat) (a : Place) : Except State State :=
  match eachCtx State.evictWg (s.wgs.filter fun g => g.core == core && a.evict.contains g.slot) s with
  | .error s => .error s
  | .ok s => s.makeRoom core a.slot 0 threads threads

/-- Its register lines start outside the register cache where that has no room for them (R16). -/
def Workgroup.uncached (g : Workgroup) : Workgroup :=
  { g with threads := g.threads.map fun t => { t with out := List.range (imageLines g.regs) } }

/-- A placed workgroup's lines as the register cache takes them. -/
def State.cacheNew (s : State) (g : Workgroup) : Workgroup :=
  if s.cachedLines g.core + g.threads.length * (imageLines g.regs + 1) ≤ cacheLines then g else g.uncached

/-- The launch that goes first: highest class, then earliest start. -/
def Launch.before (a b : Launch) : Bool := decide (b.cls < a.cls) || (a.cls == b.cls && decide (a.started < b.started))

/-- A launch with a workgroup still to place. -/
def State.unplaced (s : State) (l : Launch) : Bool := decide (l.nextFlat < l.total) && (s.ctx l.ctx).runs

/-- A thread at placement: registers, predicates and flags 0. -/
def newThread (regs tid now : Nat) (entry : DWord) : Thread :=
  { tid := tid, v := List.replicate (regs + 1) {}, p := List.replicate 7 {}, pc := entry, next := now
    conv := List.replicate 16 {}, bars := List.replicate 16 {}, cbars := List.replicate 8 {} }

/-- The workgroup of a flat index at placement. -/
def newWorkgroup (l : Launch) (core now uid : Nat) (a : Place) : Workgroup :=
  let p := l.pkt
  let n := Packet.threads p
  let c := Packet.counts p
  let entry : DWord := BitVec.ofNat 64 (Packet.entry p)
  let wval (k : Nat) : Word :=
    if k < 12 then BitVec.ofNat 32 (Packet.f p (0x50 + 4 * k) 4)
    else if Packet.xa p && k < 16 then BitVec.ofNat 32 (Packet.f p (0x30 + 4 * (k - 12)) 4) else 0
  { core := core, slot := a.slot, uid := uid, ctx := l.ctx, lid := l.lid, flat := l.nextFlat
    wgid := (l.nextFlat % c.1, l.nextFlat / c.1 % c.2.1, l.nextFlat / (c.1 * c.2.1))
    nwg := c, shape := Packet.shape p, cls := l.cls, regs := Packet.regs p, accum := Packet.accum p, tileBase := a.gran
    ids := (Packet.f p 0x40 4, Packet.f p 0x44 4, Packet.f p 0x48 4), entry := entry
    threads := (List.range n).map fun t => newThread (Packet.regs p) t now entry
    w := (List.range 64).map fun k => { base := wval k }
    c := List.replicate 16 {}, b := List.replicate 16 {}, k := List.replicate 16 { base := 0 }
    sa := List.replicate 4 { base := List.replicate 64 {} }, sb := List.replicate 4 { base := {} }
    mcls := { base := l.cls }
    tile := List.replicate (Packet.tiles p) 0, tpoi := [], gran := List.replicate (Packet.tiles p / 1024) {}
    acc := List.replicate (Packet.accum p) (List.replicate 4096 {})
    save := a.block, image := a.block + saveBytes n (Packet.tiles p) (Packet.accum p)
    stride := 64 * (imageLines (Packet.regs p) + 1) }

/-- A workgroup header (R258). -/
def Workgroup.header (g : Workgroup) : List Byte :=
  leBytes 8 g.save ++ leBytes 8 g.image ++ leBytes 4 g.lid ++ leBytes 2 g.threads.length ++ leBytes 2 g.stride ++
  List.replicate 40 0

def State.headerAt (s : State) (ctx core slot : Nat) : Nat := (s.ctx ctx).ctximg.toNat + 64 * (16 * core + slot)

/-- WG_PLACE: the next workgroup of a launch goes onto a core, unless a launch before it fits there. What is in the way of
it is evicted first. -/
def execWgPlace (ctx lid core : Nat) (s : State) : Host.Outcome State Fault Refusal :=
  match s.y.launches.find? fun l => l.ctx == ctx && l.lid == lid with
  | none => .next s
  | some l =>
    let ahead := s.y.launches.any fun x => s.unplaced x && x.before l && (s.placeOn x core).isSome
    if !s.unplaced l || ahead then .next s
    else match s.placeOn l core with
      | none => .next s
      | some a => match s.clearPlace core (Packet.threads l.pkt) a with
        | .error s => .next s
        | .ok s =>
          let g := newWorkgroup l core s.now s.nextId a
          match s.fresh.imageWrite ctx (s.headerAt ctx core a.slot) (plainBytes g.header) with
          | .error s => .next s
          | .ok s =>
            let next (x : Launch) : Launch := if x.ctx == ctx && x.lid == lid then { x with nextFlat := x.nextFlat + 1 } else x
            .next { s with wgs := s.wgs ++ [s.cacheNew g], y := { s.y with launches := s.y.launches.map next } }

/-! Completing (R87, R279). -/

/-- Counters of a workgroup. -/
def Workgroup.keys (g : Workgroup) : List (Nat × Nat) :=
  (0, g.lid) :: [(1, g.ids.1), (2, g.ids.2.1), (3, g.ids.2.2)].filter fun q => q.2 != 0

/-- The workgroup's release at .sys is complete: nothing it issued is under way. -/
def State.released (s : State) (g : Workgroup) : Bool :=
  let mine (w : Who) : Bool := w.core == g.core && w.slot == g.slot && w.uid == g.uid
  s.m.writes.all (fun w => !mine w.who) && s.m.reads.all (fun r => !mine r.who || r.kind == .pref) &&
  s.m.atoms.all (fun a => a.lanes.all fun l => !mine l.who) && s.m.leases.all fun l => !mine l.who

/-- n workgroups of a launch are done with. -/
def State.leaveLaunch (s : State) (ctx lid n : Nat) : State :=
  let less (x : Launch) : Launch := if x.ctx == ctx && x.lid == lid then { x with left := x.left - n } else x
  let ls := s.y.launches.map less
  let gone := ls.any fun x => x.ctx == ctx && x.lid == lid && x.left == 0
  { s with y := { s.y with
    launches := ls.filter (·.left != 0)
    clbars := if gone then s.y.clbars.filter (fun b => !(b.ctx == ctx && b.lid == lid)) else s.y.clbars } }

/-- WG_COMPLETE: DONE rises in every counter of the workgroup in one instant. -/
def execWgComplete (core slot : Nat) (s : State) : Host.Outcome State Fault Refusal :=
  match s.wg? core slot with
  | none => .next s
  | some g =>
    if !s.finished g || !s.released g then .next s
    else match s.imageWrite g.ctx (s.headerAt g.ctx core slot) (plainBytes (List.replicate 64 0)) with
      | .error s => .next s
      | .ok s =>
        let s := { s with wgs := s.wgs.filter fun x => !(x.core == core && x.slot == slot) }
        .next ((s.count g.ctx g.keys 1 0).leaveLaunch g.ctx g.lid 1)

/-! Cancel (R206, R226, R247, R280). -/

/-- A command of a hard-cancelled workgroup: a running one of a Retriever stops as at a halt, what is on the wire to another
chip goes on, every other goes; no arrival word changes (R247). DESIGN CHOICE: cstat reads it as complete, with what it had
counted (log 92). -/
def State.cancelCmd (s : State) (id : Nat) (running : Bool) : State :=
  let get (s : State) : Option Cmd := s.e.cmds.find? (·.id == id)
  let s := s.modCmd id fun c => { c with b := BitVec.ofNat 32 noWord, dst := none }
  let s := match get s with
    | some c => if running && c.eng == 0 then s.partCmd c else s
    | none => s
  match get s, s.e.packets.find? (·.cmd == id) with
  | none, _ => s
  | some c, none => (s.dropCmd c).setTok c 0 c.counted
  | some c, some p =>
    if !p.get && p.bytes ≤ p.held then ((s.dropPacket id).dropCmd c).setTok c 0 (c.sent - p.bytes)
    else
      let wire (q : Packet) : Packet := if q.cmd == id then { q with bytes := q.bytes - q.held, held := 0 } else q
      { s with e := { s.e with packets := s.e.packets.map wire } }

/-- What a hard cancel does to the engine work of a workgroup. -/
def State.endWork (s : State) (g : Workgroup) : State :=
  let mine (core slot uid : Nat) : Bool := core == g.core && slot == g.slot && uid == g.uid
  let compute (m : MEnt) : Bool := match m.drun with
    | some r => !r.writing
    | none => m.isDmul && m.granted.isSome
  let bad := s.e.entries.filter fun m => mine m.core m.slot m.uid && compute m
  let s := bad.foldl (fun s m => match m.op with
    | .dmul layer _ => s.modSlot m.core m.ctx layer fun q => { q with valid := false }
    | _ => s) s
  let s := s.dropEntries fun m => mine m.core m.slot m.uid && (m.granted.isNone || compute m)
  let cmds := (s.e.cmds.filter fun c => mine c.core c.slot c.uid).map fun c => (c.id, c.state == .accepted && s.e.turn c)
  cmds.foldl (fun s q => s.cancelCmd q.1 q.2) s

/-- A workgroup stops for good: leases end, waits are evicted, issued stores go on. Its threads issue nothing more, and are
gone with the cycle (Workgroup.stopped). -/
def State.hardStop (s : State) (g : Workgroup) : State :=
  let mine (w : Who) : Bool := w.core == g.core && w.slot == g.slot && w.uid == g.uid
  let s := s.modWg g.core g.slot fun g => { g with hard := true }
  let s := { s with m := { s.m with waits := s.m.waits.filter fun e => !mine e.who } }
  (s.endLeases fun l => mine l.who).endWork g

/-- The threads of a workgroup that a hard cancel has stopped, once the cycle ends. -/
def Workgroup.stopped (g : Workgroup) : Workgroup :=
  if g.hard then { g with threads := g.threads.map fun t => { t with run := .exited, arrivals := [] } } else g

/-- Unplaced workgroups of a started launch are dropped: they count in DONE. -/
def State.dropLaunch (s : State) (l : Launch) : State :=
  let n := l.total - l.nextFlat
  let mark (x : Launch) : Launch := if x.ctx == l.ctx && x.lid == l.lid then { x with nextFlat := x.total, dropped := true } else x
  let s := { s with y := { s.y with launches := s.y.launches.map mark } }
  (s.count l.ctx ((0, l.lid) :: Packet.ids l.pkt) n 0).leaveLaunch l.ctx l.lid n

/-- R280 for a counter that exists. -/
def State.cancel (s : State) (ctx level id : Nat) (hard : Bool) : State :=
  let key := (level, id)
  let s := s.modCounters ctx fun l => l.map fun k => if k.level == level && k.id == id then { k with cancelled := true } else k
  let named (q : Queue) : Bool := match q.taken with
    | some p => Packet.ctx p == ctx && (Packet.ids p).contains key
    | none => false
  let s := (s.y.queues.filterMap fun q => if named q then q.taken else none).foldl (fun s p =>
    s.count ctx (Packet.ids p) (Packet.total p) (Packet.total p)) s
  let s := { s with y := { s.y with queues := s.y.queues.map fun q => if named q then { q with taken := none } else q } }
  let ls := s.y.launches.filter fun l => l.ctx == ctx && decide (l.nextFlat < l.total) && ((0, l.lid) :: Packet.ids l.pkt).contains key
  let s := ls.foldl State.dropLaunch s
  let gs := s.wgs.filter fun g => g.ctx == ctx && g.keys.contains key
  gs.foldl (fun s g =>
    if hard then s.hardStop g
    else s.modWg g.core g.slot fun g => { g with cancel := g.cancel ||| BitVec.ofNat 32 (2 ^ level) }) s

def execCancel (h : Hdr) (hard : Bool) (lvl : Level) (a : Src) (s : State) : Host.Outcome State Fault Refusal :=
  threadOp (.cancel h hard lvl a) (fun e =>
    let id := (e.src a).toNat
    .done (if (e.ctx.counter? lvl.code id).isSome then e.s.cancel e.g.ctx lvl.code id hard else e.s)) s

/-! cntr, time, waitt (R281). -/

def execCntr (h : Hdr) (free : Bool) (word : CWord) (lvl : Level) (d : Reg) (a : Src) (s : State) :
    Host.Outcome State Fault Refusal :=
  threadOp (.cntr h free word lvl d a) (fun e =>
    let id := (e.src a).toNat
    let v := e.s.counterWord e.g.ctx lvl.code id word.code
    let gone (k : Counter) : Bool := k.level == lvl.code && k.id == id && k.level != 0 && e.s.isDone e.g.ctx k
    let s := if free then e.s.modCounters e.g.ctx fun l => l.filter fun k => !gone k else e.s
    .done (s.deliverN e.g.core e.g.slot e.t.tid d 2 v false)) s

/-- The PTP time unit keeps time in steps of 2^-16 ns. -/
def execTime (h : Hdr) (d : Nat) (s : State) : Host.Outcome State Fault Refusal :=
  threadOp (.time h d) (fun e =>
    let x := e.s.ptpNs % 2 ^ 64 + e.s.ptp % 2 ^ 16 * 2 ^ 16 * 2 ^ 64
    .done (e.s.deliverN e.g.core e.g.slot e.t.tid (.v d) 4 x false)) s

def execWaitt (h : Hdr) (a : Reg) (s : State) : Host.Outcome State Fault Refusal :=
  threadOp (.waitt h a) (fun e =>
    let t := (e.pair a).toNat
    if t ≤ e.s.ptpNs then .done e.s else .block e.s (.waitt t)) s

/-- WAITT_DEADLINE. -/
def execWaittDeadline (core slot tid : Nat) (s : State) : Host.Outcome State Fault Refusal :=
  match s.wg? core slot with
  | none => .next s
  | some g =>
    let wake (t : Thread) : Thread := match t.run with
      | .blocked (.waitt x) => if x ≤ s.ptpNs then t.past else t
      | _ => t
    .next (if (s.ctx g.ctx).runs then s.modThread core slot tid wake else s)

/-! launch (R281) and the return of read data (R122). -/

/-- launch sends the read of its packet, after a release at .dev. -/
def Env.launch (e : Env) (d : Option Nat) (a : Reg) (b : Src) : Res :=
  let va := e.pair a
  if e.s.anyOutstanding (e.releaseIds .dev) || decide (e.s.now < e.t.lastW) then .wait
  else match e.block128 va with
    | .error r => r
    | .ok (s, q) => .done (e.sendBlock s va (.launchPkt (e.src b).toNat d) .dev d q)

def execLaunch (h : Hdr) (d : Option Nat) (a : Reg) (b : Src) (s : State) : Host.Outcome State Fault Refusal :=
  threadOp (.launch h d a b) (fun e => e.launch d a b) s

/-- A launch has its packet: it answers with a status, or appends the packet to the queue's ring. -/
def State.finishLaunch (s : State) (r : RReq) (q : Nat) (d : Option Nat) : State :=
  let bs := r.bytes.map r.byteOf
  let answer (s : State) (v : Word) : State :=
    let s := (s.dropRead r.id).letGo r.who r.id
    match d with
    | some n => if s.lives r.who then s.deliver r.who.core r.who.slot r.who.tid (.v n) v false else s
    | none => s
  if bs.any (·.2) then s.failRead r 5 ((secsOf r.bytes).headD 0)
  else match if q < 64 then s.y.queues[q]? else none with
    | none => answer s 2
    | some x =>
      if !x.live || !x.dev || x.ctx != r.ctx then answer s 2
      else if 2 ^ x.size ≤ (x.tail - x.head).toNat then answer s 1
      else match s.writeIa r.ctx (x.slot x.tail.toNat) (plainBytes (bs.map (·.1))) with
        | .ok s => answer (s.modQueue q fun y => { y with tail := y.tail + 1 }) 0
        | .hold s => s
        | .page s _ _ => s
        | .viol ia a => (s.violation r.ctx ia a 0).failRead r 4 ia

/-- An earlier launch of the same instruction has not returned. -/
def State.launchBefore (s : State) (r : RReq) : Bool :=
  s.m.reads.any fun x => decide (x.id < r.id) && x.who.core == r.who.core && x.who.slot == r.who.slot && x.who.pc == r.who.pc &&
    match x.kind with
    | .launchPkt _ _ => true
    | _ => false

/-- A read that is complete does what it is for. -/
def State.finishRead (s : State) (r : RReq) : State :=
  match r.kind with
  | .load z sx d acq => (s.fillAll r).finishLoad r z sx d acq
  | .pref => (s.fillAll r).dropRead r.id
  | .vset k d => if s.vsetBefore r then s else s.finishVset r k d
  | .launchPkt q d => if s.launchBefore r then s else s.finishLaunch r q d

/-- The other chip answers a get of a read through a remote view (R117, R137, R141). -/
def State.finishFar (s : State) (r : RReq) (win : Nat) : State :=
  if !(s.ctx r.ctx).windows.any (·.n == win) then s.failRead r 4 0
  else if s.now < r.resend then s
  else match Config.farAnswer r.id r.tries % 5 with
    | 1 =>
      let again (r : RReq) : RReq := { r with held := true, tries := r.tries + 1, resend := s.now + sliceCycles 16384 }
      (s.modRead r.id again).holdThread r.who r.id
    | 2 | 3 => s.failRead r 4 0
    | 4 => if r.gather then s.failRead r 5 0 else s.finishRead r
    | _ => s.finishRead r

/-- LOAD_DATA_RETURN: every sector of a read is here; what was held on a page is delivered while the context runs. -/
def execLoadDataReturn (id : Nat) (s : State) : Host.Outcome State Fault Refusal :=
  match s.read? id with
  | none => .next s
  | some r =>
    if !r.secs.all (·.got.isSome) || (r.held && !(s.ctx r.ctx).runs) || !s.canFill r then .next s
    else .next (match r.far with
      | some win => s.finishFar r win
      | none => s.finishRead r)

end Sys2Proof.Machine
end

