-- ==== Sys2Proof/Machine/Package.lean ====
section
/-! DEFINITION. The package: window and export tables, the physical allocation table, dies that reset, gate, fail and
re-enter, errors and self-tests, access tables, boot, attestation, fabric ports, PTP, and the BAR0 window (R256, R287-R289,
R294-R306). -/

namespace Sys2Proof.Machine

/-! Tables in memory (R295-R297). -/

/-- Completed bytes of an IA space, as the device's own units read them: poison from a die that has failed (R300); none where a
page is not mapped. -/
def State.coherent (s : State) (ctx ia n : Nat) : Option (List PByte) :=
  joinOpt ((pieces ia n).map fun p =>
    let home := (s.ctx ctx).homeOf p.1
    let d := s.y.dies.getD home {}
    if d.st == .failed || d.lost then some (List.replicate p.2 (0, true))
    else match s.xlate home ctx p.1 with
      | .ok x => some ((s.m.bytesAt x p.2).map fun b => (b, s.m.poisonedAt x))
      | _ => none)

/-- Entry n of a window table, where it is in force. -/
def windowOf (l : List PByte) (n : Nat) : Option Window :=
  let e := (l.drop (32 * n)).take 32
  let f (off k : Nat) : Nat := (pnumAt e off k).1
  let lia := f 0 8
  let size := f 8 8
  if f 0x15 1 % 2 == 1 && lia % 2 ^ 16 == 0 && size % 2 ^ 16 == 0 && size != 0 && !e.any (·.2) then
    some { n := n, lia := lia, size := size, chip := f 0x10 2 % 2 ^ 12, exp := f 0x12 2 % 2 ^ 12, rt := f 0x14 1 % 4 }
  else none

/-- A command in flight whose window is gone, or whose chip cannot be reached, ends with code 9 (R231). -/
def State.endPackets (s : State) (p : Cmd → Packet → Bool) : State :=
  let lost := s.e.cmds.filter fun c => s.e.packets.any fun q => q.cmd == c.id && p c q
  lost.foldl (fun s c => ({ s with e := { s.e with packets := s.e.packets.filter (·.cmd != c.id) } } : State).endError c 9) s

/-- A context's window entries are read again. -/
def State.winsync (s : State) (ctx : Nat) : State :=
  let c := s.ctx ctx
  match s.coherent ctx (c.winbase.toNat % 2 ^ 52) 8192 with
  | none => s
  | some l =>
    let ws := (List.range 256).filterMap (windowOf l)
    let s := s.setCtx ctx { c with windows := ws }
    s.endPackets fun c _ => c.ctx == ctx && !ws.any fun w => w.n == c.num 0x14 2

def execWinsyncWrite (ctx : Nat) (s : State) : Host.Outcome State Fault Refusal := .next (s.winsync ctx)

/-- Entry n of the export table, where it is in force. -/
def exportOf (l : List PByte) (n : Nat) : Option Export :=
  let e := (l.drop (64 * n)).take 64
  let f (off k : Nat) : Nat := (pnumAt e off k).1
  let tia := f 0 8
  let size := f 8 8
  let cbia := f 0x10 8
  if f 0x1A 1 % 2 == 1 && tia % 2 ^ 16 == 0 && size % 2 ^ 16 == 0 && cbia % 128 == 0 && !e.any (·.2) then
    some { n := n, tia := tia, size := size, cbia := cbia, ctx := f 0x18 1 % 64, rt := f 0x19 1 % 4, clo := f 0x1C 2, chi := f 0x1E 2 }
  else none

def State.expsync (s : State) : State :=
  match s.coherent chipCtx (s.y.expbase.toNat % 2 ^ 52) (4096 * 64) with
  | none => s
  | some l => { s with y := { s.y with exports := (List.range 4096).filterMap (exportOf l) } }

def execExpsyncWrite (s : State) : Host.Outcome State Fault Refusal := .next s.expsync

/-- Commands in flight to a chip that no port reaches end (R295). -/
def State.endUnreachable (s : State) : State :=
  s.endPackets fun _ q => match s.routeUp q.chip with
    | .ok up => !up
    | _ => false

/-! The physical allocation table (R304). -/

def State.setTag (s : State) (stack frame tag : Nat) : State :=
  let rest := s.y.pat.filter fun e => !(e.1 == stack && e.2.1 == frame)
  { s with y := { s.y with pat := if tag == 0xFF then rest else rest ++ [(stack, frame, tag)] } }

/-- PATSTAT after a write of PATSET. DESIGN CHOICE: a frame number beyond the stack's 48 GB is malformed (R10, log 7). -/
def Dev.patCheck (y : Dev) (x : Nat) : Nat :=
  let tag := fld x 0 8
  let frame := fld x 16 20
  let stack := fld x 40 4
  let other (f : Nat) : Bool := decide (y.tag stack f < 64) && y.tag stack f != tag
  if fld x 8 8 != 0 || fld x 36 4 != 0 || fld x 44 20 != 0 || (decide (64 ≤ tag) && decide (tag < 0xFD)) ||
     stackFrames ≤ frame then 2
  else if decide (tag < 64) && ((decide (16 ≤ frame) && other (frame - 16)) || (decide (frame + 16 < stackFrames) && other (frame + 16)))
  then 1 else 0

def State.patWrite (s : State) (val : DWord) : State :=
  let x := val.toNat
  let r := s.y.patCheck x
  let s := if r == 0 then s.setTag (fld x 40 4) (fld x 16 20) (fld x 0 8) else s
  { s with y := { s.y with patset := val, patstat := BitVec.ofNat 64 r } }

def execPatsetWrite (val : BitVec 64) (s : State) : Host.Outcome State Fault Refusal := .next (s.patWrite val)

/-! Dies (R292, R298-R300). -/

def State.die (s : State) (d : Nat) : Die := s.y.dies.getD d {}

def State.modDie (s : State) (d : Nat) (f : Die → Die) : State := { s with y := { s.y with dies := s.y.dies.modify d f } }

/-- STATE of DIECTL (R298). -/
def DieSt.code : DieSt → Nat
  | .running => 0
  | .quiescing => 1
  | .inReset => 2
  | .retraining => 3
  | .failed => 4
  | .gated => 5

/-- DIECTL as it reads (R298). -/
def Die.ctl (x : Die) : Nat :=
  x.err % 4 * 2 ^ 8 + x.st.code * 2 ^ 4 + (if x.gate then 2 else 0) + if x.rst then 1 else 0

/-- The die is on its way through a reset, into gating or back. -/
def Die.moving (x : Die) : Bool :=
  match x.st with
  | .quiescing | .inReset | .retraining => true
  | .running => x.rst || x.gate
  | .failed | .gated => false

/-- Workgroups on a die. -/
def State.wgsOnDie (s : State) (d : Nat) : List Workgroup := s.wgs.filter fun g => dieOf g.core == d

/-- What a write of RST or GATE to a running die is refused with; 0: not refused. A context on its way to Halted or Out
counts as Running. -/
def State.dieRefusal (s : State) (d : Nat) : Nat :=
  let busy := (s.wgsOnDie d).any fun g => (s.ctx g.ctx).state == .running || (s.ctx g.ctx).stopping
  let other := (List.range 4).any fun k => k != d && (s.die k).moving
  if busy && (s.die d).st == .running then 1 else if other then 2 else 0

/-- DIECTL.RST written 1. -/
def State.dieReset (s : State) (d : Nat) : State :=
  let s := s.modDie d fun x => { x with err := 0 }
  let r := s.dieRefusal d
  match (s.die d).st with
  | .running =>
    if (s.die d).moving then s
    else if r != 0 then s.modDie d fun x => { x with err := r }
    else s.modDie d fun x => { x with rst := true }
  | .failed =>
    if r != 0 then s.modDie d fun x => { x with err := r }
    else s.modDie d fun x => { x with rst := true, st := .inReset, zero := s.now }
  | _ => s

/-- DIECTL.GATE written 1. -/
def State.dieGate (s : State) (d : Nat) : State :=
  let s := s.modDie d fun x => { x with err := 0 }
  let r := s.dieRefusal d
  match (s.die d).st with
  | .running =>
    if (s.die d).moving then s
    else if r != 0 then s.modDie d fun x => { x with err := r }
    else s.modDie d fun x => { x with gate := true }
  | .failed =>
    if r != 0 then s.modDie d fun x => { x with err := r }
    else s.modDie d fun x => { x with gate := true, st := .gated }
  | _ => s

/-- DIECTL.GATE written 0: a gated die resets and retrains. -/
def State.dieUngate (s : State) (d : Nat) : State :=
  let s := s.modDie d fun x => { x with err := 0 }
  let other := (List.range 4).any fun k => k != d && (s.die k).moving
  if (s.die d).st != .gated then s
  else if other then s.modDie d fun x => { x with err := 2 }
  else s.modDie d fun x => { x with gate := false, st := .inReset, zero := s.now }

def execDiectlRst (die : Nat) (s : State) : Host.Outcome State Fault Refusal := .next (s.dieReset die)
def execDiectlGate (die : Nat) (s : State) : Host.Outcome State Fault Refusal := .next (s.dieGate die)
def execDiectlUngate (die : Nat) (s : State) : Host.Outcome State Fault Refusal := .next (s.dieUngate die)

/-- Steps 1 and 2 of R299: what Out contexts hold on the die's cores goes into their images, delta slots as log 43 has them; then
the links quiesce. -/
def State.dieQuiesce (s : State) (d : Nat) : State :=
  match eachCtx State.evictWg ((s.wgsOnDie d).filter s.evictable) s with
  | .error s => s
  | .ok s =>
    let save (q : DSlot) : DSlot := if dieOf q.core == d && (s.ctx q.ctx).state == .out then { q with saved := true } else q
    let s := { s with e := { s.e with slots := s.e.slots.map save } }
    s.modDie d fun x => { x with st := .quiescing }

/-- An entry of the directory during steps 3 and 4: a visitor line of the die is evicted, a line homed there is recalled. -/
def State.dieRecall (s : State) (d : Nat) (e : DirEnt) : State :=
  if e.trans.isSome || e.l then s
  else if e.home == d then
    let s := s.askHost e.ctx e.line 2
    let t : DTrans := { kind := .victim, tell := e.copies, told := [], acks := [], host := (s.snoop? e.ctx e.line).isSome }
    (s.setDir { e with trans := some t }).dirTry e.ctx e.line
  else if e.holds d then s.dropCopy { ctx := e.ctx, line := e.line, die := d, host := none }
  else s

/-- A die's host lines go, once its tenures on them have ended. -/
def State.dieHostLines (s : State) (d : Nat) : State :=
  { s with m := { s.m with hostLines := s.m.hostLines.filter fun l => !(l.die == d && s.hostFree d l.pa) } }

/-- The die holds no host line any more. -/
def State.noHost (s : State) (d : Nat) : Bool := s.m.hostLines.all (·.die != d)

/-- It holds no visitor line any more. -/
def State.noVisitor (s : State) (d : Nat) : Bool := s.m.dir.all fun e => e.home == d || !e.holds d

/-- Nothing of the die's is left outside its own HBM. -/
def State.dieQuiet (s : State) (d : Nat) : Bool :=
  s.m.dir.all (fun e => e.home != d && !e.holds d) && s.noHost d &&
  s.m.leases.all (fun l => l.home != d || l.state == .sent) &&
  s.m.writes.all fun w => match w.state with
    | .arrived _ _ | .forwarded => w.home != d
    | _ => true

/-- The die resets: no tenure, sector-cache copy, cached instruction, L2 line or translation of it survives, and the side
logs of its cores count from 1 again (R299, R312). -/
def State.dieForget (s : State) (d : Nat) : State :=
  { s with m := { s.m with
      nextSeq := s.m.nextSeq.zipIdx.map fun q => if dieOf q.2 == d then 1 else q.1
      tenures := s.m.tenures.filter (·.die != d), cache := s.m.cache.filter fun c => dieOf c.core != d
      icache := s.m.icache.filter fun c => dieOf c.core != d
      l2 := s.m.l2.filter fun e => (s.ctx e.ctx).homeOf e.ia != d, xlat := s.m.xlat.filter (·.die != d) } }

/-- Steps 3 and 4 of R299, in their order: host lines, visitor lines, then what is homed on the die, where leases end and waits are
evicted. -/
def State.dieDrain (s : State) (d : Nat) : State :=
  let s := s.dieHostLines d
  if !s.noHost d then s
  else
    let s := (s.m.dir.filter (·.home != d)).foldl (fun s e => s.dieRecall d e) s
    if !s.noVisitor d then s
    else
      let s := (s.endLeases fun l => l.home == d).evictWaits fun w => w.home == d
      (s.m.dir.filter (·.home == d)).foldl (fun s e => s.dieRecall d e) s

/-- One cycle of a die that resets or gates. -/
def State.dieStep (s : State) (d : Nat) : State :=
  let x := s.die d
  match x.st with
  | .running => if x.rst || x.gate then s.dieQuiesce d else s
  | .quiescing =>
    let s := s.dieDrain d
    if !s.dieQuiet d then s
    else
      let s := s.dieForget d
      s.modDie d fun x => if x.gate then { x with st := .gated } else { x with st := .inReset, zero := s.now }
  | .inReset => s.modDie d fun x => { x with st := .retraining }
  | .retraining | .failed | .gated => s

/-- DIE_REENTER: retraining ends. A die that had failed is scrubbed first; one that does not train is failed (R299, R300). -/
def execDieReenter (die : Nat) (ok : Bool) (s : State) : Host.Outcome State Fault Refusal :=
  let x := s.die die
  if 4 ≤ die || x.st != .retraining then .next s
  else if !ok then .next (s.modDie die fun x => { x with st := .failed, err := 3, rst := false, lost := true })
  else
    let scrub (s : State) : State :=
      let m := (s.dieForget die).m.scrubDie die
      { s with m := { m with watches := m.watches.map fun w => { w with cnt := w.cnt.set die 0x3FFFFFFF } } }
    let s := if x.lost then scrub s else s
    let s := s.modDie die fun x => { x with st := .running, rst := false, lost := false, late := false }
    .next (s.event 5 0 (unitCtrl die 0) 0 0)

/-- Four poisoned sectors of a line. -/
def State.poisonLine (s : State) (home ctx line : Nat) : State :=
  match s.xlate home ctx line with
  | .ok x => { s with m := (List.range 4).foldl (fun m k => m.setPoison { x with pa := x.pa + 32 * k } true) s.m }
  | _ => s

/-- A directory entry when die d has failed: a modified line it held is lost, a clean copy is dropped. -/
def State.dieLose (s : State) (d : Nat) (e : DirEnt) : State :=
  let less (t : DTrans) : DTrans :=
    { t with tell := t.tell.filter (· != d), told := t.told.filter (· != d), acks := t.acks.filter (· != d) }
  if e.home == d then s.dropDir e.ctx e.line
  else if e.own == d && (e.st == .m || e.st == .o) then (s.poisonLine e.home e.ctx e.line).toI e
  else if e.own == d && e.st == .e then s.toI e
  else (s.setDir { e with sh := e.sh.filter (· != d), trans := e.trans.map less }).dirTry e.ctx e.line

/-- DIE_FAIL (R300). -/
def execDieFail (die : Nat) (s : State) : Host.Outcome State Fault Refusal :=
  let x := s.die die
  if 4 ≤ die || !(x.st == .running || x.st == .quiescing) then .next s
  else
    let s := s.modDie die fun x => { x with st := .failed, rst := false, gate := false, lost := true }
    let s := s.m.dir.foldl (fun s e => s.dieLose die e) s
    let gone := s.m.leases.filter fun l => dieOf l.who.core == die || l.home == die
    let lost (w : WEnt) : Bool := match w.state with
      | .leased k => gone.any (·.id == k)
      | .arrived _ _ | .forwarded => w.queueDie == die || w.home == die
      | _ => false
    let back (a : AReq) : AReq := if a.home == die then { a with fwd := false } else a
    let s := { s with m := { s.m with
      leases := s.m.leases.filter fun l => gone.all (·.id != l.id), writes := s.m.writes.filter fun w => !lost w
      atoms := s.m.atoms.map back
      cache := s.m.cache.filter fun c => dieOf c.core != die, icache := s.m.icache.filter fun c => dieOf c.core != die } }
    .next (((List.range 64).filter fun c => (s.wgsOnDie die).any (·.ctx == c)).foldl (fun s c => s.raiseHalt c 5 0) s)

/-! Errors and self-tests (R119, R207, R253, R303). -/

/-- Unit and context of an error. -/
def State.errorAt (s : State) (p : ErrPlace) : Nat × Nat :=
  let ctxOf (core slot : Nat) : Nat := match s.wg? core slot with
    | some g => g.ctx
    | none => 0
  match p with
  | .reg core slot _ _ | .line core slot _ | .tile core slot _ => (unitCore core 0, ctxOf core slot)
  | .acc core slot _ _ => (unitCore core 1, ctxOf core slot)
  | .sector pa => (unitStack (stackOf pa), 0)
  | .cache core _ => (unitCore core 0, 0)
  | .lease id => match s.m.leases.find? (·.id == id) with
    | some l => (unitCore l.who.core 0, l.ctx)
    | none => (0, 0)
  | .slice die ctx ia => (unitCtrl die (ctrlOf ia), ctx)
  | .unit k => (k, 0)

/-- A sector that a die's slice has, of its own or of a visitor line, is poisoned (R119). -/
def State.spoilSlice (s : State) (die ctx ia : Nat) : State :=
  let home := (s.ctx ctx).homeOf ia
  let has := s.present die ctx ia || match s.dir? ctx (lineOf ia) with
    | some e => e.holds die
    | none => false
  match s.xlate home ctx (secOf ia) with
  | .ok x => if has || s.m.hostHeld die x then { s with m := s.m.setPoison x true } else s
  | _ => s

/-- What an uncorrectable error does. A lost sector-cache copy is read again. -/
def State.spoil (s : State) (p : ErrPlace) : State :=
  let spoilV (c : VCell) : VCell := { c with poi := true }
  match p with
  | .reg core slot tid v => s.modThread core slot tid fun t => { t with v := t.v.modify v spoilV }
  | .line core slot _ => s.stateError core slot
  | .tile core slot off =>
    let spoilT (g : Workgroup) : Workgroup := { g with tpoi := nsInsert (off / 4) g.tpoi }
    s.modWg core slot fun g => if off < g.tile.length then spoilT g else g
  | .acc core slot t i =>
    let hit (x : PWord) : PWord := { x with poi := true }
    s.modWg core slot fun g => ({ g with acc := g.acc.modify t fun l => l.modify i hit } : Workgroup)
  | .sector pa => { s with m := s.m.mark (sectorOf pa) true }
  | .cache core ia => { s with m := { s.m with cache := s.m.cache.filter fun c => !(c.core == core && c.ia == secOf ia) } }
  | .lease id => s.modLease id fun l => { l with poisoned := true }
  | .slice die ctx ia => s.spoilSlice die ctx ia
  | .unit _ => s

/-- ERROR_DETECT: an event record, and a targeted self-test starts. -/
def execErrorDetect (place : ErrPlace) (corrected : Bool) (s : State) : Host.Outcome State Fault Refusal :=
  let q := s.errorAt place
  let s := if corrected then s else s.spoil place
  let t : SelfTest := { place := place, corrected := corrected }
  let s := { s with y := { s.y with selfTests := s.y.selfTests ++ [t] } }
  .next (s.event (if corrected then 5 else 6) q.2 q.1 0 0)

/-- The unit and array of SRAM that a place lies in; none for DRAM. -/
def State.array? (s : State) (p : ErrPlace) : Option (Nat × Nat) :=
  let unit := (s.errorAt p).1
  match p with
  | .sector _ => none
  | .reg _ _ _ _ | .line _ _ _ => some (unit, 0)
  | .tile _ _ _ => some (unit, 1)
  | .acc _ _ _ _ => some (unit, 2)
  | .cache _ _ => some (unit, 3)
  | .lease _ => some (unit, 4)
  | .unit _ => some (unit, 5)
  | .slice _ _ _ => some (unit, 6)

/-- Frame that holds a row, at its stack address. -/
def frameAddr (pa : Nat) : Nat := rowOf pa * 2 ^ 20 + bankOf pa * 2 ^ 16

/-- SELF_TEST_DONE: the second record. A lasting SRAM fault takes one of its array's 4 spare rows while there is one; a
lasting DRAM fault with a spare is repaired and joins the repair list (R303, log 54). -/
def execSelfTestDone (outcome : Nat) (s : State) : Host.Outcome State Fault Refusal :=
  match s.y.selfTests with
  | [] => .next s
  | t :: l =>
    if outcome < 1 || 3 < outcome then .next s
    else
      let q := s.errorAt t.place
      let array := s.array? t.place
      let outcome := match array with
        | some a => if outcome == 1 then 1 else if s.y.spares.count a < 4 then 2 else 3
        | none => outcome
      let row := if outcome == 2 then array.toList else []
      let fix := match t.place with
        | .sector pa => if outcome == 2 && s.y.repairs.length < 4096 then [(stackOf pa, pchOf pa, bankOf pa, rowOf pa)] else []
        | _ => []
      let addr := match t.place with
        | .sector pa => if outcome == 3 then frameAddr pa else 0
        | _ => 0
      let s := { s with y := { s.y with selfTests := l, repairs := s.y.repairs ++ fix, applied := s.y.applied ++ fix
                                        spares := s.y.spares ++ row } }
      .next (s.event (if t.corrected then 5 else 6) q.2 q.1 addr (outcome * 2 ^ 16))

/-! Access tables, boot, attestation (R301, R305, R306). -/

def AEnt.setBase (x : DWord) (e : AEnt) : AEnt := { e with base := x &&& 0x000FFFFFFFFF0003 }
def AEnt.setLimit (x : DWord) (e : AEnt) : AEnt := { e with limit := x &&& 0x000FFFFFFFFF0000 }

/-- An entry of an access table changed. -/
def State.modAccess (s : State) (master idx : Nat) (f : AEnt → AEnt) : State :=
  if 256 ≤ master || 16 ≤ idx then s
  else
    let old := match s.y.access.find? fun e => e.1 == master && e.2.1 == idx with
      | some e => e.2.2
      | none => {}
    let rest := s.y.access.filter fun e => !(e.1 == master && e.2.1 == idx)
    { s with y := { s.y with access := rest ++ [(master, idx, f old)] } }

def execAccessTableWrite (master idx : Nat) (base limit : BitVec 64) (s : State) : Host.Outcome State Fault Refusal :=
  .next (s.modAccess master idx fun e => (e.setBase base).setLimit limit)

/-- POWER_ON_BOOT: the checks in order, of a signature and a security version each; a failed one leaves its code (R305):
1 firmware, 2 configuration image, 3 repair list. The repairs are then applied to the DRAM. -/
def execPowerOnBoot (fw cfg repair : Bool) (v : Versions) (s : State) : Host.Outcome State Fault Refusal :=
  if s.y.booted || s.y.bootCode != 0 then .next s
  else
    let ok (signed : Bool) (n : Nat) : Bool := signed && decide (s.y.minVersion ≤ n)
    let code := if !ok fw v.fw then 1 else if !ok cfg v.cfg then 2 else if !ok repair v.repair then 3 else 0
    .next { s with y := { s.y with
      booted := code == 0, bootCode := code, version := v.fw, cfgVersion := v.cfg, repVersion := v.repair
      applied := if code == 0 then s.y.repairs else s.y.applied } }

/-- Words of the repair list as bytes. -/
def repairBytes (l : List (Nat × Nat × Nat × Nat)) : List (BitVec 8) :=
  l.flatMap fun r => leBytes 2 r.1 ++ leBytes 2 r.2.1 ++ leBytes 2 r.2.2.1 ++ leBytes 4 r.2.2.2

/-- ATTESTATION_REQUEST: nonce, digests, versions, IDE state, PTP time, signed (R306). -/
def execAttestationRequest (nonce : BitVec 256) (s : State) : Host.Outcome State Fault Refusal :=
  let body : List (BitVec 256) :=
    [nonce, Config.shake (Config.image 0), Config.shake (Config.image 1), Config.shake (Config.image 2 ++ repairBytes s.y.repairs),
     BitVec.ofNat 256 s.y.version, BitVec.ofNat 256 s.y.cfgVersion, BitVec.ofNat 256 s.y.repVersion,
     BitVec.ofNat 256 (bitsOf ((List.range 256).map fun k => s.y.ideKeys.any (·.1 == k))),
     BitVec.ofNat 256 s.ptpNs]
  .next (s.reply (.report body (Config.sign body)))

/-- DOE_IDE_KEY_SET (R287). -/
def execDoeIdeKeySet (stream : Nat) (key : BitVec 256) (s : State) : Host.Outcome State Fault Refusal :=
  .next { s with y := { s.y with ideKeys := s.y.ideKeys.filter (·.1 != stream) ++ [(stream, key)] } }

/-! Fabric ports and time (R294, R295). -/

/-- FLIT_REPLAY: a replay that fails or succeeds; the sixteenth failure in a row takes the port down. -/
def execFlitReplay (r : PortReplay) (s : State) : Host.Outcome State Fault Refusal :=
  let p := s.y.ports.getD r.port { up := false }
  let set (q : Port) : State := { s with y := { s.y with ports := s.y.ports.set r.port q } }
  .next (if !p.up then s
    else if r.good then set { p with replays := 0 }
    else if 16 ≤ p.replays + 1 then (set { up := false, replays := 0 }).endUnreachable
    else set { p with replays := p.replays + 1 })

def execPortRetrainComplete (port : Nat) (s : State) : Host.Outcome State Fault Refusal :=
  .next { s with y := { s.y with ports := s.y.ports.modify port fun _ => { up := true, replays := 0 } } }

/-- PTP_MESSAGE: the time unit takes a time, in steps of 2^-16 ns. -/
def execPtpMessage (time : Nat) (s : State) : Host.Outcome State Fault Refusal := .next { s with ptp := time }

/-! BAR0 (R288). -/

/-- Words of a range register from the host: 64 bits each; waits of the context end (R150). -/
def State.rangeWrite (s : State) (ctx n word : Nat) (x : DWord) : State :=
  let c := s.ctx ctx
  let old := (c.rg.getD n 0).toNat
  let k := 64 * word
  let new := old - fld old k 64 * 2 ^ k + x.toNat * 2 ^ k
  (s.setCtx ctx { c with rg := c.rg.set n (BitVec.ofNat 256 new) }).evictWaits fun w => w.ctx == ctx

/-- A register of a context. -/
def State.ctxWrite (s : State) (ctx off width : Nat) (x : DWord) : State :=
  let c := s.ctx ctx
  if off % 8 == 0 && off < 0x50 && off != 0 then
    match SysReg.ofCode (off / 8) with
    | some r => if width == (if r.wide then 64 else 32) then s.setCtx ctx (c.sysWrite true r x) else s
    | none => s
  else if width != 64 || off % 8 != 0 then s
  else if 0x100 ≤ off && off < 0x300 then s.rangeWrite ctx ((off - 0x100) / 32) (off % 32 / 8) x
  else if off == 0x300 then s.setCtx ctx { c with winbase := x }
  else if off == 0x308 then s.winsync ctx
  else s

/-- DIECTL written: ERR clears, then RST, then GATE (R298). -/
def State.diectl (s : State) (d x : Nat) : State :=
  if x % 2 == 1 then s.dieReset d else if x / 2 % 2 == 1 then s.dieGate d else s.dieUngate d

/-- A device register below the queues. -/
def State.chipWrite (s : State) (off width : Nat) (x : DWord) : State :=
  if off % 8 == 0 && 0x80 ≤ off && off < 0xC0 then
    match SysReg.ofCode (off / 8) with
    | some r => if width == (if r.wide then 64 else 32) then s.devWrite r x else s
    | none => s
  else if width != 64 || off % 8 != 0 then s
  else if 0x1000 ≤ off && off < 0x1020 then s.diectl ((off - 0x1000) / 8) x.toNat
  else if off == 0x2000 then { s with y := { s.y with expbase := x } }
  else if off == 0x2008 then s.expsync
  else if off == 0x2010 then ({ s with y := { s.y with route := x } } : State).endUnreachable
  else if off == 0x2020 then s.patWrite x
  else s

/-- REGISTER_WRITE: a host write in the window; a wrong width and a reserved offset are ignored. -/
def State.barWrite (s : State) (off width : Nat) (x : DWord) : State :=
  if off < 0x100000 then s.chipWrite off width x
  else if off < 0x140000 then s.ctxWrite ((off - 0x100000) / 0x1000) (off % 0x1000) width x
  else if 0x200000 ≤ off && off < 0x201000 then
    let o := off % 64
    let w := if o == 0 then 64 else 32
    if width == w then s.modQueue ((off - 0x200000) / 64) (Queue.write o x) else s
  else if 0x300000 ≤ off && off < 0x310000 && width == 64 then
    let o := off % 256
    let f := if o % 16 == 0 then AEnt.setBase x else if o % 16 == 8 then AEnt.setLimit x else id
    s.modAccess ((off - 0x300000) / 256) (o / 16) f
  else s

/-! Reads of the window. -/

/-- A system register at the width of its slot. -/
def State.regAt (s : State) (c : Context) (off width : Nat) : DWord :=
  match SysReg.ofCode (off / 8) with
  | some r => if width == (if r.wide then 64 else 32) then s.regRead c r else 0
  | none => 0

def State.chipRead (s : State) (off width : Nat) : DWord :=
  if off % 8 == 0 && 0x80 ≤ off && off < 0xC0 then s.regAt Context.fresh off width
  else if width != 64 || off % 8 != 0 then 0
  else if 0x1000 ≤ off && off < 0x1020 then BitVec.ofNat 64 (s.die ((off - 0x1000) / 8)).ctl
  else if off == 0x2000 then s.y.expbase
  else if off == 0x2010 then s.y.route
  else if off == 0x2020 then s.y.patset
  else if off == 0x2028 then s.y.patstat
  else 0

def State.ctxRead (s : State) (ctx off width : Nat) : DWord :=
  let c := s.ctx ctx
  if off % 8 == 0 && off < 0x50 && off != 0 then s.regAt c off width
  else if width != 64 || off % 8 != 0 then 0
  else if 0x100 ≤ off && off < 0x300 then
    BitVec.ofNat 64 (fld (c.rg.getD ((off - 0x100) / 32) 0).toNat (64 * (off % 32 / 8)) 64)
  else if off == 0x300 then c.winbase
  else 0

/-- A register of a launch queue (R275). -/
def Queue.read (off width : Nat) (q : Queue) : DWord :=
  match off, width with
  | 0x00, 64 => q.base
  | 0x08, 32 => q.ctl.setWidth 64
  | 0x0C, 32 => q.tail.setWidth 64
  | 0x10, 32 => q.head.setWidth 64
  | 0x14, 32 => q.err.setWidth 64
  | _, _ => 0

/-- Half of an entry of an access table (R301). -/
def Dev.entryRead (y : Dev) (master off : Nat) : DWord :=
  match y.access.find? fun e => e.1 == master && e.2.1 == off / 16 with
  | some e => if off % 16 == 0 then e.2.2.base else if off % 16 == 8 then e.2.2.limit else 0
  | none => 0

/-- What the host reads in the window; a wrong width and a reserved offset read 0. -/
def State.barRead (s : State) (off width : Nat) : DWord :=
  if off < 0x100000 then s.chipRead off width
  else if off < 0x140000 then s.ctxRead ((off - 0x100000) / 0x1000) (off % 0x1000) width
  else if 0x200000 ≤ off && off < 0x201000 then (s.y.queues.getD ((off - 0x200000) / 64) {}).read (off % 64) width
  else if 0x300000 ≤ off && off < 0x310000 && width == 64 then s.y.entryRead ((off - 0x300000) / 256) (off % 256)
  else 0

def execRegisterWrite (off width : Nat) (val : BitVec 64) (s : State) : Host.Outcome State Fault Refusal :=
  .next (s.barWrite off width (if width == 32 then val &&& 0xFFFFFFFF else val))

end Sys2Proof.Machine
end

