-- ==== Sys2Proof/Machine/Sched.lean ====
section
/-! DEFINITION. Collie, instruction fetch, what a latched path issues, time moving on by a cycle, and the events that
must come before it does (R30, R32, R42, R44, R49, R87-R92, R97, R100, R157, R262, R272). -/

namespace Sys2Proof.Machine

/-! Fetch (R88, R100). -/

/-- The word that a thread's fetch buffer holds at an address. -/
def Thread.fetched (t : Thread) (a : DWord) : Option FWord := t.fbuf.find? (·.addr == a)

/-- A word enters the fetch buffer: the thread's PC and at most 4 words beyond it. -/
def Thread.takeWord (w : FWord) (t : Thread) : Thread :=
  let keep (x : FWord) : Bool := x.addr != w.addr && decide ((x.addr - t.pc).toNat ≤ 32)
  { t with fbuf := t.fbuf.filter keep ++ [w] }

/-- The first word missing from the PC on. -/
def Thread.wants (t : Thread) : Option DWord :=
  ((List.range 5).map fun k => t.pc + BitVec.ofNat 64 (8 * k)).find? fun a => (t.fetched a).isNone

/-- A line of the core's instruction cache: 512 lines, the oldest makes room. -/
def Mem.fillI (m : Mem) (l : ILine) : Mem :=
  let mine := m.icache.filter (·.core == l.core)
  let keep (x : ILine) : Bool := match mine with
    | o :: _ => decide (mine.length < 512) || x != o
    | [] => true
  { m with icache := m.icache.filter keep ++ [l] }

def Mem.iline? (m : Mem) (core ctx line : Nat) : Option ILine :=
  m.icache.find? fun l => l.core == core && l.ctx == ctx && l.line == line

/-- The word at an IA of a line, for a thread. -/
def ILine.word (l : ILine) (a : DWord) (ia : Nat) : FWord :=
  { addr := a, word := numAt l.data (ia % 128) 8, poi := l.poi.getD (ia % 128 / 32) false }

/-- A line as its home slice has it: bytes and the poison of its sectors; poisoned where the die has failed. -/
def State.lineOfHome (s : State) (core ctx line : Nat) (x : Option Xl) : ILine :=
  match x with
  | none => { core := core, ctx := ctx, line := line, data := List.replicate 128 0, poi := List.replicate 4 true }
  | some x => { core := core, ctx := ctx, line := line, data := s.m.bytesAt x 128
                poi := (List.range 4).map fun k => s.m.poisonedAt { x with pa := x.pa + 32 * k } }

/-- A fetch that is refused at the thread's own PC traps there; a fetch ahead raises nothing (R94, R100, R302). -/
def State.fetchTrap (s : State) (g : Workgroup) (t : Thread) (a : DWord) : State :=
  if a != t.pc then s else s.modThread g.core g.slot t.tid fun t => t.trap 4 0 t.pc t.pc t.pc

/-- A word fetched through a view slot (R127): no line of the instruction cache holds it. DESIGN CHOICE: it is read at the
homes of its bytes each time (log 79). -/
def State.fetchView (s : State) (g : Workgroup) (t : Thread) (a : DWord) : State :=
  let got := (s.resolvePiece s.nextId g.ctx a 8 .fetch).bind fun o => match o with
    | none => .ok none
    | some l => (s.readBytesAt g.ctx l).bind fun x => .ok (some x)
  match got with
  | .ok none => s.fetchTrap g t a
  | .ok (some l) => s.fresh.modThread g.core g.slot t.tid fun t => t.takeWord { addr := a, word := (pnum l).1, poi := (pnum l).2 }
  | .hold s => s
  | .page s' _ _ => if a == t.pc then s' else s
  | .viol ia k => if a == t.pc then (s.violation g.ctx ia k (unitCore g.core 0)).fetchTrap g t a else s

/-- A thread fetches a word. -/
def State.fetch (s : State) (g : Workgroup) (t : Thread) (a : DWord) : State :=
  let c := s.ctx g.ctx
  let put (s : State) (l : ILine) (ia : Nat) : State := s.modThread g.core g.slot t.tid fun t => t.takeWord (l.word a ia)
  match c.match? a with
  | none => s.fetchTrap g t a
  | some r =>
    if !r.x then s.fetchTrap g t a
    else if c.unbacked (r.ia a) then s.fetchView g t a
    else
      let ia := r.ia a
      let line := lineOf ia
      match s.m.iline? g.core g.ctx line with
      | some l => put s l ia
      | none =>
        let n := unitNeed g.ctx g.ctx (r.home ia) line 128 .fetch
        match s.reach n with
        | .ok x =>
          let l := s.lineOfHome g.core g.ctx line x
          put { s with m := s.m.fillI l } l ia
        | .hold s => s
        | .page s' _ _ => if a == t.pc then s' else s
        | .viol ia k => if a == t.pc then (s.violation g.ctx ia k (unitCore g.core 0)).fetchTrap g t a else s

/-- IFETCH_FILL: the next word of a runnable thread whose context runs. -/
def execIfetchFill (core slot tid : Nat) (s : State) : Host.Outcome State Fault Refusal :=
  match s.wg? core slot with
  | none => .next s
  | some g => match g.thread? tid with
    | none => .next s
    | some t =>
      if t.run != .runnable || !t.resident || !(s.ctx g.ctx).runs || (s.die (dieOf core)).st != .running then .next s
      else match t.wants with
        | none => .next s
        | some a => .next (s.fetch g t a)

/-! The bundle former (R88-R92). -/

/-- A ready thread as Collie sees it. -/
structure Cand where
  slot : Nat
  cls : Nat
  ctx : Nat
  tid : Nat
  pc : DWord
  word : Nat
  poi : Bool
  age : Nat
  lane : Bool
  yields : Bool

/-- A lane-class word: opcode below 0x080, or a pair word (R48). -/
def laneWord (w : Nat) : Bool := bits w 63 1 == 1 || decide (bits w 46 9 < 0x080)

/-- A thread that holds a lease is offered as though its age were 65,535 (R157). -/
def State.ageOf (s : State) (g : Workgroup) (t : Thread) : Nat :=
  if s.m.leases.any fun l => l.state == .held && l.who.core == g.core && l.who.slot == g.slot && l.who.tid == t.tid && l.who.uid == g.uid
  then 65535 else t.age

/-- The instruction of a word in the fetch buffer; none where the word is poisoned or decodes to none. -/
def FWord.instr (w : FWord) : Option Instr :=
  if w.poi then none
  else match decodeWord w.word with
    | .ok i => some i
    | .error _ => none

/-- A self-test has a word of the register cache that the thread needs (R303). -/
def State.regTested (s : State) (g : Workgroup) (t : Thread) (i : Instr) : Bool :=
  s.testing fun p => match p with
    | .reg c k n v => c == g.core && k == g.slot && n == t.tid && i.vIndexes.contains v
    | .line c k n => c == g.core && k == g.slot && n == t.tid
    | _ => false

/-- Every tracked register that the word's instruction reads or writes has arrived (R44, R88). -/
def State.arrived (s : State) (g : Workgroup) (t : Thread) (w : FWord) : Bool :=
  match w.instr with
  | some i =>
    let e : Env := { s := s, g := g, t := t, path := { core := g.core, slot := g.slot, pc := t.pc, tids := [t.tid], base := 0 } }
    !e.awaits i && !s.regTested g t i
  | none => true

/-- Register lines that the next instruction names and the register cache does not have (R87). -/
def Thread.lineNeed (t : Thread) : List Nat :=
  if t.out.isEmpty then []
  else match (t.fetched t.pc).bind FWord.instr with
    | some i => t.out.filter fun l => i.vIndexes.any fun n => n / 16 == l
    | none => []

/-- The thread is ready, but for yield (R88). A thread that a hard cancel has stopped is not (R280). -/
def State.cand? (s : State) (g : Workgroup) (t : Thread) : Option Cand :=
  if t.run != .runnable || s.now < t.next || !t.resident || g.hard || !t.lineNeed.isEmpty then none
  else match t.fetched t.pc with
    | none => none
    | some w =>
      if !s.arrived g t w then none
      else some { slot := g.slot, cls := g.cls, ctx := g.ctx, tid := t.tid, pc := t.pc, word := w.word, poi := w.poi
                  age := s.ageOf g t, lane := laneWord w.word && !w.poi, yields := decide (1 < t.yieldLeft) }

/-- E: ready threads of a quarter. Threads held by yield are in it where no other thread of the quarter is ready (R97). -/
def State.ready (s : State) (core q : Nat) : List Cand :=
  if (s.die (dieOf core)).st != .running then []
  else
    let gs := s.wgs.filter fun g => g.core == core && g.resident && (s.ctx g.ctx).runs
    let all := gs.flatMap fun g => (g.threads.filter fun t => t.tid % 4 == q).filterMap (s.cand? g)
    let free := all.filter fun c => !c.yields
    if free.isEmpty then all else free

/-- The first of a list under an order. -/
def best {α : Type} (before : α → α → Bool) : List α → Option α
  | [] => none
  | a :: l => some (l.foldl (fun b x => if before x b then x else b) a)

/-- Greatest age, then lowest slot, then lowest tid. -/
def Cand.older (a b : Cand) : Bool :=
  decide (b.age < a.age) || (a.age == b.age && (decide (a.slot < b.slot) || (a.slot == b.slot && decide (a.tid < b.tid))))

/-- Insertion by an order. -/
def insertBy {α : Type} (before : α → α → Bool) (a : α) : List α → List α
  | [] => [a]
  | b :: l => if before a b then a :: b :: l else b :: insertBy before a l

/-- Up to n threads at a PC that hold one word: greatest age first, ties lowest tid. -/
def takePath (e : List Cand) (n : Nat) (u : Cand) : List Cand :=
  ((e.filter fun c => c.slot == u.slot && c.pc == u.pc && c.word == u.word && c.poi == u.poi).foldl
    (fun l c => insertBy Cand.older c l) []).take n

/-- Its threads in ascending tid, as a path. -/
def pathOf (core base : Nat) (l : List Cand) : Option Path :=
  match l with
  | [] => none
  | u :: _ => some { core := core, slot := u.slot, pc := u.pc, tids := l.foldl (fun a c => nsInsert c.tid a) [], base := base }

/-- The thread whose PC and word the first path takes. -/
def leader (e : List Cand) : Option Cand :=
  match best Cand.older (e.filter fun c => decide (4096 ≤ c.age)) with
  | some u => some u
  | none =>
    let wg := best (fun a b => decide (b.cls < a.cls) || (a.cls == b.cls && a.older b)) e
    match wg with
    | none => none
    | some w => best (fun a b => decide (a.pc.toNat < b.pc.toNat) || (a.pc == b.pc && a.older b)) (e.filter (·.slot == w.slot))

/-- The thread whose PC and word the second path takes. -/
def second (e : List Cand) (u : Cand) : Option Cand :=
  let l := e.filter fun c => c.slot == u.slot && c.pc != u.pc && c.lane
  let count (c : Cand) : Nat := (l.filter (·.pc == c.pc)).length
  match best (fun a b => decide (b.age < a.age) || (a.age == b.age && decide (a.pc.toNat < b.pc.toNat)))
      (l.filter fun c => decide (1024 ≤ c.age)) with
  | some c => some c
  | none => best (fun a b => decide (count b < count a) || (count a == count b && (decide (a.pc.toNat < b.pc.toNat) ||
      (a.pc == b.pc && a.older b)))) l

/-- The bundle: SA, and SB where SA leaves room and is lane-class (R90). -/
def bundle (e : List Cand) : List Cand × List Cand :=
  match leader e with
  | none => ([], [])
  | some u =>
    let sa := takePath e 32 u
    let sb := if sa.length < 32 && u.lane then match second e u with
        | some v => takePath e (32 - sa.length) v
        | none => []
      else []
    (sa, sb)

/-- Counter 0 of each context with a ready thread, once a cycle (R272): selDone marks (core, 4 + context). -/
def State.countReady (s : State) (core : Nat) (e : List Cand) : State :=
  e.foldl (fun s c =>
    if s.selDone.contains (core, 4 + c.ctx) then s
    else
      let s := s.perfAdd core c.ctx 0 1
      { s with selDone := s.selDone ++ [(core, 4 + c.ctx)] }) s

/-- The checks of the decoder that need the workgroup: register count and accumulator grant (R37, R40, R190). -/
def Workgroup.admits (g : Workgroup) (i : Instr) : Bool :=
  i.vIndexes.all (fun n => decide (n ≤ g.regs)) && match i.tileD with
    | some d => decide (d < g.accum)
    | none => true

/-- Threads of a path whose word passes the decoder's checks: another has no effect on a counter (R49). -/
def State.counts (s : State) (core : Nat) (l : List Cand) : Nat :=
  match l with
  | [] => 0
  | u :: _ => match s.wg? core u.slot, decodeWord u.word with
    | some g, .ok i => if u.poi || g.admits i then l.length else 0
    | _, _ => if u.poi then l.length else 0

/-- Counters 1 to 3: bundles, threads, two paths (R272). -/
def State.countBundle (s : State) (core ctx : Nat) (b : List Cand × List Cand) : State :=
  let x := s.counts core b.1
  let y := s.counts core b.2
  if x + y == 0 then s
  else
    let s := (s.perfAdd core ctx 1 1).perfAdd core ctx 2 (x + y)
    if x == 0 || y == 0 then s else s.perfAdd core ctx 3 1

/-- The threads of a bundle are issued: their ages start from 0 (R89, R90). -/
def State.issued (s : State) (core : Nat) (u : Cand) (b : List Cand × List Cand) : State :=
  let tids := (b.1 ++ b.2).map (·.tid)
  s.modWg core u.slot fun g => { g with threads := g.threads.map fun t => if tids.contains t.tid then { t with age := 0 } else t }

/-- COLLIE_SELECT: one bundle a quarter and cycle is latched for issue. -/
def State.select (s : State) (core q : Nat) : State :=
  let e := s.ready core q
  let b := bundle e
  match b.1 with
  | [] => s
  | u :: _ =>
    let s := ((s.countReady core e).countBundle core u.ctx b).issued core u b
    { s with
      latch := (pathOf core 0 b.1).toList ++ (pathOf core b.1.length b.2).toList
      selDone := s.selDone ++ [(core, q)] }

/-- A quarter may select: not yet in this cycle. -/
def State.maySelect (s : State) (core q : Nat) : Bool :=
  decide (core < 256) && decide (q < 4) && !s.selDone.contains (core, q)

def execCollieSelect (core q : Nat) (s : State) : Host.Outcome State Fault Refusal :=
  .next (if s.maySelect core q then s.select core q else s)

/-! Issue (R49, R100). -/

/-- Every thread on the path traps at the word. -/
def State.trapPath (s : State) (p : Path) (cause : Nat) (faddr : DWord) : State :=
  s.modWg p.core p.slot fun g =>
    let hit (t : Thread) : Thread :=
      if p.tids.contains t.tid && t.run == .runnable && t.pc == p.pc then t.trap cause 0 t.pc faddr t.pc else t
    { g with threads := g.threads.map hit }

/-- What a latched path does. -/
inductive Issue where
  | nowhere                        -- its workgroup is not in the slot
  | done (s : State)               -- it traps, or has no word
  | run (i : Instr) (s : State)
  deriving DecidableEq, Repr

/-- The word of a path, as its first thread fetched it. -/
def Workgroup.pathWord (g : Workgroup) (p : Path) : Option FWord :=
  match g.thread? (p.tids.headD 0) with
  | some t => t.fetched p.pc
  | none => none

/-- A path at issue: a poisoned word raises the poison-use trap, a word that fails the decoder's checks the
illegal-instruction trap; any other is executed. -/
def State.issue (s : State) (p : Path) : Issue :=
  match s.wg? p.core p.slot with
  | none => .nowhere
  | some g => match g.pathWord p with
    | none => .done s
    | some w =>
      if w.poi then .done (s.trapPath p 5 p.pc)
      else match decodeWord w.word with
        | .error _ => .done (s.trapPath p 1 0)
        | .ok i => if g.admits i then .run i { s with cur := some p } else .done (s.trapPath p 1 0)

/-! Time (R36, R42, R89, R97, R262). -/

/-- A blocked thread whose condition has come true: goes on after its instruction, or tries it again. A runnable one that
misses register lines is blocked for them. -/
def State.wake (s : State) (g : Workgroup) (t : Thread) : Thread :=
  let again : Thread := { t with run := .runnable }
  match t.run with
  | .runnable => if t.lineNeed.isEmpty then t else { t with run := .blocked (.miss t.lineNeed) }
  | .trapPending | .exited => t
  | .blocked b => match b with
    | .page home ia => if (s.missing? home g.ctx ia).isNone then again else t
    | .awwait _ _ _ => g.awEnd t
    | .twait k => if s.e.count g k == 0 then again else t
    | .ttake first n =>
      if (List.range n).all fun k => (g.gran.getD (first + k) {}).ref == 0 then t.past else t
    | .isync => if t.icinvs.all fun k => s.m.icinv.all (·.id != k) then again else t
    | .efence => if s.accepted g.core g.slot g.uid t.tid then again else t
    | .delta layer ord => if s.pendingBefore g.core g.ctx layer ord then t else { again with dwait := some ord }
    | .sleep k => if t.sleep == 0 then { t with run := .blocked (.sleep (k + 1)) } else { t with sleep := t.sleep - 1 }
    | .join _ _ | .bar _ _ | .cbar _ _ | .waita _ | .req _ | .waitt _ | .miss _ => t

/-- One cycle of a thread whose context runs; one whose state line is in its image awaits that first, but its sleep goes
on (R97). -/
def State.tickThread (s : State) (g : Workgroup) (t : Thread) : Thread :=
  if !t.resident then
    match t.run with
    | .blocked (.sleep _) => { t with away := t.away + 1 }
    | _ => t
  else
  let t := if t.run == .runnable then
      { t with age := min 65535 (t.age + 1), yieldLeft := if 1 < t.yieldLeft then t.yieldLeft - 1 else t.yieldLeft }
    else t
  s.wake g t

def State.tickWg (s : State) (g : Workgroup) : Workgroup :=
  let g := g.stopped
  if (s.ctx g.ctx).runs then { g with threads := g.threads.map (s.tickThread g) } else g

/-- Write-backs of every cwb whose writes are complete (R124). -/
def State.cwbAll (s : State) : State := s.wgs.foldl (fun s g => g.threads.foldl (fun s t => s.cwbStep g t) s) s

/-- One core cycle passes, and d units of PTP time; in a freeze only PTP time does. -/
def State.tick (s : State) (d : Nat) : State :=
  let s := { s with ptp := s.ptp + d }
  if s.y.freeze.isSome then s
  else
    let s := { s with now := s.now + 1, selDone := [] }
    let s := { s with wgs := s.wgs.map s.tickWg }
    let s := s.cwbAll.enterAll.dropAll.unitTick.patchAll.matrixTick
    (List.range 4).foldl State.dieStep s

/-! What must come before the next cycle. -/

/-- The state line of a thread would come into the register cache. -/
def State.wouldFill (s : State) (g : Workgroup) (t : Thread) : Bool :=
  match execRegisterCacheFill g.core g.slot t.tid s with
  | .next s => match s.thread? g.core g.slot t.tid with
    | some t => t.resident
    | none => false
  | _ => false

/-- Ends of waits of a thread. A sleep ends at most 7 Running cycles late, so a state line in the image comes in time for it
(R97). -/
def State.dueThread (s : State) (g : Workgroup) (t : Thread) : Option Instr :=
  match t.run with
  | .runnable => if t.yieldLeft == 1 then some (.yieldExpiry g.core g.slot t.tid) else none
  | .blocked (.sleep k) =>
    if !(s.ctx g.ctx).runs then none
    else if !t.resident then
      if 7 ≤ k + t.away && s.wouldFill g t then some (.registerCacheFill g.core g.slot t.tid) else none
    else if t.sleep == 0 && 7 ≤ k then some (.sleepExpiry g.core g.slot t.tid) else none
  | .blocked (.waitt x) => if (s.ctx g.ctx).runs && decide (x ≤ s.ptpNs) then some (.waittDeadline g.core g.slot t.tid) else none
  | _ => none

/-- Results of a thread whose bound has come. -/
def State.dueResult (s : State) (t : Thread) : Option Instr :=
  match t.v.find? fun c => c.tag != 0 && c.ready != 0 && decide (c.ready ≤ s.now) with
  | some c => some (.scoreboardResultArrive c.tag)
  | none => match t.wbusy.find? fun b => b.tag != 0 && b.ready != 0 && decide (b.ready ≤ s.now) with
    | some b => some (.scoreboardResultArrive b.tag)
    | none => none

def State.dueWg (s : State) (g : Workgroup) : Option Instr :=
  match g.threads.findSome? (s.dueThread g) with
  | some i => some i
  | none => g.threads.findSome? s.dueResult

/-- A quarter with a ready thread selects in every cycle (R90). -/
def State.dueSelect (s : State) (g : Workgroup) : Option Instr :=
  ((List.range 4).find? fun q => s.maySelect g.core q && !(s.ready g.core q).isEmpty).map fun q => .collieSelect g.core q

/-- A call that has not started reads its version, and starts unless its x_prev or y_prev is held (R219). -/
def State.startable (s : State) (m : MEnt) : Bool :=
  match m.op, m.drun with
  | .dmul layer x, none => match s.slot? m.core m.ctx layer, s.wg? m.core m.slot, m.vread with
    | some _, some _, none => true
    | some q, some g, some v => match s.startCall q g x v.toNat with
      | .ok _ | .viol _ _ => true
      | .hold _ | .page _ _ _ => false
    | _, _, _ => false
  | _, _ => true

/-- A grant is due at a step boundary (R203). -/
def State.dueGrant (s : State) (core : Nat) : Bool :=
  decide (s.e.step.getD core 0 ≤ s.now) && (s.arbiter core s.startable).isSome

/-- A refused request goes out again 1,024 slice cycles after its hint at the latest (R117). -/
def lateResend (now t : Nat) : Bool := t != 0 && decide (t + 682 ≤ now)

/-- A refused put or get goes out again where its event would do so now. -/
def State.resends (s : State) (c : Cmd) : Bool :=
  lateResend s.now c.resend && match execEngineCommandComplete c.id s with
    | .next s' => s'.e.cmds != s.e.cmds || s'.e.packets != s.e.packets
    | _ => false

/-- A refused request whose time has come. -/
def State.dueResend (s : State) : Option Instr :=
  match s.m.reads.find? fun r => r.secs.any fun x => lateResend s.now x.retry with
  | some r => some (.retryResend r.id)
  | none => match s.m.writes.find? (fun w => match w.state with
      | .retry t => lateResend s.now t
      | _ => false) with
    | some w => some (.retryResend w.id)
    | none => match s.m.atoms.find? fun a => lateResend s.now a.retry with
      | some a => some (.retryResend a.id)
      | none => match s.m.leases.find? fun l => lateResend s.now l.retry with
        | some l => some (.retryResend l.id)
        | none => match s.m.reads.find? fun r => lateResend s.now r.resend && (s.ctx r.ctx).runs && s.canFill r && r.secs.all (·.got.isSome) with
          | some r => some (.loadDataReturn r.id)
          | none => match s.m.dirq.find? fun q => q.place.isNone && lateResend s.now q.retry && s.homeMay q.ctx q.line q.home &&
              (s.snoop? q.ctx q.line).isNone with
            | some q => some (if q.ex then .dirRdx q.ctx q.line q.die else .dirRds q.ctx q.line q.die)
            | none => (s.e.cmds.find? s.resends).map fun c => .engineCommandComplete c.id

/-- What of a thread and its requests an event moves on. -/
def State.trace (s : State) (w : Who) : Option Thread × List RReq × List AReq × List WEnt :=
  (s.thread? w.core w.slot w.tid, s.m.reads.filter (·.who.same w), s.m.atoms.filter fun a => a.lanes.any (·.who.same w),
    s.m.writes.filter (·.of w))

/-- An event with its meaning. -/
abbrev Act := Instr × (State → Host.Outcome State Fault Refusal)

/-- Events on which a lessee's next instruction may wait, its accesses to lines that it holds among them (R157). -/
def State.lesseeActs (s : State) (l : LeaseEnt) : List Act :=
  let w := l.who
  let own (ia : Nat) : Bool := s.m.leases.any fun x => x.state == .held && x.ctx == l.ctx && x.line == lineOf ia && x.who.same w
  [(.registerCacheFill w.core w.slot w.tid, execRegisterCacheFill w.core w.slot w.tid),
   (.ifetchFill w.core w.slot w.tid, execIfetchFill w.core w.slot w.tid)] ++
  (s.m.reads.filter fun r => r.who.same w && r.secs.all fun x => own x.ia).flatMap (fun r =>
    r.secs.zipIdx.map (fun x => (.homeReadRequest r.id x.2, execHomeReadRequest r.id x.2)) ++
    [(.viewCompose r.id, execViewCompose r.id), (.loadDataReturn r.id, execLoadDataReturn r.id)]) ++
  (s.m.writes.filter fun x => x.of w && own x.ia).flatMap (fun x =>
    [(.writeArrival x.id, execWriteArrival x.id), (.atomicExecute x.id, execAtomicExecute x.id)]) ++
  (s.m.atoms.filter fun a => own a.ia && a.lanes.any (·.who.same w)).map fun a => (.atomicExecute a.id, execAtomicExecute a.id)

/-- The event moves the lessee on. -/
def State.helps (s : State) (w : Who) (a : Act) : Bool :=
  match a.2 s with
  | .next s' => s'.trace w != s.trace w
  | _ => false

/-- What a lessee waits for comes before its lease can run out (R157, R310, log 32). -/
def State.dueLessee (s : State) : Option Instr :=
  (s.m.leases.filter fun l => l.state == .held && (s.ctx l.ctx).runs).findSome? fun l =>
    ((s.lesseeActs l).find? (s.helps l.who)).map (·.1)

/-- A host snoop that the slice holds for its tenures is answered once they have ended (R291). -/
def State.dueHost (s : State) (h : HostLine) : Bool :=
  match h.snoop with
  | some (_, true) => (s.die h.die).st == .running && (List.range 4).all fun k =>
      decide (s.m.tenEnd h.die (({ pa := h.pa + 32 * k, hst := true } : Xl).key) ≤ s.now)
  | _ => false

/-- A die whose held host snoops have waited 50 us (R292). -/
def State.dueSnoop (s : State) (die : Nat) : Bool :=
  (s.die die).st != .running && s.m.hostLines.any fun h => h.die == die && match h.snoop with
    | some q => decide (q.1 + 55000 ≤ s.now)
    | none => false

/-- An lrel in time is answered before the lease would run out (R157). -/
def State.dueDrain (s : State) (l : LeaseEnt) : Bool :=
  l.state == .draining && l.lrel.isSome && decide (l.expiry ≤ s.now + 1) && !s.sliceTested (dieOf l.who.core) l.ctx l.line

/-- Deadlines of the memory system and the engines. -/
def State.dueMem (s : State) : List (Option Instr) :=
  [s.dueLessee,
   (s.m.leases.find? fun l => l.state == .held && decide (l.expiry ≤ s.now)).map fun l => .leaseExpiry l.id,
   (s.m.leases.find? s.dueDrain).map fun l => .leaseDrainComplete l.id,
   (s.m.waits.find? (WaitEnt.expired s.now)).map fun w => .waitaTimeout w.id,
   (s.e.streams.find? fun q => decide (q.since + 4400 ≤ s.now)).map fun q => .bstreamForcedClose q.core q.tok,
   (s.e.sessions.find? fun q => decide (q.used + 22000 ≤ s.now) && !s.e.inUse q).map fun q => .bankSessionIdleEnd q.core q.tok,
   (s.e.entries.find? (MEnt.agingDue s.now)).map fun m => .matrixClassAging m.core m.idx,
   (s.e.entries.find? fun m => s.dueGrant m.core).map fun m => .matrixGrant m.core,
   ((List.range 4).find? s.dueSnoop).map .hostSnoopTimeout,
   (s.m.hostLines.find? s.dueHost).map fun h => .hostSnoop h.pa true,
   s.dueResend]

/-- An event whose time has come; the next cycle waits for it. -/
def State.due (s : State) : Option Instr :=
  match s.y.freeze with
  | some f => if f.ptp + freezeBound ≤ s.ptp then some .freezeBound else none
  | none =>
    match s.wgs.findSome? s.dueWg with
    | some i => some i
    | none => match s.dueMem.findSome? id with
      | some i => some i
      | none => s.wgs.findSome? s.dueSelect

/-! Events that may happen (R262, R305). -/

/-- In a freeze PTP time and Abmen go on, and the host reaches BAR0; a halt line that rises then takes effect afterwards,
because units stop only in events that wait. -/
def freezeAllows : Instr → Bool
  | .freezeEnd _ | .freezeBound | .ptpMessage _ | .registerWrite _ _ _ | .faultackMap _ | .faultackUnmappable _ | .evtailWrite _
  | .evlostClear | .uncorrectableStateError _ _ | .errorDetect _ _ => true
  | _ => false

/-- Before boot: the boot itself and the mailbox. -/
def bootAllows : Instr → Bool
  | .powerOnBoot _ _ _ _ | .attestationRequest _ | .doeIdeKeySet _ _ | .ptpMessage _ => true
  | _ => false

/-- The event may happen now. -/
def State.allows (s : State) (i : Instr) : Bool :=
  i.isEvent && (s.y.freeze.isNone || freezeAllows i) && (s.y.booted || bootAllows i)

end Sys2Proof.Machine
end

