-- ==== Sys2Proof/Machine/Dispatch.lean ====
section
/-! DEFINITION. Dispatch: one arm a constructor, each a direct call of that instruction's meaning. -/

namespace Sys2Proof.Machine

def exec (i : Instr) (s : State) : Host.Outcome State Fault Refusal :=
  match i with
  | .iadd h ty d a b => Sys2Proof.Machine.execIadd h ty d a b s
  | .iaddi h d a imm => Sys2Proof.Machine.execIaddi h d a imm s
  | .isub h ty d a b => Sys2Proof.Machine.execIsub h ty d a b s
  | .imul h ty d a b => Sys2Proof.Machine.execImul h ty d a b s
  | .imulh h ty d a b => Sys2Proof.Machine.execImulh h ty d a b s
  | .imad h ty d a b c => Sys2Proof.Machine.execImad h ty d a b c s
  | .imadw h ty d a b c => Sys2Proof.Machine.execImadw h ty d a b c s
  | .iadd64 h sub d a b => Sys2Proof.Machine.execIadd64 h sub d a b s
  | .imin h ty d a b => Sys2Proof.Machine.execImin h ty d a b s
  | .imax h ty d a b => Sys2Proof.Machine.execImax h ty d a b s
  | .iabs h d a => Sys2Proof.Machine.execIabs h d a s
  | .and h ty d a b => Sys2Proof.Machine.execAnd h ty d a b s
  | .or h ty d a b => Sys2Proof.Machine.execOr h ty d a b s
  | .xor h ty d a b => Sys2Proof.Machine.execXor h ty d a b s
  | .andi h d a imm => Sys2Proof.Machine.execAndi h d a imm s
  | .ori h d a imm => Sys2Proof.Machine.execOri h d a imm s
  | .xori h d a imm => Sys2Proof.Machine.execXori h d a imm s
  | .shl h ty d a b => Sys2Proof.Machine.execShl h ty d a b s
  | .shr h ty d a b => Sys2Proof.Machine.execShr h ty d a b s
  | .sar h ty d a b => Sys2Proof.Machine.execSar h ty d a b s
  | .shli h d a imm => Sys2Proof.Machine.execShli h d a imm s
  | .shri h d a imm => Sys2Proof.Machine.execShri h d a imm s
  | .sari h d a imm => Sys2Proof.Machine.execSari h d a imm s
  | .rotl h ty d a b => Sys2Proof.Machine.execRotl h ty d a b s
  | .bfe h ty d a b c => Sys2Proof.Machine.execBfe h ty d a b c s
  | .bfi h d a b c => Sys2Proof.Machine.execBfi h d a b c s
  | .popc h d a => Sys2Proof.Machine.execPopc h d a s
  | .clz h d a => Sys2Proof.Machine.execClz h d a s
  | .brev h d a => Sys2Proof.Machine.execBrev h d a s
  | .sel h ty pn inv d a b => Sys2Proof.Machine.execSel h ty pn inv d a b s
  | .iset h ty cmp d a b => Sys2Proof.Machine.execIset h ty cmp d a b s
  | .pset h fn d a b => Sys2Proof.Machine.execPset h fn d a b s
  | .mov h ty d a => Sys2Proof.Machine.execMov h ty d a s
  | .movi h d imm => Sys2Proof.Machine.execMovi h d imm s
  | .movh h d a imm => Sys2Proof.Machine.execMovh h d a imm s
  | .lea h d a b c => Sys2Proof.Machine.execLea h d a b c s
  | .lea64 h ty d a b c => Sys2Proof.Machine.execLea64 h ty d a b c s
  | .idiv h ty d a b => Sys2Proof.Machine.execIdiv h ty d a b s
  | .irem h ty d a b => Sys2Proof.Machine.execIrem h ty d a b s
  | .p2v h d => Sys2Proof.Machine.execP2v h d s
  | .v2p h a b => Sys2Proof.Machine.execV2p h a b s
  | .fadd h rm d a b => Sys2Proof.Machine.execFadd h rm d a b s
  | .fsub h rm d a b => Sys2Proof.Machine.execFsub h rm d a b s
  | .fmul h rm d a b => Sys2Proof.Machine.execFmul h rm d a b s
  | .ffma h rm d a b c => Sys2Proof.Machine.execFfma h rm d a b c s
  | .fmin h d a b => Sys2Proof.Machine.execFmin h d a b s
  | .fmax h d a b => Sys2Proof.Machine.execFmax h d a b s
  | .famax h d a b => Sys2Proof.Machine.execFamax h d a b s
  | .fneg h d a => Sys2Proof.Machine.execFneg h d a s
  | .fabs h d a => Sys2Proof.Machine.execFabs h d a s
  | .fset h cmp d a b => Sys2Proof.Machine.execFset h cmp d a b s
  | .frcp h d a => Sys2Proof.Machine.execFrcp h d a s
  | .frsq h d a => Sys2Proof.Machine.execFrsq h d a s
  | .fsqrt h rm d a => Sys2Proof.Machine.execFsqrt h rm d a s
  | .fex2 h d a => Sys2Proof.Machine.execFex2 h d a s
  | .flg2 h d a => Sys2Proof.Machine.execFlg2 h d a s
  | .fsin h d a => Sys2Proof.Machine.execFsin h d a s
  | .fcos h d a => Sys2Proof.Machine.execFcos h d a s
  | .fscale h rm d a b => Sys2Proof.Machine.execFscale h rm d a b s
  | .frnd h rm d a => Sys2Proof.Machine.execFrnd h rm d a s
  | .fclass h ft d a => Sys2Proof.Machine.execFclass h ft d a s
  | .hadd2 h rm d a b => Sys2Proof.Machine.execHadd2 h rm d a b s
  | .hmul2 h rm d a b => Sys2Proof.Machine.execHmul2 h rm d a b s
  | .hfma2 h rm d a b c => Sys2Proof.Machine.execHfma2 h rm d a b c s
  | .badd2 h rm d a b => Sys2Proof.Machine.execBadd2 h rm d a b s
  | .bmul2 h rm d a b => Sys2Proof.Machine.execBmul2 h rm d a b s
  | .bfma2 h rm d a b c => Sys2Proof.Machine.execBfma2 h rm d a b c s
  | .hmnx2 h mx d a b => Sys2Proof.Machine.execHmnx2 h mx d a b s
  | .bmnx2 h mx d a b => Sys2Proof.Machine.execBmnx2 h mx d a b s
  | .cvt h cv ns rm d a => Sys2Proof.Machine.execCvt h cv ns rm d a s
  | .cvtp h pt rm d a b => Sys2Proof.Machine.execCvtp h pt rm d a b s
  | .e4pk h hi ns d a b c => Sys2Proof.Machine.execE4pk h hi ns d a b c s
  | .e4up h byte d a => Sys2Proof.Machine.execE4up h byte d a s
  | .fdot2 h pt rm d a b c => Sys2Proof.Machine.execFdot2 h pt rm d a b c s
  | .pair stall x y => Sys2Proof.Machine.execPair stall x y s
  | .nop h => Sys2Proof.Machine.execNop h s
  | .bra h imm => Sys2Proof.Machine.execBra h imm s
  | .brx h a b => Sys2Proof.Machine.execBrx h a b s
  | .call h d imm => Sys2Proof.Machine.execCall h d imm s
  | .ret h a => Sys2Proof.Machine.execRet h a s
  | .exit h => Sys2Proof.Machine.execExit h s
  | .sign h cn => Sys2Proof.Machine.execSign h cn s
  | .join h cn => Sys2Proof.Machine.execJoin h cn s
  | .joinr h cn d a => Sys2Proof.Machine.execJoinr h cn d a s
  | .cdecl h cn kind a => Sys2Proof.Machine.execCdecl h cn kind a s
  | .yield h => Sys2Proof.Machine.execYield h s
  | .sleep h a => Sys2Proof.Machine.execSleep h a s
  | .brk h code => Sys2Proof.Machine.execBrk h code s
  | .isync h => Sys2Proof.Machine.execIsync h s
  | .icinv h sc a b => Sys2Proof.Machine.execIcinv h sc a b s
  | .trap h a => Sys2Proof.Machine.execTrap h a s
  | .ld h sc hn sx sz d a b => Sys2Proof.Machine.execLd h sc hn sx sz d a b s
  | .st h sc hn sz a b c => Sys2Proof.Machine.execSt h sc hn sz a b c s
  | .lda h sc hn sx sz d a b => Sys2Proof.Machine.execLda h sc hn sx sz d a b s
  | .strl h sc hn sz a b c => Sys2Proof.Machine.execStrl h sc hn sz a b c s
  | .ldt h sx sz d a b => Sys2Proof.Machine.execLdt h sx sz d a b s
  | .stt h sz a b c => Sys2Proof.Machine.execStt h sz a b c s
  | .pref h sc hn a b => Sys2Proof.Machine.execPref h sc hn a b s
  | .cwb h sc a b => Sys2Proof.Machine.execCwb h sc a b s
  | .cinv h sc a b => Sys2Proof.Machine.execCinv h sc a b s
  | .chint h hn a b => Sys2Proof.Machine.execChint h hn a b s
  | .own h d a => Sys2Proof.Machine.execOwn h d a s
  | .tgive h a b => Sys2Proof.Machine.execTgive h a b s
  | .ttake h a b => Sys2Proof.Machine.execTtake h a b s
  | .vset h slot d a b => Sys2Proof.Machine.execVset h slot d a b s
  | .vclr h slot => Sys2Proof.Machine.execVclr h slot s
  | .vqry h slot d a => Sys2Proof.Machine.execVqry h slot d a s
  | .vaddrIa h d a b => Sys2Proof.Machine.execVaddrIa h d a b s
  | .vaddrVa h d a b => Sys2Proof.Machine.execVaddrVa h d a b s
  | .vfill h slot a => Sys2Proof.Machine.execVfill h slot a s
  | .atom h op ty sc d a b c => Sys2Proof.Machine.execAtom h op ty sc d a b c s
  | .acas h ty sc d a b c => Sys2Proof.Machine.execAcas h ty sc d a b c s
  | .atomf h op sc d a b c => Sys2Proof.Machine.execAtomf h op sc d a b c s
  | .red h op ty sc a b c => Sys2Proof.Machine.execRed h op ty sc a b c s
  | .redf h op sc a b c => Sys2Proof.Machine.execRedf h op sc a b c s
  | .lease h d a b => Sys2Proof.Machine.execLease h d a b s
  | .lrel h d a => Sys2Proof.Machine.execLrel h d a s
  | .lchk h d a => Sys2Proof.Machine.execLchk h d a s
  | .waita h cmp ty sc d a b c => Sys2Proof.Machine.execWaita h cmp ty sc d a b c s
  | .awinit h a b => Sys2Proof.Machine.execAwinit h a b s
  | .awadd h d a b => Sys2Proof.Machine.execAwadd h d a b s
  | .awwait h d a b => Sys2Proof.Machine.execAwwait h d a b s
  | .fence h kind sc => Sys2Proof.Machine.execFence h kind sc s
  | .barSync h sc bn a => Sys2Proof.Machine.execBarSync h sc bn a s
  | .barArrive h sc bn a => Sys2Proof.Machine.execBarArrive h sc bn a s
  | .barWait h sc bn => Sys2Proof.Machine.execBarWait h sc bn s
  | .cbarSync h sc bn a => Sys2Proof.Machine.execCbarSync h sc bn a s
  | .cbarArrive h sc bn a => Sys2Proof.Machine.execCbarArrive h sc bn a s
  | .cbarWait h sc bn => Sys2Proof.Machine.execCbarWait h sc bn s
  | .efence h => Sys2Proof.Machine.execEfence h s
  | .tmma h fmt sn kg kn d a b c => Sys2Proof.Machine.execTmma h fmt sn kg kn d a b c s
  | .tmmau h fmt sn kg kn d a b c => Sys2Proof.Machine.execTmmau h fmt sn kg kn d a b c s
  | .tperm h fmt kg kn d a b c => Sys2Proof.Machine.execTperm h fmt kg kn d a b c s
  | .ttrn h fmt kg kn d a c => Sys2Proof.Machine.execTtrn h fmt kg kn d a c s
  | .trsum h fmt col kg kn d a c => Sys2Proof.Machine.execTrsum h fmt col kg kn d a c s
  | .tzero h kg kn d c => Sys2Proof.Machine.execTzero h kg kn d c s
  | .tlda h fmt kg kn d a c => Sys2Proof.Machine.execTlda h fmt kg kn d a c s
  | .tsta h fmt sn kg kn d a b c => Sys2Proof.Machine.execTsta h fmt sn kg kn d a b c s
  | .tcommit h gn => Sys2Proof.Machine.execTcommit h gn s
  | .twait h gn d => Sys2Proof.Machine.execTwait h gn d s
  | .ttest h gn d => Sys2Proof.Machine.execTtest h gn d s
  | .tscl h sb idx a => Sys2Proof.Machine.execTscl h sb idx a s
  | .tpred h fn kn d a => Sys2Proof.Machine.execTpred h fn kn d a s
  | .tcls h d a => Sys2Proof.Machine.execTcls h d a s
  | .tcancel h gn d => Sys2Proof.Machine.execTcancel h gn d s
  | .dslot h d a => Sys2Proof.Machine.execDslot h d a s
  | .dmul h d a b c => Sys2Proof.Machine.execDmul h d a b c s
  | .dfresh h a => Sys2Proof.Machine.execDfresh h a s
  | .dinval h d a => Sys2Proof.Machine.execDinval h d a s
  | .dstat h d a b => Sys2Proof.Machine.execDstat h d a b s
  | .cpy h d a b => Sys2Proof.Machine.execCpy h d a b s
  | .cpyx h d a b => Sys2Proof.Machine.execCpyx h d a b s
  | .cpyk h d a b => Sys2Proof.Machine.execCpyk h d a b s
  | .cpyz h d a b => Sys2Proof.Machine.execCpyz h d a b s
  | .bsopen h d a b => Sys2Proof.Machine.execBsopen h d a b s
  | .bsrow h d a b => Sys2Proof.Machine.execBsrow h d a b s
  | .bsclose h d a => Sys2Proof.Machine.execBsclose h d a s
  | .cstat h d a b => Sys2Proof.Machine.execCstat h d a b s
  | .bkon h d a b => Sys2Proof.Machine.execBkon h d a b s
  | .bkoff h d a => Sys2Proof.Machine.execBkoff h d a s
  | .bkact h d a b => Sys2Proof.Machine.execBkact h d a b s
  | .bkbc h d a b => Sys2Proof.Machine.execBkbc h d a b s
  | .bkmac h d a b => Sys2Proof.Machine.execBkmac h d a b s
  | .bkred h d a b => Sys2Proof.Machine.execBkred h d a b s
  | .bkrd h d a b => Sys2Proof.Machine.execBkrd h d a b s
  | .bkclr h d a b => Sys2Proof.Machine.execBkclr h d a b s
  | .maxpy h d a b => Sys2Proof.Machine.execMaxpy h d a b s
  | .mscal h d a b => Sys2Proof.Machine.execMscal h d a b s
  | .msum h d a b => Sys2Proof.Machine.execMsum h d a b s
  | .mfill h d a b => Sys2Proof.Machine.execMfill h d a b s
  | .fput h d a b => Sys2Proof.Machine.execFput h d a b s
  | .fputs h d a b => Sys2Proof.Machine.execFputs h d a b s
  | .fget h d a b => Sys2Proof.Machine.execFget h d a b s
  | .wcnt h d a b => Sys2Proof.Machine.execWcnt h d a b s
  | .srd h num ot d a => Sys2Proof.Machine.execSrd h num ot d a s
  | .swr h num ot a b => Sys2Proof.Machine.execSwr h num ot a b s
  | .rgset h a b c => Sys2Proof.Machine.execRgset h a b c s
  | .ctxswOut h d a => Sys2Proof.Machine.execCtxswOut h d a s
  | .ctxswIn h d a => Sys2Proof.Machine.execCtxswIn h d a s
  | .ctxswDrop h d a => Sys2Proof.Machine.execCtxswDrop h d a s
  | .pzap h sc a b => Sys2Proof.Machine.execPzap h sc a b s
  | .launch h d a b => Sys2Proof.Machine.execLaunch h d a b s
  | .cancel h hard lvl a => Sys2Proof.Machine.execCancel h hard lvl a s
  | .cntr h free word lvl d a => Sys2Proof.Machine.execCntr h free word lvl d a s
  | .time h d => Sys2Proof.Machine.execTime h d s
  | .waitt h a => Sys2Proof.Machine.execWaitt h a s
  | .perf h clr d a => Sys2Proof.Machine.execPerf h clr d a s
  | .stopr h d a => Sys2Proof.Machine.execStopr h d a s
  | .halt h code d a => Sys2Proof.Machine.execHalt h code d a s
  | .resume h d a => Sys2Proof.Machine.execResume h d a s
  | .collieSelect core q => Sys2Proof.Machine.execCollieSelect core q s
  | .yieldExpiry core slot tid => Sys2Proof.Machine.execYieldExpiry core slot tid s
  | .sleepExpiry core slot tid => Sys2Proof.Machine.execSleepExpiry core slot tid s
  | .barrierArrivalApply core slot tid => Sys2Proof.Machine.execBarrierArrivalApply core slot tid s
  | .scoreboardResultArrive id => Sys2Proof.Machine.execScoreboardResultArrive id s
  | .ifetchFill core slot tid => Sys2Proof.Machine.execIfetchFill core slot tid s
  | .homeReadRequest id sec => Sys2Proof.Machine.execHomeReadRequest id sec s
  | .writeArrival id => Sys2Proof.Machine.execWriteArrival id s
  | .writeComplete id => Sys2Proof.Machine.execWriteComplete id s
  | .tenureExpiry core ctx sec => Sys2Proof.Machine.execTenureExpiry core ctx sec s
  | .loadDataReturn id => Sys2Proof.Machine.execLoadDataReturn id s
  | .viewCompose id => Sys2Proof.Machine.execViewCompose id s
  | .pageWalk die ctrl ctx ia acc => Sys2Proof.Machine.execPageWalk die ctrl ctx ia acc s
  | .sideLogRetire id => Sys2Proof.Machine.execSideLogRetire id s
  | .sideLogReplay core seq => Sys2Proof.Machine.execSideLogReplay core seq s
  | .retryResend id => Sys2Proof.Machine.execRetryResend id s
  | .atomicExecute id => Sys2Proof.Machine.execAtomicExecute id s
  | .msuExecute id => Sys2Proof.Machine.execMsuExecute id s
  | .waitaTimeout id => Sys2Proof.Machine.execWaitaTimeout id s
  | .leaseRequestArrive id => Sys2Proof.Machine.execLeaseRequestArrive id s
  | .leaseGrant id => Sys2Proof.Machine.execLeaseGrant id s
  | .leaseExpiry id => Sys2Proof.Machine.execLeaseExpiry id s
  | .leaseDrainComplete id => Sys2Proof.Machine.execLeaseDrainComplete id s
  | .dirRds ctx line die => Sys2Proof.Machine.execDirRds ctx line die s
  | .dirRdx ctx line die => Sys2Proof.Machine.execDirRdx ctx line die s
  | .dirWriteback ctx line => Sys2Proof.Machine.execDirWriteback ctx line s
  | .dirWritebackKeep ctx line => Sys2Proof.Machine.execDirWritebackKeep ctx line s
  | .dirCleanEviction ctx line => Sys2Proof.Machine.execDirCleanEviction ctx line s
  | .visitorProbe ctx line die => Sys2Proof.Machine.execVisitorProbe ctx line die s
  | .visitorAck ctx line die => Sys2Proof.Machine.execVisitorAck ctx line die s
  | .dirAckReceive ctx line die => Sys2Proof.Machine.execDirAckReceive ctx line die s
  | .hostMemRead ctx ia cache => Sys2Proof.Machine.execHostMemRead ctx ia cache s
  | .hostMemWrite ctx ia data => Sys2Proof.Machine.execHostMemWrite ctx ia data s
  | .bisnpResponse ctx line data => Sys2Proof.Machine.execBisnpResponse ctx line data s
  | .hostSnoop line inv => Sys2Proof.Machine.execHostSnoop line inv s
  | .hostSnoopTimeout die => Sys2Proof.Machine.execHostSnoopTimeout die s
  | .trapTaken core slot => Sys2Proof.Machine.execTrapTaken core slot s
  | .uncorrectableStateError core slot => Sys2Proof.Machine.execUncorrectableStateError core slot s
  | .unitStop ctx unit => Sys2Proof.Machine.execUnitStop ctx unit s
  | .haltComplete ctx => Sys2Proof.Machine.execHaltComplete ctx s
  | .contextEvict core slot => Sys2Proof.Machine.execContextEvict core slot s
  | .freezeStart stack => Sys2Proof.Machine.execFreezeStart stack s
  | .freezeEnd temp => Sys2Proof.Machine.execFreezeEnd temp s
  | .freezeBound => Sys2Proof.Machine.execFreezeBound s
  | .throttleEnd reading => Sys2Proof.Machine.execThrottleEnd reading s
  | .matrixGrant core => Sys2Proof.Machine.execMatrixGrant core s
  | .matrixClassAging core idx => Sys2Proof.Machine.execMatrixClassAging core idx s
  | .matrixEntryComplete core idx => Sys2Proof.Machine.execMatrixEntryComplete core idx s
  | .deltaWriteback core idx => Sys2Proof.Machine.execDeltaWriteback core idx s
  | .cmdAccept id => Sys2Proof.Machine.execCmdAccept id s
  | .engineCommandComplete id => Sys2Proof.Machine.execEngineCommandComplete id s
  | .bstreamForcedClose core tok => Sys2Proof.Machine.execBstreamForcedClose core tok s
  | .bankSessionIdleEnd core tok => Sys2Proof.Machine.execBankSessionIdleEnd core tok s
  | .putArrive chip exp wof right size data poi sig => Sys2Proof.Machine.execPutArrive chip exp wof right size data poi sig s
  | .putAck id bytes code => Sys2Proof.Machine.execPutAck id bytes code s
  | .flitReplay replay => Sys2Proof.Machine.execFlitReplay replay s
  | .ptpMessage time => Sys2Proof.Machine.execPtpMessage time s
  | .qtailWrite q val => Sys2Proof.Machine.execQtailWrite q val s
  | .qtailReset q val => Sys2Proof.Machine.execQtailReset q val s
  | .qerrClear q => Sys2Proof.Machine.execQerrClear q s
  | .packetTake q => Sys2Proof.Machine.execPacketTake q s
  | .launchStart q => Sys2Proof.Machine.execLaunchStart q s
  | .wgPlace ctx lid core => Sys2Proof.Machine.execWgPlace ctx lid core s
  | .wgComplete core slot => Sys2Proof.Machine.execWgComplete core slot s
  | .faultackMap val => Sys2Proof.Machine.execFaultackMap val s
  | .faultackUnmappable val => Sys2Proof.Machine.execFaultackUnmappable val s
  | .xlinvWrite val => Sys2Proof.Machine.execXlinvWrite val s
  | .xlinvDone => Sys2Proof.Machine.execXlinvDone s
  | .evtailWrite val => Sys2Proof.Machine.execEvtailWrite val s
  | .evlostClear => Sys2Proof.Machine.execEvlostClear s
  | .winsyncWrite ctx => Sys2Proof.Machine.execWinsyncWrite ctx s
  | .expsyncWrite => Sys2Proof.Machine.execExpsyncWrite s
  | .patsetWrite val => Sys2Proof.Machine.execPatsetWrite val s
  | .diectlRst die => Sys2Proof.Machine.execDiectlRst die s
  | .diectlGate die => Sys2Proof.Machine.execDiectlGate die s
  | .diectlUngate die => Sys2Proof.Machine.execDiectlUngate die s
  | .dieReenter die ok => Sys2Proof.Machine.execDieReenter die ok s
  | .dieFail die => Sys2Proof.Machine.execDieFail die s
  | .errorDetect place corrected => Sys2Proof.Machine.execErrorDetect place corrected s
  | .selfTestDone outcome => Sys2Proof.Machine.execSelfTestDone outcome s
  | .accessTableWrite master idx base limit => Sys2Proof.Machine.execAccessTableWrite master idx base limit s
  | .powerOnBoot fw cfg repair versions => Sys2Proof.Machine.execPowerOnBoot fw cfg repair versions s
  | .attestationRequest nonce => Sys2Proof.Machine.execAttestationRequest nonce s
  | .registerWrite off width val => Sys2Proof.Machine.execRegisterWrite off width val s
  | .waittDeadline core slot tid => Sys2Proof.Machine.execWaittDeadline core slot tid s
  | .registerCacheFill core slot tid => Sys2Proof.Machine.execRegisterCacheFill core slot tid s
  | .icinvComplete id => Sys2Proof.Machine.execIcinvComplete id s
  | .contextCreation ctx => Sys2Proof.Machine.execContextCreation ctx s
  | .partitionReturn core slot => Sys2Proof.Machine.execPartitionReturn core slot s
  | .remoteGetArrive chip exp wof right size ask => Sys2Proof.Machine.execRemoteGetArrive chip exp wof right size ask s
  | .portRetrainComplete port => Sys2Proof.Machine.execPortRetrainComplete port s
  | .doeIdeKeySet stream key => Sys2Proof.Machine.execDoeIdeKeySet stream key s

end Sys2Proof.Machine
end

