-- ==== Sys2Proof/Machine/Step.lean ====
section
/-! DEFINITION. One step of the machine (log 1). In order: a path that Collie has latched is executed; else the next
move of the agenda is made; else the next free move. -/

namespace Sys2Proof.Machine

/-- A latched path: its instruction is executed, or its threads trap. -/
def State.runPath (s : State) (p : Path) : Host.Outcome State Fault Refusal :=
  match s.issue p with
  | .nowhere => .fault .noWorkgroup
  | .done s => .next s
  | .run i s => exec i s

/-- An event, with the requests that its unit makes in it (log 70). -/
def State.runEvent (s : State) (i : Instr) : Host.Outcome State Fault Refusal :=
  match exec i (s.asking i) with
  | .next s => .next (s.asked i)
  | r => r

/-- The request of a unit is due, and the event in which it is made moves it on (log 70). -/
def State.unitServed (s : State) (u : UReq) : Bool :=
  s.y.freeze.isNone && s.unitDue u && match s.runEvent u.act with
    | .next s' => !s'.m.unitq.any fun v => v.id == u.id && v.place == u.place && v.retry == u.retry
    | _ => false

/-- An event whose time has come: a deadline, or a request of a unit that is served now or goes out again (R117, R155). -/
def State.dueNow (s : State) : Option Instr :=
  match s.due with
  | some i => some i
  | none => (s.m.unitq.find? s.unitServed).map (·.act)

/-- A move: an event that may happen now, a cycle, or a read of BAR0. An event whose time has come is made before the cycle
ends. -/
def State.runMove (s : State) (m : Move) : Host.Outcome State Fault Refusal :=
  match m with
  | .act i => if s.allows i then s.runEvent i else .next s
  | .tick d => match s.dueNow with
    | some i => s.runEvent i
    | none => .next (s.tick d)
  | .read off width => .next (s.reply (.value (s.barRead off width)))

/-- One step. -/
def step (s : State) : Host.Outcome State Fault Refusal :=
  match s.latch with
  | p :: rest => ({ s with latch := rest } : State).runPath p
  | [] => match s.agenda with
    | m :: rest => ({ s with agenda := rest } : State).runMove m
    | [] => ({ s with moves := s.moves + 1 } : State).runMove (Config.freeMove s.moves)

/-- Thread 0 of a workgroup of one, alone in slot 0 of core 0, at address 0 with a word fetched. It has every register and
accumulator tile that a kernel can ask for. -/
def fetchThread (w now : Nat) : Thread :=
  { newThread 383 0 now 0 with fbuf := [{ addr := 0, word := w, poi := false }] }

def fetchWg (w now uid : Nat) : Workgroup :=
  { core := 0, slot := 0, uid := uid, ctx := 0, lid := 1, flat := 0, wgid := (0, 0, 0), nwg := (1, 1, 1), shape := (1, 1, 1)
    cls := 0, regs := 383, accum := 48, tileBase := 0, ids := (0, 0, 0), entry := 0, threads := [fetchThread w now]
    w := List.replicate 64 { base := 0 }, c := List.replicate 16 {}, b := List.replicate 16 {}
    k := List.replicate 16 { base := 0 }, sa := List.replicate 4 { base := [] }, sb := List.replicate 4 { base := {} }
    mcls := { base := 0 }, tile := [], tpoi := [], gran := [], acc := List.replicate 48 [] }

/-- s with the instruction whose bits are w where step fetches its next one: in the fetch buffer of the thread that Collie
has latched, on a booted device, in a context that runs (log 1). -/
def State.withFetchWord (s : State) (nbits w : Nat) : State :=
  { s with
    wgs := fetchWg (w % 2 ^ nbits) s.now s.nextId :: s.wgs.filter fun g => !(g.core == 0 && g.slot == 0)
    nextId := s.nextId + 1
    latch := [{ core := 0, slot := 0, pc := 0, tids := [0], base := 0 }]
    ctxs := s.ctxs.modify 0 fun c => { c with state := .running, halt := {} }
    y := { s.y with booted := true, freeze := none } }

end Sys2Proof.Machine
end

