-- ==== Sys2Proof/Safety.lean ====
section
/-! DEFINITION. What the statements about the machine are phrased in: when a thread executes an instruction normally,
what it then holds, and what a run keeps. -/

namespace Sys2Proof.Machine

/-- The thread of e is on the path that is being issued, runnable at the path's pc, in the workgroup of the path, whose
threads have distinct indexes. -/
structure Env.Issues (e : Env) : Prop where
  cur : e.s.cur = some e.path
  wg : e.s.wg? e.path.core e.path.slot = some e.g
  thread : e.g.thread? e.t.tid = some e.t
  on : e.t.tid ∈ e.path.tids
  run : e.t.run = .runnable
  pc : e.t.pc = e.path.pc
  distinct : (e.g.threads.map (·.tid)).Nodup

/-- The guard lets the thread execute the instruction (R30; a poisoned guard that reads false does not, log 24). -/
def Env.guarded (e : Env) (i : Instr) : Prop := e.guard i.hdr = true

/-- What the instruction uses is ready: no stall shortfall that the scoreboard checks, no result awaited (R44, R45). -/
def Env.ready (e : Env) (i : Instr) : Prop :=
  (e.chk = true → e.predReady i.hdr.g = true ∧ e.shortfall i = false) ∧ e.awaits i = false

/-- A lane-class instruction is executed by the thread: the guard holds, everything it uses is ready, and no cwb of the
thread is unfinished (R124). -/
def Env.runsLane (e : Env) (i : Instr) : Prop := e.Issues ∧ e.guarded i ∧ e.ready i ∧ e.cwbHolds = false

/-- An instruction of opcode 0x080 or above is executed by the one thread of the path: the guard holds, everything it
uses is ready and not poisoned, and no fence, acquire or release holds it (R30, R44, R45, R119, R160, R163). -/
structure Env.runs (e : Env) (i : Instr) : Prop where
  issues : e.Issues
  alone : e.path.tids = [e.t.tid]
  guard : e.guard i.hdr = true
  guardOk : (e.pred i.hdr.g).2 = false
  ready : e.ready i
  free : e.held i = false
  clean : e.poisoned i = false

/-- The environment in which its operands are read: a read of clock.lo latches clock.hi first (R36). -/
def Env.at_ (e : Env) (i : Instr) : Env := { e with t := e.latchClock i e.t }

/-- The cell of a lane result: a fixed latency, or a result still to arrive (R43, R44). -/
def Env.cell (e : Env) (i : Instr) (n : Nat) (x : Word) : VCell :=
  match i.latency with
  | some l => (e.t.v.getD n {}).put e.s.now l x (e.poisoned i)
  | none => .await e.s.nextId (e.s.now + arrivesIn i) x (e.poisoned i)

/-- A thread's result in a workgroup register: the write of this cycle is this thread's or a higher thread's (R38); a
result still to arrive is kept with its request (R44). -/
def Env.gaveW (e : Env) (i : Instr) (g : Workgroup) (t : Thread) (n : Nat) (x : Word) : Prop :=
  match i.latency with
  | some _ => ∃ v ∈ (g.w.getD n { base := 0 }).hist, v.issue = e.s.now ∧
      (e.t.tid < v.tid ∨ v.tid = e.t.tid ∧ v.val = x ∧ v.poi = e.poisoned i)
  | none => ∃ b ∈ t.wbusy, b.w = n ∧ b.tag = e.s.nextId ∧ b.val = x ∧ b.poi = e.poisoned i

/-- The thread of e has executed a lane-class instruction with these results: exec answers a next state, in which the
thread is past the instruction, its next issue is due after the stall count, and every destination holds its result,
poisoned if a source was (R42-R45, R71, R119). -/
def Env.gives (e : Env) (i : Instr) (r : LaneRes) : Prop :=
  ∃ s g t, exec i e.s = .next s ∧ s.wg? e.path.core e.path.slot = some g ∧ g.thread? e.t.tid = some t ∧
    t.pc = e.t.pc + 8 ∧ t.next = e.s.now + max 1 i.hdr.stall ∧ t.run = .runnable ∧
    t.flags = stick e.t.flags r.fl ∧
    (∀ n x, (Reg.v n, x) ∈ r.regs → n < e.t.v.length → t.v.getD n {} = e.cell i n x) ∧
    (∀ n x, (Reg.w n, x) ∈ r.regs → n < e.g.w.length → e.gaveW i g t n x) ∧
    (∀ n b, (n, b) ∈ r.preds → n < e.t.p.length →
      (t.p.getD n {}).val = b ∧ (t.p.getD n {}).poi = e.poisoned i)

/-- A number (-1)^n * m * 2^k in units of 2^j, for j not above k. -/
def scaled (n : Bool) (m : Nat) (k j : Int) : Int := (if n then -1 else 1) * (m * 2 ^ (k - j).toNat : Nat)

/-- An integer that the magnitude m * 2^-d rounds to: not a whole unit away, on the side that the mode says, the even one
of a tie (R70). -/
def roundsTo (rm : Rm) (n : Bool) (m d i : Nat) : Prop :=
  i * 2 ^ d < m + 2 ^ d ∧ m < (i + 1) * 2 ^ d ∧ match rm with
    | .rn => 2 * m ≤ (2 * i + 1) * 2 ^ d ∧ 2 * i * 2 ^ d ≤ 2 * m + 2 ^ d ∧
        (2 * m = (2 * i + 1) * 2 ^ d ∨ 2 * i * 2 ^ d = 2 * m + 2 ^ d → i % 2 = 0)
    | .rz => i * 2 ^ d ≤ m
    | .ru => if n then i * 2 ^ d ≤ m else m ≤ i * 2 ^ d
    | .rd => if n then m ≤ i * 2 ^ d else i * 2 ^ d ≤ m

/-- The full form that a slot of a pair is equivalent to (R41): destination and source registers d and s. -/
def slotForm (h : Hdr) (t : Slot) (d s : Nat) : Instr :=
  let imm := ((BitVec.ofNat 7 t.m).signExtend 28).toNat
  match t.op with
  | 0 => .mov h .i32 (.v d) (.v s)
  | 1 => .iadd h .i32 (.v d) (.v d) (.v s)
  | 2 => .isub h .i32 (.v d) (.v d) (.v s)
  | 3 => .imul h .i32 (.v d) (.v d) (.v s)
  | 4 => .imin h .i32 (.v d) (.v d) (.v s)
  | 5 => .imax h .i32 (.v d) (.v d) (.v s)
  | 6 => .and h .i32 (.v d) (.v d) (.v s)
  | 7 => .or h .i32 (.v d) (.v d) (.v s)
  | 8 => .xor h .i32 (.v d) (.v d) (.v s)
  | 9 => .shli h (.v d) (.v s) t.m
  | 10 => .shri h (.v d) (.v s) t.m
  | 11 => .sari h (.v d) (.v s) t.m
  | 12 => .iaddi h (.v d) (.v s) imm
  | 13 => .movi h (.v d) imm
  | 14 => .fadd h .rn (.v d) (.v d) (.v s)
  | 15 => .fsub h .rn (.v d) (.v d) (.v s)
  | 16 => .fmul h .rn (.v d) (.v d) (.v s)
  | 17 => .fmin h (.v d) (.v d) (.v s)
  | 18 => .fmax h (.v d) (.v d) (.v s)
  | 19 => .hadd2 h .rn (.v d) (.v d) (.v s)
  | 20 => .hmul2 h .rn (.v d) (.v d) (.v s)
  | 21 => .badd2 h .rn (.v d) (.v d) (.v s)
  | 22 => .bmul2 h .rn (.v d) (.v d) (.v s)
  | 23 => .fneg h (.v d) (.v s)
  | 24 => .fabs h (.v d) (.v s)
  | 25 => .iabs h (.v d) (.v s)
  | 26 => .popc h (.v d) (.v s)
  | 27 => .clz h (.v d) (.v s)
  | 28 => .brev h (.v d) (.v s)
  | 29 => .cvt h (.ofInt .i32 .f32) false .rn (.v d) (.v s)
  | _ => .cvt h (.toInt .i32 .f32) false .rz (.v d) (.v s)

/-- exec answers s with the thread changed. -/
def Env.leaves (e : Env) (i : Instr) (s : State) (f : Thread → Thread) : Prop :=
  exec i e.s = .next (s.modThread e.g.core e.g.slot e.t.tid f)

/-- The instruction retires: exec answers the state s, with the thread past the instruction (R42, R93). -/
def Env.retires (e : Env) (i : Instr) (s : State) : Prop :=
  e.leaves i s fun t => e.latchClock i (t.retire e.s.now i.hdr.stall (e.t.pc + 8))

/-- The instruction transfers: the thread goes on at a pc (R94, R95). -/
def Env.goes (e : Env) (i : Instr) (s : State) (pc : DWord) : Prop :=
  e.leaves i s fun t => e.latchClock i (t.retire e.s.now i.hdr.stall pc)

/-- The instruction blocks: it has issued, and the thread stays at it until what it awaits comes (R87). -/
def Env.blocks (e : Env) (i : Instr) (s : State) (b : Blk) : Prop :=
  e.leaves i s fun t => { e.latchClock i (t.retire e.s.now i.hdr.stall e.t.pc) with run := .blocked b }

/-- The thread takes a trap at the instruction (R251): cause, code, fault address, resume address. -/
def Env.traps (e : Env) (i : Instr) (cause : Nat) (code : Word) (faddr resume : DWord) : Prop :=
  e.leaves i e.s fun t => t.trap cause code e.t.pc faddr resume

/-- The thread takes a trap that resumes after the instruction (R42, R251, R253). -/
def Env.trapsAfter (e : Env) (i : Instr) (cause : Nat) (code : Word) : Prop :=
  e.leaves i e.s fun t => { t.trap cause code e.t.pc 0 (e.t.pc + 8) with next := e.s.now + max 1 i.hdr.stall }

/-! The thread and its workgroup in another state, and what stays the same. -/

def Env.thr (e : Env) (s : State) : Option Thread := s.thread? e.path.core e.path.slot e.t.tid

def Env.wg (e : Env) (s : State) : Option Workgroup := s.wg? e.path.core e.path.slot

/-- A register has received an ordinary word in state s, in this cycle (R38, R44). -/
def Env.got (e : Env) (s : State) (r : Reg) (x : Word) : Prop :=
  match r with
  | .v n => n < e.t.v.length → ∃ t, e.thr s = some t ∧ t.v.getD n {} = .arrived x false
  | .w n => n < e.g.w.length → ∃ g, e.wg s = some g ∧ ∃ v ∈ (g.w.getD n { base := 0 }).hist, v.issue = e.s.now ∧
      (e.t.tid < v.tid ∨ v.tid = e.t.tid ∧ v.val = x ∧ v.poi = false)

/-- The registers d, d+1, ... of the thread, k of them, await request id; its other v registers are as before (R44). -/
def Env.awaiting (e : Env) (s : State) (id d k : Nat) : Prop :=
  ∃ t, e.thr s = some t ∧ (∀ j, d ≤ j → j < d + k → j < e.t.v.length → (t.v.getD j {}).tag = id) ∧
    ∀ j, j < d ∨ d + k ≤ j → t.v.getD j {} = e.t.v.getD j {}

/-- A register group awaits a request: v registers in the thread, w registers in its scoreboard (R44). -/
def Env.awaitingReg (e : Env) (s : State) (id : Nat) (d : Reg) (k : Nat) : Prop :=
  match d with
  | .v n => e.awaiting s id n k
  | .w n => ∃ t, e.thr s = some t ∧ (∀ j < k, ∃ b ∈ t.wbusy, b.w = n + j ∧ b.tag = id) ∧ t.v = e.t.v

/-- A thread named by a request has received an ordinary word in a v register, in state s'. -/
def State.gave (s s' : State) (w : Who) (n : Nat) (x : Word) : Prop :=
  ∀ t, s.thread? w.core w.slot w.tid = some t → n < t.v.length →
    ∃ t', s'.thread? w.core w.slot w.tid = some t' ∧ t'.v.getD n {} = .arrived x false

/-- No byte of memory and no poison differs. -/
def State.sameBytes (s s' : State) : Prop :=
  s'.m.cells = s.m.cells ∧ s'.m.host = s.m.host ∧ s'.m.poison = s.m.poison ∧ s'.m.scrub = s.m.scrub ∧
    s'.m.hostPoison = s.m.hostPoison

/-- The canonical form of memory: bytes and poison lists (log 3). -/
def Mem.canon (m : Mem) : Prop :=
  Memory.wf m.cells = true ∧ Memory.wf m.host = true ∧ nsWf m.poison = true ∧ nsWf m.hostPoison = true ∧ nsWf m.scrub = true

/-- A range register lets the access through to base memory (R102, R103, R127, R296). -/
def Env.plain (e : Env) (va : DWord) (n : Nat) (acc : Acc) (r : Range) : Prop :=
  e.ctx.match? va = some r ∧ r.allows acc = true ∧ va.toNat % n = 0 ∧ e.ctx.inAperture (r.ia va) = false ∧
    e.ctx.window? (r.ia va) = none

/-- Instructions of opcode 0x080 and above that act on no thread but their own: all but those of convergence, barriers,
arrival words, work and contexts (R97, R152, R166, R167, R269, R270, R280, R281). -/
def ownThreadOnly (i : Instr) : Bool := !i.laneClass && !i.isEvent && match i with
  | .sign _ _ | .join _ _ | .joinr _ _ _ _ | .cdecl _ _ _ _ | .exit _ | .barSync _ _ _ _ | .barArrive _ _ _ _ | .barWait _ _ _
  | .cbarSync _ _ _ _ | .cbarArrive _ _ _ _ | .cbarWait _ _ _ | .rgset _ _ _ _ | .ctxswOut _ _ _ | .ctxswIn _ _ _
  | .ctxswDrop _ _ _ | .launch _ _ _ _ | .cancel _ _ _ _ | .stopr _ _ _ | .halt _ _ _ _ | .resume _ _ _ | .awinit _ _ _
  | .awadd _ _ _ _ => false
  | _ => true

end Sys2Proof.Machine
end

