-- ==== Sys2Proof/Certificates/Slice0/Obligations.lean ====
section
/-! DEFINITION. The statements for the provers. `e.runsLane i` and `e.runs i` say when a thread executes an instruction
normally; `e.gives i r`, `e.retires i s`, `e.goes i s pc`, `e.blocks i s b` and `e.traps i …` say that exec answers the
next state that this comes to (Safety.lean). -/

open Sys2Proof Sys2Proof.Machine

/-! Lane-class instructions: integers (R50-R65). -/

/-- R52: D ← A op B at the operand width. -/
def Obligations.IntegerBinaryResults : Prop := ∀ (e : Env) (h : Hdr) (d : Reg) (a b : Src),
  (∀ ty, e.runsLane (.iadd h ty d a b) → e.gives (.iadd h ty d a b) (r1 d (e.src a + e.src b))) ∧
  (∀ ty, e.runsLane (.isub h ty d a b) → e.gives (.isub h ty d a b) (r1 d (e.src a - e.src b))) ∧
  (∀ ty, e.runsLane (.imul h ty d a b) → e.gives (.imul h ty d a b) (r1 d (e.src a * e.src b))) ∧
  (∀ ty, e.runsLane (.imin h ty d a b) → e.gives (.imin h ty d a b) (match ty with
    | .i32 => r1 d (BitVec.ofInt 32 (min (e.src a).toInt (e.src b).toInt))
    | .n32 => r1 d (BitVec.ofNat 32 (min (e.src a).toNat (e.src b).toNat))
    | .i64 => r2 d (BitVec.ofInt 64 (min (e.src64 a).toInt (e.src64 b).toInt))
    | .n64 => r2 d (BitVec.ofNat 64 (min (e.src64 a).toNat (e.src64 b).toNat)))) ∧
  (∀ ty, e.runsLane (.imax h ty d a b) → e.gives (.imax h ty d a b) (match ty with
    | .i32 => r1 d (BitVec.ofInt 32 (max (e.src a).toInt (e.src b).toInt))
    | .n32 => r1 d (BitVec.ofNat 32 (max (e.src a).toNat (e.src b).toNat))
    | .i64 => r2 d (BitVec.ofInt 64 (max (e.src64 a).toInt (e.src64 b).toInt))
    | .n64 => r2 d (BitVec.ofNat 64 (max (e.src64 a).toNat (e.src64 b).toNat)))) ∧
  (∀ ty, e.runsLane (.and h ty d a b) → e.gives (.and h ty d a b)
    (if ty.wide then r2 d (e.src64 a &&& e.src64 b) else r1 d (e.src a &&& e.src b))) ∧
  (∀ ty, e.runsLane (.or h ty d a b) → e.gives (.or h ty d a b)
    (if ty.wide then r2 d (e.src64 a ||| e.src64 b) else r1 d (e.src a ||| e.src b))) ∧
  (∀ ty, e.runsLane (.xor h ty d a b) → e.gives (.xor h ty d a b)
    (if ty.wide then r2 d (e.src64 a ^^^ e.src64 b) else r1 d (e.src a ^^^ e.src b))) ∧
  (∀ ty, e.runsLane (.rotl h ty d a b) → e.gives (.rotl h ty d a b) (r1 d ((e.src a).rotateLeft ((e.src b).toNat % 32))))

/-- R53: register-count shifts; the count is bits 7:0 of B, and a count of the width or more shifts everything out. -/
def Obligations.RegisterShiftResults : Prop := ∀ (e : Env) (h : Hdr) (d : Reg) (a b : Src) (ty : ITy),
  (e.runsLane (.shl h ty d a b) → e.gives (.shl h ty d a b)
    (if ty.wide then r2 d (let n := (e.src64 b).toNat % 256; if 64 ≤ n then 0 else e.src64 a <<< n)
     else r1 d (let n := (e.src b).toNat % 256; if 32 ≤ n then 0 else e.src a <<< n))) ∧
  (e.runsLane (.shr h ty d a b) → e.gives (.shr h ty d a b)
    (if ty.wide then r2 d (let n := (e.src64 b).toNat % 256; if 64 ≤ n then 0 else e.src64 a >>> n)
     else r1 d (let n := (e.src b).toNat % 256; if 32 ≤ n then 0 else e.src a >>> n))) ∧
  (e.runsLane (.sar h ty d a b) → e.gives (.sar h ty d a b)
    (if ty.wide then r2 d (let n := (e.src64 b).toNat % 256
        if 64 ≤ n then (if (e.src64 a).msb then -1 else 0) else (e.src64 a).sshiftRight n)
     else r1 d (let n := (e.src b).toNat % 256
        if 32 ≤ n then (if (e.src a).msb then -1 else 0) else (e.src a).sshiftRight n)))

/-- R54: the immediate forms, with imm the sign-extended IMM28; and IMM28 outside the legal values is no instruction. -/
def Obligations.ImmediateResults : Prop := ∀ (e : Env) (h : Hdr) (d : Reg) (a : Src) (k : Nat),
  (e.runsLane (.iaddi h d a k) → e.gives (.iaddi h d a k) (r1 d (e.src a + (BitVec.ofNat 28 k).signExtend 32))) ∧
  (e.runsLane (.andi h d a k) → e.gives (.andi h d a k) (r1 d (e.src a &&& (BitVec.ofNat 28 k).signExtend 32))) ∧
  (e.runsLane (.ori h d a k) → e.gives (.ori h d a k) (r1 d (e.src a ||| (BitVec.ofNat 28 k).signExtend 32))) ∧
  (e.runsLane (.xori h d a k) → e.gives (.xori h d a k) (r1 d (e.src a ^^^ (BitVec.ofNat 28 k).signExtend 32))) ∧
  (e.runsLane (.shli h d a k) → e.gives (.shli h d a k) (r1 d (e.src a <<< k))) ∧
  (e.runsLane (.shri h d a k) → e.gives (.shri h d a k) (r1 d (e.src a >>> k))) ∧
  (e.runsLane (.sari h d a k) → e.gives (.sari h d a k) (r1 d ((e.src a).sshiftRight k))) ∧
  (e.runsLane (.movi h d k) → e.gives (.movi h d k) (r1 d ((BitVec.ofNat 28 k).signExtend 32))) ∧
  (e.runsLane (.movh h d a k) → e.gives (.movh h d a k)
    (r1 d ((BitVec.ofNat 16 k).setWidth 32 <<< 16 ||| (e.src a &&& 0xFFFF)))) ∧
  (∀ op ∈ [0x014, 0x015, 0x016], ∀ f : Fields, f.op = op → 31 < f.imm → ∀ i, decodeFull f ≠ .ok i) ∧
  (∀ f : Fields, f.op = 0x022 → 0xFFFF < f.imm → ∀ i, decodeFull f ≠ .ok i)

/-- R55: multiplication, with the exact product of the operands as integers; iadd64 adds or subtracts pairs (R65).

R56: quotient and remainder as numbers, for every divisor: the quotient is truncated toward zero, and the result is
still to arrive, at the latest 36 cycles after issue. -/
def Obligations.MultiplyAndDivideResults : Prop :=
  (∀ (e : Env) (h : Hdr) (d : Reg) (a b : Src),
    let int (ty : STy) (x : Src) : Int := match ty with
      | .i32 => (e.src x).toInt
      | .n32 => (e.src x).toNat
    (∀ ty, e.runsLane (.imulh h ty d a b) → e.gives (.imulh h ty d a b)
      (r1 d (BitVec.ofInt 32 (int ty a * int ty b / 2 ^ 32)))) ∧
    (∀ ty c, e.runsLane (.imad h ty d a b c) → e.gives (.imad h ty d a b c)
      (r1 d (BitVec.ofInt 32 (int ty a * int ty b + int ty c)))) ∧
    (∀ ty c, e.runsLane (.imadw h ty d a b c) → e.gives (.imadw h ty d a b c)
      (r2 d (BitVec.ofInt 64 (int ty a * int ty b + (e.pairZ c).toNat)))) ∧
    (∀ sub x y, e.runsLane (.iadd64 h sub d x y) → e.gives (.iadd64 h sub d x y)
      (r2 d (if sub then e.pair x - e.pair y else e.pair x + e.pair y)))) ∧
  (∀ (e : Env) (h : Hdr) (d : Reg) (a b : Src) (ty : STy),
    let A := e.src a
    let B := e.src b
    let q : Word := if B = 0 then 0xFFFFFFFF else match ty with
      | .i32 => BitVec.ofInt 32 (A.toInt.tdiv B.toInt)
      | .n32 => BitVec.ofNat 32 (A.toNat / B.toNat)
    let r : Word := if B = 0 then A else A - q * B
    (e.runsLane (.idiv h ty d a b) → e.gives (.idiv h ty d a b) (r1 d q)) ∧
    (e.runsLane (.irem h ty d a b) → e.gives (.irem h ty d a b) (r1 d r)) ∧
    arrivesIn (.idiv h ty d a b) = 36 ∧ arrivesIn (.irem h ty d a b) = 36)

/-- R57, R58: absolute value, counts, bit reversal and bit fields, bit by bit. -/
def Obligations.BitFieldResults : Prop := ∀ (e : Env) (h : Hdr) (d : Reg) (a : Src),
  (e.runsLane (.iabs h d a) → e.gives (.iabs h d a) (r1 d (if (e.src a).msb then -e.src a else e.src a))) ∧
  (e.runsLane (.popc h d a) → e.gives (.popc h d a)
    (r1 d (BitVec.ofNat 32 ((List.range 32).countP fun k => (e.src a).getLsbD k)))) ∧
  (e.runsLane (.clz h d a) → ∃ n ≤ 32, e.gives (.clz h d a) (r1 d (BitVec.ofNat 32 n)) ∧
    (∀ k < n, (e.src a).getLsbD (31 - k) = false) ∧ (n < 32 → (e.src a).getLsbD (31 - n) = true)) ∧
  (e.runsLane (.brev h d a) → ∃ x : Word, e.gives (.brev h d a) (r1 d x) ∧
    ∀ k < 32, x.getLsbD k = (e.src a).getLsbD (31 - k)) ∧
  (∀ ty b c, e.runsLane (.bfe h ty d a b c) → ∃ x : Word, e.gives (.bfe h ty d a b c) (r1 d x) ∧
    let pos := (e.src b).toNat % 32
    let len := min ((e.src c).toNat % 64) (32 - pos)
    (∀ k < len, x.getLsbD k = (e.src a).getLsbD (pos + k)) ∧
    (∀ k, len ≤ k → k < 32 → x.getLsbD k = (ty == .i32 && 0 < len && (e.src a).getLsbD (pos + len - 1)))) ∧
  (∀ b c, e.runsLane (.bfi h d a b c) → ∃ x : Word, e.gives (.bfi h d a b c) (r1 d x) ∧
    let pos := (e.src c).toNat % 32
    let len := min ((e.src c).toNat / 256 % 64) (32 - pos)
    ∀ k < 32, x.getLsbD k = if pos ≤ k ∧ k < pos + len then (e.src b).getLsbD (k - pos) else (e.src a).getLsbD k)

/-- R59-R62, R64, R65: selection, comparison, predicates, moves and address arithmetic. -/
def Obligations.MovesAndPredicates : Prop := ∀ (e : Env) (h : Hdr) (d : Reg) (a b : Src),
  (∀ ty n inv, e.runsLane (.sel h ty n inv d a b) → e.gives (.sel h ty n inv d a b)
    (let x := if ((e.pred n).1 ^^ inv) = true then a else b
     if ty.wide then r2 d (e.src64 x) else r1 d (e.src x))) ∧
  (∀ ty c n, e.runsLane (.iset h ty c n a b) → e.gives (.iset h ty c n a b)
    (let x : Int := match ty with
      | .i32 => (e.src a).toInt
      | .n32 => (e.src a).toNat
      | .i64 => (e.src64 a).toInt
      | .n64 => (e.src64 a).toNat
     let y : Int := match ty with
      | .i32 => (e.src b).toInt
      | .n32 => (e.src b).toNat
      | .i64 => (e.src64 b).toInt
      | .n64 => (e.src64 b).toNat
     rp n (match c with
      | .eq => decide (x = y)
      | .ne => decide (x ≠ y)
      | .lt => decide (x < y)
      | .le => decide (x ≤ y)
      | .gt => decide (x > y)
      | .ge => decide (x ≥ y)))) ∧
  (∀ f n p q, e.runsLane (.pset h f n p q) → e.gives (.pset h f n p q)
    (let x := (e.pred p).1
     let y := (e.pred q).1
     rp n (match f with
      | .and => x && y
      | .or => x || y
      | .xor => x != y
      | .andn => x && !y
      | .orn => x || !y
      | .nand => !(x && y)
      | .nor => !(x || y)
      | .xnor => x == y))) ∧
  (e.runsLane (.p2v h d) → ∃ x : Word, e.gives (.p2v h d) (r1 d x) ∧
    (∀ k < 7, x.getLsbD k = (e.pred k).1) ∧ x.getLsbD 7 = true ∧ ∀ k, 8 ≤ k → x.getLsbD k = false) ∧
  (e.runsLane (.v2p h a b) → ∃ r : LaneRes, e.gives (.v2p h a b) r ∧ r.regs = [] ∧ r.fl = 0 ∧
    ∀ k v, (k, v) ∈ r.preds ↔ k < 7 ∧ (e.src b).getLsbD k = true ∧ v = (e.src a).getLsbD k) ∧
  (∀ ty, e.runsLane (.mov h ty d a) → e.gives (.mov h ty d a) (if ty.wide then r2 d (e.src64 a) else r1 d (e.src a))) ∧
  (∀ c, e.runsLane (.lea h d a b c) → e.gives (.lea h d a b c)
    (r1 d (e.src a + e.src b <<< ((e.src c).toNat % 32)))) ∧
  (∀ ty x c, e.runsLane (.lea64 h ty d x b c) → e.gives (.lea64 h ty d x b c)
    (let y : DWord := match ty with
      | .i32 => (e.src b).signExtend 64
      | .n32 => (e.src b).setWidth 64
     r2 d (e.pair x + y <<< ((e.src c).toNat % 64))))

/-! Lane-class instructions: floating point and pairs (R41, R66-R86). -/

/-- R70, R72, R73: FP32 arithmetic. The result is the rounded exact value, with its flags.

R70, R72: what the arithmetic of every format does with exact values. A sum or product of finite numbers is the
exact one rounded once; a NaN operand gives the canonical NaN; a number that the format has is kept, with no flag.

R73, R76: minimum and maximum choose by value, -0 below +0, and pass over a NaN; a fused multiply-add rounds once, and
zero times infinity is invalid whatever the addend. -/
def Obligations.FloatArithmeticResults : Prop :=
  (∀ (e : Env) (h : Hdr) (d : Reg) (a b : Src),
    (∀ rm, e.runsLane (.fadd h rm d a b) → e.gives (.fadd h rm d a b) (rf d (fp32.add rm (e.nat a) (e.nat b)))) ∧
    (∀ rm, e.runsLane (.fsub h rm d a b) → e.gives (.fsub h rm d a b) (rf d (fp32.sub rm (e.nat a) (e.nat b)))) ∧
    (∀ rm, e.runsLane (.fmul h rm d a b) → e.gives (.fmul h rm d a b) (rf d (fp32.mul rm (e.nat a) (e.nat b)))) ∧
    (∀ rm c, e.runsLane (.ffma h rm d a b c) → e.gives (.ffma h rm d a b c)
      (rf d (fp32.fma rm (e.nat a) (e.nat b) (e.nat c)))) ∧
    (e.runsLane (.fmin h d a b) → e.gives (.fmin h d a b) (rf d (fp32.minmax false (e.nat a) (e.nat b)))) ∧
    (e.runsLane (.fmax h d a b) → e.gives (.fmax h d a b) (rf d (fp32.minmax true (e.nat a) (e.nat b)))) ∧
    (e.runsLane (.famax h d a b) → e.gives (.famax h d a b)
      (rf d (fp32.minmax true (e.nat a % 2 ^ 31) (e.nat b % 2 ^ 31)))) ∧
    (e.runsLane (.fneg h d a) → ∃ x : Word, e.gives (.fneg h d a) (r1 d x) ∧
      x.getLsbD 31 = !(e.src a).getLsbD 31 ∧ ∀ k < 31, x.getLsbD k = (e.src a).getLsbD k) ∧
    (e.runsLane (.fabs h d a) → ∃ x : Word, e.gives (.fabs h d a) (r1 d x) ∧
      x.getLsbD 31 = false ∧ ∀ k < 31, x.getLsbD k = (e.src a).getLsbD k)) ∧
  (∀ f ∈ [fp32, fp16, bfl16, fp8], ∀ rm,
    (∀ x y n m k n' m' k', f.val x = .fin n m k → f.val y = .fin n' m' k' →
      f.add rm x y = f.sum rm [⟨n, m, k⟩, ⟨n', m', k'⟩] ∧ f.sub rm x y = f.sum rm [⟨n, m, k⟩, ⟨!n', m', k'⟩] ∧
      f.mul rm x y = f.sum rm [⟨n != n', m * m', k + k'⟩]) ∧
    (∀ x y s, f.val x = .nan s → (f.add rm x y).1 = f.canon ∧ (f.add rm y x).1 = f.canon ∧ (f.mul rm x y).1 = f.canon) ∧
    (∀ x n m k, x < 2 * f.signBit → f.val x = .fin n m k → f.round rm n m k = (x, 0))) ∧
  (∀ f ∈ [fp32, fp16, bfl16],
    (∀ rm x y z n m k n' m' k' n'' m'' k'', f.val x = .fin n m k → f.val y = .fin n' m' k' → f.val z = .fin n'' m'' k'' →
      f.fma rm x y z = f.sum rm [⟨n != n', m * m', k + k'⟩, ⟨n'', m'', k''⟩]) ∧
    (∀ rm x y z n n' k, f.val x = .inf n → f.val y = .fin n' 0 k →
      f.fma rm x y z = (f.canon, fNv) ∧ f.fma rm y x z = (f.canon, fNv)) ∧
    (∀ rm x y z, (f.val x).isNan = true ∨ (f.val y).isNan = true ∨ (f.val z).isNan = true → (f.fma rm x y z).1 = f.canon) ∧
    (∀ mx x y, (f.minmax mx x y).2 = if f.val x = .nan true ∨ f.val y = .nan true then fNv else 0) ∧
    (∀ mx x y s, f.val x = .nan s → (f.val y).isNan = false → (f.minmax mx x y).1 = y ∧ (f.minmax mx y x).1 = y) ∧
    (∀ mx x y s s', f.val x = .nan s → f.val y = .nan s' → (f.minmax mx x y).1 = f.canon) ∧
    (∀ x y n m k n' m' k' j, f.val x = .fin n m k → f.val y = .fin n' m' k' → j ≤ k → j ≤ k' →
      scaled n m k j < scaled n' m' k' j ∨ (m = 0 ∧ m' = 0 ∧ n = true ∧ n' = false) →
      (f.minmax false x y).1 = x ∧ (f.minmax false y x).1 = x ∧ (f.minmax true x y).1 = y ∧ (f.minmax true y x).1 = y) ∧
    (∀ x y n, f.val x = .inf n → (f.val y).isNan = false → f.val y ≠ .inf n →
      (f.minmax n x y).1 = y ∧ (f.minmax n y x).1 = y ∧ (f.minmax (!n) x y).1 = x ∧ (f.minmax (!n) y x).1 = x))

/-- R74-R76, R79, R82-R85: comparison, classification, scaling, rounding, square root and conversions. A comparison is of
the numbers, and unordered with a NaN; fscale rounds the exact product once; frnd gives an integer that the mode
allows, with no flag; a square root that is exact is given, and rounded toward zero it is the greatest number whose
square is not above the operand; conversions round once, saturate at the ends of an integer type, and to E4M3 above 464.

R77, R78: the special functions complete; where the spec fixes the result it is that one: NaNs, zeros, infinities,
and operands outside the domain. -/
def Obligations.ConversionAndSpecialFunctionResults : Prop :=
  (∀ (e : Env) (h : Hdr) (d : Reg) (a b : Src),
    (∀ c n, e.runsLane (.fset h c n a b) → e.gives (.fset h c n a b)
      { preds := [(n, (floatCmp c (e.nat a) (e.nat b)).1)], fl := (floatCmp c (e.nat a) (e.nat b)).2 }) ∧
    (∀ ft, e.runsLane (.fclass h ft d a) → ∃ k ≤ 9, e.gives (.fclass h ft d a) (r1 d (BitVec.ofNat 32 (2 ^ k))) ∧
      match (fmtOf ft).val (e.nat a) with
      | .nan s => k = if s then 8 else 9
      | .inf n => k = if n then 0 else 7
      | .fin n m _ => if m = 0 then k = (if n then 3 else 4) else
          if m < 2 ^ (fmtOf ft).mb then k = (if n then 2 else 5) else k = (if n then 1 else 6)) ∧
    (∀ rm, e.runsLane (.fscale h rm d a b) → e.gives (.fscale h rm d a b)
      (rf d (fscaleVal rm (e.nat a) (e.src b).toInt))) ∧
    (∀ rm, e.runsLane (.frnd h rm d a) → e.gives (.frnd h rm d a) (rf d (frndVal rm (e.nat a)))) ∧
    (∀ rm, e.runsLane (.fsqrt h rm d a) → e.gives (.fsqrt h rm d a) (rf d (fsqrtVal rm (fp32.val (e.nat a))))) ∧
    (∀ cv ns rm, e.runsLane (.cvt h cv ns rm d a) → ∃ r : DWord × Fl,
      r = convert cv ns rm (if cv.wideA then e.src64 a else (e.src a).setWidth 64) ∧
      e.gives (.cvt h cv ns rm d a) { (if cv.wideD then r2 d r.1 else r1 d (r.1.setWidth 32)) with fl := r.2 }) ∧
    (∀ pt rm, e.runsLane (.cvtp h pt rm d a b) → ∃ lo hi : Nat × Fl,
      lo = (fmtOfP pt).ofVal rm (fp32.val (e.nat a)) ∧ hi = (fmtOfP pt).ofVal rm (fp32.val (e.nat b)) ∧
      e.gives (.cvtp h pt rm d a b) (rf d (lo.1 + hi.1 * 2 ^ 16, lo.2 ||| hi.2))) ∧
    (∀ hi ns c, e.runsLane (.e4pk h hi ns d a b c) → ∃ x y : Nat × Fl,
      x = toE4 ns (fp32.val (e.nat a)) ∧ y = toE4 ns (fp32.val (e.nat b)) ∧
      e.gives (.e4pk h hi ns d a b c) (rf d (if hi then (y.1 * 256 + x.1) * 2 ^ 16 + e.nat c % 2 ^ 16
        else e.nat c / 2 ^ 16 * 2 ^ 16 + (y.1 * 256 + x.1), x.2 ||| y.2))) ∧
    (∀ k, e.runsLane (.e4up h k d a) → e.gives (.e4up h k d a)
      (r1 d (BitVec.ofNat 32 (fp32.ofVal .rn (fp8.val (e.nat a / 2 ^ (8 * k)))).1)))) ∧
  (∀ c x y,
    ((fp32.val x).isNan = true ∨ (fp32.val y).isNan = true →
      floatCmp c x y = (decide (c = .ne ∨ c = .uo), if fp32.val x = .nan true ∨ fp32.val y = .nan true ∨ c = .lt ∨ c = .le ∨
        c = .gt ∨ c = .ge then fNv else 0)) ∧
    (∀ n m k n' m' k' j, fp32.val x = .fin n m k → fp32.val y = .fin n' m' k' → j ≤ k → j ≤ k' →
      let p := scaled n m k j
      let q := scaled n' m' k' j
      floatCmp c x y = (match c with
        | .eq => decide (p = q)
        | .ne => decide (p ≠ q)
        | .lt => decide (p < q)
        | .le => decide (p ≤ q)
        | .gt => decide (q < p)
        | .ge => decide (q ≤ p)
        | .uo => false
        | .ord => true, 0))) ∧
  (∀ rm x,
    (∀ i : Int, match fp32.val x with
      | .nan s => fscaleVal rm x i = (fp32.canon, if s then fNv else 0)
      | .inf _ => fscaleVal rm x i = (x, 0)
      | .fin n m k => if m = 0 then fscaleVal rm x i = (x, 0) else fscaleVal rm x i = fp32.round rm n m (k + i)) ∧
    (match fp32.val x with
      | .nan s => frndVal rm x = (fp32.canon, if s then fNv else 0)
      | .inf n => frndVal rm x = (if n then 0xFF800000 else 0x7F800000, 0)
      | .fin n m k => ∃ i, frndVal rm x = ((fp32.round .rn n i 0).1, 0) ∧
          (0 ≤ k → i = m * 2 ^ k.toNat) ∧ (k < 0 → roundsTo rm n m (-k).toNat i)) ∧
    (match fp32.val x with
      | .nan s => fsqrtVal rm (fp32.val x) = (fp32.canon, if s then fNv else 0)
      | .inf n => fsqrtVal rm (fp32.val x) = if n then (fp32.canon, fNv) else (0x7F800000, 0)
      | .fin n m k => if m = 0 then fsqrtVal rm (fp32.val x) = (if n then 0x80000000 else 0, 0)
          else if n then fsqrtVal rm (fp32.val x) = (fp32.canon, fNv)
          else (∀ a : Nat, ∀ j : Int, 2 * j ≤ k → a * a = m * 2 ^ (k - 2 * j).toNat →
              fsqrtVal rm (fp32.val x) = fp32.round rm false a j) ∧
            ∃ p q, fp32.val (fsqrtVal .rz (fp32.val x)).1 = .fin false p q ∧ ∀ j : Int, j ≤ k → j ≤ 2 * q →
              scaled false (p * p) (2 * q) j ≤ scaled false m k j ∧ scaled false m k j < scaled false ((p + 1) * (p + 1)) (2 * q) j)) ∧
  (∀ ns rm (x : DWord) (y : Nat),
    (∀ f ∈ [FTy.f32, .f16, .bf16], ∀ g, match (fmtOf g).val x.toNat with
      | .nan s => convert (.ff f g) ns rm x = (BitVec.ofNat 64 (fmtOf f).canon, if s then fNv else 0)
      | .inf n => convert (.ff f g) ns rm x = (BitVec.ofNat 64 ((if n then (fmtOf f).signBit else 0) + (fmtOf f).infBits), 0)
      | .fin n m k => convert (.ff f g) ns rm x =
          (BitVec.ofNat 64 ((fmtOf f).round rm n m k).1, ((fmtOf f).round rm n m k).2)) ∧
    (∀ g, convert (.ff .e4m3 g) ns rm x =
      (BitVec.ofNat 64 (toE4 ns ((fmtOf g).val x.toNat)).1, (toE4 ns ((fmtOf g).val x.toNat)).2)) ∧
    (∀ f ∈ [FTy.f32, .f16, .bf16], ∀ ty, let i : Int := match ty with
        | .i32 => (x.setWidth 32).toInt
        | .n32 => (x.setWidth 32).toNat
        | .i64 => x.toInt
        | .n64 => x.toNat
      convert (.ofInt ty f) ns rm x =
        (BitVec.ofNat 64 ((fmtOf f).round rm (decide (i < 0)) i.natAbs 0).1, ((fmtOf f).round rm (decide (i < 0)) i.natAbs 0).2)) ∧
    (∀ ty g, let lo : Int := match ty with
        | .i32 => -2 ^ 31
        | .i64 => -2 ^ 63
        | _ => 0
      let hi : Int := match ty with
        | .i32 => 2 ^ 31 - 1
        | .n32 => 2 ^ 32 - 1
        | .i64 => 2 ^ 63 - 1
        | .n64 => 2 ^ 64 - 1
      match (fmtOf g).val x.toNat with
      | .nan _ => convert (.toInt ty g) ns rm x = (0, fNv)
      | .inf n => convert (.toInt ty g) ns rm x = (BitVec.ofInt 64 (if n then lo else hi), fNv)
      | .fin n m k => ∃ i : Nat, (0 ≤ k → i = m * 2 ^ k.toNat) ∧ (k < 0 → roundsTo rm n m (-k).toNat i) ∧
          let z : Int := if n then -(i : Int) else i
          convert (.toInt ty g) ns rm x = (BitVec.ofInt 64 (max lo (min hi z)), if z < lo ∨ hi < z then fNv
            else if 0 ≤ k ∨ i * 2 ^ (-k).toNat = m then 0 else fNx)) ∧
    (match fp32.val y with
      | .nan s => toE4 ns (fp32.val y) = (0x7F, if s then fNv else 0)
      | .inf n => toE4 ns (fp32.val y) = (if ns then 0x7F else if n then 0xFE else 0x7E, fOf ||| fNx)
      | .fin n m k => toE4 ns (fp32.val y) = if scaled false 464 0 (min k 0) < scaled false m k (min k 0)
          then (if ns then 0x7F else if n then 0xFE else 0x7E, fOf ||| fNx) else fp8.round .rn n m k)) ∧
  (∀ (e : Env) (h : Hdr) (d : Reg) (a : Src),
    (e.runsLane (.frcp h d a) → e.gives (.frcp h d a) (rf d (specialVal 0 (e.src a)))) ∧
    (e.runsLane (.frsq h d a) → e.gives (.frsq h d a) (rf d (specialVal 1 (e.src a)))) ∧
    (e.runsLane (.fex2 h d a) → e.gives (.fex2 h d a) (rf d (specialVal 2 (e.src a)))) ∧
    (e.runsLane (.flg2 h d a) → e.gives (.flg2 h d a) (rf d (specialVal 3 (e.src a)))) ∧
    (e.runsLane (.fsin h d a) → e.gives (.fsin h d a) (rf d (specialVal 4 (e.src a)))) ∧
    (e.runsLane (.fcos h d a) → e.gives (.fcos h d a) (rf d (specialVal 5 (e.src a)))) ∧
    (∀ fn < 6, ∀ x s, fp32.val (BitVec.toNat x) = .nan s → specialVal fn x = (0x7FC00000, if s then fNv else 0)) ∧
    specialVal 0 0 = (0x7F800000, fDz) ∧ specialVal 0 0x80000000 = (0xFF800000, fDz) ∧
    specialVal 1 0 = (0x7F800000, fDz) ∧ specialVal 1 0xBF800000 = (0x7FC00000, fNv) ∧
    specialVal 2 0 = (0x3F800000, 0) ∧ specialVal 2 0xFF800000 = (0, 0) ∧
    specialVal 3 0 = (0xFF800000, fDz) ∧ specialVal 3 0x3F800000 = (0, 0) ∧
    specialVal 4 0x80000000 = (0x80000000, 0) ∧ specialVal 5 0 = (0x3F800000, 0))

/-- R80, R81: the packed operations work on each 16-bit half, and fdot2 rounds one exact sum of two products and an
addend: of finite numbers, the exact sum; a NaN operand gives the canonical NaN; zero times infinity is invalid. -/
def Obligations.PackedResults : Prop :=
  (∀ pt rm a b c, let f := fmtOfP pt
    (∀ n m k n' m' k' p r q p' r' q' z y t, f.val (a % 2 ^ 16) = .fin n m k → f.val (b % 2 ^ 16) = .fin n' m' k' →
      f.val (a / 2 ^ 16) = .fin p r q → f.val (b / 2 ^ 16) = .fin p' r' q' → fp32.val c = .fin z y t →
      dot2 f rm a b c = fp32.sum rm [⟨n != n', m * m', k + k'⟩, ⟨p != p', r * r', q + q'⟩, ⟨z, y, t⟩]) ∧
    ((∃ x ∈ [f.val (a % 2 ^ 16), f.val (b % 2 ^ 16), f.val (a / 2 ^ 16), f.val (b / 2 ^ 16), fp32.val c], x.isNan = true) →
      (dot2 f rm a b c).1 = fp32.canon) ∧
    (∀ n n' k, (f.val (a % 2 ^ 16) = .inf n ∧ f.val (b % 2 ^ 16) = .fin n' 0 k) ∨
        (f.val (a / 2 ^ 16) = .fin n' 0 k ∧ f.val (b / 2 ^ 16) = .inf n) → dot2 f rm a b c = (fp32.canon, fNv))) ∧
  ∀ (e : Env) (h : Hdr) (d : Reg) (a b : Src),
  let halves (f : Nat → Nat → Nat × Fl) : LaneRes :=
    let lo := f (e.nat a % 2 ^ 16) (e.nat b % 2 ^ 16)
    let hi := f (e.nat a / 2 ^ 16) (e.nat b / 2 ^ 16)
    rf d (lo.1 + hi.1 * 2 ^ 16, lo.2 ||| hi.2)
  let halves3 (f : Nat → Nat → Nat → Nat × Fl) (c : Src) : LaneRes :=
    let lo := f (e.nat a % 2 ^ 16) (e.nat b % 2 ^ 16) (e.nat c % 2 ^ 16)
    let hi := f (e.nat a / 2 ^ 16) (e.nat b / 2 ^ 16) (e.nat c / 2 ^ 16)
    rf d (lo.1 + hi.1 * 2 ^ 16, lo.2 ||| hi.2)
  (∀ rm, e.runsLane (.hadd2 h rm d a b) → e.gives (.hadd2 h rm d a b) (halves (fp16.add rm))) ∧
  (∀ rm, e.runsLane (.hmul2 h rm d a b) → e.gives (.hmul2 h rm d a b) (halves (fp16.mul rm))) ∧
  (∀ rm c, e.runsLane (.hfma2 h rm d a b c) → e.gives (.hfma2 h rm d a b c) (halves3 (fp16.fma rm) c)) ∧
  (∀ mx, e.runsLane (.hmnx2 h mx d a b) → e.gives (.hmnx2 h mx d a b) (halves (fp16.minmax mx))) ∧
  (∀ rm, e.runsLane (.badd2 h rm d a b) → e.gives (.badd2 h rm d a b) (halves (bfl16.add rm))) ∧
  (∀ rm, e.runsLane (.bmul2 h rm d a b) → e.gives (.bmul2 h rm d a b) (halves (bfl16.mul rm))) ∧
  (∀ rm c, e.runsLane (.bfma2 h rm d a b c) → e.gives (.bfma2 h rm d a b c) (halves3 (bfl16.fma rm) c)) ∧
  (∀ mx, e.runsLane (.bmnx2 h mx d a b) → e.gives (.bmnx2 h mx d a b) (halves (bfl16.minmax mx))) ∧
  (∀ pt rm c, e.runsLane (.fdot2 h pt rm d a b c) → e.gives (.fdot2 h pt rm d a b c)
    (rf d (dot2 (fmtOfP pt) rm (e.nat a) (e.nat b) (e.nat c))))

/-- R39-R41: a pair executes both slots: each destination receives the result that the full form the slot is equivalent to
would give it, with its latency and the poison of its own sources; the flags of both forms are set. -/
def Obligations.PairResults : Prop := ∀ (e : Env) (stall : Nat) (x y : Slot), x.wf = true → y.wf = true →
  e.runsLane (.pair stall x y) →
  ∃ s g t, exec (.pair stall x y) e.s = .next s ∧ s.wg? e.path.core e.path.slot = some g ∧
    g.thread? e.t.tid = some t ∧ t.pc = e.t.pc + 8 ∧ t.next = e.s.now + max 1 stall ∧
    ∃ rx ry : Word × Fl, t.flags = stick e.t.flags (rx.2 ||| ry.2) ∧
      ∀ q ∈ [(false, x, rx), (true, y, ry)], let d := slotReg q.1 q.2.1.d
        let i (h : Hdr) : Instr := slotForm h q.2.1 d (slotReg q.1 q.2.1.s)
        (∀ h, (i h).latency = some q.2.1.latency ∧
          (e.runsLane (i h) → e.gives (i h) { regs := [(.v d, q.2.2.1)], fl := q.2.2.2 })) ∧
        (d < e.t.v.length → t.v.getD d {} = (e.t.v.getD d {}).put e.s.now q.2.1.latency q.2.2.1
          ((q.2.1.srcs q.1).any fun r => (e.reg r).2))

/-- What every lane-class instruction leaves alone (R50, R66): memory, engines, device and contexts; in every
workgroup all but the destinations' w registers; in every thread all but the destinations and the thread's own course;
threads off the path altogether. -/
def Obligations.LaneFrame : Prop := ∀ (i : Instr) (s s' : State), i.laneClass = true → exec i s = .next s' →
  s'.m = s.m ∧ s'.e = s.e ∧ s'.y = s.y ∧ s'.ctxs = s.ctxs ∧ s'.perf = s.perf ∧ s'.now = s.now ∧ s'.ptp = s.ptp ∧
  ∀ core slot g, s.wg? core slot = some g → ∃ g', s'.wg? core slot = some g' ∧
    g'.c = g.c ∧ g'.b = g.b ∧ g'.k = g.k ∧ g'.sa = g.sa ∧ g'.sb = g.sb ∧ g'.mcls = g.mcls ∧ g'.tile = g.tile ∧
    g'.tpoi = g.tpoi ∧ g'.gran = g.gran ∧ g'.acc = g.acc ∧ g'.cancel = g.cancel ∧
    (∀ n, Reg.w n ∉ i.dsts → g'.w.getD n { base := 0 } = g.w.getD n { base := 0 }) ∧
    ∀ tid t, g.thread? tid = some t → ∃ t', g'.thread? tid = some t' ∧
      (∀ n, Reg.v n ∉ i.dsts → t'.v.getD n {} = t.v.getD n {}) ∧
      (∀ n, n ∉ i.predDsts → t'.p.getD n {} = t.p.getD n {}) ∧
      t'.conv = t.conv ∧ t'.bars = t.bars ∧ t'.cbars = t.cbars ∧ t'.sleep = t.sleep ∧ t'.holds = t.holds ∧
      t'.arrivals = t.arrivals ∧ (t'.run = t.run → t'.tcause = t.tcause ∧ t'.tcode = t.tcode ∧ t'.taddr = t.taddr ∧
        t'.faddr = t.faddr) ∧
      ((∀ p, s.cur = some p → ¬(p.core = core ∧ p.slot = slot ∧ tid ∈ p.tids)) → t' = t)

/-! Control, convergence and ordering (R93-R101, R158-R168). -/

/-- R94, R95: transfers. bra and call add the word displacement to the instruction's address, brx and ret take a computed
address, which must be a word's; call leaves the address of the next instruction in its pair; nop goes on. -/
def Obligations.TransferResults : Prop := ∀ (e : Env) (h : Hdr),
  (e.runs (.nop h) → e.retires (.nop h) e.s) ∧
  (∀ k, e.runs (.bra h k) → e.goes (.bra h k) e.s (e.t.pc + (BitVec.ofNat 28 k).signExtend 64 * 8)) ∧
  (∀ a b, e.runs (.brx h a b) → let t := e.pair a + ((e.at_ (.brx h a b)).src b).signExtend 64
    (t.toNat % 8 = 0 → e.goes (.brx h a b) e.s t) ∧ (t.toNat % 8 ≠ 0 → e.traps (.brx h a b) 3 0 t e.t.pc)) ∧
  (∀ a, e.runs (.ret h a) → (e.pair a).toNat % 8 = 0 → e.goes (.ret h a) e.s (e.pair a)) ∧
  (∀ a, e.runs (.ret h a) → (e.pair a).toNat % 8 ≠ 0 → e.traps (.ret h a) 3 0 (e.pair a) e.t.pc) ∧
  (∀ d k, e.runs (.call h d k) → d + 1 < e.t.v.length → ∃ s t,
    e.goes (.call h d k) s (e.t.pc + (BitVec.ofNat 28 k).signExtend 64 * 8) ∧
    s.thread? e.path.core e.path.slot e.t.tid = some t ∧
    (t.v.getD (d + 1) {}).val ++ (t.v.getD d {}).val = e.t.pc + 8 ∧
    ∀ n, n ≠ d → n ≠ d + 1 → t.v.getD n {} = e.t.v.getD n {})

/-- R96, R97: sign, join, joinr and cdecl on a convergence register of which the thread has not signed this generation.
An arrival that does not complete the register counts itself and combines its value, and every other thread stays as it is;
a join then blocks. One that completes it makes every thread that waits on the register go on after its join, a joinr
with the combined value, and no other thread. cdecl sets the count, the kind too where nobody has arrived, and completes
the register where the arrivals already reach the new count. -/
def Obligations.ConvergenceResults : Prop := ∀ (e : Env) (h : Hdr) (n : Nat), n < 16 → e.g.c.length = 16 →
  e.t.conv.length = 16 → (e.t.conv.getD n {}).p = false →
  let c := e.g.c.getD n {}
  let full : Bool := decide (c.target e.g ≤ c.arr + 1)
  let value (k : RKind) (x y : Word) : Word := match k with
    | .add => x + y
    | .minI => BitVec.ofInt 32 (min x.toInt y.toInt)
    | .maxI => BitVec.ofInt 32 (max x.toInt y.toInt)
    | .minN => BitVec.ofNat 32 (min x.toNat y.toNat)
    | .maxN => BitVec.ofNat 32 (max x.toNat y.toNat)
    | .and => x &&& y
    | .or => x ||| y
  let others (g : Workgroup) : Prop := ∀ k, k ≠ e.t.tid → g.thread? k = e.g.thread? k
  let woken (g : Workgroup) (x : Word) : Prop := ∀ k t, k ≠ e.t.tid → e.g.thread? k = some t → ∃ t', g.thread? k = some t' ∧
    (∀ d, t.run = .blocked (.join n d) → t'.run = .runnable ∧ t'.pc = t.pc + 8 ∧ (t'.conv.getD n {}).p = false ∧
      ∀ r, r < t.v.length → t'.v.getD r {} = if d = some r then .arrived x false else t.v.getD r {}) ∧
    ((∀ d, t.run ≠ .blocked (.join n d)) → t' = t)
  let arrived (s : State) (x : Word) : Prop := ∃ g t, s.wg? e.path.core e.path.slot = some g ∧
    g.thread? e.t.tid = some t ∧
    (full = false → g.c.getD n {} = { c with arr := c.arr + 1, acc := value c.kind c.acc x } ∧
      t.conv.getD n {} = { p := true, sg := c.gen } ∧ others g) ∧
    (full = true → (g.c.getD n {}).res = value c.kind c.acc x ∧ (g.c.getD n {}).arr = 0 ∧
      (g.c.getD n {}).gen = (c.gen + 1) % 32 ∧ (g.c.getD n {}).done = c.done + 1 ∧ woken g (value c.kind c.acc x))
  (e.runs (.sign h n) → ∃ s, e.retires (.sign h n) s ∧ arrived s (kindIdent c.kind)) ∧
  (e.runs (.join h n) → c.gen < 32 → ∃ s, arrived s (kindIdent c.kind) ∧
    (full = true → e.retires (.join h n) s) ∧ (full = false → e.blocks (.join h n) s (.join n none))) ∧
  (∀ d a, e.runs (.joinr h n d a) → c.gen < 32 → d < e.t.v.length → ∃ s, arrived s ((e.at_ (.joinr h n d a)).src a) ∧
    (full = true → e.retires (.joinr h n d a) s ∧ ∃ t, s.thread? e.path.core e.path.slot e.t.tid = some t ∧
      (t.v.getD d {}).val = value c.kind c.acc ((e.at_ (.joinr h n d a)).src a)) ∧
    (full = false → e.blocks (.joinr h n d a) s (.join n (some d)))) ∧
  (∀ k a, e.runs (.cdecl h n k a) → let cnt := min ((e.at_ (.cdecl h n k a)).src a).toNat 2048
    ∃ s g, e.retires (.cdecl h n k a) s ∧ s.wg? e.path.core e.path.slot = some g ∧
      (c.arr = 0 → g.c.getD n {} = { c with cnt := cnt, kind := k, acc := kindIdent k } ∧ others g) ∧
      (0 < c.arr → c.arr < ({ c with cnt := cnt } : CReg).target e.g → g.c.getD n {} = { c with cnt := cnt } ∧ others g) ∧
      (0 < c.arr → ({ c with cnt := cnt } : CReg).target e.g ≤ c.arr →
        g.c.getD n {} = { c with cnt := cnt, res := c.acc, acc := kindIdent c.kind, arr := 0, gen := (c.gen + 1) % 32, done := c.done + 1 } ∧
        woken g c.acc))

/-- R159-R168: barrier arrivals are sent with what their release waits for and block a sync until it is applied. A wait of a
thread whose P is 1 goes on where GEN has left its SG, and clears P; any other blocks. A fence leaves the holds of its kind:
.acq all later accesses, on the loads and atomics of the thread; .rel the later writes only, on what a release of its scope
waits for; .ar each for its own; .sc all later accesses, on both. A hold in force keeps what it holds waiting at issue, and a
load that no such hold names is not held. efence goes on once every command of the thread has been accepted, and blocks before. -/
def Obligations.BarrierAndFenceResults : Prop :=
  (∀ (e : Env) (h : Hdr) (n : Nat),
    let sent (s : State) (cluster sync : Bool) (x : Word) (sc : Scope) : Prop :=
      ∃ t, e.thr s = some t ∧ t.arrivals = e.t.arrivals ++
        [{ cluster := cluster, b := n, n := x, ids := e.releaseIds sc, till := e.t.lastW, sync := sync }]
    (∀ sc a, e.runs (.barSync h sc n a) → ∃ s, e.blocks (.barSync h sc n a) s (.bar n false) ∧
      sent s false true ((e.at_ (.barSync h sc n a)).src a) sc) ∧
    (∀ sc a, e.runs (.barArrive h sc n a) → ∃ s, e.retires (.barArrive h sc n a) s ∧
      sent s false false ((e.at_ (.barArrive h sc n a)).src a) sc) ∧
    (∀ sc, e.runs (.barWait h sc n) → let q := e.t.bars.getD n {}
      let gen := (e.g.b.getD n {}).gen
      (q.p = true → gen ≠ q.sg → ∃ s t, e.retires (.barWait h sc n) s ∧ e.thr s = some t ∧ t.bars.getD n {} = { q with p := false }) ∧
      (q.p = false ∨ gen = q.sg → e.blocks (.barWait h sc n) e.s (.bar n true))) ∧
    (∀ sc a, e.runs (.cbarSync h sc n a) → ∃ s, e.blocks (.cbarSync h sc n a) s (.cbar n false) ∧
      sent s true true ((e.at_ (.cbarSync h sc n a)).src a) (scopeOfC sc)) ∧
    (∀ sc a, e.runs (.cbarArrive h sc n a) → ∃ s, e.retires (.cbarArrive h sc n a) s ∧
      sent s true false ((e.at_ (.cbarArrive h sc n a)).src a) (scopeOfC sc)) ∧
    (∀ sc, e.runs (.cbarWait h sc n) → let q := e.t.cbars.getD n {}
      let gen := ((e.s.clbar e.g.ctx e.g.lid (e.g.core / 4)).b.getD n {}).gen
      (q.p = true → gen ≠ q.sg → ∃ s t, e.retires (.cbarWait h sc n) s ∧ e.thr s = some t ∧ t.cbars.getD n {} = { q with p := false }) ∧
      (q.p = false ∨ gen = q.sg → e.blocks (.cbarWait h sc n) e.s (.cbar n true))) ∧
    (∀ k sc, e.runs (.fence h k sc) → let acq := e.s.m.acquireIds e.who
      let rel := e.releaseIds sc
      ∃ s t old, e.retires (.fence h k sc) s ∧ e.thr s = some t ∧ (∀ q ∈ old, q ∈ e.t.holds) ∧
        (∀ q ∈ e.t.holds, e.s.anyOutstanding q.ids = true ∨ e.s.now < q.till → q ∈ old) ∧
        t.holds = old ++ match k with
          | .acq => [{ loads := true, others := true, ids := acq, till := 0 }]
          | .rel => [{ loads := false, others := true, ids := rel, till := e.t.lastW }]
          | .ar => [{ loads := true, others := true, ids := acq, till := 0 }, { loads := false, others := true, ids := rel, till := e.t.lastW }]
          | .sc => [{ loads := true, others := true, ids := acq ++ rel, till := e.t.lastW }]) ∧
    (e.runs (.efence h) →
      let done : Prop := (∀ c ∈ e.s.e.cmds, c.core = e.g.core → c.slot = e.g.slot → c.uid = e.g.uid → c.tid = e.t.tid → c.state = .accepted) ∧
        ∀ r ∈ e.s.m.reads, r.who.core = e.g.core → r.who.slot = e.g.slot → r.who.uid = e.g.uid → r.who.tid = e.t.tid → ∀ v d, r.kind ≠ .vset v d
      (done → e.retires (.efence h) e.s) ∧ (¬done → e.blocks (.efence h) e.s .efence))) ∧
  (∀ (e : Env),
    (∀ r ∈ e.s.m.reads, r.who.same e.who = true → r.kind ≠ .pref → r.id ∈ e.s.m.acquireIds e.who ∧ ∀ sc, r.id ∈ e.releaseIds sc) ∧
    (∀ a ∈ e.s.m.atoms, ∀ l ∈ a.lanes, l.who.same e.who = true → a.id ∈ e.s.m.acquireIds e.who ∧ ∀ sc, a.id ∈ e.releaseIds sc) ∧
    (∀ w ∈ e.s.m.writes, w.of e.who = true → (∀ sc, sc ≠ .wg → w.id ∈ e.releaseIds sc) ∧
      ((w.kind = .st ∨ w.kind = .strl ∨ w.kind = .pzap) → w.ord = 0 → w.eid ∈ e.releaseIds .wg)) ∧
    ∀ ids, (∃ r ∈ e.s.m.reads, r.id ∈ ids) ∨ (∃ a ∈ e.s.m.atoms, a.id ∈ ids) ∨ (∃ w ∈ e.s.m.writes, w.id ∈ ids) → e.s.anyOutstanding ids = true) ∧
  (∀ (e : Env) (h : Hdr) (sc : Scope) (hn : Hint) (sx : Bool) (z : Size) (ty : ITy) (op : AOp) (d n : Nat) (r : Reg) (a : Reg) (b c : Src),
    let loads : List Instr := [.ld h sc hn sx z d a b, .lda h sc hn sx z d a b, .ldt h sx z d b c]
    let others : List Instr := [.st h sc hn z a b c, .strl h sc hn z a b c, .stt h z b c c, .atom h op ty sc r a b c, .red h op ty sc a b c,
      .lease h d a b, .cpy h (some r) b c, .barArrive h sc n b, .barSync h sc n b, .vclr h n]
    (∀ i ∈ loads ++ others, e.Issues → e.path.tids = [e.t.tid] → e.guard i.hdr = true → (e.pred i.hdr.g).2 = false → e.ready i →
      ∀ q ∈ e.t.holds, (i ∈ loads → q.loads = true) → (i ∈ others → q.others = true) → (e.s.anyOutstanding q.ids = true ∨ e.s.now < q.till) →
      e.leaves i e.s (Thread.waitIssue e.s.now)) ∧
    ∀ i ∈ loads, (∀ q ∈ e.t.holds, q.loads = false) → e.t.arrivals = [] → e.cwbHolds = false → e.held i = false)

/-- R95, R97, R99, R101: yield, sleep, brk, trap, isync, icinv and exit. A yield holds the thread for 64 runnable cycles after
this one: every runnable cycle, this one too, takes one from its count, and it yields while the count is above 1 (the model's
count, log 57). A sleep of n cycles blocks with that count, cut to 16,777,215; brk and trap end in their trap, with
the code and the next instruction as resume address, after their stall. An icinv names the line and the cores of its scope. -/
def Obligations.SchedulingResults : Prop := ∀ (e : Env) (h : Hdr),
  (e.runs (.yield h) → ∃ s t, e.retires (.yield h) s ∧ s.thread? e.path.core e.path.slot e.t.tid = some t ∧ t.yieldLeft = 64 + 2) ∧
  (∀ a, e.runs (.sleep h a) → let n := ((e.at_ (.sleep h a)).src a).toNat
    (n = 0 → e.retires (.sleep h a) e.s) ∧
    (n ≠ 0 → ∃ s t, e.blocks (.sleep h a) s (.sleep 0) ∧ s.thread? e.path.core e.path.slot e.t.tid = some t ∧
      t.sleep = min n 16777215)) ∧
  (∀ k, e.runs (.brk h k) → e.trapsAfter (.brk h k) 6 (BitVec.ofNat 32 k)) ∧
  (∀ a, e.runs (.trap h a) → e.trapsAfter (.trap h a) 7 ((e.at_ (.trap h a)).src a)) ∧
  (e.runs (.isync h) →
    ((∀ k ∈ e.t.icinvs, ∀ q ∈ e.s.m.icinv, q.id ≠ k) → ∃ s t, e.retires (.isync h) s ∧
      s.thread? e.path.core e.path.slot e.t.tid = some t ∧ t.fbuf = [] ∧ t.icinvs = []) ∧
    ((∃ k ∈ e.t.icinvs, ∃ q ∈ e.s.m.icinv, q.id = k) → e.blocks (.isync h) e.s .isync)) ∧
  (∀ sc a b, e.runs (.icinv h sc a b) → let va := (e.at_ (.icinv h sc a b)).ea a b
    (e.ctx.match? va = none → e.retires (.icinv h sc a b) e.s) ∧
    (∀ r, e.ctx.match? va = some r → ∃ s q t, e.retires (.icinv h sc a b) s ∧ s.m.icinv = e.s.m.icinv ++ [q] ∧
      q.ctx = e.g.ctx ∧ q.line = lineOf (r.ia va) ∧
      (∀ k, k ∈ q.cores ↔ k < 256 ∧ match sc with
        | .wg => k = e.g.core
        | .cl => k / 4 = e.g.core / 4
        | .die => k / 64 = e.g.core / 64
        | .dev | .sys => True) ∧ s.thread? e.path.core e.path.slot e.t.tid = some t ∧
      q.id ∈ t.icinvs)) ∧
  (e.runs (.exit h) → ∃ s t, exec (.exit h) e.s = .next s ∧ s.thread? e.path.core e.path.slot e.t.tid = some t ∧
    t.run = .exited ∧ t.v = e.t.v ∧ t.pc = e.t.pc)

/-! Memory (R102-R126, R133-R141, R271). -/

/-- R102, R103, R121: the checks of an access, in their order: no range or a range without the right is an access fault
(cause 4), then an address that is not aligned to the size is a misaligned trap (cause 3); the fault address is the
virtual address and the thread resumes at the instruction. That the order holds for an address in a view or window aperture
too is the model's choice (log 65).

R44, R122, R160: a load of base memory sends one request for its bytes at its IA; the destination registers await it, and no
byte changes. An lda holds back every later access until it has returned. A load of a word of the sector cache that a
self-test has waits at issue (R303). -/
def Obligations.LoadIssueAndFaults : Prop :=
  (∀ (e : Env) (h : Hdr) (sc : Scope) (hn : Hint) (z : Size) (a : Reg) (b c : Src) (d : Nat),
    ∀ q ∈ [(Instr.ld h sc hn false z d a b, Acc.read), (Instr.ld h sc hn true z d a b, Acc.read),
           (Instr.lda h sc hn false z d a b, Acc.read), (Instr.lda h sc hn true z d a b, Acc.read),
           (Instr.st h sc hn z a b c, Acc.write), (Instr.strl h sc hn z a b c, Acc.write)], e.runs q.1 →
    let va := (e.at_ q.1).ea a b
    (e.ctx.match? va = none → e.traps q.1 4 0 va e.t.pc) ∧
    ∀ r, e.ctx.match? va = some r →
      (r.allows q.2 = false → e.traps q.1 4 0 va e.t.pc) ∧
      (r.allows q.2 = true → va.toNat % z.bytes ≠ 0 → e.traps q.1 3 0 va e.t.pc)) ∧
  (∀ (e : Env) (h : Hdr) (sc : Scope) (hn : Hint) (sx : Bool) (z : Size) (d : Nat) (a : Reg)
      (b : Src), ∀ q ∈ [(Instr.ld h sc hn sx z d a b, false), (Instr.lda h sc hn sx z d a b, true)], e.runs q.1 →
    let va := (e.at_ q.1).ea a b
    ∀ r, e.plain va z.bytes .read r →
      let tested : Prop := ∃ k < z.bytes, e.s.cacheTested e.g.core e.g.ctx (secOf (r.ia va + k)) = true
      (tested → e.leaves q.1 e.s (Thread.waitIssue e.s.now)) ∧
      (¬tested → ∃ s x, e.retires q.1 s ∧ e.s.sameBytes s ∧ s.m.reads = e.s.m.reads ++ [x] ∧
      x.id = e.s.nextId ∧ x.who = e.who ∧ x.kind = .load z sx d q.2 ∧ x.ctx = e.g.ctx ∧ x.va = va ∧ x.held = false ∧
      x.bytes = (List.range z.bytes).map (fun k => BSrc.mem (r.ia va + k)) ∧
      x.secs.map (fun k => (k.ia, k.home)) = [(secOf (r.ia va), r.home (r.ia va))] ∧ e.awaiting s x.id d z.group ∧
      (q.2 = true → ∃ t, e.thr s = some t ∧ ∃ p ∈ t.holds, p.loads = true ∧ p.others = true ∧ p.ids = [x.id])))

/-- R112, R124: pref retires whatever its address; it fetches nothing without a range that may be read. A sector that is
resident is used by it, and its hint becomes the more retentive of its own and the instruction's; for one that is not, or
for a prefetch to the home slice alone, it sends one read of the sector.

R124: cwb, cinv and chint on base memory retire and change no byte: cwb holds the thread until its own writes of the line are
done, and at .dev and .sys until the line is written back, which is the model's reading (log 47); cinv drops the line's sectors
from the caches of its scope; chint replaces the hint of the resident sector. The sectors that a lease pins (R111) are no
entries of a sector cache here, so cinv and chint leave them as they are (log 47). Without a range that may be read they take
the access-fault trap. -/
def Obligations.CacheControlResults : Prop :=
  (∀ (e : Env) (h : Hdr) (sc : Scope) (hn : Hint) (a : Reg) (b : Src),
    let i : Instr := .pref h sc hn a b
    let va := (e.at_ i).ea a b
    e.runs i →
    (e.ctx.match? va = none → e.retires i e.s) ∧
    (∀ r, e.ctx.match? va = some r → r.rd = false → e.retires i e.s) ∧
    ∀ r, e.plain va 1 .prefetch r → e.ctx.window? (secOf (r.ia va)) = none →
      let sec := secOf (r.ia va)
      let more (o : Hint) : Hint := if o = .stky ∨ hn = .stky then .stky else if o = .dflt ∨ hn = .dflt then .dflt
        else if o = .strm ∨ hn = .strm then .strm else .byp
      let here := (sc = .wg ∨ sc = .cl) ∧ (e.s.resident? e.g.core e.g.ctx sec).isSome = true
      ∃ s, e.retires i s ∧ e.s.sameBytes s ∧ s.wgs = e.s.wgs ∧
        (here → s.m.reads = e.s.m.reads ∧ ∀ c, c ∈ s.m.cache ↔ ∃ c' ∈ e.s.m.cache,
          if c'.core = e.g.core ∧ c'.ctx = e.g.ctx ∧ c'.ia = sec ∧ e.s.now < c'.till
          then c = { c' with hint := more c'.hint, used := e.s.now } else c = c') ∧
        (¬here → s.m.cache = e.s.m.cache ∧ ∃ x, s.m.reads = e.s.m.reads ++ [x] ∧ x.id = e.s.nextId ∧ x.who = e.who ∧ x.kind = .pref ∧
          x.hint = hn ∧ x.secs.map (fun k => (k.ia, k.home, k.got)) = [(sec, r.home (r.ia va), none)])) ∧
  (∀ (e : Env) (h : Hdr) (sc : Scope) (hn : Hint) (a : Reg) (b : Src),
    let line (i : Instr) (r : Range) (x : Nat) : Prop := lineOf x = lineOf (r.ia ((e.at_ i).ea a b)) ∧ x % 32 = 0
    (∀ i ∈ [Instr.cwb h sc a b, .cinv h sc a b, .chint h hn a b], e.runs i → let va := (e.at_ i).ea a b
      (∀ r, e.ctx.match? va = some r → r.rd = false) → e.traps i 4 0 va e.t.pc) ∧
    (e.runs (.cwb h sc a b) → ∀ r, e.plain ((e.at_ (.cwb h sc a b)).ea a b) 1 .read r → ∃ s t, e.retires (.cwb h sc a b) s ∧
      e.s.sameBytes s ∧ e.thr s = some t ∧
      (∀ w ∈ e.s.m.writes, w.of e.who = true → w.ctx = e.g.ctx → line (.cwb h sc a b) r w.ia → w.id ∈ t.cwb) ∧
      t.cwbBack = if sc = .dev ∨ sc = .sys then [lineOf (r.ia ((e.at_ (.cwb h sc a b)).ea a b))] else []) ∧
    (e.runs (.cinv h sc a b) → ∀ r, e.plain ((e.at_ (.cinv h sc a b)).ea a b) 1 .read r → ∃ s, e.retires (.cinv h sc a b) s ∧
      e.s.sameBytes s ∧ s.wgs = e.s.wgs ∧
      ∀ c, c ∈ s.m.cache ↔ c ∈ e.s.m.cache ∧ ¬(c.ctx = e.g.ctx ∧ lineOf c.ia = lineOf (r.ia ((e.at_ (.cinv h sc a b)).ea a b)) ∧
        (match sc with
         | .wg => c.core = e.g.core
         | .cl => c.core / 4 = e.g.core / 4
         | _ => c.core / 64 = e.g.core / 64))) ∧
    (e.runs (.chint h hn a b) → ∀ r, e.plain ((e.at_ (.chint h hn a b)).ea a b) 1 .read r → ∃ s, e.retires (.chint h hn a b) s ∧
      e.s.sameBytes s ∧ s.wgs = e.s.wgs ∧
      ∀ c, c ∈ s.m.cache ↔ ∃ c' ∈ e.s.m.cache, if c'.core = e.g.core ∧ c'.ctx = e.g.ctx ∧
          c'.ia = secOf (r.ia ((e.at_ (.chint h hn a b)).ea a b)) ∧ e.s.now < c'.till
        then hn ≠ .byp ∧ c = { c' with hint := hn } else c = c'))

/-- R114, R115, R134, R136: a sector of a read that is served reads the completed bytes of its frame with the core's
own earlier writes over them; a read through a view is served by the composer, here alone in its bundle. No byte changes.

R119, R120, R122, R137: the data of a load reach its registers, little-endian and extended to 32 bits; a register
with a poisoned byte is poisoned and holds 0, and an lda with one takes a poison-use trap. -/
def Obligations.LoadCompletion : Prop :=
  (∀ (s : State) (r : RReq) (k : Nat) (x : RSec) (f : Xl),
    s.read? r.id = some r → r.secs[k]? = some x → x.got = none → x.retry = 0 → (∀ j y, r.secs[j]? = some y → j ≠ k → y.got ≠ none) →
    s.m.rmwBefore r.who r.id r.ctx x.ia = false → s.m.readBefore r.who r.id r.ctx x.ia = false →
    s.loggedPage r.who.core r.ctx x.ia = false → (r.view = true → ∀ q ∈ s.m.reads, r.bundled q = true → q = r) →
    s.gate { ctx := r.ctx, master := r.ctx, ia := x.ia, home := x.home, die := dieOf r.who.core, atHome := false
             acc := if r.kind = .pref then .prefetch else .read, n := 32, who := some r.who, place := x.queued
             id := r.id, keeps := true } = .go f →
    ∃ s' r' x', exec (if r.view then .viewCompose r.id else .homeReadRequest r.id k) s = .next s' ∧ s.sameBytes s' ∧
      s'.read? r.id = some r' ∧ r'.secs[k]? = some x' ∧ x'.got = some (s.readSec (some r.who) r.id r.ctx x.ia f) ∧
      let b : Xl := { f with pa := f.pa / 32 * 32 }
      (s.ownWrites r.who r.id r.ctx x.ia = [] → x'.got = some (s.m.bytesAt b 32, s.m.poisonedAt b)) ∧
      (∀ w, s.ownWrites r.who r.id r.ctx x.ia = [w] → ∃ l, x'.got = some (l, s.m.poisonedAt b && !w.full) ∧
        ∀ k < 32, l.getD k 0 = if w.mask.getD k false then w.data.getD k 0 else (s.m.bytesAt b 32).getD k 0)) ∧
  (∀ (s : State) (r : RReq) (g : Workgroup) (t : Thread) (z : Size) (sx : Bool) (d : Nat) (acq : Bool),
    s.read? r.id = some r → r.kind = .load z sx d acq → r.far = none → r.secs.all (·.got.isSome) = true → r.held = false → s.canFill r = true →
    s.wg? r.who.core r.who.slot = some g → g.uid = r.who.uid → g.thread? r.who.tid = some t → t.run = .runnable →
    r.bytes.length = z.bytes → d + z.group ≤ t.v.length →
    let bs := r.bytes.map fun b => (r.byteOf b).1
    let bad (k : Nat) : Bool := ((r.bytes.map fun b => (r.byteOf b).2).drop (4 * k)).take 4 |>.any id
    ∃ s' t', exec (.loadDataReturn r.id) s = .next s' ∧ s'.thread? r.who.core r.who.slot r.who.tid = some t' ∧
      (∀ y ∈ s'.m.reads, y.id ≠ r.id) ∧
      (acq = true → (∃ k < z.group, bad k = true) → t'.tcause = 5 ∧ t'.run = .trapPending ∧ t'.taddr = r.who.pc ∧ t'.faddr = r.va) ∧
      (acq = false ∨ (∀ k < z.group, bad k = false) → s.sameBytes s' ∧ t'.pc = t.pc ∧
        (∀ n, n < d ∨ d + z.group ≤ n → t'.v.getD n {} = t.v.getD n {}) ∧
        ∀ k < z.group, t'.v.getD (d + k) {} = if bad k then .arrived 0 true else .arrived (match z with
          | .byte => if sx then (bs.getD 0 0).signExtend 32 else (bs.getD 0 0).setWidth 32
          | .half => if sx then (bs.getD 1 0 ++ bs.getD 0 0).signExtend 32 else (bs.getD 1 0 ++ bs.getD 0 0).setWidth 32
          | _ => bs.getD (4 * k + 3) 0 ++ (bs.getD (4 * k + 2) 0 ++ (bs.getD (4 * k + 1) 0 ++ bs.getD (4 * k) 0))) false))

/-- R118, R123, R146, R159, R271: a store to base memory sends one write of its bytes to the one sector they lie in; pzap writes
32 zero bytes; a release store follows what it releases, and has no place in the write queue before; a reduction sends its
operand. Where the core's write queue is full the instruction waits at issue. No byte changes yet. The write is this lane's
alone where nothing was written in this cycle. -/
def Obligations.StoreIssue : Prop := ∀ (e : Env) (h : Hdr) (sc : Scope) (hn : Hint) (z : Size) (a : Reg) (b c : Src),
  (∀ x ∈ e.s.m.writes, x.cycle ≠ e.s.now) →
  let ia (i : Instr) (r : Range) : Nat := r.ia ((e.at_ i).ea a b)
  let sent (i : Instr) (r : Range) (kind : WKind) (P : WEnt → Prop) : Prop :=
    (e.mustQueue [secOf (ia i r)] = true → e.leaves i e.s (Thread.waitIssue e.s.now)) ∧
    (e.mustQueue [secOf (ia i r)] = false → ∃ s w, e.retires i s ∧ e.s.sameBytes s ∧
      s.m.writes = e.s.m.writes ++ [w] ∧ w.id = e.s.nextId ∧ w.who = e.who ∧ w.lanes.map (fun l => (l.who, l.va)) = [(e.who, (e.at_ i).ea a b)] ∧
      w.ctx = e.g.ctx ∧ w.kind = kind ∧ w.sc = sc ∧ w.ia = secOf (ia i r) ∧ w.home = r.home (ia i r) ∧ P w)
  let holds (off n : Nat) (x : Nat) (w : WEnt) : Prop := ∀ k < 32,
    w.mask.getD k false = (decide (off ≤ k) && decide (k < off + n)) ∧
    (off ≤ k → k < off + n → w.data.getD k 0 = BitVec.ofNat 8 (x / 256 ^ (k - off)))
  (∀ q ∈ [(Instr.st h sc hn z a b c, WKind.st), (Instr.strl h sc hn z a b c, WKind.strl)], e.runs q.1 →
    ∀ r, e.plain ((e.at_ q.1).ea a b) z.bytes .write r →
      (e.s.cacheTested e.g.core e.g.ctx (secOf (ia q.1 r)) = true → e.leaves q.1 e.s (Thread.waitIssue e.s.now)) ∧
      (e.s.cacheTested e.g.core e.g.ctx (secOf (ia q.1 r)) = false → sent q.1 r q.2 fun w =>
        holds (ia q.1 r % 32) z.bytes ((e.at_ q.1).data z c) w ∧
        (q.2 = .strl → w.till = e.t.lastW ∧ (e.s.leaseOf? e.who e.g.ctx (lineOf (ia q.1 r)) = none → w.after = e.releaseIds sc) ∧
          (e.s.anyOutstanding w.after = true ∨ e.s.now < w.till → w.ord = 0)))) ∧
  (e.runs (.pzap h sc a b) → ∀ r, e.plain ((e.at_ (.pzap h sc a b)).ea a b) 1 .write r → sent (.pzap h sc a b) r .pzap fun w =>
      holds 0 32 0 w ∧ w.full = true) ∧
  (∀ op ty, e.runs (.red h op ty sc a b c) → ∀ r, e.plain ((e.at_ (.red h op ty sc a b c)).ea a b) (if ty.wide then 8 else 4) .rmw r →
    sent (.red h op ty sc a b c) r (.red op ty) fun w =>
      w.ops = [(ia (.red h op ty sc a b c) r % 32, (e.at_ (.red h op ty sc a b c)).opnd ty c)]) ∧
  (∀ op, e.runs (.redf h op sc a b c) → ∀ r, e.plain ((e.at_ (.redf h op sc a b c)).ea a b) 4 .rmw r →
    sent (.redf h op sc a b c) r (.redf op) fun w =>
      w.ops = [(ia (.redf h op sc a b c) r % 32, ((e.at_ (.redf h op sc a b c)).src c).setWidth 64)])

/-- R111, R114, R115: a write that is served becomes pending where it completes, no earlier than every tenure granted on the
sector has ended and every earlier write pending on it; a sector leaves a cache when its tenure has ended.

R115, R120: a write that completes changes the bytes of its mask in its sector and no other byte of memory; a store of
all 32 bytes and pzap leave the sector ordinary data, and no other sector's poison changes. Stated where no thread waits
on the sector. -/
def Obligations.WriteArrivalAndCompletion : Prop :=
  ((∀ (s : State) (w : WEnt) (f : Xl), s.write? w.id = some w → w.kind.plain = true → w.state.canArrive = true →
      s.mayGo w = true → s.gate w.plainNeed = .go f → ∃ s' w' c k, exec (.writeArrival w.id) s = .next s' ∧ s.sameBytes s' ∧
        s'.write? w.id = some w' ∧ w'.state = .arrived c k ∧ w'.mask = w.mask ∧ w'.data = w.data ∧ s.now ≤ c ∧
        (∀ t ∈ s.m.tenures, t.die = w.plainNeed.serving → t.pa = f.key → t.till ≤ c) ∧
        ∀ y ∈ s.m.writes, ∀ u v, y.state = .arrived u v → y.ctx = w.ctx → y.ia = w.ia → u ≤ c) ∧
    ∀ (s : State) (core ctx sec : Nat), ∃ s', exec (.tenureExpiry core ctx sec) s = .next s' ∧ s.sameBytes s' ∧ s'.wgs = s.wgs ∧
      (∀ x, x ∈ s'.m.cache ↔ x ∈ s.m.cache ∧ ¬(x.core = core ∧ x.ctx = ctx ∧ x.ia = sec ∧ x.till ≤ s.now)) ∧
      ∀ x, x ∈ s'.m.tenures ↔ x ∈ s.m.tenures ∧ s.now < x.till) ∧
  (∀ (s : State) (w : WEnt) (f : Xl), s.m.canon → s.write? w.id = some w → s.completes w = true →
    s.xlate w.home w.ctx w.ia = .ok f → (∀ q ∈ s.m.waits, q.key ≠ f.key) → ∃ s', exec (.writeComplete w.id) s = .next s' ∧
      (∀ y ∈ s'.m.writes, y.id ≠ w.id) ∧ s'.wgs = s.wgs ∧
      let base := f.pa / 32 * 32
      let get (m : Mem) (a : Nat) : Byte := cellGet a (if f.hst then m.host else m.cells)
      (∀ k < 32, get s'.m (base + k) = if w.mask.getD k false then w.data.getD k 0 else get s.m (base + k)) ∧
      (∀ a, a < base ∨ base + 32 ≤ a → get s'.m a = get s.m a) ∧
      (if f.hst then s'.m.cells = s.m.cells else s'.m.host = s.m.host) ∧
      (∀ q : Xl, q.hst ≠ f.hst ∨ sectorOf q.pa ≠ sectorOf f.pa → s'.m.poisonedAt q = s.m.poisonedAt q) ∧
      s'.m.poisonedAt f = (!w.full && s.m.poisonedAt f))

/-- R109, R119, R122, R125, R126: the tile store. ldt reads its bytes, stt writes them and nothing else of the partition, both
waiting while the matrix engine or a tgive owns the granule, or a self-test has the word; an offset outside the partition is an access fault and one
not aligned is a misaligned trap. own reads the granule's state; tgive and ttake set and clear its given bit. That a thread
which waits so stays runnable and tries again after 8 cycles, with age 0, is the model's choice (log 13). -/
def Obligations.TileStoreResults : Prop := ∀ (e : Env) (h : Hdr) (z : Size) (sx : Bool) (d : Nat) (a b c : Src),
  (∀ i ∈ [Instr.ldt h sx z d a b, Instr.stt h z a b c], e.runs i → let off := (e.at_ i).tileOff a b
    (e.g.tile.length ≤ off → e.traps i 4 0 (BitVec.ofNat 64 off) e.t.pc) ∧
    (off < e.g.tile.length → off % z.bytes ≠ 0 → e.traps i 3 0 (BitVec.ofNat 64 off) e.t.pc) ∧
    (off < e.g.tile.length → off % z.bytes = 0 → (e.g.gran? off).owned = true ∨ e.tileTested off z.bytes = true →
      e.leaves i e.s (Thread.waitIssue e.s.now))) ∧
  (e.runs (.ldt h sx z d a b) → let off := (e.at_ (.ldt h sx z d a b)).tileOff a b
    off < e.g.tile.length → off % z.bytes = 0 → (e.g.gran? off).owned = false → e.s.y.selfTests = [] → (∀ w ∈ e.g.tpoi, w * 4 + 4 ≤ off ∨ off + z.bytes ≤ w * 4) →
    d + z.group ≤ e.t.v.length → ∃ s, e.retires (.ldt h sx z d a b) s ∧ e.s.sameBytes s ∧
      let byte (k : Nat) : Byte := e.g.tile.getD (off + k) 0
      ∀ k < z.group, e.got s (.v (d + k)) (match z with
        | .byte => if sx then (byte 0).signExtend 32 else (byte 0).setWidth 32
        | .half => if sx then (byte 1 ++ byte 0).signExtend 32 else (byte 1 ++ byte 0).setWidth 32
        | _ => byte (4 * k + 3) ++ (byte (4 * k + 2) ++ (byte (4 * k + 1) ++ byte (4 * k))))) ∧
  (e.runs (.stt h z a b c) → let off := (e.at_ (.stt h z a b c)).tileOff a b
    off + z.bytes ≤ e.g.tile.length → off % z.bytes = 0 → (e.g.gran? off).owned = false → e.s.y.selfTests = [] →
    ∃ s g, e.retires (.stt h z a b c) s ∧ e.s.sameBytes s ∧ e.wg s = some g ∧ g.tile.length = e.g.tile.length ∧
      (∀ k < e.g.tile.length, g.tile.getD k 0 = if off ≤ k ∧ k < off + z.bytes
        then BitVec.ofNat 8 ((e.at_ (.stt h z a b c)).data z c / 256 ^ (k - off)) else e.g.tile.getD k 0) ∧
      ∀ w, w ∈ g.tpoi → w ∈ e.g.tpoi) ∧
  (e.runs (.own h d a) → let off := ((e.at_ (.own h d a)).src a).toNat
    (e.g.tile.length ≤ off → e.traps (.own h d a) 4 0 (BitVec.ofNat 64 off) e.t.pc) ∧
    (off < e.g.tile.length → ∃ s, e.retires (.own h d a) s ∧ e.s.sameBytes s ∧ e.got s (.v d)
      (BitVec.ofNat 32 ((if (e.g.gran? off).ref ≠ 0 ∨ (e.g.gran? off).gv = true then 2 ^ 31 else 0) +
        (if (e.g.gran? off).gv then 2 ^ 30 else 0) + (e.g.gran? off).ref)))) ∧
  (∀ q ∈ [(Instr.tgive h a b, true), (Instr.ttake h a b, false)], e.runs q.1 →
    let x := ((e.at_ q.1).src a).toNat
    let n := ((e.at_ q.1).src b).toNat
    (0 < n → e.g.gran.length * 1024 ≤ x + n - 1 → e.traps q.1 4 0 (((e.at_ q.1).src a).setWidth 64) e.t.pc) ∧
    (n = 0 ∨ x + n ≤ e.g.gran.length * 1024 → ∃ s g, e.s.sameBytes s ∧ e.wg s = some g ∧
      (∀ k < e.g.gran.length, g.gran.getD k {} = if 0 < n ∧ x / 1024 ≤ k ∧ k ≤ (x + n - 1) / 1024
        then { e.g.gran.getD k {} with gv := q.2 } else e.g.gran.getD k {}) ∧
      ((q.2 = true ∨ ∀ k, 0 < n → x / 1024 ≤ k → k ≤ (x + n - 1) / 1024 → (e.g.gran.getD k {}).ref = 0) → e.retires q.1 s) ∧
      (q.2 = false → (∃ k, 0 < n ∧ x / 1024 ≤ k ∧ k ≤ (x + n - 1) / 1024 ∧ (e.g.gran.getD k {}).ref ≠ 0) →
        ∃ f l, e.blocks q.1 s (.ttake f l))))

/-- R142-R144: the view instructions on the context's slots: vset sends the read of the 128 bytes of a descriptor, vclr empties a
slot, vqry reads a word of its descriptor, vfill replaces its fill value, and vaddr translates between an address and its
IA. That vset holds every later access of its thread until its status is there is the model's reading (log 47). The descriptor's
read gives the status and, where it is 0, installs it: 1 for a kind above 3 or a rank of 0 or 7; 4 for a shadow range, sound in
itself, that meets another slot's. -/
def Obligations.ViewInstructionResults : Prop := ∀ (e : Env) (h : Hdr) (slot d : Nat) (a : Reg) (b x : Src),
  e.g.ctx < e.s.ctxs.length →
  (∀ q, e.runs (.vset h slot q a b) → ∀ r, e.plain ((e.at_ (.vset h slot q a b)).ea a b) 128 .read r →
    (∀ k < 128, e.s.cacheTested e.g.core e.g.ctx (secOf (r.ia ((e.at_ (.vset h slot q a b)).ea a b) + k)) = false) →
    ∃ s y t, e.retires (.vset h slot q a b) s ∧ e.s.sameBytes s ∧ s.m.reads = e.s.m.reads ++ [y] ∧ y.kind = .vset slot q ∧
      y.bytes = (List.range 128).map (fun k => BSrc.mem (r.ia ((e.at_ (.vset h slot q a b)).ea a b) + k)) ∧
      e.thr s = some t ∧ (∃ p ∈ t.holds, p.loads = true ∧ p.others = true ∧ p.ids = [y.id]) ∧
      ∀ n, q = some n → e.awaiting s y.id n 1) ∧
  (∀ (s : State) (r : RReq) (k : Nat), s.read? r.id = some r → r.kind = .vset slot (some k) → r.far = none → r.secs.all (·.got.isSome) = true →
    r.held = false → s.canFill r = true → s.vsetBefore r = false → (∀ x ∈ r.bytes, (r.byteOf x).2 = false) → r.ctx < s.ctxs.length →
    let raw : BitVec 1024 := BitVec.ofNat 1024 (leNat (r.bytes.map fun x => (r.byteOf x).1))
    let v := viewOf raw
    let c := s.ctx r.ctx
    ∃ s' st, exec (.loadDataReturn r.id) s = .next s' ∧ s.sameBytes s' ∧ (s.lives r.who = true → s.gave s' r.who k (BitVec.ofNat 32 st)) ∧ st ≤ 5 ∧
      (st ≠ 0 → s'.ctxs = s.ctxs) ∧
      (st = 0 → ∃ x, s'.ctx r.ctx = { c with vw := c.vw.set slot (some x) } ∧ (∀ j, j ≠ 73 → x.getLsbD j = raw.getLsbD j) ∧
        x.getLsbD 73 = (c.window? v.baseIa).isSome) ∧
      (4 ≤ v.kind ∨ v.rank = 0 ∨ v.rank = 7 → st = 1) ∧
      (v.reservedBad = false → v.shapeBad = false → v.addressBad c = false →
        (st = 4 ↔ ∃ n d, c.vw[n]? = some (some d) ∧ n ≠ slot ∧ (viewOf d).shadow < v.shadow + v.size ∧
          v.shadow < (viewOf d).shadow + (viewOf d).size))) ∧
  (e.runs (.vclr h slot) → ∃ s, e.retires (.vclr h slot) s ∧ s = e.s.setCtx e.g.ctx (s.ctx e.g.ctx) ∧
    s.ctx e.g.ctx = { e.ctx with vw := e.ctx.vw.set slot none }) ∧
  (e.runs (.vqry h slot d x) → ∃ s, e.retires (.vqry h slot d x) s ∧ e.got s (.v d) (match e.ctx.vw.getD slot none with
    | none => 0
    | some v => v.extractLsb' (32 * (((e.at_ (.vqry h slot d x)).src x).toNat % 32)) 32)) ∧
  (e.runs (.vfill h slot x) → ∃ s, e.retires (.vfill h slot x) s ∧ s = e.s.setCtx e.g.ctx (s.ctx e.g.ctx) ∧
    ((e.ctx.vw.getD slot none = none → s = e.s) ∧ ∀ v, e.ctx.vw.getD slot none = some v →
      ∃ v', s.ctx e.g.ctx = { e.ctx with vw := e.ctx.vw.set slot (some v') } ∧
        v'.extractLsb' 96 32 = (e.at_ (.vfill h slot x)).src x ∧ ∀ k, k < 96 ∨ 128 ≤ k → v'.getLsbD k = v.getLsbD k)) ∧
  (∀ p, e.runs (.vaddrIa h p a b) → let va := (e.at_ (.vaddrIa h p a b)).ea a b
    (e.ctx.match? va = none → e.traps (.vaddrIa h p a b) 4 0 va e.t.pc) ∧
    ∀ r, e.ctx.match? va = some r → (r.rd = true ∨ r.w = true ∨ r.x = true) → ∃ s, e.retires (.vaddrIa h p a b) s ∧
      ∀ k < 2, e.got s ((p.regs 2).getD k p) (BitVec.ofNat 32 (r.ia va / 2 ^ (32 * k)))) ∧
  (∀ p, e.runs (.vaddrVa h p a b) → let ia := ((e.at_ (.vaddrVa h p a b)).ea a b).toNat % 2 ^ 52
    let hit (r : Range) : Bool := decide (r.off ≤ ia) && decide (ia < r.off + (r.limit - r.base))
    ((∀ r ∈ e.ctx.rg.filterMap rangeOf, hit r = false) → e.traps (.vaddrVa h p a b) 4 0 ((e.at_ (.vaddrVa h p a b)).ea a b) e.t.pc) ∧
    ∀ r, (e.ctx.rg.filterMap rangeOf).find? hit = some r → ∃ s, e.retires (.vaddrVa h p a b) s ∧
      ∀ k < 2, e.got s ((p.regs 2).getD k p)
        (BitVec.ofNat 32 (((BitVec.ofNat 57 (ia - r.off + r.base)).signExtend 64 : DWord).toNat / 2 ^ (32 * k))))

/-! Atomics, waits and leases (R145-R157, R307-R311). -/

/-- R44, R146, R147: an atomic on base memory sends a request with its lane's operands, on which the destination waits; no
byte changes yet. The request is this lane's alone where no other atomic was issued in this cycle. -/
def Obligations.AtomicIssue : Prop := ∀ (e : Env) (h : Hdr) (ty : ITy) (sc : Scope) (d : Reg) (a : Reg) (b c : Src) (k n : Nat),
  (∀ x ∈ e.s.m.atoms, x.cycle ≠ e.s.now) →
  let sent (i : Instr) (kind : AKind) (ty : ITy) (d : Reg) (x cmp : DWord) : Prop := e.runs i →
    ∀ r, e.plain ((e.at_ i).ea a b) (if ty.wide then 8 else 4) .rmw r → ∃ s q l, e.retires i s ∧ e.s.sameBytes s ∧
      s.m.atoms = e.s.m.atoms ++ [q] ∧ q.id = e.s.nextId ∧ q.ctx = e.g.ctx ∧ q.kind = kind ∧ q.ty = ty ∧ q.sc = sc ∧
      q.ia = r.ia ((e.at_ i).ea a b) ∧ q.home = r.home q.ia ∧ q.msa = r.msa ∧ q.fwd = false ∧ q.lanes = [l] ∧
      l.who = e.who ∧ l.d = d ∧ l.x = x ∧ l.cmp = cmp ∧ e.awaitingReg s q.id d (if ty.wide then 2 else 1)
  (∀ op, let i : Instr := .atom h op ty sc d a b c
    sent i (.atom op) ty d (if ty.wide then (e.at_ i).src64 c else ((e.at_ i).src c).setWidth 64) 0) ∧
  (sent (.acas h ty sc d a b k) .acas ty d (if ty.wide then e.pair (.v (k + 2)) else (e.reg (.v (k + 1))).1.setWidth 64)
    (if ty.wide then e.pair (.v k) else (e.reg (.v k)).1.setWidth 64)) ∧
  (∀ op, let i : Instr := .atomf h op sc n a b c
    sent i (.atomf op) .n32 (.v n) (((e.at_ i).src c).setWidth 64) 0)

/-- R148, R149: the values of atomics. An integer operation at its width, a float one with the arithmetic of its kind; a
compare and swap that fails writes nothing. Combined lanes execute in ascending order, each receiving what its own step saw;
of float adds the operands are summed first.

R145, R146: an atomic that its home serves reads and writes its word at one instant: the stored value and the returned old
values are those of R148 and R149, and no other byte changes. A forwarded one executes at the memory-side unit in the same
way; a reduction stores and returns nothing. Stated where no thread waits on the sector. -/
def Obligations.AtomicExecution : Prop :=
  ((∀ (ty : ITy) (x y : Word), ty.wide = false → let at32 (op : AOp) : Word := (intAtom op ty (x.setWidth 64) (y.setWidth 64)).setWidth 32
      at32 .add = x + y ∧ at32 .and = x &&& y ∧ at32 .or = x ||| y ∧ at32 .xor = x ^^^ y ∧ at32 .exch = y ∧
      at32 .inc = (if y.toNat ≤ x.toNat then 0 else x + 1) ∧ at32 .dec = (if x = 0 ∨ y.toNat < x.toNat then y else x - 1) ∧
      (ty = .i32 → at32 .min = BitVec.ofInt 32 (min x.toInt y.toInt) ∧ at32 .max = BitVec.ofInt 32 (max x.toInt y.toInt)) ∧
      (ty = .n32 → at32 .min = BitVec.ofNat 32 (min x.toNat y.toNat) ∧ at32 .max = BitVec.ofNat 32 (max x.toNat y.toNat))) ∧
    (∀ (ty : ITy) (x y : DWord), ty.wide = true →
      intAtom .add ty x y = x + y ∧ intAtom .and ty x y = x &&& y ∧ intAtom .or ty x y = x ||| y ∧ intAtom .xor ty x y = x ^^^ y ∧
      intAtom .exch ty x y = y ∧ intAtom .inc ty x y = (if y.toNat ≤ x.toNat then 0 else x + 1) ∧
      intAtom .dec ty x y = (if x = 0 ∨ y.toNat < x.toNat then y else x - 1) ∧
      (ty = .i64 → intAtom .min ty x y = BitVec.ofInt 64 (min x.toInt y.toInt) ∧ intAtom .max ty x y = BitVec.ofInt 64 (max x.toInt y.toInt)) ∧
      (ty = .n64 → intAtom .min ty x y = BitVec.ofNat 64 (min x.toNat y.toNat) ∧ intAtom .max ty x y = BitVec.ofNat 64 (max x.toNat y.toNat))) ∧
    (∀ (a : AReq) (op : AOp) (old : DWord), a.kind = .atom op → ∃ v, (a.result old).1 = some v ∧
      v = (a.lanes.map (·.x)).foldl (intAtom op a.ty) old ∧ (a.result old).2.length = a.lanes.length ∧
      ∀ k < a.lanes.length, (a.result old).2.getD k 0 = ((a.lanes.map (·.x)).take k).foldl (intAtom op a.ty) old) ∧
    (∀ (x y : DWord), floatAtom .add x y = BitVec.ofNat 64 (fp32.add .rn (x.toNat % 2 ^ 32) (y.toNat % 2 ^ 32)).1 ∧
      floatAtom .min x y = BitVec.ofNat 64 (fp32.minmax false (x.toNat % 2 ^ 32) (y.toNat % 2 ^ 32)).1 ∧
      floatAtom .max x y = BitVec.ofNat 64 (fp32.minmax true (x.toNat % 2 ^ 32) (y.toNat % 2 ^ 32)).1 ∧
      floatAtom .exch x y = (y.setWidth 32).setWidth 64) ∧
    (∀ (a : AReq) (op : AFOp) (old : DWord), a.kind = .atomf op → op ≠ .add → (a.result old).1 = some ((a.lanes.map (·.x)).foldl (floatAtom op) old) ∧
      (a.result old).2.length = a.lanes.length ∧
      ∀ k < a.lanes.length, (a.result old).2.getD k 0 = ((a.lanes.map (·.x)).take k).foldl (floatAtom op) old) ∧
    (∀ (a : AReq) (x : DWord) (xs : List DWord) (old : DWord), a.kind = .atomf .add → a.lanes.map (·.x) = x :: xs →
      let p (k : Nat) : DWord := (xs.take k).foldl (floatAtom .add) x
      (a.result old).1 = some (floatAtom .add old (p xs.length)) ∧ (a.result old).2.length = a.lanes.length ∧ (a.result old).2.getD 0 0 = old ∧
      ∀ k < xs.length, (a.result old).2.getD (k + 1) 0 = floatAtom .add old (p k)) ∧
    (∀ (a : AReq) (old : DWord), a.kind = .acas →
      let saw (k : Nat) : DWord := (a.lanes.take k).foldl (fun v l => if v = l.cmp then l.x else v) old
      let hits : Prop := ∃ k l, a.lanes[k]? = some l ∧ saw k = l.cmp
      (hits → (a.result old).1 = some (saw a.lanes.length)) ∧ (¬hits → (a.result old).1 = none) ∧
      (a.result old).2.length = a.lanes.length ∧ ∀ k < a.lanes.length, (a.result old).2.getD k 0 = saw k)) ∧
  (∀ (s : State), s.m.canon →
    let stores (s' : State) (f : Xl) (n : Nat) (v : Option DWord) : Prop := ∀ a,
      cellGet a (if f.hst then s'.m.host else s'.m.cells) = match v with
        | some x => if f.pa ≤ a ∧ a < f.pa + n then BitVec.ofNat 8 (x.toNat / 256 ^ (a - f.pa)) else cellGet a (if f.hst then s.m.host else s.m.cells)
        | none => cellGet a (if f.hst then s.m.host else s.m.cells)
    (∀ (a : AReq) (core slot : Nat) (f : Xl) (g : Workgroup), s.m.atoms.find? (·.id == a.id) = some a → a.lanes ≠ [] → a.held = false →
      (∀ l ∈ a.lanes, l.who.core = core ∧ l.who.slot = slot ∧ l.who.uid = g.uid) → (a.lanes.map (·.who.tid)).Nodup →
      a.ia % (if a.ty.wide then 8 else 4) = 0 → f.pa % 32 = a.ia % 32 → s.m.poisonedAt f = false → (∀ q ∈ s.m.waits, q.key ≠ f.key) →
      s.wg? core slot = some g →
      let n := if a.ty.wide then 8 else 4
      let old := BitVec.ofNat 64 (leNat (s.m.bytesAt f n))
      let ends (i : Instr) : Prop := ∃ s', exec i s = .next s' ∧ (∀ y ∈ s'.m.atoms, y.id ≠ a.id) ∧ stores s' f n (a.result old).1 ∧
        ∀ j l, a.lanes[j]? = some l → ∀ k, l.d = .v k → let x := (a.result old).2.getD j 0
          s.gave s' l.who k (BitVec.ofNat 32 x.toNat) ∧ (a.ty.wide = true → s.gave s' l.who (k + 1) (BitVec.ofNat 32 (x.toNat / 2 ^ 32)))
      (a.fwd = false → (a.msa = false ∨ f.hst = true) → a.retry = 0 → s.atomMayGo a = true → s.gate a.need = .go f →
        s.settled (if f.hst then a.need.die else a.home) a.ctx (secOf a.ia) f = true → ends (.atomicExecute a.id)) ∧
      (a.fwd = true → s.xlate a.home a.ctx a.ia = .ok f → s.dramBusy f = false → ends (.msuExecute a.id))) ∧
    (∀ (w : WEnt) (f : Xl) (off n : Nat) (xs : List DWord) (v : DWord → DWord), s.write? w.id = some w →
      s.m.atoms.find? (·.id == w.id) = none → w.ops = xs.map (fun x => (off, x)) → xs ≠ [] →
      ((∃ op ty, w.kind = .red op ty ∧ n = (if ty.wide then 8 else 4) ∧ v = fun old => xs.foldl (intAtom op ty) old) ∨
        (∃ op, w.kind = .redf op ∧ op ≠ .add ∧ n = 4 ∧ v = fun old => xs.foldl (floatAtom op) old) ∨
        (w.kind = .redf .add ∧ n = 4 ∧ v = fun old => floatAtom .add old (xs.tail.foldl (floatAtom .add) (xs.headD 0)))) →
      off % n = 0 → off < 32 → f.pa % 32 = 0 → s.m.poisonedAt f = false → (∀ q ∈ s.m.waits, q.key ≠ f.key) →
      let old := BitVec.ofNat 64 (leNat (s.m.bytesAt { f with pa := f.pa + off } n))
      let ends (i : Instr) : Prop := ∃ s', exec i s = .next s' ∧ (∀ y ∈ s'.m.writes, y.id ≠ w.id) ∧ s'.wgs = s.wgs ∧
        stores s' { f with pa := f.pa + off } n (some (v old))
      ((w.msa = false ∨ f.hst = true) → w.state.canArrive = true → s.mayGo w = true → s.gate (w.need .rmw true) = .go f →
        s.settled (if f.hst then (w.need .rmw true).die else w.home) w.ctx w.ia f = true → ends (.atomicExecute w.id)) ∧
      (w.state = .forwarded → s.xlate w.home w.ctx w.ia = .ok f → s.dramBusy f = false → ends (.msuExecute w.id))))

/-- R150: a waita that its home serves, on a word nobody holds, gives status 0 where the condition holds, 1 where it does not and the timeout
is 0, 2 where the table is full, and else registers an entry and blocks; one whose entry a halt evicted gives status 3 when it
runs again; the entry's timeout gives status 1 and sends the thread on.

R151, R152: awinit clears count and flags and sets the target; awadd adds and may complete generations; awwait goes
on where the generation has moved or the error flag is set, and blocks elsewhere. awinit and awadd let every thread of the
workgroup go on whose awwait ends by the words before or after them, and change no other thread. -/
def Obligations.WaitResults : Prop :=
  ((∀ (e : Env) (h : Hdr) (cmp : WCmp) (ty : STy) (sc : Scope) (d : Nat) (a : Reg) (b : Src) (c : Reg) (r : Range),
      let i : Instr := .waita h cmp ty sc d a b c
      e.runs i → e.plain (e.pair a) 4 .rmw r → e.t.waitaEvicted = true → ∃ s, e.retires i s ∧ e.s.sameBytes s ∧ e.got s (.v d) 3) ∧
    (∀ (e : Env) (h : Hdr) (cmp : WCmp) (ty : STy) (sc : Scope) (d : Nat) (a : Reg) (b : Src) (c : Reg) (r : Range) (f : Xl),
      let i : Instr := .waita h cmp ty sc d a b c
      let ia := r.ia (e.pair a)
      let rd : Need := { ctx := e.g.ctx, master := e.g.ctx, ia := ia, home := r.home ia, die := dieOf e.g.core, atHome := true
                         acc := .read, n := 4, who := some e.who, place := e.place? ia (r.home ia), keeps := true }
      e.runs i → e.plain (e.pair a) 4 .rmw r → e.t.waitaEvicted = false → e.s.y.allowed e.g.ctx ia 4 true true = true →
      e.s.m.rmwBefore e.who e.s.nextId e.g.ctx (secOf ia) = false → e.s.m.readBefore e.who e.s.nextId e.g.ctx (secOf ia) = false →
      e.s.m.writeBefore e.who e.s.nextId e.g.ctx (secOf ia) false = false → e.s.gate rd = .go f → e.s.leaseOf? e.who e.g.ctx (lineOf ia) = none →
      e.s.m.poisonedAt f = false → f.pa % 32 = ia % 32 →
      let word : Word := BitVec.ofNat 32 (leNat (e.s.m.bytesAt f 4))
      let x := word &&& (e.pair c >>> 32).setWidth 32
      let y := (e.pair c).setWidth 32 &&& (e.pair c >>> 32).setWidth 32
      let ok : Prop := match cmp, ty with
        | .eq, _ => x = y
        | .ne, _ => x ≠ y
        | .lt, .i32 => x.toInt < y.toInt
        | .lt, .n32 => x.toNat < y.toNat
        | .ge, .i32 => y.toInt ≤ x.toInt
        | .ge, .n32 => y.toNat ≤ x.toNat
      let t := (e.at_ i).src b
      (ok → ∃ s, e.retires i s ∧ e.got s (.v d) 0) ∧
      (¬ok → t = 0 → ∃ s, e.retires i s ∧ e.got s (.v d) 1) ∧
      (¬ok → t ≠ 0 → 256 ≤ e.s.waitCount (r.home ia) ia → ∃ s, e.retires i s ∧ e.got s (.v d) 2) ∧
      (¬ok → t ≠ 0 → e.s.waitCount (r.home ia) ia < 256 → ∃ s q, e.blocks i s (.waita q.id) ∧ s.m.waits = e.s.m.waits ++ [q] ∧
        q.ia = ia ∧ q.timeout = t.toNat ∧ q.since = e.s.now ∧ q.d = d ∧ q.key = f.key)) ∧
    (∀ (s : State) (q : WaitEnt) (g : Workgroup) (t : Thread), s.m.waits.find? (·.id == q.id) = some q →
      s.wg? q.who.core q.who.slot = some g → g.uid = q.who.uid → g.thread? q.who.tid = some t → t.run = .blocked (.waita q.id) →
      q.timeout ≠ 0xFFFFFFFF → q.since + q.timeout ≤ s.now → ∃ s' t', exec (.waitaTimeout q.id) s = .next s' ∧ s.sameBytes s' ∧
        (∀ y ∈ s'.m.waits, y.id ≠ q.id) ∧ s'.thread? q.who.core q.who.slot q.who.tid = some t' ∧ t'.run = .runnable ∧ t'.pc = t.pc + 8 ∧
        s.gave s' q.who q.d 1)) ∧
  (∀ (e : Env) (h : Hdr) (d : Option Nat) (a b : Src),
    let word (g : Workgroup) (o : Nat) : Word := BitVec.ofNat 32 (leNat (slice g.tile o 4))
    let ends (g : Workgroup) (o : Nat) (gen : Word) : Prop := word g (o + 8) ≠ gen ∨ (word g (o + 12)).getLsbD 1 = true
    let others (g : Workgroup) (off : Nat) : Prop := (∀ k, k < off ∨ off + 16 ≤ k → g.tile.getD k 0 = e.g.tile.getD k 0) ∧
      ∀ tid t, tid ≠ e.t.tid → e.g.thread? tid = some t → ∃ t', g.thread? tid = some t' ∧
        (∀ o gen n, t.run = .blocked (.awwait o gen n) → t.resident = true → e.ctx.runs = true → (ends e.g o gen ∨ ends g o gen) →
          t'.run = .runnable ∧ t'.pc = t.pc + 8 ∧ (¬ends e.g o gen → ∀ k, n = some k → k < t.v.length → t'.v.getD k {} = .arrived (word g (o + 8)) false)) ∧
        (¬(∃ o gen n, t.run = .blocked (.awwait o gen n) ∧ t.resident = true ∧ e.ctx.runs = true ∧ (ends e.g o gen ∨ ends g o gen)) → t' = t)
    (∀ i ∈ [Instr.awinit h a b, Instr.awadd h d a b, Instr.awwait h d a b], e.runs i → let x := (e.at_ i).src a
      (e.g.tile.length ≤ x.toNat → e.traps i 4 0 (x.setWidth 64) e.t.pc) ∧
      (x.toNat < e.g.tile.length → x.toNat % 16 ≠ 0 → e.traps i 3 0 (x.setWidth 64) e.t.pc)) ∧
    (e.runs (.awinit h a b) → let off := ((e.at_ (.awinit h a b)).src a).toNat
      off + 16 ≤ e.g.tile.length → off % 16 = 0 → ∃ s g, e.retires (.awinit h a b) s ∧ e.s.sameBytes s ∧ e.wg s = some g ∧
        word g off = (e.at_ (.awinit h a b)).src b ∧ word g (off + 4) = 0 ∧ word g (off + 8) = word e.g (off + 8) ∧ word g (off + 12) = 0 ∧
        others g off) ∧
    (e.runs (.awadd h d a b) → let off := ((e.at_ (.awadd h d a b)).src a).toNat
      off + 16 ≤ e.g.tile.length → off % 16 = 0 → ∃ s g, e.retires (.awadd h d a b) s ∧ e.s.sameBytes s ∧ e.wg s = some g ∧
        let sum := (word e.g (off + 4)).toNat + ((e.at_ (.awadd h d a b)).src b).toNat
        let past := 0xFFFFFFFF < sum
        let cnt := min sum 0xFFFFFFFF
        let target := (word e.g off).toNat
        word g off = word e.g off ∧ word g (off + 4) = BitVec.ofNat 32 (if target = 0 then cnt else cnt % target) ∧
        word g (off + 8) = word e.g (off + 8) + BitVec.ofNat 32 (if target = 0 then 0 else cnt / target) ∧
        word g (off + 12) = (if past then word e.g (off + 12) ||| 1 else word e.g (off + 12)) ∧ others g off ∧
        ∀ n, d = some n → e.got s (.v n) (word g (off + 12))) ∧
    (e.runs (.awwait h d a b) → let off := ((e.at_ (.awwait h d a b)).src a).toNat
      off < e.g.tile.length → off % 16 = 0 → let gen := (e.at_ (.awwait h d a b)).src b
      (word e.g (off + 8) ≠ gen ∨ (word e.g (off + 12)).getLsbD 1 = true → ∃ s, e.retires (.awwait h d a b) s ∧ e.s.sameBytes s ∧
        ∀ n, d = some n → e.got s (.v n) (word e.g (off + 8))) ∧
      (word e.g (off + 8) = gen → (word e.g (off + 12)).getLsbD 1 = false → e.blocks (.awwait h d a b) e.s (.awwait off gen d))))

/-- R153, R154, R156: lease answers 2 for a fifth or out-of-order line and else sends its request, with the granted time
cut to the class limit; lchk returns what is left of a held lease, else 0; lrel moves a held line to Draining, and
answers 1 where the thread holds none; it waits at issue for the thread's own accesses to the line, which is the model's reading
(log 47).

R155: the steps of a lease on a line of the lessee's own die. A request that nothing holds back takes an entry, or is
answered 1 where the table is full and 3 where the line lies in host memory; a line with a poisoned sector gives the poison-use trap; a grant
gives status 0 and holds the line for the granted time; the expiry makes it drain; the end of draining frees the entry and answers lrel, 4 where
the line was poisoned. -/
def Obligations.LeaseResults : Prop :=
  (∀ (e : Env) (h : Hdr) (d : Nat) (a : Reg) (b : Src) (r : Range),
    e.plain (e.pair a) 1 .rmw r →
    let line := lineOf (r.ia (e.pair a))
    let mine := e.s.m.leases.filter fun l => l.who.same e.who && (l.state == .held || l.state == .waiting || l.state == .sent)
    (e.runs (.lease h d a b) →
      ((4 ≤ mine.length ∨ ∃ l ∈ mine, line ≤ l.line) → ∃ s, e.retires (.lease h d a b) s ∧ e.s.sameBytes s ∧ e.got s (.v d) 2) ∧
      (mine.length < 4 → (∀ l ∈ mine, l.line < line) → ∃ s l, e.retires (.lease h d a b) s ∧ e.s.sameBytes s ∧
        s.m.leases = e.s.m.leases ++ [l] ∧ l.who = e.who ∧ l.line = line ∧ l.state = .sent ∧ l.d = d ∧ e.awaiting s l.id d 1 ∧
        l.g = max 256 (min (min ((e.at_ (.lease h d a b)).src b).toNat 4096) (if e.g.cls = 0 then 1024 else if e.g.cls = 1 then 2048 else 4096)))) ∧
    (e.runs (.lchk h d a) →
      (e.s.leaseOf? e.who e.g.ctx line = none → ∃ s, e.retires (.lchk h d a) s ∧ e.s.sameBytes s ∧ e.got s (.v d) 0) ∧
      ∀ l, e.s.leaseOf? e.who e.g.ctx line = some l → ∃ s, e.retires (.lchk h d a) s ∧ e.s.sameBytes s ∧
        e.got s (.v d) (BitVec.ofNat 32 (l.expiry - e.s.now))) ∧
    (e.runs (.lrel h d a) →
      (e.s.leaseOf? e.who e.g.ctx line = none → ∃ s, e.retires (.lrel h d a) s ∧ e.s.sameBytes s ∧ e.got s (.v d) 1) ∧
      ∀ l, e.s.leaseOf? e.who e.g.ctx line = some l →
        (∀ q ∈ e.s.m.atoms, q.ctx = e.g.ctx → lineOf q.ia = line → ∀ k ∈ q.lanes, k.who.same e.who = false) →
        (∀ w ∈ e.s.m.writes, w.ctx = e.g.ctx → lineOf w.ia = line → w.of e.who = true → w.state = .leased l.id ∧ w.ord ≠ 0) →
        ∃ s, e.retires (.lrel h d a) s ∧ e.s.sameBytes s ∧ e.awaiting s l.id d 1 ∧
          ∀ x, x ∈ s.m.leases ↔ ∃ y ∈ e.s.m.leases, x = if y.id = l.id then { y with state := .draining, lrel := some d } else y)) ∧
  (∀ (s : State) (l : LeaseEnt) (f : Xl) (g : Workgroup) (t : Thread),
    s.m.leases.find? (·.id == l.id) = some l → s.xlate l.home l.ctx l.line = .ok f → s.y.selfTests = [] →
    s.wg? l.who.core l.who.slot = some g → g.uid = l.who.uid → g.thread? l.who.tid = some t → t.run = .runnable → dieOf l.who.core = l.home →
    (l.state = .sent → l.retry = 0 → (s.ctx l.ctx).runs = true → (s.y.dies.getD l.home {}).st = .running → (s.y.dies.getD l.home {}).lost = false →
      s.y.allowed l.ctx l.line 128 true true = true → f.hst = true → ∃ s', exec (.leaseRequestArrive l.id) s = .next s' ∧ s.sameBytes s' ∧
        s.gave s' l.who l.d 3 ∧ ∀ y ∈ s'.m.leases, y.id ≠ l.id) ∧
    (l.state = .sent → l.retry = 0 → (s.ctx l.ctx).runs = true → (s.y.dies.getD l.home {}).st = .running → (s.y.dies.getD l.home {}).lost = false →
      s.y.allowed l.ctx l.line 128 true true = true → f.hst = false → s.leaseBehind l = false → s.leasedAt? l.need.die l.ctx l.line = none → s.first l.need = true →
      (s.leaseTable l.need.die l.line < 64 → ∃ s' l', exec (.leaseRequestArrive l.id) s = .next s' ∧ s.sameBytes s' ∧
        s'.m.leases.find? (·.id == l.id) = some l' ∧ l' = { l with state := .waiting, queued := none, page := false }) ∧
      (64 ≤ s.leaseTable l.need.die l.line → ∃ s', exec (.leaseRequestArrive l.id) s = .next s' ∧ s.sameBytes s' ∧
        s.gave s' l.who l.d 1 ∧ ∀ y ∈ s'.m.leases, y.id ≠ l.id)) ∧
    (l.state = .waiting → s.dirOk l.need = true → s.lineDram l.home l.id l.ctx l.line f = false → s.m.quietLine l.ctx l.line = true → s.tenLine l.home l.home l.ctx l.line = true →
      (∀ k < 4, s.forwardedOn l.ctx (l.line + 32 * k) = false) → (∀ k < 4, s.m.poisonedAt { f with pa := f.pa + 32 * k } = false) →
      ∃ s', exec (.leaseGrant l.id) s = .next s' ∧ s.sameBytes s' ∧ s.gave s' l.who l.d 0 ∧
        s'.m.leases.find? (·.id == l.id) = some { l with state := .held, expiry := s.now + l.g }) ∧
    (l.state = .waiting → s.dirOk l.need = true → s.lineDram l.home l.id l.ctx l.line f = false → s.m.quietLine l.ctx l.line = true →
      s.tenLine l.home l.home l.ctx l.line = true → (∀ k < 4, s.forwardedOn l.ctx (l.line + 32 * k) = false) →
      (∃ k < 4, s.m.poisonedAt { f with pa := f.pa + 32 * k } = true) → ∃ s' t', exec (.leaseGrant l.id) s = .next s' ∧
        s'.thread? l.who.core l.who.slot l.who.tid = some t' ∧ t'.run = .trapPending ∧ t'.tcause = 5 ∧ ∀ y ∈ s'.m.leases, y.id ≠ l.id) ∧
    (l.state = .held → l.expiry ≤ s.now → ∃ s', exec (.leaseExpiry l.id) s = .next s' ∧ s.sameBytes s' ∧ s'.wgs = s.wgs ∧
      s'.m.leases.find? (·.id == l.id) = some { l with state := .draining }) ∧
    (l.state = .draining → (∀ w ∈ s.m.writes, w.state ≠ .leased l.id) → ∃ s', exec (.leaseDrainComplete l.id) s = .next s' ∧
      s.sameBytes s' ∧ (∀ y ∈ s'.m.leases, y.id ≠ l.id) ∧ ∀ d, l.lrel = some d → s.gave s' l.who d (if l.poisoned then 4 else 0)))

/-! Dies and the host (R172, R282-R293). -/

/-- R282, R285: the answers of the home directory to a read and to a write request of another die. A line with no copy goes to E for a
reader and to M for a writer (marked L for a lease); a reader of a shared line becomes a sharer; a reader of a line
that another die owns has the owner probed; a writer has every other copy invalidated. A request that meets a transition
or a leased line takes a place in the slice's queue, or is turned away where the queue is full, for at least 64 slice cycles; that
they are 43 core cycles is the model's conversion (log 75), and who keeps a place its choice (log 70). Stated where the
requesting die's slice has room and no memory controller holds the line. No byte changes.

R284, R285: what copies and their acknowledgements do. The owner's write-back ends M and O, with keep M goes to E and O to S with the owner
as sharer, a clean eviction ends E; a die is told once, acknowledges an invalidation only when its tenures have ended and nothing is
pending, and the last acknowledgement ends the transition: a probed M goes to O, a probed E to S, an invalidated line to
the writer in M. No byte changes. -/
def Obligations.DirectoryResults : Prop :=
  (∀ (s : State) (ctx line die home : Nat), s.homeMay ctx line home = true →
    s.snoop? ctx line = none → s.m.dirq = [] → s.leasedAt? home ctx line = none → s.placesOn home ctx line = [] →
    s.dirSeat ctx line die = some s → (∀ x, s.xlate home ctx line = .ok x → s.lineDram home 0 ctx line x = false) →
    let queued (i : Instr) (ex : Bool) : Prop := ∃ s' q, exec i s = .next s' ∧ s.sameBytes s' ∧ s'.wgs = s.wgs ∧
      s'.m.dir = s.m.dir ∧ s'.m.dirq = [q] ∧ q.ctx = ctx ∧ q.line = line ∧ q.die = die ∧ q.ex = ex ∧
      if s.queueLen home line < 64 then q.place = some s.nextId else q.place = none ∧ s.now + 43 ≤ q.retry
    let ent (s' : State) (e : DirEnt) : Prop := s.sameBytes s' ∧ s'.wgs = s.wgs ∧ s'.dir? ctx line = some e
    let room : Prop := (s.m.dir.filter (DirEnt.sameSet home line)).length < s.y.ways
    let fresh (e : DirEnt) : Prop := e.ctx = ctx ∧ e.line = line ∧ e.home = home ∧ e.own = die ∧ e.sh = [] ∧ e.hb = false ∧ e.trans = none
    (s.wantsRead ctx line die = some home →
      (s.dir? ctx line = none → s.m.quietLine ctx line = true → room →
        ∃ s' e, exec (.dirRds ctx line die) s = .next s' ∧ ent s' e ∧ fresh e ∧ e.st = .e ∧ e.l = false) ∧
      ∀ e, s.dir? ctx line = some e → e.trans = none → e.l = false →
        (e.st = .s → ∃ s' e', exec (.dirRds ctx line die) s = .next s' ∧ ent s' e' ∧ e'.st = .s ∧ die ∈ e'.sh ∧
          (∀ k ∈ e.sh, k ∈ e'.sh) ∧ ∀ k ∈ e'.sh, k = die ∨ k ∈ e.sh) ∧
        (e.st = .i → s.m.quietLine ctx line = true → ∃ s' e', exec (.dirRds ctx line die) s = .next s' ∧ ent s' e' ∧ e'.st = .e ∧
          e'.own = die ∧ e'.hb = e.hb) ∧
        ((e.st = .e ∨ e.st = .m ∨ e.st = .o) → e.holds die = false → ∃ s', exec (.dirRds ctx line die) s = .next s' ∧
          ent s' { e with trans := some { kind := .rds die, tell := [e.own], told := [], acks := [], host := false } })) ∧
    (s.wantsRead ctx line die = some home → ∀ e, s.dir? ctx line = some e → e.trans ≠ none ∨ e.l = true →
      queued (.dirRds ctx line die) false) ∧
    (∀ l, s.wantsWrite ctx line die = some (home, l) → ∀ e, s.dir? ctx line = some e → e.trans = none → e.l = true →
      queued (.dirRdx ctx line die) true) ∧
    (∀ l, s.wantsWrite ctx line die = some (home, l) →
      (s.dir? ctx line = none → s.m.quietLine ctx line = true → s.tenLine home home ctx line = true → room →
        ∃ s' e, exec (.dirRdx ctx line die) s = .next s' ∧ ent s' e ∧ fresh e ∧ e.st = .m ∧ e.l = l) ∧
      ∀ e, s.dir? ctx line = some e → e.trans = none → e.l = false → e.copies.filter (· != die) ≠ [] →
        ∃ s', exec (.dirRdx ctx line die) s = .next s' ∧ ent s'
          { e with trans := some { kind := .rdx die l, tell := e.copies.filter (· != die), told := [], acks := [], host := false } })) ∧
  (∀ (s : State) (ctx line die : Nat) (e : DirEnt), s.dir? ctx line = some e →
    let ent (i : Instr) (e' : DirEnt) : Prop := ∃ s', exec i s = .next s' ∧ s.sameBytes s' ∧ s'.wgs = s.wgs ∧ s'.dir? ctx line = some e'
    let gone (i : Instr) : Prop := ∃ s', exec i s = .next s' ∧ s.sameBytes s' ∧ s'.wgs = s.wgs ∧ s'.dir? ctx line = none
    (s.mayEvict e = true → e.hb = false →
      (e.st = .m → gone (.dirWriteback ctx line)) ∧ (e.st = .e → gone (.dirCleanEviction ctx line)) ∧
      (e.st = .o → e.sh ≠ [] → ent (.dirWriteback ctx line) { e with st := .s })) ∧
    (e.trans = none → e.l = false → s.m.quietLine ctx line = true →
      (e.st = .m → ent (.dirWritebackKeep ctx line) { e with st := .e }) ∧
      (e.st = .o → ∃ e', ent (.dirWritebackKeep ctx line) e' ∧ e'.st = .s ∧ e.own ∈ e'.sh)) ∧
    ∀ t, e.trans = some t →
      (die ∈ t.tell → ent (.visitorProbe ctx line die)
        { e with trans := some { t with tell := t.tell.filter (· != die), told := t.told ++ [die] } }) ∧
      (die ∈ t.told → s.m.quietLine ctx line = true → (t.kind.invalidates = true → s.tenLine e.home die ctx line = true) →
        ent (.visitorAck ctx line die) { e with trans := some { t with told := t.told.filter (· != die), acks := t.acks ++ [die] } }) ∧
      (die ∈ t.told → t.kind.invalidates = true → s.tenLine e.home die ctx line = false → exec (.visitorAck ctx line die) s = .next s) ∧
      (t.tell = [] → t.told = [] → t.acks = [die] →
        (∀ d, t.kind = .rds d → e.st = .m → ∃ e', ent (.dirAckReceive ctx line die) e' ∧ e'.st = .o ∧ e'.own = e.own ∧ e'.sh = [d] ∧ e'.trans = none) ∧
        (∀ d, t.kind = .rds d → e.st = .e → ∃ e', ent (.dirAckReceive ctx line die) e' ∧ e'.st = .s ∧ d ∈ e'.sh ∧ e.own ∈ e'.sh ∧ e'.trans = none) ∧
        (∀ d l, t.kind = .rdx d l → s.tenLine e.home e.home ctx line = true → s.m.quietLine ctx line = true →
          ∃ e', ent (.dirAckReceive ctx line die) e' ∧ e'.st = .m ∧ e'.own = d ∧ e'.sh = [] ∧ e'.l = l ∧ e'.trans = none) ∧
        (t.kind = .homeWrite → e.hb = false → s.tenLine e.home e.home ctx line = true → gone (.dirAckReceive ctx line die))))

/-- R172, R290-R292, R302: the host's accesses to device memory and its snoops. A read answers the completed bytes; a write changes its bytes and
no other; an answered BISnpInv frees the filter's entry and HB, an answered BISnpData leaves the line shared; a snoop
that invalidates takes a host line from a die once its tenures have ended; held snoops end in poisoned host lines after
50 us, and each later one at once. That the host names a context and an IA, and that its write takes effect at one instant, is
the model's reading (log 35), and that an answer is kept in reply its choice (log 21). Stated where no thread waits on an
address. -/
def Obligations.HostAccesses : Prop := ∀ (s : State), s.m.canon → s.m.waits = [] →
  (∀ ctx ia x, let a := ia / 64 * 64
    (s.unitGate (hostNeed ((s.ctx ctx).homeOf a) ctx a 64 false)).1 = .go x → exec (.hostMemRead ctx ia 0) s = .next { s with y := { s.y with
      reply := some (.bytes (s.m.bytesAt x 64) (s.m.poisonedAt x || s.m.poisonedAt { x with pa := x.pa + 32 })) } }) ∧
  (∀ ctx ia (data : List Byte) x, data ≠ [] → data.length ≤ 64 - ia % 64 → let home := (s.ctx ctx).homeOf ia
    let q := s.freeSnoop ctx (lineOf ia)
    (q.unitGate (hostNeed home ctx ia data.length true)).1 = .go x → x.hst = false → x.pa % 32 = ia % 32 →
    q.settledAll home ctx ia (ia % 32 + data.length) = true → ∃ s', exec (.hostMemWrite ctx ia data) s = .next s' ∧ s'.wgs = s.wgs ∧
      s'.m.host = s.m.host ∧ s'.m.poison = s.m.poison ∧
      ∀ a, cellGet a s'.m.cells = if x.pa ≤ a ∧ a < x.pa + data.length then data.getD (a - x.pa) 0 else cellGet a s.m.cells) ∧
  (∀ ctx line h, s.snoop? ctx line = some h →
    (h.asked = 2 → (∀ e, s.dir? ctx line = some e → e.trans = none) → ∃ s', exec (.bisnpResponse ctx line []) s = .next s' ∧ s.sameBytes s' ∧
      s'.snoop? ctx line = none ∧ ∀ e, s'.dir? ctx line = some e → e.hb = false) ∧
    (h.asked = 1 → ∃ s', exec (.bisnpResponse ctx line []) s = .next s' ∧ s.sameBytes s' ∧
      s'.snoop? ctx line = some { h with owned := false, asked := 0 })) ∧
  (∀ line die, (s.y.dies.getD die {}).st = .running → let pa := line / 128 * 128
    (∀ k < 4, s.m.tenEnd die (({ pa := pa + 32 * k, hst := true } : Xl).key) ≤ s.now) →
    ∃ s', exec (.hostSnoop line true) s = .next s' ∧ (∀ l ∈ s'.m.hostLines, ¬(l.die = die ∧ l.pa = pa)) ∧
      ((∀ l ∈ s.m.hostLines, l.pa = pa → (s.y.dies.getD l.die {}).st = .running) → s.sameBytes s')) ∧
  (∀ line inv, let pa := line / 128 * 128
    ∀ l ∈ s.m.hostLines, l.pa = pa → (s.y.dies.getD l.die {}).st ≠ .running → (s.y.dies.getD l.die {}).late = true →
      ∃ s', exec (.hostSnoop line inv) s = .next s' ∧ (∀ k < 4, s'.m.poisonedAt ⟨pa + 32 * k, true⟩ = true) ∧
        ∀ y ∈ s'.m.hostLines, ¬(y.die = l.die ∧ y.pa = pa)) ∧
  ∀ die l, (s.y.dies.getD die {}).st ≠ .running → l ∈ s.m.hostLines → l.die = die →
    (∃ c b, l.snoop = some (c, b) ∧ c + 55000 ≤ s.now) → ∃ s', exec (.hostSnoopTimeout die) s = .next s' ∧
      s'.m.cells = s.m.cells ∧ s'.m.host = s.m.host ∧ (∀ k < 4, s'.m.poisonedAt ⟨l.pa + 32 * k, true⟩ = true) ∧
      ∀ y, y ∈ s'.m.hostLines ↔ y ∈ s.m.hostLines ∧ ¬(y.die = die ∧ y.snoop.isSome = true)

/-! System instructions (R264-R272, R280, R281). -/

/-- R264, R268: srd gives the register, in one register or a pair by its width, to a thread that may read it; any other
access is an illegal-instruction trap. sys.faultack reads 0.

R272, R281: perf reads a counter of its core and context and, with .clr, zeroes it; time reads the PTP time; waitt
blocks until a time that has not come; cntr reads a word of a counter, 0 where there is none. -/
def Obligations.SystemRegisterReads : Prop :=
  (∀ (e : Env) (h : Hdr) (num : SysReg) (ot : Bool) (d : Reg) (a : Src),
    let i : Instr := .srd h num ot d a
    let k := if ot then ((e.at_ i).src a).toNat else e.g.ctx
    let open_ : Bool := num == .fpflags || num == .ctl || num == .cancel
    e.runs i →
    ((ot = true ∧ 64 ≤ k) ∨ (e.ctx.sup = false ∧ (open_ = false ∨ k ≠ e.g.ctx)) → e.traps i 1 0 0 e.t.pc) ∧
    ((ot = true → k < 64) → (e.ctx.sup = true ∨ (open_ = true ∧ k = e.g.ctx)) → ∃ s, e.retires i s ∧ e.s.sameBytes s ∧
      let c := e.s.ctx k
      let v : DWord := match num with
        | .fpflags => e.t.flags.setWidth 64
        | .ctl => c.ctl.setWidth 64
        | .cancel => e.g.cancel.setWidth 64
        | .ptroot => c.ptroot
        | .vwbase => c.vwbase
        | .slotbase => c.slotbase
        | .stoparea => c.stoparea
        | .ctximg => c.ctximg
        | .ctxlen => c.ctxlen
        | .state => (match c.state with
          | .free => 0
          | .running => 1
          | .halting => 2
          | .halted => 3
          | .preempting => 4
          | .out => 5)
        | .evq => e.s.y.evq
        | .evhead => e.s.y.evhead.setWidth 64
        | .evtail => e.s.y.evtail.setWidth 64
        | .evlost => e.s.y.evlost.setWidth 64
        | .faultack => 0
        | .sfways => e.s.y.sfways.setWidth 64
        | .frzctl => e.s.y.frzctl.setWidth 64
        | .xlinv => e.s.y.xlinv
      ∀ j < (if num.wide then 2 else 1), e.got s ((d.regs (if num.wide then 2 else 1)).getD j d) (BitVec.ofNat 32 (v.toNat / 2 ^ (32 * j))))) ∧
  (∀ (e : Env) (h : Hdr) (d : Reg) (a : Src),
    let pair (i : Instr) (s : State) (x : Nat) : Prop := e.retires i s ∧ e.s.sameBytes s ∧ ∀ j < 2, e.got s ((d.regs 2).getD j d) (BitVec.ofNat 32 (x / 2 ^ (32 * j)))
    (∀ clr, e.runs (.perf h clr d a) → let k := ((e.at_ (.perf h clr d a)).src a).toNat % 8
      let mine (p : Perf) : Bool := p.core == e.g.core && p.ctx == e.g.ctx
      ∃ s, pair (.perf h clr d a) s (match e.s.perf.find? mine with
          | some p => (p.n.getD k 0).toNat
          | none => 0) ∧
        (clr = false → s.perf = e.s.perf) ∧ (clr = true → ∀ p, s.perf.find? mine = some p → p.n.getD k 0 = 0)) ∧
    (∀ n, e.runs (.time h n) → ∃ s, e.retires (.time h n) s ∧ e.s.sameBytes s ∧
      e.got s (.v n) (BitVec.ofNat 32 e.s.ptpNs) ∧ e.got s (.v (n + 1)) (BitVec.ofNat 32 (e.s.ptpNs / 2 ^ 32)) ∧
      e.got s (.v (n + 2)) (BitVec.ofNat 32 (e.s.ptp % 2 ^ 16 * 2 ^ 16)) ∧ e.got s (.v (n + 3)) 0) ∧
    (∀ r, e.runs (.waitt h r) → ((e.pair r).toNat ≤ e.s.ptpNs → e.retires (.waitt h r) e.s) ∧
      (e.s.ptpNs < (e.pair r).toNat → e.blocks (.waitt h r) e.s (.waitt (e.pair r).toNat))) ∧
    (∀ free lvl word, e.runs (.cntr h free word lvl d a) → let id := ((e.at_ (.cntr h free word lvl d a)).src a).toNat
      (∀ k, e.ctx.counter? lvl.code id = some k → ∃ s, pair (.cntr h free word lvl d a) s (match word with
          | .done => k.done
          | .total => k.total
          | .flags => (if e.s.isDone e.g.ctx k then 1 else 0) + if k.cancelled then 2 else 0)) ∧
      (e.ctx.counter? lvl.code id = none → (lvl ≠ .launch ∨ id = 0 ∨ e.ctx.nextLid ≤ id) → ∃ s, pair (.cntr h free word lvl d a) s 0)))

/-- R264, R265, R266, R268, R273: what swr leaves in each register. sys.ctl takes chk and CLSMAX and keeps SUP; reserved bits are ignored;
the levels of sys.frzctl are clamped; a write clears sys.evlost; registers without W trap.

R105, R150, R269: rgset of a supervisor writes a range register from eight registers and ends every waita of the context
with status 3, so that its thread goes on; the number of a range register above 15 traps, and so does an unprivileged thread.
That sys.ptroot, sys.ctxlen and sys.evtail hold what is written whole is the model's reading (log 40). -/
def Obligations.SystemRegisterWrites : Prop :=
  (∀ (e : Env) (h : Hdr) (num : SysReg) (ot : Bool) (a b : Src), e.s.m.missing = [] →
    let i : Instr := .swr h num ot a b
    let k := if ot then ((e.at_ i).src a).toNat else e.g.ctx
    let x : DWord := if num.wide then (e.at_ i).src64 b else ((e.at_ i).src b).setWidth 64
    e.runs i → (ot = true → k < 64) → k < e.s.ctxs.length →
    ((num = .cancel ∨ num = .state ∨ num = .evhead) → e.traps i 1 0 0 e.t.pc) ∧
    (e.ctx.sup = false → (num ≠ .fpflags ∨ k ≠ e.g.ctx) → e.traps i 1 0 0 e.t.pc) ∧
    (num = .fpflags → k = e.g.ctx → ∃ s t, e.retires i s ∧ e.thr s = some t ∧ t.flags = x.setWidth 5) ∧
    (e.ctx.sup = true → ∃ s, (num ∈ [.ctl, .ptroot, .vwbase, .slotbase, .stoparea, .ctximg, .ctxlen, .evq, .evtail, .evlost, .sfways, .frzctl, .xlinv, .faultack] →
        e.retires i s) ∧ e.s.sameBytes s ∧ s.wgs = e.s.wgs ∧
      let c := e.s.ctx k
      let y := e.s.y
      match num with
      | .ctl => s = e.s.setCtx k { c with ctl := (x.setWidth 32 &&& 0xC1) ||| (c.ctl &&& 2) }
      | .ptroot => s = e.s.setCtx k { c with ptroot := x }
      | .vwbase => s = e.s.setCtx k { c with vwbase := x &&& 0x800FFF0000000000 }
      | .slotbase => s = e.s.setCtx k { c with slotbase := x &&& 0x000FFFFFFFFC0000 }
      | .stoparea => s = e.s.setCtx k { c with stoparea := x &&& 0x000FFFFFFFF80001 }
      | .ctximg => s = e.s.setCtx k { c with ctximg := x &&& 0x000FFFFFFFE00000 }
      | .ctxlen => s = e.s.setCtx k { c with ctxlen := x }
      | .evq => s = { e.s with y := { y with evq := x &&& 0x000FFFFFFFFF8001 } }
      | .evtail => s = { e.s with y := { y with evtail := x.setWidth 32 } }
      | .evlost => s = { e.s with y := { y with evlost := 0 } }
      | .sfways => s = { e.s with y := { y with sfways := x.setWidth 32 &&& 15 } }
      | .frzctl => s = { e.s with y := { y with frzctl := BitVec.ofNat 32 (max 85 (min 115 (x.toNat % 256)) + 256 * max 1 (min 40 (x.toNat / 256 % 256))) } }
      | .xlinv => if y.xlinv.getLsbD 63 then s = e.s else s = { e.s with y := { y with xlinv := x ||| 0x8000000000000000 } }
      | .faultack => s = e.s
      | _ => True)) ∧
  (∀ (e : Env) (h : Hdr) (a b : Src) (c : Nat),
    let i : Instr := .rgset h a b c
    let k := ((e.at_ i).src a).toNat
    let n := ((e.at_ i).src b).toNat
    e.runs i →
    ((e.ctx.sup = false ∨ 64 ≤ k ∨ 16 ≤ n) → e.traps i 1 0 0 e.t.pc) ∧
    (e.ctx.sup = true → k < 64 → n < 16 → k < e.s.ctxs.length → ∃ s x, e.retires i s ∧ e.s.sameBytes s ∧ s.ctx k = { e.s.ctx k with rg := (e.s.ctx k).rg.set n x } ∧
      (∀ j < 8, x.extractLsb' (32 * j) 32 = (e.reg (.v (c + j))).1) ∧ (∀ q, q ∈ s.m.waits ↔ q ∈ e.s.m.waits ∧ ∀ p ∈ e.s.m.waits, p.ctx = k → p.id ≠ q.id) ∧
      ∀ q ∈ e.s.m.waits, q.ctx = k → e.s.lives q.who = true → e.s.gave s q.who q.d 3 ∧
        ∀ t, e.s.thread? q.who.core q.who.slot q.who.tid = some t → t.run = .blocked (.waita q.id) →
          ∃ t', s.thread? q.who.core q.who.slot q.who.tid = some t' ∧ t'.run = .runnable ∧ t'.pc = t.pc + 8))

/-- R280: a soft cancel sets the level's bit of sys.cancel in every placed workgroup that the counter counts and marks the
counter; a hard cancel stops all their threads: none is offered to Collie again, and all have exited once the cycle ends. A
started launch loses its workgroups that are not placed, which count in DONE; a packet that has been taken and not started is
dropped, and its workgroups count in DONE and TOTAL. A counter that does not exist is left alone. No byte of memory changes but
where a hard cancel finds engine commands.

R281: launch sends the read of its packet once its release is complete, and waits at issue before; the read's return answers
with status 2 where the queue does not take it, 1 where the ring is full, and else writes the packet and advances the tail, with
status 0. -/
def Obligations.LaunchAndCancel : Prop :=
  (∀ (e : Env) (h : Hdr) (hard : Bool) (lvl : Level) (a : Src),
    let i : Instr := .cancel h hard lvl a
    let id := ((e.at_ i).src a).toNat
    let open_ : List Launch := e.s.y.launches.filter fun l => l.ctx == e.g.ctx && decide (l.nextFlat < l.total) &&
      ((0, l.lid) :: Packet.ids l.pkt).contains (lvl.code, id)
    let takes (q : Queue) (p : List Byte) : Prop := q.taken = some p ∧ Packet.ctx p = e.g.ctx ∧ (lvl.code, id) ∈ Packet.ids p
    e.runs i →
    (e.ctx.counter? lvl.code id = none → e.retires i e.s) ∧
    ∀ k, e.ctx.counter? lvl.code id = some k → e.g.ctx < e.s.ctxs.length →
      let now (s : State) : Option Counter := (s.ctx e.g.ctx).counter? lvl.code id
      (open_ = [] → (∀ q ∈ e.s.y.queues, ∀ p, ¬takes q p) → ∃ s, e.retires i s ∧ (hard = false ∨ e.s.e.cmds = [] → e.s.sameBytes s) ∧
        now s = some { k with cancelled := true } ∧
        ∀ core slot w, e.s.wg? core slot = some w → w.ctx = e.g.ctx → (lvl.code, id) ∈ w.keys → ∃ g, s.wg? core slot = some g ∧
          (hard = false → g = { w with cancel := w.cancel ||| BitVec.ofNat 32 (2 ^ lvl.code) }) ∧
          (hard = true → g.hard = true ∧ g.threads.length = w.threads.length)) ∧
      (∀ l, open_ = [l] → (∀ q ∈ e.s.y.queues, ∀ p, ¬takes q p) → k.total < 2 ^ 64 → ∃ s, e.retires i s ∧
        now s = some { k with cancelled := true, done := min (k.done + (l.total - l.nextFlat)) (2 ^ 64 - 1) } ∧
        ∀ x ∈ s.y.launches, x.ctx = l.ctx → x.lid = l.lid → x.nextFlat = x.total) ∧
      (∀ (n : Nat) (q : Queue) (p : List Byte), e.s.y.queues[n]? = some q → takes q p → (∀ (m : Nat) (y : Queue) (r : List Byte), e.s.y.queues[m]? = some y → takes y r → m = n) → open_ = [] →
        ∃ s, e.retires i s ∧ s.y.queues[n]? = some { q with taken := none } ∧
          now s = some { k with cancelled := true, done := min (k.done + Packet.total p) (2 ^ 64 - 1), total := min (k.total + Packet.total p) (2 ^ 64 - 1) })) ∧
  (∀ (s : State) (core slot d : Nat) (g : Workgroup), s.wg? core slot = some g → g.hard = true →
    (∀ t, (s.cand? g t).isNone = true) ∧
    (s.y.freeze = none → ∀ g', (s.tick d).wg? core slot = some g' → ∀ t ∈ g'.threads, t.run = .exited)) ∧
  ((∀ (e : Env) (h : Hdr) (d : Option Nat) (a : Reg) (b : Src), let i : Instr := .launch h d a b
      e.runs i → (e.s.anyOutstanding (e.releaseIds .dev) = true ∨ e.s.now < e.t.lastW → e.leaves i e.s (Thread.waitIssue e.s.now)) ∧
      (e.s.anyOutstanding (e.releaseIds .dev) = false → e.t.lastW ≤ e.s.now → ∀ r, e.plain (e.pair a) 128 .read r →
      (∀ k < 128, e.s.cacheTested e.g.core e.g.ctx (secOf (r.ia (e.pair a) + k)) = false) → ∃ s y, e.retires i s ∧ e.s.sameBytes s ∧ s.m.reads = e.s.m.reads ++ [y] ∧ y.kind = .launchPkt ((e.at_ i).src b).toNat d ∧
        y.bytes = (List.range 128).map (fun k => BSrc.mem (r.ia (e.pair a) + k)) ∧ ∀ n, d = some n → e.awaiting s y.id n 1)) ∧
    ∀ (s : State) (r : RReq) (n : Nat) (d : Nat) (x : Queue) (g : Workgroup), s.read? r.id = some r → r.kind = .launchPkt n (some d) → r.far = none →
      r.secs.all (·.got.isSome) = true → r.held = false → s.canFill r = true → s.launchBefore r = false → (∀ b ∈ r.bytes, (r.byteOf b).2 = false) →
      s.wg? r.who.core r.who.slot = some g → g.uid = r.who.uid → n < 64 → s.y.queues[n]? = some x →
      let ends (v : Word) (P : State → Prop) : Prop := ∃ s', exec (.loadDataReturn r.id) s = .next s' ∧ s.gave s' r.who d v ∧ P s'
      (x.live = false ∨ x.dev = false ∨ x.ctx ≠ r.ctx → ends 2 fun s' => s'.y = s.y ∧ s.sameBytes s') ∧
      (x.live = true → x.dev = true → x.ctx = r.ctx → 2 ^ x.size ≤ (x.tail - x.head).toNat → ends 1 fun s' => s'.y = s.y ∧ s.sameBytes s') ∧
      (x.live = true → x.dev = true → x.ctx = r.ctx → (x.tail - x.head).toNat < 2 ^ x.size → ∀ q,
        s.writeIa r.ctx (x.slot x.tail.toNat) (plainBytes (r.bytes.map fun b => (r.byteOf b).1)) = .ok q → q.wgs = s.wgs → q.y = s.y →
        ends 0 fun s' => q.sameBytes s' ∧ s'.y.queues = s.y.queues.set n { x with tail := x.tail + 1 }))

/-- R259, R270: ctxsw, halt, resume and stopr of a supervisor on another context. The status is 0 where the transition
starts, 1 in a state that does not accept it, and 2 for the issuing context; other threads and other context numbers
take the illegal-instruction trap.

R16, R87, R260, R261: a resume clears the trap record of every trap-pending thread, which goes on at its pc. A thread of a
context that resumes waits for its state line, which comes from its image where it was saved, without the record that the
resume has cleared, and with the Running cycles that a sleep has spent meanwhile taken off it; a poisoned line is an uncorrectable
state error. Register lines come back when a thread misses them.

ctxsw.out of a Halted context keeping its halt line and complete bit, ctxsw.drop giving the fresh context, and ctxsw.in of a
pending halt are the model's reading (log 38). -/
def Obligations.ContextOperations : Prop :=
  (∀ (e : Env) (h : Hdr) (d : Option Nat) (a : Src) (n code : Nat),
    let ops : List Instr := [.ctxswOut h d a, .ctxswIn h d a, .ctxswDrop h d a, .halt h code d a, .resume h d a]
    let tgt (i : Instr) : Nat := ((e.at_ i).src a).toNat
    let ans (i : Instr) (v : Word) (P : State → Prop) : Prop := ∃ s, e.retires i s ∧ (∀ m, d = some m → e.got s (.v m) v) ∧ P s
    (∀ i ∈ ops ++ [.stopr h n a], e.runs i → (e.ctx.sup = false ∨ 64 ≤ tgt i) → e.traps i 1 0 0 e.t.pc) ∧
    (∀ i ∈ ops, e.runs i → e.ctx.sup = true → tgt i = e.g.ctx → e.g.ctx < 64 → ans i 2 fun s => s.ctxs = e.s.ctxs) ∧
    (∀ i ∈ ops, e.runs i → e.ctx.sup = true → tgt i ≠ e.g.ctx → tgt i < 64 → e.s.ctxs.length = 64 →
      let c := e.s.ctx (tgt i)
      let becomes (x : Context) (s : State) : Prop := s = { e.s with ctxs := e.s.ctxs.set (tgt i) x, wgs := s.wgs } ∧ s.sameBytes e.s
      (i = .ctxswOut h d a → c.state = .running → ans i 0 (becomes { c with state := .preempting, halt := { high := true, kind := 2, reason := 6, detail := 0 } })) ∧
      (i = .ctxswOut h d a → c.state = .halted → ans i 0 (becomes { c with state := .out })) ∧
      (i = .ctxswOut h d a → c.state ≠ .running → c.state ≠ .halted → ans i 1 (becomes c)) ∧
      (i = .ctxswIn h d a → c.state = .out → c.halt.pendingOut = true →
        ans i 0 (becomes { c with state := .halted, halt := { c.halt with pendingOut := false, high := true, complete := true } })) ∧
      (i = .ctxswIn h d a → c.state ≠ .out → ans i 1 (becomes c)) ∧
      ((i = .ctxswIn h d a ∧ c.state = .out ∧ c.halt.pendingOut = false) ∨ (i = .resume h d a ∧ c.state = .halted) →
        ans i 0 fun s => s.ctx (tgt i) = { c with state := .running, halt := {} } ∧ e.s.sameBytes s ∧
          ∀ g, e.s.wg? g.core g.slot = some g → g.ctx = tgt i → ∃ g', s.wg? g.core g.slot = some g' ∧ g' = { g with threads := g'.threads } ∧
            g'.threads.length = g.threads.length ∧ ∀ (n : Nat) (t t' : Thread), g.threads[n]? = some t → g'.threads[n]? = some t' →
              t'.tid = t.tid ∧ t'.pc = t.pc ∧ t'.v = t.v ∧ t'.p = t.p ∧ (t.run ≠ .trapPending → t'.run = t.run) ∧
              (t.run = .trapPending → t'.run = .runnable ∧ t'.tcause = 0 ∧ t'.tcode = 0 ∧ t'.taddr = 0 ∧ t'.faddr = 0)) ∧
      (i = .resume h d a → c.state ≠ .halted → ans i 1 (becomes c)) ∧
      (i = .ctxswDrop h d a → (c.state = .halted ∨ c.state = .out) → ans i 0 fun s => s.ctx (tgt i) = Context.fresh ∧
        (∀ g ∈ s.wgs, g.ctx ≠ tgt i) ∧ (∀ l ∈ s.m.leases, l.ctx ≠ tgt i) ∧ ∀ q ∈ s.e.slots, q.ctx ≠ tgt i) ∧
      (i = .ctxswDrop h d a → c.state ≠ .halted → c.state ≠ .out → ans i 1 (becomes c)) ∧
      (i = .halt h code d a → c.state = .running → ans i 0 (becomes { c with state := .halting, halt := { high := true, kind := 1, reason := 2, detail := code } })) ∧
      (i = .halt h code d a → c.state = .out →
        ans i 1 (becomes { c with halt := { c.halt with pendingOut := true, kind := 1, reason := 2, detail := code } })) ∧
      (i = .halt h code d a → c.state ≠ .running → c.state ≠ .out → ans i 1 (becomes c))) ∧
    (e.runs (.stopr h n a) → e.ctx.sup = true → tgt (.stopr h n a) < 64 → ∃ s x, e.retires (.stopr h n a) s ∧ e.got s (.v n) x ∧
      let c := e.s.ctx (tgt (.stopr h n a))
      x.extractLsb' 28 4 = (match c.state with
        | .free => 0
        | .running => 1
        | .halting => 2
        | .halted => 3
        | .preempting => 4
        | .out => 5) ∧ x.getLsbD 27 = c.halt.high ∧ x.getLsbD 26 = c.halt.complete ∧ x.getLsbD 25 = c.halt.pendingOut ∧
      x.extractLsb' 13 12 = BitVec.ofNat 12 (min c.halt.records 4095) ∧ x.extractLsb' 0 13 = 0)) ∧
  (∀ (s : State) (core slot : Nat) (g : Workgroup) (t : Thread), s.wg? core slot = some g → g.thread? t.tid = some t →
    (g.threads.map (·.tid)).Nodup → (s.ctx g.ctx).runs = true → t.run ≠ .exited →
    let fill (P : State → Thread → Prop) : Prop := ∃ s' t', exec (.registerCacheFill core slot t.tid) s = .next s' ∧
      s'.thread? core slot t.tid = some t' ∧ P s' t'
    let line := g.image + g.stride * t.tid + 64 * imageLines g.regs
    (t.resident = false → t.saved = false → s.cachedLines core + 1 ≤ 16384 → fill fun s' t' => s.sameBytes s' ∧ t' = { t with resident := true }) ∧
    (∀ l p, t.resident = false → t.saved = true → t.patch = none → s.cachedLines core + 1 ≤ 16384 → s.imageRead g.ctx line 64 = .ok (s, l) →
      s.imageRead g.ctx (g.save + 0x800 + 48 * t.tid) 48 = .ok (s, p) →
      ((∃ x ∈ l, x.2 = true) → exec (.registerCacheFill core slot t.tid) s = .next (s.stateError core slot)) ∧
      ((∀ x ∈ l, x.2 = false) → (pnum l).1 / 2 ^ 56 % 4 = 3 → fill fun _ t' => t'.run = .exited) ∧
      ((∀ x ∈ l, x.2 = false) → (pnum l).1 / 2 ^ 56 % 4 ≠ 3 → fill fun s' t' => s.sameBytes s' ∧ t'.resident = true ∧
        t'.pc = BitVec.ofNat 64 ((pnum l).1 / 2 ^ 288) ∧ t'.flags = BitVec.ofNat 5 ((pnum l).1 / 2 ^ 48) ∧
        t'.sleep = (pnum l).1 / 2 ^ 264 % 2 ^ 24 - t.away ∧
        (t.cleared = false → (pnum l).1 / 2 ^ 56 % 4 = 2 → t'.run = .trapPending ∧ t'.tcause = (pnum l).1 / 2 ^ 256 % 2 ^ 8 ∧
          t'.tcode = BitVec.ofNat 32 ((pnum l).1 / 2 ^ 352) ∧ t'.taddr = BitVec.ofNat 64 ((pnum l).1 / 2 ^ 384) ∧
          t'.faddr = BitVec.ofNat 64 ((pnum l).1 / 2 ^ 448)) ∧
        (t.cleared = true ∨ (pnum l).1 / 2 ^ 56 % 4 ≠ 2 → t'.tcause = 0 ∧ t'.tcode = 0 ∧ t'.taddr = 0 ∧ t'.faddr = 0 ∧
          ((∀ b, t.run ≠ .blocked b) ∨ (pnum l).1 / 2 ^ 56 % 4 ≠ 1 → t'.run = .runnable)) ∧
        ∀ n < t.v.length, (t'.v.getD n {}).img = (t.v.getD n {}).img ∧ (t'.v.getD n {}).val = (t.v.getD n {}).val ∧
          (t'.v.getD n {}).poi = if (t.v.getD n {}).img then (pnum p).1.testBit n else (t.v.getD n {}).poi)) ∧
    (∀ need, t.resident = true → t.run = .blocked (.miss need) → s.cachedLines core + need.length ≤ 16384 →
      (∀ l ∈ need, t.inImage l = false) → fill fun s' t' => s.sameBytes s' ∧ t'.run = .runnable ∧ t'.v = t.v ∧ t'.pc = t.pc ∧
        ∀ l, l ∈ t'.out ↔ l ∈ t.out ∧ l ∉ need) ∧
    (∀ l bs, t.resident = true → t.run = .blocked (.miss [l]) → s.cachedLines core + 1 ≤ 16384 → t.inImage l = true →
      s.imageRead g.ctx (g.image + g.stride * t.tid + 64 * l) 64 = .ok (s, bs) → fill fun s' t' => s.sameBytes s' ∧ t'.run = .runnable ∧
        (∀ m, m ∈ t'.out ↔ m ∈ t.out ∧ m ≠ l) ∧ ∀ n < t.v.length, t'.v.getD n {} =
          if n / 16 = l ∧ (t.v.getD n {}).img = true then .arrived (BitVec.ofNat 32 (pnumAt bs (4 * (n % 16)) 4).1)
            ((pnumAt bs (4 * (n % 16)) 4).2 || (t.v.getD n {}).poi) else t.v.getD n {}))

/-! Steps: issue, time, the scheduler's events (R42, R87-R100, R164-R168). -/

/-- A step runs the decoded instruction: where the word that the latched path has fetched decodes and the workgroup admits it, step is exec of
that instruction, with the path current and taken from the latch. With no path latched, a step makes the next event of the agenda where that
may happen: exec of the event, with the unit's earlier requests at hand and those that it has not made again taken out (log 1, log 70); one that
may not happen leaves the machine as it is. -/
def Obligations.StepRunsDecodedInstruction : Prop :=
  (∀ (s : State) (p : Path) (rest : List Path) (g : Workgroup) (w : FWord) (i : Instr),
    s.latch = p :: rest → s.wg? p.core p.slot = some g → g.pathWord p = some w → w.poi = false → decodeWord w.word = .ok i →
    g.admits i = true → step s = exec i { s with latch := rest, cur := some p }) ∧
  ∀ (s : State) (i : Instr) (rest : List Move), s.latch = [] → s.agenda = .act i :: rest → let q := { s with agenda := rest }
    (q.allows i = true → ∀ t, exec i (q.asking i) = .next t → step s = .next (t.asked i)) ∧ (q.allows i = false → step s = .next q)

/-- R32, R49, R251, R253: a latched word that is no instruction raises the illegal-instruction trap in every thread of the path,
and a poisoned one the poison-use trap; the thread writes nothing else and resumes at the word. -/
def Obligations.IllegalWordTraps : Prop := ∀ (s : State) (p : Path) (rest : List Path) (g : Workgroup) (w : FWord) (t : Thread),
  s.latch = p :: rest → s.wg? p.core p.slot = some g → g.pathWord p = some w → g.thread? t.tid = some t → t.tid ∈ p.tids →
  t.run = .runnable → t.pc = p.pc →
  let traps (cause : Nat) (faddr : DWord) : Prop := ∃ s', step s = .next s' ∧ s.sameBytes s' ∧
    s'.thread? p.core p.slot t.tid = some { t with
      tcause := cause, tcode := 0, taddr := t.pc, faddr := faddr, run := .trapPending, wplace := none, gwait := false
      waitaEvicted := false, dwait := none }
  (w.poi = true → traps 5 p.pc) ∧
  (∀ r, w.poi = false → decodeWord w.word = .error r → traps 1 0) ∧
  (∀ i, w.poi = false → decodeWord w.word = .ok i → g.admits i = false → traps 1 0)

/-- R42, R97, R262: a cycle that passes moves the clock by one, ages runnable threads of running contexts, counts their sleeps down
(of one whose state line is in its image, once it is back), and leaves every byte and every register as it is, but the destination of
an awwait that ends, and the image of a thread that trapped while it was saved (log 88); in a freeze only PTP time moves.

R87-R92: Collie latches at most 32 threads, in one or two paths, and every quarter selects once a cycle; with one
ready thread it latches that thread alone at its PC. The threads it latches count their age from 0; no other thread changes. -/
def Obligations.CyclesAndSelection : Prop :=
  (∀ (s : State) (d : Nat),
    (s.y.freeze ≠ none → s.tick d = { s with ptp := s.ptp + d }) ∧
    (s.y.freeze = none → (∀ x ∈ s.y.dies, x.st = .running ∧ x.rst = false ∧ x.gate = false) → (s.tick d).now = s.now + 1 ∧ (s.tick d).ptp = s.ptp + d ∧
      ((∀ g ∈ s.wgs, ∀ t ∈ g.threads, t.patch = none) → s.sameBytes (s.tick d)) ∧
      ∀ core slot tid g t, s.wg? core slot = some g → g.thread? tid = some t → ∃ t', (s.tick d).thread? core slot tid = some t' ∧
        ((∀ o n x, t.run ≠ .blocked (.awwait o n x)) → t'.v = t.v) ∧ t'.flags = t.flags ∧
        (g.hard = false → t.cwbBack = [] → t.patch = none →
          ((s.ctx g.ctx).runs = false ∨ t.resident = false ∧ (∀ k, t.run ≠ .blocked (.sleep k)) → t' = t) ∧
          (∀ k, (s.ctx g.ctx).runs = true → t.resident = false → t.run = .blocked (.sleep k) → t' = { t with away := t.away + 1 }) ∧
          ((s.ctx g.ctx).runs = true → t.resident = true → t.run = .runnable → t'.age = min 65535 (t.age + 1) ∧ t'.pc = t.pc ∧
            t'.run = (if t.lineNeed = [] then .runnable else .blocked (.miss t.lineNeed))) ∧
          (∀ k, (s.ctx g.ctx).runs = true → t.resident = true → t.run = .blocked (.sleep k) → t.sleep ≠ 0 →
            t' = { t with sleep := t.sleep - 1 })))) ∧
  (∀ (s : State) (core q : Nat),
    (s.maySelect core q = false ∨ s.ready core q = [] → exec (.collieSelect core q) s = .next s) ∧
    (s.maySelect core q = true → s.ready core q ≠ [] → ∃ s' p rest, exec (.collieSelect core q) s = .next s' ∧ s.sameBytes s' ∧
      (∀ k slot tid t, s.thread? k slot tid = some t → s'.thread? k slot tid = some
        (if k = core ∧ slot = p.slot ∧ (tid ∈ p.tids ∨ rest.any (·.tids.contains tid) = true) then { t with age := 0 } else t)) ∧
      s'.latch = p :: rest ∧ p.core = core ∧ p.base = 0 ∧ p.tids ≠ [] ∧ rest.length ≤ 1 ∧
      p.tids.length + (rest.map (·.tids.length)).foldl (· + ·) 0 ≤ 32 ∧ s'.maySelect core q = false) ∧
    (∀ c, s.maySelect core q = true → s.ready core q = [c] → ∃ s', exec (.collieSelect core q) s = .next s' ∧
      s'.latch = [{ core := core, slot := c.slot, pc := c.pc, tids := [c.tid], base := 0 }]))

/-- R38, R44, R88, R94, R97, R100, R101, R281: the events that let a thread go on. The end of a yield, of a sleep (of a thread
whose state line is in the register cache) and of a waitt, a result that arrives, a fetched word, a finished icinv. That a w register
whose result arrives late shows it to other threads from its arrival on, within 8 cycles, is the model's choice (log 5).

R164-R167: an arrival is applied once what it releases is complete: the opening arrival sets the count; one that does not complete the
barrier counts itself; one that does starts the next generation, and every thread that waits on it goes on. -/
def Obligations.ThreadEvents : Prop :=
  (∀ (s : State) (core slot : Nat) (g : Workgroup) (t : Thread),
    s.wg? core slot = some g → g.thread? t.tid = some t → (g.threads.map (·.tid)).Nodup →
    let becomes (i : Instr) (t' : Thread) : Prop := ∃ s', exec i s = .next s' ∧ s.sameBytes s' ∧ s'.thread? core slot t.tid = some t'
    (t.yieldLeft = 1 → becomes (.yieldExpiry core slot t.tid) { t with yieldLeft := 0 }) ∧
    (∀ k, t.run = .blocked (.sleep k) → t.sleep = 0 → t.resident = true → (s.ctx g.ctx).runs = true → becomes (.sleepExpiry core slot t.tid) { t with run := .runnable, pc := t.pc + 8 }) ∧
    (∀ x, t.run = .blocked (.waitt x) → (s.ctx g.ctx).runs = true →
      (x ≤ s.ptpNs → becomes (.waittDeadline core slot t.tid) { t with run := .runnable, pc := t.pc + 8 }) ∧
      (s.ptpNs < x → becomes (.waittDeadline core slot t.tid) t)) ∧
    (∀ id n c, id ≠ 0 → t.v.getD n {} = c → c.tag = id → c.ready ≠ 0 → ∃ s' t', exec (.scoreboardResultArrive id) s = .next s' ∧
      s'.thread? core slot t.tid = some t' ∧ t'.v.getD n {} = { c with tag := 0, ready := 0 }) ∧
    (∀ id b u, id ≠ 0 → t.wbusy.filter (·.tag == id) = [b] → u ∈ (g.w.getD b.w { base := 0 }).hist → u.id = id → u.tid = t.tid → u.here = false →
      ∃ s' g' t', exec (.scoreboardResultArrive id) s = .next s' ∧ s'.wg? core slot = some g' ∧ g'.thread? t.tid = some t' ∧
        (∀ c ∈ t'.wbusy, c.tag ≠ id) ∧
        { u with val := b.val, poi := b.poi, here := true, own := s.now, lo := s.now, hi := s.now + 8 } ∈ (g'.w.getD b.w { base := 0 }).hist) ∧
    (∀ q ∈ s.m.icinv, (∀ x ∈ s.m.icinv, x.id = q.id → x = q) → ∃ s', exec (.icinvComplete q.id) s = .next s' ∧ s.sameBytes s' ∧
      (∀ x ∈ s'.m.icinv, x.id ≠ q.id) ∧
      ∀ l, l ∈ s'.m.icache ↔ l ∈ s.m.icache ∧ ¬(l.ctx = q.ctx ∧ l.line = q.line ∧ l.core ∈ q.cores)) ∧
    (∀ a, t.run = .runnable → t.resident = true → (s.ctx g.ctx).runs = true → (s.die (dieOf core)).st = .running → t.wants = some a →
      ((s.ctx g.ctx).match? a = none → a = t.pc → becomes (.ifetchFill core slot t.tid) (t.trap 4 0 t.pc t.pc t.pc)) ∧
      ∀ r, (s.ctx g.ctx).match? a = some r →
        (r.x = false → a = t.pc → becomes (.ifetchFill core slot t.tid) (t.trap 4 0 t.pc t.pc t.pc)) ∧
        (r.x = false → a ≠ t.pc → exec (.ifetchFill core slot t.tid) s = .next s) ∧
        (∀ f, r.x = true → (s.ctx g.ctx).inAperture (r.ia a) = false → (s.ctx g.ctx).window? (r.ia a) = none →
          s.m.iline? core g.ctx (lineOf (r.ia a)) = none →
          s.reach (unitNeed g.ctx g.ctx (r.home (r.ia a)) (lineOf (r.ia a)) 128 .fetch) = .ok (some f) → ∃ s' t' w,
            exec (.ifetchFill core slot t.tid) s = .next s' ∧ s.sameBytes s' ∧ s'.thread? core slot t.tid = some t' ∧ t'.fetched a = some w ∧
            w.word = leNat (slice (s.m.bytesAt f 128) (r.ia a % 128) 8) ∧ w.poi = s.m.poisonedAt { f with pa := f.pa + 32 * (r.ia a % 128 / 32) }))) ∧
  (∀ (s : State) (core slot : Nat) (g : Workgroup) (t : Thread) (q : Arrival) (rest : List Arrival),
    s.wg? core slot = some g → g.thread? t.tid = some t → (g.threads.map (·.tid)).Nodup → t.arrivals = q :: rest →
    (s.ctx g.ctx).runs = true → g.b.length = 16 → t.bars.length = 16 → q.b < 16 →
    ((s.anyOutstanding q.ids = true ∨ s.now < q.till) → exec (.barrierArrivalApply core slot t.tid) s = .next s) ∧
    (s.anyOutstanding q.ids = false → q.till ≤ s.now → q.cluster = false → (t.bars.getD q.b {}).p = false →
      let b := g.b.getD q.b {}
      let cnt := if b.arr = 0 then min q.n.toNat 2048 else b.cnt
      let target := if cnt = 0 then (g.threads.filter (·.run != .exited)).length else cnt
      ∃ s' g' t', exec (.barrierArrivalApply core slot t.tid) s = .next s' ∧ s.sameBytes s' ∧ s'.wg? core slot = some g' ∧
        g'.thread? t.tid = some t' ∧ t'.arrivals = rest ∧
        (b.arr + 1 < target → g'.b.getD q.b {} = { b with cnt := cnt, arr := b.arr + 1 } ∧ t'.bars.getD q.b {} = { p := true, sg := b.gen } ∧ t'.pc = t.pc) ∧
        (target ≤ b.arr + 1 → g'.b.getD q.b {} = { b with cnt := cnt, arr := 0, gen := (b.gen + 1) % 32 } ∧
          (q.sync = true → t.run = .blocked (.bar q.b false) → t'.run = .runnable ∧ t'.pc = t.pc + 8 ∧ (t'.bars.getD q.b {}).p = false) ∧
          ∀ u, g.thread? u.tid = some u → u.tid ≠ t.tid → u.run = .blocked (.bar q.b true) →
            ∃ u', g'.thread? u.tid = some u' ∧ u'.run = .runnable ∧ u'.pc = u.pc + 8)) ∧
    (s.anyOutstanding q.ids = false → q.till ≤ s.now → q.cluster = true → (t.cbars.getD q.b {}).p = false → t.cbars.length = 8 → q.b < 8 →
      (s.clbar g.ctx g.lid (core / 4)).b.length = 8 →
      let b := (s.clbar g.ctx g.lid (core / 4)).b.getD q.b {}
      let cnt := if b.arr = 0 then min q.n.toNat 32768 else b.cnt
      cnt ≠ 0 → ∃ s' t', exec (.barrierArrivalApply core slot t.tid) s = .next s' ∧ s.sameBytes s' ∧ s'.thread? core slot t.tid = some t' ∧
        (b.arr + 1 < cnt → (s'.clbar g.ctx g.lid (core / 4)).b.getD q.b {} = { b with cnt := cnt, arr := b.arr + 1 }) ∧
        (cnt ≤ b.arr + 1 → (s'.clbar g.ctx g.lid (core / 4)).b.getD q.b {} = { b with cnt := cnt, arr := 0, gen := (b.gen + 1) % 32 } ∧
          (q.sync = true → t.run = .blocked (.cbar q.b false) → t'.run = .runnable ∧ t'.pc = t.pc + 8))))

/-! Halts, images and freezes (R251-R263). -/

/-- R253, R254, R259, R264: what raises a halt. Where every thread of a workgroup has exited, is blocked or is trap-pending, and one
is trap-pending, the trap is taken with the lowest one's cause, while the context has not stopped; a trap recorded while the context
is Out makes its halt pending. An uncorrectable state error makes every thread that has not exited trap-pending with cause 8, and
the record of one that is saved goes into its image (log 88); its TADDR of 0 is the model's choice (log 25). A free context that
is created keeps its registers and runs with chk set (log 38).

R254-R256, R258-R260: a unit that holds work of a stopping context writes its record and is counted; the halt is complete, with images and
save areas written, when every unit has stopped: the context is Halted, or Out after a pre-emption, and no thread of it
is resident. An Out context's partition goes to its save area, and comes back from it when the context runs. -/
def Obligations.HaltEvents : Prop :=
  (∀ (s : State) (core slot : Nat) (g : Workgroup), s.wg? core slot = some g → g.ctx < s.ctxs.length →
    let c := s.ctx g.ctx
    (∀ t, g.thread? t.tid = some t → t.run = .trapPending → (∀ u ∈ g.threads, u.run = .trapPending → t.tid ≤ u.tid) →
      (c.state = .running → (∀ u ∈ g.threads, u.resident = true → u.run ≠ .runnable) →
        exec (.trapTaken core slot) s = .next (s.setCtx g.ctx { c with state := .halting, halt := { high := true, kind := 1, reason := 1, detail := t.tcause } })) ∧
      (c.state = .out → (∀ u ∈ g.threads, u.run ≠ .runnable) → (∃ u ∈ g.threads, u.late = true) →
        exec (.trapTaken core slot) s = .next (s.setCtx g.ctx { c with halt := { c.halt with pendingOut := true, kind := 1, reason := 1, detail := t.tcause } }))) ∧
    ((∃ u ∈ g.threads, u.run = .runnable ∧ u.resident = true) ∨ c.state = .halted ∨ (c.state = .out ∧ ∀ u ∈ g.threads, u.late = false) →
      exec (.trapTaken core slot) s = .next s) ∧
    (c.state = .running → ∃ s', exec (.uncorrectableStateError core slot) s = .next s' ∧ s.sameBytes s' ∧
      s'.ctx g.ctx = { c with state := .halting, halt := { high := true, kind := 1, reason := 5, detail := 0 } } ∧
      ∀ tid t, g.thread? tid = some t →
        let x : Thread := { t with tcause := 8, tcode := 0, taddr := 0, faddr := 0, run := .trapPending, wplace := none, gwait := false, waitaEvicted := false, dwait := none }
        s'.thread? core slot tid = some (if t.run = .exited then t
          else if t.saved = true then { x with patch := some (t.patch == some true), cleared := false, late := false } else x)) ∧
    ∀ k < s.ctxs.length, (s.ctx k).state = .free →
      exec (.contextCreation k) s = .next (s.setCtx k { s.ctx k with state := .running, ctl := (s.ctx k).ctl ||| 1 })) ∧
  (∀ (s : State) (k : Nat), k < s.ctxs.length →
    let c := s.ctx k
    (∀ unit q, c.stopping = true → unit ∉ c.halt.stopped → s.unitBusy k unit = true → s.unitQuiet k unit = true →
      (unit < 4096 → unit % 16 = 2 → s.unitBusy k (unit - 1) = false ∨ unit - 1 ∈ c.halt.stopped) →
      let r := s.unitRun k unit
      (if c.stoparea.toNat % 2 = 1 then r.imageWrite k (c.stoparea.toNat / 2 ^ 19 * 2 ^ 19 + 64 * unit)
        (plainBytes (stopBytes unit c.halt.kind c.halt.reason c.halt.detail s.ptpNs (r.unitOf k unit))) = .ok q else q = r) → q.ctxs = s.ctxs →
      ∃ s', exec (.unitStop k unit) s = .next s' ∧ q.sameBytes s' ∧
        s'.ctx k = { c with halt := { c.halt with stopped := c.halt.stopped ++ [unit], records := c.halt.records + 1 } }) ∧
    (∀ q, c.stopping = true → (∀ u ∈ unitIds, u ∈ c.halt.stopped ∨ s.unitBusy k u = false) → (∀ l ∈ s.m.leases, l.ctx ≠ k) →
      (∀ w ∈ s.m.waits, w.ctx ≠ k) → (∀ j < 256, s.coreQuiet j k = true) → s.saveAll k = .ok q → k < q.ctxs.length → ∃ s', exec (.haltComplete k) s = .next s' ∧
        (s'.ctx k).state = (if c.state = .preempting then .out else .halted) ∧ (s'.ctx k).halt.complete = true ∧
        ∀ g ∈ s'.wgs, g.ctx = k → ∀ t ∈ g.threads, t.resident = false) ∧
    (∀ core slot g q, s.wg? core slot = some g → g.ctx = k → c.state = .out → g.resident = true → s.finished g = false →
      s.imageWrite k (g.save + g.tileOffset) (plainBytes g.tile ++ accBytes g.acc) = .ok q → q.wgs = s.wgs →
      ∃ s', exec (.contextEvict core slot) s = .next s' ∧ q.sameBytes s' ∧ s'.wg? core slot = some { g with resident := false }) ∧
    (∀ core slot g b l, s.wg? core slot = some g → g.ctx = k → c.runs = true → g.resident = false → g.accum ≤ s.freeTiles core →
      freeRun (s.partitions core) (g.tile.length / 1024) = some b → s.readIa k (g.save + g.tileOffset) (g.tile.length + 16384 * g.acc.length) = .ok l →
      l.length = g.tile.length + 16384 * g.acc.length → ∃ s' g', exec (.partitionReturn core slot) s = .next s' ∧ s.sameBytes s' ∧ s'.wg? core slot = some g' ∧
        g'.resident = true ∧ g'.tileBase = b ∧ g'.tile.length = g.tile.length ∧ g'.threads = g.threads ∧
        (∀ j < g.tile.length, g'.tile.getD j 0 = (l.getD j (0, false)).1) ∧
        ∀ j < g.tile.length, (l.getD j (0, false)).2 = true → g.tile.length % 4 = 0 → j / 4 ∈ g'.tpoi))

/-- R108, R266, R273, R274: an acknowledgement lets a missing unit go when its page is mapped, and halts the context with
reason 3 when it is unmappable; an invalidation sets BSY, drops the cached translations of its range, then clears BSY; a
write of evtail moves the tail, and evlost clears.

R273: an event record is written at the slot that sys.evhead names, with its kind, source, address, time and detail, and the head
advances; a record of any kind but 1 that finds the ring full or off is counted in sys.evlost, and one of kind 1 waits.

That evtail is stored whole (log 40) and that MSI-X signals are counted (log 21) are the model's choices. -/
def Obligations.FaultAndRingRegisters : Prop :=
  (∀ (s : State),
    (∀ (m : Miss) (x : DWord) (l pa : Nat) (hst : Bool), s.m.missing = [m] → x.toNat / 2 % 2 ^ 15 = 0 →
      unitBase m.level (x.toNat / 2 ^ 16 % 2 ^ 36 * 2 ^ 16) = m.ia →
      (x.toNat % 2 = 0 → s.walk m.ctx m.ia = .leaf l pa hst → (∀ ia ∈ s.heldOn m, ∃ l pa hst, s.walk m.ctx ia = .leaf l pa hst) →
        ∃ s', exec (.faultackMap x) s = .next s' ∧ s.sameBytes s' ∧ s'.m.missing = [] ∧ s'.m.writes = s.m.writes) ∧
      (x.toNat % 2 = 1 → m.ctx < s.ctxs.length → ∃ s', exec (.faultackUnmappable x) s = .next s' ∧ s.sameBytes s' ∧ s'.m.missing = [] ∧
        (∀ w ∈ s'.m.writes, ¬(w.ctx = m.ctx ∧ w.home = m.die ∧ ctrlOf w.ia = m.ctrl ∧ unitBase m.level w.ia = m.ia)) ∧
        s'.ctxs = s.ctxs.set m.ctx ((s.ctx m.ctx).raise 1 3 0))) ∧
    (∀ (x : DWord), s.y.xlinv.getLsbD 63 = false → ∃ s', exec (.xlinvWrite x) s = .next s' ∧ s'.m = s.m ∧
      s'.y.xlinv = x ||| 0x8000000000000000 ∧ ∀ s'', s''.y.xlinv = s'.y.xlinv → s''.m = s.m →
        ∃ t, exec .xlinvDone s'' = .next t ∧ s.sameBytes t ∧ t.y.xlinv = x &&& 0x7FFFFFFFFFFFFFFF ∧
          (∀ q ∈ t.m.xlat, q ∈ s.m.xlat) ∧
          (∀ q ∈ s.m.xlat, q.ctx ≠ x.toNat / 2 ^ 8 % 2 ^ 6 → q ∈ t.m.xlat) ∧
          (x.toNat % 16 / 4 = 3 → ∀ q ∈ t.m.xlat, q.ctx ≠ x.toNat / 2 ^ 8 % 2 ^ 6) ∧
          ∀ k n, (k = 0 ∧ n = 2 ^ 16 ∨ k = 1 ∧ n = 2 ^ 21 ∨ k = 2 ∧ n = 2 ^ 31) → x.toNat % 16 = 4 * k →
            let ia := x.toNat / 2 ^ 16 % 2 ^ 36 * 2 ^ 16
            let hit (q : XEnt) : Prop := q.ia < ia + n ∧ ia < q.ia + levelSpan q.level
            (x.toNat / 2 ^ 14 % 4 = 0 → x.toNat / 2 ^ 4 % 16 = 0 → x.toNat / 2 ^ 52 % 2 ^ 11 = 0 → ia % n = 0 →
              ∀ q ∈ s.m.xlat, q.ctx = x.toNat / 2 ^ 8 % 2 ^ 6 → (q ∈ t.m.xlat ↔ ¬hit q))) ∧
    (∀ (x : DWord), s.y.xlinv.getLsbD 63 = true → exec (.xlinvWrite x) s = .next s) ∧
    (∀ (x : Word), (∀ m ∈ s.m.missing, m.recorded = true) → ∃ s', exec (.evtailWrite x) s = .next s' ∧ s'.m = s.m ∧ s'.y.evtail = x ∧
      s'.y.evhead = s.y.evhead) ∧
    (∃ s', exec .evlostClear s = .next s' ∧ s'.m = s.m ∧ s'.wgs = s.wgs ∧ s'.y.evlost = 0 ∧ s'.y.evhead = s.y.evhead)) ∧
  (∀ (s : State) (kind ctx unit addr detail : Nat), s.m.canon → kind < 2 ^ 32 → ctx < 64 → unit < 2 ^ 13 →
    detail < 2 ^ 32 → addr < 2 ^ 64 → s.ptpNs < 2 ^ 64 →
    let s' := s.event kind ctx unit addr detail
    let slot := s.y.evq.toNat / 2 ^ 15 % 2 ^ 37 * 2 ^ 15 + 32 * (s.y.evhead.toNat % 1024)
    let at_ (off n : Nat) : Nat := leNat (cellsGet (slot + off) n s'.m.cells)
    (s.m.waits = [] → s'.wgs = s.wgs) ∧ s'.ctxs = s.ctxs ∧
    (s.y.evOn = true → s.y.evFull = false → paExists slot = true → at_ 0 4 = kind ∧ at_ 4 4 = ctx + unit * 2 ^ 16 ∧ at_ 8 8 = addr ∧ at_ 16 8 = s.ptpNs ∧
      at_ 24 4 = detail ∧ at_ 28 4 = 0 ∧ s'.y.evhead.toNat = (s.y.evhead.toNat + 1) % 1024 ∧ s'.y.msix = s.y.msix + 1 ∧
      ∀ a, a < slot ∨ slot + 32 ≤ a → cellGet a s'.m.cells = cellGet a s.m.cells) ∧
    (kind ≠ 1 → s.y.evOn = false ∨ s.y.evFull = true → s.sameBytes s' ∧ s'.y.evlost = s.y.evlost + 1 ∧ s'.y.evhead = s.y.evhead)) ∧
  ∀ (s : State) (home ctx ia level : Nat) (acc : Acc), s.y.evOn = false ∨ s.y.evFull = true → s.missing? home ctx ia = none →
    let s' := s.pageFault home ctx ia level acc
    s.sameBytes s' ∧ s'.y = s.y ∧ ∃ m, s'.m.missing = s.m.missing ++ [m] ∧ m.recorded = false ∧ m.ctx = ctx ∧ m.die = home ∧ m.ia = unitBase level ia

/-- R262, R263, R273: a freeze starts at the critical level with a record of kind 7 and ends at the hysteresis below it with
kind 8; after 48 ms of PTP time it becomes a thermal halt of every running context with work, with kind 9, and the stack stays
throttled until it has cooled. That the records' Source unit is the stack's controller, that only contexts with work halt, and that
the event which ends a throttle names its stack, are the model's reading (log 39). -/
def Obligations.FreezeEvents : Prop := ∀ (s : State),
  let off (f : Option Freeze) (t : List Nat) : State := { s with y := { s.y with freeze := f, throttle := t } }
  (∀ k < 16, s.y.freeze = none → exec (.freezeStart k) s = .next ((off (some ⟨k, s.ptp⟩) s.y.throttle).event 7 0 (4096 + k) 0 0)) ∧
  (∀ f temp, s.y.freeze = some f → temp + s.y.frzctl.toNat / 256 % 256 ≤ s.y.frzctl.toNat % 256 →
    exec (.freezeEnd temp) s = .next ((off none s.y.throttle).event 8 0 (4096 + f.stack) 0 0)) ∧
  (∀ f temp, s.y.freeze = some f → s.y.frzctl.toNat % 256 < temp + s.y.frzctl.toNat / 256 % 256 → exec (.freezeEnd temp) s = .next s) ∧
  (∀ f, s.y.freeze = some f → f.ptp + 48000000 * 2 ^ 16 ≤ s.ptp → ∃ s', exec .freezeBound s = .next s' ∧ s'.y.freeze = none ∧
    f.stack ∈ s'.y.throttle ∧ (s.m.waits = [] → s'.wgs = s.wgs) ∧ ∀ k < 64, k < s.ctxs.length → s'.ctx k = if s.hasWork k = true ∧ (s.ctx k).state = .running
      then { s.ctx k with state := .halting, halt := { high := true, kind := 1, reason := 7, detail := 0 } } else s.ctx k) ∧
  (∀ f, s.y.freeze = some f → s.ptp < f.ptp + 48000000 * 2 ^ 16 → exec .freezeBound s = .next s) ∧
  ∀ k temp, (k ∈ s.y.throttle → temp + s.y.frzctl.toNat / 256 % 256 ≤ s.y.frzctl.toNat % 256 →
      exec (.throttleEnd { stack := k, temp := temp }) s = .next ((off s.y.freeze (s.y.throttle.filter (· != k))).event 8 0 (4096 + k) 0 0)) ∧
    (k ∉ s.y.throttle ∨ s.y.frzctl.toNat % 256 < temp + s.y.frzctl.toNat / 256 % 256 → exec (.throttleEnd { stack := k, temp := temp }) s = .next s)

/-! The matrix engine (R185-R207). -/

/-- R110, R187-R190: an entry opcode. Its tile-store operands must lie in the allocation and be aligned; where its k guard is 0 it
retires with no effect; else it puts one entry into the core's table, with the captured data, the workgroup's matrix class, the
.after condition (the completions of the register counted so far) and no group, and raises REF of every granule it names. -/
def Obligations.MatrixEntryIssue : Prop := ∀ (e : Env) (h : Hdr) (kg : KSel) (kn d sn : Nat) (a b : Src) (c : Option Nat),
  let off (i : Instr) (q : Src) : Nat := ((e.at_ i).src q).toNat
  let fits (l : List (Nat × Nat × Nat)) : Prop := ∀ o ∈ l, o.1 % o.2.1 = 0 ∧ o.1 + o.2.2 ≤ e.g.tile.length
  let names (l : List (Nat × Nat)) (k : Nat) : Prop := ∃ o ∈ l, o.1 < 1024 * (k + 1) ∧ 1024 * k < o.1 + o.2
  let enters (i : Instr) (x y : Nat) (ops : List (Nat × Nat × Nat)) (refs : List (Nat × Nat)) (op : MOp) : Prop := e.runs i → fits ops →
    (e.kGuard kg kn d x y = false → e.retires i e.s) ∧
    (e.kGuard kg kn d x y = true → (e.s.e.freeIdx e.g.core).isSome = true → (∀ k, names refs k → (e.g.gran.getD k {}).ref < 255) →
      ∃ s q g, e.retires i s ∧ e.s.sameBytes s ∧ s.e.entries = e.s.e.entries ++ [q] ∧ q.op = op ∧ q.d = d ∧ q.core = e.g.core ∧
        q.slot = e.g.slot ∧ q.ctx = e.g.ctx ∧ q.tid = e.t.tid ∧ q.pc = e.t.pc ∧ q.issue = e.s.now ∧ q.group = none ∧ q.granted = none ∧ q.cls = (e.g.mcls.readOwn e.s.now e.t.tid keyCls).1 ∧ q.raised = 0 ∧
        (∀ m ∈ e.s.e.entries, m.core = e.g.core → m.idx ≠ q.idx) ∧ q.after = c.map (fun k => (k, (e.g.c.getD k {}).done)) ∧
        e.wg s = some g ∧ g.tile = e.g.tile ∧ g.acc = e.g.acc ∧
        ∀ k < e.g.gran.length, (names refs k → g.gran.getD k {} = { e.g.gran.getD k {} with ref := (e.g.gran.getD k {}).ref + 1 }) ∧
          (¬names refs k → g.gran.getD k {} = e.g.gran.getD k {}))
  let noUnit (x n : Nat) : Prop := ∀ k, names [(x, n)] k → (e.g.gran.getD k {}).owned = false
  (∀ fmt, let i : Instr := .tmma h fmt sn kg kn d a b c
    enters i (off i a) (off i b) [(off i a, 8192, 8192), (off i b, 8192, 8192)] [(off i a, 8192), (off i b, 8192)]
      (.mma fmt (off i a) (off i b) (e.scaleA sn) (e.scaleB sn))) ∧
  (∀ fmt, let i : Instr := .tmmau h fmt sn kg kn d a b c
    let u := unfoldOf (slice e.g.tile (off i a) 32)
    noUnit (off i a) 32 → u.ok fmt = true → enters i (off i a) (off i b) [(off i a, 32, 32), (off i b, 8192, 8192), (u.off, 32, u.bytes fmt)]
      [(u.off, u.bytes fmt), (off i b, 8192)]
      (.mmau fmt (slice e.g.tile (off i a) 32) (e.g.tileNum (off i a) 32).2 (off i b) (e.scaleA sn) (e.scaleB sn))) ∧
  (∀ fmt, let i : Instr := .tperm h fmt kg kn d a b c
    noUnit (off i b) 64 → enters i (off i a) (off i b) [(off i a, 8192, 8192), (off i b, 64, 64)] [(off i a, 8192)]
      (.perm fmt (off i a) (slice e.g.tile (off i b) 64) ((List.range 64).map fun k => (e.g.tileNum (off i b + k) 1).2))) ∧
  (∀ fmt, let i : Instr := .ttrn h fmt kg kn d a c
    enters i (off i a) 0 [(off i a, 8192, 8192)] [(off i a, 8192)] (.trn fmt (off i a))) ∧
  (∀ fmt col, let i : Instr := .trsum h fmt col kg kn d a c
    enters i (off i a) 0 [(off i a, 8192, 8192)] [(off i a, 8192)] (.rsum fmt (off i a) col)) ∧
  (enters (.tzero h kg kn d c) 0 0 [] [] .zero) ∧
  (∀ fmt, let i : Instr := .tlda h fmt kg kn d a c
    let n := 4096 * (if fmt = .f32 then 4 else 2)
    enters i (off i a) 0 [(off i a, 32, n)] [(off i a, n)] (.lda fmt (off i a))) ∧
  (∀ fmt, let i : Instr := .tsta h fmt sn kg kn d a b c
    let n := 4096 * (if fmt = .f32 then 4 else if fmt = .e4m3 then 1 else 2)
    let part (x : Nat) : Nat := if x = 0 ∨ 64 < x then 64 else x
    enters i (off i a) (off i b) [(off i a, 32, n)] [(off i a, n)]
      (.sta fmt (off i a) (part (off i b % 128)) (part (off i b / 256 % 128)) (e.scaleB sn))) ∧
  (∀ fmt, ∀ i ∈ [Instr.ttrn h fmt kg kn d a c, Instr.trsum h fmt false kg kn d a c, Instr.trsum h fmt true kg kn d a c], e.runs i →
    (e.g.tile.length < off i a + 8192 → e.traps i 4 0 (BitVec.ofNat 64 (off i a)) e.t.pc) ∧
    (off i a + 8192 ≤ e.g.tile.length → off i a % 8192 ≠ 0 → e.traps i 3 0 (BitVec.ofNat 64 (off i a)) e.t.pc))

/-- R197-R201: groups, scale registers, predicates and the class. tcommit closes the open set into a group; twait goes on when
the group is empty; ttest counts it; tcancel drops its ungranted entries and counts them; tscl, tpred and tcls write
their registers, read them back for the thread at once, and tcls is bounded by the launch's class. -/
def Obligations.MatrixControlResults : Prop := ∀ (e : Env) (h : Hdr) (n : Nat) (d : Option Nat) (a : Src) (r x : Option Reg),
  let mine (m : MEnt) : Bool := m.core == e.g.core && m.slot == e.g.slot
  let inGroup : Nat := (e.s.e.entries.filter fun m => mine m && m.group == some n).length
  let quiet {α : Type} (q : Shared α) : Prop := ∀ v ∈ q.hist, v.issue ≠ e.s.now
  (e.runs (.tcommit h n) → ∃ s, e.retires (.tcommit h n) s ∧ s.wgs = e.s.wgs ∧ s.e.entries = e.s.e.entries.map fun m =>
    if mine m && m.group == none then { m with group := some n } else m) ∧
  (e.runs (.twait h n d) → (inGroup = 0 → ∃ s, e.retires (.twait h n d) s ∧ ∀ k, d = some k → e.got s (.v k) 0) ∧
    (inGroup ≠ 0 → e.blocks (.twait h n d) e.s (.twait n))) ∧
  (∀ k, e.runs (.ttest h n k) → ∃ s, e.retires (.ttest h n k) s ∧ e.got s (.v k) (BitVec.ofNat 32 (inGroup % 64))) ∧
  (e.runs (.tcancel h n d) → ∃ s, e.retires (.tcancel h n d) s ∧
    s.e.entries = e.s.e.entries.filter (fun m => !(mine m && m.group == some n && m.granted == none)) ∧
    ∀ k, d = some k → e.got s (.v k) (BitVec.ofNat 32 (e.s.e.entries.filter fun m => mine m && m.group == some n && m.granted == none).length)) ∧
  (∀ sb idx, e.runs (.tscl h sb idx a) → let off := ((e.at_ (.tscl h sb idx a)).src a).toNat
    let len := if sb then 4 else 256
    (e.g.tile.length < off + len → e.traps (.tscl h sb idx a) 4 0 (BitVec.ofNat 64 off) e.t.pc) ∧
    (off + len ≤ e.g.tile.length → off % (if sb then 4 else 16) = 0 → (∀ q ∈ e.g.gran, q.owned = false) →
      ∃ s g, e.retires (.tscl h sb idx a) s ∧ e.wg s = some g ∧
        let num (k : Nat) : Word := BitVec.ofNat 32 (leNat (slice e.g.tile (off + 4 * k) 4))
        (sb = true → idx < e.g.sb.length → quiet (e.g.sb.getD idx { base := {} }) →
          ((g.sb.getD idx { base := {} }).readOwn e.s.now e.t.tid (keySb idx)).1.val = num 0) ∧
        (sb = false → idx < e.g.sa.length → quiet (e.g.sa.getD idx { base := [] }) →
          ∀ k < 64, (((g.sa.getD idx { base := [] }).readOwn e.s.now e.t.tid (keySa idx)).1.getD k {}).val = num k))) ∧
  (∀ fn, e.runs (.tpred h fn n r x) → let k := ((e.g.k.getD n { base := 0 }).readOwn e.s.now e.t.tid (keyK n)).1
    (fn = .rd → ∃ s, e.retires (.tpred h fn n r x) s ∧ ∀ q, r = some q → ∀ j < 2, e.got s ((q.regs 2).getD j q) (BitVec.ofNat 32 (k.toNat / 2 ^ (32 * j)))) ∧
    (fn ≠ .rd → n < e.g.k.length → quiet (e.g.k.getD n { base := 0 }) → ∃ s g, e.retires (.tpred h fn n r x) s ∧ e.wg s = some g ∧
      ((g.k.getD n { base := 0 }).readOwn e.s.now e.t.tid (keyK n)).1 = (match fn with
        | .or => k ||| e.pairZ x
        | .andn => k &&& ~~~(e.pairZ x)
        | _ => e.pairZ x))) ∧
  (e.runs (.tcls h d a) → quiet e.g.mcls → ∃ s g, e.retires (.tcls h d a) s ∧ e.wg s = some g ∧
    (g.mcls.readOwn e.s.now e.t.tid keyCls).1 = min ((e.at_ (.tcls h d a)).src a).toNat e.g.cls ∧
    ∀ k, d = some k → e.got s (.v k) (BitVec.ofNat 32 (e.g.mcls.readOwn e.s.now e.t.tid keyCls).1))

/-- R203: the arbiter grants the entry of the highest effective class, then the oldest, then the lowest index, one a step of 16
cycles; an entry eligible for 16,384 cycles without a grant gains a class step, and none above class 2.

R185, R186, R192-R196, R207: what an entry leaves when it completes, at the earliest 16 cycles after its grant: one tile of the
accumulator store, or for tsta bytes of the tile store; its entry is gone and its REF is lowered. Products are summed
along k in order, each step rounded once. A result is poisoned where a byte, a scale or a value that it reads is. -/
def Obligations.MatrixProgress : Prop :=
  (∀ (s : State) (core : Nat) (m : MEnt),
    (s.now < s.e.step.getD core 0 → exec (.matrixGrant core) s = .next s) ∧
    (s.e.step.getD core 0 ≤ s.now → core < s.e.step.length → m ∈ s.e.entries → m.core = core → s.grantable m = true → m.isDmul = false →
      (∀ x ∈ s.e.entries, x.core = core → s.grantable x = true → x ≠ m → m.eff > x.eff ∨ (m.eff = x.eff ∧
        (m.issue < x.issue ∨ (m.issue = x.issue ∧ m.idx < x.idx)))) →
      ∃ s' q, exec (.matrixGrant core) s = .next s' ∧ s.sameBytes s' ∧ s'.wgs = s.wgs ∧ s'.e.step.getD core 0 = s.now + 16 ∧
        q ∈ s'.e.entries ∧ q = { m with granted := some s.now, drun := none, heldOn := 0 }) ∧
    (s.e.entries.filter (fun x => x.core == core && x.idx == m.idx) = [m] → ∃ s' q, exec (.matrixClassAging core m.idx) s = .next s' ∧
      s.sameBytes s' ∧ s'.wgs = s.wgs ∧ s'.e.entries.filter (fun x => x.core == core && x.idx == m.idx) = [q] ∧
      let wants : Bool := if m.isDmul then (match m.drun with
          | none => true
          | some r => !r.writing && decide (0 < r.steps)) else m.granted == none
      q = if wants = true ∧ m.cls + m.raised < 2 ∧ (∃ t, m.eligible = some t ∧ t + 16384 ≤ s.now)
        then { m with raised := m.raised + 1, eligible := m.eligible.map (· + 16384) } else m)) ∧
  (∀ (s : State) (m : MEnt) (g : Workgroup) (t : Nat),
    s.e.entries.filter (fun x => x.core == m.core && x.idx == m.idx) = [m] → s.wg? m.core m.slot = some g → m.granted = some t →
    m.isDmul = false → m.d < g.acc.length → (s.ctx m.ctx).halt.high = false →
    (s.now < t + 16 → exec (.matrixEntryComplete m.core m.idx) s = .next s) ∧
    (t + 16 ≤ s.now → ∃ s' g', exec (.matrixEntryComplete m.core m.idx) s = .next s' ∧ s.sameBytes s' ∧ s'.wg? m.core m.slot = some g' ∧
      s'.e.entries = s.e.entries.filter (fun x => !(x.core == m.core && x.idx == m.idx)) ∧
      let elem (off sz n k : Nat) : Nat := leNat (slice g.tile (off + 128 * n + 16 * ((sz * k / 16) ^^^ (n % 8)) + sz * k % 16) sz)
      let d (i j : Nat) : PWord := (g.acc.getD m.d []).getD (64 * i + j) {}
      let d' (i j : Nat) : PWord := (g'.acc.getD m.d []).getD (64 * i + j) {}
      (m.writesTile = false → g'.tile = g.tile ∧ ∀ n, n ≠ m.d → g'.acc.getD n [] = g.acc.getD n []) ∧
      (∀ fmt a b sa sb, m.op = .mma fmt a b sa sb → ∀ i < 64, ∀ j < 64,
        let f := mfmt fmt
        let sz := if fmt = .e4m3 then 1 else 2
        let sum (x0 : Nat) : Nat := (List.range (128 / sz)).foldl (fun acc k => mac (f.val (elem a sz i k)) (f.val (elem b sz j k)) acc) x0
        (d' i j).val = BitVec.ofNat 32 (if fmt = .e4m3
          then mac (fp32.val (sum 0)) (fp32.val (fp32.mul .rn (sa.getD i {}).val.toNat sb.val.toNat).1) (d i j).val.toNat
          else sum (d i j).val.toNat)) ∧
      (m.op = .zero → ∀ i < 64, ∀ j < 64, d' i j = {}) ∧
      (∀ fmt a, m.op = .trn fmt a → ∀ i < 64, ∀ j < 64,
        (d' i j).val = BitVec.ofNat 32 (prodSum (fun k => (hfmt fmt).val (elem a 2 k i)) (fun k => if k = j then oneV else zeroV))) ∧
      (∀ fmt a x xp, m.op = .perm fmt a x xp → ∀ i < 64, ∀ j < 64,
        (d' i j).val = BitVec.ofNat 32 (prodSum (fun k => if (x.getD i 0).toNat = k then oneV else zeroV) (fun k => (hfmt fmt).val (elem a 2 k j)))) ∧
      (∀ fmt a, m.op = .rsum fmt a false → ∀ i < 64, ∀ j < 64,
        (d' i j).val = BitVec.ofNat 32 (prodSum (fun k => (hfmt fmt).val (elem a 2 i k)) (fun _ => if j = 0 then oneV else zeroV))) ∧
      (∀ fmt a, m.op = .rsum fmt a true → ∀ i < 64, ∀ j < 64,
        (d' i j).val = BitVec.ofNat 32 (prodSum (fun _ => if i = 0 then oneV else zeroV) (fun k => (hfmt fmt).val (elem a 2 k j)))) ∧
      (∀ fmt desc dpoi b sa sb, m.op = .mmau fmt desc dpoi b sa sb → (unfoldOf desc).ok fmt = true → ∀ i < 64, ∀ j < 64,
        let u := unfoldOf desc
        let f := mfmt fmt
        let sz := if fmt = .e4m3 then 1 else 2
        let oh := (u.h + 2 * u.pt - u.dh * (u.kh - 1) - 1) / u.sh + 1
        let ow := (u.w + 2 * u.pl - u.dw * (u.kw - 1) - 1) / u.sw + 1
        let row (kk : Nat) : Nat :=
          let p := u.p0 + i
          let k := u.k0 + kk
          let ih : Int := (p / ow * u.sh : Nat) - (u.pt : Int) + (k / (u.c * u.kw) * u.dh : Nat)
          let iw : Int := (p % ow * u.sw : Nat) - (u.pl : Int) + (k / u.c % u.kw * u.dw : Nat)
          if oh * ow ≤ p ∨ u.kh * u.kw * u.c ≤ k then 0
          else if ih < 0 ∨ (u.h : Int) ≤ ih ∨ iw < 0 ∨ (u.w : Int) ≤ iw then u.fill
          else leNat (slice g.tile (u.off + sz * ((ih.toNat * u.w + iw.toNat) * u.c + k % u.c)) sz)
        let sum (x0 : Nat) : Nat := (List.range (128 / sz)).foldl (fun acc k => mac (f.val (row k)) (f.val (elem b sz j k)) acc) x0
        (d' i j).val = BitVec.ofNat 32 (if fmt = .e4m3
          then mac (fp32.val (sum 0)) (fp32.val (fp32.mul .rn (sa.getD i {}).val.toNat sb.val.toNat).1) (d i j).val.toNat
          else sum (d i j).val.toNat)) ∧
      (∀ fmt a, m.op = .lda fmt a → ∀ i < 64, ∀ j < 64,
        let x (n : Nat) : Nat := leNat (slice g.tile (a + n * (64 * i + j)) n)
        (d' i j).val = BitVec.ofNat 32 (match fmt with
          | .f32 => if (fp32.val (x 4)).isNan then 0x7FC00000 else x 4
          | .bf16 => (fp32.ofVal .rn (bfl16.val (x 2))).1
          | .f16 => (fp32.ofVal .rn (fp16.val (x 2))).1)) ∧
      (∀ fmt a rows cols sb, m.op = .sta fmt a rows cols sb → rows ≤ 64 → cols ≤ 64 →
        let n := if fmt = .f32 then 4 else if fmt = .e4m3 then 1 else 2
        a + 4096 * n ≤ g.tile.length → g'.acc = g.acc ∧ g'.tile.length = g.tile.length ∧
        (∀ i < rows, ∀ j < cols, leNat (slice g'.tile (a + n * (64 * i + j)) n) = let x := (d i j).val.toNat
          (match fmt with
          | .f32 => x
          | .bf16 => (bfl16.ofVal .rn (fp32.val x)).1
          | .f16 => (fp16.ofVal .rn (fp32.val x)).1
          | .e4m3 => let p := (fp32.val x).times (fp32.val sb.val.toNat)
            if p.nan || p.invalid then 0x7F
            else if p.inf = some true then 0xFE
            else if p.inf = some false then 0x7E
            else (toE4 false (.fin p.term.neg p.term.m p.term.e)).1) % 2 ^ (8 * n)) ∧
        (∀ k, (∀ i < rows, ∀ j < cols, k < a + n * (64 * i + j) ∨ a + n * (64 * i + j) + n ≤ k) → g'.tile.getD k 0 = g.tile.getD k 0) ∧
        (∀ i < rows, ∀ j < cols, (d i j).poi = true ∨ (fmt = .e4m3 ∧ sb.poi = true) → (a + n * (64 * i + j)) / 4 ∈ g'.tpoi)) ∧
      let hurt (off sz n k : Nat) : Prop := (off + 128 * n + 16 * ((sz * k / 16) ^^^ (n % 8)) + sz * k % 16) / 4 ∈ g.tpoi
      (∀ fmt a b sa sb, m.op = .mma fmt a b sa sb → a % 2 = 0 → b % 2 = 0 → ∀ i < 64, ∀ j < 64,
        let sz := if fmt = .e4m3 then 1 else 2
        (d' i j).poi = true ↔ (∃ k < 128 / sz, hurt a sz i k ∨ hurt b sz j k) ∨ (d i j).poi = true ∨
          (fmt = .e4m3 ∧ ((sa.getD i {}).poi = true ∨ sb.poi = true))) ∧
      (∀ fmt desc dpoi b sa sb, m.op = .mmau fmt desc dpoi b sa sb → ∀ i < 64, ∀ j < 64, dpoi = true ∨ (d i j).poi = true ∨
        (fmt = .e4m3 ∧ ((sa.getD i {}).poi = true ∨ sb.poi = true)) → (d' i j).poi = true) ∧
      (∀ fmt a, a % 2 = 0 → ∀ i < 64, ∀ j < 64,
        (m.op = .trn fmt a → ((d' i j).poi = true ↔ ∃ k < 64, hurt a 2 k i)) ∧
        (∀ x xp, m.op = .perm fmt a x xp → ((d' i j).poi = true ↔ xp.getD i false = true ∨ ∃ k < 64, hurt a 2 k j)) ∧
        (m.op = .rsum fmt a false → ((d' i j).poi = true ↔ ∃ k < 64, hurt a 2 i k)) ∧
        (m.op = .rsum fmt a true → ((d' i j).poi = true ↔ ∃ k < 64, hurt a 2 k j))) ∧
      (∀ a, m.op = .lda .f32 a → a % 4 = 0 → ∀ i < 64, ∀ j < 64, (d' i j).poi = true ↔ a / 4 + 64 * i + j ∈ g.tpoi) ∧
      (∀ a sb, m.op = .sta .f32 a 64 64 sb → a + 16384 ≤ g.tile.length → g'.acc = g.acc ∧ g'.tile.length = g.tile.length ∧
        (∀ i < 64, ∀ j < 64, BitVec.ofNat 32 (leNat (slice g'.tile (a + 4 * (64 * i + j)) 4)) = (d i j).val) ∧
        (∀ k, k < a ∨ a + 16384 ≤ k → g'.tile.getD k 0 = g.tile.getD k 0) ∧
        (a % 4 = 0 → nsWf g.tpoi = true → ∀ i < 64, ∀ j < 64, (d i j).poi = true ↔ a / 4 + 64 * i + j ∈ g'.tpoi))))

/-! The delta engine (R208-R228). -/

/-- R211-R214, R218, R223-R225: the delta instructions on a slot that the core holds, on one it does not, and while calls on the layer that came
before are pending. A slot enters the cache invalid, and with count 0, which is the model's choice (logs 19 and 43); the layer number is at
most 4,095. -/
def Obligations.DeltaInstructionResults : Prop := ∀ (e : Env) (h : Hdr) (d : Option Nat) (n : Nat) (a b : Src) (c : Option Nat),
  let layer (i : Instr) : Nat := ((e.at_ i).src a).toNat
  let slot (i : Instr) : Option DSlot := e.s.slot? e.g.core e.g.ctx (layer i)
  let gives (s : State) (v : Word) : Prop := ∀ k, d = some k → e.got s (.v k) v
  let ord := e.t.dwait.getD e.s.e.nextOrd
  let earlier (i : Instr) : Prop := ∃ m ∈ e.s.e.entries, m.core = e.g.core ∧ m.ctx = e.g.ctx ∧ m.ord < ord ∧ ∃ x, m.op = .dmul (layer i) x
  let room : Prop := (e.s.e.slots.filter fun q => q.core == e.g.core && !q.saved).length < 16
  (∀ i ∈ [Instr.dslot h d a, Instr.dmul h n a b c], e.runs i → 4095 < layer i → e.traps i 4 0 (((e.at_ i).src a).setWidth 64) e.t.pc) ∧
  (e.runs (.dslot h d a) → layer (.dslot h d a) ≤ 4095 → ∀ q, slot (.dslot h d a) = some q → q.saved = false ∨ room →
    ∃ s, e.retires (.dslot h d a) s ∧ e.s.sameBytes s ∧ gives s 1) ∧
  (e.runs (.dslot h d a) → layer (.dslot h d a) ≤ 4095 → slot (.dslot h d a) = none → ∀ l,
    let ia := (e.ctx.slotbase.toNat + 64 * layer (.dslot h d a)) % 2 ^ 52
    e.s.readSlot e.g.ctx ia = .ok l → (∀ x ∈ l.drop 32, x.2 = false) → let id := numAt (l.map (·.1)) 56 4
    (id / 2 ^ 31 = 1 → fld id 10 8 ≠ e.g.core → ∃ s, e.retires (.dslot h d a) s ∧ e.s.sameBytes s ∧ gives s 4) ∧
    ((id / 2 ^ 31 = 0 ∨ fld id 10 8 = e.g.core) → (∀ x ∈ l, x.2 = false) → room → (∀ q : DSlot, q.raw = l.map (·.1) → q.bad e.ctx = false) →
      ∀ s1, (e.s.fresh).writeIa e.g.ctx (ia + 56) (pbytes 4 (id % 2 ^ 10 + e.g.core * 2 ^ 10 + fld id 18 13 * 2 ^ 18 + 2 ^ 31) false) = .ok s1 → s1.wgs = e.s.wgs →
      s1.e.slots = e.s.e.slots → ∃ s q, e.retires (.dslot h d a) s ∧ s1.sameBytes s ∧ s.e.slots = e.s.e.slots ++ [q] ∧ q.valid = false ∧ q.count = 0 ∧
        q.layer = layer (.dslot h d a) ∧ q.raw = l.map (·.1) ∧ (s1.m.freeWatch.isSome = true → gives s 0 ∧ q.watch = s1.m.freeWatch) ∧
        (s1.m.freeWatch = none → gives s 2 ∧ q.watch = none))) ∧
  (e.runs (.dmul h n a b c) → layer (.dmul h n a b c) ≤ 4095 → ∀ q, slot (.dmul h n a b c) = some q → q.saved = false ∨ room →
    let i : Instr := .dmul h n a b c
    let x := ((e.at_ i).src b).toNat
    let len := 2 * q.k * q.m
    (n + q.n / 64 ≤ e.g.accum → x + len ≤ e.g.tile.length → x % 32 = 0 → (e.s.e.freeIdx e.g.core).isSome = true →
      (∀ k ∈ granulesOf x len, (e.g.gran.getD k {}).ref < 255) → ∃ s m, e.retires i s ∧ e.s.sameBytes s ∧ s.e.entries = e.s.e.entries ++ [m] ∧
        m.op = .dmul (layer i) x ∧ m.d = n ∧ m.slot = e.g.slot ∧ m.core = e.g.core ∧ m.granted = none) ∧
    (e.g.accum < n + q.n / 64 → ∃ s t, exec i e.s = .next s ∧ e.thr s = some t ∧ t.tcause = 4 ∧ t.run = .trapPending ∧ t.taddr = e.t.pc)) ∧
  (∀ i ∈ [Instr.dfresh h a, Instr.dinval h d a, Instr.dstat h n a b], e.runs i → earlier i → e.blocks i e.s (.delta (layer i) ord)) ∧
  (e.runs (.dfresh h a) → ¬earlier (.dfresh h a) → ∃ s, e.retires (.dfresh h a) s ∧ e.s.sameBytes s ∧
    s.slot? e.g.core e.g.ctx (layer (.dfresh h a)) = (slot (.dfresh h a)).map fun q => { q with valid := false }) ∧
  (e.runs (.dinval h d a) → ¬earlier (.dinval h d a) →
    (slot (.dinval h d a) = none → ∃ s, e.retires (.dinval h d a) s ∧ e.s.sameBytes s ∧ gives s 1) ∧
    ∀ q s1, slot (.dinval h d a) = some q → e.s.evictSlot { q with valid := false } = .ok s1 → s1.wgs = e.s.wgs →
      ∃ s, e.retires (.dinval h d a) s ∧ s1.sameBytes s ∧ gives s 0 ∧ s.slot? e.g.core e.g.ctx (layer (.dinval h d a)) = none) ∧
  (e.runs (.dstat h n a b) → ¬earlier (.dstat h n a b) → ∃ s, e.retires (.dstat h n a b) s ∧ e.s.sameBytes s ∧
    (slot (.dstat h n a b) = none → e.got s (.v n) 0) ∧
    ∀ q, slot (.dstat h n a b) = some q → e.got s (.v n) (BitVec.ofNat 32 (match ((e.at_ (.dstat h n a b)).src b).toNat % 8 with
      | 0 => q.versionSeen.toNat
      | 1 => e.s.versionOf q
      | 2 => 2 ^ 31 + ((if q.valid then 1 else 0) + if q.watch.isSome then 2 else 0) * 2 ^ 16 + q.count
      | 3 => 2 ^ 31 + q.core * 1024 + q.watch.getD 0x3FF
      | 4 => q.skipped
      | 5 => q.computed
      | 6 => q.calls
      | _ => q.fulls)))

/-- R219-R223, R227: the end of a call. Its tiles are written when its steps are done; y_prev goes out row by row and x_prev vector by vector
(a full call writes x exactly, an incremental one adds q times s and leaves an element whose q is zero); then the slot is valid, a full call
takes the version it read and starts the count again, and the entry is gone. That the tiles and each unit are written at one instant is the
model's choice (log 10).

R203, R216, R219: the grant. A call reads its version, is full or incremental by it and by what x, x_prev and y_prev hold, and takes one step
for each block that it does not skip and each column block; a call without steps leaves the step to others. R219: the quantisation of a
vector, its exponent the smallest that holds its largest element. R220: the tiles. -/
def Obligations.DeltaWriteBack : Prop :=
  (∀ (s : State) (m : MEnt) (layer x : Nat) (r : DRun) (q : DSlot) (g : Workgroup),
  s.e.entries.filter (fun y => y.core == m.core && y.idx == m.idx) = [m] → m.op = .dmul layer x → m.drun = some r → r.steps = 0 →
  s.slot? m.core m.ctx layer = some q → q.layer = layer → s.wg? m.core m.slot = some g → (s.ctx m.ctx).runs = true → g.resident = true →
  let i : Instr := .deltaWriteback m.core m.idx
  let run (s' : State) (f : DRun) : Prop := s'.e.entries.filter (fun y => y.core == m.core && y.idx == m.idx) = [{ m with drun := some f, heldOn := 0 }]
  (r.writing = false → r.computed ≠ 0 → s.now < m.granted.getD 0 + 16 → exec i s = .next s) ∧
  (∀ ts, r.writing = false → (r.computed = 0 ∨ m.granted.getD 0 + 16 ≤ s.now) → s.callTiles q g r x = .ok ts → m.d + ts.length ≤ g.acc.length →
    ∃ s' g', exec i s = .next s' ∧ s.sameBytes s' ∧ s'.wg? m.core m.slot = some g' ∧ run s' { r with writing := true } ∧
      ∀ k < ts.length, g'.acc.getD (m.d + k) [] = ts.getD k []) ∧
  (∀ s1, r.writing = true → r.units < q.m → s.writeIa q.ctx (q.yprev + 4 * q.n * r.units) ((List.range q.n).flatMap fun n =>
      let v := (g.acc.getD (m.d + n / 64) []).getD (64 * r.units + n % 64) {}
      pbytes 4 v.val.toNat v.poi) = .ok s1 → s1.e.entries = s.e.entries →
    ∃ s', exec i s = .next s' ∧ s1.sameBytes s' ∧ run s' { r with units := r.units + 1 }) ∧
  (∀ old s1, r.writing = true → q.m ≤ r.units → r.units < q.m + q.m * (q.k / 128) →
    let row := (r.units - q.m) / (q.k / 128)
    let blk := (r.units - q.m) % (q.k / 128)
    let ia := q.xprev + 4 * (q.k * row + 128 * blk)
    let xe (k : Nat) : Nat × Bool := g.tileNum (x + 2 * (q.k * row + (128 * blk + k))) 2
    let o (k : Nat) : Nat × Bool := pnumAt old (4 * k) 4
    let v := quantise q.tau ((List.range 128).map fun k => (fp32.dot .rn false [(bfl16.val (xe k).1).asProd, (fp32.val (o k).1).flip.asProd]).1)
    let bad := (List.range 128).any fun k => (xe k).2
    s.readIa q.ctx ia 512 = .ok old → s.writeIa q.ctx ia ((List.range 128).flatMap fun k =>
      if r.full then pbytes 4 ((xe k).1 * 2 ^ 16) (xe k).2
      else if v.q.getD k 0 % 128 = 0 then pbytes 4 (o k).1 ((o k).2 || bad)
      else pbytes 4 (mac (fp8.val (v.q.getD k 0)) (.fin false 1 v.e) (o k).1) ((o k).2 || bad)) = .ok s1 → s1.e.entries = s.e.entries →
    ∃ s', exec i s = .next s' ∧ s1.sameBytes s' ∧ run s' { r with units := r.units + 1 }) ∧
  (r.writing = true → q.m + q.m * (q.k / 128) ≤ r.units → (s.ctx m.ctx).halt.high = false → ∃ s' q', exec i s = .next s' ∧ s.sameBytes s' ∧
    s'.e.entries = s.e.entries.filter (fun y => !(y.core == m.core && y.idx == m.idx)) ∧ s'.slot? m.core m.ctx layer = some q' ∧
    q'.valid = true ∧ q'.calls = q.calls + 1 ∧ q'.skipped = r.skipped ∧ q'.computed = r.computed ∧
    (r.full = true → q'.versionSeen = r.version ∧ q'.count = 0 ∧ q'.fulls = q.fulls + 1) ∧
    (r.full = false → q'.versionSeen = q.versionSeen ∧ q'.count = q.count + 1 ∧ q'.fulls = q.fulls))) ∧
  (∀ (s : State) (m : MEnt) (layer x : Nat) (q : DSlot) (g : Workgroup) (r : DRun),
    s.e.step.getD m.core 0 ≤ s.now → m.core < s.e.step.length → s.e.entries.filter (fun y => y.core == m.core && s.grantable y) = [m] →
    s.e.entries.filter (fun y => y.core == m.core && y.idx == m.idx) = [m] → m.op = .dmul layer x →
    s.slot? m.core m.ctx layer = some q → s.wg? m.core m.slot = some g →
    let v := m.vread.getD (BitVec.ofNat 32 (s.versionOf q))
    m.drun = none → s.startCall q g x v.toNat = .ok r → ∃ s' y, exec (.matrixGrant m.core) s = .next s' ∧ s.sameBytes s' ∧ s'.wgs = s.wgs ∧
      s'.e.entries.filter (fun y => y.core == m.core && y.idx == m.idx) = [y] ∧ y.granted = some s.now ∧ y.vread = some v ∧ y.op = m.op ∧
      (r.steps = 0 → y.drun = some r ∧ s'.e.step = s.e.step) ∧
      (r.steps ≠ 0 → y.drun = some { r with steps := r.steps - 1 } ∧ s'.e.step.getD m.core 0 = s.now + 16)) ∧
  (∀ (s : State) (q : DSlot), (q.watch = none → s.versionOf q = 2 ^ 32 - 1) ∧
    ∀ n w, q.watch = some n → s.m.watches.find? (·.n == n) = some w →
      s.versionOf q = if ∃ c ∈ w.cnt, 0x3FFFFFFF ≤ c then 2 ^ 32 - 1 else w.cnt.foldl (· + ·) 0) ∧
  (∀ (s : State) (q : DSlot) (g : Workgroup) (x v : Nat) (xs ys : List (List PByte)),
    s.readRows q.ctx q.xprev (4 * q.k) q.m = .ok xs → s.readRows q.ctx q.yprev (4 * q.n) q.m = .ok ys →
    let nb := q.k / 128
    let xe (i b k : Nat) : Nat × Bool := g.tileNum (x + 2 * (q.k * i + (128 * b + k))) 2
    let d (i b k : Nat) : Nat :=
      (fp32.dot .rn false [(bfl16.val (xe i b k).1).asProd, (fp32.val (pnumAt (xs.getD i []) (4 * (128 * b + k)) 4).1).flip.asProd]).1
    let vec (i b : Nat) : Quant := quantise q.tau ((List.range 128).map (d i b))
    let skip (b : Nat) : Bool := (List.range q.m).all fun i => (vec i b).q.all fun z => z % 128 == 0
    (∃ r, s.startCall q g x v = .ok r ∧ r.version = BitVec.ofNat 32 v ∧ r.writing = false ∧ r.units = 0 ∧
      (r.full = true ↔ q.valid = false ∨ q.watch = none ∨ v ≠ q.versionSeen.toNat ∨ v = 2 ^ 32 - 1 ∨ q.period ≤ q.count ∨
        (∃ l ∈ xs ++ ys, ∃ y ∈ l, y.2 = true) ∨ ∃ i < q.m, ∃ b < nb, (∃ k < 128, 0x7F800000 ≤ d i b k % 2 ^ 31) ∨
          q.tau < (vec i b).big ∧ q.expLimit < (vec i b).e) ∧
      r.skipped = (if r.full then 0 else ((List.range nb).filter skip).length) ∧ r.computed = nb - r.skipped ∧
      r.steps = (nb - r.skipped) * (q.n / 64)) ∧
    ∀ (r : DRun) (w sw : Nat → Nat → List PByte),
      (∀ b < nb, ∀ c < q.n / 64, s.readIa q.ctx (q.weight + 8192 * (b * (q.n / 64) + c)) 8192 = .ok (w b c) ∧
        s.readIa q.ctx (q.scale + 4 * (b * (q.n / 64) + c)) 4 = .ok (sw b c)) →
      ∃ ts, s.callTiles q g r x = .ok ts ∧ ts.length = q.n / 64 ∧ ∀ c < q.n / 64, ∀ i < 64, ∀ j < 64,
        let el := (ts.getD c []).getD (64 * i + j) {}
        let wb (b k : Nat) : PByte := (w b c).getD (128 * j + 16 * ((k / 16) ^^^ (j % 8)) + k % 16) (0, false)
        let y := pnumAt (ys.getD i []) (4 * (64 * c + j)) 4
        let blocks := (List.range nb).filter fun b => r.full || !skip b
        (q.m ≤ i → el = {}) ∧
        (i < q.m → el.val = BitVec.ofNat 32 (blocks.foldl (fun acc b =>
            let p := (List.range 128).foldl (fun a k =>
              mac (if r.full then bfl16.val (xe i b k).1 else fp8.val ((vec i b).q.getD k 0)) (fp8.val (wb b k).1.toNat) a) 0
            let sc := if r.full then Val.fin false 1 0 else Val.fin false 1 (vec i b).e
            (BitVec.ofNat 32 (mac (fp32.val p) (fp32.val (fp32.dot .rn false [sc.times (fp32.val (pnum (sw b c)).1)]).1) acc)).toNat)
              (if r.full then 0 else y.1 % 2 ^ 32)) ∧
          (el.poi = true ↔ (r.full = false ∧ y.2 = true) ∨ (∃ k < q.k, (g.tileNum (x + 2 * (q.k * i + k)) 2).2 = true) ∨
            ∃ b ∈ blocks, (pnum (sw b c)).2 = true ∨ ∃ k < 128, (wb b k).2 = true))) ∧
  ∀ (tau : Nat) (l : List Nat), l ≠ [] → (∀ z ∈ l, z % 2 ^ 31 < 0x7F800000) →
    let u := quantise tau l
    u.d = l ∧ (∀ z ∈ l, z % 2 ^ 31 ≤ u.big) ∧ (∃ z ∈ l, u.big = z % 2 ^ 31) ∧ (u.big ≤ tau → u.e = 0) ∧
    (∀ n k e j, tau < u.big → fp32.val u.big = .fin n k e → j ≤ e → j + 1 ≤ u.e →
      scaled false k e j ≤ scaled false 448 u.e j ∧ scaled false 448 (u.e - 1) j < scaled false k e j) ∧
    u.q.length = l.length ∧ ∀ t < l.length, (l.getD t 0 % 2 ^ 31 ≤ tau → u.q.getD t 0 = 0) ∧
      ∀ n k e, tau < l.getD t 0 % 2 ^ 31 → fp32.val (l.getD t 0) = .fin n k e → u.q.getD t 0 = (toE4 false (.fin n k (e - u.e))).1

/-! Engine commands (R229-R246). -/

/-- R229, R234, R246: an ecmd whose tile-store offsets lie in the allocation and are aligned, with room in its engine's queue and
in REF, puts one command into the queue, raises REF of its block's granule, and D awaits the reply; an offset outside
traps with cause 4, a misaligned one with cause 3. cstat and wcnt reply at once. -/
def Obligations.EngineCommandIssue : Prop := ∀ (e : Env) (h : Hdr) (d : Option Reg) (a b : Src),
  let issues (i : Instr) (eng fn : Nat) (block : Bool) : Prop := e.runs i →
    let x := (e.at_ i).src a
    let y := (e.at_ i).src b
    let word : Bool := block && y != 0xFFFFFFFF
    let names (k : Nat) : Prop := block = true ∧ k = x.toNat / 1024
    (block = true → e.g.tile.length ≤ x.toNat → e.traps i 4 0 (x.setWidth 64) e.t.pc) ∧
    (block = true → x.toNat < e.g.tile.length → word = false → x.toNat % 64 ≠ 0 → e.traps i 3 0 (x.setWidth 64) e.t.pc) ∧
    ((block = true → x.toNat < e.g.tile.length ∧ x.toNat % 64 = 0) → (word = true → y.toNat < e.g.tile.length ∧ y.toNat % 16 = 0) →
      (e.s.e.cmds.filter fun c => c.core == e.g.core && c.eng == eng && c.state == .issued).length < 16 →
      (∀ k, names k → (e.g.gran.getD k {}).ref < 255) →
      ∃ s q g, e.retires i s ∧ e.s.sameBytes s ∧ s.e.cmds = e.s.e.cmds ++ [q] ∧ q.id = e.s.nextId ∧ q.core = e.g.core ∧ q.eng = eng ∧
        q.fn = fn ∧ q.ctx = e.g.ctx ∧ q.slot = e.g.slot ∧ q.tid = e.t.tid ∧ q.a = x ∧ (block = true → q.b = y) ∧ q.dst = d ∧
        q.state = .issued ∧ e.wg s = some g ∧ g.tile = e.g.tile ∧ (∀ r, d = some r → e.awaitingReg s q.id r 1) ∧
        ∀ k < e.g.gran.length, (names k → g.gran.getD k {} = { e.g.gran.getD k {} with ref := (e.g.gran.getD k {}).ref + 1 }) ∧
          (¬names k → g.gran.getD k {} = e.g.gran.getD k {}))
  issues (.cpy h d a b) 0 0 true ∧ issues (.cpyx h d a b) 0 1 true ∧ issues (.cpyk h d a b) 0 2 true ∧ issues (.cpyz h d a b) 0 3 true ∧
  issues (.bsopen h d a b) 0 4 true ∧ issues (.bsrow h d a b) 0 5 true ∧ issues (.bsclose h d a) 0 6 false ∧
  issues (.bkon h d a b) 1 0 true ∧ issues (.bkoff h d a) 1 1 false ∧ issues (.bkact h d a b) 1 2 true ∧ issues (.bkbc h d a b) 1 3 true ∧
  issues (.bkmac h d a b) 1 4 true ∧ issues (.bkred h d a b) 1 5 true ∧ issues (.bkrd h d a b) 1 6 true ∧ issues (.bkclr h d a b) 1 7 true ∧
  issues (.maxpy h d a b) 2 0 true ∧ issues (.mscal h d a b) 2 1 true ∧ issues (.msum h d a b) 2 2 true ∧ issues (.mfill h d a b) 2 3 true ∧
  issues (.fput h d a b) 3 0 true ∧ issues (.fputs h d a b) 3 1 true ∧ issues (.fget h d a b) 3 2 true ∧
  (e.runs (.cstat h d a b) → ∃ s, e.retires (.cstat h d a b) s ∧ e.s.sameBytes s ∧ s.e = e.s.e ∧ ∀ r, d = some r →
    let tok := ((e.at_ (.cstat h d a b)).src a).toNat % 2 ^ 16
    let eng := ((e.at_ (.cstat h d a b)).src b).toNat % 4
    (∀ t ∈ e.s.e.toks, t.core = e.g.core → t.ctx = e.g.ctx → t.eng = eng → t.tok ≠ tok) → e.got s r 0) ∧
  (∀ t, e.runs (.cstat h d a b) → (e.s.e.toks.find? fun t => t.core == e.g.core && t.ctx == e.g.ctx &&
      t.eng == ((e.at_ (.cstat h d a b)).src b).toNat % 4 && t.tok == ((e.at_ (.cstat h d a b)).src a).toNat % 2 ^ 16) = some t →
    t.state < 4 → t.n < 2 ^ 30 →
    ∃ s, e.retires (.cstat h d a b) s ∧ ∀ r, d = some r → e.got s r (BitVec.ofNat 32 (t.state * 2 ^ 30 + t.n))) ∧
  (e.runs (.wcnt h d a b) → ∃ s, e.retires (.wcnt h d a b) s ∧ e.s.sameBytes s ∧ s.e = e.s.e ∧ ∀ r, d = some r →
    ∀ w ∈ e.ctx.wincount, w.n = ((e.at_ (.wcnt h d a b)).src a).toNat % 256 → (∀ w' ∈ e.ctx.wincount, w'.n = w.n → w' = w) →
      let k := ((e.at_ (.wcnt h d a b)).src b).toNat
      (k = 0 → e.got s r (w.issued.setWidth 32)) ∧ (k = 1 → e.got s r ((w.issued >>> 32).setWidth 32)) ∧
      (k = 2 → e.got s r (w.completed.setWidth 32)) ∧ (k = 3 → e.got s r ((w.completed >>> 32).setWidth 32)))

/-- R229-R244: the oldest waiting command of an engine, but for those that a page holds, is accepted with the next token of its
context, core and engine, or refused with the code of its failing check, the lowest one that holds (log 16); what an accepted command
then does; and a command ended in error keeps the bytes already written, writes nothing more and sets the error flag. Completions are
stated where no self-test runs.

R236-R239: the Retriever's copies, byte by byte: the panels and the elements of each storage format, the scales, the compressed form both
ways, and the predicate bits of cpyz. R240-R243: streams and sessions open, rows are read, and a session's commands work on its vectors
and accumulators. R244: the memory-side unit does a sector of y at a time, msum as a whole (log 17 for a partial block). That a
copy takes its source bytes at one instant is the model's choice (log 10). -/
def Obligations.EngineCommandLife : Prop :=
  (∀ (s : State) (c : Cmd) (g : Workgroup),
  s.e.cmds.find? (·.id == c.id) = some c → s.wg? c.core c.slot = some g → g.uid = c.uid → (s.ctx c.ctx).runs = true → g.resident = true →
  let who : Who := { core := c.core, slot := c.slot, tid := c.tid, uid := c.uid, pc := c.pc, issued := 0 }
  let gone (s' : State) : Prop := ∀ q ∈ s'.e.cmds, q.id ≠ c.id
  let status (s' : State) (st n : Nat) : Prop := ∃ t ∈ s'.e.toks, t.core = c.core ∧ t.ctx = c.ctx ∧ t.eng = c.eng ∧ t.tok = c.tok ∧
    t.state = st ∧ t.n = n
  let flagged (s' : State) : Prop := c.b.toNat ≠ noWord → c.b.toNat + 16 ≤ g.tile.length → ∃ g', s'.wg? c.core c.slot = some g' ∧
    g'.tileWord (c.b.toNat + 12) = g.tileWord (c.b.toNat + 12) ||| 2 ∧ g'.tileWord (c.b.toNat + 4) = g.tileWord (c.b.toNat + 4)
  let blk := if c.block then slice g.tile c.a.toNat 64 else []
  (c.state = .issued → (∀ x ∈ s.e.cmds, x.core = c.core → x.eng = c.eng → x.state = .issued → c.id ≤ x.id ∨ x.heldOn.isSome = true) →
    (∀ k, s.examine c g blk = .ok (.error k) → ∃ s', exec (.cmdAccept c.id) s = .next s' ∧ gone s' ∧ s.sameBytes s' ∧
      (∀ n, c.dst = some (.v n) → s.gave s' who n (BitVec.ofNat 32 (2 ^ 31 + k))) ∧ flagged s') ∧
    (∀ ranges, s.examine c g blk = .ok (.ok ranges) → (g.lowerRef c.ref).refRoom (rangeGranules ranges) = true → s.bkonWaits c blk = false →
      let tok := s.e.nextTok c.core c.ctx c.eng
      ∃ s' q, exec (.cmdAccept c.id) s = .next s' ∧ s.sameBytes s' ∧ s'.e.cmds.find? (·.id == c.id) = some q ∧ q.state = .accepted ∧
        q.tok = tok ∧ q.blk = blk ∧ s'.e.nextTok c.core c.ctx c.eng = (tok + 1) % 2 ^ 16 ∧
        (∀ n, c.dst = some (.v n) → s.gave s' who n (BitVec.ofNat 32 tok)) ∧
        ∀ ia home x, s.frameOf c (numAt blk 0 8) = .ok (some (ia, home, x)) →
          (c.eng = 0 → c.fn = 4 → ∃ z ∈ s'.e.streams, z.core = c.core ∧ z.ctx = c.ctx ∧ z.tok = tok ∧ z.stack = stackOf x.pa ∧
            z.pch = pchOf x.pa ∧ z.bank = bankOf x.pa ∧ z.row = rowOf x.pa ∧ z.since = s.now) ∧
          (c.eng = 1 → c.fn = 0 → ∃ z ∈ s'.e.sessions, z.core = c.core ∧ z.ctx = c.ctx ∧ z.tok = tok ∧ z.stack = stackOf x.pa ∧
            z.pch = pchOf x.pa ∧ z.row = none ∧ ∀ b < 16, ∀ l < 16, (∀ k < 16, getX z.x b k l = {}) ∧ ∀ k < 8, getX z.acc b k l = {}))) ∧
  (c.state = .accepted → c.sent = 0 → s.e.turn c = true → s.y.selfTests = [] →
    let ends (st n : Nat) (P : State → Prop) : Prop := ∃ s', exec (.engineCommandComplete c.id) s = .next s' ∧ gone s' ∧
      ((∃ t ∈ s.e.toks, t.core = c.core ∧ t.ctx = c.ctx ∧ t.eng = c.eng ∧ t.tok = c.tok) → status s' st n) ∧ P s'
    let done (n : Nat) (P : State → Prop) : Prop := ends 0 n fun s' => s.sameBytes s' ∧ P s'
    let tiles (s' : State) (P : (Nat → Byte) → Prop) : Prop := ∃ g', s'.wg? c.core c.slot = some g' ∧ P fun k => g'.tile.getD k 0
    let old (k : Nat) : Byte := g.tile.getD k 0
    (∀ r k, c.eng ≤ 1 → s.runCmd c g c.total = .ok r → r.err = some k → ends 3 k fun s' => r.s.sameBytes s' ∧ (r.s.wgs = s.wgs → flagged s')) ∧
    ((c.eng = 0 ∧ (c.fn = 5 ∧ s.stream? c.core c.ctx (c.num 0 4) = none ∨ c.fn = 6 ∧ s.stream? c.core c.ctx c.a.toNat = none)) ∨
      (c.eng = 1 ∧ (c.fn = 1 ∧ s.session? c.core c.ctx c.a.toNat = none ∨ 2 ≤ c.fn ∧ s.session? c.core c.ctx (c.num 0 4) = none)) →
      ends 3 6 fun s' => s.sameBytes s' ∧ flagged s') ∧
    (c.eng = 0 → c.fn = 0 → let q := copyOf 0 c.blk
      q.srcTile = true → q.dstTile = true → q.src + q.cnt ≤ g.tile.length → q.dst + q.cnt ≤ g.tile.length → c.b.toNat = noWord →
      done q.cnt fun s' => tiles s' fun new => ∀ k, new k = if q.dst ≤ k ∧ k < q.dst + q.cnt then old (q.src + (k - q.dst)) else old k) ∧
    (∀ l s1, c.eng = 0 → c.fn = 0 → let q := copyOf 0 c.blk
      s.fetchLoc c g q.srcTile q.src q.cnt = .ok (some l) → l.length = q.cnt → q.dstTile = false →
      (s.keepRead c q.srcTile q.src q.cnt).putLoc c false (q.dst, l) = .ok (some s1) → ends 0 q.cnt s1.sameBytes) ∧
    (∀ l, c.eng = 0 → c.fn = 1 → let q := copyOf 1 c.blk
      q.fmt ≤ 3 → s.fetchLoc c g q.srcTile q.src (q.srcLen 0) = .ok (some l) → l.length = q.srcLen 0 →
      let base (p : Nat) : Nat := if q.fmt = 0 then 16416 * (p / 2) else 8448 * p
      let m := if q.scaled then q.scaleBytes * q.cnt else 0
      (q.dstTile = true → c.b.toNat = noWord → q.dst + 8192 * q.panels ≤ g.tile.length →
        (q.scaled = true → q.sdst + m ≤ g.tile.length ∧ (q.sdst + m ≤ q.dst ∨ q.dst + 8192 * q.panels ≤ q.sdst)) →
        done (8192 * q.panels + m) fun s' => tiles s' fun new =>
          (∀ p < q.panels, ∀ o < 8192, new (q.dst + 8192 * p + o) = ((q.panel (0, false) l p).getD o (0, false)).1) ∧
          (q.scaled = true → ∀ p < q.cnt, ∀ k < q.scaleBytes, new (q.sdst + q.scaleBytes * p + k) = (l.getD (base p + k) (0, false)).1) ∧
          ∀ k, (k < q.dst ∨ q.dst + 8192 * q.panels ≤ k) → (q.scaled = true → k < q.sdst ∨ q.sdst + m ≤ k) → new k = old k) ∧
      ∀ s1, q.dstTile = false → (s.keepRead c q.srcTile q.src (q.srcLen 0)).putAll c false
          ((List.range q.panels).map (fun p => (q.dst + 8192 * p, (q.panel (0, false) l p).map some)) ++
            if q.scaled then (List.range q.cnt).map (fun p => (q.sdst + q.scaleBytes * p, ((l.drop (base p)).take q.scaleBytes).map some)) else []) = .ok (some s1) →
        ends 0 (8192 * q.panels + m) s1.sameBytes) ∧
    (∀ start : Nat → Nat, c.eng = 0 → c.fn = 1 → let q := copyOf 1 c.blk
      let here (k : Nat) : List Nat := (List.range (min 64 (q.cnt - 64 * k))).filter fun j => leNat (slice g.tile (start k) 8) / 2 ^ j % 2 == 1
      q.fmt = 4 → q.srcTile = true → q.dstTile = true → c.b.toNat = noWord → start 0 = q.src →
      (∀ k < q.groups, start (k + 1) = start k + 8 + 8192 * (here k).length) → start q.groups ≤ g.tile.length → q.dst + 8192 * q.cnt ≤ g.tile.length →
      done (8192 * q.cnt) fun s' => tiles s' fun new =>
        (∀ p < q.cnt, ∀ o < 8192, new (q.dst + 8192 * p + o) = if p % 64 ∈ here (p / 64)
          then old (start (p / 64) + 8 + 8192 * ((here (p / 64)).filter fun j => decide (j < p % 64)).length + o) else 0) ∧
        ∀ k, k < q.dst ∨ q.dst + 8192 * q.cnt ≤ k → new k = old k) ∧
    (∀ l, c.eng = 0 → c.fn = 2 → let q := copyOf 2 c.blk
      (q.fmt = 2 ∨ q.fmt = 3) → s.fetchLoc c g q.srcTile q.src (q.srcLen 0) = .ok (some l) → l.length = q.srcLen 0 →
      (q.dstTile = true → c.b.toNat = noWord → 2 * q.nc ≤ q.pitch → q.dst + q.pitch * (q.cnt - 1) + 2 * q.nc ≤ g.tile.length →
        done (2 * q.cnt * q.nc) fun s' => tiles s' fun new =>
          (∀ r < q.cnt, ∀ x < q.nc, ∀ k < 2, new (q.dst + q.pitch * r + (2 * x + k)) = ((q.element (0, false) l r x).getD k (0, false)).1) ∧
          ∀ k, (∀ r < q.cnt, k < q.dst + q.pitch * r ∨ q.dst + q.pitch * r + 2 * q.nc ≤ k) → new k = old k) ∧
      ∀ s1, q.dstTile = false → (s.keepRead c q.srcTile q.src (q.srcLen 0)).putAll c false ((List.range q.cnt).map fun r =>
          (q.dst + q.pitch * r, ((List.range q.nc).flatMap (q.element (0, false) l r)).map some)) = .ok (some s1) →
        ends 0 (2 * q.cnt * q.nc) s1.sameBytes) ∧
    (∀ l, c.eng = 0 → c.fn = 2 → let q := copyOf 2 c.blk
      q.fmt = 4 → s.fetchLoc c g q.srcTile q.src (8192 * q.cnt) = .ok (some l) → l.length = 8192 * q.cnt →
      let pan (k : Nat) : List PByte := (l.drop (8192 * k)).take 8192
      let zero (k : Nat) : Bool := if q.onBytes then (pan k).all fun b => b.1.toNat % 128 == 0
        else (List.range 4096).all fun j => (pnumAt (pan k) (2 * j) 2).1 % 32768 == 0
      let keep (k : Nat) : List Nat := (List.range (min 64 (q.cnt - 64 * k))).filter fun j => !zero (64 * k + j)
      let out : List PByte := (List.range q.groups).flatMap fun k =>
        pbytes 8 ((keep k).foldl (fun a j => a + 2 ^ j) 0) false ++ (keep k).flatMap fun j => pan (64 * k + j)
      (q.dstTile = true → c.b.toNat = noWord → q.dst + out.length ≤ g.tile.length → done out.length fun s' => tiles s' fun new =>
        ∀ k, new k = if q.dst ≤ k ∧ k < q.dst + out.length then (out.getD (k - q.dst) (0, false)).1 else old k) ∧
      ∀ s1, q.dstTile = false → (s.keepRead c q.srcTile q.src (8192 * q.cnt)).putLoc c false (q.dst, out) = .ok (some s1) →
        ends 0 out.length s1.sameBytes) ∧
    (c.eng = 0 → c.fn = 3 → c.num 5 1 < g.k.length → c.num 0 4 / 8192 + c.num 4 1 ≤ 64 → c.num 0 4 + 8192 * c.num 4 1 ≤ g.tile.length →
      c.b.toNat = noWord → done (8192 * c.num 4 1) fun s' => ∃ g', s'.wg? c.core c.slot = some g' ∧ g'.tile = g.tile ∧ ∀ now rd, ∀ j < 64,
        let read (x : Workgroup) : DWord := ((x.k.getD (c.num 5 1) { base := 0 }).readOwn now rd (keyK (c.num 5 1))).1
        let n := j - c.num 0 4 / 8192
        (read g').getLsbD j = if c.num 0 4 / 8192 ≤ j ∧ n < c.num 4 1 then decide (∃ o < 4096,
            let x := old (c.num 0 4 + 8192 * n + 2 * o)
            let y := old (c.num 0 4 + 8192 * n + 2 * o + 1)
            (if c.num 6 1 = 1 then x.toNat % 128 else x.toNat) ≠ 0 ∨ y.toNat % 128 ≠ 0)
          else (read g).getLsbD j) ∧
    (∀ (q : Stream) (l : Nat → List PByte), c.eng = 0 → c.fn = 5 → s.stream? c.core c.ctx (c.num 0 4) = some q → c.num 4 4 + 32 * c.num 9 1 ≤ g.tile.length → c.b.toNat = noWord →
      (∀ t < c.num 9 1, s.readPiece c.ctx q.home (q.page + arrayPa q.stack q.pch q.row q.bank (c.num 8 1 + t) % 2 ^ 16) 32 = .ok (l t) ∧ (l t).length = 32) →
      done (32 * c.num 9 1) fun s' => tiles s' fun new => (∀ t < c.num 9 1, ∀ k < 32, new (c.num 4 4 + 32 * t + k) = ((l t).getD k (0, false)).1) ∧
        ∀ k, k < c.num 4 4 ∨ c.num 4 4 + 32 * c.num 9 1 ≤ k → new k = old k) ∧
    (c.eng = 0 → c.fn = 6 → (s.stream? c.core c.ctx c.a.toNat).isSome = true → done 0 fun s' => s'.stream? c.core c.ctx c.a.toNat = none ∧
      ∀ q ∈ s.e.streams, q.tok ≠ c.a.toNat → q ∈ s'.e.streams) ∧
    (c.eng = 0 → c.fn = 4 → done 1 fun s' => s'.e.streams = s.e.streams) ∧ (c.eng = 1 → c.fn = 0 → done 1 fun s' => s'.e.sessions = s.e.sessions) ∧
    (c.eng = 1 → c.fn = 1 → (s.session? c.core c.ctx c.a.toNat).isSome = true → done 0 fun s' => s'.session? c.core c.ctx c.a.toNat = none ∧
      ∀ q ∈ s.e.sessions, q.tok ≠ c.a.toNat → q ∈ s'.e.sessions) ∧
    (∀ q, c.eng = 1 → s.session? c.core c.ctx (c.num 0 4) = some q → q.x.length = 16 → (∀ b ∈ q.x, b.length = 16) →
      q.acc.length = 16 → (∀ b ∈ q.acc, b.length = 8 ∧ ∀ r ∈ b, r.length = 16) →
      let leaves (n : Nat) (P : Session → Prop) : Prop := done n fun s' => ∃ q', s'.session? c.core c.ctx (c.num 0 4) = some q' ∧ P q'
      let masked (a : Nat) : Bool := c.num 4 1 / 2 ^ a % 2 == 1
      (∀ ia home x, c.fn = 2 → s.frameOf c (c.num 8 8) = .ok (some (ia, home, x)) → s.y.allowed c.ctx (secOf ia) 32 true false = true →
        leaves 1 fun q' => q'.row = some (rowOf x.pa) ∧ q'.x = q.x ∧ q'.acc = q.acc) ∧
      (c.fn = 3 → c.num 4 1 < 16 → leaves 32 fun q' => q'.acc = q.acc ∧ q'.row = q.row ∧ ∀ b < 16, ∀ k < 16, ∀ l < 16,
        getX q'.x b k l = if k = c.num 4 1 then { val := BitVec.ofNat 32 (c.num (0x20 + 2 * l) 2) } else getX q.x b k l) ∧
      (c.fn = 4 → q.row = none → ends 3 6 fun s' => s.sameBytes s' ∧ flagged s') ∧
      (∀ w, c.fn = 4 → q.row = some w → leaves 1 fun q' => q'.x = q.x ∧ q'.row = q.row ∧ ∀ b < 16, ∀ a < 8, ∀ l < 16,
        let el (t : Nat) : Nat × Bool := pnumAt (s.arraySector q
          (q.stack * 2 ^ 36 + w * 2 ^ 20 + b * 2 ^ 16 + (c.num 4 1 + t) * 2 ^ 11 + 32 * (q.pch ^^^ (32 * (b % 2) + (c.num 4 1 + t))))) (2 * l) 2
        let x (t : Nat) : PWord := getX q.x b ((c.num 6 1 + t) % 16) l
        (a ≠ c.num 7 1 → getX q'.acc b a l = getX q.acc b a l) ∧
        (a = c.num 7 1 → (getX q'.acc b a l).val = BitVec.ofNat 32 ((List.range (c.num 5 1)).foldl
            (fun v t => mac (fp16.val (el t).1) (fp16.val (x t).val.toNat) v % 2 ^ 32) (getX q.acc b a l).val.toNat) ∧
          ((getX q'.acc b a l).poi = true ↔ (getX q.acc b a l).poi = true ∨ ∃ t < c.num 5 1, (el t).2 = true ∨ (x t).poi = true))) ∧
      (c.fn = 5 → leaves 1 fun q' => q'.x = q.x ∧ q'.row = q.row ∧ ∀ b < 16, ∀ a < 8, ∀ l < 16,
        let up (v : Nat → Nat) (j : Nat) : Nat := (fp32.add .rn (v (2 * j)) (v (2 * j + 1))).1 % 2 ^ 32
        let e := getX q'.acc b a l
        if masked a = false then e = getX q.acc b a l
        else if l ≠ 0 then e = {}
        else e.val = BitVec.ofNat 32 (up (up (up (up fun k => (getX q.acc b a k).val.toNat))) 0) ∧ (e.poi = true ↔ ∃ k < 16, (getX q.acc b a k).poi = true)) ∧
      (c.fn = 6 → c.b.toNat = noWord →
        let lanes := if c.num 12 1 = 0 then 16 else 1
        let ms := (List.range 8).filter masked
        let n := 64 * lanes * ms.length
        c.num 8 4 + n ≤ g.tile.length → done n fun s' => ∃ g', s'.wg? c.core c.slot = some g' ∧
          (∀ r < ms.length, ∀ b < 16, ∀ l < lanes, BitVec.ofNat 32 (leNat (slice g'.tile (c.num 8 4 + 64 * lanes * r + 4 * (lanes * b + l)) 4)) =
            (getX q.acc b (ms.getD r 0) l).val) ∧
          ∀ k, k < c.num 8 4 ∨ c.num 8 4 + n ≤ k → g'.tile.getD k 0 = old k) ∧
      (7 ≤ c.fn → leaves 1 fun q' => q'.x = q.x ∧ q'.row = q.row ∧ ∀ b < 16, ∀ a < 8, ∀ l < 16,
        getX q'.acc b a l = if masked a then {} else getX q.acc b a l)) ∧
    (∀ k lo hi, c.eng = 2 → c.fn ≠ 2 → s.msuNext c = some (k, lo, hi) → c.num 0 8 % 4 = 0 → lo < hi ∧ hi ≤ c.num 0x10 4 ∧
      (c.num 0 8 + 4 * lo) / 32 = (c.num 0 8 + 4 * hi - 1) / 32) ∧
    (∀ k lo hi xs ys s1, c.eng = 2 → (if c.fn = 2 then lo = 0 ∧ hi = c.num 0x10 4 else s.msuNext c = some (k, lo, hi)) →
      let y := c.num 0 8 + 4 * lo
      let n := hi - lo
      let a := c.num 0x14 4
      let secs := (c.msuRanges lo hi).flatMap fun r => s.framesOf c r.1 r.2
      let s0 := { s with m := { s.m with l2 := s.m.l2.filter fun e => !secs.any fun q => e.home == q.1 && e.ctx == c.ctx && e.ia == q.2.1 } }
      (∀ q ∈ secs, s.dramWaits c.id c.ctx q.2.1 true q.2.2 = false ∧ s.settled q.1 c.ctx q.2.1 q.2.2 = true) →
      (c.fn = 0 ∨ c.fn = 2 → s0.readVa c.id c.ctx (BitVec.ofNat 64 (c.num 8 8 + 4 * lo)) (4 * n) = .ok (some xs) ∧ xs.length = 4 * n) →
      (c.fn = 0 ∨ c.fn = 1 → s0.readVa c.id c.ctx (BitVec.ofNat 64 y) (4 * n) = .ok (some ys) ∧ ys.length = 4 * n) →
      let x (t : Nat) : Nat × Bool := pnumAt xs (4 * t) 4
      let z (t : Nat) : Nat × Bool := pnumAt ys (4 * t) 4
      let add (p q : Nat × Bool) : Nat × Bool := ((fp32.add .rn p.1 q.1).1 % 2 ^ 32, p.2 || q.2)
      let up (v : Nat → Option (Nat × Bool)) (j : Nat) : Option (Nat × Bool) := match v (2 * j), v (2 * j + 1) with
        | some p, some q => some (add p q)
        | p, _ => p
      let block (b : Nat) : Nat × Bool :=
        (up (up (up (up (up fun k => if k < 32 ∧ 32 * b + k < n then some (x (32 * b + k)) else none)))) 0).getD (0, false)
      let out : List (Nat × Bool) := match c.fn with
        | 0 => (List.range n).map fun t => (mac (fp32.val a) (fp32.val (x t).1) (z t).1, (x t).2 || (z t).2)
        | 1 => (List.range n).map fun t => ((fp32.mul .rn a (z t).1).1, (z t).2)
        | 2 => [(List.range ((n + 31) / 32 - 1)).foldl (fun p b => add p (block (b + 1))) (block 0)]
        | _ => List.replicate n (a, false)
      0 < n → s0.putLoc c false (y, out.flatMap fun v => pbytes 4 (v.1 % 2 ^ 32) v.2) = .ok (some s1) →
      let cnt := if c.fn = 2 then 4 else c.counted + 4 * n
      (c.fn = 2 ∨ c.num 0x10 4 ≤ n → ends 0 cnt s1.sameBytes) ∧
      (c.fn ≠ 2 → n < c.num 0x10 4 → ∃ s' c', exec (.engineCommandComplete c.id) s = .next s' ∧ s1.sameBytes s' ∧
        s'.e.cmds.find? (·.id == c.id) = some c' ∧ c'.sent = n ∧ c'.counted = cnt ∧ c'.state = .accepted)))) ∧
  (∀ (α : Type) (q : Copy) (z : α) (l : List α) (p r t : Nat), r < 64 → t < 128 →
    let at_ (k : Nat) : α := l.getD k z
    let el (row col : Nat) : α := if row < q.cnt ∧ col < q.nc then at_ (q.pitch * row + 2 * col + t % 2) else z
    (q.panel z l p).length = 8192 ∧ (q.panel z l p).getD (128 * r + 16 * ((t / 16) ^^^ (r % 8)) + t % 16) z =
      if q.fmt = 0 then at_ (16416 * (p / 2) + (32 + 128 * t + (64 * (p % 2) + r)))
      else if q.fmt = 1 then at_ (8448 * p + (256 + 128 * r + t))
      else if q.orientB then el (64 * (p % ((q.cnt + 63) / 64)) + t / 2) (64 * (p / ((q.cnt + 63) / 64)) + r)
      else el (64 * (p / ((q.nc + 63) / 64)) + r) (64 * (p % ((q.nc + 63) / 64)) + t / 2)) ∧
  (∀ (α : Type) (q : Copy) (z : α) (l : List α) (r x k : Nat), k < 2 → (q.element z l r x).length = 2 ∧ (q.element z l r x).getD k z =
    let byte (p i j : Nat) : α := l.getD (8192 * p + (128 * i + 16 * ((j / 16) ^^^ (i % 8)) + j % 16)) z
    if q.orientB then byte (x / 64 * ((q.cnt + 63) / 64) + r / 64) (x % 64) (2 * (r % 64) + k)
    else byte (r / 64 * ((q.nc + 63) / 64) + x / 64) (r % 64) (2 * (x % 64) + k)) ∧
  ∀ (s : State) (c : Cmd) (g : Workgroup) (b : List Byte),
    let x := s.ctx c.ctx
    let len := g.tile.length
    let code (p : Nat → Prop) : Prop := (∀ k, s.examine c g b = .ok (.error k) ↔ p k ∧ ∀ j < k, ¬p j) ∧
      ((∃ r, s.examine c g b = .ok (.ok r)) ↔ ∀ k, ¬p k)
    let loc (tile : Bool) (at_ n : Nat) (acc : Acc) (k : Nat) : Prop := k = 4 ∧ tile = true ∧ len < at_ + n ∨ k = 2 ∧ tile = false ∧ x.covers at_ n acc = false
    (c.eng = 0 → c.fn ≤ 2 → let q := copyOf c.fn b
      let rm : Prop := q.fmt = 2 ∨ q.fmt = 3
      let panel : Bool → Nat := fun t => if t then 8192 else 128
      let store : Nat := if q.fmt ≤ 1 then 32 else if q.fmt = 4 then 8 else 2
      ¬(c.fn = 1 ∧ q.fmt = 4) → code fun k =>
        k = 1 ∧ (numAt b 0x1E 2 ≠ 0 ∨ numAt b 0x28 24 ≠ 0 ∨ 64 ≤ q.flg ∨ (q.flg / 4 % 2 = 1 ∧ ¬(c.fn ≠ 0 ∧ rm)) ∨
          (q.flg / 8 % 2 = 1 ∧ ¬(c.fn = 2 ∧ q.fmt = 4)) ∨ (¬(c.fn = 1 ∧ q.fmt ≤ 1) ∧ q.sdst ≠ 0 ∧ q.sdst ≠ 2 ^ 64 - 1) ∨
          (c.fn = 0 ∧ (q.fmt ≠ 0 ∨ q.nc ≠ 0 ∨ q.pitch ≠ 0 ∨ q.cnt < 4 ∨ 16777216 < q.cnt)) ∨
          (c.fn ≠ 0 ∧ (4 < q.fmt ∨ (c.fn = 2 ∧ q.fmt < 2) ∨ q.cnt = 0 ∨ 65535 < q.cnt ∨
            (rm ∧ (q.nc = 0 ∨ 65535 < q.nc ∨ q.pitch % 2 = 1 ∨ q.pitch < 2 * q.nc)) ∨ (¬rm ∧ (q.nc ≠ 0 ∨ q.pitch ≠ 0))))) ∨
        k = 3 ∧ ((c.fn = 0 ∧ (q.src % 4 ≠ 0 ∨ q.dst % 4 ≠ 0 ∨ q.cnt % 4 ≠ 0)) ∨ (c.fn = 1 ∧ (q.src % store ≠ 0 ∨ q.dst % panel q.dstTile ≠ 0)) ∨
          (c.fn = 2 ∧ (q.src % panel q.srcTile ≠ 0 ∨ q.dst % store ≠ 0))) ∨
        loc q.srcTile q.src (q.srcLen 8) .read k ∨ loc q.dstTile q.dst q.dstLen .write k ∨
        (q.scaled = true ∧ loc q.dstTile q.sdst (q.scaleBytes * q.cnt) .write k)) ∧
    (c.eng = 0 → c.fn = 3 → let po := numAt b 0 4
      let np := numAt b 4 1
      code fun k => k = 1 ∧ (np = 0 ∨ 64 < np ∨ 64 < po / 8192 + np ∨ 15 < numAt b 5 1 ∨ 1 < numAt b 6 1 ∨ numAt b 7 57 ≠ 0) ∨
        k = 3 ∧ po % 8192 ≠ 0 ∨ k = 4 ∧ len < po + 8192 * np) ∧
    (∀ o, (c.eng = 0 ∧ c.fn = 4) ∨ (c.eng = 1 ∧ c.fn = 0) → s.frameOf c (numAt b 0 8) = .ok o →
      code fun k => k = 1 ∧ numAt b 8 56 ≠ 0 ∨ k = 2 ∧ o = none ∨ k = 5 ∧ ∃ ia home f, o = some (ia, home, f) ∧
        (stackOf f.pa ∈ s.y.throttle ∨ (∃ q ∈ s.e.sessions, q.stack = stackOf f.pa ∧ q.pch = pchOf f.pa) ∨
          (c.eng = 1 ∧ ∃ q ∈ s.e.streams, q.stack = stackOf f.pa ∧ q.pch = pchOf f.pa) ∨
          (c.eng = 0 ∧ ((∃ q ∈ s.e.streams, q.stack = stackOf f.pa ∧ q.pch = pchOf f.pa ∧ q.bank = bankOf f.pa) ∨
            4 ≤ (s.e.streams.filter (·.core == c.core)).length)))) ∧
    (c.eng = 0 → c.fn = 5 → code fun k => k = 1 ∧ (numAt b 9 1 = 0 ∨ 32 < numAt b 8 1 + numAt b 9 1 ∨ numAt b 10 54 ≠ 0) ∨ k = 3 ∧ numAt b 4 4 % 32 ≠ 0 ∨
      k = 4 ∧ len < numAt b 4 4 + 32 * numAt b 9 1 ∨ k = 6 ∧ s.stream? c.core c.ctx (numAt b 0 4) = none) ∧
    (c.eng = 0 → c.fn = 6 → code fun k => k = 6 ∧ s.stream? c.core c.ctx c.a.toNat = none) ∧
    (c.eng = 1 → c.fn = 1 → code fun k => k = 6 ∧ s.session? c.core c.ctx c.a.toNat = none) ∧
    (let closed (k : Nat) : Prop := k = 6 ∧ s.session? c.core c.ctx (numAt b 0 4) = none
     (∀ o, c.eng = 1 → c.fn = 2 → s.frameOf c (numAt b 8 8) = .ok o → code fun k =>
       k = 1 ∧ (numAt b 4 4 ≠ 0 ∨ numAt b 16 48 ≠ 0 ∨ ∃ ia home f q, o = some (ia, home, f) ∧ s.session? c.core c.ctx (numAt b 0 4) = some q ∧
         (stackOf f.pa ≠ q.stack ∨ pchOf f.pa ≠ q.pch)) ∨ k = 2 ∧ o = none ∨ closed k) ∧
     (c.eng = 1 → c.fn = 3 → code fun k => k = 1 ∧ (15 < numAt b 4 1 ∨ numAt b 5 27 ≠ 0) ∨ closed k) ∧
     (c.eng = 1 → c.fn = 4 → code fun k => k = 1 ∧ (numAt b 5 1 = 0 ∨ 32 < numAt b 4 1 + numAt b 5 1 ∨ 15 < numAt b 6 1 ∨ 7 < numAt b 7 1 ∨
       numAt b 8 56 ≠ 0) ∨ closed k) ∧
     (c.eng = 1 → c.fn = 5 ∨ c.fn = 7 → code fun k => k = 1 ∧ numAt b 5 59 ≠ 0 ∨ closed k) ∧
     (c.eng = 1 → c.fn = 6 → code fun k => k = 1 ∧ (numAt b 5 3 ≠ 0 ∨ 1 < numAt b 12 1 ∨ numAt b 13 51 ≠ 0) ∨ k = 3 ∧ numAt b 8 4 % 64 ≠ 0 ∨
       k = 4 ∧ len < numAt b 8 4 + ((List.range 8).filter fun a => numAt b 4 1 / 2 ^ a % 2 == 1).length * (if numAt b 12 1 = 0 then 1024 else 64) ∨ closed k)) ∧
    (c.eng = 2 → c.fn ≤ 3 → let y := numAt b 0 8
      let xa := numAt b 8 8
      let n := numAt b 0x10 4
      let uses : Prop := c.fn = 0 ∨ c.fn = 2
      let yn := if c.fn = 2 then 4 else 4 * n
      code fun k => k = 1 ∧ (n = 0 ∨ 16777216 < n ∨ numAt b 0x18 40 ≠ 0 ∨ (¬uses ∧ xa ≠ 0) ∨ (c.fn = 2 ∧ numAt b 0x14 4 ≠ 0) ∨
          (uses ∧ ¬(xa = y ∧ (c.fn = 0 ∨ n = 1)) ∧ xa < y + yn ∧ y < xa + 4 * n)) ∨
        k = 2 ∧ (x.covers y yn .rmw = false ∨ (uses ∧ x.covers xa (4 * n) .read = false)) ∨ k = 3 ∧ (y % 4 ≠ 0 ∨ (uses ∧ xa % 4 ≠ 0))) ∧
    (c.eng = 3 → c.fn ≤ 2 → let n := numAt b 0x10 4
      let tile := numAt b 0x16 1 == 1
      code fun k => k = 1 ∧ (n < 4 ∨ 16777216 < n ∨ 255 < numAt b 0x14 2 ∨ 1 < numAt b 0x16 1 ∨ (c.fn = 1 ∧ 15 < numAt b 0x17 1) ∨ numAt b 0x1C 36 ≠ 0) ∨
        k = 3 ∧ (numAt b 0 8 % 4 ≠ 0 ∨ numAt b 8 8 % 4 ≠ 0 ∨ n % 4 ≠ 0) ∨
        k = 7 ∧ (∀ w, x.windows.find? (·.n == numAt b 0x14 2) = some w → w.size < numAt b 8 8 + n ∨ w.rt / (if c.fn = 2 then 2 else 1) % 2 = 0) ∨
        loc tile (numAt b 0 8) n (if c.fn = 2 then .write else .read) k)

/-- R240, R242: four microseconds after its activation a stream closes, and a session with no command for twenty
microseconds ends; every other one stays.

R117, R171, R246, R295-R297: acknowledged bytes count in the window and in the arrival word; bytes that the target refuses with a
retry-after hint wait for it, and codes 7 and 9 end the command; a put the export allows writes its bytes, then ARR, then its signal
word; a get is answered with the bytes at the home slices, an element through a gather index with those of its index; what the
export does not allow changes nothing.

That a get is read as master 65, unchecked (log 18), that its answer is kept in reply (log 21), and that an element whose index is all
ones comes back as zero bytes (log 83), are the model's choices. -/
def Obligations.EngineEvents : Prop :=
  (∀ (s : State) (core tok : Nat),
    (∃ s', exec (.bstreamForcedClose core tok) s = .next s' ∧ s.sameBytes s' ∧ s'.wgs = s.wgs ∧ ∀ q,
      q ∈ s'.e.streams ↔ q ∈ s.e.streams ∧ ¬(q.core = core ∧ q.tok = tok ∧ q.since + 4400 ≤ s.now)) ∧
    (∃ s', exec (.bankSessionIdleEnd core tok) s = .next s' ∧ s.sameBytes s' ∧ s'.wgs = s.wgs ∧ ∀ q,
      q ∈ s'.e.sessions ↔ q ∈ s.e.sessions ∧ ¬(q.core = core ∧ q.tok = tok ∧ q.used + 22000 ≤ s.now ∧ s.e.inUse q = false))) ∧
  (∀ (s : State),
    (∀ (c : Cmd) (p : Packet) (n : Nat), s.e.cmds.find? (·.id == c.id) = some c → s.e.packets.find? (·.cmd == c.id) = some p →
      (p.get = true → exec (.putAck c.id n 0) s = .next s) ∧
      (∀ code, code = 7 ∨ code = 9 → ∃ s', exec (.putAck c.id n code) s = .next s' ∧ s.sameBytes s' ∧ (∀ q ∈ s'.e.cmds, q.id ≠ c.id) ∧
        ∀ q ∈ s'.e.packets, q.cmd ≠ c.id) ∧
      (∀ code, code ≠ 0 → code ≠ 7 → code ≠ 9 → p.get = false → p.held = 0 → 0 < n → 0 < p.bytes → (∀ g ∈ s.wgs, g.hard = false) →
        ∃ s' p' c', exec (.putAck c.id n code) s = .next s' ∧ s.sameBytes s' ∧ s'.ctxs = s.ctxs ∧
          s'.e.packets.find? (·.cmd == c.id) = some p' ∧ p'.bytes = p.bytes ∧ p'.held = min n p.bytes ∧
          s'.e.cmds.find? (·.id == c.id) = some c' ∧ c'.resend = s.now + sliceCycles (max 64 (min code 65535))) ∧
      (p.get = false → p.held = 0 → n < p.bytes → 0 < n → c.ctx < s.ctxs.length → ∃ s', exec (.putAck c.id n 0) s = .next s' ∧ s.sameBytes s' ∧
        ((s'.ctx c.ctx).counts (c.num 0x14 2)).completed = ((s.ctx c.ctx).counts (c.num 0x14 2)).completed + BitVec.ofNat 64 n ∧
        ((s'.ctx c.ctx).counts (c.num 0x14 2)).issued = ((s.ctx c.ctx).counts (c.num 0x14 2)).issued ∧
        (∃ p', s'.e.packets.find? (·.cmd == c.id) = some p' ∧ p'.bytes = p.bytes - n) ∧
        ∀ g, s.wg? c.core c.slot = some g → g.uid = c.uid → c.b.toNat ≠ noWord → s'.wg? c.core c.slot = some (g.arrive c.b.toNat n))) ∧
    (∀ (chip exp wof size : Nat) (right poi : Bool) (data : List Byte) (sig : Option (Nat × Word)) (x : Export),
      (s.y.exportFor chip exp wof data.length size 1 right = none → exec (.putArrive chip exp wof right size data poi sig) s = .next s) ∧
      (s.y.exportFor chip exp wof data.length size 1 right = some x → s.y.allowed x.ctx (x.tia + wof) data.length false true = true →
        ∀ s1 s2, s.writeIa x.ctx (x.tia + wof) (data.map fun b => (b, false)) = .ok s1 → s1.addWord x 0 8 data.length = .ok s2 →
          exec (.putArrive chip exp wof right size data false none) s = .next s2 ∧
          ∀ k v s3, s2.addWord x (0x10 + 4 * (k % 16)) 4 v.toNat = .ok s3 →
            exec (.putArrive chip exp wof right size data false (some (k, v))) s = .next s3)) ∧
    (∀ (chip exp wof size len : Nat) (right : Bool) (x : Export) (l : List PByte),
      let answers (elems : List FarElem) : Prop := ∃ s', exec (.remoteGetArrive chip exp wof right size { len := len, elems := elems }) s = .next s' ∧ s.sameBytes s' ∧
        s'.wgs = s.wgs ∧ s'.y.reply = some (.bytes (l.map (·.1)) (l.any (·.2)))
      (s.y.exportFor chip exp wof len size 2 right = none → ∀ elems, exec (.remoteGetArrive chip exp wof right size { len := len, elems := elems }) s = .next s) ∧
      (s.y.exportFor chip exp wof len size 2 right = some x →
        (s.readIaBy 65 x.ctx (x.tia + wof) len = .ok l → answers []) ∧
        (∀ off n, (s.y.exportFor chip exp off n size 2 right).isSome = true → s.readIaBy 65 x.ctx (x.tia + off) n = .ok l →
          answers [{ off := off, n := n, idx := none }]) ∧
        ∀ off n place bytes stride k, (s.y.exportFor chip exp place bytes size 2 right).isSome = true →
          s.readIaBy 65 x.ctx (x.tia + place) bytes = .ok k → (∀ b ∈ k, b.2 = false) →
          ((pnum k).1 = 2 ^ (8 * bytes) - 1 → ∃ s', exec (.remoteGetArrive chip exp wof right size
              { len := len, elems := [{ off := off, n := n, idx := some (place, bytes, stride) }] }) s = .next s' ∧ s.sameBytes s' ∧
            s'.wgs = s.wgs ∧ s'.y.reply = some (.bytes (List.replicate n 0) false)) ∧
          ((pnum k).1 ≠ 2 ^ (8 * bytes) - 1 → (s.y.exportFor chip exp (off + (pnum k).1 * stride) n size 2 right).isSome = true →
          s.readIaBy 65 x.ctx (x.tia + (off + (pnum k).1 * stride)) n = .ok l →
          answers [{ off := off, n := n, idx := some (place, bytes, stride) }]))))

/-! Translation, side logs and the host's registers for them (R106, R108, R117, R118, R266, R273, R274). -/

/-- R106, R108, R117, R118, R301, R312: a walk for a waiting request that the access tables allow caches the leaf that the tables
name, or holds the request on the missing unit; a write on a missing unit enters its core's side log with the next sequence number, and goes out again
when its page is mapped; a refused request is sent again once its hint has elapsed. No byte of memory changes but where a
missing unit's record goes out. -/
def Obligations.TranslationAndSideLog : Prop := ∀ (s : State),
  (∀ (die ctx ia l pa : Nat) (hst : Bool) (acc : Acc),
    (acc = .write ∧ ∃ w ∈ s.m.writes, w.ctx = ctx ∧ w.ia = secOf ia ∧ w.home = die ∧ w.state.canArrive = true ∧ s.mayGo w = true) ∨
      (acc = .read ∧ ∃ r ∈ s.m.reads, r.ctx = ctx ∧ r.kind ≠ .pref ∧ s.loadWaits r.who r.id ctx (secOf ia) = false ∧
        ∃ x ∈ r.secs, x.ia = secOf ia ∧ x.home = die ∧ x.got = none ∧ x.retry = 0) ∨
      (acc = .rmw ∧ ∃ a ∈ s.m.atoms, a.ctx = ctx ∧ secOf a.ia = secOf ia ∧ a.home = die ∧ a.fwd = false ∧ a.retry = 0 ∧ ∀ l ∈ a.lanes,
        s.loadWaits l.who a.id ctx (secOf ia) = false ∧ s.m.writeBefore l.who a.id ctx (secOf ia) (s.leaseOf? l.who ctx (lineOf (secOf ia))).isSome = false) →
    (s.y.dies.getD die {}).st = .running → s.missing? die ctx ia = none →
    (s.y.allowedAcc ctx (secOf ia) 32 acc = false → exec (.pageWalk die (ctrlOf ia) ctx ia acc) s = .next s) ∧
    (s.y.allowedAcc ctx (secOf ia) 32 acc = true → s.walk ctx ia = .leaf l pa hst → ∃ s' e, exec (.pageWalk die (ctrlOf ia) ctx ia acc) s = .next s' ∧ s.sameBytes s' ∧ e ∈ s'.m.xlat ∧
      e.die = die ∧ e.ctx = ctx ∧ e.level = l ∧ e.ia = unitBase l ia ∧ e.pa = pa - (ia - unitBase l ia) ∧ e.hst = hst ∧
      s'.m.missing = s.m.missing) ∧
    (s.y.allowedAcc ctx (secOf ia) 32 acc = true → s.walk ctx ia = .miss l → ∃ s' m, exec (.pageWalk die (ctrlOf ia) ctx ia acc) s = .next s' ∧ m ∈ s'.m.missing ∧ m.die = die ∧
      m.ctrl = ctrlOf ia ∧ m.ctx = ctx ∧ m.level = l ∧ m.ia = unitBase l ia ∧ m.recorded = (s.y.evOn && !s.y.evFull))) ∧
  (∀ (w : WEnt), s.write? w.id = some w → w.state = .queued → w.ord ≠ 0 → (s.missing? w.home w.ctx w.ia).isSome = true →
    (s.m.loggedOn w.who.core).length < 512 → (∀ x ∈ s.m.behind w, ∃ q, x.state = .logged q) → w.who.core < s.m.nextSeq.length →
    ∃ s' w', exec (.sideLogRetire w.id) s = .next s' ∧ s.sameBytes s' ∧ s'.write? w.id = some w' ∧
      w'.state = .logged (s.m.nextSeq.getD w.who.core 1) ∧ w'.data = w.data ∧ w'.mask = w.mask ∧ w'.va = w.va ∧
      s'.m.nextSeq.getD w.who.core 1 = s.m.nextSeq.getD w.who.core 1 + 1) ∧
  (∀ (w : WEnt) (seq : Nat) (f : Xl), s.write? w.id = some w → w.state = .logged seq →
    (∀ x ∈ s.m.writes, x.who.core = w.who.core → x.state = .logged seq → x = w) →
    (∀ x ∈ s.m.writes, ∀ q, x.state = .logged q → x.who.core = w.who.core → x.ctx = w.ctx → s.samePage w.ctx w.ia x.ia = true → seq ≤ q) →
    (s.xlate w.home w.ctx w.ia = .ok f → ∃ s' w', exec (.sideLogReplay w.who.core seq) s = .next s' ∧ s.sameBytes s' ∧
      s'.write? w.id = some w' ∧ w'.state = .queued) ∧
    (∀ l, s.xlate w.home w.ctx w.ia = .fault l → exec (.sideLogReplay w.who.core seq) s = .next s)) ∧
  (∀ (id : Nat), ∃ s', exec (.retryResend id) s = .next s' ∧ s.sameBytes s' ∧ s'.wgs = s.wgs ∧
    (∀ w t, s.write? id = some w → w.state = .retry t → t ≤ s.now → ∃ w', s'.write? id = some w' ∧ w'.state = .queued) ∧
    (∀ r ∈ s'.m.reads, r.id = id → ∀ x ∈ r.secs, x.retry = 0 ∨ s.now < x.retry) ∧
    (∀ a ∈ s'.m.atoms, a.id = id → a.retry = 0 ∨ s.now < a.retry) ∧ (∀ l ∈ s'.m.leases, l.id = id → l.retry = 0 ∨ s.now < l.retry))

/-! The launch front end (R275-R279). -/

/-- R275-R278: a tail write moves QTAIL while the queue is enabled for the host and both registers while it is disabled; a taken
packet advances QHEAD, a failing one leaves its code and number in QERR and clears EN; the codes by R277's limits, the lowest
that holds (log 16); a held packet whose conditions hold starts with the next launch id and a counter of its workgroups, one whose
conditions do not hold stays, and a poisoned wait word refuses it whatever else it waits for. -/
def Obligations.LaunchQueues : Prop := ∀ (s : State) (q : Nat) (x : Queue), s.y.queues[q]? = some x →
  (∀ v, x.en = true → x.dev = false → ∃ s', exec (.qtailWrite q v) s = .next s' ∧ s'.m = s.m ∧ s'.y.queues[q]? = some { x with tail := v }) ∧
  (∀ v, x.en = true → x.dev = true → ∃ s', exec (.qtailWrite q v) s = .next s' ∧ s'.m = s.m ∧ s'.y.queues[q]? = some x) ∧
  (∀ v, x.en = false → ∃ s', exec (.qtailReset q v) s = .next s' ∧ s'.m = s.m ∧ s'.y.queues[q]? = some { x with head := v, tail := v }) ∧
  (∃ s', exec (.qerrClear q) s = .next s' ∧ s'.m = s.m ∧ s'.y.queues[q]? = some { x with err := 0 }) ∧
  (∀ (l : List PByte), x.live = true → x.taken = none → x.head ≠ x.tail → s.readIa x.ctx (x.slot x.head.toNat) 128 = .ok l →
    let p := l.map (·.1)
    let refused (k : Nat) : Prop := ∃ s', exec (.packetTake q) s = .next s' ∧ s'.m = s.m ∧
      s'.y.queues[q]? = some { x with err := BitVec.ofNat 32 (k * 2 ^ 24 + x.head.toNat % 2 ^ 24), ctl := x.ctl &&& ~~~1
                                      head := BitVec.ofNat 32 (x.head.toNat + 1), taken := none }
    ((∃ b ∈ l, b.2 = true) → refused 5) ∧
    ((∀ b ∈ l, b.2 = false) → ∀ k, Packet.code (s.ctx x.ctx) x.ctx p = some k → refused k) ∧
    ((∀ b ∈ l, b.2 = false) → Packet.code (s.ctx x.ctx) x.ctx p = none → (s.ctx x.ctx).roomFor (Packet.ids p) = true →
      (s.launchRoom x.ctx).isSome = true → ∃ s', exec (.packetTake q) s = .next s' ∧ s'.m = s.m ∧
        s'.y.queues[q]? = some { x with head := x.head + 1, taken := some p, takenN := x.head.toNat })) ∧
  (∀ (c : Context) (k : Nat) (p : List Byte),
    let f (off n : Nat) : Nat := numAt p off n
    let flag (n : Nat) : Prop := f 0x1B 1 / 2 ^ n % 2 = 1
    let word (n : Nat) : Prop := f n 4 = 0
    let side (n : Nat) : Prop := f n 2 = 0 ∨ 2048 < f n 2
    let failing (n : Nat) : Prop :=
      n = 1 ∧ (f 0 8 % 8 ≠ 0 ∨ word 8 ∨ word 12 ∨ word 16 ∨ 2 ^ 48 - 1 < f 8 4 * f 12 4 * f 16 4 ∨ side 0x14 ∨ side 0x16 ∨ side 0x18 ∨
        2048 < f 0x14 2 * f 0x16 2 * f 0x18 2 ∨ 3 < f 0x1A 1 ∨ 31 < f 0x1B 1 ∨ 383 < f 0x1C 2 ∨ f 0x1E 2 ≠ 0 ∨ f 0x20 4 % 1024 ≠ 0 ∨
        524288 < f 0x20 4 ∨ 48 < f 0x24 1 ∨ f 0x25 3 ≠ 0 ∨ (¬flag 2 ∧ f 0x28 8 ≠ 0) ∨ (flag 4 ∧ flag 0) ∨
        (¬flag 4 ∧ flag 1 ∧ f 0x30 8 / 4 % 2 ^ 30 ≠ 0) ∨ (¬flag 4 ∧ ¬flag 1 ∧ f 0x30 8 % 8 ≠ 0)) ∨
      n = 2 ∧ f 0x4C 4 ≠ k ∨
      n = 3 ∧ (∀ r, c.match? (BitVec.ofNat 64 (f 0 8)) = some r → r.x = false) ∨
      n = 4 ∧ flag 0 ∧ ¬flag 1 ∧ c.passes (f 0x30 8) .read = false
    (∀ n, Packet.code c k p = some n ↔ failing n ∧ ∀ j < n, ¬failing j) ∧ (Packet.code c k p = none ↔ ∀ n, ¬failing n)) ∧
  (∀ p, x.taken = some p →
    let held : Prop := exec (.launchStart q) s = .next s
    let counter := s.counterWord (Packet.ctx p) (Packet.waitWord p % 4) (Packet.waitWord p / 2 ^ 32) 0
    (Packet.wt p = false → (Packet.qb p = true ∧ ∃ l ∈ s.y.launches, l.q = q) ∨ (Packet.st p = true ∧ s.ptpNs < Packet.start p) → held) ∧
    (Packet.wt p = true → Packet.wsrc p = true → counter < Packet.waitValue p → held) ∧
    (∀ l, Packet.wt p = true → Packet.wsrc p = false → s.readVa s.nextId (Packet.ctx p) (BitVec.ofNat 64 (Packet.waitWord p)) 8 = .ok (some l) →
      ((∀ b ∈ l, b.2 = false) → (pnum l).1 < Packet.waitValue p → held) ∧
      ((∃ b ∈ l, b.2 = true) → ∃ s', exec (.launchStart q) s = .next s' ∧ s'.m = s.m ∧ s'.y.launches = s.y.launches ∧
        s'.y.queues[q]? = some { x with err := BitVec.ofNat 32 (2 ^ 24 + x.takenN % 2 ^ 24), ctl := x.ctl &&& ~~~1
                                        head := BitVec.ofNat 32 (x.takenN + 1), taken := none }))) ∧
  (∀ p, x.taken = some p → (Packet.qb p = true → ∀ l ∈ s.y.launches, l.q ≠ q) → (Packet.st p = true → Packet.start p ≤ s.ptpNs) →
    (Packet.wt p = false ∨ (Packet.wsrc p = true ∧ Packet.waitValue p ≤ s.counterWord (Packet.ctx p) (Packet.waitWord p % 4) (Packet.waitWord p / 2 ^ 32) 0) ∨
      (Packet.wsrc p = false ∧ ∃ l, s.readVa s.nextId (Packet.ctx p) (BitVec.ofNat 64 (Packet.waitWord p)) 8 = .ok (some l) ∧
        (∀ b ∈ l, b.2 = false) ∧ Packet.waitValue p ≤ (pnum l).1)) →
    Packet.ctx p < s.ctxs.length → ∀ room, s.launchRoom (Packet.ctx p) = some room →
    let c := s.ctx (Packet.ctx p)
    ∃ s' l k, exec (.launchStart q) s = .next s' ∧ s'.m = s.m ∧ s'.y.queues[q]? = some { x with taken := none } ∧
      s'.y.launches = s.y.launches ++ [l] ∧ l.ctx = Packet.ctx p ∧ l.lid = c.nextLid ∧ l.pkt = p ∧ l.total = Packet.total p ∧ l.left = l.total ∧
      l.nextFlat = 0 ∧ k ∈ (s'.ctx l.ctx).counters ∧ k.level = 0 ∧ k.id = c.nextLid ∧ k.done = 0 ∧ k.total = Packet.total p)

/-- R36, R96, R109, R258, R277-R279: the next workgroup of a launch is placed, once what must leave its place has left, with its registers,
predicates, tiles and accumulators zero, w0-w11 from the packet and its threads at the entry; a finished workgroup leaves its core, and DONE of
its launch's counter rises by one. That the flat index runs over x first, then y, then z is the model's reading (log 30). -/
def Obligations.WorkgroupLife : Prop := ∀ (s : State) (core : Nat),
  (∀ (l : Launch) (a : Place) (u t : State), (s.y.launches.find? fun x => x.ctx == l.ctx && x.lid == l.lid) = some l →
    s.unplaced l = true → (∀ x ∈ s.y.launches, s.unplaced x = true → x.before l = true → (s.placeOn x core).isSome = false) →
    s.placeOn l core = some a → s.clearPlace core (Packet.threads l.pkt) a = .ok u →
    u.fresh.imageWrite l.ctx (u.headerAt l.ctx core a.slot) (plainBytes (newWorkgroup l core u.now u.nextId a).header) = .ok t →
    ∃ s' g, exec (.wgPlace l.ctx l.lid core) s = .next s' ∧ s'.m = t.m ∧ s'.wgs = t.wgs ++ [g] ∧ g.core = core ∧ g.slot = a.slot ∧
      g.ctx = l.ctx ∧ g.lid = l.lid ∧ g.flat = l.nextFlat ∧ g.threads.length = Packet.threads l.pkt ∧
      g.wgid = (l.nextFlat % (Packet.counts l.pkt).1, l.nextFlat / (Packet.counts l.pkt).1 % (Packet.counts l.pkt).2.1,
        l.nextFlat / ((Packet.counts l.pkt).1 * (Packet.counts l.pkt).2.1)) ∧
      (∀ t ∈ g.threads, t.pc.toNat = Packet.entry l.pkt ∧ t.run = .runnable ∧ t.v.length = Packet.regs l.pkt + 1 ∧ t.flags = 0 ∧
        (∀ c ∈ t.v, c.val = 0 ∧ c.poi = false) ∧ ∀ c ∈ t.p, c.val = false) ∧
      (∀ k < 12, (g.w.getD k { base := 1 }).base.toNat = Packet.f l.pkt (0x50 + 4 * k) 4) ∧
      g.tile.length = Packet.tiles l.pkt ∧ (∀ b ∈ g.tile, b = 0) ∧ g.acc.length = Packet.accum l.pkt ∧ ∀ r ∈ g.acc, ∀ v ∈ r, v.val = 0 ∧ v.poi = false) ∧
  (∀ (slot : Nat) (g : Workgroup) (t : State), s.wg? core slot = some g → s.finished g = true → s.released g = true →
    s.imageWrite g.ctx (s.headerAt g.ctx core slot) (plainBytes (List.replicate 64 0)) = .ok t →
    ∃ s', exec (.wgComplete core slot) s = .next s' ∧ s'.m = t.m ∧ s'.wg? core slot = none ∧
      ∀ k, (t.ctx g.ctx).counter? 0 g.lid = some k → g.ctx < t.ctxs.length → k.done + 1 < 2 ^ 64 → k.total < 2 ^ 64 →
        (s'.ctx g.ctx).counter? 0 g.lid = some { k with done := k.done + 1 })

/-! The package (R287-R289, R294-R306). -/

/-- R288, R295-R297, R301, R304: winsync and expsync take the tables in memory into force; a write of PATSET sets one frame's
tag, or is refused for a malformed value or for a frame whose neighbours belong to another tenant; an access table entry
takes its base and limit; and the BAR0 window reaches each register at its offset, for a write and for a read. A width that no
register has reads 0. PATSET is stated for the frames of a stack's 48 GB (R10). Which entries of the window and export tables come into
force is the model's reading (log 52); that the answer of a read is kept in `reply` is the model's choice (log 21). -/
def Obligations.TablesAndRegisters : Prop := ∀ (s : State),
  (∀ (ctx : Nat) (l : List PByte), ctx < s.ctxs.length → s.coherent ctx ((s.ctx ctx).winbase.toNat % 2 ^ 52) 8192 = some l → s.e.packets = [] →
    ∃ s', exec (.winsyncWrite ctx) s = .next s' ∧ s'.m = s.m ∧ (s'.ctx ctx).windows = (List.range 256).filterMap (windowOf l)) ∧
  (∀ (l : List PByte), s.coherent 0 (s.y.expbase.toNat % 2 ^ 52) 262144 = some l →
    ∃ s', exec .expsyncWrite s = .next s' ∧ s'.m = s.m ∧ s'.y.exports = (List.range 4096).filterMap (exportOf l)) ∧
  (∀ (x : DWord), let tag := x.toNat % 256
    let frame := x.toNat / 2 ^ 16 % 2 ^ 20
    let stack := x.toNat / 2 ^ 40 % 16
    let formed : Prop := x.toNat / 2 ^ 8 % 256 = 0 ∧ x.toNat / 2 ^ 36 % 16 = 0 ∧ x.toNat / 2 ^ 44 = 0 ∧ (tag < 64 ∨ 0xFD ≤ tag)
    let foreign (f : Nat) : Prop := s.y.tag stack f < 64 ∧ s.y.tag stack f ≠ tag
    let meets : Prop := tag < 64 ∧ (16 ≤ frame ∧ foreign (frame - 16) ∨ frame + 16 < 786432 ∧ foreign (frame + 16))
    let answers (k : Nat) (P : State → Prop) : Prop := ∃ s', exec (.patsetWrite x) s = .next s' ∧ s'.m = s.m ∧ s'.y.patset = x ∧
      s'.y.patstat = BitVec.ofNat 64 k ∧ P s'
    frame < 786432 → (¬formed → answers 2 fun s' => s'.y.pat = s.y.pat) ∧ (formed → meets → answers 1 fun s' => s'.y.pat = s.y.pat) ∧
    (formed → ¬meets → answers 0 fun s' => s'.y.tag stack frame = tag ∧ ∀ k f, (k, f) ≠ (stack, frame) → s'.y.tag k f = s.y.tag k f)) ∧
  (∀ (master idx : Nat) (b l : DWord), master < 256 → idx < 16 → ∃ s', exec (.accessTableWrite master idx b l) s = .next s' ∧ s'.m = s.m ∧
    (s'.y.access.find? fun q => q.1 == master && q.2.1 == idx) =
      some (master, idx, { base := b &&& 0x000FFFFFFFFF0003, limit := l &&& 0x000FFFFFFFFF0000 })) ∧
  (∀ (x : DWord), ∃ s', exec (.registerWrite 0x2000 64 x) s = .next s' ∧ s'.m = s.m ∧ s'.y.expbase = x) ∧
  (∀ (off : Nat) (x : DWord), off < 0x3000 → off % 8 ≠ 0 → exec (.registerWrite off 64 x) s = .next s) ∧
  (∀ (n : Nat) (q : Queue) (x : Word), n < 64 → s.y.queues[n]? = some q →
    ∃ s', exec (.registerWrite (0x200000 + 64 * n + 8) 32 (x.setWidth 64)) s = .next s' ∧ s'.m = s.m ∧
      s'.y.queues[n]? = some { q with ctl := x &&& 0xFFF9 }) ∧
  (∀ (off width : Nat) (rest : List Move), s.latch = [] → s.agenda = .read off width :: rest →
    step s = .next { s with agenda := rest, y := { s.y with reply := some (.value (s.barRead off width)) } }) ∧
  (∀ off width, width ≠ 32 → width ≠ 64 → s.barRead off width = 0) ∧
  (∀ d < 4, s.barRead (0x1000 + 8 * d) 64 = BitVec.ofNat 64 ((s.die d).err % 4 * 2 ^ 8 + (match (s.die d).st with
    | .running => 0
    | .quiescing => 1
    | .inReset => 2
    | .retraining => 3
    | .failed => 4
    | .gated => 5) * 2 ^ 4 + (if (s.die d).gate then 2 else 0) + if (s.die d).rst then 1 else 0)) ∧
  (∀ (n : Nat) (q : Queue), n < 64 → s.y.queues[n]? = some q → s.barRead (0x200000 + 64 * n) 64 = q.base ∧
    s.barRead (0x200000 + 64 * n + 0x10) 32 = q.head.setWidth 64 ∧ s.barRead (0x200000 + 64 * n + 0x10) 64 = 0)

/-- R298-R300: a running die takes a reset or a gating when no context runs on it and no other die is on its way; a gated one
is in reset when ungated, a failed one when RST is set, and then retrains; retraining ends in a running die, or a failed one with code 3; and a die that fails halts every
context with workgroups on it with reason 5. The model's readings (log 51): code 1 goes before code 2; a context on its way to Halted or Out
counts as Running; a failed or gated die is in reset before it retrains; every failed retraining leaves code 3; the time counter starts again
with the reset. -/
def Obligations.DieEvents : Prop := ∀ (s : State) (d : Nat), d < 4 → s.y.dies.length = 4 →
  let x := s.die d
  let others : Prop := ∀ k < 4, k ≠ d → (s.die k).moving = false
  let idle : Prop := ∀ g ∈ s.wgs, dieOf g.core = d → (s.ctx g.ctx).state ≠ .running ∧ (s.ctx g.ctx).stopping = false
  let ends (i : Instr) (y : Die) : Prop := ∃ s', exec i s = .next s' ∧ s'.m = s.m ∧ s'.wgs = s.wgs ∧ s'.die d = y ∧ ∀ k, k ≠ d → s'.die k = s.die k
  (x.st = .running → x.moving = false →
    (idle → others → ends (.diectlRst d) { x with err := 0, rst := true } ∧ ends (.diectlGate d) { x with err := 0, gate := true }) ∧
    (¬idle → ends (.diectlRst d) { x with err := 1 } ∧ ends (.diectlGate d) { x with err := 1 }) ∧
    (idle → ¬others → ends (.diectlRst d) { x with err := 2 } ∧ ends (.diectlGate d) { x with err := 2 })) ∧
  (x.st = .gated → others → ends (.diectlUngate d) { x with err := 0, gate := false, st := .inReset, zero := s.now }) ∧
  (x.st = .failed → others → ends (.diectlRst d) { x with err := 0, rst := true, st := .inReset, zero := s.now }) ∧
  (x.st = .inReset → (s.dieStep d).m = s.m ∧ (s.dieStep d).wgs = s.wgs ∧ (s.dieStep d).die d = { x with st := .retraining }) ∧
  (x.st = .retraining → ends (.dieReenter d false) { x with st := .failed, err := 3, rst := false, lost := true }) ∧
  (x.st = .retraining → ∃ s', exec (.dieReenter d true) s = .next s' ∧ s'.die d = { x with st := .running, rst := false, lost := false, late := false } ∧
    (x.lost = true → s'.m.scrub.contains d = true) ∧ (x.lost = false → s'.m.scrub = s.m.scrub)) ∧
  (x.st = .running → s.m.dir = [] → s.ctxs.length = 64 → ∃ s', exec (.dieFail d) s = .next s' ∧
    (s'.die d).st = .failed ∧ (s'.die d).lost = true ∧ s.sameBytes s' ∧
    (∀ l ∈ s'.m.leases, dieOf l.who.core ≠ d ∧ l.home ≠ d) ∧ (∀ k ∈ s'.m.cache, dieOf k.core ≠ d) ∧
    ∀ c < 64, s'.ctx c = if ∃ g ∈ s.wgs, dieOf g.core = d ∧ g.ctx = c then (s.ctx c).raise 1 5 0 else s.ctx c)

/-- R119, R281, R287, R294, R303, R305, R306: a detected error spoils what it hit, writes a record and starts a self-test,
whose end writes the second record, lists a lasting DRAM fault and takes a spare row for a lasting SRAM fault while there is one; boot runs its checks in order; a report carries the
nonce, the versions of what booted and the time, signed; a replay that succeeds ends a row of failures, the sixteenth failure in a row takes a
port down, and retraining brings it up. The model's choices: the self-tests run in the order of the errors and spare rows are counted for
each array (log 54); one minimum version holds for all three images, and the nonce is the report's first word (log 55); a good replay and a
retraining clear the count of replays (log 52); the report is kept in `reply` (log 21). -/
def Obligations.DeviceEvents : Prop := ∀ (s : State), s.m.canon →
  (∀ (pa : Nat) (c : Bool), s.y.evOn = false → ∃ s', exec (.errorDetect (.sector pa) c) s = .next s' ∧
    s'.y.selfTests = s.y.selfTests ++ [{ place := .sector pa, corrected := c }] ∧ s'.y.evlost = s.y.evlost + 1 ∧ s'.m.cells = s.m.cells ∧
    (c = false → s'.m.marked (sectorOf pa) = true ∧ ∀ n, n ≠ sectorOf pa → s'.m.marked n = s.m.marked n) ∧ (c = true → s'.m = s.m)) ∧
  (∀ (pa k : Nat) (c : Bool) (l : List SelfTest), s.y.selfTests = { place := .sector pa, corrected := c } :: l → 1 ≤ k → k ≤ 3 → s.y.evOn = false →
    ∃ s', exec (.selfTestDone k) s = .next s' ∧ s'.m = s.m ∧ s'.y.selfTests = l ∧ s'.y.evlost = s.y.evlost + 1 ∧
      s'.y.repairs = s.y.repairs ++ if k = 2 ∧ s.y.repairs.length < 4096 then [(stackOf pa, pchOf pa, bankOf pa, rowOf pa)] else []) ∧
  (∀ (core slot tid v k : Nat) (c : Bool) (l : List SelfTest), s.y.selfTests = { place := .reg core slot tid v, corrected := c } :: l → 2 ≤ k → k ≤ 3 →
    s.y.evOn = false → ∃ s', exec (.selfTestDone k) s = .next s' ∧ s'.m = s.m ∧ s'.y.selfTests = l ∧ s'.y.repairs = s.y.repairs ∧
      s'.y.spares = s.y.spares ++ if s.y.spares.count (unitCore core 0, 0) < 4 then [(unitCore core 0, 0)] else []) ∧
  (∀ (fw cfg repair : Bool) (v cv rv : Nat), s.y.booted = false → s.y.bootCode = 0 → ∃ s', exec (.powerOnBoot fw cfg repair { fw := v, cfg := cv, repair := rv }) s = .next s' ∧
    s'.m = s.m ∧ s'.wgs = s.wgs ∧ s'.y.version = v ∧ s'.y.cfgVersion = cv ∧ s'.y.repVersion = rv ∧
    (s'.y.booted = true ↔ fw = true ∧ s.y.minVersion ≤ v ∧ cfg = true ∧ s.y.minVersion ≤ cv ∧ repair = true ∧ s.y.minVersion ≤ rv) ∧
    (s'.y.bootCode = 0 ↔ s'.y.booted = true) ∧ (s'.y.booted = true → s'.y.applied = s.y.repairs)) ∧
  (∀ nonce, ∃ s' l, exec (.attestationRequest nonce) s = .next s' ∧ s'.m = s.m ∧ s'.y.reply = some (.report l (Config.sign l)) ∧
    l.head? = some nonce ∧ ∀ v ∈ [s.y.version, s.y.cfgVersion, s.y.repVersion, s.ptpNs], BitVec.ofNat 256 v ∈ l) ∧
  (∀ n key, ∃ s', exec (.doeIdeKeySet n key) s = .next s' ∧ s'.m = s.m ∧ (s'.y.ideKeys.find? fun q => q.1 == n) = some (n, key) ∧
    ∀ q ∈ s.y.ideKeys, q.1 ≠ n → q ∈ s'.y.ideKeys) ∧
  (∀ (n : Nat) (p : Port), s.y.ports[n]? = some p → p.up = true → s.e.packets = [] →
    (∃ s', exec (.flitReplay { port := n, good := true }) s = .next s' ∧ s'.m = s.m ∧ s'.y.ports[n]? = some { p with replays := 0 }) ∧
    ∃ s', exec (.flitReplay { port := n, good := false }) s = .next s' ∧ s'.m = s.m ∧
    s'.y.ports[n]? = some (if p.replays < 15 then { p with replays := p.replays + 1 } else { up := false, replays := 0 })) ∧
  (∀ (n : Nat) (p : Port), s.y.ports[n]? = some p → ∃ s', exec (.portRetrainComplete n) s = .next s' ∧ s'.m = s.m ∧
    s'.y.ports[n]? = some { up := true, replays := 0 }) ∧
  (∀ t, ∃ s', exec (.ptpMessage t) s = .next s' ∧ s'.m = s.m ∧ s'.wgs = s.wgs ∧ s'.ptp = t)

/-! Encoding, memory and reset (R10, R29-R41, R46, R47, R102, R127, R259, R265, R275, R298). -/

/-- Words that the spec's worked encodings write out decode to the instructions that it names. -/
def Obligations.DecodeSanity : Prop :=
  decodeWord 0x3700C0DC0C1F8000 = .ok (.imul ⟨6, 7, false⟩ .i32 (.v 6) (.sp 0) (.w 3)) ∧
  decodeWord 0x0F0000E06C178000 = .ok (.iadd ⟨1, 7, false⟩ .i32 (.v 7) (.v 6) (.w 2)) ∧
  decodeWord 0x3710C10040282000 = .ok (.ffma ⟨6, 7, false⟩ .rn (.v 8) (.v 4) (.v 5) (.v 8)) ∧
  decodeWord 0xB020004010000200 = .ok (.pair 6 ⟨1, 0, 2, 0⟩ ⟨16, 0, 2, 0⟩) ∧
  decodeWord 0x0F203C1E0F078000 = .ok (.nop ⟨1, 7, false⟩) ∧
  decodeWord 0x18A07C1E00000003 = .ok (.bra ⟨3, 0, true⟩ 3) ∧
  decodeWord 0x0F28009840B78024 = .ok (.ld ⟨1, 7, false⟩ .wg .stky false .quad 4 (.w 4) (.v 22)) ∧
  decodeWord 0x0F303C186F078000 = .ok (.vset ⟨1, 7, false⟩ 0 none (.w 6) (.c 0)) ∧
  decodeWord 0x0F3801F88F078403 = .ok (.atom ⟨1, 7, false⟩ .add .i32 .dev (.v 15) (.w 8) (.c 0) (.c 1)) ∧
  decodeWord 0x0F3A009820381803 = .ok (.waita ⟨1, 7, false⟩ .eq .i32 .dev 4 (.w 2) (.v 7) (.v 6)) ∧
  decodeWord 0x0A48001E001F8000 = .ok (.tmma ⟨1, 2, false⟩ .bf16 0 .off 0 0 (.c 0) (.v 3) none) ∧
  decodeWord 0x095907E17F278000 = .ok (.dstat ⟨1, 1, false⟩ 63 (.v 23) (.c 4)) ∧
  decodeWord 0x0F5C0542814F8080 = .ok (.bkon ⟨1, 7, false⟩ (some (.v 42)) (.v 40) (.v 41)) ∧
  decodeWord 0x09233C1E0F07800B = .ok (.brk ⟨1, 1, false⟩ 11)

/-- R29, R31-R41: a well-formed lane-class instruction is decoded from the word that encodes it. -/
def Obligations.EncodeDecodeLaneClass : Prop := ∀ i : Instr, i.laneClass = true → i.wf = true → decodeWord (encode i) = .ok i

/-- R29, R31, R32, R34-R37, R46, R47: so is every other well-formed instruction that has a word. -/
def Obligations.EncodeDecodeOtherClasses : Prop :=
  ∀ i : Instr, i.laneClass = false → i.isEvent = false → i.wf = true → decodeWord (encode i) = .ok i

/-- Every step keeps the canonical form of memory: bytes and poison in strictly rising lists, no entry that an unlisted place
reads as (log 3). -/
def Obligations.StepKeepsMemoryCanonical : Prop := ∀ s s' : State, s.m.canon → step s = .next s' → s'.m.canon

/-- At reset memory has its canonical form, every byte reads 0 (log 3), and no sector is poisoned. -/
def Obligations.ResetMemory : Prop := State.reset.m.canon ∧ (∀ a, cellGet a State.reset.m.cells = 0) ∧
  (∀ a, cellGet a State.reset.m.host = 0) ∧ ∀ n, State.reset.m.marked n = false

/-- R102, R127, R256, R259, R265, R275, R282, R298: what the spec says of the machine at reset: 64 contexts, all Free, with
their registers' reset values; no range valid, no view; the queues and the die registers zero; nothing resident or cached. -/
def Obligations.ResetState : Prop := let s := State.reset
  s.ctxs.length = 64 ∧
  (∀ c ∈ s.ctxs, c.state = .free ∧ c.ctl = 0x81 ∧ c.vwbase.getLsbD 63 = true ∧ c.vwbase.setWidth 63 = 0 ∧ c.stoparea.getLsbD 0 = false ∧
    c.rg.length = 16 ∧ (∀ r ∈ c.rg, r = 0) ∧ c.vw.length = 64 ∧ (∀ v ∈ c.vw, v = none) ∧ c.counters = [] ∧ c.nextLid = 1) ∧
  s.y.queues.length = 64 ∧ (∀ q ∈ s.y.queues, q.base = 0 ∧ q.ctl = 0 ∧ q.tail = 0 ∧ q.head = 0 ∧ q.err = 0 ∧ q.taken = none) ∧
  s.y.dies.length = 4 ∧ (∀ d ∈ s.y.dies, d.st = .running ∧ d.err = 0 ∧ d.gate = false ∧ d.rst = false) ∧
  s.y.frzctl = 0x0569 ∧ s.y.evq.getLsbD 0 = false ∧ s.y.xlinv.getLsbD 63 = false ∧ s.y.booted = false ∧ s.wgs = [] ∧ s.y.launches = [] ∧
  s.m.dir = [] ∧ s.m.leases = [] ∧ s.m.tenures = [] ∧ s.m.watches = [] ∧ s.m.writes = [] ∧ s.e.entries = [] ∧ s.e.cmds = [] ∧ s.e.slots = []

/-- R44, R93, R119: the frame of the instructions that act on their own thread alone (awinit and awadd, which can let a waiting thread go on,
are in `WaitResults`). When exec answers a next state, no
other workgroup and no other thread differs; of the thread itself every v register but the destinations, the predicates
and the convergence and barrier bits are as before; of its workgroup the w registers but the destinations, the convergence
and barrier registers and the accumulators. Stated where no waita is under way, which a write would end (R150), and for swr
where no unit is missing, whose held threads an acknowledgement lets go (R274). -/
def Obligations.ThreadFrame : Prop := ∀ (e : Env) (i : Instr) (s' : State), e.runs i → ownThreadOnly i = true → e.s.m.waits = [] → (∀ h num ot a b, i = .swr h num ot a b → e.s.m.missing = []) →
  exec i e.s = .next s' → s'.now = e.s.now ∧ s'.ptp = e.s.ptp ∧
  (∀ core slot, ¬(core = e.path.core ∧ slot = e.path.slot) → s'.wg? core slot = e.s.wg? core slot) ∧
  ∃ g' t', e.wg s' = some g' ∧ g'.thread? e.t.tid = some t' ∧ (∀ tid, tid ≠ e.t.tid → g'.thread? tid = e.g.thread? tid) ∧
    (∀ n, Reg.v n ∉ i.dsts → t'.v.getD n {} = e.t.v.getD n {}) ∧ t'.p = e.t.p ∧ t'.conv = e.t.conv ∧ t'.bars = e.t.bars ∧
    t'.cbars = e.t.cbars ∧ (∀ n, Reg.w n ∉ i.dsts → g'.w.getD n { base := 0 } = e.g.w.getD n { base := 0 }) ∧ g'.c = e.g.c ∧
    g'.b = e.g.b ∧ g'.acc = e.g.acc
end

