-- ==== Sys2Proof/Laws/Lane.lean ====
section
/-! SUPPORT. What the shared operation of the lane-class instructions does: laneOp in one thread of the path. -/

namespace Sys2Proof.Machine

/-! Looking up what a map has changed. -/

/-- Elements of a list with distinct keys and one key are one. -/
theorem nodup_key {α β : Type} (k : α → β) {l : List α} (h : (l.map k).Nodup) {a b : α} (ha : a ∈ l) (hb : b ∈ l)
    (e : k a = k b) : a = b := by
  induction l with
  | nil => simp at ha
  | cons c l ih =>
    simp only [List.map_cons, List.nodup_cons] at h
    rcases List.mem_cons.1 ha with ha' | ha' <;> rcases List.mem_cons.1 hb with hb' | hb'
    · rw [ha', hb']
    · exact (h.1 (List.mem_map.2 ⟨b, hb', by rw [← e, ha']⟩)).elim
    · exact (h.1 (List.mem_map.2 ⟨a, ha', by rw [e, hb']⟩)).elim
    · exact ih h.2 ha' hb'

theorem find?_map_key {α : Type} (k : α → Nat) (f : α → α) (hk : ∀ a, k (f a) = k a) (n : Nat) (l : List α) :
    (l.map f).find? (fun a => k a == n) = (l.find? fun a => k a == n).map f := by
  induction l with
  | nil => rfl
  | cons a l ih => simp only [List.map_cons, List.find?_cons, hk]; split <;> simp_all

theorem wg?_setWg (s : State) (g g' : Workgroup) (c k : Nat) (h : s.wg? c k = some g) (hc : g'.core = g.core)
    (hs : g'.slot = g.slot) : (s.setWg g').wg? c k = some g' := by
  unfold State.wg? State.setWg at *
  simp only
  have hg := List.find?_some h
  simp only [Bool.and_eq_true, beq_iff_eq] at hg
  obtain ⟨rfl, rfl⟩ := hg
  rw [hc, hs]
  generalize s.wgs = l at h
  induction l with
  | nil => simp at h
  | cons a l ih =>
    simp only [List.find?_cons, List.map_cons] at *
    by_cases ha : (a.core == g.core && a.slot == g.slot) = true
    · simp [ha, hc, hs]
    · simp only [ha] at h ⊢
      simpa [ha] using ih h

theorem wg?_core {s : State} {c k : Nat} {g : Workgroup} (h : s.wg? c k = some g) : g.core = c ∧ g.slot = k := by
  have := List.find?_some h
  simpa using this

/-! The thread after writeLane. -/

/-- One register result of writeLane. -/
def Thread.put (now : Nat) (lk : LatK) (poi : Bool) (t : Thread) (q : Reg × Word) : Thread :=
  match q.1, lk with
  | .v n, .fixed l => t.setV n ((t.v.getD n {}).put now l q.2 poi)
  | .v n, .tracked id till => t.setV n (.await id till q.2 poi)
  | .w n, .fixed l =>
    { t with wbusy := t.wbusy.filter (fun b => b.w != n && (b.tag != 0 || decide (now < b.ready)))
                        ++ [{ w := n, ready := now + max l 8, tag := 0 }]
             lastW := max t.lastW (now + max l 8) }
  | .w n, .tracked id till =>
    { t with wbusy := t.wbusy.filter (·.w != n) ++ [{ w := n, ready := till, tag := id, val := q.2, poi := poi }] }

theorem writeLane_eq (now : Nat) (lk : LatK) (poi : Bool) (r : LaneRes) (t : Thread) :
    (t.writeLane now lk poi r).1 =
      { (r.preds.foldl (fun (t : Thread) q => t.setP now (match lk with | .fixed l => l | .tracked _ _ => 4) q.1 q.2 poi)
          (r.regs.foldl (Thread.put now lk poi) t)) with
        flags := stick (r.preds.foldl (fun (t : Thread) q => t.setP now (match lk with | .fixed l => l | .tracked _ _ => 4) q.1 q.2 poi)
          (r.regs.foldl (Thread.put now lk poi) t)).flags r.fl } := rfl

/-- What the results leave alone. -/
theorem put_keeps (now : Nat) (lk : LatK) (poi : Bool) (t : Thread) (q : Reg × Word) :
    (t.put now lk poi q).tid = t.tid ∧ (t.put now lk poi q).run = t.run ∧ (t.put now lk poi q).pc = t.pc ∧
    (t.put now lk poi q).p = t.p ∧ (t.put now lk poi q).flags = t.flags ∧ (t.put now lk poi q).v.length = t.v.length ∧
    (t.put now lk poi q).issued = t.issued := by
  obtain ⟨r, x⟩ := q
  cases r <;> cases lk <;> simp [Thread.put, Thread.setV]

theorem puts_keep (now : Nat) (lk : LatK) (poi : Bool) (l : List (Reg × Word)) (t : Thread) :
    (l.foldl (Thread.put now lk poi) t).tid = t.tid ∧ (l.foldl (Thread.put now lk poi) t).run = t.run ∧
    (l.foldl (Thread.put now lk poi) t).pc = t.pc ∧ (l.foldl (Thread.put now lk poi) t).p = t.p ∧
    (l.foldl (Thread.put now lk poi) t).flags = t.flags ∧ (l.foldl (Thread.put now lk poi) t).v.length = t.v.length ∧
    (l.foldl (Thread.put now lk poi) t).issued = t.issued := by
  induction l generalizing t with
  | nil => simp
  | cons q l ih =>
    have h := put_keeps now lk poi t q
    have h' := ih (t.put now lk poi q)
    simp only [List.foldl_cons]
    simp_all

theorem setPs_keep (now lat : Nat) (poi : Bool) (l : List (Nat × Bool)) (t : Thread) :
    let u := l.foldl (fun (t : Thread) q => t.setP now lat q.1 q.2 poi) t
    u.tid = t.tid ∧ u.run = t.run ∧ u.pc = t.pc ∧ u.v = t.v ∧ u.flags = t.flags ∧ u.wbusy = t.wbusy ∧
    u.issued = t.issued ∧ u.p.length = t.p.length := by
  induction l generalizing t with
  | nil => simp
  | cons q l ih => simpa [Thread.setP] using ih (t.setP now lat q.1 q.2 poi)

/-- The cell that a v result leaves. -/
def cellOf (now : Nat) (lk : LatK) (poi : Bool) (c : VCell) (x : Word) : VCell :=
  match lk with
  | .fixed l => c.put now l x poi
  | .tracked id till => .await id till x poi

theorem put_v (now : Nat) (lk : LatK) (poi : Bool) (t : Thread) (n m : Nat) (x : Word) (hn : n < t.v.length) :
    (t.put now lk poi (.v m, x)).v.getD n {} = if m = n then cellOf now lk poi (t.v.getD n {}) x else t.v.getD n {} := by
  by_cases h : m = n
  · subst h; cases lk <;> simp [Thread.put, Thread.setV, cellOf, List.getD_eq_getElem?_getD, hn]
  · cases lk <;> simp [Thread.put, Thread.setV, List.getD_eq_getElem?_getD, h, List.getElem?_set_ne h]

theorem put_w_v (now : Nat) (lk : LatK) (poi : Bool) (t : Thread) (m : Nat) (x : Word) :
    (t.put now lk poi (.w m, x)).v = t.v := by
  cases lk <;> rfl

theorem puts_other (now : Nat) (lk : LatK) (poi : Bool) (l : List (Reg × Word)) (t : Thread) (n : Nat)
    (hn : n < t.v.length) (h : ∀ x, (Reg.v n, x) ∉ l) :
    (l.foldl (Thread.put now lk poi) t).v.getD n {} = t.v.getD n {} := by
  induction l generalizing t with
  | nil => rfl
  | cons q l ih =>
    have hl : (t.put now lk poi q).v.length = t.v.length := (put_keeps now lk poi t q).2.2.2.2.2.1
    simp only [List.foldl_cons]
    rw [ih (t.put now lk poi q) (by omega) fun x hx => h x (List.mem_cons_of_mem _ hx)]
    obtain ⟨r, x⟩ := q
    cases r with
    | v m =>
      rw [put_v now lk poi t n m x hn]
      have : m ≠ n := fun hm => h x (by simp [hm])
      simp [this]
    | w m => rw [put_w_v]

theorem puts_v (now : Nat) (lk : LatK) (poi : Bool) (l : List (Reg × Word)) (t : Thread) (n : Nat) (x : Word)
    (hn : n < t.v.length) (h : (Reg.v n, x) ∈ l) (hd : (l.map (·.1)).Nodup) :
    (l.foldl (Thread.put now lk poi) t).v.getD n {} = cellOf now lk poi (t.v.getD n {}) x := by
  induction l generalizing t with
  | nil => simp at h
  | cons q l ih =>
    have hl : (t.put now lk poi q).v.length = t.v.length := (put_keeps now lk poi t q).2.2.2.2.2.1
    simp only [List.map_cons, List.nodup_cons] at hd
    simp only [List.foldl_cons]
    rcases List.mem_cons.1 h with h | h'
    · subst h
      rw [puts_other now lk poi l _ n (by omega), put_v now lk poi t n n x hn]
      · simp
      · intro y hy; exact hd.1 (List.mem_map.2 ⟨_, hy, rfl⟩)
    · rw [ih (t.put now lk poi q) (by omega) h' hd.2]
      obtain ⟨r, y⟩ := q
      cases r with
      | v m =>
        rw [put_v now lk poi t n m y hn]
        have : m ≠ n := by
          intro hm
          exact hd.1 (List.mem_map.2 ⟨(.v n, x), h', by rw [hm]⟩)
        simp [this]
      | w m => rw [put_w_v]

theorem setPs_p (now lat : Nat) (poi : Bool) (l : List (Nat × Bool)) (t : Thread) (n : Nat) (b : Bool)
    (hn : n < t.p.length) (h : (n, b) ∈ l) (hd : (l.map (·.1)).Nodup) :
    ((l.foldl (fun (t : Thread) q => t.setP now lat q.1 q.2 poi) t).p.getD n {}).val = b ∧
    ((l.foldl (fun (t : Thread) q => t.setP now lat q.1 q.2 poi) t).p.getD n {}).poi = poi := by
  have other : ∀ (l : List (Nat × Bool)) (t : Thread), (∀ b, (n, b) ∉ l) →
      (l.foldl (fun (t : Thread) q => t.setP now lat q.1 q.2 poi) t).p.getD n {} = t.p.getD n {} := by
    intro l
    induction l with
    | nil => intro t _; rfl
    | cons q l ih =>
      intro t h
      simp only [List.foldl_cons]
      rw [ih _ fun b hb => h b (List.mem_cons_of_mem _ hb)]
      have : q.1 ≠ n := fun hq => h q.2 (by rw [← hq]; simp)
      simp [Thread.setP, List.getD_eq_getElem?_getD, List.getElem?_modify, this]
  induction l generalizing t with
  | nil => simp at h
  | cons q l ih =>
    simp only [List.map_cons, List.nodup_cons] at hd
    simp only [List.foldl_cons]
    rcases List.mem_cons.1 h with h | h
    · subst h
      rw [other l _ fun y hy => hd.1 (List.mem_map.2 ⟨_, hy, rfl⟩)]
      simp [Thread.setP, List.getD_eq_getElem?_getD, List.getElem?_modify, hn]
    · exact ih _ (by simpa [Thread.setP] using hn) h hd.2

theorem put_wbusy (now id till : Nat) (poi : Bool) (l : List (Reg × Word)) (t : Thread) (n : Nat) (x : Word)
    (h : (Reg.w n, x) ∈ l) (hd : (l.map (·.1)).Nodup) :
    ({ w := n, ready := till, tag := id, val := x, poi := poi } : WBusy) ∈
      (l.foldl (Thread.put now (.tracked id till) poi) t).wbusy := by
  have keep : ∀ (l : List (Reg × Word)) (t : Thread) (b : WBusy), b ∈ t.wbusy → (∀ y, (Reg.w b.w, y) ∉ l) →
      b ∈ (l.foldl (Thread.put now (.tracked id till) poi) t).wbusy := by
    intro l
    induction l with
    | nil => intro t b hb _; exact hb
    | cons q l ih =>
      intro t b hb h
      simp only [List.foldl_cons]
      refine ih _ b ?_ fun y hy => h y (List.mem_cons_of_mem _ hy)
      obtain ⟨r, y⟩ := q
      cases r with
      | v m => simpa [Thread.put, Thread.setV] using hb
      | w m =>
        have : b.w ≠ m := fun hm => h y (by simp [hm])
        simp [Thread.put, hb, this]
  induction l generalizing t with
  | nil => simp at h
  | cons q l ih =>
    simp only [List.map_cons, List.nodup_cons] at hd
    simp only [List.foldl_cons]
    rcases List.mem_cons.1 h with h | h
    · subst h
      refine keep l _ _ (by simp [Thread.put]) ?_
      intro y hy; exact hd.1 (List.mem_map.2 ⟨_, hy, rfl⟩)
    · exact ih _ h hd.2

/-! Writes of one cycle to a workgroup register. -/

/-- No version of the register is settled. -/
def Shared.unsettled {α : Type} (now : Nat) (x : Shared α) : Prop := ∀ v ∈ x.hist, v.settled now = false

theorem settle_eq {α : Type} {now : Nat} {x : Shared α} (h : x.unsettled now) : x.settle now = x := by
  have go : ∀ (l : List (Ver α)) (a : Shared α), (∀ v ∈ l, v.settled now = false) →
      l.foldl (fun a v => if v.settled now then { base := v.val, poi := v.poi } else { a with hist := a.hist ++ [v] }) a =
        { a with hist := a.hist ++ l } := by
    intro l
    induction l with
    | nil => intro a _; simp
    | cons v l ih =>
      intro a h
      simp only [List.foldl_cons, h v List.mem_cons_self, Bool.false_eq_true, if_false]
      rw [ih _ fun u hu => h u (List.mem_cons_of_mem _ hu)]
      simp
  simpa [Shared.settle] using go x.hist { base := x.base, poi := x.poi } h

theorem settle_unsettled {α : Type} (now : Nat) (x : Shared α) : (x.settle now).unsettled now := by
  have go : ∀ (l : List (Ver α)) (a : Shared α), a.unsettled now →
      (l.foldl (fun a v => if v.settled now then { base := v.val, poi := v.poi } else { a with hist := a.hist ++ [v] })
        a).unsettled now := by
    intro l
    induction l with
    | nil => intro a h; exact h
    | cons v l ih =>
      intro a h
      simp only [List.foldl_cons]
      refine ih _ ?_
      split
      · intro u hu; simp at hu
      · rename_i hv
        intro u hu
        rcases List.mem_append.1 hu with hu | hu
        · exact h u hu
        · rw [List.mem_singleton.1 hu]; simpa using hv
  exact go x.hist _ fun u hu => by simp at hu

/-- What a write of this cycle leaves: itself, or a write of a higher thread; and nothing settled. -/
theorem put_has {α : Type} {now : Nat} {v : Ver α} (x : Shared α) (hi : v.issue = now) (hs : v.settled now = false) :
    (x.put now v).unsettled now ∧ ∃ u ∈ (x.put now v).hist, u.issue = now ∧ (v.tid < u.tid ∨ u = v) := by
  have S := settle_unsettled now x
  unfold Shared.put
  simp only
  split
  · rename_i h
    obtain ⟨u, hu, h⟩ := List.any_eq_true.1 h
    simp only [Bool.and_eq_true, beq_iff_eq, decide_eq_true_eq] at h
    exact ⟨S, u, hu, h.1, .inl h.2⟩
  · refine ⟨?_, v, by simp, hi, .inr rfl⟩
    intro u hu
    rcases List.mem_append.1 hu with hu | hu
    · exact S u (List.mem_of_mem_filter hu)
    · rw [List.mem_singleton.1 hu, hs]

/-- A write of another thread leaves this thread's write of the cycle, or one of a higher thread. -/
theorem put_stays {α : Type} {now : Nat} {v : Ver α} {x : Shared α} (t : Nat) (p : Ver α → Prop) (hi : v.issue = now)
    (hs : v.settled now = false) (ht : v.tid ≠ t) (hp : ∀ u, p u → u.tid = t) (hx : x.unsettled now)
    (h : ∃ u ∈ x.hist, u.issue = now ∧ (t < u.tid ∨ p u)) :
    (x.put now v).unsettled now ∧ ∃ u ∈ (x.put now v).hist, u.issue = now ∧ (t < u.tid ∨ p u) := by
  refine ⟨(put_has x hi hs).1, ?_⟩
  obtain ⟨u, hu, hn, h⟩ := h
  unfold Shared.put
  simp only [settle_eq hx]
  split
  · exact ⟨u, hu, hn, h⟩
  · rename_i hc
    refine ⟨v, by simp, hi, .inl ?_⟩
    have hb : ¬ v.tid < u.tid := fun hb => hc (List.any_eq_true.2 ⟨u, hu, by simp [hn, hb]⟩)
    rcases h with h | h
    · omega
    · have := hp u h; omega

/-- A write in its register is one version of this cycle, with its value if it is there at once. -/
theorem into_put (now lat : Nat) (q : WWrite) (x : Shared Word) :
    ∃ v : Ver Word, q.into now lat x = x.put now v ∧ v.issue = now ∧ v.tid = q.tid ∧ v.settled now = false ∧
      (q.id = 0 → v.val = q.val ∧ v.poi = q.poi) := by
  unfold WWrite.into
  by_cases h : q.id = 0
  · exact ⟨_, by simp [h]; rfl, rfl, rfl, by simp [Ver.settled], fun _ => ⟨rfl, rfl⟩⟩
  · exact ⟨_, by simp [h]; rfl, rfl, rfl, by simp [Ver.settled], fun h' => (h h').elim⟩

theorem writeW_core (now lat : Nat) (ws : List WWrite) (g : Workgroup) :
    (g.writeW now lat ws).core = g.core ∧ (g.writeW now lat ws).slot = g.slot ∧
    (g.writeW now lat ws).threads = g.threads := ⟨rfl, rfl, rfl⟩

/-- A write that is there at once is what its thread leaves in the register, unless a higher thread writes it too. -/
theorem writeW_has (now lat : Nat) (ws : List WWrite) (g : Workgroup) (q : WWrite) (h0 : q.id = 0)
    (hq : q ∈ ws) (hn : q.w < g.w.length) (hu : ∀ q' ∈ ws, q'.w = q.w → q'.tid = q.tid → q' = q) :
    ∃ v ∈ ((g.writeW now lat ws).w.getD q.w { base := 0 }).hist, v.issue = now ∧
      (q.tid < v.tid ∨ v.tid = q.tid ∧ v.val = q.val ∧ v.poi = q.poi) := by
  let p (v : Ver Word) : Prop := v.tid = q.tid ∧ v.val = q.val ∧ v.poi = q.poi
  let ok (w : List (Shared Word)) : Prop := (w.getD q.w { base := 0 }).unsettled now ∧
    ∃ v ∈ (w.getD q.w { base := 0 }).hist, v.issue = now ∧ (q.tid < v.tid ∨ p v)
  have own (w : List (Shared Word)) (hw : q.w < w.length) : ok (w.modify q.w (q.into now lat)) := by
    have e : (w.modify q.w (q.into now lat)).getD q.w { base := 0 } = q.into now lat (w.getD q.w { base := 0 }) := by
      simp [List.getD_eq_getElem?_getD, List.getElem?_modify, hw]
    obtain ⟨v, hv, hi, ht, hs, hval⟩ := into_put now lat q (w.getD q.w { base := 0 })
    obtain ⟨a, u, hu, hn, h⟩ := put_has (w.getD q.w { base := 0 }) hi hs
    simp only [ok, e, hv]
    refine ⟨a, u, hu, hn, ?_⟩
    rcases h with h | h
    · exact .inl (ht ▸ h)
    · subst h; exact .inr ⟨ht, hval h0⟩
  have keep : ∀ (ws : List WWrite) (w : List (Shared Word)), q.w < w.length →
      (∀ q' ∈ ws, q'.w = q.w → q'.tid = q.tid → q' = q) → ok w →
      ok (ws.foldl (fun w q => w.modify q.w (q.into now lat)) w) := by
    intro ws
    induction ws with
    | nil => intro w _ _ h; exact h
    | cons r ws ih =>
      intro w hw hu h
      simp only [List.foldl_cons]
      refine ih _ (by simpa using hw) (fun q' h' => hu q' (List.mem_cons_of_mem _ h')) ?_
      by_cases hr : r.w = q.w
      · by_cases ht : r.tid = q.tid
        · have := hu r List.mem_cons_self hr ht
          subst this
          exact own w hw
        · have e : (w.modify r.w (r.into now lat)).getD q.w { base := 0 } = r.into now lat (w.getD q.w { base := 0 }) := by
            simp [List.getD_eq_getElem?_getD, List.getElem?_modify, hr, hw]
          obtain ⟨v, hv, hi, hvt, hs, _⟩ := into_put now lat r (w.getD q.w { base := 0 })
          simp only [ok, e, hv]
          exact put_stays q.tid p hi hs (hvt ▸ ht) (fun u hu => hu.1) h.1 h.2
      · have e : (w.modify r.w (r.into now lat)).getD q.w { base := 0 } = w.getD q.w { base := 0 } := by
          simp [List.getD_eq_getElem?_getD, List.getElem?_modify, hr]
        simp only [ok, e]; exact h
  suffices ∀ (ws : List WWrite) (w : List (Shared Word)), q.w < w.length → q ∈ ws →
      (∀ q' ∈ ws, q'.w = q.w → q'.tid = q.tid → q' = q) →
      ok (ws.foldl (fun w q => w.modify q.w (q.into now lat)) w) from (this ws g.w hn hq hu).2
  intro ws
  induction ws with
  | nil => intro w _ h; simp at h
  | cons r ws ih =>
    intro w hw hq hu
    simp only [List.foldl_cons]
    rcases List.mem_cons.1 hq with h | h
    · subst h
      exact keep ws _ (by simpa using hw) (fun q' h' => hu q' (List.mem_cons_of_mem _ h')) (own w hw)
    · exact ih _ (by simpa using hw) h fun q' h' => hu q' (List.mem_cons_of_mem _ h')

/-! One thread of a lane-class instruction. -/

/-- The thread that a lane-class instruction leaves, and its writes to workgroup registers. -/
theorem laneThread_runs {e : Env} {i : Instr} (f : Env → LaneRes) (lk : LatK) (h : e.runsLane i) :
    laneThread i lk f e =
      (((e.latchClock i e.t).writeLane e.s.now lk (e.poisoned i) (f e)).1.retire e.s.now i.hdr.stall (e.t.pc + 8),
       ((e.latchClock i e.t).writeLane e.s.now lk (e.poisoned i) (f e)).2) := by
  obtain ⟨hi, hg, hr, hw⟩ := h
  obtain ⟨hr, ha⟩ := hr
  have live : e.live = true := by simp [Env.live, hi.run, hi.pc]
  have g : e.guard i.hdr = true := hg
  unfold laneThread
  simp only [live, g, hw, ha]
  by_cases hc : e.chk = true
  · simp [hc, hr hc]
  · simp [hc]

theorem latch_keeps (e : Env) (i : Instr) (t : Thread) :
    (e.latchClock i t).tid = t.tid ∧ (e.latchClock i t).v = t.v ∧ (e.latchClock i t).p = t.p ∧
    (e.latchClock i t).run = t.run ∧ (e.latchClock i t).flags = t.flags ∧ (e.latchClock i t).wbusy = t.wbusy ∧
    (e.latchClock i t).issued = t.issued ∧ (e.latchClock i t).pc = t.pc := by
  unfold Env.latchClock; split <;> simp

theorem writeLane_tid (now : Nat) (lk : LatK) (poi : Bool) (r : LaneRes) (t : Thread) :
    (t.writeLane now lk poi r).1.tid = t.tid := by
  rw [writeLane_eq]
  simp only
  rw [(setPs_keep now _ poi r.preds _).1, (puts_keep now lk poi r.regs t).1]

theorem laneThread_tid (i : Instr) (lk : LatK) (f : Env → LaneRes) (e : Env) : (laneThread i lk f e).1.tid = e.t.tid := by
  unfold laneThread
  simp only
  repeat' split
  all_goals first
    | rfl
    | (simp only [Thread.retire]; rw [writeLane_tid]; exact (latch_keeps e i e.t).1)

/-- The request that brings a result of this latency, 0 for a fixed latency. -/
def LatK.id : LatK → Nat
  | .tracked id _ => id
  | .fixed _ => 0

/-- The w-register writes of a thread carry its index. -/
theorem laneThread_ws (i : Instr) (lk : LatK) (f : Env → LaneRes) (e : Env) (q : WWrite) (h : q ∈ (laneThread i lk f e).2) :
    q.tid = e.t.tid ∧ (.w q.w, q.val) ∈ (f e).regs ∧ q.poi = e.poisoned i ∧
      q.id = lk.id := by
  unfold laneThread at h
  simp only at h
  repeat' split at h
  all_goals try (simp at h; done)
  simp only [Thread.writeLane, List.mem_filterMap] at h
  obtain ⟨⟨r, x⟩, hr, hq⟩ := h
  cases r with
  | v n => simp at hq
  | w n =>
    simp only [Option.some.injEq] at hq
    subst hq
    refine ⟨?_, hr, rfl, by cases lk <;> rfl⟩
    have a := (setPs_keep e.s.now (match lk with | .fixed l => l | .tracked _ _ => 4) (e.poisoned i) (f e).preds
      ((f e).regs.foldl (Thread.put e.s.now lk (e.poisoned i)) (e.latchClock i e.t))).1
    have b := (puts_keep e.s.now lk (e.poisoned i) (f e).regs (e.latchClock i e.t)).1
    have c := (latch_keeps e i e.t).1
    exact a.trans (b.trans c)

/-- laneOp in a thread that runs the instruction: what statements about lane-class instructions cite. -/
theorem laneOp_gives {e : Env} {i : Instr} (f : Env → LaneRes) (hx : exec i e.s = laneOp i f e.s) (h : e.runsLane i)
    (hd : ((f e).regs.map (·.1)).Nodup) (hp : ((f e).preds.map (·.1)).Nodup) : e.gives i (f e) := by
  have hi := h.1
  obtain ⟨hc, hk⟩ := wg?_core hi.wg
  let F (t : Thread) : Thread × List WWrite :=
    if e.path.tids.contains t.tid then laneThread i (latK i e.s) f { s := e.s, g := e.g, t := t, path := e.path } else (t, [])
  have Ftid (t : Thread) : (F t).1.tid = t.tid := by
    simp only [F]; split
    · exact laneThread_tid i _ f _
    · rfl
  have Fe : F e.t = laneThread i (latK i e.s) f e := by
    simp only [F, List.contains_iff_mem, hi.on, if_true]
  let g' := laneWg i f e.s e.path e.g
  have hg' : g' = laneWg i f e.s e.path e.g := rfl
  have thr : g'.threads = e.g.threads.map fun t => (F t).1 := by
    simp only [g', laneWg, Workgroup.writeW, List.map_map, F]
    rfl
  have wg : (e.s.setWg g').wg? e.path.core e.path.slot = some g' :=
    wg?_setWg e.s e.g g' _ _ hi.wg rfl rfl
  have th : g'.thread? e.t.tid = some (F e.t).1 := by
    have := find?_map_key (fun t : Thread => t.tid) (fun t => (F t).1) Ftid e.t.tid e.g.threads
    simp only [Workgroup.thread?, thr]
    rw [this]
    have := hi.thread
    simp only [Workgroup.thread?] at this
    rw [this]; rfl
  have run : exec i e.s = .next { e.s.setWg g' with nextId := e.s.nextId + 1 } := by
    rw [hx]; simp only [laneOp, hi.cur, hi.wg]; rfl
  refine ⟨_, g', (F e.t).1, run, wg, th, ?_⟩
  rw [Fe, laneThread_runs f _ h]
  have L := latch_keeps e i e.t
  simp only
  have P := puts_keep e.s.now (latK i e.s) (e.poisoned i) (f e).regs (e.latchClock i e.t)
  have Q := setPs_keep e.s.now (match latK i e.s with | .fixed l => l | .tracked _ _ => 4) (e.poisoned i) (f e).preds
    ((f e).regs.foldl (Thread.put e.s.now (latK i e.s) (e.poisoned i)) (e.latchClock i e.t))
  simp only at Q
  simp only [Thread.retire, writeLane_eq]
  refine ⟨trivial, trivial, ?_, ?_, ?_, ?_, ?_⟩
  · rw [Q.2.1, P.2.1, L.2.2.2.1, hi.run]
  · rw [Q.2.2.2.2.1, P.2.2.2.2.1, L.2.2.2.2.1]
  · intro n x hx hn
    rw [Q.2.2.2.1, puts_v _ _ _ _ _ n x (by rw [L.2.1]; exact hn) hx hd, L.2.1]
    simp only [Env.cell, latK, cellOf]
    cases i.latency <;> rfl
  · intro n x hx hn
    unfold Env.gaveW
    cases hl : i.latency with
    | none =>
      simp only [latK, hl]
      simp only [latK, hl] at Q
      refine ⟨{ w := n, ready := e.s.now + arrivesIn i, tag := e.s.nextId, val := x, poi := e.poisoned i }, ?_, rfl, rfl, rfl, rfl⟩
      rw [Q.2.2.2.2.2.1]
      exact put_wbusy _ _ _ _ _ _ n x hx hd
    | some l =>
      simp only
      have me : ({ w := n, tid := e.t.tid, val := x, poi := e.poisoned i } : WWrite) ∈ (F e.t).2 := by
        rw [Fe, laneThread_runs f _ h]
        simp only [latK, hl, Thread.writeLane]
        simp only [List.mem_filterMap]
        refine ⟨(.w n, x), hx, ?_⟩
        simp only [latK, hl] at P Q
        simp only [Option.some.injEq, WWrite.mk.injEq, true_and, and_true]
        exact (Q.1.trans (P.1.trans L.1))
      have hin : e.t ∈ e.g.threads := List.mem_of_find?_eq_some hi.thread
      have all : ({ w := n, tid := e.t.tid, val := x, poi := e.poisoned i } : WWrite) ∈ (e.g.threads.map F).flatMap (·.2) :=
        List.mem_flatMap.2 ⟨F e.t, List.mem_map.2 ⟨e.t, hin, rfl⟩, me⟩
      have uniq : ∀ q' ∈ (e.g.threads.map F).flatMap (·.2), q'.w = n → q'.tid = e.t.tid →
          q' = ({ w := n, tid := e.t.tid, val := x, poi := e.poisoned i } : WWrite) := by
        intro q' hq hw ht
        obtain ⟨p, hp', hq⟩ := List.mem_flatMap.1 hq
        obtain ⟨t, htm, rfl⟩ := List.mem_map.1 hp'
        have ht' : t = e.t := by
          have tt : t.tid = e.t.tid := by
            simp only [F] at hq
            split at hq
            · rw [← ht]; exact ((laneThread_ws i _ f _ q' hq).1).symm
            · simp at hq
          have := hi.distinct
          exact nodup_key _ this htm hin tt
        subst ht'
        rw [Fe] at hq
        have a := laneThread_ws i _ f e q' hq
        obtain ⟨qw, qt, qv, qp⟩ := q'
        simp only at a hw ht
        subst hw ht
        simp only [WWrite.mk.injEq, true_and]
        refine ⟨?_, a.2.2.1, by simpa [latK, hl, LatK.id] using a.2.2.2⟩
        have := nodup_key _ hd a.2.1 hx rfl
        simpa using this
      have := writeW_has e.s.now (i.latency.getD 0) ((e.g.threads.map F).flatMap (·.2))
        { e.g with threads := (e.g.threads.map F).map (·.1) } _ rfl all hn uniq
      simpa [g', laneWg, F] using this
  · intro n b hb hn
    exact setPs_p _ _ _ _ _ n b (by rw [P.2.2.2.1, L.2.2.1]; exact hn) hb hp

end Sys2Proof.Machine
end

