-- ==== Sys2Proof/Laws/State.lean ====
section
/-! SUPPORT. Every field under every update of the state, of a thread and of a workgroup; and what a workgroup or a thread
looks like after an update. -/

namespace Sys2Proof.Machine

/-! State. -/

@[simp] theorem State.setWg_now (s : State) (g : Workgroup) : (s.setWg g).now = s.now := rfl
@[simp] theorem State.setWg_ptp (s : State) (g : Workgroup) : (s.setWg g).ptp = s.ptp := rfl
@[simp] theorem State.setWg_ctxs (s : State) (g : Workgroup) : (s.setWg g).ctxs = s.ctxs := rfl
@[simp] theorem State.setWg_perf (s : State) (g : Workgroup) : (s.setWg g).perf = s.perf := rfl
@[simp] theorem State.setWg_m (s : State) (g : Workgroup) : (s.setWg g).m = s.m := rfl
@[simp] theorem State.setWg_e (s : State) (g : Workgroup) : (s.setWg g).e = s.e := rfl
@[simp] theorem State.setWg_y (s : State) (g : Workgroup) : (s.setWg g).y = s.y := rfl
@[simp] theorem State.setWg_latch (s : State) (g : Workgroup) : (s.setWg g).latch = s.latch := rfl
@[simp] theorem State.setWg_cur (s : State) (g : Workgroup) : (s.setWg g).cur = s.cur := rfl
@[simp] theorem State.setWg_asker (s : State) (g : Workgroup) : (s.setWg g).asker = s.asker := rfl
@[simp] theorem State.setWg_selDone (s : State) (g : Workgroup) : (s.setWg g).selDone = s.selDone := rfl
@[simp] theorem State.setWg_agenda (s : State) (g : Workgroup) : (s.setWg g).agenda = s.agenda := rfl
@[simp] theorem State.setWg_moves (s : State) (g : Workgroup) : (s.setWg g).moves = s.moves := rfl
@[simp] theorem State.setWg_nextId (s : State) (g : Workgroup) : (s.setWg g).nextId = s.nextId := rfl

@[simp] theorem State.modWg_now (s : State) (c k : Nat) (f : Workgroup → Workgroup) : (s.modWg c k f).now = s.now := rfl
@[simp] theorem State.modWg_ptp (s : State) (c k : Nat) (f : Workgroup → Workgroup) : (s.modWg c k f).ptp = s.ptp := rfl
@[simp] theorem State.modWg_ctxs (s : State) (c k : Nat) (f : Workgroup → Workgroup) : (s.modWg c k f).ctxs = s.ctxs := rfl
@[simp] theorem State.modWg_perf (s : State) (c k : Nat) (f : Workgroup → Workgroup) : (s.modWg c k f).perf = s.perf := rfl
@[simp] theorem State.modWg_m (s : State) (c k : Nat) (f : Workgroup → Workgroup) : (s.modWg c k f).m = s.m := rfl
@[simp] theorem State.modWg_e (s : State) (c k : Nat) (f : Workgroup → Workgroup) : (s.modWg c k f).e = s.e := rfl
@[simp] theorem State.modWg_y (s : State) (c k : Nat) (f : Workgroup → Workgroup) : (s.modWg c k f).y = s.y := rfl
@[simp] theorem State.modWg_latch (s : State) (c k : Nat) (f : Workgroup → Workgroup) : (s.modWg c k f).latch = s.latch := rfl
@[simp] theorem State.modWg_cur (s : State) (c k : Nat) (f : Workgroup → Workgroup) : (s.modWg c k f).cur = s.cur := rfl
@[simp] theorem State.modWg_asker (s : State) (c k : Nat) (f : Workgroup → Workgroup) : (s.modWg c k f).asker = s.asker := rfl
@[simp] theorem State.modWg_selDone (s : State) (c k : Nat) (f : Workgroup → Workgroup) : (s.modWg c k f).selDone = s.selDone := rfl
@[simp] theorem State.modWg_agenda (s : State) (c k : Nat) (f : Workgroup → Workgroup) : (s.modWg c k f).agenda = s.agenda := rfl
@[simp] theorem State.modWg_moves (s : State) (c k : Nat) (f : Workgroup → Workgroup) : (s.modWg c k f).moves = s.moves := rfl
@[simp] theorem State.modWg_nextId (s : State) (c k : Nat) (f : Workgroup → Workgroup) : (s.modWg c k f).nextId = s.nextId := rfl

@[simp] theorem State.modThread_now (s : State) (c k t : Nat) (f : Thread → Thread) : (s.modThread c k t f).now = s.now := rfl
@[simp] theorem State.modThread_ptp (s : State) (c k t : Nat) (f : Thread → Thread) : (s.modThread c k t f).ptp = s.ptp := rfl
@[simp] theorem State.modThread_ctxs (s : State) (c k t : Nat) (f : Thread → Thread) : (s.modThread c k t f).ctxs = s.ctxs := rfl
@[simp] theorem State.modThread_perf (s : State) (c k t : Nat) (f : Thread → Thread) : (s.modThread c k t f).perf = s.perf := rfl
@[simp] theorem State.modThread_m (s : State) (c k t : Nat) (f : Thread → Thread) : (s.modThread c k t f).m = s.m := rfl
@[simp] theorem State.modThread_e (s : State) (c k t : Nat) (f : Thread → Thread) : (s.modThread c k t f).e = s.e := rfl
@[simp] theorem State.modThread_y (s : State) (c k t : Nat) (f : Thread → Thread) : (s.modThread c k t f).y = s.y := rfl
@[simp] theorem State.modThread_latch (s : State) (c k t : Nat) (f : Thread → Thread) : (s.modThread c k t f).latch = s.latch := rfl
@[simp] theorem State.modThread_cur (s : State) (c k t : Nat) (f : Thread → Thread) : (s.modThread c k t f).cur = s.cur := rfl
@[simp] theorem State.modThread_asker (s : State) (c k t : Nat) (f : Thread → Thread) : (s.modThread c k t f).asker = s.asker := rfl
@[simp] theorem State.modThread_selDone (s : State) (c k t : Nat) (f : Thread → Thread) : (s.modThread c k t f).selDone = s.selDone := rfl
@[simp] theorem State.modThread_agenda (s : State) (c k t : Nat) (f : Thread → Thread) : (s.modThread c k t f).agenda = s.agenda := rfl
@[simp] theorem State.modThread_moves (s : State) (c k t : Nat) (f : Thread → Thread) : (s.modThread c k t f).moves = s.moves := rfl
@[simp] theorem State.modThread_nextId (s : State) (c k t : Nat) (f : Thread → Thread) : (s.modThread c k t f).nextId = s.nextId := rfl

@[simp] theorem State.deliver_now (s : State) (c k t : Nat) (r : Reg) (x : Word) (p : Bool) : (s.deliver c k t r x p).now = s.now := rfl
@[simp] theorem State.deliver_ptp (s : State) (c k t : Nat) (r : Reg) (x : Word) (p : Bool) : (s.deliver c k t r x p).ptp = s.ptp := rfl
@[simp] theorem State.deliver_ctxs (s : State) (c k t : Nat) (r : Reg) (x : Word) (p : Bool) : (s.deliver c k t r x p).ctxs = s.ctxs := rfl
@[simp] theorem State.deliver_perf (s : State) (c k t : Nat) (r : Reg) (x : Word) (p : Bool) : (s.deliver c k t r x p).perf = s.perf := rfl
@[simp] theorem State.deliver_m (s : State) (c k t : Nat) (r : Reg) (x : Word) (p : Bool) : (s.deliver c k t r x p).m = s.m := rfl
@[simp] theorem State.deliver_e (s : State) (c k t : Nat) (r : Reg) (x : Word) (p : Bool) : (s.deliver c k t r x p).e = s.e := rfl
@[simp] theorem State.deliver_y (s : State) (c k t : Nat) (r : Reg) (x : Word) (p : Bool) : (s.deliver c k t r x p).y = s.y := rfl
@[simp] theorem State.deliver_latch (s : State) (c k t : Nat) (r : Reg) (x : Word) (p : Bool) : (s.deliver c k t r x p).latch = s.latch := rfl
@[simp] theorem State.deliver_cur (s : State) (c k t : Nat) (r : Reg) (x : Word) (p : Bool) : (s.deliver c k t r x p).cur = s.cur := rfl
@[simp] theorem State.deliver_asker (s : State) (c k t : Nat) (r : Reg) (x : Word) (p : Bool) : (s.deliver c k t r x p).asker = s.asker := rfl
@[simp] theorem State.deliver_selDone (s : State) (c k t : Nat) (r : Reg) (x : Word) (p : Bool) : (s.deliver c k t r x p).selDone = s.selDone := rfl
@[simp] theorem State.deliver_agenda (s : State) (c k t : Nat) (r : Reg) (x : Word) (p : Bool) : (s.deliver c k t r x p).agenda = s.agenda := rfl
@[simp] theorem State.deliver_moves (s : State) (c k t : Nat) (r : Reg) (x : Word) (p : Bool) : (s.deliver c k t r x p).moves = s.moves := rfl
@[simp] theorem State.deliver_nextId (s : State) (c k t : Nat) (r : Reg) (x : Word) (p : Bool) : (s.deliver c k t r x p).nextId = s.nextId := rfl

@[simp] theorem State.setCtx_now (s : State) (n : Nat) (x : Context) : (s.setCtx n x).now = s.now := rfl
@[simp] theorem State.setCtx_ptp (s : State) (n : Nat) (x : Context) : (s.setCtx n x).ptp = s.ptp := rfl
@[simp] theorem State.setCtx_wgs (s : State) (n : Nat) (x : Context) : (s.setCtx n x).wgs = s.wgs := rfl
@[simp] theorem State.setCtx_perf (s : State) (n : Nat) (x : Context) : (s.setCtx n x).perf = s.perf := rfl
@[simp] theorem State.setCtx_m (s : State) (n : Nat) (x : Context) : (s.setCtx n x).m = s.m := rfl
@[simp] theorem State.setCtx_e (s : State) (n : Nat) (x : Context) : (s.setCtx n x).e = s.e := rfl
@[simp] theorem State.setCtx_y (s : State) (n : Nat) (x : Context) : (s.setCtx n x).y = s.y := rfl
@[simp] theorem State.setCtx_latch (s : State) (n : Nat) (x : Context) : (s.setCtx n x).latch = s.latch := rfl
@[simp] theorem State.setCtx_cur (s : State) (n : Nat) (x : Context) : (s.setCtx n x).cur = s.cur := rfl
@[simp] theorem State.setCtx_asker (s : State) (n : Nat) (x : Context) : (s.setCtx n x).asker = s.asker := rfl
@[simp] theorem State.setCtx_selDone (s : State) (n : Nat) (x : Context) : (s.setCtx n x).selDone = s.selDone := rfl
@[simp] theorem State.setCtx_agenda (s : State) (n : Nat) (x : Context) : (s.setCtx n x).agenda = s.agenda := rfl
@[simp] theorem State.setCtx_moves (s : State) (n : Nat) (x : Context) : (s.setCtx n x).moves = s.moves := rfl
@[simp] theorem State.setCtx_nextId (s : State) (n : Nat) (x : Context) : (s.setCtx n x).nextId = s.nextId := rfl

@[simp] theorem State.raiseHalt_now (s : State) (n r d : Nat) : (s.raiseHalt n r d).now = s.now := rfl
@[simp] theorem State.raiseHalt_ptp (s : State) (n r d : Nat) : (s.raiseHalt n r d).ptp = s.ptp := rfl
@[simp] theorem State.raiseHalt_wgs (s : State) (n r d : Nat) : (s.raiseHalt n r d).wgs = s.wgs := rfl
@[simp] theorem State.raiseHalt_perf (s : State) (n r d : Nat) : (s.raiseHalt n r d).perf = s.perf := rfl
@[simp] theorem State.raiseHalt_m (s : State) (n r d : Nat) : (s.raiseHalt n r d).m = s.m := rfl
@[simp] theorem State.raiseHalt_e (s : State) (n r d : Nat) : (s.raiseHalt n r d).e = s.e := rfl
@[simp] theorem State.raiseHalt_y (s : State) (n r d : Nat) : (s.raiseHalt n r d).y = s.y := rfl
@[simp] theorem State.raiseHalt_latch (s : State) (n r d : Nat) : (s.raiseHalt n r d).latch = s.latch := rfl
@[simp] theorem State.raiseHalt_cur (s : State) (n r d : Nat) : (s.raiseHalt n r d).cur = s.cur := rfl
@[simp] theorem State.raiseHalt_asker (s : State) (n r d : Nat) : (s.raiseHalt n r d).asker = s.asker := rfl
@[simp] theorem State.raiseHalt_selDone (s : State) (n r d : Nat) : (s.raiseHalt n r d).selDone = s.selDone := rfl
@[simp] theorem State.raiseHalt_agenda (s : State) (n r d : Nat) : (s.raiseHalt n r d).agenda = s.agenda := rfl
@[simp] theorem State.raiseHalt_moves (s : State) (n r d : Nat) : (s.raiseHalt n r d).moves = s.moves := rfl
@[simp] theorem State.raiseHalt_nextId (s : State) (n r d : Nat) : (s.raiseHalt n r d).nextId = s.nextId := rfl

@[simp] theorem State.fresh_now (s : State) : (s.fresh).now = s.now := rfl
@[simp] theorem State.fresh_ptp (s : State) : (s.fresh).ptp = s.ptp := rfl
@[simp] theorem State.fresh_ctxs (s : State) : (s.fresh).ctxs = s.ctxs := rfl
@[simp] theorem State.fresh_wgs (s : State) : (s.fresh).wgs = s.wgs := rfl
@[simp] theorem State.fresh_perf (s : State) : (s.fresh).perf = s.perf := rfl
@[simp] theorem State.fresh_m (s : State) : (s.fresh).m = s.m := rfl
@[simp] theorem State.fresh_e (s : State) : (s.fresh).e = s.e := rfl
@[simp] theorem State.fresh_y (s : State) : (s.fresh).y = s.y := rfl
@[simp] theorem State.fresh_latch (s : State) : (s.fresh).latch = s.latch := rfl
@[simp] theorem State.fresh_cur (s : State) : (s.fresh).cur = s.cur := rfl
@[simp] theorem State.fresh_asker (s : State) : (s.fresh).asker = s.asker := rfl
@[simp] theorem State.fresh_selDone (s : State) : (s.fresh).selDone = s.selDone := rfl
@[simp] theorem State.fresh_agenda (s : State) : (s.fresh).agenda = s.agenda := rfl
@[simp] theorem State.fresh_moves (s : State) : (s.fresh).moves = s.moves := rfl

@[simp] theorem State.setReads_now (s : State) (f : List RReq → List RReq) : (s.setReads f).now = s.now := rfl
@[simp] theorem State.setReads_ptp (s : State) (f : List RReq → List RReq) : (s.setReads f).ptp = s.ptp := rfl
@[simp] theorem State.setReads_ctxs (s : State) (f : List RReq → List RReq) : (s.setReads f).ctxs = s.ctxs := rfl
@[simp] theorem State.setReads_wgs (s : State) (f : List RReq → List RReq) : (s.setReads f).wgs = s.wgs := rfl
@[simp] theorem State.setReads_perf (s : State) (f : List RReq → List RReq) : (s.setReads f).perf = s.perf := rfl
@[simp] theorem State.setReads_e (s : State) (f : List RReq → List RReq) : (s.setReads f).e = s.e := rfl
@[simp] theorem State.setReads_y (s : State) (f : List RReq → List RReq) : (s.setReads f).y = s.y := rfl
@[simp] theorem State.setReads_latch (s : State) (f : List RReq → List RReq) : (s.setReads f).latch = s.latch := rfl
@[simp] theorem State.setReads_cur (s : State) (f : List RReq → List RReq) : (s.setReads f).cur = s.cur := rfl
@[simp] theorem State.setReads_asker (s : State) (f : List RReq → List RReq) : (s.setReads f).asker = s.asker := rfl
@[simp] theorem State.setReads_selDone (s : State) (f : List RReq → List RReq) : (s.setReads f).selDone = s.selDone := rfl
@[simp] theorem State.setReads_agenda (s : State) (f : List RReq → List RReq) : (s.setReads f).agenda = s.agenda := rfl
@[simp] theorem State.setReads_moves (s : State) (f : List RReq → List RReq) : (s.setReads f).moves = s.moves := rfl
@[simp] theorem State.setReads_nextId (s : State) (f : List RReq → List RReq) : (s.setReads f).nextId = s.nextId := rfl

@[simp] theorem State.setWrites_now (s : State) (f : List WEnt → List WEnt) : (s.setWrites f).now = s.now := rfl
@[simp] theorem State.setWrites_ptp (s : State) (f : List WEnt → List WEnt) : (s.setWrites f).ptp = s.ptp := rfl
@[simp] theorem State.setWrites_ctxs (s : State) (f : List WEnt → List WEnt) : (s.setWrites f).ctxs = s.ctxs := rfl
@[simp] theorem State.setWrites_wgs (s : State) (f : List WEnt → List WEnt) : (s.setWrites f).wgs = s.wgs := rfl
@[simp] theorem State.setWrites_perf (s : State) (f : List WEnt → List WEnt) : (s.setWrites f).perf = s.perf := rfl
@[simp] theorem State.setWrites_e (s : State) (f : List WEnt → List WEnt) : (s.setWrites f).e = s.e := rfl
@[simp] theorem State.setWrites_y (s : State) (f : List WEnt → List WEnt) : (s.setWrites f).y = s.y := rfl
@[simp] theorem State.setWrites_latch (s : State) (f : List WEnt → List WEnt) : (s.setWrites f).latch = s.latch := rfl
@[simp] theorem State.setWrites_cur (s : State) (f : List WEnt → List WEnt) : (s.setWrites f).cur = s.cur := rfl
@[simp] theorem State.setWrites_asker (s : State) (f : List WEnt → List WEnt) : (s.setWrites f).asker = s.asker := rfl
@[simp] theorem State.setWrites_selDone (s : State) (f : List WEnt → List WEnt) : (s.setWrites f).selDone = s.selDone := rfl
@[simp] theorem State.setWrites_agenda (s : State) (f : List WEnt → List WEnt) : (s.setWrites f).agenda = s.agenda := rfl
@[simp] theorem State.setWrites_moves (s : State) (f : List WEnt → List WEnt) : (s.setWrites f).moves = s.moves := rfl
@[simp] theorem State.setWrites_nextId (s : State) (f : List WEnt → List WEnt) : (s.setWrites f).nextId = s.nextId := rfl

@[simp] theorem State.setAtoms_now (s : State) (f : List AReq → List AReq) : (s.setAtoms f).now = s.now := rfl
@[simp] theorem State.setAtoms_ptp (s : State) (f : List AReq → List AReq) : (s.setAtoms f).ptp = s.ptp := rfl
@[simp] theorem State.setAtoms_ctxs (s : State) (f : List AReq → List AReq) : (s.setAtoms f).ctxs = s.ctxs := rfl
@[simp] theorem State.setAtoms_wgs (s : State) (f : List AReq → List AReq) : (s.setAtoms f).wgs = s.wgs := rfl
@[simp] theorem State.setAtoms_perf (s : State) (f : List AReq → List AReq) : (s.setAtoms f).perf = s.perf := rfl
@[simp] theorem State.setAtoms_e (s : State) (f : List AReq → List AReq) : (s.setAtoms f).e = s.e := rfl
@[simp] theorem State.setAtoms_y (s : State) (f : List AReq → List AReq) : (s.setAtoms f).y = s.y := rfl
@[simp] theorem State.setAtoms_latch (s : State) (f : List AReq → List AReq) : (s.setAtoms f).latch = s.latch := rfl
@[simp] theorem State.setAtoms_cur (s : State) (f : List AReq → List AReq) : (s.setAtoms f).cur = s.cur := rfl
@[simp] theorem State.setAtoms_asker (s : State) (f : List AReq → List AReq) : (s.setAtoms f).asker = s.asker := rfl
@[simp] theorem State.setAtoms_selDone (s : State) (f : List AReq → List AReq) : (s.setAtoms f).selDone = s.selDone := rfl
@[simp] theorem State.setAtoms_agenda (s : State) (f : List AReq → List AReq) : (s.setAtoms f).agenda = s.agenda := rfl
@[simp] theorem State.setAtoms_moves (s : State) (f : List AReq → List AReq) : (s.setAtoms f).moves = s.moves := rfl
@[simp] theorem State.setAtoms_nextId (s : State) (f : List AReq → List AReq) : (s.setAtoms f).nextId = s.nextId := rfl

@[simp] theorem State.setLeases_now (s : State) (f : List LeaseEnt → List LeaseEnt) : (s.setLeases f).now = s.now := rfl
@[simp] theorem State.setLeases_ptp (s : State) (f : List LeaseEnt → List LeaseEnt) : (s.setLeases f).ptp = s.ptp := rfl
@[simp] theorem State.setLeases_ctxs (s : State) (f : List LeaseEnt → List LeaseEnt) : (s.setLeases f).ctxs = s.ctxs := rfl
@[simp] theorem State.setLeases_wgs (s : State) (f : List LeaseEnt → List LeaseEnt) : (s.setLeases f).wgs = s.wgs := rfl
@[simp] theorem State.setLeases_perf (s : State) (f : List LeaseEnt → List LeaseEnt) : (s.setLeases f).perf = s.perf := rfl
@[simp] theorem State.setLeases_e (s : State) (f : List LeaseEnt → List LeaseEnt) : (s.setLeases f).e = s.e := rfl
@[simp] theorem State.setLeases_y (s : State) (f : List LeaseEnt → List LeaseEnt) : (s.setLeases f).y = s.y := rfl
@[simp] theorem State.setLeases_latch (s : State) (f : List LeaseEnt → List LeaseEnt) : (s.setLeases f).latch = s.latch := rfl
@[simp] theorem State.setLeases_cur (s : State) (f : List LeaseEnt → List LeaseEnt) : (s.setLeases f).cur = s.cur := rfl
@[simp] theorem State.setLeases_asker (s : State) (f : List LeaseEnt → List LeaseEnt) : (s.setLeases f).asker = s.asker := rfl
@[simp] theorem State.setLeases_selDone (s : State) (f : List LeaseEnt → List LeaseEnt) : (s.setLeases f).selDone = s.selDone := rfl
@[simp] theorem State.setLeases_agenda (s : State) (f : List LeaseEnt → List LeaseEnt) : (s.setLeases f).agenda = s.agenda := rfl
@[simp] theorem State.setLeases_moves (s : State) (f : List LeaseEnt → List LeaseEnt) : (s.setLeases f).moves = s.moves := rfl
@[simp] theorem State.setLeases_nextId (s : State) (f : List LeaseEnt → List LeaseEnt) : (s.setLeases f).nextId = s.nextId := rfl

@[simp] theorem State.modQueue_now (s : State) (n : Nat) (f : Queue → Queue) : (s.modQueue n f).now = s.now := rfl
@[simp] theorem State.modQueue_ptp (s : State) (n : Nat) (f : Queue → Queue) : (s.modQueue n f).ptp = s.ptp := rfl
@[simp] theorem State.modQueue_ctxs (s : State) (n : Nat) (f : Queue → Queue) : (s.modQueue n f).ctxs = s.ctxs := rfl
@[simp] theorem State.modQueue_wgs (s : State) (n : Nat) (f : Queue → Queue) : (s.modQueue n f).wgs = s.wgs := rfl
@[simp] theorem State.modQueue_perf (s : State) (n : Nat) (f : Queue → Queue) : (s.modQueue n f).perf = s.perf := rfl
@[simp] theorem State.modQueue_m (s : State) (n : Nat) (f : Queue → Queue) : (s.modQueue n f).m = s.m := rfl
@[simp] theorem State.modQueue_e (s : State) (n : Nat) (f : Queue → Queue) : (s.modQueue n f).e = s.e := rfl
@[simp] theorem State.modQueue_latch (s : State) (n : Nat) (f : Queue → Queue) : (s.modQueue n f).latch = s.latch := rfl
@[simp] theorem State.modQueue_cur (s : State) (n : Nat) (f : Queue → Queue) : (s.modQueue n f).cur = s.cur := rfl
@[simp] theorem State.modQueue_asker (s : State) (n : Nat) (f : Queue → Queue) : (s.modQueue n f).asker = s.asker := rfl
@[simp] theorem State.modQueue_selDone (s : State) (n : Nat) (f : Queue → Queue) : (s.modQueue n f).selDone = s.selDone := rfl
@[simp] theorem State.modQueue_agenda (s : State) (n : Nat) (f : Queue → Queue) : (s.modQueue n f).agenda = s.agenda := rfl
@[simp] theorem State.modQueue_moves (s : State) (n : Nat) (f : Queue → Queue) : (s.modQueue n f).moves = s.moves := rfl
@[simp] theorem State.modQueue_nextId (s : State) (n : Nat) (f : Queue → Queue) : (s.modQueue n f).nextId = s.nextId := rfl

@[simp] theorem State.modDie_now (s : State) (n : Nat) (f : Die → Die) : (s.modDie n f).now = s.now := rfl
@[simp] theorem State.modDie_ptp (s : State) (n : Nat) (f : Die → Die) : (s.modDie n f).ptp = s.ptp := rfl
@[simp] theorem State.modDie_ctxs (s : State) (n : Nat) (f : Die → Die) : (s.modDie n f).ctxs = s.ctxs := rfl
@[simp] theorem State.modDie_wgs (s : State) (n : Nat) (f : Die → Die) : (s.modDie n f).wgs = s.wgs := rfl
@[simp] theorem State.modDie_perf (s : State) (n : Nat) (f : Die → Die) : (s.modDie n f).perf = s.perf := rfl
@[simp] theorem State.modDie_m (s : State) (n : Nat) (f : Die → Die) : (s.modDie n f).m = s.m := rfl
@[simp] theorem State.modDie_e (s : State) (n : Nat) (f : Die → Die) : (s.modDie n f).e = s.e := rfl
@[simp] theorem State.modDie_latch (s : State) (n : Nat) (f : Die → Die) : (s.modDie n f).latch = s.latch := rfl
@[simp] theorem State.modDie_cur (s : State) (n : Nat) (f : Die → Die) : (s.modDie n f).cur = s.cur := rfl
@[simp] theorem State.modDie_asker (s : State) (n : Nat) (f : Die → Die) : (s.modDie n f).asker = s.asker := rfl
@[simp] theorem State.modDie_selDone (s : State) (n : Nat) (f : Die → Die) : (s.modDie n f).selDone = s.selDone := rfl
@[simp] theorem State.modDie_agenda (s : State) (n : Nat) (f : Die → Die) : (s.modDie n f).agenda = s.agenda := rfl
@[simp] theorem State.modDie_moves (s : State) (n : Nat) (f : Die → Die) : (s.modDie n f).moves = s.moves := rfl
@[simp] theorem State.modDie_nextId (s : State) (n : Nat) (f : Die → Die) : (s.modDie n f).nextId = s.nextId := rfl

@[simp] theorem State.reply_now (s : State) (r : Reply) : (s.reply r).now = s.now := rfl
@[simp] theorem State.reply_ptp (s : State) (r : Reply) : (s.reply r).ptp = s.ptp := rfl
@[simp] theorem State.reply_ctxs (s : State) (r : Reply) : (s.reply r).ctxs = s.ctxs := rfl
@[simp] theorem State.reply_wgs (s : State) (r : Reply) : (s.reply r).wgs = s.wgs := rfl
@[simp] theorem State.reply_perf (s : State) (r : Reply) : (s.reply r).perf = s.perf := rfl
@[simp] theorem State.reply_m (s : State) (r : Reply) : (s.reply r).m = s.m := rfl
@[simp] theorem State.reply_e (s : State) (r : Reply) : (s.reply r).e = s.e := rfl
@[simp] theorem State.reply_latch (s : State) (r : Reply) : (s.reply r).latch = s.latch := rfl
@[simp] theorem State.reply_cur (s : State) (r : Reply) : (s.reply r).cur = s.cur := rfl
@[simp] theorem State.reply_asker (s : State) (r : Reply) : (s.reply r).asker = s.asker := rfl
@[simp] theorem State.reply_selDone (s : State) (r : Reply) : (s.reply r).selDone = s.selDone := rfl
@[simp] theorem State.reply_agenda (s : State) (r : Reply) : (s.reply r).agenda = s.agenda := rfl
@[simp] theorem State.reply_moves (s : State) (r : Reply) : (s.reply r).moves = s.moves := rfl
@[simp] theorem State.reply_nextId (s : State) (r : Reply) : (s.reply r).nextId = s.nextId := rfl

@[simp] theorem State.modCmd_now (s : State) (n : Nat) (f : Cmd → Cmd) : (s.modCmd n f).now = s.now := rfl
@[simp] theorem State.modCmd_ptp (s : State) (n : Nat) (f : Cmd → Cmd) : (s.modCmd n f).ptp = s.ptp := rfl
@[simp] theorem State.modCmd_ctxs (s : State) (n : Nat) (f : Cmd → Cmd) : (s.modCmd n f).ctxs = s.ctxs := rfl
@[simp] theorem State.modCmd_wgs (s : State) (n : Nat) (f : Cmd → Cmd) : (s.modCmd n f).wgs = s.wgs := rfl
@[simp] theorem State.modCmd_perf (s : State) (n : Nat) (f : Cmd → Cmd) : (s.modCmd n f).perf = s.perf := rfl
@[simp] theorem State.modCmd_m (s : State) (n : Nat) (f : Cmd → Cmd) : (s.modCmd n f).m = s.m := rfl
@[simp] theorem State.modCmd_y (s : State) (n : Nat) (f : Cmd → Cmd) : (s.modCmd n f).y = s.y := rfl
@[simp] theorem State.modCmd_latch (s : State) (n : Nat) (f : Cmd → Cmd) : (s.modCmd n f).latch = s.latch := rfl
@[simp] theorem State.modCmd_cur (s : State) (n : Nat) (f : Cmd → Cmd) : (s.modCmd n f).cur = s.cur := rfl
@[simp] theorem State.modCmd_asker (s : State) (n : Nat) (f : Cmd → Cmd) : (s.modCmd n f).asker = s.asker := rfl
@[simp] theorem State.modCmd_selDone (s : State) (n : Nat) (f : Cmd → Cmd) : (s.modCmd n f).selDone = s.selDone := rfl
@[simp] theorem State.modCmd_agenda (s : State) (n : Nat) (f : Cmd → Cmd) : (s.modCmd n f).agenda = s.agenda := rfl
@[simp] theorem State.modCmd_moves (s : State) (n : Nat) (f : Cmd → Cmd) : (s.modCmd n f).moves = s.moves := rfl
@[simp] theorem State.modCmd_nextId (s : State) (n : Nat) (f : Cmd → Cmd) : (s.modCmd n f).nextId = s.nextId := rfl

@[simp] theorem State.modEntry_now (s : State) (c k : Nat) (f : MEnt → MEnt) : (s.modEntry c k f).now = s.now := rfl
@[simp] theorem State.modEntry_ptp (s : State) (c k : Nat) (f : MEnt → MEnt) : (s.modEntry c k f).ptp = s.ptp := rfl
@[simp] theorem State.modEntry_ctxs (s : State) (c k : Nat) (f : MEnt → MEnt) : (s.modEntry c k f).ctxs = s.ctxs := rfl
@[simp] theorem State.modEntry_wgs (s : State) (c k : Nat) (f : MEnt → MEnt) : (s.modEntry c k f).wgs = s.wgs := rfl
@[simp] theorem State.modEntry_perf (s : State) (c k : Nat) (f : MEnt → MEnt) : (s.modEntry c k f).perf = s.perf := rfl
@[simp] theorem State.modEntry_m (s : State) (c k : Nat) (f : MEnt → MEnt) : (s.modEntry c k f).m = s.m := rfl
@[simp] theorem State.modEntry_y (s : State) (c k : Nat) (f : MEnt → MEnt) : (s.modEntry c k f).y = s.y := rfl
@[simp] theorem State.modEntry_latch (s : State) (c k : Nat) (f : MEnt → MEnt) : (s.modEntry c k f).latch = s.latch := rfl
@[simp] theorem State.modEntry_cur (s : State) (c k : Nat) (f : MEnt → MEnt) : (s.modEntry c k f).cur = s.cur := rfl
@[simp] theorem State.modEntry_asker (s : State) (c k : Nat) (f : MEnt → MEnt) : (s.modEntry c k f).asker = s.asker := rfl
@[simp] theorem State.modEntry_selDone (s : State) (c k : Nat) (f : MEnt → MEnt) : (s.modEntry c k f).selDone = s.selDone := rfl
@[simp] theorem State.modEntry_agenda (s : State) (c k : Nat) (f : MEnt → MEnt) : (s.modEntry c k f).agenda = s.agenda := rfl
@[simp] theorem State.modEntry_moves (s : State) (c k : Nat) (f : MEnt → MEnt) : (s.modEntry c k f).moves = s.moves := rfl
@[simp] theorem State.modEntry_nextId (s : State) (c k : Nat) (f : MEnt → MEnt) : (s.modEntry c k f).nextId = s.nextId := rfl

@[simp] theorem State.modSlot_now (s : State) (c k l : Nat) (f : DSlot → DSlot) : (s.modSlot c k l f).now = s.now := rfl
@[simp] theorem State.modSlot_ptp (s : State) (c k l : Nat) (f : DSlot → DSlot) : (s.modSlot c k l f).ptp = s.ptp := rfl
@[simp] theorem State.modSlot_ctxs (s : State) (c k l : Nat) (f : DSlot → DSlot) : (s.modSlot c k l f).ctxs = s.ctxs := rfl
@[simp] theorem State.modSlot_wgs (s : State) (c k l : Nat) (f : DSlot → DSlot) : (s.modSlot c k l f).wgs = s.wgs := rfl
@[simp] theorem State.modSlot_perf (s : State) (c k l : Nat) (f : DSlot → DSlot) : (s.modSlot c k l f).perf = s.perf := rfl
@[simp] theorem State.modSlot_m (s : State) (c k l : Nat) (f : DSlot → DSlot) : (s.modSlot c k l f).m = s.m := rfl
@[simp] theorem State.modSlot_y (s : State) (c k l : Nat) (f : DSlot → DSlot) : (s.modSlot c k l f).y = s.y := rfl
@[simp] theorem State.modSlot_latch (s : State) (c k l : Nat) (f : DSlot → DSlot) : (s.modSlot c k l f).latch = s.latch := rfl
@[simp] theorem State.modSlot_cur (s : State) (c k l : Nat) (f : DSlot → DSlot) : (s.modSlot c k l f).cur = s.cur := rfl
@[simp] theorem State.modSlot_asker (s : State) (c k l : Nat) (f : DSlot → DSlot) : (s.modSlot c k l f).asker = s.asker := rfl
@[simp] theorem State.modSlot_selDone (s : State) (c k l : Nat) (f : DSlot → DSlot) : (s.modSlot c k l f).selDone = s.selDone := rfl
@[simp] theorem State.modSlot_agenda (s : State) (c k l : Nat) (f : DSlot → DSlot) : (s.modSlot c k l f).agenda = s.agenda := rfl
@[simp] theorem State.modSlot_moves (s : State) (c k l : Nat) (f : DSlot → DSlot) : (s.modSlot c k l f).moves = s.moves := rfl
@[simp] theorem State.modSlot_nextId (s : State) (c k l : Nat) (f : DSlot → DSlot) : (s.modSlot c k l f).nextId = s.nextId := rfl

/-! Threads. -/

@[simp] theorem Thread.setV_tid (t : Thread) (n : Nat) (c : VCell) : (t.setV n c).tid = t.tid := rfl
@[simp] theorem Thread.setV_p (t : Thread) (n : Nat) (c : VCell) : (t.setV n c).p = t.p := rfl
@[simp] theorem Thread.setV_pc (t : Thread) (n : Nat) (c : VCell) : (t.setV n c).pc = t.pc := rfl
@[simp] theorem Thread.setV_run (t : Thread) (n : Nat) (c : VCell) : (t.setV n c).run = t.run := rfl
@[simp] theorem Thread.setV_tcause (t : Thread) (n : Nat) (c : VCell) : (t.setV n c).tcause = t.tcause := rfl
@[simp] theorem Thread.setV_tcode (t : Thread) (n : Nat) (c : VCell) : (t.setV n c).tcode = t.tcode := rfl
@[simp] theorem Thread.setV_taddr (t : Thread) (n : Nat) (c : VCell) : (t.setV n c).taddr = t.taddr := rfl
@[simp] theorem Thread.setV_faddr (t : Thread) (n : Nat) (c : VCell) : (t.setV n c).faddr = t.faddr := rfl
@[simp] theorem Thread.setV_flags (t : Thread) (n : Nat) (c : VCell) : (t.setV n c).flags = t.flags := rfl
@[simp] theorem Thread.setV_sleep (t : Thread) (n : Nat) (c : VCell) : (t.setV n c).sleep = t.sleep := rfl
@[simp] theorem Thread.setV_away (t : Thread) (n : Nat) (c : VCell) : (t.setV n c).away = t.away := rfl
@[simp] theorem Thread.setV_conv (t : Thread) (n : Nat) (c : VCell) : (t.setV n c).conv = t.conv := rfl
@[simp] theorem Thread.setV_bars (t : Thread) (n : Nat) (c : VCell) : (t.setV n c).bars = t.bars := rfl
@[simp] theorem Thread.setV_cbars (t : Thread) (n : Nat) (c : VCell) : (t.setV n c).cbars = t.cbars := rfl
@[simp] theorem Thread.setV_age (t : Thread) (n : Nat) (c : VCell) : (t.setV n c).age = t.age := rfl
@[simp] theorem Thread.setV_next (t : Thread) (n : Nat) (c : VCell) : (t.setV n c).next = t.next := rfl
@[simp] theorem Thread.setV_yieldLeft (t : Thread) (n : Nat) (c : VCell) : (t.setV n c).yieldLeft = t.yieldLeft := rfl
@[simp] theorem Thread.setV_clockHi (t : Thread) (n : Nat) (c : VCell) : (t.setV n c).clockHi = t.clockHi := rfl
@[simp] theorem Thread.setV_fbuf (t : Thread) (n : Nat) (c : VCell) : (t.setV n c).fbuf = t.fbuf := rfl
@[simp] theorem Thread.setV_holds (t : Thread) (n : Nat) (c : VCell) : (t.setV n c).holds = t.holds := rfl
@[simp] theorem Thread.setV_cwb (t : Thread) (n : Nat) (c : VCell) : (t.setV n c).cwb = t.cwb := rfl
@[simp] theorem Thread.setV_cwbBack (t : Thread) (n : Nat) (c : VCell) : (t.setV n c).cwbBack = t.cwbBack := rfl
@[simp] theorem Thread.setV_arrivals (t : Thread) (n : Nat) (c : VCell) : (t.setV n c).arrivals = t.arrivals := rfl
@[simp] theorem Thread.setV_icinvs (t : Thread) (n : Nat) (c : VCell) : (t.setV n c).icinvs = t.icinvs := rfl
@[simp] theorem Thread.setV_wbusy (t : Thread) (n : Nat) (c : VCell) : (t.setV n c).wbusy = t.wbusy := rfl
@[simp] theorem Thread.setV_lastW (t : Thread) (n : Nat) (c : VCell) : (t.setV n c).lastW = t.lastW := rfl
@[simp] theorem Thread.setV_issued (t : Thread) (n : Nat) (c : VCell) : (t.setV n c).issued = t.issued := rfl
@[simp] theorem Thread.setV_resident (t : Thread) (n : Nat) (c : VCell) : (t.setV n c).resident = t.resident := rfl
@[simp] theorem Thread.setV_saved (t : Thread) (n : Nat) (c : VCell) : (t.setV n c).saved = t.saved := rfl
@[simp] theorem Thread.setV_cleared (t : Thread) (n : Nat) (c : VCell) : (t.setV n c).cleared = t.cleared := rfl
@[simp] theorem Thread.setV_patch (t : Thread) (n : Nat) (c : VCell) : (t.setV n c).patch = t.patch := rfl
@[simp] theorem Thread.setV_late (t : Thread) (n : Nat) (c : VCell) : (t.setV n c).late = t.late := rfl
@[simp] theorem Thread.setV_out (t : Thread) (n : Nat) (c : VCell) : (t.setV n c).out = t.out := rfl
@[simp] theorem Thread.setV_wplace (t : Thread) (n : Nat) (c : VCell) : (t.setV n c).wplace = t.wplace := rfl
@[simp] theorem Thread.setV_dwait (t : Thread) (n : Nat) (c : VCell) : (t.setV n c).dwait = t.dwait := rfl
@[simp] theorem Thread.setV_gwait (t : Thread) (n : Nat) (c : VCell) : (t.setV n c).gwait = t.gwait := rfl
@[simp] theorem Thread.setV_waitaEvicted (t : Thread) (n : Nat) (c : VCell) : (t.setV n c).waitaEvicted = t.waitaEvicted := rfl

@[simp] theorem Thread.setConv_tid (t : Thread) (n : Nat) (c : PSg) : (t.setConv n c).tid = t.tid := rfl
@[simp] theorem Thread.setConv_v (t : Thread) (n : Nat) (c : PSg) : (t.setConv n c).v = t.v := rfl
@[simp] theorem Thread.setConv_p (t : Thread) (n : Nat) (c : PSg) : (t.setConv n c).p = t.p := rfl
@[simp] theorem Thread.setConv_pc (t : Thread) (n : Nat) (c : PSg) : (t.setConv n c).pc = t.pc := rfl
@[simp] theorem Thread.setConv_run (t : Thread) (n : Nat) (c : PSg) : (t.setConv n c).run = t.run := rfl
@[simp] theorem Thread.setConv_tcause (t : Thread) (n : Nat) (c : PSg) : (t.setConv n c).tcause = t.tcause := rfl
@[simp] theorem Thread.setConv_tcode (t : Thread) (n : Nat) (c : PSg) : (t.setConv n c).tcode = t.tcode := rfl
@[simp] theorem Thread.setConv_taddr (t : Thread) (n : Nat) (c : PSg) : (t.setConv n c).taddr = t.taddr := rfl
@[simp] theorem Thread.setConv_faddr (t : Thread) (n : Nat) (c : PSg) : (t.setConv n c).faddr = t.faddr := rfl
@[simp] theorem Thread.setConv_flags (t : Thread) (n : Nat) (c : PSg) : (t.setConv n c).flags = t.flags := rfl
@[simp] theorem Thread.setConv_sleep (t : Thread) (n : Nat) (c : PSg) : (t.setConv n c).sleep = t.sleep := rfl
@[simp] theorem Thread.setConv_away (t : Thread) (n : Nat) (c : PSg) : (t.setConv n c).away = t.away := rfl
@[simp] theorem Thread.setConv_bars (t : Thread) (n : Nat) (c : PSg) : (t.setConv n c).bars = t.bars := rfl
@[simp] theorem Thread.setConv_cbars (t : Thread) (n : Nat) (c : PSg) : (t.setConv n c).cbars = t.cbars := rfl
@[simp] theorem Thread.setConv_age (t : Thread) (n : Nat) (c : PSg) : (t.setConv n c).age = t.age := rfl
@[simp] theorem Thread.setConv_next (t : Thread) (n : Nat) (c : PSg) : (t.setConv n c).next = t.next := rfl
@[simp] theorem Thread.setConv_yieldLeft (t : Thread) (n : Nat) (c : PSg) : (t.setConv n c).yieldLeft = t.yieldLeft := rfl
@[simp] theorem Thread.setConv_clockHi (t : Thread) (n : Nat) (c : PSg) : (t.setConv n c).clockHi = t.clockHi := rfl
@[simp] theorem Thread.setConv_fbuf (t : Thread) (n : Nat) (c : PSg) : (t.setConv n c).fbuf = t.fbuf := rfl
@[simp] theorem Thread.setConv_holds (t : Thread) (n : Nat) (c : PSg) : (t.setConv n c).holds = t.holds := rfl
@[simp] theorem Thread.setConv_cwb (t : Thread) (n : Nat) (c : PSg) : (t.setConv n c).cwb = t.cwb := rfl
@[simp] theorem Thread.setConv_cwbBack (t : Thread) (n : Nat) (c : PSg) : (t.setConv n c).cwbBack = t.cwbBack := rfl
@[simp] theorem Thread.setConv_arrivals (t : Thread) (n : Nat) (c : PSg) : (t.setConv n c).arrivals = t.arrivals := rfl
@[simp] theorem Thread.setConv_icinvs (t : Thread) (n : Nat) (c : PSg) : (t.setConv n c).icinvs = t.icinvs := rfl
@[simp] theorem Thread.setConv_wbusy (t : Thread) (n : Nat) (c : PSg) : (t.setConv n c).wbusy = t.wbusy := rfl
@[simp] theorem Thread.setConv_lastW (t : Thread) (n : Nat) (c : PSg) : (t.setConv n c).lastW = t.lastW := rfl
@[simp] theorem Thread.setConv_issued (t : Thread) (n : Nat) (c : PSg) : (t.setConv n c).issued = t.issued := rfl
@[simp] theorem Thread.setConv_resident (t : Thread) (n : Nat) (c : PSg) : (t.setConv n c).resident = t.resident := rfl
@[simp] theorem Thread.setConv_saved (t : Thread) (n : Nat) (c : PSg) : (t.setConv n c).saved = t.saved := rfl
@[simp] theorem Thread.setConv_cleared (t : Thread) (n : Nat) (c : PSg) : (t.setConv n c).cleared = t.cleared := rfl
@[simp] theorem Thread.setConv_patch (t : Thread) (n : Nat) (c : PSg) : (t.setConv n c).patch = t.patch := rfl
@[simp] theorem Thread.setConv_late (t : Thread) (n : Nat) (c : PSg) : (t.setConv n c).late = t.late := rfl
@[simp] theorem Thread.setConv_out (t : Thread) (n : Nat) (c : PSg) : (t.setConv n c).out = t.out := rfl
@[simp] theorem Thread.setConv_wplace (t : Thread) (n : Nat) (c : PSg) : (t.setConv n c).wplace = t.wplace := rfl
@[simp] theorem Thread.setConv_dwait (t : Thread) (n : Nat) (c : PSg) : (t.setConv n c).dwait = t.dwait := rfl
@[simp] theorem Thread.setConv_gwait (t : Thread) (n : Nat) (c : PSg) : (t.setConv n c).gwait = t.gwait := rfl
@[simp] theorem Thread.setConv_waitaEvicted (t : Thread) (n : Nat) (c : PSg) : (t.setConv n c).waitaEvicted = t.waitaEvicted := rfl

@[simp] theorem Thread.past_tid (t : Thread) : (t.past).tid = t.tid := rfl
@[simp] theorem Thread.past_v (t : Thread) : (t.past).v = t.v := rfl
@[simp] theorem Thread.past_p (t : Thread) : (t.past).p = t.p := rfl
@[simp] theorem Thread.past_tcause (t : Thread) : (t.past).tcause = t.tcause := rfl
@[simp] theorem Thread.past_tcode (t : Thread) : (t.past).tcode = t.tcode := rfl
@[simp] theorem Thread.past_taddr (t : Thread) : (t.past).taddr = t.taddr := rfl
@[simp] theorem Thread.past_faddr (t : Thread) : (t.past).faddr = t.faddr := rfl
@[simp] theorem Thread.past_flags (t : Thread) : (t.past).flags = t.flags := rfl
@[simp] theorem Thread.past_sleep (t : Thread) : (t.past).sleep = t.sleep := rfl
@[simp] theorem Thread.past_away (t : Thread) : (t.past).away = t.away := rfl
@[simp] theorem Thread.past_conv (t : Thread) : (t.past).conv = t.conv := rfl
@[simp] theorem Thread.past_bars (t : Thread) : (t.past).bars = t.bars := rfl
@[simp] theorem Thread.past_cbars (t : Thread) : (t.past).cbars = t.cbars := rfl
@[simp] theorem Thread.past_age (t : Thread) : (t.past).age = t.age := rfl
@[simp] theorem Thread.past_next (t : Thread) : (t.past).next = t.next := rfl
@[simp] theorem Thread.past_yieldLeft (t : Thread) : (t.past).yieldLeft = t.yieldLeft := rfl
@[simp] theorem Thread.past_clockHi (t : Thread) : (t.past).clockHi = t.clockHi := rfl
@[simp] theorem Thread.past_fbuf (t : Thread) : (t.past).fbuf = t.fbuf := rfl
@[simp] theorem Thread.past_holds (t : Thread) : (t.past).holds = t.holds := rfl
@[simp] theorem Thread.past_cwb (t : Thread) : (t.past).cwb = t.cwb := rfl
@[simp] theorem Thread.past_cwbBack (t : Thread) : (t.past).cwbBack = t.cwbBack := rfl
@[simp] theorem Thread.past_arrivals (t : Thread) : (t.past).arrivals = t.arrivals := rfl
@[simp] theorem Thread.past_icinvs (t : Thread) : (t.past).icinvs = t.icinvs := rfl
@[simp] theorem Thread.past_wbusy (t : Thread) : (t.past).wbusy = t.wbusy := rfl
@[simp] theorem Thread.past_lastW (t : Thread) : (t.past).lastW = t.lastW := rfl
@[simp] theorem Thread.past_issued (t : Thread) : (t.past).issued = t.issued := rfl
@[simp] theorem Thread.past_resident (t : Thread) : (t.past).resident = t.resident := rfl
@[simp] theorem Thread.past_saved (t : Thread) : (t.past).saved = t.saved := rfl
@[simp] theorem Thread.past_cleared (t : Thread) : (t.past).cleared = t.cleared := rfl
@[simp] theorem Thread.past_patch (t : Thread) : (t.past).patch = t.patch := rfl
@[simp] theorem Thread.past_late (t : Thread) : (t.past).late = t.late := rfl
@[simp] theorem Thread.past_out (t : Thread) : (t.past).out = t.out := rfl
@[simp] theorem Thread.past_wplace (t : Thread) : (t.past).wplace = t.wplace := rfl
@[simp] theorem Thread.past_dwait (t : Thread) : (t.past).dwait = t.dwait := rfl
@[simp] theorem Thread.past_gwait (t : Thread) : (t.past).gwait = t.gwait := rfl
@[simp] theorem Thread.past_waitaEvicted (t : Thread) : (t.past).waitaEvicted = t.waitaEvicted := rfl

@[simp] theorem Thread.waitIssue_tid (t : Thread) (n : Nat) : (t.waitIssue n).tid = t.tid := rfl
@[simp] theorem Thread.waitIssue_v (t : Thread) (n : Nat) : (t.waitIssue n).v = t.v := rfl
@[simp] theorem Thread.waitIssue_p (t : Thread) (n : Nat) : (t.waitIssue n).p = t.p := rfl
@[simp] theorem Thread.waitIssue_pc (t : Thread) (n : Nat) : (t.waitIssue n).pc = t.pc := rfl
@[simp] theorem Thread.waitIssue_run (t : Thread) (n : Nat) : (t.waitIssue n).run = t.run := rfl
@[simp] theorem Thread.waitIssue_tcause (t : Thread) (n : Nat) : (t.waitIssue n).tcause = t.tcause := rfl
@[simp] theorem Thread.waitIssue_tcode (t : Thread) (n : Nat) : (t.waitIssue n).tcode = t.tcode := rfl
@[simp] theorem Thread.waitIssue_taddr (t : Thread) (n : Nat) : (t.waitIssue n).taddr = t.taddr := rfl
@[simp] theorem Thread.waitIssue_faddr (t : Thread) (n : Nat) : (t.waitIssue n).faddr = t.faddr := rfl
@[simp] theorem Thread.waitIssue_flags (t : Thread) (n : Nat) : (t.waitIssue n).flags = t.flags := rfl
@[simp] theorem Thread.waitIssue_sleep (t : Thread) (n : Nat) : (t.waitIssue n).sleep = t.sleep := rfl
@[simp] theorem Thread.waitIssue_away (t : Thread) (n : Nat) : (t.waitIssue n).away = t.away := rfl
@[simp] theorem Thread.waitIssue_conv (t : Thread) (n : Nat) : (t.waitIssue n).conv = t.conv := rfl
@[simp] theorem Thread.waitIssue_bars (t : Thread) (n : Nat) : (t.waitIssue n).bars = t.bars := rfl
@[simp] theorem Thread.waitIssue_cbars (t : Thread) (n : Nat) : (t.waitIssue n).cbars = t.cbars := rfl
@[simp] theorem Thread.waitIssue_age (t : Thread) (n : Nat) : (t.waitIssue n).age = t.age := rfl
@[simp] theorem Thread.waitIssue_yieldLeft (t : Thread) (n : Nat) : (t.waitIssue n).yieldLeft = t.yieldLeft := rfl
@[simp] theorem Thread.waitIssue_clockHi (t : Thread) (n : Nat) : (t.waitIssue n).clockHi = t.clockHi := rfl
@[simp] theorem Thread.waitIssue_fbuf (t : Thread) (n : Nat) : (t.waitIssue n).fbuf = t.fbuf := rfl
@[simp] theorem Thread.waitIssue_holds (t : Thread) (n : Nat) : (t.waitIssue n).holds = t.holds := rfl
@[simp] theorem Thread.waitIssue_cwb (t : Thread) (n : Nat) : (t.waitIssue n).cwb = t.cwb := rfl
@[simp] theorem Thread.waitIssue_cwbBack (t : Thread) (n : Nat) : (t.waitIssue n).cwbBack = t.cwbBack := rfl
@[simp] theorem Thread.waitIssue_arrivals (t : Thread) (n : Nat) : (t.waitIssue n).arrivals = t.arrivals := rfl
@[simp] theorem Thread.waitIssue_icinvs (t : Thread) (n : Nat) : (t.waitIssue n).icinvs = t.icinvs := rfl
@[simp] theorem Thread.waitIssue_wbusy (t : Thread) (n : Nat) : (t.waitIssue n).wbusy = t.wbusy := rfl
@[simp] theorem Thread.waitIssue_lastW (t : Thread) (n : Nat) : (t.waitIssue n).lastW = t.lastW := rfl
@[simp] theorem Thread.waitIssue_issued (t : Thread) (n : Nat) : (t.waitIssue n).issued = t.issued := rfl
@[simp] theorem Thread.waitIssue_resident (t : Thread) (n : Nat) : (t.waitIssue n).resident = t.resident := rfl
@[simp] theorem Thread.waitIssue_saved (t : Thread) (n : Nat) : (t.waitIssue n).saved = t.saved := rfl
@[simp] theorem Thread.waitIssue_cleared (t : Thread) (n : Nat) : (t.waitIssue n).cleared = t.cleared := rfl
@[simp] theorem Thread.waitIssue_patch (t : Thread) (n : Nat) : (t.waitIssue n).patch = t.patch := rfl
@[simp] theorem Thread.waitIssue_late (t : Thread) (n : Nat) : (t.waitIssue n).late = t.late := rfl
@[simp] theorem Thread.waitIssue_out (t : Thread) (n : Nat) : (t.waitIssue n).out = t.out := rfl
@[simp] theorem Thread.waitIssue_wplace (t : Thread) (n : Nat) : (t.waitIssue n).wplace = t.wplace := rfl
@[simp] theorem Thread.waitIssue_dwait (t : Thread) (n : Nat) : (t.waitIssue n).dwait = t.dwait := rfl
@[simp] theorem Thread.waitIssue_gwait (t : Thread) (n : Nat) : (t.waitIssue n).gwait = t.gwait := rfl
@[simp] theorem Thread.waitIssue_waitaEvicted (t : Thread) (n : Nat) : (t.waitIssue n).waitaEvicted = t.waitaEvicted := rfl

@[simp] theorem Thread.retire_tid (t : Thread) (n k : Nat) (pc : DWord) : (t.retire n k pc).tid = t.tid := rfl
@[simp] theorem Thread.retire_v (t : Thread) (n k : Nat) (pc : DWord) : (t.retire n k pc).v = t.v := rfl
@[simp] theorem Thread.retire_p (t : Thread) (n k : Nat) (pc : DWord) : (t.retire n k pc).p = t.p := rfl
@[simp] theorem Thread.retire_run (t : Thread) (n k : Nat) (pc : DWord) : (t.retire n k pc).run = t.run := rfl
@[simp] theorem Thread.retire_tcause (t : Thread) (n k : Nat) (pc : DWord) : (t.retire n k pc).tcause = t.tcause := rfl
@[simp] theorem Thread.retire_tcode (t : Thread) (n k : Nat) (pc : DWord) : (t.retire n k pc).tcode = t.tcode := rfl
@[simp] theorem Thread.retire_taddr (t : Thread) (n k : Nat) (pc : DWord) : (t.retire n k pc).taddr = t.taddr := rfl
@[simp] theorem Thread.retire_faddr (t : Thread) (n k : Nat) (pc : DWord) : (t.retire n k pc).faddr = t.faddr := rfl
@[simp] theorem Thread.retire_flags (t : Thread) (n k : Nat) (pc : DWord) : (t.retire n k pc).flags = t.flags := rfl
@[simp] theorem Thread.retire_sleep (t : Thread) (n k : Nat) (pc : DWord) : (t.retire n k pc).sleep = t.sleep := rfl
@[simp] theorem Thread.retire_away (t : Thread) (n k : Nat) (pc : DWord) : (t.retire n k pc).away = t.away := rfl
@[simp] theorem Thread.retire_conv (t : Thread) (n k : Nat) (pc : DWord) : (t.retire n k pc).conv = t.conv := rfl
@[simp] theorem Thread.retire_bars (t : Thread) (n k : Nat) (pc : DWord) : (t.retire n k pc).bars = t.bars := rfl
@[simp] theorem Thread.retire_cbars (t : Thread) (n k : Nat) (pc : DWord) : (t.retire n k pc).cbars = t.cbars := rfl
@[simp] theorem Thread.retire_yieldLeft (t : Thread) (n k : Nat) (pc : DWord) : (t.retire n k pc).yieldLeft = t.yieldLeft := rfl
@[simp] theorem Thread.retire_clockHi (t : Thread) (n k : Nat) (pc : DWord) : (t.retire n k pc).clockHi = t.clockHi := rfl
@[simp] theorem Thread.retire_fbuf (t : Thread) (n k : Nat) (pc : DWord) : (t.retire n k pc).fbuf = t.fbuf := rfl
@[simp] theorem Thread.retire_holds (t : Thread) (n k : Nat) (pc : DWord) : (t.retire n k pc).holds = t.holds := rfl
@[simp] theorem Thread.retire_cwb (t : Thread) (n k : Nat) (pc : DWord) : (t.retire n k pc).cwb = t.cwb := rfl
@[simp] theorem Thread.retire_cwbBack (t : Thread) (n k : Nat) (pc : DWord) : (t.retire n k pc).cwbBack = t.cwbBack := rfl
@[simp] theorem Thread.retire_arrivals (t : Thread) (n k : Nat) (pc : DWord) : (t.retire n k pc).arrivals = t.arrivals := rfl
@[simp] theorem Thread.retire_icinvs (t : Thread) (n k : Nat) (pc : DWord) : (t.retire n k pc).icinvs = t.icinvs := rfl
@[simp] theorem Thread.retire_wbusy (t : Thread) (n k : Nat) (pc : DWord) : (t.retire n k pc).wbusy = t.wbusy := rfl
@[simp] theorem Thread.retire_lastW (t : Thread) (n k : Nat) (pc : DWord) : (t.retire n k pc).lastW = t.lastW := rfl
@[simp] theorem Thread.retire_resident (t : Thread) (n k : Nat) (pc : DWord) : (t.retire n k pc).resident = t.resident := rfl
@[simp] theorem Thread.retire_saved (t : Thread) (n k : Nat) (pc : DWord) : (t.retire n k pc).saved = t.saved := rfl
@[simp] theorem Thread.retire_cleared (t : Thread) (n k : Nat) (pc : DWord) : (t.retire n k pc).cleared = t.cleared := rfl
@[simp] theorem Thread.retire_patch (t : Thread) (n k : Nat) (pc : DWord) : (t.retire n k pc).patch = t.patch := rfl
@[simp] theorem Thread.retire_late (t : Thread) (n k : Nat) (pc : DWord) : (t.retire n k pc).late = t.late := rfl
@[simp] theorem Thread.retire_out (t : Thread) (n k : Nat) (pc : DWord) : (t.retire n k pc).out = t.out := rfl

@[simp] theorem Thread.trap_tid (t : Thread) (c : Nat) (x : Word) (a b r : DWord) : (t.trap c x a b r).tid = t.tid := rfl
@[simp] theorem Thread.trap_v (t : Thread) (c : Nat) (x : Word) (a b r : DWord) : (t.trap c x a b r).v = t.v := rfl
@[simp] theorem Thread.trap_p (t : Thread) (c : Nat) (x : Word) (a b r : DWord) : (t.trap c x a b r).p = t.p := rfl
@[simp] theorem Thread.trap_flags (t : Thread) (c : Nat) (x : Word) (a b r : DWord) : (t.trap c x a b r).flags = t.flags := rfl
@[simp] theorem Thread.trap_sleep (t : Thread) (c : Nat) (x : Word) (a b r : DWord) : (t.trap c x a b r).sleep = t.sleep := rfl
@[simp] theorem Thread.trap_away (t : Thread) (c : Nat) (x : Word) (a b r : DWord) : (t.trap c x a b r).away = t.away := rfl
@[simp] theorem Thread.trap_conv (t : Thread) (c : Nat) (x : Word) (a b r : DWord) : (t.trap c x a b r).conv = t.conv := rfl
@[simp] theorem Thread.trap_bars (t : Thread) (c : Nat) (x : Word) (a b r : DWord) : (t.trap c x a b r).bars = t.bars := rfl
@[simp] theorem Thread.trap_cbars (t : Thread) (c : Nat) (x : Word) (a b r : DWord) : (t.trap c x a b r).cbars = t.cbars := rfl
@[simp] theorem Thread.trap_age (t : Thread) (c : Nat) (x : Word) (a b r : DWord) : (t.trap c x a b r).age = t.age := rfl
@[simp] theorem Thread.trap_next (t : Thread) (c : Nat) (x : Word) (a b r : DWord) : (t.trap c x a b r).next = t.next := rfl
@[simp] theorem Thread.trap_yieldLeft (t : Thread) (c : Nat) (x : Word) (a b r : DWord) : (t.trap c x a b r).yieldLeft = t.yieldLeft := rfl
@[simp] theorem Thread.trap_clockHi (t : Thread) (c : Nat) (x : Word) (a b r : DWord) : (t.trap c x a b r).clockHi = t.clockHi := rfl
@[simp] theorem Thread.trap_fbuf (t : Thread) (c : Nat) (x : Word) (a b r : DWord) : (t.trap c x a b r).fbuf = t.fbuf := rfl
@[simp] theorem Thread.trap_holds (t : Thread) (c : Nat) (x : Word) (a b r : DWord) : (t.trap c x a b r).holds = t.holds := rfl
@[simp] theorem Thread.trap_cwb (t : Thread) (c : Nat) (x : Word) (a b r : DWord) : (t.trap c x a b r).cwb = t.cwb := rfl
@[simp] theorem Thread.trap_cwbBack (t : Thread) (c : Nat) (x : Word) (a b r : DWord) : (t.trap c x a b r).cwbBack = t.cwbBack := rfl
@[simp] theorem Thread.trap_arrivals (t : Thread) (c : Nat) (x : Word) (a b r : DWord) : (t.trap c x a b r).arrivals = t.arrivals := rfl
@[simp] theorem Thread.trap_icinvs (t : Thread) (c : Nat) (x : Word) (a b r : DWord) : (t.trap c x a b r).icinvs = t.icinvs := rfl
@[simp] theorem Thread.trap_wbusy (t : Thread) (c : Nat) (x : Word) (a b r : DWord) : (t.trap c x a b r).wbusy = t.wbusy := rfl
@[simp] theorem Thread.trap_lastW (t : Thread) (c : Nat) (x : Word) (a b r : DWord) : (t.trap c x a b r).lastW = t.lastW := rfl
@[simp] theorem Thread.trap_issued (t : Thread) (c : Nat) (x : Word) (a b r : DWord) : (t.trap c x a b r).issued = t.issued := rfl
@[simp] theorem Thread.trap_resident (t : Thread) (c : Nat) (x : Word) (a b r : DWord) : (t.trap c x a b r).resident = t.resident := rfl
@[simp] theorem Thread.trap_saved (t : Thread) (c : Nat) (x : Word) (a b r : DWord) : (t.trap c x a b r).saved = t.saved := rfl
@[simp] theorem Thread.trap_cleared (t : Thread) (c : Nat) (x : Word) (a b r : DWord) : (t.trap c x a b r).cleared = t.cleared := rfl
@[simp] theorem Thread.trap_patch (t : Thread) (c : Nat) (x : Word) (a b r : DWord) : (t.trap c x a b r).patch = t.patch := rfl
@[simp] theorem Thread.trap_late (t : Thread) (c : Nat) (x : Word) (a b r : DWord) : (t.trap c x a b r).late = t.late := rfl
@[simp] theorem Thread.trap_out (t : Thread) (c : Nat) (x : Word) (a b r : DWord) : (t.trap c x a b r).out = t.out := rfl

/-! Workgroups. -/

@[simp] theorem Workgroup.modThread_core (g : Workgroup) (n : Nat) (f : Thread → Thread) : (g.modThread n f).core = g.core := rfl
@[simp] theorem Workgroup.modThread_slot (g : Workgroup) (n : Nat) (f : Thread → Thread) : (g.modThread n f).slot = g.slot := rfl
@[simp] theorem Workgroup.modThread_uid (g : Workgroup) (n : Nat) (f : Thread → Thread) : (g.modThread n f).uid = g.uid := rfl
@[simp] theorem Workgroup.modThread_ctx (g : Workgroup) (n : Nat) (f : Thread → Thread) : (g.modThread n f).ctx = g.ctx := rfl
@[simp] theorem Workgroup.modThread_lid (g : Workgroup) (n : Nat) (f : Thread → Thread) : (g.modThread n f).lid = g.lid := rfl
@[simp] theorem Workgroup.modThread_flat (g : Workgroup) (n : Nat) (f : Thread → Thread) : (g.modThread n f).flat = g.flat := rfl
@[simp] theorem Workgroup.modThread_wgid (g : Workgroup) (n : Nat) (f : Thread → Thread) : (g.modThread n f).wgid = g.wgid := rfl
@[simp] theorem Workgroup.modThread_nwg (g : Workgroup) (n : Nat) (f : Thread → Thread) : (g.modThread n f).nwg = g.nwg := rfl
@[simp] theorem Workgroup.modThread_shape (g : Workgroup) (n : Nat) (f : Thread → Thread) : (g.modThread n f).shape = g.shape := rfl
@[simp] theorem Workgroup.modThread_cls (g : Workgroup) (n : Nat) (f : Thread → Thread) : (g.modThread n f).cls = g.cls := rfl
@[simp] theorem Workgroup.modThread_regs (g : Workgroup) (n : Nat) (f : Thread → Thread) : (g.modThread n f).regs = g.regs := rfl
@[simp] theorem Workgroup.modThread_accum (g : Workgroup) (n : Nat) (f : Thread → Thread) : (g.modThread n f).accum = g.accum := rfl
@[simp] theorem Workgroup.modThread_tileBase (g : Workgroup) (n : Nat) (f : Thread → Thread) : (g.modThread n f).tileBase = g.tileBase := rfl
@[simp] theorem Workgroup.modThread_ids (g : Workgroup) (n : Nat) (f : Thread → Thread) : (g.modThread n f).ids = g.ids := rfl
@[simp] theorem Workgroup.modThread_entry (g : Workgroup) (n : Nat) (f : Thread → Thread) : (g.modThread n f).entry = g.entry := rfl
@[simp] theorem Workgroup.modThread_w (g : Workgroup) (n : Nat) (f : Thread → Thread) : (g.modThread n f).w = g.w := rfl
@[simp] theorem Workgroup.modThread_c (g : Workgroup) (n : Nat) (f : Thread → Thread) : (g.modThread n f).c = g.c := rfl
@[simp] theorem Workgroup.modThread_b (g : Workgroup) (n : Nat) (f : Thread → Thread) : (g.modThread n f).b = g.b := rfl
@[simp] theorem Workgroup.modThread_k (g : Workgroup) (n : Nat) (f : Thread → Thread) : (g.modThread n f).k = g.k := rfl
@[simp] theorem Workgroup.modThread_sa (g : Workgroup) (n : Nat) (f : Thread → Thread) : (g.modThread n f).sa = g.sa := rfl
@[simp] theorem Workgroup.modThread_sb (g : Workgroup) (n : Nat) (f : Thread → Thread) : (g.modThread n f).sb = g.sb := rfl
@[simp] theorem Workgroup.modThread_mcls (g : Workgroup) (n : Nat) (f : Thread → Thread) : (g.modThread n f).mcls = g.mcls := rfl
@[simp] theorem Workgroup.modThread_tile (g : Workgroup) (n : Nat) (f : Thread → Thread) : (g.modThread n f).tile = g.tile := rfl
@[simp] theorem Workgroup.modThread_tpoi (g : Workgroup) (n : Nat) (f : Thread → Thread) : (g.modThread n f).tpoi = g.tpoi := rfl
@[simp] theorem Workgroup.modThread_gran (g : Workgroup) (n : Nat) (f : Thread → Thread) : (g.modThread n f).gran = g.gran := rfl
@[simp] theorem Workgroup.modThread_acc (g : Workgroup) (n : Nat) (f : Thread → Thread) : (g.modThread n f).acc = g.acc := rfl
@[simp] theorem Workgroup.modThread_cancel (g : Workgroup) (n : Nat) (f : Thread → Thread) : (g.modThread n f).cancel = g.cancel := rfl
@[simp] theorem Workgroup.modThread_resident (g : Workgroup) (n : Nat) (f : Thread → Thread) : (g.modThread n f).resident = g.resident := rfl
@[simp] theorem Workgroup.modThread_hard (g : Workgroup) (n : Nat) (f : Thread → Thread) : (g.modThread n f).hard = g.hard := rfl
@[simp] theorem Workgroup.modThread_image (g : Workgroup) (n : Nat) (f : Thread → Thread) : (g.modThread n f).image = g.image := rfl
@[simp] theorem Workgroup.modThread_save (g : Workgroup) (n : Nat) (f : Thread → Thread) : (g.modThread n f).save = g.save := rfl
@[simp] theorem Workgroup.modThread_stride (g : Workgroup) (n : Nat) (f : Thread → Thread) : (g.modThread n f).stride = g.stride := rfl

@[simp] theorem Workgroup.raiseRef_core (g : Workgroup) (l : List Nat) : (g.raiseRef l).core = g.core := rfl
@[simp] theorem Workgroup.raiseRef_slot (g : Workgroup) (l : List Nat) : (g.raiseRef l).slot = g.slot := rfl
@[simp] theorem Workgroup.raiseRef_uid (g : Workgroup) (l : List Nat) : (g.raiseRef l).uid = g.uid := rfl
@[simp] theorem Workgroup.raiseRef_ctx (g : Workgroup) (l : List Nat) : (g.raiseRef l).ctx = g.ctx := rfl
@[simp] theorem Workgroup.raiseRef_lid (g : Workgroup) (l : List Nat) : (g.raiseRef l).lid = g.lid := rfl
@[simp] theorem Workgroup.raiseRef_flat (g : Workgroup) (l : List Nat) : (g.raiseRef l).flat = g.flat := rfl
@[simp] theorem Workgroup.raiseRef_wgid (g : Workgroup) (l : List Nat) : (g.raiseRef l).wgid = g.wgid := rfl
@[simp] theorem Workgroup.raiseRef_nwg (g : Workgroup) (l : List Nat) : (g.raiseRef l).nwg = g.nwg := rfl
@[simp] theorem Workgroup.raiseRef_shape (g : Workgroup) (l : List Nat) : (g.raiseRef l).shape = g.shape := rfl
@[simp] theorem Workgroup.raiseRef_cls (g : Workgroup) (l : List Nat) : (g.raiseRef l).cls = g.cls := rfl
@[simp] theorem Workgroup.raiseRef_regs (g : Workgroup) (l : List Nat) : (g.raiseRef l).regs = g.regs := rfl
@[simp] theorem Workgroup.raiseRef_accum (g : Workgroup) (l : List Nat) : (g.raiseRef l).accum = g.accum := rfl
@[simp] theorem Workgroup.raiseRef_tileBase (g : Workgroup) (l : List Nat) : (g.raiseRef l).tileBase = g.tileBase := rfl
@[simp] theorem Workgroup.raiseRef_ids (g : Workgroup) (l : List Nat) : (g.raiseRef l).ids = g.ids := rfl
@[simp] theorem Workgroup.raiseRef_entry (g : Workgroup) (l : List Nat) : (g.raiseRef l).entry = g.entry := rfl
@[simp] theorem Workgroup.raiseRef_threads (g : Workgroup) (l : List Nat) : (g.raiseRef l).threads = g.threads := rfl
@[simp] theorem Workgroup.raiseRef_w (g : Workgroup) (l : List Nat) : (g.raiseRef l).w = g.w := rfl
@[simp] theorem Workgroup.raiseRef_c (g : Workgroup) (l : List Nat) : (g.raiseRef l).c = g.c := rfl
@[simp] theorem Workgroup.raiseRef_b (g : Workgroup) (l : List Nat) : (g.raiseRef l).b = g.b := rfl
@[simp] theorem Workgroup.raiseRef_k (g : Workgroup) (l : List Nat) : (g.raiseRef l).k = g.k := rfl
@[simp] theorem Workgroup.raiseRef_sa (g : Workgroup) (l : List Nat) : (g.raiseRef l).sa = g.sa := rfl
@[simp] theorem Workgroup.raiseRef_sb (g : Workgroup) (l : List Nat) : (g.raiseRef l).sb = g.sb := rfl
@[simp] theorem Workgroup.raiseRef_mcls (g : Workgroup) (l : List Nat) : (g.raiseRef l).mcls = g.mcls := rfl
@[simp] theorem Workgroup.raiseRef_tile (g : Workgroup) (l : List Nat) : (g.raiseRef l).tile = g.tile := rfl
@[simp] theorem Workgroup.raiseRef_tpoi (g : Workgroup) (l : List Nat) : (g.raiseRef l).tpoi = g.tpoi := rfl
@[simp] theorem Workgroup.raiseRef_acc (g : Workgroup) (l : List Nat) : (g.raiseRef l).acc = g.acc := rfl
@[simp] theorem Workgroup.raiseRef_cancel (g : Workgroup) (l : List Nat) : (g.raiseRef l).cancel = g.cancel := rfl
@[simp] theorem Workgroup.raiseRef_resident (g : Workgroup) (l : List Nat) : (g.raiseRef l).resident = g.resident := rfl
@[simp] theorem Workgroup.raiseRef_hard (g : Workgroup) (l : List Nat) : (g.raiseRef l).hard = g.hard := rfl
@[simp] theorem Workgroup.raiseRef_image (g : Workgroup) (l : List Nat) : (g.raiseRef l).image = g.image := rfl
@[simp] theorem Workgroup.raiseRef_save (g : Workgroup) (l : List Nat) : (g.raiseRef l).save = g.save := rfl
@[simp] theorem Workgroup.raiseRef_stride (g : Workgroup) (l : List Nat) : (g.raiseRef l).stride = g.stride := rfl

@[simp] theorem Workgroup.lowerRef_core (g : Workgroup) (l : List Nat) : (g.lowerRef l).core = g.core := rfl
@[simp] theorem Workgroup.lowerRef_slot (g : Workgroup) (l : List Nat) : (g.lowerRef l).slot = g.slot := rfl
@[simp] theorem Workgroup.lowerRef_uid (g : Workgroup) (l : List Nat) : (g.lowerRef l).uid = g.uid := rfl
@[simp] theorem Workgroup.lowerRef_ctx (g : Workgroup) (l : List Nat) : (g.lowerRef l).ctx = g.ctx := rfl
@[simp] theorem Workgroup.lowerRef_lid (g : Workgroup) (l : List Nat) : (g.lowerRef l).lid = g.lid := rfl
@[simp] theorem Workgroup.lowerRef_flat (g : Workgroup) (l : List Nat) : (g.lowerRef l).flat = g.flat := rfl
@[simp] theorem Workgroup.lowerRef_wgid (g : Workgroup) (l : List Nat) : (g.lowerRef l).wgid = g.wgid := rfl
@[simp] theorem Workgroup.lowerRef_nwg (g : Workgroup) (l : List Nat) : (g.lowerRef l).nwg = g.nwg := rfl
@[simp] theorem Workgroup.lowerRef_shape (g : Workgroup) (l : List Nat) : (g.lowerRef l).shape = g.shape := rfl
@[simp] theorem Workgroup.lowerRef_cls (g : Workgroup) (l : List Nat) : (g.lowerRef l).cls = g.cls := rfl
@[simp] theorem Workgroup.lowerRef_regs (g : Workgroup) (l : List Nat) : (g.lowerRef l).regs = g.regs := rfl
@[simp] theorem Workgroup.lowerRef_accum (g : Workgroup) (l : List Nat) : (g.lowerRef l).accum = g.accum := rfl
@[simp] theorem Workgroup.lowerRef_tileBase (g : Workgroup) (l : List Nat) : (g.lowerRef l).tileBase = g.tileBase := rfl
@[simp] theorem Workgroup.lowerRef_ids (g : Workgroup) (l : List Nat) : (g.lowerRef l).ids = g.ids := rfl
@[simp] theorem Workgroup.lowerRef_entry (g : Workgroup) (l : List Nat) : (g.lowerRef l).entry = g.entry := rfl
@[simp] theorem Workgroup.lowerRef_threads (g : Workgroup) (l : List Nat) : (g.lowerRef l).threads = g.threads := rfl
@[simp] theorem Workgroup.lowerRef_w (g : Workgroup) (l : List Nat) : (g.lowerRef l).w = g.w := rfl
@[simp] theorem Workgroup.lowerRef_c (g : Workgroup) (l : List Nat) : (g.lowerRef l).c = g.c := rfl
@[simp] theorem Workgroup.lowerRef_b (g : Workgroup) (l : List Nat) : (g.lowerRef l).b = g.b := rfl
@[simp] theorem Workgroup.lowerRef_k (g : Workgroup) (l : List Nat) : (g.lowerRef l).k = g.k := rfl
@[simp] theorem Workgroup.lowerRef_sa (g : Workgroup) (l : List Nat) : (g.lowerRef l).sa = g.sa := rfl
@[simp] theorem Workgroup.lowerRef_sb (g : Workgroup) (l : List Nat) : (g.lowerRef l).sb = g.sb := rfl
@[simp] theorem Workgroup.lowerRef_mcls (g : Workgroup) (l : List Nat) : (g.lowerRef l).mcls = g.mcls := rfl
@[simp] theorem Workgroup.lowerRef_tile (g : Workgroup) (l : List Nat) : (g.lowerRef l).tile = g.tile := rfl
@[simp] theorem Workgroup.lowerRef_tpoi (g : Workgroup) (l : List Nat) : (g.lowerRef l).tpoi = g.tpoi := rfl
@[simp] theorem Workgroup.lowerRef_acc (g : Workgroup) (l : List Nat) : (g.lowerRef l).acc = g.acc := rfl
@[simp] theorem Workgroup.lowerRef_cancel (g : Workgroup) (l : List Nat) : (g.lowerRef l).cancel = g.cancel := rfl
@[simp] theorem Workgroup.lowerRef_resident (g : Workgroup) (l : List Nat) : (g.lowerRef l).resident = g.resident := rfl
@[simp] theorem Workgroup.lowerRef_hard (g : Workgroup) (l : List Nat) : (g.lowerRef l).hard = g.hard := rfl
@[simp] theorem Workgroup.lowerRef_image (g : Workgroup) (l : List Nat) : (g.lowerRef l).image = g.image := rfl
@[simp] theorem Workgroup.lowerRef_save (g : Workgroup) (l : List Nat) : (g.lowerRef l).save = g.save := rfl
@[simp] theorem Workgroup.lowerRef_stride (g : Workgroup) (l : List Nat) : (g.lowerRef l).stride = g.stride := rfl

/-! Memory under the updates of its requests. -/

@[simp] theorem State.setReads_m_cells (s : State) (f : List RReq → List RReq) : (s.setReads f).m.cells = s.m.cells := rfl
@[simp] theorem State.setReads_m_host (s : State) (f : List RReq → List RReq) : (s.setReads f).m.host = s.m.host := rfl
@[simp] theorem State.setReads_m_poison (s : State) (f : List RReq → List RReq) : (s.setReads f).m.poison = s.m.poison := rfl
@[simp] theorem State.setReads_m_scrub (s : State) (f : List RReq → List RReq) : (s.setReads f).m.scrub = s.m.scrub := rfl
@[simp] theorem State.setReads_m_hostPoison (s : State) (f : List RReq → List RReq) : (s.setReads f).m.hostPoison = s.m.hostPoison := rfl
@[simp] theorem State.setReads_m_cache (s : State) (f : List RReq → List RReq) : (s.setReads f).m.cache = s.m.cache := rfl
@[simp] theorem State.setReads_m_reads (s : State) (f : List RReq → List RReq) : (s.setReads f).m.reads = f s.m.reads := rfl
@[simp] theorem State.setReads_m_writes (s : State) (f : List RReq → List RReq) : (s.setReads f).m.writes = s.m.writes := rfl
@[simp] theorem State.setReads_m_atoms (s : State) (f : List RReq → List RReq) : (s.setReads f).m.atoms = s.m.atoms := rfl
@[simp] theorem State.setReads_m_leases (s : State) (f : List RReq → List RReq) : (s.setReads f).m.leases = s.m.leases := rfl
@[simp] theorem State.setReads_m_waits (s : State) (f : List RReq → List RReq) : (s.setReads f).m.waits = s.m.waits := rfl
@[simp] theorem State.setReads_m_dir (s : State) (f : List RReq → List RReq) : (s.setReads f).m.dir = s.m.dir := rfl
@[simp] theorem State.setReads_m_missing (s : State) (f : List RReq → List RReq) : (s.setReads f).m.missing = s.m.missing := rfl
@[simp] theorem State.setReads_m_xlat (s : State) (f : List RReq → List RReq) : (s.setReads f).m.xlat = s.m.xlat := rfl

@[simp] theorem State.setWrites_m_cells (s : State) (f : List WEnt → List WEnt) : (s.setWrites f).m.cells = s.m.cells := rfl
@[simp] theorem State.setWrites_m_host (s : State) (f : List WEnt → List WEnt) : (s.setWrites f).m.host = s.m.host := rfl
@[simp] theorem State.setWrites_m_poison (s : State) (f : List WEnt → List WEnt) : (s.setWrites f).m.poison = s.m.poison := rfl
@[simp] theorem State.setWrites_m_scrub (s : State) (f : List WEnt → List WEnt) : (s.setWrites f).m.scrub = s.m.scrub := rfl
@[simp] theorem State.setWrites_m_hostPoison (s : State) (f : List WEnt → List WEnt) : (s.setWrites f).m.hostPoison = s.m.hostPoison := rfl
@[simp] theorem State.setWrites_m_cache (s : State) (f : List WEnt → List WEnt) : (s.setWrites f).m.cache = s.m.cache := rfl
@[simp] theorem State.setWrites_m_reads (s : State) (f : List WEnt → List WEnt) : (s.setWrites f).m.reads = s.m.reads := rfl
@[simp] theorem State.setWrites_m_writes (s : State) (f : List WEnt → List WEnt) : (s.setWrites f).m.writes = f s.m.writes := rfl
@[simp] theorem State.setWrites_m_atoms (s : State) (f : List WEnt → List WEnt) : (s.setWrites f).m.atoms = s.m.atoms := rfl
@[simp] theorem State.setWrites_m_leases (s : State) (f : List WEnt → List WEnt) : (s.setWrites f).m.leases = s.m.leases := rfl
@[simp] theorem State.setWrites_m_waits (s : State) (f : List WEnt → List WEnt) : (s.setWrites f).m.waits = s.m.waits := rfl
@[simp] theorem State.setWrites_m_dir (s : State) (f : List WEnt → List WEnt) : (s.setWrites f).m.dir = s.m.dir := rfl
@[simp] theorem State.setWrites_m_missing (s : State) (f : List WEnt → List WEnt) : (s.setWrites f).m.missing = s.m.missing := rfl
@[simp] theorem State.setWrites_m_xlat (s : State) (f : List WEnt → List WEnt) : (s.setWrites f).m.xlat = s.m.xlat := rfl

@[simp] theorem State.setAtoms_m_cells (s : State) (f : List AReq → List AReq) : (s.setAtoms f).m.cells = s.m.cells := rfl
@[simp] theorem State.setAtoms_m_host (s : State) (f : List AReq → List AReq) : (s.setAtoms f).m.host = s.m.host := rfl
@[simp] theorem State.setAtoms_m_poison (s : State) (f : List AReq → List AReq) : (s.setAtoms f).m.poison = s.m.poison := rfl
@[simp] theorem State.setAtoms_m_scrub (s : State) (f : List AReq → List AReq) : (s.setAtoms f).m.scrub = s.m.scrub := rfl
@[simp] theorem State.setAtoms_m_hostPoison (s : State) (f : List AReq → List AReq) : (s.setAtoms f).m.hostPoison = s.m.hostPoison := rfl
@[simp] theorem State.setAtoms_m_cache (s : State) (f : List AReq → List AReq) : (s.setAtoms f).m.cache = s.m.cache := rfl
@[simp] theorem State.setAtoms_m_reads (s : State) (f : List AReq → List AReq) : (s.setAtoms f).m.reads = s.m.reads := rfl
@[simp] theorem State.setAtoms_m_writes (s : State) (f : List AReq → List AReq) : (s.setAtoms f).m.writes = s.m.writes := rfl
@[simp] theorem State.setAtoms_m_atoms (s : State) (f : List AReq → List AReq) : (s.setAtoms f).m.atoms = f s.m.atoms := rfl
@[simp] theorem State.setAtoms_m_leases (s : State) (f : List AReq → List AReq) : (s.setAtoms f).m.leases = s.m.leases := rfl
@[simp] theorem State.setAtoms_m_waits (s : State) (f : List AReq → List AReq) : (s.setAtoms f).m.waits = s.m.waits := rfl
@[simp] theorem State.setAtoms_m_dir (s : State) (f : List AReq → List AReq) : (s.setAtoms f).m.dir = s.m.dir := rfl
@[simp] theorem State.setAtoms_m_missing (s : State) (f : List AReq → List AReq) : (s.setAtoms f).m.missing = s.m.missing := rfl
@[simp] theorem State.setAtoms_m_xlat (s : State) (f : List AReq → List AReq) : (s.setAtoms f).m.xlat = s.m.xlat := rfl

@[simp] theorem State.setLeases_m_cells (s : State) (f : List LeaseEnt → List LeaseEnt) : (s.setLeases f).m.cells = s.m.cells := rfl
@[simp] theorem State.setLeases_m_host (s : State) (f : List LeaseEnt → List LeaseEnt) : (s.setLeases f).m.host = s.m.host := rfl
@[simp] theorem State.setLeases_m_poison (s : State) (f : List LeaseEnt → List LeaseEnt) : (s.setLeases f).m.poison = s.m.poison := rfl
@[simp] theorem State.setLeases_m_scrub (s : State) (f : List LeaseEnt → List LeaseEnt) : (s.setLeases f).m.scrub = s.m.scrub := rfl
@[simp] theorem State.setLeases_m_hostPoison (s : State) (f : List LeaseEnt → List LeaseEnt) : (s.setLeases f).m.hostPoison = s.m.hostPoison := rfl
@[simp] theorem State.setLeases_m_cache (s : State) (f : List LeaseEnt → List LeaseEnt) : (s.setLeases f).m.cache = s.m.cache := rfl
@[simp] theorem State.setLeases_m_reads (s : State) (f : List LeaseEnt → List LeaseEnt) : (s.setLeases f).m.reads = s.m.reads := rfl
@[simp] theorem State.setLeases_m_writes (s : State) (f : List LeaseEnt → List LeaseEnt) : (s.setLeases f).m.writes = s.m.writes := rfl
@[simp] theorem State.setLeases_m_atoms (s : State) (f : List LeaseEnt → List LeaseEnt) : (s.setLeases f).m.atoms = s.m.atoms := rfl
@[simp] theorem State.setLeases_m_leases (s : State) (f : List LeaseEnt → List LeaseEnt) : (s.setLeases f).m.leases = f s.m.leases := rfl
@[simp] theorem State.setLeases_m_waits (s : State) (f : List LeaseEnt → List LeaseEnt) : (s.setLeases f).m.waits = s.m.waits := rfl
@[simp] theorem State.setLeases_m_dir (s : State) (f : List LeaseEnt → List LeaseEnt) : (s.setLeases f).m.dir = s.m.dir := rfl
@[simp] theorem State.setLeases_m_missing (s : State) (f : List LeaseEnt → List LeaseEnt) : (s.setLeases f).m.missing = s.m.missing := rfl
@[simp] theorem State.setLeases_m_xlat (s : State) (f : List LeaseEnt → List LeaseEnt) : (s.setLeases f).m.xlat = s.m.xlat := rfl

/-! What an update writes. -/

@[simp] theorem State.setCtx_ctxs (s : State) (n : Nat) (x : Context) : (s.setCtx n x).ctxs = s.ctxs.set n x := rfl
@[simp] theorem State.fresh_nextId (s : State) : s.fresh.nextId = s.nextId + 1 := rfl
@[simp] theorem Thread.retire_pc (t : Thread) (n k : Nat) (pc : DWord) : (t.retire n k pc).pc = pc := rfl
@[simp] theorem Thread.retire_next (t : Thread) (n k : Nat) (pc : DWord) : (t.retire n k pc).next = n + max 1 k := rfl
@[simp] theorem Thread.trap_run (t : Thread) (c : Nat) (x : Word) (a b r : DWord) : (t.trap c x a b r).run = .trapPending := rfl
@[simp] theorem Thread.trap_tcause (t : Thread) (c : Nat) (x : Word) (a b r : DWord) : (t.trap c x a b r).tcause = c := rfl
@[simp] theorem Thread.trap_pc (t : Thread) (c : Nat) (x : Word) (a b r : DWord) : (t.trap c x a b r).pc = r := rfl
@[simp] theorem Thread.setV_v (t : Thread) (n : Nat) (c : VCell) : (t.setV n c).v = t.v.set n c := rfl

theorem State.modThread_modWg (s : State) (c k t : Nat) (f : Thread → Thread) :
    s.modThread c k t f = s.modWg c k fun g => g.modThread t f := rfl

/-- The workgroup that was changed. -/
theorem State.wg?_modWg (s : State) (c k : Nat) (f : Workgroup → Workgroup)
    (h : ∀ g, (f g).core = g.core ∧ (f g).slot = g.slot) : (s.modWg c k f).wg? c k = (s.wg? c k).map f := by
  unfold State.wg? State.modWg
  dsimp only
  induction s.wgs with
  | nil => rfl
  | cons g l ih =>
    simp only [List.map_cons, List.find?_cons]
    by_cases hg : (g.core == c && g.slot == k) = true
    · rw [if_pos hg]
      simp only [(h g).1, (h g).2, hg, Option.map_some]
    · rw [if_neg hg]
      simp only [Bool.not_eq_true] at hg
      simp only [hg]
      exact ih

/-- Any other workgroup. -/
theorem State.wg?_modWg_other (s : State) (c k c' k' : Nat) (f : Workgroup → Workgroup)
    (h : ∀ g, (f g).core = g.core ∧ (f g).slot = g.slot) (hn : ¬(c' = c ∧ k' = k)) :
    (s.modWg c k f).wg? c' k' = s.wg? c' k' := by
  unfold State.wg? State.modWg
  dsimp only
  induction s.wgs with
  | nil => rfl
  | cons g l ih =>
    simp only [List.map_cons, List.find?_cons]
    by_cases hg : (g.core == c && g.slot == k) = true
    · have hx : (g.core == c' && g.slot == k') = false := by
        simp only [Bool.and_eq_true, beq_iff_eq] at hg
        simp only [Bool.and_eq_false_iff, beq_eq_false_iff_ne, ne_eq]
        by_cases hc : g.core = c'
        · exact .inr fun hk => hn ⟨hc ▸ hg.1, hk ▸ hg.2⟩
        · exact .inl hc
      rw [if_pos hg]
      simp only [(h g).1, (h g).2, hx]
      exact ih
    · rw [if_neg hg, ih]

/-- The thread that was changed. -/
theorem Workgroup.thread?_modThread (g : Workgroup) (n : Nat) (f : Thread → Thread) (h : ∀ t, (f t).tid = t.tid) :
    (g.modThread n f).thread? n = (g.thread? n).map f := by
  unfold Workgroup.thread? Workgroup.modThread
  dsimp only
  induction g.threads with
  | nil => rfl
  | cons t l ih =>
    simp only [List.map_cons, List.find?_cons]
    by_cases ht : (t.tid == n) = true
    · rw [if_pos ht]
      simp only [h t, ht, Option.map_some]
    · rw [if_neg ht]
      simp only [Bool.not_eq_true] at ht
      simp only [ht]
      exact ih

/-- Any other thread. -/
theorem Workgroup.thread?_modThread_other (g : Workgroup) (n m : Nat) (f : Thread → Thread) (h : ∀ t, (f t).tid = t.tid)
    (hn : m ≠ n) : (g.modThread n f).thread? m = g.thread? m := by
  unfold Workgroup.thread? Workgroup.modThread
  dsimp only
  induction g.threads with
  | nil => rfl
  | cons t l ih =>
    simp only [List.map_cons, List.find?_cons]
    by_cases ht : (t.tid == n) = true
    · have hx : (t.tid == m) = false := by
        simp only [beq_iff_eq] at ht
        simp only [beq_eq_false_iff_ne, ne_eq, ht]
        exact fun h => hn h.symm
      rw [if_pos ht]
      simp only [h t, hx]
      exact ih
    · rw [if_neg ht, ih]

/-- A thread of the state after it was changed. -/
theorem State.thread?_modThread (s : State) (c k n : Nat) (f : Thread → Thread) (h : ∀ t, (f t).tid = t.tid) :
    (s.modThread c k n f).thread? c k n = (s.thread? c k n).map f := by
  unfold State.thread?
  rw [State.modThread_modWg, State.wg?_modWg s c k (fun g => g.modThread n f) fun _ => ⟨rfl, rfl⟩]
  cases s.wg? c k with
  | none => rfl
  | some g => simp [Workgroup.thread?_modThread _ _ _ h]

end Sys2Proof.Machine
end

