-- ==== Sys2Proof/Laws/Memory.lean ====
section
/-! SUPPORT. Memory: reading after writing, and that every operation on memory keeps its canonical form. -/

namespace Sys2Proof.Machine

/-! Bytes. -/

theorem cellsWfFrom_mono {lo lo' : Nat} {l : List Host.Cell} (h : cellsWfFrom lo l = true) (hl : lo' ≤ lo) :
    cellsWfFrom lo' l = true := by
  cases l with
  | nil => rfl
  | cons q l =>
    simp only [cellsWfFrom, Bool.and_eq_true, decide_eq_true_eq] at h ⊢
    exact ⟨⟨Nat.le_trans hl h.1.1, h.1.2⟩, h.2⟩

/-- An address below every listed one reads 0. -/
theorem cellGet_below {lo a : Nat} {l : List Host.Cell} (h : cellsWfFrom lo l = true) (ha : a < lo) : cellGet a l = 0 := by
  cases l with
  | nil => rfl
  | cons q l =>
    simp only [cellsWfFrom, Bool.and_eq_true, decide_eq_true_eq] at h
    have h1 : (q.1 == a) = false := by
      simp only [beq_eq_false_iff_ne, ne_eq]; have := h.1.1; omega
    have h2 : a < q.1 := Nat.lt_of_lt_of_le ha h.1.1
    simp [cellGet, h1, h2]

theorem cellSet_wf {lo a : Nat} {b : Byte} {l : List Host.Cell} (h : cellsWfFrom lo l = true) (ha : lo ≤ a) :
    cellsWfFrom lo (cellSet a b l) = true := by
  induction l generalizing lo with
  | nil =>
    rw [cellSet]
    split
    · rfl
    · rename_i hb
      simp only [beq_iff_eq] at hb
      simp [cellsWfFrom, ha]
      exact hb
  | cons q l ih =>
    have h' := h
    simp only [cellsWfFrom, Bool.and_eq_true, decide_eq_true_eq] at h
    obtain ⟨⟨h1, h2⟩, h3⟩ := h
    unfold cellSet
    split
    · split
      · exact h'
      · rename_i hlt hb
        simp only [beq_iff_eq] at hb
        simp only [cellsWfFrom, Bool.and_eq_true, decide_eq_true_eq]
        exact ⟨⟨ha, by simpa using hb⟩, ⟨by omega, h2⟩, h3⟩
    · split
      · rename_i hlt hx
        simp only [beq_iff_eq] at hx
        split
        · exact cellsWfFrom_mono h3 (by omega)
        · rename_i hb
          simp only [beq_iff_eq] at hb
          simp only [cellsWfFrom, Bool.and_eq_true, decide_eq_true_eq]
          exact ⟨⟨ha, by simpa using hb⟩, hx ▸ h3⟩
      · rename_i hlt hx
        simp only [beq_iff_eq] at hx
        simp only [cellsWfFrom, Bool.and_eq_true, decide_eq_true_eq]
        exact ⟨⟨h1, h2⟩, ih h3 (by omega)⟩

/-- Reading one byte after writing one. -/
theorem cellGet_cellSet {lo a x : Nat} {b : Byte} {l : List Host.Cell} (h : cellsWfFrom lo l = true) :
    cellGet x (cellSet a b l) = if x = a then b else cellGet x l := by
  induction l generalizing lo with
  | nil =>
    rw [cellSet]
    split
    · rename_i hb
      simp only [beq_iff_eq] at hb
      simp [hb, cellGet]
    · by_cases hx : x = a
      · simp [cellGet, hx]
      · have hx' : (a == x) = false := by simp only [beq_eq_false_iff_ne, ne_eq]; exact fun h => hx h.symm
        simp [cellGet, hx, hx']
  | cons q l ih =>
    have h' := h
    simp only [cellsWfFrom, Bool.and_eq_true, decide_eq_true_eq] at h
    obtain ⟨⟨h1, h2⟩, h3⟩ := h
    unfold cellSet
    split
    · rename_i hlt
      split
      · rename_i hb
        simp only [beq_iff_eq] at hb
        by_cases hx : x = a
        · have hq : (q.1 == x) = false := by simp only [beq_eq_false_iff_ne, ne_eq]; omega
          have hl : x < q.1 := by omega
          subst hx
          simp [cellGet, hq, hl, hb]
        · simp [hx]
      · by_cases hx : x = a
        · simp [cellGet, hx]
        · have hx' : (a == x) = false := by simp only [beq_eq_false_iff_ne, ne_eq]; exact fun h => hx h.symm
          by_cases hl : x < a
          · have hq : (q.1 == x) = false := by simp only [beq_eq_false_iff_ne, ne_eq]; omega
            have hq' : x < q.1 := by omega
            simp [cellGet, hx, hx', hl, hq, hq']
          · simp [cellGet, hx, hx', hl]
    · split
      · rename_i hlt hqa
        simp only [beq_iff_eq] at hqa
        split
        · rename_i hb
          simp only [beq_iff_eq] at hb
          by_cases hx : x = a
          · have := cellGet_below h3 (a := x) (by omega)
            rw [if_pos hx, this, hb]
          · have hq : (q.1 == x) = false := by simp only [beq_eq_false_iff_ne, ne_eq]; omega
            by_cases hl : x < q.1
            · have := cellGet_below h3 (a := x) (by omega)
              simp [cellGet, hx, hq, hl, this]
            · simp [cellGet, hx, hq, hl]
        · by_cases hx : x = a
          · simp [cellGet, hx]
          · have hx' : (a == x) = false := by simp only [beq_eq_false_iff_ne, ne_eq]; exact fun h => hx h.symm
            simp [cellGet, hx, hx', hqa]
      · rename_i hlt hqa
        simp only [beq_iff_eq] at hqa
        by_cases hq : q.1 = x
        · simp [cellGet, hq, show x ≠ a from fun h => hqa (hq.trans h)]
        · have hq' : (q.1 == x) = false := by simpa using hq
          by_cases hl : x < q.1
          · simp [cellGet, hq', hl, show x ≠ a by omega]
          · simp [cellGet, hq', hl, ih h3]

theorem cellsSet_wf {a : Nat} {bs : List Byte} {l : List Host.Cell} (h : Memory.wf l = true) : Memory.wf (cellsSet a bs l) = true := by
  induction bs generalizing a l with
  | nil => exact h
  | cons b bs ih => exact ih (cellSet_wf h (Nat.zero_le _))

/-- Reading one byte after writing several. -/
theorem cellGet_cellsSet {a x : Nat} {bs : List Byte} {l : List Host.Cell} (h : Memory.wf l = true) :
    cellGet x (cellsSet a bs l) = if a ≤ x ∧ x < a + bs.length then bs.getD (x - a) 0 else cellGet x l := by
  induction bs generalizing a l with
  | nil => simp [cellsSet, show ¬(a ≤ x ∧ x < a) by omega]
  | cons b bs ih =>
    rw [cellsSet, ih (cellSet_wf h (Nat.zero_le _)), cellGet_cellSet h]
    by_cases h1 : a + 1 ≤ x ∧ x < a + 1 + bs.length
    · have : x - a = (x - (a + 1)) + 1 := by omega
      rw [if_pos h1, if_pos (by simp only [List.length_cons]; omega), this, List.getD_cons_succ]
    · rw [if_neg h1]
      by_cases h2 : x = a
      · subst h2; simp
      · rw [if_neg h2, if_neg (by simp only [List.length_cons]; omega)]

/-! Rising lists. -/

theorem nsWf_tail {y : Nat} {l : List Nat} (h : nsWf (y :: l) = true) : nsWf l = true := by
  cases l with
  | nil => rfl
  | cons z l => simp only [nsWf, Bool.and_eq_true] at h; exact h.2

theorem nsWf_lt {y : Nat} {l : List Nat} (h : nsWf (y :: l) = true) : ∀ z ∈ l, y < z := by
  induction l generalizing y with
  | nil => simp
  | cons z l ih =>
    simp only [nsWf, Bool.and_eq_true, decide_eq_true_eq] at h
    intro w hw
    rcases List.mem_cons.mp hw with rfl | hw
    · exact h.1
    · exact Nat.lt_trans h.1 (ih h.2 w hw)

theorem nsWf_cons {y : Nat} {l : List Nat} (hl : nsWf l = true) (h : ∀ z ∈ l, y < z) : nsWf (y :: l) = true := by
  cases l with
  | nil => rfl
  | cons z l => simp only [nsWf, Bool.and_eq_true, decide_eq_true_eq]; exact ⟨h z (List.mem_cons_self ..), hl⟩

theorem mem_nsInsert {x z : Nat} {l : List Nat} : z ∈ nsInsert x l ↔ z = x ∨ z ∈ l := by
  induction l with
  | nil => simp [nsInsert]
  | cons y l ih =>
    unfold nsInsert
    split
    · simp
    · split
      · rename_i h; simp only [beq_iff_eq] at h; subst h; simp
      · simp only [List.mem_cons, ih]; constructor <;> (rintro (h | h | h) <;> simp [h])

theorem nsInsert_wf {x : Nat} {l : List Nat} (h : nsWf l = true) : nsWf (nsInsert x l) = true := by
  induction l with
  | nil => rfl
  | cons y l ih =>
    unfold nsInsert
    split
    · rename_i hxy
      exact nsWf_cons h fun z hz => by
        rcases List.mem_cons.mp hz with rfl | hz
        · exact hxy
        · exact Nat.lt_trans hxy (nsWf_lt h z hz)
    · split
      · exact h
      · rename_i h1 h2
        simp only [beq_iff_eq] at h2
        refine nsWf_cons (ih (nsWf_tail h)) fun z hz => ?_
        rcases mem_nsInsert.mp hz with rfl | hz
        · omega
        · exact nsWf_lt h z hz

theorem mem_nsErase {x z : Nat} {l : List Nat} (h : nsWf l = true) : z ∈ nsErase x l ↔ z ≠ x ∧ z ∈ l := by
  induction l with
  | nil => simp [nsErase]
  | cons y l ih =>
    have hlt := nsWf_lt h
    unfold nsErase
    split
    · rename_i hx; simp only [beq_iff_eq] at hx; subst hx
      constructor
      · intro hz; exact ⟨fun he => by have := hlt z hz; omega, List.mem_cons_of_mem _ hz⟩
      · rintro ⟨h1, h2⟩; exact (List.mem_cons.mp h2).resolve_left h1
    · rename_i hx; simp only [beq_iff_eq] at hx
      split
      · rename_i hxy
        constructor
        · intro hz
          refine ⟨fun he => ?_, hz⟩
          rcases List.mem_cons.mp hz with rfl | hz
          · omega
          · have := hlt z hz; omega
        · exact fun hz => hz.2
      · simp only [List.mem_cons, ih (nsWf_tail h)]
        constructor
        · rintro (rfl | ⟨h1, h2⟩)
          · exact ⟨fun he => hx he.symm, .inl rfl⟩
          · exact ⟨h1, .inr h2⟩
        · rintro ⟨h1, h2 | h2⟩
          · exact .inl h2
          · exact .inr ⟨h1, h2⟩

theorem nsErase_wf {x : Nat} {l : List Nat} (h : nsWf l = true) : nsWf (nsErase x l) = true := by
  induction l with
  | nil => rfl
  | cons y l ih =>
    unfold nsErase
    split
    · exact nsWf_tail h
    · split
      · exact h
      · exact nsWf_cons (ih (nsWf_tail h)) fun z hz => nsWf_lt h z ((mem_nsErase (nsWf_tail h)).mp hz).2

theorem nsWf_filter {p : Nat → Bool} {l : List Nat} (h : nsWf l = true) : nsWf (l.filter p) = true := by
  induction l with
  | nil => rfl
  | cons y l ih =>
    rw [List.filter_cons]
    split
    · exact nsWf_cons (ih (nsWf_tail h)) fun z hz => nsWf_lt h z (List.mem_filter.mp hz).1
    · exact ih (nsWf_tail h)

/-! Memory operations keep the canonical form. -/

theorem Mem.mark_canon {m : Mem} (h : m.canon) (n : Nat) (b : Bool) : (m.mark n b).canon := by
  refine ⟨h.1, h.2.1, ?_, h.2.2.2.1, h.2.2.2.2⟩
  unfold Mem.mark
  dsimp only
  split
  · exact nsInsert_wf h.2.2.1
  · exact nsErase_wf h.2.2.1

/-- A sector that was marked reads as it was marked, every other sector as before. -/
theorem Mem.marked_mark {m : Mem} (h : m.canon) (n k : Nat) (b : Bool) :
    (m.mark n b).marked k = if k = n then b else m.marked k := by
  have hw := h.2.2.1
  have hmi : ∀ l : List Nat, (nsInsert n l).contains k = (decide (k = n) || l.contains k) := fun l => by
    rw [Bool.eq_iff_iff]; simp [mem_nsInsert]
  have hme : (nsErase n m.poison).contains k = (!decide (k = n) && m.poison.contains k) := by
    rw [Bool.eq_iff_iff]; simp [mem_nsErase hw]
  unfold Mem.marked Mem.mark
  dsimp only
  by_cases hk : k = n
  · subst hk
    cases hs : m.scrub.contains (dieOfSector k) <;> cases b <;> simp_all
  · split
    · rw [hmi]; simp [hk]
    · rw [hme]; simp [hk]

theorem Mem.setBytes_canon {m : Mem} (h : m.canon) (x : Xl) (bs : List Byte) : (m.setBytes x bs).canon := by
  unfold Mem.setBytes
  split
  · exact ⟨h.1, cellsSet_wf h.2.1, h.2.2⟩
  · exact ⟨cellsSet_wf h.1, h.2⟩

theorem Mem.setPoison_canon {m : Mem} (h : m.canon) (x : Xl) (b : Bool) : (m.setPoison x b).canon := by
  unfold Mem.setPoison
  split
  · refine ⟨h.1, h.2.1, h.2.2.1, ?_, h.2.2.2.2⟩
    dsimp only
    split
    · exact nsInsert_wf h.2.2.2.1
    · exact nsErase_wf h.2.2.2.1
  · exact Mem.mark_canon h _ _

theorem Mem.scrubDie_canon {m : Mem} (h : m.canon) (d : Nat) : (m.scrubDie d).canon :=
  ⟨h.1, h.2.1, nsWf_filter h.2.2.1, h.2.2.2.1, nsInsert_wf h.2.2.2.2⟩

theorem Mem.cells_canon {m : Mem} (h : m.canon) (a : Nat) (bs : List Byte) :
    ({ m with cells := cellsSet a bs m.cells } : Mem).canon := ⟨cellsSet_wf h.1, h.2⟩

/-- A fold of steps that each keep the canonical form. -/
theorem foldl_canon {α : Type} (f : State → α → State) (hf : ∀ s a, s.m.canon → (f s a).m.canon) (l : List α) {s : State}
    (h : s.m.canon) : (l.foldl f s).m.canon := by
  induction l generalizing s with
  | nil => exact h
  | cons a l ih => exact ih (hf s a h)

theorem State.mod_m (s : State) (w : Who) (f : Thread → Thread) : (s.mod w f).m = s.m := by
  unfold State.mod; split <;> rfl

theorem State.releaseTag_m (s : State) (w : Who) (n : Nat) : (s.releaseTag w n).m = s.m := by
  unfold State.releaseTag; split <;> rfl

theorem State.endWait_canon {s : State} (h : s.m.canon) (e : WaitEnt) (x : Word) : (s.endWait e x).m.canon := by
  unfold State.endWait
  dsimp only
  split
  · exact h
  · rw [State.mod_m]; exact h

theorem State.wakeWait_canon {s : State} (h : s.m.canon) (x : Xl) (e : WaitEnt) : (s.wakeWait x e).m.canon := by
  unfold State.wakeWait
  dsimp only
  split
  · exact State.endWait_canon h _ _
  · exact h

/-- The device's own writes keep the canonical form. -/
theorem State.ringWrite_canon {s : State} (h : s.m.canon) (pa : Nat) (bs : List Byte) : (s.ringWrite pa bs).m.canon := by
  unfold State.ringWrite
  refine foldl_canon _ (fun s e h => State.wakeWait_canon h _ _) _ ?_
  refine Mem.mark_canon ?_ _ _
  exact ⟨cellsSet_wf h.1, h.2⟩

theorem State.event_canon {s : State} (h : s.m.canon) (k c u a d : Nat) : (s.event k c u a d).m.canon := by
  unfold State.event
  split
  · dsimp only
    split
    · exact State.ringWrite_canon h _ _
    · exact h
  · exact h

theorem State.lateTrap_canon {s : State} (h : s.m.canon) (w : Who) (c k : Nat) (fa : DWord) (ia kd : Nat) :
    (s.lateTrap w c k fa ia kd).m.canon := by
  unfold State.lateTrap
  split
  · exact State.event_canon h _ _ _ _ _
  · split
    · exact State.event_canon h _ _ _ _ _
    · exact h

theorem State.rewait_canon {s : State} (h : s.m.canon) (x : Xl) : (s.rewait x).m.canon := by
  unfold State.rewait
  refine foldl_canon _ (fun s e h => ?_) _ h
  dsimp only
  split
  · refine State.lateTrap_canon ?_ _ _ _ _ _ _
    rw [State.releaseTag_m, State.mod_m]
    exact h
  · exact State.wakeWait_canon h _ _

theorem Mem.watches_canon {m : Mem} (h : m.canon) (w : List Watch) : ({ m with watches := w } : Mem).canon := h

/-- A write that completes keeps the canonical form: what every store, atomic and engine write goes through. -/
theorem State.complete_canon {s : State} (h : s.m.canon) (ctx ia die : Nat) (x : Xl) (mask : List Bool) (data : List Byte)
    (clear poison count : Bool) : (s.complete ctx ia die x mask data clear poison count).m.canon := by
  unfold State.complete
  apply State.rewait_canon
  have h1 := Mem.setBytes_canon h { x with pa := x.pa / 32 * 32 } (maskWrite mask data (s.m.bytesAt { x with pa := x.pa / 32 * 32 } 32))
  have h2 : (if poison then (s.m.setBytes { x with pa := x.pa / 32 * 32 } (maskWrite mask data (s.m.bytesAt { x with pa := x.pa / 32 * 32 } 32))).setPoison
      { x with pa := x.pa / 32 * 32 } true else if clear then (s.m.setBytes { x with pa := x.pa / 32 * 32 } (maskWrite mask data
      (s.m.bytesAt { x with pa := x.pa / 32 * 32 } 32))).setPoison { x with pa := x.pa / 32 * 32 } false else
      s.m.setBytes { x with pa := x.pa / 32 * 32 } (maskWrite mask data (s.m.bytesAt { x with pa := x.pa / 32 * 32 } 32))).canon := by
    cases poison
    · cases clear
      · exact h1
      · exact Mem.setPoison_canon h1 _ _
    · exact Mem.setPoison_canon h1 _ _
  cases count
  · exact h2
  · exact Mem.watches_canon h2 _

theorem State.writeBytes_canon {s : State} (h : s.m.canon) (ctx ia home : Nat) (x : Xl) (data : List Byte) (clear : Bool) :
    (s.writeBytes ctx ia home x data clear).m.canon := by
  unfold State.writeBytes
  exact foldl_canon _ (fun s k h => State.complete_canon h _ _ _ _ _ _ _ _ _) _ h

end Sys2Proof.Machine
end

