-- ==== Sys2Proof/Laws/Threads.lean ====
section
/-! SUPPORT. What the shared operation of the other instructions does: threadOp in the one thread of a path. -/

namespace Sys2Proof.Machine

theorem rising_one (p : Path) (t : Nat) (h : p.tids = [t]) : p.rising = [t] := by
  simp [Path.rising, h, nsInsert]

theorem env?_of {e : Env} (h : e.Issues) : e.s.env? e.path e.t.tid = some e := by
  unfold State.env?
  rw [h.wg]
  simp only
  rw [h.thread]
  simp [h.run, h.pc]

theorem threadStep_runs {e : Env} {i : Instr} (body : Env → Res) (h : e.runs i) :
    threadStep i body e = body (e.at_ i) := by
  have hg := h.guard
  have hp := h.guardOk
  have hf := h.free
  have hc := h.clean
  have hw := h.ready.2
  unfold threadStep
  simp only [hg, hp, hf, hc, hw]
  by_cases hk : e.chk = true
  · simp [hk, h.ready.1 hk, Env.at_]
  · simp [hk, Env.at_]

/-- threadOp where the thread runs the instruction: what statements about single instructions cite. -/
theorem threadOp_runs {e : Env} {i : Instr} (body : Env → Res) (hx : exec i e.s = threadOp i body e.s) (h : e.runs i) :
    exec i e.s = .next (applyRes i e (body (e.at_ i))) := by
  rw [hx]
  simp only [threadOp, h.issues.cur, rising_one _ _ h.alone, List.foldl_cons, List.foldl_nil, oneThread,
    env?_of h.issues, threadStep_runs body h]

theorem threadOp_done {e : Env} {i : Instr} (body : Env → Res) (hx : exec i e.s = threadOp i body e.s) (h : e.runs i)
    {s : State} (hb : body (e.at_ i) = .done s) : e.retires i s := by
  unfold Env.retires Env.leaves
  rw [threadOp_runs body hx h, hb]; rfl

theorem threadOp_jump {e : Env} {i : Instr} (body : Env → Res) (hx : exec i e.s = threadOp i body e.s) (h : e.runs i)
    {s : State} {pc : DWord} (hb : body (e.at_ i) = .jump s pc) : e.goes i s pc := by
  unfold Env.goes Env.leaves
  rw [threadOp_runs body hx h, hb]; rfl

theorem threadOp_block {e : Env} {i : Instr} (body : Env → Res) (hx : exec i e.s = threadOp i body e.s) (h : e.runs i)
    {s : State} {b : Blk} (hb : body (e.at_ i) = .block s b) : e.blocks i s b := by
  unfold Env.blocks Env.leaves
  rw [threadOp_runs body hx h, hb]; rfl

theorem threadOp_trap {e : Env} {i : Instr} (body : Env → Res) (hx : exec i e.s = threadOp i body e.s) (h : e.runs i)
    {c : Nat} {code : Word} {fa : DWord} (hb : body (e.at_ i) = .trap c code fa false) : e.traps i c code fa e.t.pc := by
  unfold Env.traps Env.leaves
  rw [threadOp_runs body hx h, hb]; rfl

theorem threadOp_trapAfter {e : Env} {i : Instr} (body : Env → Res) (hx : exec i e.s = threadOp i body e.s) (h : e.runs i)
    {c : Nat} {code : Word} (hb : body (e.at_ i) = .trap c code 0 true) : e.trapsAfter i c code := by
  unfold Env.trapsAfter Env.leaves
  rw [threadOp_runs body hx h, hb]; rfl

/-- A word delivered to a v register arrives in it, and nothing else of the thread changes. -/
theorem thread?_deliver_v (s : State) (c k n r : Nat) (x : Word) (p : Bool) :
    (s.deliver c k n (.v r) x p).thread? c k n = (s.thread? c k n).map fun t => t.setV r (.arrived x p) :=
  State.thread?_modThread s c k n (fun t => t.setV r (.arrived x p)) fun _ => rfl

end Sys2Proof.Machine
end

