-- ==== Sys2Proof/Tests/Slice0.lean ====
section
/-! SUPPORT. Tests: witnesses of the obligations' hypotheses, ill-formed instructions, decodings, and single steps.
Expected results are the spec's worked values or calculated by hand from its rules. -/

namespace Sys2Proof.Machine.Box

set_option Elab.async false

/-! A small machine: one thread at 0x1000, alone in slot 0 of core 0 and current, in context 0. -/

def hdr : Hdr := { stall := 1, g := 7, gn := false }

/-- A thread with v registers that hold the given words. -/
def thread (vs : List Nat) : Thread :=
  { newThread (vs.length - 1) 0 0 0x1000 with v := vs.map fun x => { val := BitVec.ofNat 32 x } }

/-- A workgroup with w registers that hold the given words and n bytes of tile store. -/
def wg (ws : List Nat) (n : Nat) : Workgroup :=
  { core := 0, slot := 0, uid := 1, ctx := 0, lid := 1, flat := 0, wgid := (0, 0, 0), nwg := (1, 1, 1), shape := (1, 1, 1)
    cls := 1, regs := 7, accum := 2, tileBase := 0, ids := (0, 0, 0), entry := 0x1000, threads := []
    w := ws.map fun x => { base := BitVec.ofNat 32 x }, c := List.replicate 16 {}, b := List.replicate 16 {}
    k := List.replicate 16 { base := 1 }, sa := List.replicate 4 { base := [] }, sb := List.replicate 4 { base := {} }
    mcls := { base := 0 }, tile := List.replicate n 0, tpoi := [], gran := List.replicate (n / 1024) {}, acc := [[], []] }

/-- A range register: base, limit, offset, and V R W X MSA from bit 0 up. -/
def range (base limit off flags : Nat) : BitVec 256 :=
  BitVec.ofNat 256 (base + limit * 2 ^ 64 + off * 2 ^ 128 + flags * 2 ^ 192)

/-- A supervisor that runs: the first 64 KiB with every right, the next 64 KiB to execute only, nothing beyond. -/
def ctx : Context := { Context.fresh with
  state := .running, ctl := 0x83
  rg := range 0 0x10000 0 15 :: range 0x10000 0x20000 0x10000 9 :: List.replicate 14 0 }

/-- An unprivileged context. -/
def user : Context := { ctx with ctl := 0x81 }

/-- The first 64 KiB are mapped to the same physical addresses, in a shared frame that context 0 may use. -/
def st : State := { State.reset with
  now := 1000
  ctxs := ctx :: List.replicate 63 Context.fresh
  m := { nextSeq := List.replicate 256 1
         xlat := [{ die := 0, ctrl := 0, ctx := 0, level := 0, ia := 0, pa := 0, hst := false }] }
  y := { State.reset.y with pat := [(0, 0, 0xFE)], access := [(0, 0, { base := 3, limit := 0x100000 })] } }

def path : Path := { core := 0, slot := 0, pc := 0x1000, tids := [0], base := 0 }

/-- The thread in the workgroup in the state. -/
def env (t : Thread) (g : Workgroup) (s : State) : Env :=
  let t := { t with tid := 0, pc := 0x1000, run := .runnable }
  let g := { g with core := 0, slot := 0, threads := [t] }
  { s := { s with wgs := [g], cur := some path }, g := g, t := t, path := path }

theorem issues (t : Thread) (g : Workgroup) (s : State) : (env t g s).Issues :=
  ⟨rfl, rfl, rfl, List.mem_singleton.2 rfl, rfl, rfl, by simp [env]⟩

/-- What executing an instruction asks beside being at it. -/
def ready (e : Env) (i : Instr) : Bool :=
  e.guard i.hdr && !(e.pred i.hdr.g).2 && (!e.chk || (e.predReady i.hdr.g && !e.shortfall i)) && !e.awaits i && !e.held i && !e.poisoned i

/-- The part of it that is asked before the holds are looked at. -/
def atIssue (e : Env) (i : Instr) : Bool :=
  e.guard i.hdr && !(e.pred i.hdr.g).2 && (!e.chk || (e.predReady i.hdr.g && !e.shortfall i)) && !e.awaits i

theorem atIssueEach {t : Thread} {g : Workgroup} {s : State} (l : List Instr) (h : l.all (atIssue (env t g s)) = true) :
    ∀ i ∈ l, (env t g s).Issues ∧ (env t g s).path.tids = [(env t g s).t.tid] ∧ (env t g s).guard i.hdr = true ∧
      ((env t g s).pred i.hdr.g).2 = false ∧ (env t g s).ready i := by
  intro i hi
  have h := List.all_eq_true.1 h i hi
  simp only [atIssue, Bool.and_eq_true, Bool.or_eq_true, Bool.not_eq_true'] at h
  obtain ⟨⟨⟨h1, h2⟩, h3⟩, h4⟩ := h
  exact ⟨issues .., rfl, h1, h2, fun hc => by rcases h3 with h | h <;> simp_all, h4⟩

theorem runs {t : Thread} {g : Workgroup} {s : State} {i : Instr} (h : ready (env t g s) i = true) : (env t g s).runs i := by
  simp only [ready, Bool.and_eq_true, Bool.or_eq_true, Bool.not_eq_true'] at h
  obtain ⟨⟨⟨⟨⟨h1, h2⟩, h3⟩, h4⟩, h5⟩, h6⟩ := h
  exact ⟨issues .., rfl, h1, h2, ⟨fun hc => by rcases h3 with h | h <;> simp_all, h4⟩, h5, h6⟩

theorem runsLane {t : Thread} {g : Workgroup} {s : State} {i : Instr} (h : (ready (env t g s) i && !(env t g s).cwbHolds) = true) :
    (env t g s).runsLane i := by
  rw [Bool.and_eq_true, Bool.not_eq_true'] at h
  have := runs h.1
  exact ⟨this.issues, this.guard, this.ready, h.2⟩

/-- The thread and a second one in its workgroup. -/
def beside (e : Env) (u : Thread) : Env :=
  let g := { e.g with threads := e.g.threads ++ [{ u with tid := 1 }] }
  { e with s := { e.s with wgs := [g] }, g := g }

theorem runsBeside {t : Thread} {g : Workgroup} {s : State} {u : Thread} (l : List Instr)
    (h : l.all (ready (beside (env t g s) u)) = true) : ∀ i ∈ l, (beside (env t g s) u).runs i := by
  intro i hi
  have h := List.all_eq_true.1 h i hi
  simp only [ready, Bool.and_eq_true, Bool.or_eq_true, Bool.not_eq_true'] at h
  obtain ⟨⟨⟨⟨⟨h1, h2⟩, h3⟩, h4⟩, h5⟩, h6⟩ := h
  exact ⟨⟨rfl, rfl, rfl, List.mem_singleton.2 rfl, rfl, rfl, by simp [beside, env]⟩, rfl, h1, h2,
    ⟨fun hc => by rcases h3 with h | h <;> simp_all, h4⟩, h5, h6⟩

theorem runsEach {t : Thread} {g : Workgroup} {s : State} (l : List Instr) (h : l.all (ready (env t g s)) = true) :
    ∀ i ∈ l, (env t g s).runs i := fun i hi => runs (List.all_eq_true.1 h i hi)

theorem runsLaneEach {t : Thread} {g : Workgroup} {s : State} (l : List Instr) (h : l.all (fun i => ready (env t g s) i && !(env t g s).cwbHolds) = true) :
    ∀ i ∈ l, (env t g s).runsLane i := fun i hi => runsLane (List.all_eq_true.1 h i hi)

/-- Eight v registers, eight w registers, a tile store of 2 KiB. -/
def e0 : Env := env (thread [0, 1, 2, 0xFFFFFFFF, 0x80000000, 32, 64, 0x3F800000]) (wg [0, 0x100, 0, 0x10000, 0, 0x20000, 0, 0x1FF] 2048) st

/-- Operands of addresses: 0x40, an execute-only address, one that no range holds, and expected value 5 under a full mask. -/
def ws : List Nat := [0x40, 0, 0x10000, 0, 0x20000, 0, 5, 0xFFFFFFFF]

def e1 : Env := env (thread [0, 1, 2, 0xFFFFFFFF, 4, 5, 6, 7]) (wg ws 2048) st

/-- Range register 0 of ctx. -/
def r0 : Range := { base := 0, limit := 0x10000, off := 0, rd := true, w := true, x := true, msa := false, hom := false, hdie := 0 }

/-- Its frame at an address. -/
def fr (a : Nat) : Xl := ⟨a, false⟩

def who : Who := { core := 0, slot := 0, tid := 0, uid := 1, pc := 0x1000, issued := 1 }

/-- A store of one word to 0x44, on its way. -/
def write (q : WState) : WEnt :=
  { id := 3, ord := 1, eid := 4, who := who, lanes := [{ who := who, va := 0x44, bs := [4, 5, 6, 7] }], cycle := 900, ctx := 0, va := 0x44, ia := 0x40, home := 0, msa := false, kind := .st, sc := .wg, byp := false
    mask := (List.replicate 32 false).set 4 true, data := (List.replicate 32 0).set 4 7, pri := [], ops := [], full := false, after := [], till := 0
    state := q }

/-- A load of the double word at 0x40 into v2 and v3. -/
def load (got : Option (List Byte × Bool)) (acq : Bool) : RReq :=
  { id := 5, who := who, ctx := 0, va := 0x40, kind := .load .double false 2 acq, hint := .dflt, sc := .wg, cycle := 900
    bytes := (List.range 8).map fun k => .mem (0x40 + k)
    secs := [{ ia := 0x40, home := 0, got := got, till := 0, queued := none, retry := 0 }], held := false, view := false, composed := false }

/-- One lane's atomic on the word at 0x44. -/
def atomic (k : AKind) (fwd : Bool) : AReq :=
  { id := 6, ctx := 0, va := 0x44, ia := 0x44, home := 0, msa := fwd, kind := k, ty := .i32, sc := .dev, cycle := 900
    lanes := [{ who := who, d := .v 2, x := 9, cmp := 7 }], fwd := fwd, queued := none, held := false, retry := 0 }

def cent : CEnt := { core := 0, ctx := 0, ia := 0x40, home := 0, hint := .dflt, till := 2000, used := 0 }

theorem plainAt {e : Env} {va : DWord} {n : Nat} {acc : Acc} {r : Range} (h1 : e.ctx.match? va = some r)
    (h2 : (r.allows acc && va.toNat % n == 0 && !e.ctx.inAperture (r.ia va) && (e.ctx.window? (r.ia va)).isNone) = true) :
    e.plain va n acc r := by
  simp only [Bool.and_eq_true, beq_iff_eq, Bool.not_eq_true', Option.isNone_iff_eq_none] at h2
  exact ⟨h1, h2.1.1.1, h2.1.1.2, h2.1.2, h2.2⟩

/-- What a unit's access comes to, when it is done. -/
def done? {α : Type} : Reach α → Option α
  | .ok a => some a
  | _ => none

theorem isDone {α : Type} {r : Reach α} {p : α → Bool} (h : (done? r).any p = true) : ∃ a, r = .ok a ∧ p a = true := by
  cases r <;> simp_all [done?]

/-! Witnesses: lane-class instructions. -/

theorem witness_IntegerBinaryResults : ∀ i ∈ ([.iadd hdr .i32 (.v 1) (.v 3) (.c 1), .isub hdr .n32 (.w 1) (.v 0) (.v 1),
    .imul hdr .i32 (.v 1) (.v 3) (.w 3), .imin hdr .i64 (.v 0) (.v 2) (.v 4), .imax hdr .n32 (.v 0) (.v 3) (.v 4),
    .and hdr .n64 (.v 0) (.v 2) (.w 2), .or hdr .i32 (.v 0) (.v 3) (.sp 0), .xor hdr .i64 (.v 0) (.v 2) (.v 4),
    .rotl hdr .n32 (.v 0) (.v 4) (.v 5)] : List Instr), e0.runsLane i := runsLaneEach _ (by decide)

/-- Counts of 32 and 64, the first that shift everything out. -/
theorem witness_RegisterShiftResults : ∀ i ∈ ([.shl hdr .i32 (.v 0) (.v 3) (.v 5), .shl hdr .i64 (.v 0) (.v 2) (.v 6),
    .shr hdr .n32 (.v 0) (.v 3) (.v 5), .shr hdr .n64 (.v 0) (.v 2) (.v 6), .sar hdr .i32 (.v 0) (.v 4) (.v 5),
    .sar hdr .i64 (.v 0) (.v 2) (.v 6)] : List Instr), e0.runsLane i := runsLaneEach _ (by decide)

theorem witness_ImmediateResults : (∀ i ∈ ([.iaddi hdr (.v 0) (.v 1) 0xFFFFFFF, .andi hdr (.v 0) (.v 3) 0x8000000, .ori hdr (.v 0) (.v 1) 0,
    .xori hdr (.v 0) (.v 1) 1, .shli hdr (.v 0) (.v 1) 31, .shri hdr (.v 0) (.v 4) 31, .sari hdr (.v 0) (.v 4) 31,
    .movi hdr (.v 0) 0x8000000, .movh hdr (.v 0) (.v 1) 0xFFFF] : List Instr), e0.runsLane i) ∧
    (∃ f : Fields, f.op = 0x014 ∧ 31 < f.imm) ∧ ∃ f : Fields, f.op = 0x022 ∧ 0xFFFF < f.imm :=
  ⟨runsLaneEach _ (by decide), ⟨.ofWord (0x014 * 2 ^ 46 + 32), by decide⟩, ⟨.ofWord (0x022 * 2 ^ 46 + 0x10000), by decide⟩⟩

theorem witness_MultiplyAndDivideResults : ∀ i ∈ ([.imulh hdr .i32 (.v 0) (.v 3) (.v 4), .imad hdr .n32 (.v 0) (.v 3) (.v 4) (.v 1),
    .imadw hdr .i32 (.v 0) (.v 3) (.v 4) (some (.v 2)), .imadw hdr .n32 (.v 0) (.v 3) (.v 4) none, .iadd64 hdr true (.v 0) (.v 2) (.v 4),
    .idiv hdr .i32 (.v 0) (.v 4) (.v 3), .idiv hdr .n32 (.v 0) (.v 1) (.v 0), .irem hdr .i32 (.v 0) (.v 4) (.v 3)] : List Instr),
    e0.runsLane i := runsLaneEach _ (by decide)

theorem witness_BitFieldResults : ∀ i ∈ ([.iabs hdr (.v 0) (.v 4), .popc hdr (.v 0) (.v 3), .clz hdr (.v 0) (.c 0), .brev hdr (.v 0) (.v 4),
    .bfe hdr .i32 (.v 0) (.v 4) (.c 31) (.c 1), .bfe hdr .n32 (.v 0) (.v 3) (.c 0) (.v 5), .bfi hdr (.v 0) (.v 1) (.v 3) (.w 3)] : List Instr),
    e0.runsLane i := runsLaneEach _ (by decide)

theorem witness_MovesAndPredicates : ∀ i ∈ ([.sel hdr .i32 0 true (.v 0) (.v 1) (.v 3), .iset hdr .i64 .lt 0 (.v 2) (.v 4), .pset hdr .xnor 6 0 7,
    .p2v hdr (.v 0), .v2p hdr (.v 3) (.c 31), .mov hdr .i64 (.v 0) (.v 2), .lea hdr (.v 0) (.v 1) (.v 3) (.c 31),
    .lea64 hdr .i32 (.v 0) (.w 2) (.v 3) (.c 3)] : List Instr), e0.runsLane i := runsLaneEach _ (by decide)

theorem witness_FloatArithmeticResults : (∀ i ∈ ([.fadd hdr .rn (.v 0) (.v 7) (.v 3), .fsub hdr .rz (.v 0) (.v 7) (.v 7), .fmul hdr .ru (.v 0) (.v 7) (.v 1),
    .ffma hdr .rd (.v 0) (.v 7) (.v 7) (.v 4), .fmin hdr (.v 0) (.v 7) (.v 4), .fmax hdr (.v 0) (.v 7) (.v 4), .famax hdr (.v 0) (.v 7) (.v 4),
    .fneg hdr (.v 0) (.v 7), .fabs hdr (.v 0) (.v 4)] : List Instr), e0.runsLane i) ∧
    (fp32.val 0x3F800000 = .fin false (2 ^ 23) (-23) ∧ fp16.val 0x3C00 = .fin false (2 ^ 10) (-10)) ∧
    fp32.val 0x7F800001 = .nan true ∧ fp8.val 0x7F = .nan false ∧ 0x7F < 2 * fp8.signBit :=
  ⟨runsLaneEach _ (by decide), by decide, by decide, by decide, by decide⟩

/-- Zeros of both signs, 1 and 2, infinity and NaN: the operands that each clause about values asks for. -/
theorem witness_FloatArithmeticResults_values : ∀ q ∈ [(fp32, 0x3F800000, 0x40000000), (fp16, 0x3C00, 0x4000), (bfl16, 0x3F80, 0x4000)],
    let f : Fmt := q.1
    f.val 0 = .fin false 0 f.qmin ∧ f.val f.signBit = .fin true 0 f.qmin ∧ f.val f.infBits = .inf false ∧ (f.val (f.infBits + 1)).isNan = true ∧ (f.val f.canon).isNan = true ∧
      (match f.val q.2.1, f.val q.2.2 with
       | .fin n m k, .fin n' m' k' => decide (k ≤ k' ∧ scaled n m k k < scaled n' m' k' k)
       | _, _ => false) = true ∧ f.val q.2.1 ≠ .inf false ∧ (f.val q.2.1).isNan = false := by decide

theorem witness_ConversionAndSpecialFunctionResults : (∀ i ∈ ([.fset hdr .uo 0 (.v 3) (.v 7), .fclass hdr .f32 (.v 0) (.v 4),
    .fscale hdr .rn (.v 0) (.v 7) (.v 3), .frnd hdr .rn (.v 0) (.v 7), .fsqrt hdr .rn (.v 0) (.v 7), .cvt hdr (.toInt .i64 .f32) false .rz (.v 0) (.v 7),
    .cvt hdr (.ofInt .n64 .f16) false .rn (.v 0) (.v 2), .cvtp hdr .f16x2 .rn (.v 0) (.v 7) (.v 3), .e4pk hdr true false (.v 0) (.v 7) (.v 7) (.v 1),
    .e4up hdr 3 (.v 0) (.v 3), .frcp hdr (.v 0) (.v 0), .frsq hdr (.v 0) (.v 0), .fex2 hdr (.v 0) (.v 0), .flg2 hdr (.v 0) (.v 0), .fsin hdr (.v 0) (.v 4),
    .fcos hdr (.v 0) (.v 0)] : List Instr), e0.runsLane i) ∧ ∃ (x : Word) (s : Bool), fp32.val (BitVec.toNat x) = .nan s :=
  ⟨runsLaneEach _ (by decide), 0x7F800001, true, by decide⟩

/-- A value that is below 1, one from 2^24 up, 4.0 with its root, a negative one, zeros, infinities; and in the narrow formats. -/
theorem witness_ConversionAndSpecialFunctionResults_values :
    fp32.val 0x3F000000 = .fin false (2 ^ 23) (-24) ∧ fp32.val 0x4B800000 = .fin false (2 ^ 23) 1 ∧ fp32.val 0xBF800000 = .fin true (2 ^ 23) (-23) ∧
    fp32.val 0x80000000 = .fin true 0 (-149) ∧ fp32.val 0xFF800000 = .inf true ∧ fp32.val 0x40800000 = .fin false (2 ^ 23) (-21) ∧
    (2 * (-11 : Int) ≤ -21 ∧ 2 ^ 12 * 2 ^ 12 = 2 ^ 23 * 2 ^ ((-21 : Int) - 2 * -11).toNat) ∧ fp8.val 0xFF = .nan false ∧ fp8.val 0x38 = .fin false 8 (-3) ∧
    fp32.val 0x43E80000 = .fin false 0xE80000 (-15) ∧ 464 * 2 ^ 15 = 0xE80000 := by decide

theorem witness_PackedResults : ∀ i ∈ ([.hadd2 hdr .rn (.v 0) (.v 7) (.v 3), .hmul2 hdr .rz (.v 0) (.v 7) (.v 3), .hfma2 hdr .rn (.v 0) (.v 7) (.v 3) (.v 1),
    .hmnx2 hdr true (.v 0) (.v 7) (.v 4), .badd2 hdr .rn (.v 0) (.v 7) (.v 3), .bmul2 hdr .ru (.v 0) (.v 7) (.v 3), .bfma2 hdr .rn (.v 0) (.v 7) (.v 3) (.v 1),
    .bmnx2 hdr false (.v 0) (.v 7) (.v 4), .fdot2 hdr .bf16x2 .rn (.v 0) (.v 7) (.v 7) (.v 1)] : List Instr), e0.runsLane i :=
  runsLaneEach _ (by decide)

/-- Five finite numbers, a NaN in the last place, and zero times infinity in each half. -/
theorem witness_PackedResults_values : ∀ f ∈ [fp16, bfl16],
    f.val (0x3C00 % 2 ^ 16) ≠ .inf false ∧ (match f.val (0x40003C00 % 2 ^ 16), f.val (0x40003C00 / 2 ^ 16), fp32.val 0x3F800000 with
      | .fin _ _ _, .fin _ _ _, .fin _ _ _ => true
      | _, _, _ => false) = true ∧ (fp32.val 0x7FC00000).isNan = true ∧
    (f.val (f.infBits % 2 ^ 16) = .inf false ∧ f.val (0 % 2 ^ 16) = .fin false 0 f.qmin) ∧ f.val (f.infBits * 2 ^ 16 / 2 ^ 16) = .inf false := by decide

/-- Every slot code in both slots, and the full forms. -/
theorem witness_PairResults :
    (∀ op < 31, Slot.wf ⟨op, 0, if op == 13 then 0 else 1, 0⟩ = true ∧
      ∀ i ∈ (let t : Slot := ⟨op, 0, if op == 13 then 0 else 1, 0⟩
        [Instr.pair 6 t t, slotForm hdr t (slotReg false t.d) (slotReg false t.s), slotForm hdr t (slotReg true t.d) (slotReg true t.s)]), e0.runsLane i) ∧
    Slot.wf ⟨12, 191, 191, 127⟩ = true ∧ Slot.wf ⟨11, 191, 191, 31⟩ = true ∧ slotReg true 2 < e0.t.v.length :=
  ⟨fun op h => ⟨(by decide : ∀ op < 31, Slot.wf ⟨op, 0, if op == 13 then 0 else 1, 0⟩ = true) op h,
    runsLaneEach _ ((by decide : ∀ op < 31, (let t : Slot := ⟨op, 0, if op == 13 then 0 else 1, 0⟩
        [Instr.pair 6 t t, slotForm hdr t (slotReg false t.d) (slotReg false t.s), slotForm hdr t (slotReg true t.d) (slotReg true t.s)]).all (fun i =>
      ready e0 i && !e0.cwbHolds) = true) op h)⟩, by decide⟩

theorem witness_LaneFrame : (Instr.iadd hdr .i32 (.v 1) (.v 2) (.v 3)).laneClass = true ∧
    ∃ s', exec (.iadd hdr .i32 (.v 1) (.v 2) (.v 3)) e0.s = .next s' := ⟨rfl, _, rfl⟩

/-! Witnesses: control, convergence, ordering. -/

/-- A branch target is word-aligned or not; call writes the last pair that fits. -/
theorem witness_TransferResults : (∀ i ∈ ([.nop hdr, .bra hdr 0xFFFFFFF, .brx hdr (.w 0) (.c 8), .brx hdr (.w 0) (.c 4), .ret hdr (.w 0), .ret hdr (.v 0),
    .call hdr 6 1] : List Instr), e1.runs i) ∧
    (e1.pair (.w 0) + (e1.src (.c 8)).signExtend 64).toNat % 8 = 0 ∧ (e1.pair (.w 0) + (e1.src (.c 4)).signExtend 64).toNat % 8 ≠ 0 ∧
    (e1.pair (.w 0)).toNat % 8 = 0 ∧ e1.src (.v 1) = 1 ∧ (e1.pair (.v 0)).toNat % 8 = 0 ∧ (e1.pair (.v 4)).toNat % 8 ≠ 0 ∧ 6 + 1 < e1.t.v.length :=
  ⟨runsEach _ (by decide), by decide⟩

/-- A convergence register that one arrival completes, and one that takes two. -/
theorem witness_ConvergenceResults :
    let e2 := env (thread [0, 1, 2, 3]) { wg ws 0 with c := List.replicate 16 { cnt := 2, gen := 31 } } st
    (∀ e ∈ [e1, e2], e.g.c.length = 16 ∧ e.t.conv.length = 16 ∧ (e.t.conv.getD 15 {}).p = false ∧ (e.g.c.getD 15 {}).gen < 32 ∧ 3 < e.t.v.length ∧
      (e.g.c.getD 15 {}).arr = 0 ∧ ∀ i ∈ ([.sign hdr 15, .join hdr 15, .joinr hdr 15 3 (.c 5), .cdecl hdr 15 .maxI (.v 1)] : List Instr), e.runs i) ∧
    decide ((e1.g.c.getD 15 {}).target e1.g ≤ 1) = true ∧ decide ((e2.g.c.getD 15 {}).target e2.g ≤ 1) = false := by
  refine ⟨?_, by decide, by decide⟩
  simp only [List.forall_mem_cons, List.not_mem_nil, false_implies, implies_true, and_true]
  refine ⟨⟨by decide, by decide, by decide, by decide, by decide, by decide, ?_⟩, by decide, by decide, by decide, by decide, by decide, by decide, ?_⟩ <;>
    exact ⟨runs (by decide), runs (by decide), runs (by decide), runs (by decide)⟩

/-- The second thread waits on the register with and without a destination and does not wait; a cdecl after an arrival whose
count is reached and one whose count is not. -/
theorem witness_ConvergenceResults_others :
    let has (cnt arr : Nat) (b : Run) : Env := beside (env (thread [0, 1, 2, 3]) { wg ws 0 with c := List.replicate 16 { cnt := cnt, arr := arr } } st)
      { thread [0, 1, 2, 3] with run := b }
    (∀ b ∈ [Run.blocked (.join 15 (some 3)), .blocked (.join 15 none), .runnable], ∀ q ∈ [(2, 1), (3, 1), (2, 0)], 
      ((has q.1 q.2 b).g.thread? 1).any (fun t => t.run == b && decide (3 < t.v.length)) = true ∧
      ∀ i ∈ ([.sign hdr 15, .join hdr 15, .joinr hdr 15 3 (.c 5), .cdecl hdr 15 .maxI (.v 1), .cdecl hdr 15 .maxI (.v 3)] : List Instr), (has q.1 q.2 b).runs i) ∧
    (let c := { ((has 2 1 .runnable).g.c.getD 15 {}) with cnt := min ((has 2 1 .runnable).src (.v 1)).toNat 2048 }
     0 < c.arr ∧ c.target (has 2 1 .runnable).g ≤ c.arr) ∧
    (let c := { ((has 2 1 .runnable).g.c.getD 15 {}) with cnt := min ((has 2 1 .runnable).src (.v 3)).toNat 2048 }
     0 < c.arr ∧ c.arr < c.target (has 2 1 .runnable).g) := by
  refine ⟨?_, by decide, by decide⟩
  simp only [List.forall_mem_cons (α := Run), List.forall_mem_cons (α := Nat × Nat), List.not_mem_nil (α := Run), List.not_mem_nil (α := Nat × Nat), false_implies, implies_true, and_true]
  exact ⟨⟨⟨by decide, runsBeside _ (by decide)⟩, ⟨by decide, runsBeside _ (by decide)⟩, by decide, runsBeside _ (by decide)⟩, ⟨⟨by decide, runsBeside _ (by decide)⟩, ⟨by decide, runsBeside _ (by decide)⟩, by decide, runsBeside _ (by decide)⟩, ⟨by decide, runsBeside _ (by decide)⟩, ⟨by decide, runsBeside _ (by decide)⟩, by decide, runsBeside _ (by decide)⟩

/-- A thread that does not wait on a barrier, one whose generation is still its SG, one whose generation has left it; every
kind of fence; a thread with a command not yet accepted, with a load, an atomic and a write under way and a hold in force. -/
theorem witness_BarrierAndFenceResults :
    let has (sg : Nat) : Env := env { thread [0, 1, 2, 3] with bars := List.replicate 16 { p := true, sg := sg }, cbars := List.replicate 8 { p := true, sg := sg } } (wg ws 0)
      { st with e := { st.e with cmds := [{ id := 2, core := 0, eng := 0, fn := 6, ctx := 0, slot := 0, tid := 0, uid := 1, pc := 0, a := 0, b := 0, dst := none,
                                            state := .issued, tok := 0, blk := [], ref := [], sent := 0 }] } }
    (∀ i ∈ ([.barSync hdr .wg 15 (.c 0), .barArrive hdr .sys 0 (.c 31), .barWait hdr .wg 15, .cbarSync hdr .cl 7 (.c 2), .cbarArrive hdr .sys 0 (.c 2),
      .cbarWait hdr .cl 7, .fence hdr .acq .wg, .fence hdr .rel .dev, .fence hdr .ar .cl, .fence hdr .sc .sys, .efence hdr] : List Instr), e1.runs i) ∧
    (∀ sg ∈ [0, 3], ∀ i ∈ ([.barWait hdr .wg 15, .cbarWait hdr .cl 7, .efence hdr] : List Instr), (has sg).runs i) ∧
    (e1.t.bars.getD 15 {}).p = false ∧ (e1.t.cbars.getD 7 {}).p = false ∧
    (∀ sg ∈ [0, 3], ((has sg).t.bars.getD 15 {}) = { p := true, sg := sg } ∧ ((has sg).t.cbars.getD 7 {}) = { p := true, sg := sg } ∧
      ((has sg).g.b.getD 15 {}).gen = 0 ∧ (((has sg).s.clbar 0 1 0).b.getD 7 {}).gen = 0) ∧
    (has 0).s.accepted 0 0 1 0 = false ∧ e1.s.accepted 0 0 1 0 = true := by
  refine ⟨runsEach _ (by decide), ?_, by decide, by decide, by decide, by decide, by decide⟩
  simp only [List.forall_mem_cons (α := Nat), List.not_mem_nil (α := Nat), false_implies, implies_true, and_true]
  exact ⟨runsEach _ (by decide), runsEach _ (by decide)⟩

/-- A thread at a load or at another access, with a load, an atomic and a store of its own on their way, under a hold in force
that names both classes; and one whose hold names the others only. -/
theorem witness_BarrierAndFenceResults_holds :
    let has (x : Bool) : Env := env { thread [0, 1, 2, 3] with holds := [{ loads := x, others := true, ids := [3, 5, 6], till := 0 }] } (wg ws 2048)
      { st with m := { st.m with reads := [load none false], atoms := [atomic .acas false], writes := [{ write .queued with ord := 0 }] } }
    (∀ x ∈ [true, false], ∀ i ∈ ([.ld hdr .wg .dflt false .word 2 (.w 0) (.c 0), .lda hdr .dev .dflt true .byte 2 (.w 0) (.c 0), .ldt hdr false .word 2 (.c 0) (.c 0),
        .st hdr .wg .dflt .word (.w 0) (.c 0) (.c 1), .strl hdr .sys .dflt .word (.w 0) (.c 0) (.c 1), .stt hdr .word (.c 0) (.c 0) (.c 0),
        .atom hdr .add .i32 .dev (.v 2) (.w 0) (.c 0) (.c 0), .red hdr .add .i32 .dev (.w 0) (.c 0) (.c 0), .lease hdr 2 (.w 0) (.c 0),
        .cpy hdr (some (.v 2)) (.c 0) (.c 0), .barArrive hdr .wg 2 (.c 0), .barSync hdr .wg 2 (.c 0), .vclr hdr 2] : List Instr),
      (has x).Issues ∧ (has x).path.tids = [(has x).t.tid] ∧ (has x).guard i.hdr = true ∧ ((has x).pred i.hdr.g).2 = false ∧ (has x).ready i) ∧
    (∀ x ∈ [true, false], (has x).s.anyOutstanding [3, 5, 6] = true ∧ (has x).t.arrivals = [] ∧ (has x).cwbHolds = false ∧ (load none false).who.same (has x).who = true ∧
      (∃ l ∈ (atomic .acas false).lanes, l.who.same (has x).who = true) ∧ ∃ w ∈ (has x).s.m.writes, w.of (has x).who = true ∧ w.kind = .st ∧ w.ord = 0) ∧
    ∀ q ∈ (has false).t.holds, q.loads = false := by
  refine ⟨?_, by decide, by decide⟩
  simp only [List.forall_mem_cons (α := Bool), List.not_mem_nil (α := Bool), false_implies, implies_true, and_true]
  exact ⟨atIssueEach _ (by decide), atIssueEach _ (by decide)⟩

/-- Sleeps of 0 and of more than the longest; an icinv finished and not; an address with a range and without. -/
theorem witness_SchedulingResults :
    let e2 := env { thread [0, 1] with icinvs := [5] } (wg ws 0) { st with m := { st.m with icinv := [{ id := 5, ctx := 0, line := 0, cores := [0] }] } }
    (∀ i ∈ ([.yield hdr, .sleep hdr (.c 0), .sleep hdr (.v 3), .brk hdr 11, .trap hdr (.v 3), .isync hdr, .icinv hdr .wg (.w 4) (.c 0),
      .icinv hdr .sys (.w 0) (.c 0), .exit hdr] : List Instr), e1.runs i) ∧ e2.runs (.isync hdr) ∧
    (e1.src (.c 0)).toNat = 0 ∧ 16777215 < (e1.src (.v 3)).toNat ∧ (∀ k ∈ e1.t.icinvs, ∀ q ∈ e1.s.m.icinv, q.id ≠ k) ∧
    (∃ k ∈ e2.t.icinvs, ∃ q ∈ e2.s.m.icinv, q.id = k) ∧ e1.ctx.match? (e1.ea (.w 4) (.c 0)) = none ∧ e1.ctx.match? (e1.ea (.w 0) (.c 0)) = some r0 :=
  ⟨runsEach _ (by decide), runs (by decide), by decide⟩

/-! Witnesses: memory. -/

/-- An address in no range, one without the right, a misaligned one, and the loads that go. -/
theorem witness_LoadIssueAndFaults :
    (∀ a ∈ [Reg.w 4, .w 2, .w 0], ∀ b ∈ [Src.c 0, .c 1], ∀ i ∈ ([.ld hdr .wg .dflt false .half 2 a b, .ld hdr .wg .dflt true .half 2 a b, .lda hdr .dev .byp false .half 2 a b,
      .lda hdr .dev .byp true .half 2 a b, .st hdr .wg .dflt .half a b (.v 1), .strl hdr .sys .dflt .half a b (.v 1)] : List Instr), e1.runs i) ∧
    e1.ctx.match? (e1.ea (.w 4) (.c 0)) = none ∧
    (∃ r, e1.ctx.match? (e1.ea (.w 2) (.c 0)) = some r ∧ r.allows .read = false ∧ r.allows .write = false) ∧
    (e1.ctx.match? (e1.ea (.w 0) (.c 1)) = some r0 ∧ r0.allows .read = true ∧ r0.allows .write = true ∧ (e1.ea (.w 0) (.c 1)).toNat % 2 ≠ 0) ∧
    e1.plain (e1.ea (.w 0) (.c 0)) Size.half.bytes .read r0 := by
  refine ⟨?_, by decide, ⟨{ r0 with base := 0x10000, limit := 0x20000, off := 0x10000, rd := false, w := false }, by decide⟩, by decide,
    plainAt (by decide) (by decide)⟩
  simp only [List.forall_mem_cons, List.not_mem_nil, false_implies, implies_true, and_true]
  exact ⟨⟨⟨runs (by decide), runs (by decide), runs (by decide), runs (by decide), runs (by decide), runs (by decide)⟩,
      runs (by decide), runs (by decide), runs (by decide), runs (by decide), runs (by decide), runs (by decide)⟩,
    ⟨⟨runs (by decide), runs (by decide), runs (by decide), runs (by decide), runs (by decide), runs (by decide)⟩,
      runs (by decide), runs (by decide), runs (by decide), runs (by decide), runs (by decide), runs (by decide)⟩,
    ⟨runs (by decide), runs (by decide), runs (by decide), runs (by decide), runs (by decide), runs (by decide)⟩,
    runs (by decide), runs (by decide), runs (by decide), runs (by decide), runs (by decide), runs (by decide)⟩

/-- A self-test of the sector's word in the core's cache: a load and a store that meet it. -/
theorem witness_LoadIssueAndFaults_tested :
    let e2 := env (thread [0, 1, 2, 3]) (wg ws 0) { st with m := { st.m with cache := [cent] }, y := { st.y with selfTests := [{ place := .cache 0 0x40, corrected := true }] } }
    (∀ i ∈ ([.ld hdr .wg .dflt false .word 2 (.w 0) (.c 0), .lda hdr .dev .byp true .half 2 (.w 0) (.c 0), .st hdr .wg .dflt .half (.w 0) (.c 0) (.v 1),
      .strl hdr .sys .dflt .half (.w 0) (.c 0) (.v 1)] : List Instr), e2.runs i) ∧ e2.plain (e2.ea (.w 0) (.c 0)) 4 .read r0 ∧ e2.plain (e2.ea (.w 0) (.c 0)) 2 .write r0 ∧
    e2.s.cacheTested 0 0 0x40 = true ∧ e1.s.cacheTested 0 0 0x40 = false :=
  ⟨runsEach _ (by decide), plainAt (by decide) (by decide), plainAt (by decide) (by decide), by decide, by decide⟩

/-- A resident sector and one that is not, for every scope of pref; a write of the thread to the line, and a range that cannot be read. -/
theorem witness_CacheControlResults :
    let e2 := env (thread [0, 1]) (wg ws 0) { st with m := { st.m with cache := [cent], writes := [write .queued] } }
    (∀ i ∈ ([.pref hdr .wg .dflt (.w 4) (.c 0), .pref hdr .sys .dflt (.w 2) (.c 0), .pref hdr .wg .dflt (.w 0) (.c 0), .pref hdr .die .strm (.w 0) (.c 31),
      .cwb hdr .wg (.w 4) (.c 0), .cwb hdr .dev (.w 2) (.c 0), .cinv hdr .sys (.w 4) (.c 0), .cinv hdr .wg (.w 2) (.c 0), .chint hdr .dflt (.w 4) (.c 0),
      .chint hdr .dflt (.w 2) (.c 0)] : List Instr), e1.runs i) ∧
    (∀ i ∈ ([.pref hdr .wg .stky (.w 0) (.c 0), .pref hdr .cl .strm (.w 0) (.c 31), .pref hdr .die .dflt (.w 0) (.c 0), .cwb hdr .cl (.w 0) (.c 0), .cwb hdr .dev (.w 0) (.c 0),
      .cwb hdr .sys (.w 0) (.c 31), .cinv hdr .dev (.w 0) (.c 0), .cinv hdr .wg (.w 0) (.c 0), .cinv hdr .cl (.w 0) (.c 0), .chint hdr .byp (.w 0) (.c 0),
      .chint hdr .stky (.w 0) (.c 0)] : List Instr), e2.runs i) ∧
    e1.ctx.match? (e1.ea (.w 4) (.c 0)) = none ∧ (∃ r, e1.ctx.match? (e1.ea (.w 2) (.c 0)) = some r ∧ r.rd = false) ∧
    (∀ b ∈ [Src.c 0, .c 31], e1.plain (e1.ea (.w 0) b) 1 .prefetch r0 ∧ e2.plain (e2.ea (.w 0) b) 1 .prefetch r0 ∧ e2.plain (e2.ea (.w 0) b) 1 .read r0) ∧
    e1.ctx.window? (secOf (r0.ia (e1.ea (.w 0) (.c 31)))) = none ∧ secOf (r0.ia (e1.ea (.w 0) (.c 31))) = 0x40 ∧
    (e1.s.resident? 0 0 0x40).isNone = true ∧ (e2.s.resident? 0 0 0x40).isSome = true ∧ (write .queued).of e2.who = true ∧ lineOf (write .queued).ia = lineOf 0x40 := by
  refine ⟨runsEach _ (by decide), runsEach _ (by decide), by decide,
    ⟨{ r0 with base := 0x10000, limit := 0x20000, off := 0x10000, rd := false, w := false }, by decide⟩, ?_, by decide⟩
  simp only [List.forall_mem_cons (α := Src), List.not_mem_nil (α := Src), false_implies, implies_true, and_true]
  exact ⟨⟨plainAt (by decide) (by decide), plainAt (by decide) (by decide), plainAt (by decide) (by decide)⟩,
    plainAt (by decide) (by decide), plainAt (by decide) (by decide), plainAt (by decide) (by decide)⟩

/-- A load and a prefetch whose sector has to be read, straight and through a view; a load of ordinary and one of poisoned data. -/
theorem witness_LoadCompletion :
    (∀ k ∈ [RKindReq.load .double false 2 false, .pref], ∀ v ∈ [false, true], let r := { load none false with kind := k, view := v }
     let s : State := { e1.s with m := { e1.s.m with reads := [r] } }
     s.read? r.id = some r ∧ (∃ x, r.secs[0]? = some x ∧ x.got = none ∧ x.retry = 0 ∧ (∀ j y, r.secs[j]? = some y → j ≠ 0 → y.got ≠ none) ∧
       s.m.rmwBefore r.who r.id r.ctx x.ia = false ∧ s.m.readBefore r.who r.id r.ctx x.ia = false ∧ s.loggedPage r.who.core r.ctx x.ia = false ∧
       (∀ q ∈ s.m.reads, r.bundled q = true → q = r) ∧ s.ownWrites r.who r.id r.ctx x.ia = [] ∧
       s.gate { ctx := r.ctx, master := r.ctx, ia := x.ia, home := x.home, die := dieOf r.who.core, atHome := false, acc := if r.kind = .pref then .prefetch else .read
                n := 32, who := some r.who, place := x.queued, id := r.id, keeps := true } = .go (fr 0x40))) ∧
    ∀ poi ∈ [false, true], let r := load (some (List.replicate 32 7, poi)) poi
      let s : State := { e1.s with m := { e1.s.m with reads := [r] } }
      s.read? r.id = some r ∧ r.secs.all (·.got.isSome) = true ∧ r.held = false ∧ s.canFill r = true ∧ s.wg? 0 0 = some e1.g ∧ e1.g.uid = r.who.uid ∧
        e1.g.thread? 0 = some e1.t ∧ e1.t.run = .runnable ∧ r.bytes.length = Size.double.bytes ∧ 2 + Size.double.group ≤ e1.t.v.length ∧
        (∃ k < Size.double.group, (((r.bytes.map fun b => (r.byteOf b).2).drop (4 * k)).take 4).any id = poi) := by
  have one : ∀ (x : RSec) (j : Nat) (y : RSec), [x][j]? = some y → j ≠ 0 → y.got ≠ none := by
    intro x j y h hj
    cases j with
    | zero => exact absurd rfl hj
    | succ j => simp at h
  refine ⟨?_, ?_⟩
  · simp only [List.forall_mem_cons (α := RKindReq), List.forall_mem_cons (α := Bool), List.not_mem_nil (α := RKindReq), List.not_mem_nil (α := Bool), false_implies, implies_true, and_true]
    exact ⟨⟨⟨by decide, _, rfl, rfl, rfl, one _, by decide⟩, by decide, _, rfl, rfl, rfl, one _, by decide⟩, ⟨by decide, _, rfl, rfl, rfl, one _, by decide⟩, by decide, _, rfl, rfl, rfl, one _,
      by decide⟩
  · simp only [List.forall_mem_cons, List.not_mem_nil, false_implies, implies_true, and_true]
    exact ⟨⟨by decide, rfl, rfl, by decide, rfl, rfl, rfl, rfl, rfl, by decide, by decide⟩, by decide, rfl, rfl, by decide, rfl, rfl, rfl, rfl, rfl,
      by decide, by decide⟩

/-- An empty write queue has room. -/
theorem room (e : Env) (h : e.s.m.writes = []) (l : List Nat) : e.mustQueue l = false := by
  simp [Env.mustQueue, State.queueFull, h]

/-- No other write of the cycle; the last double word and the last sector of the range. -/
theorem witness_StoreIssue : (∀ x ∈ e1.s.m.writes, x.cycle ≠ e1.s.now) ∧ e1.mustQueue [0x40] = false ∧
    (∀ i ∈ ([.st hdr .wg .dflt .double (.w 0) (.c 8) (.v 2), .strl hdr .dev .dflt .byte (.w 0) (.c 31) (.v 2), .pzap hdr .wg (.w 0) (.c 0),
      .red hdr .add .i64 .dev (.w 0) (.c 8) (.v 2), .redf hdr .add .dev (.w 0) (.c 4) (.v 2)] : List Instr), e1.runs i) ∧
    e1.plain (e1.ea (.w 0) (.c 8)) Size.double.bytes .write r0 ∧ e1.plain (e1.ea (.w 0) (.c 31)) Size.byte.bytes .write r0 ∧
    e1.plain (e1.ea (.w 0) (.c 0)) 1 .write r0 ∧ e1.plain (e1.ea (.w 0) (.c 8)) 8 .rmw r0 ∧ e1.plain (e1.ea (.w 0) (.c 4)) 4 .rmw r0 :=
  ⟨by decide, room e1 rfl _, runsEach _ (by decide), plainAt (by decide) (by decide), plainAt (by decide) (by decide), plainAt (by decide) (by decide),
    plainAt (by decide) (by decide), plainAt (by decide) (by decide)⟩

/-- The core's write queue is full. -/
theorem witness_StoreIssue_full : let e2 := env (thread [0, 1, 2, 3]) (wg ws 0) { st with m := { st.m with writes := List.replicate (Config.writeQueue + 1) (write .queued) } }
    (∀ x ∈ e2.s.m.writes, x.cycle ≠ e2.s.now) ∧ e2.mustQueue [0x40] = true ∧
    (∀ i ∈ ([.st hdr .wg .dflt .double (.w 0) (.c 8) (.v 2), .strl hdr .dev .dflt .byte (.w 0) (.c 31) (.v 2), .pzap hdr .wg (.w 0) (.c 0),
      .red hdr .add .i64 .dev (.w 0) (.c 8) (.v 2), .redf hdr .add .dev (.w 0) (.c 4) (.v 2)] : List Instr), e2.runs i) := by
  refine ⟨fun x h => by rw [List.eq_of_mem_replicate h]; decide, ?_, runsEach _ (by decide)⟩
  have h : ∀ e : Env, e.s.m.writes = List.replicate (Config.writeQueue + 1) (write .queued) → e.g.core = 0 → e.s.now = 1000 →
      e.s.leaseOf? e.who e.g.ctx (lineOf 0x40) = none → e.mustQueue [0x40] = true := by
    intro e h0 h1 h2 h3
    have : (write .queued).inQueue 0 = true := by decide
    have h4 : ((write .queued).cycle == 1000) = false := by decide
    simp [Env.mustQueue, State.queueFull, h0, h1, h3, Env.issues, h2, h4, this, List.filter_replicate]
  exact h _ rfl rfl rfl rfl

/-- A write that may arrive, with a tenure and another write before it; one that completes, in a sector that is poisoned. -/
theorem witness_WriteArrivalAndCompletion :
    (let w := write .queued
     let s : State := { e1.s with m := { e1.s.m with writes := [{ write (.arrived 1200 0) with id := 2 }, w], tenures := [{ die := 0, pa := 2, till := 1300 }] } }
     s.write? w.id = some w ∧ w.kind.plain = true ∧ w.state.canArrive = true ∧ s.mayGo w = true ∧ s.gate w.plainNeed = .go (fr 0x40)) ∧
    (let w := write (.arrived 1000 0)
     let s : State := { e1.s with m := { e1.s.m with writes := [w], poison := [2] } }
     s.m.canon ∧ s.write? w.id = some w ∧ s.completes w = true ∧ s.xlate w.home w.ctx w.ia = .ok (fr 0x40) ∧ ∀ q ∈ s.m.waits, q.key ≠ (fr 0x40).key) :=
  ⟨by decide, by unfold Mem.canon; decide⟩

/-- Offsets in v0-v3: the first, one misaligned, the first beyond, and granule 1; granules with a reference and given away. -/
theorem witness_TileStoreResults :
    let t := thread [0, 2047, 2048, 1024, 1, 5, 6, 7]
    let e2 := env t (wg ws 2048) st
    let e3 := env t { wg ws 2048 with gran := [{ ref := 1 }, { gv := true }] } st
    (∀ i ∈ ([.ldt hdr true .half 4 (.v 0) (.c 0), .ldt hdr true .half 4 (.v 1) (.c 0), .ldt hdr true .half 4 (.v 2) (.c 0), .stt hdr .half (.v 2) (.c 0) (.v 5),
      .stt hdr .half (.v 1) (.c 0) (.v 5), .ldt hdr false .quad 4 (.v 0) (.c 16), .stt hdr .quad (.v 0) (.c 16) (.v 4), .own hdr 4 (.v 2), .own hdr 4 (.v 1),
      .tgive hdr (.v 3) (.v 3), .tgive hdr (.v 2) (.v 4), .tgive hdr (.v 2) (.v 0), .ttake hdr (.v 3) (.v 4)] : List Instr), e2.runs i) ∧
    (∀ i ∈ ([.ldt hdr true .half 4 (.v 0) (.c 0), .stt hdr .half (.v 3) (.c 0) (.v 5), .own hdr 4 (.v 0), .ttake hdr (.v 0) (.v 4)] : List Instr), e3.runs i) ∧
    e2.g.tile.length = 2048 ∧ e2.tileOff (.v 1) (.c 0) = 2047 ∧ e2.tileOff (.v 2) (.c 0) = 2048 ∧ (e2.g.gran? 16).owned = false ∧ (e3.g.gran? 0).owned = true ∧
    (e3.g.gran? 1024).owned = true ∧ e2.g.tpoi = [] ∧ 4 + Size.quad.group ≤ e2.t.v.length ∧ e2.g.gran.length * 1024 ≤ 2048 + 1 - 1 ∧
    1024 + 1024 ≤ e2.g.gran.length * 1024 ∧ (e3.g.gran.getD 0 {}).ref ≠ 0 :=
  ⟨runsEach _ (by decide), runsEach _ (by decide), List.length_replicate, by decide⟩

/-- An empty and an installed slot, the last of them, and addresses inside and outside the ranges. -/
theorem witness_ViewInstructionResults :
    let e2 := env (thread [0, 0, 0, 0]) (wg ws 0) { st with ctxs := { ctx with vw := (List.replicate 64 none).set 63 (some 5) } :: List.replicate 63 Context.fresh }
    (∀ i ∈ ([.vset hdr 63 (some 2) (.v 0) (.c 0), .vclr hdr 63, .vqry hdr 63 2 (.c 31), .vqry hdr 0 2 (.c 0), .vfill hdr 63 (.c 1), .vfill hdr 0 (.c 1),
      .vaddrIa hdr (.v 2) (.w 0) (.c 0), .vaddrIa hdr (.w 6) (.w 4) (.c 0), .vaddrVa hdr (.v 2) (.w 0) (.c 0), .vaddrVa hdr (.v 2) (.w 4) (.c 0)] : List Instr), e2.runs i) ∧
    e2.g.ctx < e2.s.ctxs.length ∧ e2.plain (e2.ea (.v 0) (.c 0)) 128 .read r0 ∧ e2.ctx.vw.getD 0 none = none ∧ e2.ctx.vw.getD 63 none = some 5 ∧
    e2.ctx.match? (e2.ea (.w 0) (.c 0)) = some r0 ∧ e2.ctx.match? (e2.ea (.w 4) (.c 0)) = none ∧
    (let hit (x : Reg) (r : Range) : Bool := decide (r.off ≤ (e2.ea x (.c 0)).toNat % 2 ^ 52) && decide ((e2.ea x (.c 0)).toNat % 2 ^ 52 < r.off + (r.limit - r.base))
     (∀ r ∈ e2.ctx.rg.filterMap rangeOf, hit (.w 4) r = false) ∧ (e2.ctx.rg.filterMap rangeOf).find? (hit (.w 0)) = some r0) :=
  ⟨runsEach _ (by decide), by decide, plainAt (by decide) (by decide), rfl, rfl, by decide, by decide, by decide⟩

/-- The 128 bytes of a descriptor have been read: one of no kind, and a sound one whose shadow range meets another slot's. -/
theorem witness_ViewInstructionResults_read : ∀ b ∈ [16, 0],
    let r : RReq := { load none false with kind := .vset 0 (some 2), bytes := (List.range 128).map fun k => .mem (0x80 + k), secs := (List.range 4).map fun k =>
      { ia := 0x80 + 32 * k, home := 0, got := some (List.replicate 32 b, false), till := 0, queued := none, retry := 0 } }
    let s : State := { e1.s with m := { e1.s.m with reads := [r] } }
    s.read? r.id = some r ∧ r.kind = .vset 0 (some 2) ∧ r.far = none ∧ r.secs.all (·.got.isSome) = true ∧ r.held = false ∧ s.canFill r = true ∧ s.vsetBefore r = false ∧
      (∀ x ∈ r.bytes, (r.byteOf x).2 = false) ∧ r.ctx < s.ctxs.length ∧ s.lives r.who = true ∧ (b = 16 → 4 ≤ (viewOf (BitVec.ofNat 1024 (leNat (r.bytes.map fun x => (r.byteOf x).1)))).kind) ∧
      (b = 0 → (viewOf (BitVec.ofNat 1024 (leNat (r.bytes.map fun x => (r.byteOf x).1)))).rank = 0) := by decide +kernel

/-- A descriptor of one row of 128 elements of 4 bytes, and an aperture for it. -/
theorem witness_ViewInstructionResults_sound : let v := viewOf (BitVec.ofNat 1024 (2 * 2 ^ 64 + 2 ^ 69 + 128 * 2 ^ 128 + 2 ^ 320 + 0x200000 * 2 ^ 960))
    v.reservedBad = false ∧ v.shapeBad = false ∧ v.addressBad { ctx with vwbase := 0 } = false := by decide +kernel

/-- A self-test of the word that the first offset lies in. -/
theorem witness_TileStoreResults_tested :
    let e2 := env (thread [0, 1]) (wg ws 2048) { st with y := { st.y with selfTests := [{ place := .tile 0 0 0, corrected := true }] } }
    e2.runs (.ldt hdr true .half 4 (.v 0) (.c 2)) ∧ e2.runs (.stt hdr .half (.v 0) (.c 2) (.v 1)) ∧ e2.tileTested 2 2 = true ∧ e2.tileOff (.v 0) (.c 2) = 2 ∧ e2.g.tile.length = 2048 ∧
    e1.s.y.selfTests = [] ∧ e1.tileTested 0 16 = false :=
  ⟨runs (by decide), runs (by decide), by decide, by decide, List.length_replicate, rfl, rfl⟩

theorem witness_AtomicIssue : (∀ x ∈ e1.s.m.atoms, x.cycle ≠ e1.s.now) ∧
    (∀ i ∈ ([.atom hdr .add .i32 .dev (.v 2) (.w 0) (.c 4) (.c 1), .atom hdr .max .n64 .sys (.w 6) (.w 0) (.c 8) (.v 2), .acas hdr .i64 .dev (.v 2) (.w 0) (.c 8) 4,
      .acas hdr .n32 .cl (.v 2) (.w 0) (.c 4) 4, .atomf hdr .add .dev 7 (.w 0) (.c 4) (.v 1)] : List Instr), e1.runs i) ∧
    e1.plain (e1.ea (.w 0) (.c 4)) 4 .rmw r0 ∧ e1.plain (e1.ea (.w 0) (.c 8)) 8 .rmw r0 :=
  ⟨by decide, runsEach _ (by decide), plainAt (by decide) (by decide), plainAt (by decide) (by decide)⟩

/-- One lane's atomic of each kind, at its home and at the memory-side unit, and two lanes combined. -/
theorem witness_AtomicExecution : ∀ q ∈ [(AKind.atom .add, false), (.atom .min, true), (.acas, false), (.acas, true), (.atomf .add, false), (.atomf .max, true)],
    let a := { atomic q.1 q.2 with msa := q.2, lanes := [{ who := who, d := .v 2, x := 9, cmp := 7 }, { who := { who with tid := 1 }, d := .v 2, x := 8, cmp := 9 }] }
    let s : State := { e1.s with m := { e1.s.m with atoms := [a], cells := [(0x44, 7)] } }
    s.m.canon ∧ s.m.atoms.find? (·.id == a.id) = some a ∧ a.lanes ≠ [] ∧ a.held = false ∧ (∀ l ∈ a.lanes, l.who.core = 0 ∧ l.who.slot = 0 ∧ l.who.uid = e1.g.uid) ∧
      (a.lanes.map (·.who.tid)).Nodup ∧ a.ia % 4 = 0 ∧ (fr 0x44).pa % 32 = a.ia % 32 ∧ s.m.poisonedAt (fr 0x44) = false ∧
      (∀ q ∈ s.m.waits, q.key ≠ (fr 0x44).key) ∧ s.wg? 0 0 = some e1.g ∧
      (q.2 = false → a.msa = false ∧ a.retry = 0 ∧ s.atomMayGo a = true ∧ s.gate a.need = .go (fr 0x44) ∧ s.settled a.home a.ctx (secOf a.ia) (fr 0x44) = true) ∧
      (q.2 = true → s.xlate a.home a.ctx a.ia = .ok (fr 0x44) ∧ s.dramBusy (fr 0x44) = false) := by
  simp only [List.forall_mem_cons, List.not_mem_nil, false_implies, implies_true, and_true]
  refine ⟨?_, ?_, ?_, ?_, ?_, ?_⟩ <;>
    exact ⟨by unfold Mem.canon; decide, by decide, by decide, rfl, by decide, by decide, by decide, by decide, by decide, by decide, rfl, by decide, by decide⟩

/-- Reductions of one and of two lanes, at the home and at the memory-side unit. -/
theorem witness_AtomicExecution_reductions : ∀ q ∈ [(WKind.red .add .i32, WState.queued), (.red .max .n32, .forwarded), (.redf .min, .queued), (.redf .add, .queued), (.redf .add, .forwarded)],
    let w := { write q.2 with kind := q.1, ops := [9, 8].map fun x => (28, x) }
    let s : State := { e1.s with m := { e1.s.m with writes := [w] } }
    s.m.canon ∧ s.write? w.id = some w ∧ s.m.atoms.find? (·.id == w.id) = none ∧ (fr 0x40).pa % 32 = 0 ∧ s.m.poisonedAt (fr 0x40) = false ∧
      (∀ q ∈ s.m.waits, q.key ≠ (fr 0x40).key) ∧
      (q.2 = .queued → w.msa = false ∧ w.state.canArrive = true ∧ s.mayGo w = true ∧ s.gate (w.need .rmw true) = .go (fr 0x40) ∧
        s.settled w.home w.ctx w.ia (fr 0x40) = true) ∧
      (q.2 = .forwarded → s.xlate w.home w.ctx w.ia = .ok (fr 0x40) ∧ s.dramBusy (fr 0x40) = false) := by
  simp only [List.forall_mem_cons, List.not_mem_nil, false_implies, implies_true, and_true]
  refine ⟨?_, ?_, ?_, ?_, ?_⟩ <;>
    exact ⟨by unfold Mem.canon; decide, by decide, by decide, by decide, by decide, by decide, by decide, by decide⟩

/-- A wait on the word at 0x40. -/
def wait : WaitEnt :=
  { id := 4, who := who, ctx := 0, va := 0x40, ia := 0x40, key := 2, home := 0, cmp := .eq, ty := .i32, exp := 5, mask := 0xFFFFFFFF, sc := .dev, d := 2
    timeout := 100, since := 900 }

/-- A wait whose condition holds and does not, without and with a timeout, with a full table and room; the end of one. -/
theorem witness_WaitResults_waita :
    (∀ e ∈ [e1, env (thread [0, 1, 2, 3]) (wg ws 0) { st with m := { st.m with waits := List.replicate 256 wait } }],
      (∀ i ∈ ([.waita hdr .eq .i32 .dev 2 (.w 0) (.c 0) (.w 6), .waita hdr .eq .n32 .dev 2 (.w 0) (.c 1) (.w 6), .waita hdr .ne .i32 .dev 2 (.w 0) (.c 1) (.w 6),
        .waita hdr .lt .i32 .dev 2 (.w 0) (.c 1) (.w 6), .waita hdr .ge .n32 .dev 2 (.w 0) (.c 1) (.w 6)] : List Instr), e.runs i) ∧
      e.plain (e.pair (.w 0)) 4 .rmw r0 ∧ e.t.waitaEvicted = false ∧ e.s.y.allowed 0 0x40 4 true true = true ∧
      e.s.m.rmwBefore e.who e.s.nextId 0 0x40 = false ∧ e.s.m.readBefore e.who e.s.nextId 0 0x40 = false ∧ e.s.m.writeBefore e.who e.s.nextId 0 0x40 false = false ∧
      e.s.gate { ctx := 0, master := 0, ia := 0x40, home := 0, die := 0, atHome := true, acc := .read, n := 4, who := some e.who, place := e.place? 0x40 0
                 keeps := true } = .go (fr 0x40) ∧
      e.s.leaseOf? e.who 0 0 = none ∧ e.s.m.poisonedAt (fr 0x40) = false ∧ leNat (e.s.m.bytesAt (fr 0x40) 4) = 0 ∧ e.pair (.w 6) = 0xFFFFFFFF00000005) ∧
    e1.s.waitCount 0 0x40 < 256 ∧ 256 ≤ ({ st with m := { st.m with waits := List.replicate 256 wait } } : State).waitCount 0 0x40 ∧
    (let t := { e1.t with run := .blocked (.waita wait.id) }
     let g := { e1.g with threads := [t] }
     let s : State := { e1.s with wgs := [g], m := { e1.s.m with waits := [wait] } }
     s.m.waits.find? (·.id == wait.id) = some wait ∧ s.wg? 0 0 = some g ∧ g.uid = wait.who.uid ∧ g.thread? 0 = some t ∧ wait.timeout ≠ 0xFFFFFFFF ∧
       wait.since + wait.timeout ≤ s.now) := by
  refine ⟨?_, by decide, by decide +kernel, by decide, rfl, rfl, rfl, by decide, by decide⟩
  simp only [List.forall_mem_cons (α := Env), List.not_mem_nil (α := Env), false_implies, implies_true, and_true]
  exact ⟨⟨runsEach _ (by decide), plainAt (by decide) (by decide), by decide, by decide, by decide, by decide, by decide, by decide, by decide, by decide, by decide, by decide⟩,
    runsEach _ (by decide), plainAt (by decide) (by decide), by decide, by decide, by decide, by decide, by decide, by decide, by decide, by decide, by decide, by decide⟩

/-- A thread whose waita a halt has evicted. -/
theorem witness_WaitResults_evicted : let e2 := env { thread [0, 1, 2, 3] with waitaEvicted := true } (wg ws 0) st
    e2.runs (.waita hdr .eq .i32 .dev 2 (.w 0) (.c 0) (.w 6)) ∧ e2.plain (e2.pair (.w 0)) 4 .rmw r0 ∧ e2.t.waitaEvicted = true :=
  ⟨runs (by decide), plainAt (by decide) (by decide), rfl⟩

/-- Another thread of the workgroup that waits on the generation 0, on generation 1 and not at all, beside one that completes a generation. -/
theorem witness_WaitResults_others :
    let has (b : Run) : Env := beside (env (thread [0, 1, 2, 3]) { wg ws 16 with tile := [1, 0, 0, 0, 0, 0, 0, 0, 0, 0, 0, 0, 0, 0, 0, 0] } st) { thread [0, 1, 2, 3] with run := b }
    ∀ b ∈ [Run.blocked (.awwait 0 0 (some 3)), .blocked (.awwait 0 1 none), .runnable],
      (∀ i ∈ ([.awinit hdr (.v 0) (.c 2), .awadd hdr (some 2) (.v 0) (.c 1), .awwait hdr none (.v 0) (.c 1), .awwait hdr none (.v 0) (.c 0)] : List Instr), (has b).runs i) ∧
      ((has b).g.thread? 1).any (fun t => t.run == b && t.resident && decide (3 < t.v.length)) = true ∧ (has b).ctx.runs = true ∧ (has b).g.tile.length = 16 := by
  simp only [List.forall_mem_cons (α := Run), List.not_mem_nil (α := Run), false_implies, implies_true, and_true]
  exact ⟨⟨runsBeside _ (by decide), by decide, by decide, rfl⟩, ⟨runsBeside _ (by decide), by decide, by decide, rfl⟩, runsBeside _ (by decide), by decide, by decide, rfl⟩

/-- Arrival words at the first offset beyond, one misaligned and the last that fits; a generation that has moved, an
error flag, and neither. -/
theorem witness_WaitResults_awinit :
    let e2 := env (thread [0, 2047, 2048, 2032]) (wg ws 2048) st
    let e3 := env (thread [0, 0, 0, 0]) { wg ws 16 with tile := [2, 0, 0, 0, 1, 0, 0, 0, 0, 0, 0, 0, 2, 0, 0, 0] } st
    (∀ a ∈ [Src.v 1, .v 2, .v 3], ∀ i ∈ ([.awinit hdr a (.c 2), .awadd hdr (some 0) a (.v 2), .awwait hdr (some 0) a (.c 0)] : List Instr), e2.runs i) ∧
    (∀ i ∈ ([.awadd hdr none (.v 0) (.c 3), .awwait hdr none (.v 0) (.c 0), .awwait hdr none (.v 0) (.c 1)] : List Instr), e3.runs i) ∧
    e2.g.tile.length = 2048 ∧ (e2.src (.v 1)).toNat % 16 ≠ 0 ∧ (e2.src (.v 3)).toNat + 16 = 2048 ∧ e3.g.tile.length = 16 ∧
    leNat (slice e3.g.tile 8 4) = 0 ∧ (BitVec.ofNat 32 (leNat (slice e3.g.tile 12 4))).getLsbD 1 = true := by
  refine ⟨?_, runsEach _ (by decide), List.length_replicate, by decide⟩
  simp only [List.forall_mem_cons, List.not_mem_nil, false_implies, implies_true, and_true]
  exact ⟨⟨runs (by decide), runs (by decide), runs (by decide)⟩, ⟨runs (by decide), runs (by decide), runs (by decide)⟩,
    runs (by decide), runs (by decide), runs (by decide)⟩

def leaseAt (line : Nat) (q : LState) (t : Nat) : LeaseEnt :=
  { id := 6 + line, who := who, ctx := 0, va := 0x40, line := line, home := 0, d := 2, g := 256, state := q, expiry := t, poisoned := false
    lrel := some 3, queued := none, page := false, retry := 0 }

/-- A thread with no lease, with four lower lines, with a higher line, and with the line itself. -/
theorem witness_LeaseResults_lane :
    let has (l : List LeaseEnt) : Env := env (thread [0x80, 0, 2, 3]) (wg ws 0) { st with m := { st.m with leases := l } }
    (∀ l ∈ [[], [leaseAt 0 .held 1100, leaseAt 0 .held 1100, leaseAt 0 .held 1100, leaseAt 0 .sent 0], [leaseAt 256 .waiting 0], [leaseAt 0x80 .held 1100]],
      (∀ i ∈ ([.lease hdr 2 (.v 0) (.c 0), .lchk hdr 2 (.v 0), .lrel hdr 2 (.v 0)] : List Instr), (has l).runs i) ∧ (has l).plain ((has l).pair (.v 0)) 1 .rmw r0) ∧
    (has []).s.leaseOf? (has []).who 0 0x80 = none ∧
    (has [leaseAt 0x80 .held 1100]).s.leaseOf? (has [leaseAt 0x80 .held 1100]).who 0 0x80 = some (leaseAt 0x80 .held 1100) := by
  refine ⟨?_, by decide, by decide⟩
  simp only [List.forall_mem_cons (α := List LeaseEnt), List.not_mem_nil (α := List LeaseEnt), false_implies, implies_true, and_true]
  exact ⟨⟨runsEach _ (by decide), plainAt (by decide) (by decide)⟩, ⟨runsEach _ (by decide), plainAt (by decide) (by decide)⟩,
    ⟨runsEach _ (by decide), plainAt (by decide) (by decide)⟩, runsEach _ (by decide), plainAt (by decide) (by decide)⟩

/-- A lrel of a held line with a write of the thread on its own copy, and with none. -/
theorem witness_LeaseResults_lrel : ∀ l ∈ [[], [{ write (.leased 6) with kind := .st }]],
    let s : State := { st with m := { st.m with leases := [leaseAt 0 .held 1100], writes := l } }
    let e2 := env (thread [0x40, 0, 2, 3]) (wg ws 0) s
    e2.runs (.lrel hdr 2 (.v 0)) ∧ e2.plain (e2.pair (.v 0)) 1 .rmw r0 ∧ e2.s.leaseOf? e2.who 0 0 = some (leaseAt 0 .held 1100) ∧
      (∀ q ∈ e2.s.m.atoms, q.ctx = 0 → lineOf q.ia = 0 → ∀ k ∈ q.lanes, k.who.same e2.who = false) ∧
      ∀ w ∈ e2.s.m.writes, w.ctx = 0 → lineOf w.ia = 0 → w.of e2.who = true → w.state = .leased 6 ∧ w.ord ≠ 0 := by
  simp only [List.forall_mem_cons (α := List WEnt), List.not_mem_nil (α := List WEnt), false_implies, implies_true, and_true]
  exact ⟨⟨runs (by decide), plainAt (by decide) (by decide), by decide, by decide, by decide⟩, runs (by decide), plainAt (by decide) (by decide), by decide, by decide, by decide⟩

/-- A lease in each of its states; a held one that expires now; a line that is poisoned. -/
theorem witness_LeaseResults_steps : ∀ q ∈ [(LState.sent, false), (.waiting, false), (.waiting, true), (.held, false), (.draining, false)],
    let l := leaseAt 0 q.1 1000
    let s : State := { e1.s with m := { e1.s.m with leases := [l], poison := if q.2 then [3] else [] } }
    s.m.leases.find? (·.id == l.id) = some l ∧ s.xlate l.home l.ctx l.line = .ok (fr 0) ∧ s.y.selfTests = [] ∧ s.wg? 0 0 = some e1.g ∧ e1.g.uid = who.uid ∧
      e1.g.thread? 0 = some e1.t ∧ e1.t.run = .runnable ∧ dieOf who.core = l.home ∧ (s.ctx l.ctx).runs = true ∧ (s.y.dies.getD l.home {}).st = .running ∧
      (s.y.dies.getD l.home {}).lost = false ∧ s.y.allowed l.ctx l.line 128 true true = true ∧
      (q.1 = .sent → s.leaseBehind l = false ∧ s.leasedAt? l.need.die l.ctx l.line = none ∧ s.first l.need = true) ∧ l.retry = 0 ∧ s.leaseTable l.need.die l.line < 64 ∧
      s.dirOk l.need = true ∧ s.lineDram l.home l.id l.ctx l.line (fr 0) = false ∧ s.m.quietLine l.ctx l.line = true ∧ s.tenLine l.home l.home l.ctx l.line = true ∧
      (∀ k < 4, s.forwardedOn l.ctx (l.line + 32 * k) = false) ∧ (q.2 = false → ∀ k < 4, s.m.poisonedAt (fr (32 * k)) = false) ∧
      (q.2 = true → ∃ k < 4, s.m.poisonedAt (fr (32 * k)) = true) ∧ l.expiry ≤ s.now ∧ ∀ w ∈ s.m.writes, w.state ≠ .leased l.id := by
  simp only [List.forall_mem_cons, List.not_mem_nil, false_implies, implies_true, and_true]
  refine ⟨?_, ?_, ?_, ?_, ?_⟩ <;> exact ⟨by decide, by decide, rfl, rfl, rfl, rfl, rfl, by decide⟩

/-- A request for a line of host memory, and one that finds the table of its slice full of other lines. -/
theorem witness_LeaseResults_turned :
    (let l := leaseAt 0 .sent 0
     let s : State := { e1.s with m := { e1.s.m with leases := [l], xlat := [{ die := 0, ctrl := 0, ctx := 0, level := 0, ia := 0, pa := 0, hst := true }] } }
     s.m.leases.find? (·.id == l.id) = some l ∧ s.xlate l.home l.ctx l.line = .ok ⟨0, true⟩ ∧ (s.ctx l.ctx).runs = true ∧ s.y.allowed l.ctx l.line 128 true true = true) ∧
    (let l := leaseAt 0 .sent 0
     let s : State := { e1.s with m := { e1.s.m with leases := l :: List.replicate 64 (leaseAt 0x2080 .held 2000) } }
     s.m.leases.find? (·.id == l.id) = some l ∧ s.xlate l.home l.ctx l.line = .ok (fr 0) ∧ (s.ctx l.ctx).runs = true ∧ s.leaseBehind l = false ∧
       s.leasedAt? l.need.die l.ctx l.line = none ∧ s.first l.need = true ∧ 64 ≤ s.leaseTable l.need.die l.line) := by decide +kernel

/-! Witnesses: directory, host, system instructions. -/

def dirAt (st : DState) (sh : List Nat) (t : Option DTrans) : DirEnt :=
  { ctx := 0, line := 0, home := 0, st := st, l := false, hb := false, sh := sh, own := 2, used := 0, trans := t }

/-- A state with a directory entry, a read or a write of die 1 on its way. -/
def dieState (d : List DirEnt) (r : Bool) : State :=
  let w := { who with core := 64 }
  { st with m := { st.m with dir := d, reads := if r then [{ load none false with who := w }] else [], writes := if r then [] else [{ write .queued with who := w }] } }

/-- No entry and one in each state, I with HB too; a transition, a lease and both kinds of request. -/
theorem witness_DirectoryResults_home :
    (∀ d ∈ [[], [dirAt .s [2] none], [dirAt .e [] none], [dirAt .m [] none], [dirAt .o [3] none], [{ dirAt .i [] none with hb := true }], [{ dirAt .m [] none with l := true }],
        [dirAt .e [] (some { kind := .rds 3, tell := [2], told := [], acks := [], host := false })]], ∀ r ∈ [true, false], let s := dieState d r
      s.homeMay 0 0 0 = true ∧ s.snoop? 0 0 = none ∧ s.m.dirq = [] ∧ s.leasedAt? 0 0 0 = none ∧ s.placesOn 0 0 0 = [] ∧ s.dirSeat 0 0 1 = some s ∧ (∀ x, s.xlate 0 0 0 = .ok x → s.lineDram 0 0 0 0 x = false) ∧ s.queueLen 0 0 = 0 ∧ s.m.quietLine 0 0 = true ∧
      s.tenLine 0 0 0 0 = true ∧ (s.m.dir.filter (DirEnt.sameSet 0 0)).length < s.y.ways ∧
      (r = true → s.wantsRead 0 0 1 = some 0) ∧ (r = false → s.wantsWrite 0 0 1 = some (0, false)) ∧ s.dir? 0 0 = d.head?) ∧
    (∀ e ∈ [dirAt .e [] none, dirAt .m [] none, dirAt .o [3] none], e.trans = none ∧ e.l = false ∧ e.holds 1 = false ∧ e.copies.filter (· != 1) ≠ []) ∧
    (dirAt .s [2] none).copies.filter (· != 1) ≠ [] := by
  refine ⟨?_, by decide, by decide⟩
  have here : ∀ (s : State), (match s.xlate 0 0 0 with
      | .ok x => !s.lineDram 0 0 0 0 x
      | _ => true) = true → ∀ x, s.xlate 0 0 0 = .ok x → s.lineDram 0 0 0 0 x = false := by
    intro s h x hx
    simpa [hx] using h
  simp only [List.forall_mem_cons (α := List DirEnt), List.forall_mem_cons (α := Bool), List.not_mem_nil (α := List DirEnt), List.not_mem_nil (α := Bool), false_implies, implies_true, and_true]
  refine ⟨⟨?_, ?_⟩, ⟨?_, ?_⟩, ⟨?_, ?_⟩, ⟨?_, ?_⟩, ⟨?_, ?_⟩, ⟨?_, ?_⟩, ⟨?_, ?_⟩, ?_, ?_⟩ <;>
    exact ⟨by decide, by decide, by decide, by decide, by decide, by decide +kernel, here _ (by decide), by decide⟩

/-- The slice's queue is full of requests for another line. -/
theorem witness_DirectoryResults_full :
    let d := dieState [{ dirAt .m [] none with l := true }] true
    let a : AReq := { id := 6, ctx := 0, va := 0x2080, ia := 0x2080, home := 0, msa := false, kind := .atom .add, ty := .i32, sc := .dev, cycle := 900
                      lanes := [{ who := who, d := .v 2, x := 9, cmp := 7 }], fwd := false, queued := some 1, held := false, retry := 0 }
    let s : State := { d with m := { d.m with atoms := List.replicate 65 a, leases := [{ leaseAt 0x2080 .held 2000 with who := { who with tid := 1 } }] } }
    s.homeMay 0 0 0 = true ∧ s.snoop? 0 0 = none ∧ s.m.dirq = [] ∧ s.leasedAt? 0 0 0 = none ∧ s.placesOn 0 0 0 = [] ∧ 64 ≤ s.queueLen 0 0 ∧
    s.wantsRead 0 0 1 = some 0 ∧ s.dir? 0 0 = some { dirAt .m [] none with l := true } := by decide +kernel

/-- The owner, whose slice holds another home's line, may evict; transitions at each of their stages. -/
theorem witness_DirectoryResults_copies :
    let has (e : DirEnt) : State := { st with m := { st.m with dir := [e, { dirAt .m [] none with line := 0x2080, home := 1 }] } }
    let tr (k : DKind) (tell told acks : List Nat) : Option DTrans := some { kind := k, tell := tell, told := told, acks := acks, host := false }
    (∀ e ∈ [dirAt .m [] none, dirAt .e [] none, dirAt .o [3] none], (has e).dir? 0 0 = some e ∧ (has e).mayEvict e = true ∧ e.hb = false ∧ e.l = false ∧ e.trans = none ∧
      (has e).m.quietLine 0 0 = true) ∧
    (∀ t ∈ [tr (.rds 1) [2] [] [], tr (.rds 1) [] [2] [], tr (.rdx 1 true) [] [2] [], tr (.rds 1) [] [] [2], tr (.rdx 1 true) [] [] [2], tr .homeWrite [] [] [2]],
      ∀ q ∈ [DState.m, .e], let e := dirAt q [] t
      (has e).dir? 0 0 = some e ∧ (has e).m.quietLine 0 0 = true ∧ (has e).tenLine 0 2 0 0 = true ∧ (has e).tenLine 0 0 0 0 = true ∧ e.hb = false) ∧
    ({ has (dirAt .e [] none) with m := { (has (dirAt .e [] none)).m with tenures := [{ die := 2, pa := 3, till := 1001 }] } } : State).tenLine 0 2 0 0 = false := by decide

/-- The last byte of a 64-byte line, snoops of both kinds, a host line held for 50 us. -/
theorem witness_HostAccesses :
    let s : State := { st with
      now := 55000
      y := { st.y with access := [(64, 0, { base := 3, limit := 0x100000 })], dies := [{}, { st := .inReset }, {}, {}] }
      m := { st.m with hostLines := [{ die := 1, pa := 0x80, snoop := some (0, true), ia := 0x80 }], snoop := [⟨0, 0, true, 1, 0⟩, ⟨0, 128, true, 2, 0⟩] } }
    s.m.canon ∧ s.m.waits = [] ∧ (s.unitGate (hostNeed ((s.ctx 0).homeOf 0x100) 0 0x100 64 false)).1 = .go (fr 0x100) ∧
    (let q := s.freeSnoop 0 (lineOf 0x13F)
     (q.unitGate (hostNeed ((s.ctx 0).homeOf 0x13F) 0 0x13F 1 true)).1 = .go (fr 0x13F) ∧ (fr 0x13F).pa % 32 = 0x13F % 32 ∧
       q.settledAll ((s.ctx 0).homeOf 0x13F) 0 0x13F (0x13F % 32 + 1) = true ∧ 1 ≤ 64 - 0x13F % 64) ∧
    (∃ h, s.snoop? 0 0 = some h ∧ h.asked = 1) ∧ (∃ h, s.snoop? 0 128 = some h ∧ h.asked = 2) ∧ (∀ e, s.dir? 0 128 = some e → e.trans = none) ∧
    (s.y.dies.getD 0 {}).st = .running ∧ (∀ k < 4, s.m.tenEnd 0 (({ pa := 0x80 + 32 * k, hst := true } : Xl).key) ≤ s.now) ∧
    (s.y.dies.getD 1 {}).st ≠ .running ∧ ∃ l ∈ s.m.hostLines, l.die = 1 ∧ ∃ c b, l.snoop = some (c, b) ∧ c + 55000 ≤ s.now :=
  ⟨by unfold Mem.canon; decide, by decide, by decide, by decide, ⟨_, rfl, rfl⟩, ⟨_, rfl, rfl⟩, by decide, by decide, by decide, by decide, _, List.mem_singleton.2 rfl, rfl, 0, true, rfl,
    by decide⟩

/-- A host line of a die that is not running and late already. -/
theorem witness_HostAccesses_late :
    let s : State := { st with
      y := { st.y with dies := [{}, { st := .inReset, late := true }, {}, {}] }, m := { st.m with hostLines := [{ die := 1, pa := 0x80, snoop := none, ia := 0x80 }] } }
    s.m.canon ∧ s.m.waits = [] ∧ ∃ l ∈ s.m.hostLines, l.pa = 0xFF / 128 * 128 ∧ (s.y.dies.getD l.die {}).st ≠ .running ∧ (s.y.dies.getD l.die {}).late = true :=
  ⟨by unfold Mem.canon; decide, by decide, _, List.mem_singleton.2 rfl, by decide⟩

/-- A supervisor and a user, its own context, context 63 and the first that does not exist; a counter that is there and one that
is not; a time that has come and one that has not. -/
theorem witness_SystemRegisterReads :
    let e2 := env (thread [63, 64, 100, 0, 101, 0, 1, 7]) (wg ws 0) { st with
      ptp := 100 * 2 ^ 16, perf := [{ core := 0, ctx := 0, n := List.replicate 8 5 }]
      ctxs := { ctx with counters := [⟨0, 1, 3, 4, false, 0⟩], nextLid := 2 } :: List.replicate 63 Context.fresh }
    let e3 := env (thread [63, 64]) (wg ws 0) { st with ctxs := user :: List.replicate 63 Context.fresh }
    (∀ i ∈ ([.srd hdr .state true (.v 4) (.v 0), .srd hdr .ptroot true (.v 4) (.v 0), .srd hdr .state true (.v 4) (.v 1), .srd hdr .fpflags false (.w 7) (.c 0),
      .srd hdr .evq false (.v 4) (.c 0), .srd hdr .faultack false (.v 4) (.c 0), .perf hdr true (.v 4) (.v 7), .perf hdr false (.w 6) (.c 0), .time hdr 4, .waitt hdr (.v 2),
      .waitt hdr (.v 4), .cntr hdr false .done .launch (.v 4) (.c 1), .cntr hdr true .total .launch (.v 4) (.c 2), .cntr hdr false .flags .job (.v 4) (.c 9)] : List Instr),
      e2.runs i) ∧
    (∀ i ∈ ([.srd hdr .evq false (.v 0) (.c 0), .srd hdr .ctl true (.v 0) (.v 0), .srd hdr .ctl false (.v 0) (.c 0), .srd hdr .cancel false (.v 0) (.c 0)] : List Instr), e3.runs i) ∧
    e2.ctx.sup = true ∧ e3.ctx.sup = false ∧ (e2.src (.v 0)).toNat = 63 ∧ (e2.src (.v 1)).toNat = 64 ∧ (e2.pair (.v 2)).toNat = e2.s.ptpNs ∧
    e2.s.ptpNs < (e2.pair (.v 4)).toNat ∧ (e2.ctx.counter? Level.launch.code 1).isSome = true ∧ e2.ctx.counter? Level.launch.code 2 = none ∧
    e2.ctx.nextLid ≤ 2 ∧ e2.ctx.counter? Level.job.code 9 = none :=
  ⟨runsEach _ (by decide), runsEach _ (by decide), by decide⟩

theorem witness_SystemRegisterWrites :
    let e2 := env (thread [63, 64, 15, 16, 0, 0, 0, 0]) (wg ws 0) st
    let e3 := env (thread [63, 64, 15, 16, 0, 0, 0, 0]) (wg ws 0) { st with ctxs := user :: List.replicate 63 Context.fresh }
    let e4 := env (thread [63, 64, 15, 16, 0, 0, 0, 0]) (wg ws 0) { st with y := { st.y with xlinv := 2 ^ 63 } }
    (∀ i ∈ ([.swr hdr .cancel false (.c 0) (.v 0), .swr hdr .state true (.v 0) (.v 0), .swr hdr .evhead false (.c 0) (.v 0), .swr hdr .fpflags false (.c 0) (.c 31),
      .swr hdr .ctl true (.v 0) (.v 0), .swr hdr .ptroot true (.v 0) (.v 2), .swr hdr .vwbase false (.c 0) (.v 2), .swr hdr .slotbase false (.c 0) (.v 2),
      .swr hdr .stoparea false (.c 0) (.v 2), .swr hdr .ctximg false (.c 0) (.v 2), .swr hdr .ctxlen false (.c 0) (.v 2), .swr hdr .evq false (.c 0) (.v 2),
      .swr hdr .evtail false (.c 0) (.v 2), .swr hdr .evlost false (.c 0) (.v 2), .swr hdr .sfways false (.c 0) (.v 2), .swr hdr .frzctl false (.c 0) (.v 2),
      .swr hdr .xlinv false (.c 0) (.v 2), .swr hdr .faultack false (.c 0) (.v 2), .rgset hdr (.v 0) (.v 2) 0, .rgset hdr (.v 1) (.v 2) 0, .rgset hdr (.v 0) (.v 3) 0] : List Instr),
      e2.runs i) ∧
    (∀ i ∈ ([.swr hdr .ctl false (.c 0) (.v 0), .swr hdr .fpflags false (.c 0) (.c 31), .rgset hdr (.c 0) (.v 2) 0] : List Instr), e3.runs i) ∧
    e4.runs (.swr hdr .xlinv false (.c 0) (.v 2)) ∧ (∀ e ∈ [e2, e3, e4], e.s.m.missing = [] ∧ 63 < e.s.ctxs.length) ∧ e2.ctx.sup = true ∧ e3.ctx.sup = false ∧
    e4.s.y.xlinv.getLsbD 63 = true ∧ (e2.src (.v 0)).toNat = 63 ∧ (e2.src (.v 1)).toNat = 64 ∧ (e2.src (.v 2)).toNat = 15 ∧ (e2.src (.v 3)).toNat = 16 :=
  ⟨runsEach _ (by decide), runsEach _ (by decide), runs (by decide), by
    simp only [List.forall_mem_cons (α := Env), List.not_mem_nil (α := Env), false_implies, implies_true, and_true]
    exact ⟨⟨rfl, by decide⟩, ⟨rfl, by decide⟩, rfl, by decide⟩, by decide +kernel⟩

/-- A waita of another thread, which is blocked on it, in the context whose range is set. -/
theorem witness_SystemRegisterWrites_waits :
    let u := { thread [0, 1, 2, 3] with run := .blocked (.waita 4) }
    let e2 := beside (env (thread [0, 1, 2, 3, 4, 5, 6, 7]) (wg ws 0) { st with m := { st.m with waits := [{ wait with who := { who with tid := 1 } }] } }) u
    e2.runs (.rgset hdr (.c 0) (.c 15) 0) ∧ e2.ctx.sup = true ∧ (∃ q ∈ e2.s.m.waits, q.ctx = 0 ∧ e2.s.lives q.who = true ∧
      ∃ t, e2.s.thread? q.who.core q.who.slot q.who.tid = some t ∧ t.run = .blocked (.waita q.id)) :=
  ⟨runsBeside [.rgset hdr (.c 0) (.c 15) 0] (by decide) _ (List.mem_singleton.2 rfl), by decide, _, List.mem_singleton.2 rfl, rfl, by decide, _, rfl, rfl⟩

/-- A packet of three workgroups of graph 7, started in part or taken and not started; a launch whose workgroups are all placed. -/
theorem witness_LaunchAndCancel_cancel :
    let p : List Byte := leBytes 8 0x1000 ++ leBytes 4 3 ++ leBytes 4 1 ++ leBytes 4 1 ++ List.replicate 44 0 ++ leBytes 4 7 ++ List.replicate 60 0
    let has (n : Nat) (taken : Option (List Byte)) : Env := env (thread [0, 0, 2, 3]) { wg ws 0 with ids := (7, 0, 0) } { st with
      ctxs := { ctx with counters := [⟨1, 7, 1, 3, false, 0⟩] } :: List.replicate 63 Context.fresh
      y := { st.y with queues := { taken := taken } :: List.replicate 63 {}, launches := [{ ctx := 0, lid := 1, q := 0, cls := 1, pkt := p, nextFlat := n, total := 3, left := 2, started := 0, dropped := false }] } }
    let opens (e : Env) : List Launch := e.s.y.launches.filter fun l => l.ctx == e.g.ctx && decide (l.nextFlat < l.total) && ((0, l.lid) :: Packet.ids l.pkt).contains (1, 7)
    (∀ q ∈ [(3, none), (1, none), (3, some p)], ∀ i ∈ ([.cancel hdr false .graph (.c 7), .cancel hdr true .graph (.c 7)] : List Instr), (has q.1 q.2).runs i) ∧
    (∀ q ∈ [(3, none), (1, none), (3, some p)], (has q.1 q.2).ctx.counter? 1 7 = some ⟨1, 7, 1, 3, false, 0⟩ ∧ (has q.1 q.2).s.e.cmds = [] ∧ (1, 7) ∈ (has q.1 q.2).g.keys) ∧
    opens (has 3 none) = [] ∧ (opens (has 1 none)).length = 1 ∧ opens (has 3 (some p)) = [] ∧ Packet.ctx p = 0 ∧ (1, 7) ∈ Packet.ids p ∧ Packet.total p = 3 ∧
    ∀ (m : Nat) (y : Queue) (r : List Byte), (has 3 (some p)).s.y.queues[m]? = some y → y.taken = some r → m = 0 := by
  refine ⟨?_, by decide +kernel, by decide +kernel, by decide +kernel, by decide +kernel, by decide +kernel, by decide +kernel, by decide +kernel, ?_⟩
  · simp only [List.forall_mem_cons (α := Nat × Option (List Byte)), List.not_mem_nil (α := Nat × Option (List Byte)), false_implies, implies_true, and_true]
    exact ⟨runsEach _ (by decide), runsEach _ (by decide), runsEach _ (by decide)⟩
  · intro m y r h hy
    cases m with
    | zero => rfl
    | succ m =>
      have h : (List.replicate 63 ({} : Queue))[m]? = some y := h
      rw [List.eq_of_mem_replicate (List.mem_of_getElem? h)] at hy
      cases hy

/-- A counter that counts the workgroup and one that is not there; packets read for a disabled queue, a full one and one with room. -/
theorem witness_LaunchAndCancel :
    let e2 := env (thread [0, 0, 2, 3]) (wg ws 0) { st with ctxs := { ctx with counters := [⟨0, 1, 3, 4, false, 0⟩] } :: List.replicate 63 Context.fresh }
    (∀ i ∈ ([.cancel hdr false .launch (.c 1), .cancel hdr true .launch (.c 1), .cancel hdr true .job (.c 1), .launch hdr (some 2) (.v 0) (.c 31)] : List Instr), e2.runs i) ∧
    (e2.ctx.counter? Level.launch.code 1).isSome = true ∧ e2.ctx.counter? Level.job.code 1 = none ∧ (∀ q ∈ e2.s.y.queues, q.taken = none) ∧
    e2.g.ctx < e2.s.ctxs.length ∧ (Level.launch.code, 1) ∈ e2.g.keys ∧ e2.s.anyOutstanding (e2.releaseIds .dev) = false ∧ e2.t.lastW ≤ e2.s.now ∧
    e2.plain (e2.pair (.v 0)) 128 .read r0 ∧
    let r : RReq := { load (some (List.replicate 32 0, false)) false with kind := .launchPkt 63 (some 2), bytes := (List.range 128).map fun k => .mem (0x40 + k % 32) }
    let full : Queue := { base := 0x8000, ctl := 0x4009, head := 0xFFFFFFFF, tail := 0xFFFFFFFF + BitVec.ofNat 32 (2 ^ ({ ctl := 0x4009 } : Queue).size) }
    let room : Queue := { base := 0x8000, ctl := 0x4009, head := 0xFFFFFFFF, tail := 0xFFFFFFFF }
    let s (x : Queue) : State := { e2.s with m := { e2.s.m with reads := [r] }, y := { e2.s.y with queues := List.replicate 63 {} ++ [x] } }
    (∀ x ∈ [{}, full, room], (s x).read? r.id = some r ∧ r.secs.all (·.got.isSome) = true ∧ r.held = false ∧ (s x).canFill r = true ∧ (s x).launchBefore r = false ∧
      (∀ b ∈ r.bytes, (r.byteOf b).2 = false) ∧ (s x).wg? 0 0 = some e2.g ∧ e2.g.uid = r.who.uid ∧ (s x).y.queues[63]? = some x) ∧
    ({} : Queue).live = false ∧ full.live = true ∧ full.dev = true ∧ full.ctx = 0 ∧ 2 ^ full.size ≤ (full.tail - full.head).toNat ∧
    room.live = true ∧ room.dev = true ∧ room.ctx = 0 ∧ (room.tail - room.head).toNat < 2 ^ room.size ∧
    ∃ q, (s room).writeIa 0 (room.slot room.tail.toNat) (plainBytes (r.bytes.map fun b => (r.byteOf b).1)) = .ok q ∧
      decide (q.wgs = (s room).wgs ∧ q.y = (s room).y) = true := by
  refine ⟨runsEach _ (by decide), by decide +kernel, by decide +kernel, by decide +kernel, by decide +kernel, by decide +kernel, by decide +kernel, by decide +kernel, plainAt (by decide +kernel) (by decide +kernel), ?_, by decide +kernel, by decide +kernel, by decide +kernel,
    by decide +kernel, by decide +kernel, by decide +kernel, by decide +kernel, by decide +kernel, by decide +kernel, isDone (by decide +kernel)⟩
  simp only [List.forall_mem_cons (α := Queue), List.not_mem_nil (α := Queue), false_implies, implies_true, and_true]
  exact ⟨⟨by decide +kernel, rfl, rfl, by decide +kernel, by decide +kernel, by decide +kernel, rfl, rfl, by decide +kernel⟩, ⟨by decide +kernel, rfl, rfl, by decide +kernel, by decide +kernel, by decide +kernel, rfl, rfl, by decide +kernel⟩,
    by decide +kernel, rfl, rfl, by decide +kernel, by decide +kernel, by decide +kernel, rfl, rfl, by decide +kernel⟩

/-- Context 1 in each state; context numbers of the issuing context and beyond; an unprivileged thread. -/
theorem witness_ContextOperations :
    let tgt (q : CtxState) (h : Halt) : Env := env (thread [0, 1, 63, 64]) (wg ws 0) { st with ctxs := ctx :: { Context.fresh with state := q, halt := h } :: List.replicate 62 Context.fresh }
    let user := env (thread [0, 1, 63, 64]) (wg ws 0) { st with ctxs := user :: List.replicate 63 Context.fresh }
    let ops (a : Src) : List Instr := [.ctxswOut hdr (some 2) a, .ctxswIn hdr none a, .ctxswDrop hdr (some 2) a, .halt hdr 4095 none a, .resume hdr (some 2) a, .stopr hdr 2 a]
    (∀ q ∈ [CtxState.running, .halted, .out, .free, .halting, .preempting], ∀ i ∈ ops (.v 0) ++ ops (.v 1) ++ ops (.v 2) ++ ops (.v 3), (tgt q {}).runs i) ∧
    (∀ i ∈ ops (.v 1), user.runs i) ∧ user.ctx.sup = false ∧ (tgt .out {}).ctx.sup = true ∧ (tgt .out {}).s.ctxs.length = 64 ∧ ((tgt .out {}).src (.v 3)).toNat = 64 ∧
    (tgt .halted {}).runs (.resume hdr none (.v 1)) ∧ (tgt .out { pendingOut := true }).runs (.ctxswIn hdr none (.v 1)) ∧
    ((tgt .out { pendingOut := true }).s.ctx 1).halt.pendingOut = true ∧ ∀ g ∈ (tgt .out {}).s.wgs, g.ctx ≠ 1 := by
  refine ⟨?_, runsEach _ (by decide), by decide, by decide, by decide, by decide, runs (by decide), runs (by decide), by decide, by decide⟩
  simp only [List.forall_mem_cons (α := CtxState), List.not_mem_nil (α := CtxState), false_implies, implies_true, and_true]
  exact ⟨runsEach _ (by decide), runsEach _ (by decide), runsEach _ (by decide), runsEach _ (by decide), runsEach _ (by decide), runsEach _ (by decide)⟩

/-- A context that is to run again, with a trap-pending thread, a blocked and an exited one. -/
theorem witness_ContextOperations_resume : ∀ q ∈ [CtxState.halted, .out],
    let g := { wg [] 0 with core := 1, ctx := 1, threads := [{ thread [0, 1] with run := .trapPending, tcause := 6 }, { thread [0] with tid := 1, run := .exited }, { thread [0] with tid := 2, run := .blocked .isync }] }
    let e2 := env (thread [0, 1, 63, 64]) (wg ws 0) { st with ctxs := ctx :: { Context.fresh with state := q } :: List.replicate 62 Context.fresh }
    let e3 := { e2 with s := { e2.s with wgs := [e2.g, g] } }
    e3.Issues ∧ e3.s.wg? g.core g.slot = some g ∧ g.ctx = 1 ∧ (e3.s.ctx 1).state = q ∧ (e3.s.ctx 1).halt.pendingOut = false ∧
      ready e3 (.resume hdr (some 2) (.v 1)) = true ∧ ready e3 (.ctxswIn hdr (some 2) (.v 1)) = true ∧ ready e3 (.ctxswDrop hdr (some 2) (.v 1)) = true := by
  simp only [List.forall_mem_cons (α := CtxState), List.not_mem_nil (α := CtxState), false_implies, implies_true, and_true]
  exact ⟨⟨⟨rfl, rfl, rfl, List.mem_singleton.2 rfl, rfl, rfl, by simp [env]⟩, rfl, trivial, rfl, rfl, by decide, by decide, by decide⟩,
    ⟨rfl, rfl, rfl, List.mem_singleton.2 rfl, rfl, rfl, by simp [env]⟩, rfl, trivial, rfl, rfl, by decide, by decide, by decide⟩

/-- A hard cancel has stopped the workgroup. -/
theorem witness_LaunchAndCancel_hard : let g := { e1.g with hard := true }
    let s : State := { e1.s with wgs := [g] }
    s.wg? 0 0 = some g ∧ g.hard = true ∧ s.y.freeze = none ∧ g.threads.length = 1 :=
  ⟨rfl, rfl, rfl, rfl⟩

theorem imageDone {s : State} {ctx ia n : Nat} {p : List PByte → Bool} (h : (done? (s.readIa ctx ia n)).any p = true) :
    ∃ l, s.imageRead ctx ia n = .ok (s, l) ∧ p l = true := by
  obtain ⟨l, h1, h2⟩ := isDone h
  exact ⟨l, by simp [State.imageRead, h1], h2⟩

/-- Context 1 runs with one thread on core 1, whose image lies at 0x1000 and whose saved line at 0x1040. -/
def filling (f : Thread → Thread) (cells : List Host.Cell) (poi : List Nat) : State :=
  { st with
    ctxs := ctx :: ctx :: List.replicate 62 Context.fresh
    wgs := [{ wg [] 0 with core := 1, ctx := 1, regs := 15, threads := [f (thread [0, 1])], image := 0x1000, save := 0x2000, stride := 128 }]
    m := { st.m with cells := cells, poison := poi, xlat := { die := 0, ctrl := 0, ctx := 1, level := 0, ia := 0, pa := 0, hst := false } :: st.m.xlat }
    y := { st.y with access := (1, 0, { base := 3, limit := 0x100000 }) :: st.y.access } }

/-- A thread whose state line is out, never saved and saved: readable, exited and poisoned; one that misses lines that were
never saved, and one that misses a line of its image. A saved line of a trap-pending thread, cleared by a resume and not. -/
theorem witness_ContextOperations_fill :
    let out (saved : Bool) (t : Thread) : Thread := { t with resident := false, saved := saved, run := .trapPending, tcause := 6 }
    let miss (need : List Nat) (img : Bool) (t : Thread) : Thread := { t with run := .blocked (.miss need), out := need, v := t.v.map fun c => { c with img := img } }
    (∀ f ∈ [out false, out true, miss [1, 2] false, miss [0] true], let s := filling f [] []
      (s.wg? 1 0).any (fun g => g.thread? 0 == some (f (thread [0, 1])) && decide (g.threads.map (·.tid)).Nodup) = true ∧ (s.ctx 1).runs = true ∧
        (f (thread [0, 1])).run ≠ .exited ∧ s.cachedLines 1 + 2 ≤ 16384) ∧
    (∀ x ∈ [true, false], let t := { out true (thread [0, 1]) with cleared := x, run := if x then .runnable else .trapPending }
      t.resident = false ∧ t.saved = true ∧ t.patch = none ∧ t.cleared = x) ∧
    (∃ l, (filling (out true) [(0x1047, 2), (0x1060, 6)] []).imageRead 1 0x1040 64 = .ok (filling (out true) [(0x1047, 2), (0x1060, 6)] [], l) ∧
      (l.all (fun x => !x.2) && (pnum l).1 / 2 ^ 56 % 4 == 2) = true) ∧
    (∃ p, (filling (out true) [] []).imageRead 1 (0x2000 + 0x800 + 48 * 0) 48 = .ok (filling (out true) [] [], p) ∧ true = true) ∧
    (∃ l, (filling (out true) [] []).imageRead 1 0x1040 64 = .ok (filling (out true) [] [], l) ∧ (l.all (fun x => !x.2) && (pnum l).1 / 2 ^ 56 % 4 != 3) = true) ∧
    (∃ l, (filling (out true) [(0x1047, 3)] []).imageRead 1 0x1040 64 = .ok (filling (out true) [(0x1047, 3)] [], l) ∧
      (l.all (fun x => !x.2) && (pnum l).1 / 2 ^ 56 % 4 == 3) = true) ∧
    (∃ l, (filling (out true) [] [0x83]).imageRead 1 0x1040 64 = .ok (filling (out true) [] [0x83], l) ∧ l.any (·.2) = true) ∧
    (∃ l, (filling (miss [0] true) [] []).imageRead 1 0x1000 64 = .ok (filling (miss [0] true) [] [], l) ∧ true = true) ∧
    (∀ l ∈ [1, 2], (miss [1, 2] false (thread [0, 1])).inImage l = false) ∧ (miss [0] true (thread [0, 1])).inImage 0 = true ∧ imageLines 15 = 1 := by
  refine ⟨?_, by decide, imageDone (p := fun l => l.all (fun x => !x.2) && (pnum l).1 / 2 ^ 56 % 4 == 2) (by decide +kernel), imageDone (p := fun _ => true) (by decide +kernel), imageDone (p := fun l => l.all (fun x => !x.2) && (pnum l).1 / 2 ^ 56 % 4 != 3) (by decide +kernel),
    imageDone (p := fun l => l.all (fun x => !x.2) && (pnum l).1 / 2 ^ 56 % 4 == 3) (by decide +kernel), imageDone (p := fun l => l.any (·.2)) (by decide +kernel),
    imageDone (p := fun _ => true) (by decide +kernel), by decide, by decide, rfl⟩
  simp only [List.forall_mem_cons (α := Thread → Thread), List.not_mem_nil (α := Thread → Thread), false_implies, implies_true, and_true]
  exact ⟨by decide +kernel, by decide +kernel, by decide +kernel, by decide +kernel⟩

/-! Witnesses: issue, time, the scheduler, halts, the host's registers. -/

/-- The thread at a fetched word, latched, in a workgroup of 8 registers and 2 accumulator tiles. -/
def latched (w : Nat) (poi : Bool) : State :=
  { (env { thread [0, 1, 2, 3, 4, 5, 6, 7] with fbuf := [{ addr := 0x1000, word := w, poi := poi }] } (wg ws 0) st).s with latch := [path], cur := none }

/-- `iadd v7,v6,w2` (file 03). -/
theorem witness_StepRunsDecodedInstruction : let s := latched 0x0F0000E06C178000 false
    s.latch = path :: [] ∧ ∃ g w i, s.wg? 0 0 = some g ∧ g.pathWord path = some w ∧ w.poi = false ∧ decodeWord w.word = .ok i ∧ g.admits i = true :=
  ⟨rfl, _, _, _, rfl, rfl, rfl, rfl, by decide⟩

/-- An event that may happen, a word that the host writes, and one that may not, a cycle's selection made by an event of the agenda. -/
theorem witness_StepRunsDecodedInstruction_events :
    let has (i : Instr) : State := { st with agenda := [.act i], y := { st.y with booted := true } }
    (∀ i, (has i).latch = [] ∧ (has i).agenda = .act i :: []) ∧ ({ has .evlostClear with agenda := [] } : State).allows .evlostClear = true ∧
    ({ has (.exit hdr) with agenda := [] } : State).allows (.exit hdr) = false ∧
    ∃ t, exec .evlostClear (({ has .evlostClear with agenda := [] } : State).asking .evlostClear) = .next t :=
  ⟨fun _ => ⟨rfl, rfl⟩, by decide, by decide, _, rfl⟩

/-- A poisoned word, an opcode that no card has, and a register beyond the workgroup's. -/
theorem witness_IllegalWordTraps :
    (∀ q ∈ [(0x0F0000E06C178000, true), (0x1FF * 2 ^ 46, false), (0x0F0001006C178000, false)], let s := latched q.1 q.2
      s.latch = [path] ∧ ((s.wg? 0 0).bind fun g => g.pathWord path) = some ⟨0x1000, q.1, q.2⟩ ∧ (s.thread? 0 0 0).any (fun t => t.run == .runnable && t.pc == path.pc) = true) ∧
    (∃ r, decodeWord (0x1FF * 2 ^ 46) = .error r) ∧ ∃ i, decodeWord 0x0F0001006C178000 = .ok i ∧ (wg ws 0).admits i = false :=
  ⟨by decide, ⟨_, rfl⟩, _, rfl, by decide⟩

/-- A freeze and none; a running context and one that does not run; a quarter with one ready thread and one with none. -/
theorem witness_CyclesAndSelection :
    let s := latched 0x0F0000E06C178000 false
    let asleep : State := { s with wgs := s.wgs.map fun g => { g with threads := g.threads.map fun t => { t with run := .blocked (.sleep 0), sleep := 1 } } }
    ({ s.y with freeze := some ⟨0, 0⟩ } : Dev).freeze ≠ none ∧ s.y.freeze = none ∧ (∀ x ∈ s.y.dies, x.st = .running ∧ x.rst = false ∧ x.gate = false) ∧
    (s.thread? 0 0 0).any (fun t => t.resident && t.run == .runnable) = true ∧ (s.ctx 0).runs = true ∧
    ({ thread [0] with run := .blocked (.sleep 0), sleep := 1, resident := false } : Thread).resident = false ∧ (∀ t ∈ (asleep.wgs.head?.map (·.threads)).getD [], t.cwbBack = [] ∧ t.patch = none) ∧
    (({ s with ctxs := { ctx with state := .halted } :: List.replicate 63 Context.fresh } : State).ctx 0).runs = false ∧
    (asleep.thread? 0 0 0).any (fun t => t.run == .blocked (.sleep 0) && t.sleep != 0) = true ∧
    s.maySelect 0 0 = true ∧ (s.ready 0 0).length = 1 ∧ s.maySelect 0 1 = true ∧ (s.ready 0 1).length = 0 ∧ ({ s with selDone := [(0, 0)] } : State).maySelect 0 0 = false := by decide

/-- One thread in each of the situations that an event ends. -/
theorem witness_ThreadEvents :
    let has (f : Thread → Thread) : State := let t := f (thread [0, 1, 2, 3])
      { st with wgs := [{ wg ws 0 with threads := [t] }], ptp := 100 * 2 ^ 16, m := { st.m with icinv := [{ id := 9, ctx := 0, line := 0, cores := [0] }] } }
    let here (f : Thread → Thread) (p : Thread → Bool) : Prop := ((has f).thread? 0 0 0).any p = true ∧ ((has f).wg? 0 0).any (fun g => decide (g.threads.map (·.tid)).Nodup) = true
    here (fun t => { t with yieldLeft := 1 }) (·.yieldLeft == 1) ∧ here (fun t => { t with run := .blocked (.sleep 3), sleep := 0 }) (fun t => t.run == .blocked (.sleep 3) && t.sleep == 0) ∧
    here (fun t => { t with run := .blocked (.waitt 100) }) (·.run == .blocked (.waitt 100)) ∧ (has id).ptpNs = 100 ∧ 100 < 101 ∧
    here (fun t => t.setV 3 { val := 5, tag := 9, ready := 2000 }) (fun t => (t.v.getD 3 {}).tag == 9 && (t.v.getD 3 {}).ready != 0) ∧
    here (fun t => { t with wbusy := [{ w := 7, ready := 0, tag := 9, val := 5 }] }) (fun t => t.wbusy.filter (·.tag == 9) == [{ w := 7, ready := 0, tag := 9, val := 5 }]) ∧
    7 < (wg ws 0).w.length ∧ (∃ q ∈ (has id).m.icinv, ∀ x ∈ (has id).m.icinv, x.id = q.id → x = q) ∧ ((has id).ctx 0).runs = true ∧ ((has id).die 0).st = .running := by decide

/-- A result in a workgroup register that has not arrived yet. -/
theorem witness_ThreadEvents_result :
    let u : Ver Word := { issue := 990, tid := 0, val := 0, poi := false, here := false, id := 9, own := 0, lo := 0, hi := 0 }
    let b : WBusy := { w := 7, ready := 0, tag := 9, val := 5 }
    let t := { thread [0, 1] with wbusy := [b] }
    let g := { wg ws 0 with threads := [t], w := (wg ws 0).w.set 7 { base := 0, hist := [u] } }
    let s : State := { st with wgs := [g] }
    s.wg? 0 0 = some g ∧ g.thread? 0 = some t ∧ (g.threads.map (·.tid)).Nodup ∧ t.wbusy.filter (·.tag == 9) = [b] ∧ u ∈ (g.w.getD b.w { base := 0 }).hist ∧ u.id = 9 ∧ u.tid = t.tid ∧
      u.here = false := by decide

/-- The next word lies in no range, in one that cannot be executed, and in one that can: its first word or a later one. -/
theorem witness_ThreadEvents_fetch :
    let has (a : DWord) (buf : List FWord) (c : Context) : State := { st with
      wgs := [{ wg ws 0 with threads := [{ thread [0] with pc := a, fbuf := buf }] }], ctxs := c :: List.replicate 63 Context.fresh }
    let data : Context := { ctx with rg := [range 0 0x10000 0 7] }
    (∀ q ∈ [(has 0x20000 [] ctx, (0x20000 : DWord)), (has 0x2000 [] data, 0x2000), (has 0x2000 [⟨0x2000, 0, false⟩] data, 0x2008), (has 0x2000 [] ctx, 0x2000)],
      (q.1.thread? 0 0 0).any (fun t => t.run == .runnable && t.resident && t.wants == some q.2) = true) ∧
    ctx.match? 0x20000 = none ∧ (data.match? 0x2000).any (fun r => !r.x) = true ∧ ctx.match? 0x2000 = some r0 ∧ r0.x = true ∧
    (has 0x2000 [] ctx).m.iline? 0 0 (lineOf (r0.ia 0x2000)) = none ∧
    ctx.inAperture (r0.ia 0x2000) = false ∧ ctx.window? (r0.ia 0x2000) = none ∧ ((has 0x2000 [] ctx).ctx 0).runs = true ∧ ((has 0x2000 [] ctx).die 0).st = .running ∧
    done? ((has 0x2000 [] ctx).reach (unitNeed 0 0 (r0.home (r0.ia 0x2000)) (lineOf (r0.ia 0x2000)) 128 .fetch)) = some (some (fr 0x2000)) := by decide

/-- Arrivals at a barrier and a cluster barrier that complete it and do not, and one that waits. -/
theorem witness_ThreadEvents_arrival :
    let has (q : Arrival) : State := { st with wgs := [{ wg ws 0 with threads := [{ thread [0] with arrivals := [q] }] }], m := { st.m with writes := [write .queued] } }
    let q : Arrival := { cluster := false, b := 15, n := 1, ids := [], till := 1000, sync := false }
    [q, { q with n := 2 }, { q with cluster := true, b := 7 }, { q with cluster := true, b := 7, n := 2 }].all (fun q =>
      ((has q).thread? 0 0 0).any (fun t => t.arrivals == [q] && t.bars.length == 16 && t.cbars.length == 8 && !(t.bars.getD q.b {}).p && !(t.cbars.getD q.b {}).p) &&
      !(has q).anyOutstanding q.ids && decide (q.till ≤ (has q).now) && ((has q).clbar 0 1 0).b.length == 8 && min q.n.toNat 32768 != 0) = true ∧
    (wg ws 0).b.length = 16 ∧ (has q).anyOutstanding [3] = true ∧ (has q).now < 1001 :=
  ⟨by decide, by decide, by decide, by decide⟩

/-- An arrival that completes a barrier, of a thread that waits in its sync, with another thread in its wait; the same of a cluster barrier. -/
theorem witness_ThreadEvents_wake : ∀ c ∈ [false, true],
    let q : Arrival := { cluster := c, b := 7, n := 1, ids := [], till := 1000, sync := true }
    let t := { thread [0] with arrivals := [q], run := .blocked (if c then .cbar 7 false else .bar 7 false) }
    let u := { thread [0] with tid := 1, run := .blocked (.bar 7 true) }
    let g := { wg ws 0 with threads := [t, u] }
    let s : State := { st with wgs := [g] }
    s.wg? 0 0 = some g ∧ g.thread? 0 = some t ∧ g.thread? 1 = some u ∧ (g.threads.map (·.tid)).Nodup ∧ (s.ctx 0).runs = true ∧ g.b.length = 16 ∧ t.bars.length = 16 ∧
      s.anyOutstanding q.ids = false ∧ q.till ≤ s.now ∧ (t.bars.getD 7 {}).p = false ∧ (t.cbars.getD 7 {}).p = false ∧ t.cbars.length = 8 ∧ (s.clbar 0 1 0).b.length = 8 ∧
      (s.clbar 0 1 0).b.getD 7 {} = {} ∧ g.b.getD 7 {} = {} := by
  simp only [List.forall_mem_cons (α := Bool), List.not_mem_nil (α := Bool), false_implies, implies_true, and_true]
  exact ⟨⟨rfl, rfl, rfl, by decide, by decide, by decide, by decide, by decide, by decide, by decide, by decide, by decide, by decide, by decide, by decide⟩, rfl, rfl, rfl, by decide, by decide, by decide, by decide, by decide, by decide, by decide, by decide, by decide, by decide, by decide, by decide⟩

/-- A trap-pending thread alone and beside a runnable one; a free context. -/
theorem witness_HaltEvents :
    let t := { thread [0] with run := .trapPending, tcause := 6 }
    let has (l : List Thread) : State := { st with wgs := [{ wg ws 0 with threads := l }] }
    ((has [t]).wg? 0 0).isSome = true ∧ ((has [t]).ctx 0).state = .running ∧ (∀ u ∈ [t], u.run ≠ .runnable ∧ (u.run = .trapPending → t.tid ≤ u.tid)) ∧
    (∃ u ∈ [t, { thread [0] with tid := 1 }], u.run = .runnable) ∧ ((has [t, { thread [0] with tid := 1 }]).wg? 0 0).isSome = true ∧ 63 < (has [t]).ctxs.length ∧
    ((has [t]).ctx 63).state = .free := by decide

/-- An Out context with a saved trap-pending thread whose trap is a late one, and one whose trap is not; a saved thread beside one that has exited. -/
theorem witness_HaltEvents_saved :
    let has (x : Bool) : State := { st with
      ctxs := { ctx with state := .out } :: List.replicate 63 Context.fresh
      wgs := [{ wg ws 0 with threads := [{ thread [0] with run := .trapPending, tcause := 6, resident := false, saved := true, late := x }, { thread [0] with tid := 1, run := .exited }] }] }
    (∀ x ∈ [true, false], ((has x).ctx 0).state = .out ∧ ((has x).wg? 0 0).any (fun g => g.threads.all (fun u => u.run != .runnable) && g.threads.any (·.late) == x &&
      (g.thread? 0).any (fun t => t.run == .trapPending && t.saved) && (g.thread? 1).any (fun t => t.run == .exited)) = true) ∧
    (({ has true with ctxs := ctx :: List.replicate 63 Context.fresh } : State).ctx 0).state = .running := by decide

/-- A core that holds work of a stopping context, without a stop area; a context with nothing left to stop; a partition of 64 bytes
that goes out and comes back. -/
theorem witness_HaltEvents_stop :
    let g := { wg ws 64 with threads := [thread [0]], save := 0x2000, accum := 0, acc := [] }
    let has (q : CtxState) (l : List Workgroup) : State := { st with ctxs := { ctx with state := q, halt := { high := q != .running } } :: List.replicate 63 Context.fresh, wgs := l }
    let s := has .halting [g]
    (s.ctx 0).stopping = true ∧ s.unitBusy 0 0 = true ∧ s.unitQuiet 0 0 = true ∧ (s.ctx 0).stoparea.toNat % 2 ≠ 1 ∧
    (let s := has .preempting []
     (s.ctx 0).stopping = true ∧ unitIds.all (fun u => !s.unitBusy 0 u) = true ∧ (∀ l ∈ s.m.leases, l.ctx ≠ 0) ∧ (∀ w ∈ s.m.waits, w.ctx ≠ 0) ∧
       (∀ j < 256, s.coreQuiet j 0 = true) ∧ (match s.saveAll 0 with
        | .ok q => decide (0 < q.ctxs.length)
        | .error _ => false) = true) ∧
    (let s := has .out [g]
     ((s.wg? 0 0).any (fun g => g.resident && !s.finished g) = true ∧ (s.ctx 0).state = .out) ∧ (match s.imageWrite 0 (g.save + g.tileOffset) (plainBytes g.tile ++ accBytes g.acc) with
       | .ok q => decide (q.wgs = s.wgs)
       | .error _ => false) = true) ∧
    let s := has .running [{ g with resident := false }]
    (s.ctx 0).runs = true ∧ g.accum ≤ s.freeTiles 0 ∧ freeRun (s.partitions 0) (g.tile.length / 1024) = some 0 ∧
      ∃ l, s.readIa 0 (g.save + g.tileOffset) (g.tile.length + 16384 * g.acc.length) = .ok l ∧ decide (l.length = g.tile.length + 16384 * g.acc.length) = true :=
  ⟨by decide +kernel, by decide +kernel, by decide +kernel, by decide +kernel, ⟨by decide +kernel, by decide +kernel, by decide +kernel, by decide +kernel, by decide +kernel, by decide +kernel⟩, ⟨by decide +kernel, by decide +kernel⟩, by decide +kernel, by decide +kernel,
    by decide +kernel, isDone (by decide +kernel)⟩

/-- Page tables that map the first 64 KiB: tables of levels 3 to 0 at 0x10000, 0x2000, 0x4000 and 0x8000. -/
def tables : State := { st with
  ctxs := { ctx with ptroot := 0x10000 } :: List.replicate 63 Context.fresh
  m := { st.m with xlat := [], cells := [(0x2000, 1), (0x2001, 0x40), (0x4000, 1), (0x4001, 0x80), (0x8000, 3), (0x10000, 1), (0x10001, 0x20)] } }

def miss : Miss := { die := 0, ctrl := 0, ctx := 0, level := 0, ia := 0, acc := .write, recorded := true }

def missing : State := { tables with m := { tables.m with missing := [miss], writes := [write .queued] } }

/-- A unit that is mapped now and holds a write; ring registers off, wrapping and full. -/
theorem witness_FaultAndRingRegisters :
    missing.m.missing = [miss] ∧ ([(0 : DWord), 1].all fun x => x.toNat / 2 % 2 ^ 15 == 0 && unitBase miss.level (x.toNat / 2 ^ 16 % 2 ^ 36 * 2 ^ 16) == miss.ia) = true ∧
    missing.walk miss.ctx miss.ia = .leaf 0 0 false ∧ missing.heldOn miss = [0x40] ∧ missing.walk miss.ctx 0x40 = .leaf 0 0x40 false ∧ miss.ctx < missing.ctxs.length ∧
    missing.y.xlinv.getLsbD 63 = false ∧ (∀ m ∈ missing.m.missing, m.recorded = true) ∧ missing.m.canon ∧ missing.ptpNs < 2 ^ 64 ∧
    (∀ q ∈ [{ missing.y with evq := 0x8001, evhead := 1023, evtail := 1023 }, { missing.y with evq := 0x8001, evhead := 0, evtail := 0 }], q.evOn = true ∧ q.evFull = false) ∧
    missing.y.evOn = false ∧ ({ missing.y with evq := 0x8001, evhead := 1023, evtail := 0 } : Dev).evFull = true :=
  ⟨rfl, by decide +kernel, by decide +kernel, by decide +kernel, by decide +kernel, by decide, by decide, by decide, by unfold Mem.canon; decide, by decide, by decide, by decide,
    by decide⟩

/-- A page fault that finds the ring off and one that finds it full. -/
theorem witness_FaultAndRingRegisters_waits : tables.y.evOn = false ∧ tables.missing? 0 0 0x40 = none ∧
    (let s : State := { tables with y := { tables.y with evq := 0x8001, evhead := 1023, evtail := 0 } }
     s.y.evFull = true ∧ s.missing? 0 0 0x40 = none) := by decide

/-- The last slot of the ring; an invalidation of a page, of a large page, of a huge one, and of the context, with translations inside and beside. -/
theorem witness_FaultAndRingRegisters_ranges :
    paExists ((0x8001 : DWord).toNat / 2 ^ 15 % 2 ^ 37 * 2 ^ 15 + 32 * (1023 % 1024)) = true ∧ missing.m.waits = [] ∧
    (∀ q ∈ [((0xFFFFFFFF00000 : DWord), (0 : Nat), 2 ^ 16), (0x8000000000004, 1, 2 ^ 21), (0x8000000000008, 2, 2 ^ 31)],
      q.1.toNat % 16 = 4 * q.2.1 ∧ q.1.toNat / 2 ^ 14 % 4 = 0 ∧ q.1.toNat / 2 ^ 4 % 16 = 0 ∧ q.1.toNat / 2 ^ 52 % 2 ^ 11 = 0 ∧ q.1.toNat / 2 ^ 16 % 2 ^ 36 * 2 ^ 16 % q.2.2 = 0) ∧
    (0x3F0C : DWord).toNat % 16 / 4 = 3 ∧ (0x3F0C : DWord).toNat / 2 ^ 8 % 2 ^ 6 = 63 := by decide

theorem witness_FreezeEvents :
    let f : Freeze := ⟨15, 0⟩
    let s : State := { st with ptp := 48000000 * 2 ^ 16, wgs := [e1.g], y := { st.y with freeze := some f, throttle := [3, 15] } }
    st.y.freeze = none ∧ s.y.freeze = some f ∧ (100 + s.y.frzctl.toNat / 256 % 256 ≤ s.y.frzctl.toNat % 256) ∧ s.y.frzctl.toNat % 256 < 101 + s.y.frzctl.toNat / 256 % 256 ∧
    f.ptp + 48000000 * 2 ^ 16 ≤ s.ptp ∧ st.ptp < f.ptp + 48000000 * 2 ^ 16 ∧ s.hasWork 0 = true ∧ (s.ctx 0).state = .running ∧ s.hasWork 63 = false ∧ s.y.throttle = [3, 15] ∧ s.m.waits = [] := by decide

/-! Witnesses: the engines. -/

/-- Two tiles of tile store. At 0 stands an unfold descriptor of one element at 0x2000. Offsets in v0-v4. -/
def em : Env := env (thread [0, 8192, 16384, 1024, 64, 5, 6, 7])
  { wg ws 0 with
    tile := [0, 0x20, 0, 0, 1, 0, 1, 0, 1, 0, 1, 1, 1, 1, 1, 1] ++ List.replicate 16368 0, gran := List.replicate 16 {}
    k := List.replicate 16 { base := 1 } } st

theorem em_tile : em.g.tile.length = 16384 := by
  show (_ ++ List.replicate 16368 (0 : Byte)).length = 16384
  rw [List.length_append, List.length_replicate]; rfl

/-- Entries that the k guard lets through and one it does not; a tensor that ends with the partition, and offsets outside and misaligned. -/
theorem witness_MatrixEntryIssue :
    (∀ i ∈ ([.tmma hdr .bf16 0 .a 0 1 (.v 0) (.v 1) none, .tmma hdr .e4m3 3 .b 15 1 (.v 0) (.v 1) (some 15), .tmmau hdr .f16 0 .off 0 1 (.v 0) (.v 1) none,
      .tperm hdr .bf16 .off 0 0 (.v 1) (.v 4) none, .ttrn hdr .f16 .d 0 0 (.v 1) none, .trsum hdr .bf16 false .off 0 0 (.v 1) none, .trsum hdr .bf16 true .off 0 0 (.v 3) none,
      .ttrn hdr .bf16 .off 0 0 (.v 2) none, .tzero hdr .d 0 1 none, .tlda hdr .f32 .off 0 0 (.v 0) none, .tsta hdr .f32 0 .off 0 0 (.v 0) (.c 0) none] : List Instr), em.runs i) ∧
    em.g.tile.length = 16384 ∧ (em.kGuard .a 0 1 0 8192 = true ∧ em.kGuard .b 15 1 0 8192 = false ∧ em.kGuard .d 0 1 0 0 = false ∧ em.kGuard .d 0 0 0 0 = true) ∧
    (em.s.e.freeIdx em.g.core).isSome = true ∧ (∀ k < 16, (em.g.gran.getD k {}).ref < 255 ∧ (em.g.gran.getD k {}).owned = false) ∧
    (let u := unfoldOf (slice em.g.tile 0 32)
     u.ok .f16 = true ∧ u.off = 8192 ∧ u.bytes .f16 = 2) ∧
    (em.src (.v 2)).toNat + 8192 > 16384 ∧ (em.src (.v 3)).toNat % 8192 ≠ 0 ∧ (em.src (.v 3)).toNat + 8192 ≤ 16384 ∧ (em.src (.v 0)).toNat + 16384 ≤ 16384 :=
  ⟨runsEach _ (by decide), em_tile, by decide, by decide, by decide, by decide, by decide⟩

def ment (op : MOp) (group granted : Option Nat) : MEnt :=
  { core := 0, idx := 31, ord := 0, slot := 0, ctx := 0, tid := 0, uid := 1, issued := 0, pc := 0, cls := 1, raised := 0, issue := 0, eligible := some 0, op := op
    d := 1, after := none, group := group, ref := [], granted := granted, drun := none }

/-- The greatest group, empty and with an entry; a block that ends with the partition and one that does not fit. -/
theorem witness_MatrixControlResults :
    let e2 := env (thread [1792, 2044, 2048, 3, 4, 5, 6, 7]) (wg ws 2048) { st with e := { st.e with entries := [ment .zero (some 15) none, ment .zero none none] } }
    (∀ i ∈ ([.tcommit hdr 15, .twait hdr 0 (some 4), .twait hdr 15 (some 4), .ttest hdr 15 4, .tcancel hdr 15 (some 4), .tscl hdr false 3 (.v 0), .tscl hdr true 3 (.v 1), .tscl hdr true 3 (.v 2),
      .tpred hdr .rd 15 (some (.v 4)) none, .tpred hdr .set 15 none (some (.v 4)), .tpred hdr .or 15 none none, .tpred hdr .andn 0 none (some (.w 6)), .tcls hdr (some 4) (.v 3)] : List Instr),
      e2.runs i) ∧
    (let inGroup (n : Nat) : Nat := (e2.s.e.entries.filter fun m => (m.core == e2.g.core && m.slot == e2.g.slot) && m.group == some n).length
     inGroup 0 = 0 ∧ inGroup 15 ≠ 0) ∧
    e2.g.tile.length = 2048 ∧ (e2.src (.v 0)).toNat + 256 = 2048 ∧ (e2.src (.v 1)).toNat + 4 = 2048 ∧ (e2.src (.v 2)).toNat + 4 > 2048 ∧
    (∀ q ∈ e2.g.gran, q.owned = false) ∧ 3 < e2.g.sa.length ∧ 3 < e2.g.sb.length ∧ 15 < e2.g.k.length ∧ (∀ v ∈ e2.g.mcls.hist, v.issue ≠ e2.s.now) ∧
    (∀ v ∈ (e2.g.k.getD 15 { base := 0 }).hist, v.issue ≠ e2.s.now) :=
  ⟨runsEach _ (by decide), by decide, List.length_replicate, by decide⟩

/-- A grant before and at a step boundary, of the entry that goes first by class, age and index; aging; an entry of each kind that has
been granted 15 and 16 cycles ago. -/
theorem witness_MatrixProgress :
    let m := ment .zero none none
    let has (l : List MEnt) (now : Nat) : State := { e1.s with now := now, wgs := [{ e1.g with acc := [[], List.replicate 4096 {}] }], e := { e1.s.e with entries := l, step := List.replicate 256 16 } }
    (has [m] 15).now < (has [m] 15).e.step.getD 0 0 ∧ (has [m] 16).e.step.getD 0 0 ≤ (has [m] 16).now ∧ 0 < (has [m] 16).e.step.length ∧
    (∀ x ∈ [{ m with idx := 0, cls := 0, d := 0 }, { m with idx := 0, issue := 1, d := 0 }], (has [x, m] 16).grantable m = true ∧ m.isDmul = false ∧
      (∀ y ∈ [x, m], y ≠ m → m.eff > y.eff ∨ (m.eff = y.eff ∧ (m.issue < y.issue ∨ (m.issue = y.issue ∧ m.idx < y.idx))))) ∧
    (has [m] 16384).e.entries.filter (fun x => x.core == m.core && x.idx == m.idx) = [m] ∧ (m.granted = none ∧ m.cls + m.raised < 2 ∧ (∃ t, m.eligible = some t ∧ t + 16384 ≤ 16384)) ∧
    (∀ op ∈ [MOp.mma .bf16 0 0 [] {}, .mma .e4m3 0 0 [] { poi := true }, .mmau .f16 (slice em.g.tile 0 32) true 0 [] {}, .zero, .trn .f16 0, .perm .f16 0 [] [true], .rsum .bf16 0 false,
        .rsum .bf16 0 true, .lda .f32 0, .lda .bf16 0, .lda .f16 0, .sta .f32 0 64 64 {}, .sta .e4m3 0 64 1 { poi := true }, .sta .bf16 0 1 64 {}, .sta .f16 0 64 64 {}],
      let m := ment op none (some 0)
      (has [m] 16).e.entries.filter (fun x => x.core == m.core && x.idx == m.idx) = [m] ∧ m.isDmul = false ∧ ((has [m] 16).wg? 0 0).any (fun g => decide (m.d < g.acc.length)) = true ∧
        ((has [m] 16).ctx m.ctx).halt.high = false) ∧
    (unfoldOf (slice em.g.tile 0 32)).ok .f16 = true ∧ nsWf (wg ws 0).tpoi = true ∧ m.writesTile = false ∧ (15 < 0 + 16 ∧ 0 + 16 ≤ 16) ∧ 0 + 16384 ≤ em.g.tile.length := by
  refine ⟨by decide, by decide, by decide +kernel, by decide +kernel, by decide +kernel, ?_, by decide +kernel, by decide, by decide, by decide, by decide, Nat.le_of_eq em_tile.symm⟩
  exact ⟨rfl, by decide, 0, rfl, by decide⟩

/-- A layer slot at 0x2000, layer 0: K 128, N 64, M 1, weights at 0x4000, x_prev at 0x8000, y_prev at 0x9000, scales at 0xA000. -/
def slotBytes : List Byte :=
  [0, 0x40, 0, 0, 0, 0, 0, 0, 0, 0x80, 0, 0, 0, 0, 0, 0, 0, 0x90, 0, 0, 0, 0, 0, 0, 128, 0, 0, 0, 64, 0, 0, 0, 1, 0, 1, 0] ++ List.replicate 12 0 ++
  [0, 0xA0] ++ List.replicate 14 0

def dslotOf (valid : Bool) : DSlot :=
  { core := 0, ctx := 0, layer := 0, ia := 0x2000, raw := slotBytes, valid := valid, watch := none, versionSeen := 0, count := 0, skipped := 0, computed := 0
    calls := 0, fulls := 0, used := 0 }

/-- The slot in memory, with the given word of holder and flags; the cache of the core; layers 0, 4,095 and 4,096. -/
def ed (held : Bool) (slots : List DSlot) (ents : List MEnt) : Env :=
  env (thread [0, 4095, 4096, 2048]) { wg ws 2048 with tile := List.replicate 2048 0, gran := List.replicate 2 {} } { st with
    ctxs := { ctx with slotbase := 0x2000 } :: List.replicate 63 Context.fresh, e := { st.e with slots := slots, entries := ents, nextOrd := 1 }
    m := { st.m with cells := cellsSet 0x2000 (slotBytes.take 56 ++ [0, if held then 4 else 0, 0, if held then 0x80 else 0]) [] } }

/-- A slot that the core holds, one that another core holds, one free, and a call pending on the layer. -/
theorem witness_DeltaInstructionResults :
    (∀ i ∈ ([.dslot hdr (some 2) (.v 2), .dmul hdr 0 (.v 2) (.c 0) none, .dslot hdr (some 2) (.v 0), .dmul hdr 1 (.v 0) (.c 0) none, .dmul hdr 2 (.v 0) (.c 0) none, .dfresh hdr (.v 0),
      .dinval hdr none (.v 0), .dstat hdr 2 (.v 0) (.c 31)] : List Instr), (ed true [dslotOf true] []).runs i) ∧
    (∀ i ∈ ([.dslot hdr none (.v 0), .dinval hdr (some 2) (.v 1), .dfresh hdr (.v 1), .dstat hdr 2 (.v 1) (.c 0)] : List Instr), (ed true [] []).runs i) ∧ (ed false [] []).runs (.dslot hdr (some 2) (.v 0)) ∧
    (∀ i ∈ ([.dfresh hdr (.v 0), .dinval hdr (some 2) (.v 0), .dstat hdr 2 (.v 0) (.c 0)] : List Instr), (ed true [dslotOf true] [ment (.dmul 0 0) none none]).runs i) ∧
    ((ed true [] []).src (.v 2)).toNat = 4096 ∧ ((ed true [] []).src (.v 1)).toNat ≤ 4095 ∧
    ((ed true [dslotOf true] []).s.slot? 0 0 0 = some (dslotOf true) ∧ (ed true [] []).s.slot? 0 0 0 = none ∧ (ed true [dslotOf true] []).s.e.entries = [] ∧
      (∃ m ∈ (ed true [dslotOf true] [ment (.dmul 0 0) none none]).s.e.entries, m.core = 0 ∧ m.ctx = 0 ∧ m.ord < (ed true [] []).t.dwait.getD (ed true [] []).s.e.nextOrd ∧ ∃ x, m.op = .dmul 0 x) ∧
      ({ dslotOf true with saved := true }.saved = true ∧ (([{ dslotOf true with saved := true }] : List DSlot).filter fun q => q.core == 0 && !q.saved).length < 16)) ∧
    (1 + (dslotOf true).n / 64 ≤ (ed true [] []).g.accum ∧ (ed true [] []).g.accum < 2 + (dslotOf true).n / 64 ∧ 0 + 2 * (dslotOf true).k * (dslotOf true).m ≤ 2048) :=
  ⟨runsEach _ (by decide), runsEach _ (by decide), runs (by decide), runsEach _ (by decide), by decide, by decide,
    ⟨by decide +kernel, by decide +kernel, by decide +kernel, ⟨_, List.mem_singleton.2 rfl, rfl, rfl, by decide, 0, rfl⟩, by decide⟩, by decide +kernel⟩

/-- The words of the slot as dslot reads them, and the writes that taking and evicting it come to. -/
theorem witness_DeltaInstructionResults_held :
    ∃ l, (ed true [] []).s.readSlot 0 0x2000 = .ok l ∧ (l.all (fun x => !x.2) && numAt (l.map (·.1)) 56 4 / 2 ^ 31 == 1 && fld (numAt (l.map (·.1)) 56 4) 10 8 != 0) = true :=
  isDone (by decide +kernel)

theorem witness_DeltaInstructionResults_unheld :
    ∃ l, (ed false [] []).s.readSlot 0 0x2000 = .ok l ∧ (l.all (fun x => !x.2) && numAt (l.map (·.1)) 56 4 / 2 ^ 31 == 0 && l.map (·.1) == slotBytes) = true :=
  isDone (by decide +kernel)

theorem witness_DeltaInstructionResults_good (q : DSlot) (h : q.raw = slotBytes) : q.bad (ed false [] []).ctx = false := by
  have : q.bad (ed false [] []).ctx = (dslotOf true).bad (ed false [] []).ctx := by
    obtain ⟨⟩ := q
    cases h
    rfl
  rw [this]; decide +kernel

theorem witness_DeltaInstructionResults_taken :
    ∃ s1, (ed false [] []).s.fresh.writeIa 0 (0x2000 + 56) (pbytes 4 (2 ^ 31) false) = .ok s1 ∧
      decide (s1.wgs = (ed false [] []).s.wgs ∧ s1.e.slots = (ed false [] []).s.e.slots ∧ s1.m.freeWatch.isSome = true) = true :=
  isDone (by decide +kernel)

theorem witness_DeltaInstructionResults_evicted :
    ∃ s1, (ed true [dslotOf true] []).s.evictSlot { dslotOf true with valid := false } = .ok s1 ∧ decide (s1.wgs = (ed true [dslotOf true] []).s.wgs) = true :=
  isDone (by decide +kernel)

def allWatches : List Watch := (List.range 1024).map fun n => { n := n, ctx := 0, w0 := 0, w1 := 0, s0 := 0, s1 := 0, cnt := [] }

theorem allWatches_freeWatch {m : Mem} (h : m.watches = allWatches) : m.freeWatch = none := by
  simp only [Mem.freeWatch, h, allWatches, List.find?_eq_none, List.any_map, Bool.not_eq_true', Bool.not_eq_false, List.any_eq_true]
  intro n hn
  exact ⟨n, hn, by simp⟩

/-- Every watch number is taken, and still the slot is. -/
theorem witness_DeltaInstructionResults_watches :
    let e := ed false [] []
    let s : State := { e.s with m := { e.s.m with watches := allWatches } }
    ∃ s1, s.fresh.writeIa 0 (0x2000 + 56) (pbytes 4 (2 ^ 31) false) = .ok s1 ∧ s1.wgs = s.wgs ∧ s1.e.slots = s.e.slots ∧ s1.m.freeWatch = none := by
  intro e s
  obtain ⟨s1, h, p⟩ := isDone (r := s.fresh.writeIa 0 (0x2000 + 56) (pbytes 4 (2 ^ 31) false))
    (p := fun s1 => decide (s1.wgs = s.wgs ∧ s1.e.slots = s.e.slots ∧ s1.m.watches = allWatches)) (by decide +kernel)
  obtain ⟨a, b, c⟩ := of_decide_eq_true p
  exact ⟨s1, h, a, b, allWatches_freeWatch c⟩

/-- A call whose step is done 15 and 16 cycles ago, one that writes its first unit, and one that has written both. -/
theorem witness_DeltaWriteBack :
    let run (writing : Bool) (units : Nat) : DRun := { full := true, version := 0, steps := 0, computed := 1, skipped := 0, writing := writing, units := units }
    let m (r : DRun) : MEnt := { ment (.dmul 0 0) none (some 984) with drun := some r }
    let has (r : DRun) : Env := ed true [dslotOf true] [m r]
    let g : Workgroup := { (ed true [] []).g with acc := [[], List.replicate 4096 {}] }
    (∀ r ∈ [run false 0, run true 0, run true 2], (has r).s.e.entries.filter (fun y => y.core == 0 && y.idx == 31) = [m r] ∧ r.steps = 0 ∧ (has r).s.slot? 0 0 0 = some (dslotOf true) ∧ (dslotOf true).layer = 0 ∧
      ((has r).s.ctx 0).runs = true ∧ ((has r).s.ctx 0).halt.high = false ∧ ((has r).s.wg? 0 0).any (·.resident) = true) ∧
    (run false 0).computed ≠ 0 ∧ 999 < 984 + 16 ∧ 984 + 16 ≤ (has (run false 0)).s.now ∧
    (∃ ts, (has (run false 0)).s.callTiles (dslotOf true) g (run false 0) 0 = .ok ts ∧ decide ((m (run false 0)).d + ts.length ≤ g.acc.length) = true) ∧
    (run true 0).units < (dslotOf true).m ∧
    (∃ s1, (has (run true 0)).s.writeIa 0 ((dslotOf true).yprev + 4 * (dslotOf true).n * (run true 0).units) ((List.range (dslotOf true).n).flatMap fun n =>
      let v := (g.acc.getD ((m (run true 0)).d + n / 64) []).getD (64 * (run true 0).units + n % 64) {}
      pbytes 4 v.val.toNat v.poi) = .ok s1 ∧ decide (s1.e.entries = (has (run true 0)).s.e.entries) = true) ∧
    (dslotOf true).m + (dslotOf true).m * ((dslotOf true).k / 128) ≤ (run true 2).units :=
  ⟨by decide +kernel, by decide, by decide, by decide, isDone (by decide +kernel), by decide, isDone (by decide +kernel), by decide⟩

/-- A full call's unit of x_prev; grants of a call that is full and of one that skips its one block; a watched slot, and a vector above the threshold. -/
theorem witness_DeltaWriteBack_grant :
    let run : DRun := { full := true, version := 0, steps := 0, computed := 1, skipped := 0, writing := true, units := 1 }
    let m : MEnt := ment (.dmul 0 0) none none
    let has (q : DSlot) (m : MEnt) : State :=
      let s := (ed true [q] [m]).s
      { s with e := { s.e with step := List.replicate 256 1000 }, m := { s.m with watches := [{ n := 3, ctx := 0, w0 := 0, w1 := 0, s0 := 0, s1 := 0, cnt := [0, 7, 0, 0] }] } }
    let g := (ed true [] []).g
    let q := dslotOf true
    let quiet : DSlot := { q with watch := some 3, versionSeen := 7 }
    (q.m ≤ run.units ∧ run.units < q.m + q.m * (q.k / 128) ∧ ∃ old, (has q m).readIa 0 q.xprev 512 = .ok old ∧ (done? ((has q m).writeIa 0 q.xprev
      ((List.range 128).flatMap fun k => pbytes 4 ((g.tileNum (2 * k) 2).1 * 2 ^ 16) (g.tileNum (2 * k) 2).2))).any (fun s1 => s1.e.entries == (has q m).e.entries) = true) ∧
    (∀ x ∈ [(q, m), (quiet, m), (q, { m with vread := some 5 })], (has x.1 x.2).e.step.getD 0 0 ≤ (has x.1 x.2).now ∧
      (has x.1 x.2).e.entries.filter (fun y => y.core == 0 && (has x.1 x.2).grantable y) = [x.2] ∧ (has x.1 x.2).slot? 0 0 0 = some x.1 ∧ ((has x.1 x.2).wg? 0 0).isSome = true ∧
      (done? ((has x.1 x.2).startCall x.1 g 0 (x.2.vread.getD (BitVec.ofNat 32 ((has x.1 x.2).versionOf x.1))).toNat)).any (fun r =>
        r.full == (x.1 == q) && (r.steps == 0) == (x.1 == quiet)) = true) ∧
    ((has quiet m).m.watches.find? (·.n == 3)).isSome = true ∧ (dslotOf true).watch = none ∧
    (∃ xs, (has q m).readRows 0 q.xprev (4 * q.k) q.m = .ok xs ∧ xs.all (fun r => r.all fun b => !b.2) = true) ∧
    (∃ ys, (has q m).readRows 0 q.yprev (4 * q.n) q.m = .ok ys ∧ ys.all (fun r => r.all fun b => !b.2) = true) ∧
    (∃ w, (has q m).readIa 0 q.weight 8192 = .ok w ∧ w.all (fun b => !b.2) = true) ∧ (∃ w, (has q m).readIa 0 q.scale 4 = .ok w ∧ w.all (fun b => !b.2) = true) ∧
    (q.k / 128 = 1 ∧ q.n / 64 = 1) ∧
    let l := [0x48000000, 0, 0xBF800000]
    (l ≠ [] ∧ ∀ z ∈ l, z % 2 ^ 31 < 0x7F800000) ∧ (quantise 0 l).big = 0x48000000 ∧ fp32.val 0x48000000 = .fin false (2 ^ 23) (-6) ∧ (-6 : Int) + 1 ≤ (quantise 0 l).e := by
  refine ⟨⟨by decide, by decide, isDone (by decide +kernel)⟩, by decide +kernel, by decide +kernel, by decide, isDone (by decide +kernel), isDone (by decide +kernel), isDone (by decide +kernel),
    isDone (by decide +kernel), by decide, by decide, by decide +kernel, by decide +kernel, by decide +kernel⟩

/-- A command of the thread: handle or block at 0, or the copy of 32 bytes from 64 to 96 in the tile store. -/
def cmd (eng fn a : Nat) (q : CState) (blk : List Byte) : Cmd :=
  { id := 3, core := 0, eng := eng, fn := fn, ctx := 0, slot := 0, tid := 0, uid := 1, pc := 0x1000, a := BitVec.ofNat 32 a, b := 0xFFFFFFFF, dst := some (.v 2), state := q, tok := 7
    blk := blk, ref := [], sent := 0 }

def copyBlk : List Byte := [64] ++ List.replicate 7 0 ++ [96] ++ List.replicate 7 0 ++ List.replicate 8 0 ++ [32, 0, 0, 0, 0, 3] ++ List.replicate 34 0

/-- Blocks at the last place that fits, misaligned and outside; no arrival word, one outside and one misaligned. -/
theorem witness_EngineCommandIssue :
    let e2 := env (thread [1984, 2047, 2048, 0xFFFFFFFF, 2032, 7, 0, 0]) (wg ws 2048) { st with
      ctxs := { ctx with wincount := [⟨5, 7, 2 ^ 32⟩] } :: List.replicate 63 Context.fresh, e := { st.e with toks := [⟨0, 0, 1, 7, 3, 11⟩] } }
    (∀ i ∈ ([.cpy hdr (some (.v 6)) (.v 0) (.v 3), .cpyx hdr (some (.w 7)) (.v 0) (.v 4), .cpyk hdr none (.v 1) (.v 3), .cpyz hdr none (.v 2) (.v 3), .bsopen hdr none (.v 0) (.v 3), .bsrow hdr none (.v 0) (.v 3),
      .bsclose hdr none (.v 5), .bkon hdr none (.v 0) (.v 3), .bkoff hdr none (.v 5), .bkact hdr none (.v 0) (.v 3), .bkbc hdr none (.v 0) (.v 3), .bkmac hdr none (.v 0) (.v 3),
      .bkred hdr none (.v 0) (.v 3), .bkrd hdr none (.v 0) (.v 3), .bkclr hdr none (.v 0) (.v 3), .maxpy hdr none (.v 0) (.v 3), .mscal hdr none (.v 0) (.v 3), .msum hdr none (.v 0) (.v 3),
      .mfill hdr none (.v 0) (.v 3), .fput hdr none (.v 0) (.v 3), .fputs hdr none (.v 0) (.v 3), .fget hdr none (.v 0) (.v 3), .cstat hdr (some (.v 6)) (.v 5) (.c 1),
      .cstat hdr (some (.v 6)) (.v 5) (.c 2), .wcnt hdr (some (.v 6)) (.c 5) (.c 0), .wcnt hdr (some (.v 6)) (.c 5) (.c 3)] : List Instr), e2.runs i) ∧
    e2.g.tile.length = 2048 ∧ (e2.src (.v 0)).toNat + 64 = 2048 ∧ (e2.src (.v 0)).toNat % 64 = 0 ∧ (e2.src (.v 1)).toNat % 64 ≠ 0 ∧ (e2.src (.v 2)).toNat = 2048 ∧
    (e2.src (.v 4)).toNat % 16 = 0 ∧ (e2.src (.v 4)).toNat < 2048 ∧ (∀ k < 2, (e2.g.gran.getD k {}).ref < 255) ∧
    (∀ eng < 4, (e2.s.e.cmds.filter fun c => c.core == e2.g.core && c.eng == eng && c.state == .issued).length < 16) ∧
    (∀ t ∈ e2.s.e.toks, t.core = e2.g.core → t.ctx = e2.g.ctx → t.eng = 2 → t.tok ≠ 7) ∧ (e2.s.e.toks.find? fun t => t.core == 0 && t.ctx == 0 && t.eng == 1 && t.tok == 7) = some ⟨0, 0, 1, 7, 3, 11⟩ ∧
    ∃ w ∈ e2.ctx.wincount, w.n = 5 ∧ ∀ w' ∈ e2.ctx.wincount, w'.n = w.n → w' = w := by
  refine ⟨runsEach _ (by decide), List.length_replicate, by decide, by decide, by decide, by decide, by decide, by decide, by decide, by decide, by decide, by decide, ?_⟩
  exact ⟨_, List.mem_singleton.2 rfl, rfl, fun w' h _ => List.mem_singleton.1 h⟩

/-- A session of context 0 on the first pseudo-channel. -/
def session : Session :=
  { core := 0, ctx := 0, tok := 0, slot := 0, tid := 0, stack := 0, pch := 0, x := List.replicate 16 (List.replicate 16 (List.replicate 16 {})), acc := List.replicate 16 (List.replicate 8 (List.replicate 16 {})), row := none, used := 0, last := 0, dram := [] }

def stream (core tok since : Nat) : Stream := { core := core, ctx := 0, tok := tok, stack := 0, pch := 0, bank := 0, row := 0, page := 0, home := 0, since := since }

/-- A command that is refused and one that is accepted; accepted copies, handles and a broadcast into the last bank. -/
theorem witness_EngineCommandLife :
    let has (c : Cmd) (l : List Stream) (q : List Session) : State := { e1.s with e := { e1.s.e with cmds := [c], streams := l, sessions := q } }
    (∀ c ∈ [cmd 0 6 9 .issued [], cmd 0 0 0 .accepted copyBlk, cmd 0 6 0 .accepted [], cmd 1 1 0 .accepted [], cmd 1 3 0 .accepted ([0, 0, 0, 0, 15] ++ List.replicate 59 1)],
      let s := has c [stream 0 0 900] [session]
      s.e.cmds.find? (·.id == c.id) = some c ∧ (s.wg? 0 0).any (fun g => g.uid == c.uid && g.resident) = true ∧ (s.ctx 0).runs = true ∧ c.sent = 0 ∧ s.e.turn c = true ∧
        s.y.selfTests = [] ∧ s.bkonWaits c [] = false) ∧
    (let c := { cmd 0 6 9 .issued [] with b := 2032 }
     let s : State := { e1.s with e := { e1.s.e with cmds := [{ c with id := 2, heldOn := some (0, 0) }, c], toks := [⟨0, 0, 0, 7, 2, 0⟩] } }
     s.e.cmds.find? (·.id == 3) = some c ∧ (∀ x ∈ s.e.cmds, x.core = 0 → x.eng = 0 → x.state = .issued → 3 ≤ x.id ∨ x.heldOn.isSome = true) ∧ c.b.toNat ≠ noWord ∧
       c.b.toNat + 16 ≤ 2048 ∧ ∃ t ∈ s.e.toks, t.core = 0 ∧ t.ctx = 0 ∧ t.eng = 0 ∧ t.tok = c.tok) ∧
    (match (has (cmd 0 6 9 .issued []) [stream 0 0 900] []).examine (cmd 0 6 9 .issued []) e1.g [] with
     | .ok (.error k) => k == 6
     | _ => false) = true ∧
    (match (has (cmd 0 6 0 .issued []) [stream 0 0 900] []).examine (cmd 0 6 0 .issued []) e1.g [] with
     | .ok (.ok r) => (e1.g.lowerRef []).refRoom (rangeGranules r)
     | _ => false) = true ∧
    (let q := copyOf 0 copyBlk
     q.srcTile = true ∧ q.dstTile = true ∧ q.src + q.cnt ≤ 2048 ∧ q.dst + q.cnt ≤ 2048 ∧ q.cnt = 32) ∧
    ((has (cmd 0 6 0 .accepted []) [stream 0 0 900] []).stream? 0 0 0).isSome = true ∧ ((has (cmd 1 1 0 .accepted []) [] [session]).session? 0 0 0) = some session ∧
    session.x.length = 16 ∧ (∀ b ∈ session.x, b.length = 16) ∧ (cmd 1 3 0 .accepted ([0, 0, 0, 0, 15] ++ List.replicate 59 1)).num 4 1 < 16 :=
  ⟨by decide +kernel, by decide +kernel, by decide +kernel, by decide +kernel, by decide +kernel, by decide, by decide, by decide, by decide, by decide⟩

/-! The copies: a tile store of 32 KiB of zeros, and the parameter block. -/

def copyBlock (src dst sdst cnt fmt flg nc pitch : Nat) : List Byte :=
  leBytes 8 src ++ leBytes 8 dst ++ leBytes 8 sdst ++ leBytes 4 cnt ++ leBytes 1 fmt ++ leBytes 1 flg ++ leBytes 2 0 ++ leBytes 4 nc ++ leBytes 4 pitch ++ List.replicate 24 0

/-- The command of the thread runs: it is accepted, has done nothing, and none goes before it. -/
def running (s : State) (c : Cmd) : Bool :=
  s.e.cmds.find? (·.id == c.id) == some c && (s.wg? 0 0).any (fun g => g.uid == c.uid && g.resident) && (s.ctx 0).runs && c.state == .accepted && c.sent == 0 &&
    s.e.turn c && s.y.selfTests == [] && c.core == 0 && c.slot == 0 && c.ctx == 0

def gx : Workgroup := { e1.g with tile := List.replicate 32768 0, gran := List.replicate 32 {} }

theorem gx_tile : gx.tile.length = 32768 := List.length_replicate

def copying (c : Cmd) : State := { e1.s with wgs := [gx], e := { e1.s.e with cmds := [c] } }

theorem fetched_tile (s : State) (c : Cmd) (g : Workgroup) (a n : Nat) : ∃ l, s.fetchLoc c g true a n = .ok (some l) ∧ l.length = n :=
  ⟨g.tileBytes a n, rfl, by simp [Workgroup.tileBytes]⟩

/-- A copy to memory, expansions of each format into the tile store and one into memory, format 4, compressions both ways, and cpyz. -/
theorem witness_EngineCommandLife_copies :
    let cpyTo := cmd 0 0 0 .accepted (copyBlock 64 0x200 0 4 0 1 0 0)
    let scaled := cmd 0 1 0 .accepted (copyBlock 0 16384 24576 1 1 3 0 0)
    let halves := cmd 0 1 0 .accepted (copyBlock 0 16384 (2 ^ 64 - 1) 2 0 3 0 0)
    let rows (b : Nat) := cmd 0 1 0 .accepted (copyBlock 0 8192 0 1 2 (3 + b) 1 2)
    let packed := cmd 0 1 0 .accepted (copyBlock 0 8192 0 1 4 3 0 0)
    let out := cmd 0 2 0 .accepted (copyBlock 8192 64 0 1 2 3 1 2)
    let outTo := cmd 0 2 0 .accepted (copyBlock 8192 0x200 0 1 3 1 1 2)
    let pack (flg dst : Nat) := cmd 0 2 0 .accepted (copyBlock 8192 dst 0 1 4 flg 0 0)
    let cpyz := cmd 0 3 0 .accepted ([0, 0x20, 0, 0, 1, 15] ++ List.replicate 58 0)
    (∀ c ∈ [cpyTo, scaled, halves, rows 0, rows 4, packed, out, outTo, pack 11 64, pack 9 0x200, cpyz], running (copying c) c = true ∧ c.b.toNat = noWord) ∧
    (let q := copyOf 0 cpyTo.blk
     q.dstTile = false ∧ ∃ l, (copying cpyTo).fetchLoc cpyTo gx q.srcTile q.src q.cnt = .ok (some l) ∧ l.length = q.cnt ∧
       ((done? (((copying cpyTo).keepRead cpyTo q.srcTile q.src q.cnt).putLoc cpyTo false (q.dst, l))).any (·.isSome)) = true) ∧
    (∀ c ∈ [scaled, halves, rows 0, rows 4], let q := copyOf 1 c.blk
      q.fmt ≤ 3 ∧ q.dstTile = true ∧ q.srcTile = true ∧ q.dst + 8192 * q.panels ≤ 32768 ∧
        (q.scaled = true → q.sdst + q.scaleBytes * q.cnt ≤ 32768 ∧ (q.sdst + q.scaleBytes * q.cnt ≤ q.dst ∨ q.dst + 8192 * q.panels ≤ q.sdst))) ∧
    ((copyOf 1 scaled.blk).scaled = true ∧ (copyOf 1 halves.blk).scaled = false) ∧
    (let q := copyOf 1 packed.blk
     let start (k : Nat) : Nat := 8 * k
     let here (k : Nat) : List Nat := (List.range (min 64 (q.cnt - 64 * k))).filter fun j => leNat (slice gx.tile (start k) 8) / 2 ^ j % 2 == 1
     q.fmt = 4 ∧ q.srcTile = true ∧ q.dstTile = true ∧ start 0 = q.src ∧ (∀ k < q.groups, start (k + 1) = start k + 8 + 8192 * (here k).length) ∧
       start q.groups ≤ 32768 ∧ q.dst + 8192 * q.cnt ≤ 32768) ∧
    (let q := copyOf 2 out.blk
     q.fmt = 2 ∧ q.srcTile = true ∧ q.dstTile = true ∧ 2 * q.nc ≤ q.pitch ∧ q.dst + q.pitch * (q.cnt - 1) + 2 * q.nc ≤ 32768) ∧
    (let q := copyOf 2 outTo.blk
     q.fmt = 3 ∧ q.dstTile = false ∧ ∃ l, (copying outTo).fetchLoc outTo gx q.srcTile q.src (q.srcLen 0) = .ok (some l) ∧ l.length = q.srcLen 0 ∧
       ((done? (((copying outTo).keepRead outTo q.srcTile q.src (q.srcLen 0)).putAll outTo false ((List.range q.cnt).map fun r =>
          (q.dst + q.pitch * r, ((List.range q.nc).flatMap (q.element (0, false) l r)).map some)))).any (·.isSome)) = true) ∧
    (let q := copyOf 2 (pack 11 64).blk
     q.fmt = 4 ∧ q.onBytes = true ∧ q.dstTile = true ∧ (copyOf 2 (pack 9 0x200).blk).dstTile = false ∧ q.dst + (8 + 8192) * q.cnt ≤ 32768) ∧
    (cpyz.num 5 1 < gx.k.length ∧ cpyz.num 0 4 / 8192 + cpyz.num 4 1 ≤ 64 ∧ cpyz.num 0 4 + 8192 * cpyz.num 4 1 ≤ 32768) := by
  refine ⟨by decide +kernel, ⟨by decide, gx.tileBytes 64 4, rfl, by simp [Workgroup.tileBytes]; decide, by decide +kernel⟩, by decide +kernel, by decide +kernel, by decide +kernel, by decide +kernel,
    ⟨by decide +kernel, by decide +kernel, gx.tileBytes 8192 8192, rfl, by simp [Workgroup.tileBytes]; decide, by decide +kernel⟩, by decide +kernel, by decide +kernel⟩

/-- A stream and a session to open; a closed handle's command; a row read; the commands of a session with a row and without one. -/
theorem witness_EngineCommandLife_handles :
    let has (c : Cmd) (l : List Stream) (q : List Session) : State := { e1.s with e := { e1.s.e with cmds := [c], streams := l, sessions := q } }
    let open_ := { session with row := some 0 }
    (∀ c ∈ [cmd 0 4 0 .issued [], cmd 1 0 0 .issued []], (has c [] []).e.cmds.find? (·.id == c.id) = some c ∧ (has c [] []).bkonWaits c (slice e1.g.tile 0 64) = false ∧
      (match (has c [] []).examine c e1.g (slice e1.g.tile 0 64) with
       | .ok (.ok r) => (e1.g.lowerRef []).refRoom (rangeGranules r)
       | _ => false) = true ∧ (done? ((has c [] []).frameOf c (numAt (slice e1.g.tile 0 64) 0 8))).any (·.isSome) = true) ∧
    (let c := { cmd 0 6 9 .accepted [] with b := 2032 }
     running (has c [] []) c = true ∧ (done? ((has c [] []).runCmd c e1.g c.total)).any (fun r => r.err == some 6) = true ∧ (has c [] []).stream? 0 0 9 = none) ∧
    (let c := cmd 0 5 0 .accepted ([0, 0, 0, 0, 64, 0, 0, 0, 31, 1] ++ List.replicate 54 0)
     running (has c [stream 0 0 900] []) c = true ∧ c.b.toNat = noWord ∧ c.num 9 1 = 1 ∧ c.num 4 4 + 32 * c.num 9 1 ≤ 2048 ∧ ((has c [stream 0 0 900] []).stream? 0 0 (c.num 0 4)).isSome = true ∧
       ∃ l, (has c [stream 0 0 900] []).readPiece 0 0 (arrayPa 0 0 0 0 31 % 2 ^ 16) 32 = .ok l ∧ decide (l.length = 32) = true) ∧
    (∀ fn ∈ [3, 4, 5, 6, 7], ∀ q ∈ [session, open_], let c := cmd 1 fn 0 .accepted ([0, 0, 0, 0, 1, 1, 0, 0] ++ List.replicate 56 0)
      running (has c [] [q]) c = true ∧ (has c [] [q]).session? 0 0 (c.num 0 4) = some q ∧ c.b.toNat = noWord ∧ c.num 8 4 + 1024 * ((List.range 8).filter fun a => c.num 4 1 / 2 ^ a % 2 == 1).length ≤ 2048) ∧
    (∀ q ∈ [session, open_], q.x.length = 16 ∧ (∀ b ∈ q.x, b.length = 16) ∧ q.acc.length = 16 ∧ ∀ b ∈ q.acc, b.length = 8 ∧ ∀ r ∈ b, r.length = 16) ∧
    (let c := cmd 1 2 0 .accepted ([0, 0, 0, 0, 0, 0, 0, 0, 0x40] ++ List.replicate 55 0)
     running (has c [] [session]) c = true ∧ (done? ((has c [] [session]).frameOf c (c.num 8 8))).any (fun o => o.any fun f => (has c [] [session]).y.allowed 0 (secOf f.1) 32 true false) = true) ∧
    ∀ fn ∈ [4, 5, 6, 7], let c := cmd 1 fn 0 .accepted (List.replicate 64 0)
      running (has c [] []) c = true ∧ (has c [] []).session? 0 0 (c.num 0 4) = none :=
  ⟨by decide +kernel, by decide +kernel, ⟨by decide +kernel, by decide +kernel, by decide +kernel, by decide +kernel, by decide +kernel, isDone (by decide +kernel)⟩, by decide +kernel,
    by decide +kernel, by decide +kernel, by decide +kernel⟩

/-- A command of the memory-side unit over 16 words from 0x200 on. -/
def msu (fn n a : Nat) : Cmd := cmd 2 fn 0 .accepted (leBytes 8 0x200 ++ leBytes 8 (if fn = 0 ∨ fn = 2 then 0x400 else 0) ++ leBytes 4 n ++ leBytes 4 a ++ List.replicate 40 0)

/-- What a command of the unit comes to on its next elements, up to hi: its sectors are free, and its bytes are read and written. -/
def msuDoes (c : Cmd) (hi : Nat) : Bool :=
  let s := copying c
  let secs := (c.msuRanges 0 hi).flatMap fun r => s.framesOf c r.1 r.2
  running s c && (secs.all fun q => !s.dramWaits c.id c.ctx q.2.1 true q.2.2 && s.settled q.1 c.ctx q.2.1 q.2.2) &&
    (done? (s.readVa c.id c.ctx 0x400 (4 * hi))).any (fun o => o.any fun l => l.length == 4 * hi) &&
    (done? (s.readVa c.id c.ctx 0x200 (4 * hi))).any (fun o => o.any fun l => l.length == 4 * hi) &&
    (done? (s.putLoc c false (0x200, List.replicate (4 * (if c.fn = 2 then 1 else hi)) (1, false)))).any (·.isSome)

/-- The first sector of a command that has two, the last one of a command, and a sum over a block and a part. -/
theorem witness_EngineCommandLife_memory :
    (∀ fn ∈ [0, 1, 3], msuDoes (msu fn 16 0x3F800000) 8 = true ∧ msuDoes (msu fn 8 0x3F800000) 8 = true) ∧ msuDoes (msu 2 40 0) 40 = true ∧
    (∀ fn ∈ [0, 1, 3], (copying (msu fn 16 0x3F800000)).msuNext (msu fn 16 0x3F800000) = some (0, 0, 8) ∧ (msu fn 16 0x3F800000).num 0 8 % 4 = 0) := by
  refine ⟨by decide +kernel, by decide +kernel, fun fn h => ⟨?_, by revert fn; decide⟩⟩
  have h1 : (((msu fn 16 0x3F800000).pageSpans.zipIdx.filter fun p => decide (p.1.1 + (msu fn 16 0x3F800000).pageDone p.2 < p.1.2) &&
      !((copying (msu fn 16 0x3F800000)).ctx (msu fn 16 0x3F800000).ctx).halt.stopped.contains ((copying (msu fn 16 0x3F800000)).pageUnit (msu fn 16 0x3F800000) p.1.1))) = [((0, 16), 0)] := by
    revert fn; decide +kernel
  simp only [State.msuNext, h1, List.map_cons, List.map_nil, List.eraseDups_cons, List.filter_nil, List.eraseDups_nil, List.length_cons, List.length_nil, Nat.zero_add, Nat.mod_one]
  simp only [List.getElem?_cons_zero, List.find?_cons, beq_self_eq_true, Option.map_some]
  revert fn; decide +kernel

/-- A put and a get in flight, an export for them and one that does not allow them, and the accesses that they come to: an element through an
index of value 7 too. -/
theorem witness_EngineEvents :
    let x : Export := { n := 5, tia := 0x4000, size := 0x1000, cbia := 0x8000, ctx := 0, rt := 3, clo := 0, chi := 9 }
    let s : State := { e1.s with
      e := { e1.s.e with cmds := [cmd 3 0 0 .accepted []], packets := [{ cmd := 3, chip := 1, exp := 5, wof := 0, bytes := 64 }] }
      y := { e1.s.y with exports := [x], access := [(65, 0, { base := 3, limit := 0x100000 }), (0, 0, { base := 3, limit := 0x100000 })] } }
    s.e.cmds.find? (·.id == 3) = some (cmd 3 0 0 .accepted []) ∧ s.e.packets.find? (·.cmd == 3) = some { cmd := 3, chip := 1, exp := 5, wof := 0, bytes := 64 } ∧
    ([{ cmd := 3, chip := 1, exp := 5, wof := 0, bytes := 64, get := true }] : List Packet).all (fun p => p.get && p.cmd == 3) = true ∧ 0 < s.ctxs.length ∧
    s.y.exportFor 10 5 0 8 0x1000 1 true = none ∧ s.y.exportFor 9 5 0xFF8 8 0x1000 1 true = some x ∧ s.y.allowed x.ctx (x.tia + 0xFF8) 8 false true = true ∧
    (∃ s1, s.writeIa x.ctx (x.tia + 0xFF8) ((List.replicate 8 1).map fun b => (b, false)) = .ok s1 ∧ (match s1.addWord x 0 8 8 with
      | .ok s2 => (match s2.addWord x (0x10 + 4 * 15) 4 7 with
        | .ok _ => true
        | _ => false)
      | _ => false) = true) ∧
    s.y.exportFor 9 5 0xFF8 8 0x1000 2 true = some x ∧ s.y.exportFor 10 5 0 8 0x1000 2 true = none ∧ (s.y.exportFor 9 5 0xFF0 8 0x1000 2 true).isSome = true ∧
    (s.y.exportFor 9 5 0x40 4 0x1000 2 true).isSome = true ∧ (s.y.exportFor 9 5 (0x100 + 7 * 32) 32 0x1000 2 true).isSome = true ∧
    (∃ l, s.readIaBy 65 x.ctx (x.tia + 0xFF8) 8 = .ok l ∧ decide (l.length = 8) = true) ∧
    (∃ k, ({ s with m := { s.m with cells := [(0x4040, 7)] } } : State).readIaBy 65 x.ctx (x.tia + 0x40) 4 = .ok k ∧ (k.all (fun b => !b.2) && (pnum k).1 == 7) = true) ∧
    ∃ l, s.readIaBy 65 x.ctx (x.tia + (0x100 + 7 * 32)) 32 = .ok l ∧ decide (l.length = 32) = true :=
  ⟨by decide, by decide, by decide, by decide, by decide, by decide, by decide, isDone (by decide +kernel), by decide, by decide, by decide, by decide, by decide,
    isDone (by decide +kernel), isDone (by decide +kernel), isDone (by decide +kernel)⟩

/-- A get in flight; a put whose target refuses bytes with a hint; a gather index whose bits are all ones. -/
theorem witness_EngineEvents_hints :
    let put : Packet := { cmd := 3, chip := 1, exp := 5, wof := 0, bytes := 64 }
    let has (q : Packet) : State := { e1.s with
      e := { e1.s.e with cmds := [cmd 3 0 0 .accepted []], packets := [q] }, m := { e1.s.m with cells := [(0x4040, 255), (0x4041, 255), (0x4042, 255), (0x4043, 255)] }
      y := { e1.s.y with access := [(65, 0, { base := 3, limit := 0x100000 })], exports := [{ n := 5, tia := 0x4000, size := 0x1000, cbia := 0x8000, ctx := 0, rt := 3, clo := 0, chi := 9 }] } }
    (∀ q ∈ [put, { put with get := true }], (has q).e.cmds.find? (·.id == 3) = some (cmd 3 0 0 .accepted []) ∧ (has q).e.packets.find? (·.cmd == 3) = some q) ∧
    (put.get = false ∧ put.held = 0 ∧ 0 < put.bytes ∧ ∀ g ∈ (has put).wgs, g.hard = false) ∧ ((has put).y.exportFor 9 5 0x40 4 0x1000 2 true).isSome = true ∧
    ∃ k, (has put).readIaBy 65 0 0x4040 4 = .ok k ∧ (k.all (fun b => !b.2) && (pnum k).1 == 2 ^ 32 - 1) = true :=
  ⟨by decide, by decide, by decide, isDone (by decide +kernel)⟩

/-- A walk that ends in a leaf and one that misses; a write on a missing unit, logged, on a mapped page and on one that is not, and refused. -/
theorem witness_TranslationAndSideLog :
    let has (w : WEnt) (c : List Host.Cell) (miss : List Miss) : State := { tables with m := { tables.m with writes := [w], cells := c, missing := miss } }
    let cells := tables.m.cells
    (has (write .queued) cells []).missing? 0 0 0x44 = none ∧ secOf 0x44 = (write .queued).ia ∧ (write .queued).state.canArrive = true ∧ (has (write .queued) cells []).mayGo (write .queued) = true ∧
    (tables.y.dies.getD 0 {}).st = .running ∧ (has (write .queued) cells []).walk 0 0x44 = .leaf 0 0x44 false ∧
    (has (write .queued) [] []).walk 0 0x44 = .miss 3 ∧
    (let m : Miss := { die := 0, ctrl := 0, ctx := 0, level := 3, ia := 0, acc := .write, recorded := true }
     let s := has (write .queued) [] [m]
     s.write? 3 = some (write .queued) ∧ (s.missing? 0 0 0x40).isSome = true ∧ (s.m.loggedOn 0).length < 512 ∧ s.m.behind (write .queued) = [] ∧ 0 < s.m.nextSeq.length) ∧
    (let w := write (.logged 1)
     ((has w cells []).m.writes.find? fun x => x.who.core == 0 && x.state == .logged 1) = some w ∧ (has w cells []).xlate 0 0 0x40 = .ok (fr 0x40) ∧ (has w [] []).xlate 0 0 0x40 = .fault 3) ∧
    (has (write (.retry 1000)) cells []).write? 3 = some (write (.retry 1000)) ∧ 1000 ≤ tables.now := by decide +kernel

/-- A load, an atomic and a write that wait for a sector, on a mapped page and on one that is not, with and without the right to it. -/
theorem witness_TranslationAndSideLog_waiting :
    let has (c : List Host.Cell) (base : Nat) : State := { tables with
      m := { tables.m with writes := [write .queued], reads := [{ load none false with secs := [{ ia := 0x200, home := 0, got := none, till := 0, queued := none, retry := 0 }] }]
                           atoms := [{ atomic .acas false with ia := 0x244 }], cells := c }
      y := { tables.y with access := [(0, 0, { base := base, limit := 0x100000 })] } }
    let cells := tables.m.cells
    ∀ x ∈ [(cells, 3), ([], 3), (cells, 0)], let s := has x.1 x.2
      ((∃ w ∈ s.m.writes, w.ctx = 0 ∧ w.ia = secOf 0x44 ∧ w.home = 0 ∧ w.state.canArrive = true ∧ s.mayGo w = true) ∧
        (∃ r ∈ s.m.reads, r.ctx = 0 ∧ (r.kind == .pref) = false ∧ s.loadWaits r.who r.id 0 0x200 = false ∧ ∃ y ∈ r.secs, y.ia = 0x200 ∧ y.home = 0 ∧ y.got = none ∧ y.retry = 0) ∧
        ∃ a ∈ s.m.atoms, a.ctx = 0 ∧ secOf a.ia = 0x240 ∧ a.home = 0 ∧ a.fwd = false ∧ a.retry = 0 ∧ ∀ l ∈ a.lanes,
          s.loadWaits l.who a.id 0 0x240 = false ∧ s.m.writeBefore l.who a.id 0 0x240 (s.leaseOf? l.who 0 (lineOf 0x240)).isSome = false) ∧
      ∀ ia ∈ [0x44, 0x200, 0x240], (s.y.dies.getD 0 {}).st = .running ∧ s.missing? 0 0 ia = none ∧ s.y.allowedAcc 0 (secOf ia) 32 .rmw = (x.2 == 3) ∧
        (x.2 = 3 → s.y.allowedAcc 0 (secOf ia) 32 .read = true ∧ s.y.allowedAcc 0 (secOf ia) 32 .write = true ∧ (s.walk 0 ia = .miss 3 ∨ s.walk 0 ia = .leaf 0 ia false)) := by
  decide +kernel

/-- A packet: entry 0x1000, one workgroup of one thread, one register, no tiles, context 0. -/
def packet : List Byte :=
  [0, 0x10, 0, 0, 0, 0, 0, 0, 1, 0, 0, 0, 1, 0, 0, 0, 1, 0, 0, 0, 1, 0, 1, 0, 1, 0, 0, 0] ++ List.replicate 100 0

/-- The last queue, enabled for the host and the device and disabled, its last packet in the ring; packets good, poisoned and bad. -/
theorem witness_LaunchQueues :
    let q (ctl : Word) (p : Option (List Byte)) : Queue := { base := 0x8000, ctl := ctl, head := 0xFFFFFFFF, tail := 0, taken := p }
    let has (x : Queue) (c : List Host.Cell) (poi : List Nat) : State := { st with
      y := { st.y with queues := List.replicate 63 {} ++ [x] }, m := { st.m with cells := c, poison := poi } }
    let cells := cellsSet (0x8000 + 128 * 15) packet []
    (∀ x ∈ [q 0x4001 none, q 0x4009 none, q 0x4000 none], (has x [] []).y.queues[63]? = some x) ∧ (q 0x4001 none).en = true ∧ (q 0x4001 none).dev = false ∧ (q 0x4009 none).dev = true ∧
    (q 0x4000 none).en = false ∧ (q 0x4001 none).live = true ∧ (q 0x4001 none).head ≠ (q 0x4001 none).tail ∧
    (∃ l, (has (q 0x4001 none) cells []).readIa 0 ((q 0x4001 none).slot 0xFFFFFFFF) 128 = .ok l ∧ (l.map (·.1) == packet && l.all fun b => !b.2) = true) ∧
    (∃ l, (has (q 0x4001 none) cells [(0x8000 + 128 * 15) / 32]).readIa 0 ((q 0x4001 none).slot 0xFFFFFFFF) 128 = .ok l ∧ (l.any fun b => b.2) = true) ∧
    (Packet.code ctx 0 packet = none ∧ Packet.code ctx 1 packet = some 2 ∧ ctx.roomFor (Packet.ids packet) = true ∧ ((has (q 0x4001 none) [] []).launchRoom 0).isSome = true) ∧
    (let s := has (q 0x4001 (some packet)) [] []
     Packet.qb packet = false ∧ Packet.st packet = false ∧ Packet.wt packet = false ∧ Packet.ctx packet < s.ctxs.length ∧ (s.launchRoom (Packet.ctx packet)).isSome = true) :=
  ⟨by decide +kernel, by decide +kernel, by decide +kernel, by decide +kernel, by decide +kernel, by decide +kernel, by decide +kernel, isDone (by decide +kernel), isDone (by decide +kernel),
    by decide +kernel, by decide +kernel⟩

/-- Packets that wait for the queue's launch, for the time, for a counter, and for a word that holds too little, enough, and is poisoned. -/
theorem witness_LaunchQueues_waits :
    let pkt (flags wait value : Nat) : List Byte := packet.take 27 ++ [BitVec.ofNat 8 flags] ++ (packet.drop 28).take 20 ++ leBytes 8 wait ++ leBytes 8 value ++ packet.drop 64
    let queue (p : List Byte) : Queue := { base := 0x8000, ctl := 0x4001, head := 5, tail := 7, taken := some p }
    let has (p : List Byte) (ls : List Launch) (cnts : List Counter) (poi : List Nat) : State := { st with
      ctxs := { ctx with counters := cnts } :: List.replicate 63 Context.fresh
      y := { st.y with queues := [queue p], launches := ls }, m := { st.m with cells := [(0x200, 3)], poison := poi } }
    let l : Launch := { ctx := 0, lid := 1, q := 0, cls := 0, pkt := packet, nextFlat := 0, total := 1, left := 1, started := 0, dropped := false }
    let k : Counter := ⟨0, 1, 4, 9, false, 0⟩
    (Packet.qb (pkt 8 0 0) = true ∧ Packet.wt (pkt 8 0 0) = false ∧ (∃ x ∈ (has (pkt 8 0 0) [l] [] []).y.launches, x.q = 0) ∧ (∀ x ∈ (has (pkt 8 0 0) [] [] []).y.launches, x.q ≠ 0)) ∧
    (let p := packet.take 27 ++ [4] ++ (packet.drop 28).take 12 ++ leBytes 8 (2 ^ 63) ++ packet.drop 48
     Packet.st p = true ∧ Packet.wt p = false ∧ (has p [] [] []).ptpNs < Packet.start p) ∧
    (∀ v ∈ [4, 5], let p := pkt 3 (2 ^ 32) v
      Packet.wt p = true ∧ Packet.wsrc p = true ∧ (has p [] [k] []).counterWord (Packet.ctx p) (Packet.waitWord p % 4) (Packet.waitWord p / 2 ^ 32) 0 = 4 ∧ Packet.waitValue p = v ∧
        Packet.ctx p < (has p [] [k] []).ctxs.length ∧ ((has p [] [k] []).launchRoom 0).isSome = true) ∧
    ∀ q ∈ [(3, []), (4, []), (0, [0x10])], let p := pkt 1 0x200 q.1
      Packet.wt p = true ∧ Packet.wsrc p = false ∧ (done? ((has p [] [] q.2).readVa (has p [] [] q.2).nextId (Packet.ctx p) (BitVec.ofNat 64 (Packet.waitWord p)) 8)).any
        (fun o => o.any fun l => l.any (·.2) == (q.1 == 0) && (pnum l).1 == 3) = true := by decide +kernel

/-- A context whose image lies in host memory that is mapped whole, a launch with one workgroup to place on the last core, and a finished one. -/
theorem witness_WorkgroupLife :
    let l : Launch := { ctx := 0, lid := 1, q := 0, cls := 0, pkt := packet, nextFlat := 0, total := 1, left := 1, started := 0, dropped := false }
    let s : State := { st with
      ctxs := { ctx with ctxlen := 0x1000000, counters := [⟨0, 1, 0, 1, false, 0⟩] } :: List.replicate 63 Context.fresh
      m := { st.m with hostLines := [⟨0, 0x3FC00, none, 0⟩, ⟨0, 0x3FF80, none, 0⟩], xlat := (List.range 4).flatMap fun d => (List.range 4).map fun k => { die := d, ctrl := k, ctx := 0, level := 2, ia := 0, pa := 0, hst := true } }
      y := { st.y with launches := [l] } }
    let g := { wg ws 0 with core := 255, slot := 15, threads := [{ thread [0] with run := .exited }] }
    let s2 : State := { s with wgs := [g] }
    (s.y.launches.find? fun x => x.ctx == l.ctx && x.lid == l.lid) = some l ∧ s.unplaced l = true ∧ (∀ x ∈ s.y.launches, s.unplaced x = true → x.before l = true → (s.placeOn x 255).isSome = false) ∧
    (match s.placeOn l 255 with
     | some a => (match s.clearPlace 255 (Packet.threads l.pkt) a with
       | .ok u => (match u.fresh.imageWrite 0 (u.headerAt 0 255 a.slot) (plainBytes (newWorkgroup l 255 u.now u.nextId a).header) with
         | .ok _ => true
         | .error _ => false)
       | .error _ => false)
     | none => false) = true ∧
    s2.wg? 255 15 = some g ∧ s2.finished g = true ∧ s2.released g = true ∧ (match s2.imageWrite 0 (s2.headerAt 0 255 15) (plainBytes (List.replicate 64 0)) with
     | .ok t => ((t.ctx 0).counter? 0 g.lid).any fun k => decide (g.ctx < t.ctxs.length ∧ k.done + 1 < 2 ^ 64 ∧ k.total < 2 ^ 64)
     | .error _ => false) = true :=
  ⟨by decide +kernel, by decide +kernel, by decide +kernel, by decide +kernel, rfl, by decide +kernel, by decide +kernel, by decide +kernel⟩

/-- Values of PATSET: malformed by the first reserved tag, at a frame whose neighbour is foreign, and the last frame of the last stack; a read through
the window. -/
theorem witness_TablesAndRegisters :
    let s : State := { st with y := { st.y with pat := (0, 1, 5) :: st.y.pat } }
    (s.coherent 0 0 8192).isSome = true ∧ s.e.packets = [] ∧ 0 < s.ctxs.length ∧
    (let tag := (64 : DWord).toNat % 256
     ¬(tag < 64 ∨ 0xFD ≤ tag)) ∧
    (let x : DWord := 17 * 2 ^ 16
     let frame := x.toNat / 2 ^ 16 % 2 ^ 20
     x.toNat / 2 ^ 8 % 256 = 0 ∧ x.toNat / 2 ^ 36 % 16 = 0 ∧ x.toNat / 2 ^ 44 = 0 ∧ x.toNat % 256 < 64 ∧ 16 ≤ frame ∧ s.y.tag 0 (frame - 16) < 64 ∧ s.y.tag 0 (frame - 16) ≠ x.toNat % 256) ∧
    (let x : DWord := 63 + 786431 * 2 ^ 16 + 15 * 2 ^ 40
     let frame := x.toNat / 2 ^ 16 % 2 ^ 20
     x.toNat / 2 ^ 8 % 256 = 0 ∧ x.toNat / 2 ^ 36 % 16 = 0 ∧ x.toNat / 2 ^ 44 = 0 ∧ x.toNat % 256 < 64 ∧ frame + 1 = 786432 ∧ ¬s.y.tag 15 (frame - 16) < 64) ∧
    (s.latch = [] ∧ ({ s with agenda := [.read 0x1018 64] } : State).agenda = .read 0x1018 64 :: []) ∧
    0x2FFC % 8 ≠ 0 ∧ s.y.queues[63]? = some ({} : Queue) := by decide +kernel

theorem joinOpt_isSome {α : Type} (l : List (Option (List α))) (h : l.all Option.isSome = true) : (joinOpt l).isSome = true := by
  induction l with
  | nil => rfl
  | cons a l ih =>
    rw [List.all_cons, Bool.and_eq_true] at h
    obtain ⟨x, hx⟩ := Option.isSome_iff_exists.1 h.1
    obtain ⟨y, hy⟩ := Option.isSome_iff_exists.1 (ih h.2)
    simp [joinOpt, hx, hy]

/-- The exports' table in host memory, in the first 2 GiB that one entry maps. -/
def hosted : State := { st with
  ctxs := [{ ctx with rg := [] }], m := { st.m with xlat := [{ die := 0, ctrl := 0, ctx := 0, level := 2, ia := 0, pa := 0, hst := true }] } }

theorem hosted_xlate {a : Nat} (h : a < 2 ^ 21) : hosted.xlate ((hosted.ctx 0).homeOf a) 0 a = .ok ⟨a, true⟩ := by
  have h1 : (hosted.ctx 0).homeOf a = 0 := show fld a 21 2 = 0 by unfold fld; omega
  have h2 : ctrlOf a = 0 := show fld a 23 2 = 0 by unfold fld; omega
  have h3 : unitBase 2 a = 0 := show a / 2 ^ 31 * 2 ^ 31 = 0 by omega
  have h4 : a % levelSpan 2 = a := Nat.mod_eq_of_lt (show a < 2 ^ 31 by omega)
  have l2 : hosted.m.l2 = [] := rfl
  have missing : hosted.m.missing = [] := rfl
  have xlat : hosted.m.xlat = [{ die := 0, ctrl := 0, ctx := 0, level := 2, ia := 0, pa := 0, hst := true }] := rfl
  simp [State.xlate, State.missing?, l2, missing, xlat, h1, h2, h3, h4]

theorem pieces_lt {a n : Nat} {p : Nat × Nat} (h : p ∈ pieces a n) : p.1 < a + n := by
  unfold pieces cut at h
  split at h
  · simp at h
  · next hn =>
    obtain ⟨k, hk, rfl⟩ := List.mem_map.1 h
    rw [List.mem_range] at hk
    have : n ≠ 0 := by simpa using hn
    simp only
    omega

theorem witness_TablesAndRegisters_exports : (hosted.coherent 0 (hosted.y.expbase.toNat % 2 ^ 52) 262144).isSome = true := by
  refine joinOpt_isSome _ ?_
  rw [List.all_map]
  refine List.all_eq_true.2 fun p hp => ?_
  have hp : p.1 < 2 ^ 21 := Nat.lt_of_lt_of_le (pieces_lt hp) (by decide)
  have lost : (hosted.y.dies.getD ((hosted.ctx 0).homeOf p.1) {}).st = .running ∧ (hosted.y.dies.getD ((hosted.ctx 0).homeOf p.1) {}).lost = false := by
    have h1 : (hosted.ctx 0).homeOf p.1 = 0 := show fld p.1 21 2 = 0 by unfold fld; omega
    rw [h1]; exact ⟨rfl, rfl⟩
  show (if ((hosted.y.dies.getD ((hosted.ctx 0).homeOf p.1) {}).st == .failed || (hosted.y.dies.getD ((hosted.ctx 0).homeOf p.1) {}).lost) = true
      then some (List.replicate p.2 ((0 : Byte), true)) else (match hosted.xlate ((hosted.ctx 0).homeOf p.1) 0 p.1 with
        | .ok x => some ((hosted.m.bytesAt x p.2).map fun b => (b, hosted.m.poisonedAt x))
        | _ => none)).isSome = true
  rw [lost.1, lost.2, hosted_xlate hp]
  rfl

/-- Die 3 in each of its states, idle and not, with and without another die on its way. -/
theorem witness_DieEvents :
    let has (x : Die) (o : Die) (l : List Workgroup) : State := { st with y := { st.y with dies := [{}, {}, o, x] }, wgs := l }
    let run := { wg ws 0 with core := 192 }
    (∀ x ∈ [({} : Die), { st := .gated }, { st := .failed }, { st := .inReset, rst := true }, { st := .retraining, lost := true }, { st := .retraining }], (has x {} []).die 3 = x ∧ (has x {} []).y.dies.length = 4 ∧
      (∀ k < 4, k ≠ 3 → ((has x {} []).die k).moving = false) ∧ (has x {} []).m.dir = [] ∧ (has x {} []).ctxs.length = 64) ∧
    ({} : Die).moving = false ∧ ((has {} { st := .retraining } []).die 2).moving = true ∧ dieOf run.core = 3 ∧ ((has {} {} [run]).ctx run.ctx).state = .running ∧
    (∀ g ∈ (has {} {} []).wgs, dieOf g.core = 3 → ((has {} {} []).ctx g.ctx).state ≠ .running ∧ ((has {} {} []).ctx g.ctx).stopping = false) := by decide +kernel

/-- A ring that is off, a self-test in progress, a device before boot, a port after 14 and after 15 replays. -/
theorem witness_DeviceEvents :
    let s : State := { st with y := { st.y with selfTests := [{ place := .sector 0x40, corrected := true }], ports := [{ replays := 14 }, { replays := 15 }] } }
    s.m.canon ∧ s.y.evOn = false ∧ s.y.selfTests = [{ place := .sector 0x40, corrected := true }] ∧ s.y.repairs.length < 4096 ∧ s.y.booted = false ∧ s.y.bootCode = 0 ∧
    s.y.ports[0]? = some { replays := 14 } ∧ s.y.ports[1]? = some { replays := 15 } ∧ s.e.packets = [] :=
  ⟨by unfold Mem.canon; decide, by decide, by decide, by decide, by decide, by decide, by decide, by decide, by decide⟩

/-- A lasting fault of a register, with three spare rows taken in its array and with all four. -/
theorem witness_DeviceEvents_spares : ∀ n ∈ [3, 4],
    let s : State := { st with y := { st.y with selfTests := [{ place := .reg 255 0 0 0, corrected := true }], spares := List.replicate n (unitCore 255 0, 0) } }
    s.m.canon ∧ s.y.evOn = false ∧ s.y.selfTests = [{ place := .reg 255 0 0 0, corrected := true }] ∧ s.y.spares.count (unitCore 255 0, 0) = n ∧ (({} : Port).up = true) := by
  simp only [List.forall_mem_cons (α := Nat), List.not_mem_nil (α := Nat), false_implies, implies_true, and_true]
  exact ⟨⟨by unfold Mem.canon; decide, by decide, by decide, by decide⟩, by unfold Mem.canon; decide, by decide, by decide, by decide⟩

/-! Witnesses: encodings, memory, the frame. -/

theorem witness_EncodeDecodeLaneClass : (Instr.imul hdr .i32 (.v 383) (.w 63) (.c 31)).laneClass = true ∧ (Instr.imul hdr .i32 (.v 383) (.w 63) (.c 31)).wf = true := by decide

theorem witness_EncodeDecodeOtherClasses : let i : Instr := .dmul hdr 47 (.v 383) (.sp 20) (some 15)
    i.laneClass = false ∧ i.isEvent = false ∧ i.wf = true := by decide

theorem witness_StepKeepsMemoryCanonical : (latched 0x0F0000E06C178000 false).m.canon ∧ ∃ s', step (latched 0x0F0000E06C178000 false) = .next s' := ⟨by unfold Mem.canon; decide, _, rfl⟩

theorem witness_ThreadFrame : e1.runs (.ld hdr .wg .dflt false .word 2 (.w 0) (.c 0)) ∧ ownThreadOnly (.ld hdr .wg .dflt false .word 2 (.w 0) (.c 0)) = true ∧
    e1.s.m.waits = [] ∧
    (∃ s', exec (.ld hdr .wg .dflt false .word 2 (.w 0) (.c 0)) e1.s = .next s') ∧ e1.runs (.swr hdr .xlinv false (.c 0) (.v 2)) ∧ e1.s.m.missing = [] ∧
    ownThreadOnly (.swr hdr .xlinv false (.c 0) (.v 2)) = true := ⟨runs (by decide), rfl, rfl, ⟨_, rfl⟩, runs (by decide), rfl, rfl⟩

/-! Decoding: words written from the spec's encoding tables, one or more for each instruction that has a word. -/

/-- A word of the full form from its fields S, G, GN, OP, D, A, B, C, M (R29). -/
def word (s g gn op d a b c m : Nat) : Nat :=
  ((((((((s * 8 + g) * 2 + gn) * 512 + op) * 512 + d) * 512 + a) * 512 + b) * 512 + c) * 1024) + m

/-- Every word of a list decodes to its instruction. -/
def reads (l : List (Nat × Instr)) : Bool := l.all fun x => decodeTableWord 64 x.1 == some x.2

theorem test_decodeInteger1 : reads [
    (word 1 2 1 0x000 6 391 456 480 0x000, .iadd ⟨1, 2, true⟩ .i32 (.v 6) (.w 7) (.sp 8)),
    (word 9 2 1 0x002 14 399 464 480 0x008, .isub ⟨9, 2, true⟩ .n32 (.v 14) (.w 15) (.sp 16)),
    (word 1 2 1 0x003 406 407 451 480 0x000, .imul ⟨1, 2, true⟩ .i32 (.w 22) (.w 23) (.sp 3)),
    (word 9 2 1 0x004 30 415 459 480 0x008, .imulh ⟨9, 2, true⟩ .n32 (.v 30) (.w 31) (.sp 11)),
    (word 1 2 1 0x005 38 423 467 489 0x000, .imad ⟨1, 2, true⟩ .i32 (.v 38) (.w 39) (.sp 19) (.c 9)),
    (word 10 3 0 0x006 412 453 496 420 0x008, .imadw ⟨10, 3, false⟩ .n32 (.w 28) (.sp 5) (.c 16) (some (.w 36))),
    (word 3 4 1 0x007 432 114 436 480 0x000, .iadd64 ⟨3, 4, true⟩ false (.w 48) (.v 114) (.w 52)),
    (word 11 4 1 0x008 384 481 136 480 0x000, .imin ⟨11, 4, true⟩ .i32 (.w 0) (.c 1) (.v 136)),
    (word 3 4 1 0x009 72 489 144 480 0x008, .imax ⟨3, 4, true⟩ .n32 (.v 72) (.c 9) (.v 144)),
    (word 11 4 1 0x00A 80 497 480 480 0x000, .iabs ⟨11, 4, true⟩ (.v 80) (.c 17)),
    (word 2 3 0 0x00B 428 174 432 480 0x010, .and ⟨2, 3, false⟩ .i64 (.w 44) (.v 174) (.w 48)),
    (word 9 2 1 0x00C 186 444 190 480 0x018, .or ⟨9, 2, true⟩ .n64 (.v 186) (.w 60) (.v 190))] = true := by decide +kernel

theorem test_decodeInteger2 : reads [
    (word 0 1 0 0x00D 101 172 423 480 0x000, .xor ⟨0, 1, false⟩ .i32 (.v 101) (.v 172) (.w 39)),
    (word 8 1 0 0x011 429 180 431 480 0x008, .shl ⟨8, 1, false⟩ .n32 (.w 45) (.v 180) (.w 47)),
    (word 0 1 0 0x012 424 234 428 480 0x010, .shr ⟨0, 1, false⟩ .i64 (.w 40) (.v 234) (.w 44)),
    (word 7 0 1 0x013 246 440 250 480 0x018, .sar ⟨7, 0, true⟩ .n64 (.v 246) (.w 56) (.v 250)),
    (word 14 7 0 0x017 131 454 485 480 0x000, .rotl ⟨14, 7, false⟩ .i32 (.v 131) (.sp 6) (.c 5)),
    (word 6 7 0 0x018 395 462 493 212 0x008, .bfe ⟨6, 7, false⟩ .n32 (.w 11) (.sp 14) (.c 13) (.v 212)),
    (word 15 0 1 0x019 404 501 220 407 0x000, .bfi ⟨15, 0, true⟩ (.w 20) (.c 21) (.v 220) (.w 23)),
    (word 8 1 0 0x01A 413 228 480 480 0x000, .popc ⟨8, 1, false⟩ (.w 29) (.v 228)),
    (word 15 0 1 0x01B 164 485 480 480 0x000, .clz ⟨15, 0, true⟩ (.v 164) (.c 5)),
    (word 6 7 0 0x01C 171 452 480 480 0x000, .brev ⟨6, 7, false⟩ (.v 171) (.sp 4)),
    (word 13 6 1 0x01D 180 501 252 480 0x200, .sel ⟨13, 6, true⟩ .i32 0 true (.v 180) (.c 21) (.v 252)),
    (word 7 0 1 0x01E 5 508 259 480 0x008, .iset ⟨7, 0, true⟩ .n32 .eq 5 (.c 28) (.v 259))] = true := by decide +kernel

theorem test_decodeInteger3 : reads [
    (word 14 7 0 0x01E 5 6 392 480 0x050, .iset ⟨14, 7, false⟩ .i64 .ne 5 (.v 6) (.w 8)),
    (word 5 6 1 0x01F 5 2 3 480 0x000, .pset ⟨5, 6, true⟩ .and 5 2 3),
    (word 12 5 0 0x020 416 34 480 480 0x018, .mov ⟨12, 5, false⟩ .n64 (.w 32) (.v 34)),
    (word 2 3 0 0x023 215 454 505 288 0x000, .lea ⟨2, 3, false⟩ (.v 215) (.sp 6) (.c 25) (.v 288)),
    (word 11 4 1 0x024 62 384 295 418 0x000, .lea64 ⟨11, 4, true⟩ .i32 (.v 62) (.w 0) (.v 295) (.w 34)),
    (word 3 4 1 0x025 424 489 304 480 0x008, .idiv ⟨3, 4, true⟩ .n32 (.w 40) (.c 9) (.v 304)),
    (word 11 4 1 0x026 240 497 312 480 0x000, .irem ⟨11, 4, true⟩ .i32 (.v 240) (.c 17) (.v 312)),
    (word 3 4 1 0x027 248 480 480 480 0x000, .p2v ⟨3, 4, true⟩ (.v 248)),
    (word 9 2 1 0x028 480 445 450 480 0x000, .v2p ⟨9, 2, true⟩ (.w 61) (.sp 2)),
    (word 1 2 1 0x001 228 410 333 151 0x00D, .iaddi ⟨1, 2, true⟩ (.v 228) (.w 26) 0xA6A5C0D),
    (word 11 4 1 0x00E 418 484 505 206 0x357, .andi ⟨11, 4, true⟩ (.w 34) (.c 4) 0xFCB3B57),
    (word 5 6 1 0x00F 248 430 165 262 0x2A1, .ori ⟨5, 6, true⟩ (.v 248) (.w 46) 0x52C1AA1)] = true := by decide +kernel

theorem test_decodeInteger4 : reads [
    (word 15 0 1 0x010 258 504 337 318 0x1EB, .xori ⟨15, 0, true⟩ (.v 258) (.c 24) 0xA8CF9EB),
    (word 9 2 1 0x014 384 386 0 0 0x01D, .shli ⟨9, 2, true⟩ (.w 0) (.w 2) 0x1D),
    (word 3 4 1 0x015 278 492 0 0 0x007, .shri ⟨3, 4, true⟩ (.v 278) (.c 12) 0x7),
    (word 13 6 1 0x016 288 406 0 0 0x011, .sari ⟨13, 6, true⟩ (.v 288) (.w 22) 0x11),
    (word 7 0 1 0x021 414 480 2 29 0x313, .movi ⟨7, 0, true⟩ (.w 30) 0x107713),
    (word 15 0 1 0x022 306 488 0 31 0x01C, .movh ⟨15, 0, true⟩ (.v 306) (.c 8) 0x7C1C),
    (word 9 2 1 0x01E 3 414 460 480 0x088, .iset ⟨9, 2, true⟩ .n32 .lt 3 (.w 30) (.sp 12)),
    (word 0 1 0 0x01E 3 330 396 480 0x0D0, .iset ⟨0, 1, false⟩ .i64 .le 3 (.v 330) (.w 12)),
    (word 7 0 1 0x01E 3 408 346 480 0x118, .iset ⟨7, 0, true⟩ .n64 .gt 3 (.w 24) (.v 346)),
    (word 14 7 0 0x01E 3 459 500 480 0x140, .iset ⟨14, 7, false⟩ .i32 .ge 3 (.sp 11) (.c 20)),
    (word 5 6 1 0x01F 3 2 3 480 0x040, .pset ⟨5, 6, true⟩ .or 3 2 3),
    (word 12 5 0 0x01F 3 1 2 480 0x080, .pset ⟨12, 5, false⟩ .xor 3 1 2)] = true := by decide +kernel

theorem test_decodeInteger5 : reads [
    (word 3 4 1 0x01F 3 0 1 480 0x0C0, .pset ⟨3, 4, true⟩ .andn 3 0 1),
    (word 10 3 0 0x01F 3 7 0 480 0x100, .pset ⟨10, 3, false⟩ .orn 3 7 0),
    (word 1 2 1 0x01F 3 6 7 480 0x140, .pset ⟨1, 2, true⟩ .nand 3 6 7),
    (word 8 1 0 0x01F 3 5 6 480 0x180, .pset ⟨8, 1, false⟩ .nor 3 5 6),
    (word 15 0 1 0x01F 3 4 5 480 0x1C0, .pset ⟨15, 0, true⟩ .xnor 3 4 5)] = true := by decide +kernel

theorem test_decodeFloat1 : reads [
    (word 15 0 1 0x040 260 485 332 480 0x000, .fadd ⟨15, 0, true⟩ .rn (.v 260) (.c 5) (.v 332)),
    (word 7 0 1 0x041 396 493 340 480 0x001, .fsub ⟨7, 0, true⟩ .rz (.w 12) (.c 13) (.v 340)),
    (word 15 0 1 0x042 276 501 348 480 0x002, .fmul ⟨15, 0, true⟩ .ru (.v 276) (.c 21) (.v 348)),
    (word 7 0 1 0x043 284 509 356 415 0x003, .ffma ⟨7, 0, true⟩ .rd (.v 284) (.c 29) (.v 356) (.w 31)),
    (word 0 1 0 0x044 293 364 423 480 0x000, .fmin ⟨0, 1, false⟩ (.v 293) (.v 364) (.w 39)),
    (word 8 1 0 0x045 429 72 431 480 0x000, .fmax ⟨8, 1, false⟩ (.w 45) (.v 72) (.w 47)),
    (word 0 1 0 0x046 0 79 438 480 0x000, .fset ⟨0, 1, false⟩ .eq 0 (.v 79) (.w 54)),
    (word 7 0 1 0x047 444 509 88 480 0x000, .famax ⟨7, 0, true⟩ (.w 60) (.c 29) (.v 88)),
    (word 15 0 1 0x047 324 485 480 480 0x040, .fneg ⟨15, 0, true⟩ (.v 324) (.c 5)),
    (word 6 7 0 0x047 395 465 480 480 0x080, .fabs ⟨6, 7, false⟩ (.w 11) (.sp 17)),
    (word 13 6 1 0x048 338 403 480 480 0x000, .frcp ⟨13, 6, true⟩ (.v 338) (.w 19)),
    (word 4 5 0 0x049 345 116 480 480 0x000, .frsq ⟨4, 5, false⟩ (.v 345) (.v 116))] = true := by decide +kernel

theorem test_decodeFloat2 : reads [
    (word 11 4 1 0x04A 416 481 480 480 0x000, .fsqrt ⟨11, 4, true⟩ .rn (.w 32) (.c 1)),
    (word 2 3 0 0x04B 359 451 480 480 0x000, .fex2 ⟨2, 3, false⟩ (.v 359) (.sp 3)),
    (word 9 2 1 0x04C 366 431 480 480 0x000, .flg2 ⟨9, 2, true⟩ (.v 366) (.w 47)),
    (word 0 1 0 0x04D 437 144 480 480 0x000, .fsin ⟨0, 1, false⟩ (.w 53) (.v 144)),
    (word 7 0 1 0x04E 0 509 480 480 0x000, .fcos ⟨7, 0, true⟩ (.v 0) (.c 29)),
    (word 14 7 0 0x04F 7 458 485 480 0x001, .fscale ⟨14, 7, false⟩ .rz (.v 7) (.sp 10) (.c 5)),
    (word 6 7 0 0x050 15 466 480 480 0x002, .frnd ⟨6, 7, false⟩ .ru (.v 15) (.sp 18)),
    (word 13 6 1 0x051 22 403 480 480 0x000, .fclass ⟨13, 6, true⟩ .f32 (.v 22) (.w 19)),
    (word 4 5 0 0x052 409 180 411 480 0x023, .hadd2 ⟨4, 5, false⟩ .rd (.w 25) (.v 180) (.w 27)),
    (word 12 5 0 0x053 37 188 419 480 0x020, .hmul2 ⟨12, 5, false⟩ .rn (.v 37) (.v 188) (.w 35)),
    (word 4 5 0 0x054 45 196 427 456 0x021, .hfma2 ⟨4, 5, false⟩ .rz (.v 45) (.v 196) (.w 43) (.sp 8)),
    (word 13 6 1 0x055 54 435 464 480 0x02A, .badd2 ⟨13, 6, true⟩ .ru (.v 54) (.w 51) (.sp 16))] = true := by decide +kernel

theorem test_decodeFloat3 : reads [
    (word 5 6 1 0x056 442 443 451 480 0x02B, .bmul2 ⟨5, 6, true⟩ .rd (.w 58) (.w 59) (.sp 3)),
    (word 13 6 1 0x057 70 387 459 485 0x028, .bfma2 ⟨13, 6, true⟩ .rn (.v 70) (.w 3) (.sp 11) (.c 5)),
    (word 6 7 0 0x058 396 493 232 480 0x060, .hmnx2 ⟨6, 7, false⟩ true (.w 12) (.c 13) (.v 232)),
    (word 15 0 1 0x059 405 240 407 480 0x028, .bmnx2 ⟨15, 0, true⟩ false (.w 21) (.v 240) (.w 23)),
    (word 8 1 0 0x05A 96 414 480 480 0x0C4, .cvt ⟨8, 1, false⟩ (.ff .e4m3 .f32) true .rn (.v 96) (.w 30)),
    (word 15 0 1 0x05A 103 255 480 480 0x012, .cvt ⟨15, 0, true⟩ (.ff .f32 .bf16) false .ru (.v 103) (.v 255)),
    (word 6 7 0 0x05A 426 214 480 480 0x1CB, .cvt ⟨6, 7, false⟩ (.ofInt .n64 .f16) false .rd (.w 42) (.v 214)),
    (word 12 5 0 0x05A 222 267 480 480 0x281, .cvt ⟨12, 5, false⟩ (.toInt .i64 .f32) false .rz (.v 222) (.v 267)),
    (word 2 3 0 0x05A 438 504 480 480 0x25A, .cvt ⟨2, 3, false⟩ (.toInt .n32 .e4m3) false .ru (.w 54) (.c 24)),
    (word 9 2 1 0x05B 130 447 456 480 0x021, .cvtp ⟨9, 2, true⟩ .f16x2 .rz (.v 130) (.w 63) (.sp 8)),
    (word 1 2 1 0x05C 392 489 292 395 0x004, .e4pk ⟨1, 2, true⟩ false true (.w 8) (.c 9) (.v 292) (.w 11)),
    (word 12 5 0 0x05D 150 403 480 480 0x0C0, .e4up ⟨12, 5, false⟩ 3 (.v 150) (.w 19))] = true := by decide +kernel

theorem test_decodeFloat4 : reads [
    (word 4 5 0 0x05E 157 308 411 463 0x02A, .fdot2 ⟨4, 5, false⟩ .bf16x2 .ru (.v 157) (.v 308) (.w 27) (.sp 15)),
    (word 6 7 0 0x051 327 467 480 480 0x008, .fclass ⟨6, 7, false⟩ .f16 (.v 327) (.sp 19)),
    (word 13 6 1 0x051 386 387 480 480 0x010, .fclass ⟨13, 6, true⟩ .bf16 (.w 2) (.w 3)),
    (word 4 5 0 0x051 341 352 480 480 0x018, .fclass ⟨4, 5, false⟩ .e4m3 (.v 341) (.v 352)),
    (word 6 7 0 0x046 3 452 492 480 0x040, .fset ⟨6, 7, false⟩ .ne 3 (.sp 4) (.c 12)),
    (word 13 6 1 0x046 3 434 460 480 0x080, .fset ⟨13, 6, true⟩ .lt 3 (.w 50) (.sp 12)),
    (word 4 5 0 0x046 3 163 442 480 0x0C0, .fset ⟨4, 5, false⟩ .le 3 (.v 163) (.w 58)),
    (word 11 4 1 0x046 3 480 171 480 0x100, .fset ⟨11, 4, true⟩ .gt 3 (.c 0) (.v 171)),
    (word 2 3 0 0x046 3 459 488 480 0x140, .fset ⟨2, 3, false⟩ .ge 3 (.sp 11) (.c 8)),
    (word 9 2 1 0x046 3 398 467 480 0x180, .fset ⟨9, 2, true⟩ .uo 3 (.w 14) (.sp 19)),
    (word 0 1 0 0x046 3 191 406 480 0x1C0, .fset ⟨0, 1, false⟩ .ord 3 (.v 191) (.w 22))] = true := by decide +kernel

theorem test_decodeControl1 : reads [
    (word 13 6 1 0x080 480 480 480 480 0x000, .nop ⟨13, 6, true⟩),
    (word 1 2 1 0x082 480 330 452 480 0x000, .brx ⟨1, 2, true⟩ (.v 330) (.sp 4)),
    (word 7 0 1 0x084 480 342 480 480 0x000, .ret ⟨7, 0, true⟩ (.v 342)),
    (word 12 5 0 0x085 480 480 480 480 0x000, .exit ⟨12, 5, false⟩),
    (word 0 1 0 0x086 480 480 480 480 0x003, .sign ⟨0, 1, false⟩ 3),
    (word 5 6 1 0x087 480 480 480 480 0x008, .join ⟨5, 6, true⟩ 8),
    (word 10 3 0 0x088 191 480 480 480 0x00D, .joinr ⟨10, 3, false⟩ 13 191 (.c 0)),
    (word 1 2 1 0x089 480 463 480 480 0x004, .cdecl ⟨1, 2, true⟩ 4 .add (.sp 15)),
    (word 7 0 1 0x08A 480 480 480 480 0x000, .yield ⟨7, 0, true⟩),
    (word 11 4 1 0x08B 480 495 480 480 0x000, .sleep ⟨11, 4, true⟩ (.c 15)),
    (word 0 1 0 0x08C 480 480 480 480 0x253, .brk ⟨0, 1, false⟩ 595),
    (word 5 6 1 0x08D 480 480 480 480 0x000, .isync ⟨5, 6, true⟩)] = true := by decide +kernel

theorem test_decodeControl2 : reads [
    (word 9 2 1 0x08E 480 58 466 480 0x000, .icinv ⟨9, 2, true⟩ .wg (.v 58) (.sp 18)),
    (word 15 0 1 0x08F 480 483 480 480 0x000, .trap ⟨15, 0, true⟩ (.c 3)),
    (word 9 2 1 0x081 480 480 107 27 0x365, .bra ⟨9, 2, true⟩ 0x3586F65),
    (word 15 0 1 0x083 234 480 312 368 0x22B, .call ⟨15, 0, true⟩ 234 0x9C5C22B),
    (word 7 0 1 0x089 480 198 480 480 0x01A, .cdecl ⟨7, 0, true⟩ 10 .minI (.v 198)),
    (word 13 6 1 0x089 480 465 480 480 0x020, .cdecl ⟨13, 6, true⟩ 0 .maxI (.sp 17)),
    (word 3 4 1 0x089 480 210 480 480 0x036, .cdecl ⟨3, 4, true⟩ 6 .minN (.v 210)),
    (word 9 2 1 0x089 480 456 480 480 0x04C, .cdecl ⟨9, 2, true⟩ 12 .maxN (.sp 8)),
    (word 15 0 1 0x089 480 222 480 480 0x052, .cdecl ⟨15, 0, true⟩ 2 .and (.v 222)),
    (word 5 6 1 0x089 480 468 480 480 0x068, .cdecl ⟨5, 6, true⟩ 8 .or (.sp 20))] = true := by decide +kernel

theorem test_decodeMemory1 : reads [
    (word 4 5 0 0x0A0 233 404 458 480 0x048, .ld ⟨4, 5, false⟩ .cl .dflt true .byte 233 (.w 20) (.sp 10)),
    (word 12 5 0 0x0A0 241 420 466 480 0x099, .ld ⟨12, 5, false⟩ .die .strm true .half 241 (.w 36) (.sp 18)),
    (word 4 5 0 0x0A1 480 432 441 443 0x0E2, .st ⟨4, 5, false⟩ .dev .stky .word (.w 48) (.w 57) (.w 59)),
    (word 12 5 0 0x0A1 480 384 385 134 0x133, .st ⟨12, 5, false⟩ .sys .byp .double (.w 0) (.w 1) (.v 134)),
    (word 4 5 0 0x0A2 146 404 448 480 0x003, .lda ⟨4, 5, false⟩ .wg .dflt false .double 146 (.w 20) (.sp 0)),
    (word 12 5 0 0x0A3 480 416 401 403 0x050, .strl ⟨12, 5, false⟩ .cl .strm .byte (.w 32) (.w 17) (.w 19)),
    (word 4 5 0 0x0A4 281 410 464 480 0x009, .ldt ⟨4, 5, false⟩ true .half 281 (.w 26) (.sp 16)),
    (word 12 5 0 0x0A5 480 142 417 291 0x002, .stt ⟨12, 5, false⟩ .word (.v 142) (.w 33) (.v 291)),
    (word 4 5 0 0x0A5 480 150 425 406 0x003, .stt ⟨4, 5, false⟩ .double (.v 150) (.w 41) (.w 22)),
    (word 12 5 0 0x0A6 480 416 433 480 0x0A0, .pref ⟨12, 5, false⟩ .die .stky (.w 32) (.w 49)),
    (word 2 3 0 0x0A7 480 428 503 480 0x0C0, .cwb ⟨2, 3, false⟩ .dev (.w 44) (.c 23)),
    (word 8 1 0 0x0A8 480 440 445 480 0x100, .cinv ⟨8, 1, false⟩ .sys (.w 56) (.w 61))] = true := by decide +kernel

theorem test_decodeMemory2 : reads [
    (word 14 7 0 0x0A9 480 388 483 480 0x030, .chint ⟨14, 7, false⟩ .byp (.w 4) (.c 3)),
    (word 4 5 0 0x0AA 328 183 480 480 0x000, .own ⟨4, 5, false⟩ 328 (.v 183)),
    (word 10 3 0 0x0AB 480 452 495 480 0x000, .tgive ⟨10, 3, false⟩ (.sp 4) (.c 15)),
    (word 0 1 0 0x0AC 480 194 405 480 0x000, .ttake ⟨0, 1, false⟩ (.v 194) (.w 21)),
    (word 1 2 1 0x0A0 216 302 504 480 0x0C4, .ld ⟨1, 2, true⟩ .dev .dflt false .quad 216 (.v 302) (.c 24))] = true := by decide +kernel

theorem test_decodeViews : reads [
    (word 6 7 0 0x0C0 348 314 204 480 0x019, .vset ⟨6, 7, false⟩ 25 (some 348) (.v 314) (.v 204)),
    (word 15 0 1 0x0C1 480 480 480 480 0x022, .vclr ⟨15, 0, true⟩ 34),
    (word 4 5 0 0x0C2 361 426 480 480 0x027, .vqry ⟨4, 5, false⟩ 39 361 (.w 42)),
    (word 11 4 1 0x0C3 350 416 223 480 0x000, .vaddrIa ⟨11, 4, true⟩ (.v 350) (.w 32) (.v 223)),
    (word 2 3 0 0x0C3 428 366 504 480 0x040, .vaddrVa ⟨2, 3, false⟩ (.w 44) (.v 366) (.c 24)),
    (word 9 2 1 0x0C4 480 458 480 480 0x03C, .vfill ⟨9, 2, true⟩ 60 (.sp 10))] = true := by decide +kernel

theorem test_decodeAtomics1 : reads [
    (word 15 0 1 0x0E0 11 392 243 390 0x000, .atom ⟨15, 0, true⟩ .add .i32 .wg (.v 11) (.w 8) (.v 243) (.w 6)),
    (word 7 0 1 0x0E0 19 408 251 398 0x049, .atom ⟨7, 0, true⟩ .and .n32 .cl (.v 19) (.w 24) (.v 251) (.w 14)),
    (word 15 0 1 0x0E1 38 424 259 88 0x012, .acas ⟨15, 0, true⟩ .i64 .die (.v 38) (.w 40) (.v 259) 88),
    (word 7 0 1 0x0E2 27 440 267 414 0x003, .atomf ⟨7, 0, true⟩ .add .dev 27 (.w 56) (.v 267) (.w 30)),
    (word 15 0 1 0x0E3 480 70 274 74 0x09C, .red ⟨15, 0, true⟩ .or .n64 .sys (.v 70) (.v 274) (.v 74)),
    (word 6 7 0 0x0E3 480 404 491 282 0x0C0, .red ⟨6, 7, false⟩ .xor .i32 .wg (.w 20) (.c 11) (.v 282)),
    (word 13 6 1 0x0E4 480 98 468 499 0x041, .redf ⟨13, 6, true⟩ .min .cl (.v 98) (.sp 20) (.c 19)),
    (word 4 5 0 0x0E5 56 114 442 480 0x000, .lease ⟨4, 5, false⟩ 56 (.v 114) (.w 58)),
    (word 11 4 1 0x0E6 63 384 480 480 0x000, .lrel ⟨11, 4, true⟩ 63 (.w 0)),
    (word 1 2 1 0x0E7 69 396 480 480 0x000, .lchk ⟨1, 2, true⟩ 69 (.w 12)),
    (word 7 0 1 0x0E8 75 408 315 412 0x00A, .waita ⟨7, 0, true⟩ .eq .n32 .die 75 (.w 24) (.v 315) (.w 28)),
    (word 15 0 1 0x0E9 480 499 322 480 0x000, .awinit ⟨15, 0, true⟩ (.c 19) (.v 322))] = true := by decide +kernel

theorem test_decodeAtomics2 : reads [
    (word 5 6 1 0x0EA 90 411 468 480 0x000, .awadd ⟨5, 6, true⟩ (some 90) (.w 27) (.sp 20)),
    (word 13 6 1 0x0EB 98 419 455 480 0x000, .awwait ⟨13, 6, true⟩ (some 98) (.w 35) (.sp 7)),
    (word 11 4 1 0x0E0 143 384 235 386 0x10C, .atom ⟨11, 4, true⟩ .min .n32 .sys (.v 143) (.w 0) (.v 235) (.w 2)),
    (word 3 4 1 0x0E0 270 400 243 404 0x150, .atom ⟨3, 4, true⟩ .max .i64 .wg (.v 270) (.w 16) (.v 243) (.w 20)),
    (word 11 4 1 0x0E0 286 416 251 420 0x199, .atom ⟨11, 4, true⟩ .exch .n64 .cl (.v 286) (.w 32) (.v 251) (.w 36)),
    (word 3 4 1 0x0E0 167 432 259 410 0x1C2, .atom ⟨3, 4, true⟩ .inc .i32 .die (.v 167) (.w 48) (.v 259) (.w 26)),
    (word 11 4 1 0x0E0 175 384 267 418 0x20B, .atom ⟨11, 4, true⟩ .dec .n32 .dev (.v 175) (.w 0) (.v 267) (.w 34)),
    (word 3 4 1 0x0E2 167 400 275 426 0x084, .atomf ⟨3, 4, true⟩ .max .sys 167 (.w 16) (.v 275) (.w 42)),
    (word 11 4 1 0x0E2 175 416 283 434 0x0C0, .atomf ⟨11, 4, true⟩ .exch .wg 175 (.w 32) (.v 283) (.w 50)),
    (word 3 4 1 0x0E8 183 432 291 436 0x041, .waita ⟨3, 4, true⟩ .ne .i32 .cl 183 (.w 48) (.v 291) (.w 52)),
    (word 11 4 1 0x0E8 191 384 299 388 0x08A, .waita ⟨11, 4, true⟩ .lt .n32 .die 191 (.w 0) (.v 299) (.w 4)),
    (word 3 4 1 0x0E8 199 400 307 404 0x0C3, .waita ⟨3, 4, true⟩ .ge .i32 .dev 199 (.w 16) (.v 307) (.w 20))] = true := by decide +kernel

theorem test_decodeOrdering : reads [
    (word 5 6 1 0x100 480 480 480 480 0x003, .fence ⟨5, 6, true⟩ .acq .dev),
    (word 9 2 1 0x101 480 465 480 480 0x10C, .barSync ⟨9, 2, true⟩ .sys 12 (.sp 17)),
    (word 15 0 1 0x101 480 354 480 480 0x012, .barArrive ⟨15, 0, true⟩ .wg 2 (.v 354)),
    (word 5 6 1 0x101 480 480 480 480 0x068, .barWait ⟨5, 6, true⟩ .cl 8),
    (word 10 3 0 0x102 480 511 480 480 0x005, .cbarSync ⟨10, 3, false⟩ .cl 5 (.c 31)),
    (word 0 1 0 0x102 480 389 480 480 0x093, .cbarArrive ⟨0, 1, false⟩ .die 3 (.w 5)),
    (word 6 7 0 0x102 480 480 480 480 0x0E1, .cbarWait ⟨6, 7, false⟩ .dev 1),
    (word 11 4 1 0x103 480 480 480 480 0x000, .efence ⟨11, 4, true⟩),
    (word 11 4 1 0x102 480 358 480 480 0x106, .cbarSync ⟨11, 4, true⟩ .sys 6 (.v 358)),
    (word 11 4 1 0x100 480 480 480 480 0x00C, .fence ⟨11, 4, true⟩ .rel .sys),
    (word 15 0 1 0x100 480 480 480 480 0x010, .fence ⟨15, 0, true⟩ .ar .wg),
    (word 3 4 1 0x100 480 480 480 480 0x019, .fence ⟨3, 4, true⟩ .sc .cl)] = true := by decide +kernel

theorem test_decodeMatrix1 : reads [
    (word 15 0 1 0x120 5 406 464 505 0x000, .tmma ⟨15, 0, true⟩ .bf16 0 .off 0 5 (.w 22) (.sp 16) (some 9)),
    (word 10 3 0 0x121 16 99 418 500 0x11E, .tmmau ⟨10, 3, false⟩ .f16 0 .a 14 16 (.v 99) (.w 34) (some 4)),
    (word 5 6 1 0x122 26 463 492 510 0x028, .tperm ⟨5, 6, true⟩ .bf16 .b 8 26 (.sp 15) (.c 12) (some 14)),
    (word 15 0 1 0x123 36 119 480 503 0x132, .ttrn ⟨15, 0, true⟩ .f16 .d 2 36 (.v 119) (some 7)),
    (word 8 1 0 0x124 46 462 480 480 0x040, .trsum ⟨8, 1, false⟩ .bf16 true .off 0 46 (.sp 14) none),
    (word 1 2 1 0x125 6 480 480 504 0x034, .tzero ⟨1, 2, true⟩ .d 4 6 (some 8)),
    (word 9 2 1 0x126 14 457 480 497 0x03C, .tlda ⟨9, 2, true⟩ .f32 .d 12 14 (.sp 9) (some 1)),
    (word 2 3 0 0x127 24 155 410 480 0x036, .tsta ⟨2, 3, false⟩ .f32 0 .d 6 24 (.v 155) (.w 26) none),
    (word 12 5 0 0x128 480 480 480 480 0x007, .tcommit ⟨12, 5, false⟩ 7),
    (word 1 2 1 0x129 231 480 480 480 0x004, .twait ⟨1, 2, true⟩ 4 (some 231)),
    (word 8 1 0 0x12A 237 480 480 480 0x003, .ttest ⟨8, 1, false⟩ 3 237),
    (word 14 7 0 0x12B 480 182 480 480 0x006, .tscl ⟨14, 7, false⟩ true 2 (.v 182))] = true := by decide +kernel

theorem test_decodeMatrix2 : reads [
    (word 5 6 1 0x12C 480 436 480 480 0x008, .tpred ⟨5, 6, true⟩ .set 8 none (some (.w 52))),
    (word 11 4 1 0x12D 480 480 480 480 0x000, .tcls ⟨11, 4, true⟩ none (.c 0)),
    (word 1 2 1 0x12E 263 480 480 480 0x004, .tcancel ⟨1, 2, true⟩ 4 (some 263)),
    (word 7 0 1 0x120 29 414 464 497 0x280, .tmma ⟨7, 0, true⟩ .e4m3 2 .off 0 29 (.w 30) (.sp 16) (some 1)),
    (word 2 3 0 0x126 39 488 480 506 0x115, .tlda ⟨2, 3, false⟩ .bf16 .a 5 39 (.c 8) (some 10)),
    (word 11 4 1 0x126 0 347 480 499 0x23E, .tlda ⟨11, 4, true⟩ .f16 .d 14 0 (.v 347) (some 3)),
    (word 4 5 0 0x127 10 450 508 510 0x138, .tsta ⟨4, 5, false⟩ .bf16 0 .d 8 10 (.sp 2) (.c 28) (some 14)),
    (word 15 0 1 0x127 21 390 462 480 0x200, .tsta ⟨15, 0, true⟩ .f16 0 .off 0 21 (.w 6) (.sp 14) none),
    (word 9 2 1 0x127 31 496 79 499 0x31D, .tsta ⟨9, 2, true⟩ .e4m3 0 .a 13 31 (.c 16) (.v 79) (some 3)),
    (word 4 5 0 0x12C 480 178 480 480 0x107, .tpred ⟨4, 5, false⟩ .or 7 none (some (.v 178))),
    (word 10 3 0 0x12C 480 190 480 480 0x20D, .tpred ⟨10, 3, false⟩ .andn 13 none (some (.v 190))),
    (word 0 1 0 0x12C 202 480 480 480 0x303, .tpred ⟨0, 1, false⟩ .rd 3 (some (.v 202)) none)] = true := by decide +kernel

theorem test_decodeDelta : reads [
    (word 8 1 0 0x160 269 208 480 480 0x000, .dslot ⟨8, 1, false⟩ (some 269) (.v 208)),
    (word 15 0 1 0x161 35 500 215 503 0x000, .dmul ⟨15, 0, true⟩ 35 (.c 20) (.v 215) (some 7)),
    (word 8 1 0 0x162 480 222 480 480 0x000, .dfresh ⟨8, 1, false⟩ (.v 222)),
    (word 13 6 1 0x163 290 419 480 480 0x000, .dinval ⟨13, 6, true⟩ (some 290) (.w 35)),
    (word 4 5 0 0x164 296 235 426 480 0x000, .dstat ⟨4, 5, false⟩ 296 (.v 235) (.w 42))] = true := by decide +kernel

theorem test_decodeEngines1 : reads [
    (word 11 4 1 0x170 313 498 245 480 0x000, .cpy ⟨11, 4, true⟩ (some (.v 313)) (.c 18) (.v 245)),
    (word 4 5 0 0x170 480 251 442 480 0x001, .cpyx ⟨4, 5, false⟩ none (.v 251) (.w 58)),
    (word 11 4 1 0x170 329 482 261 480 0x002, .cpyk ⟨11, 4, true⟩ (some (.v 329)) (.c 2) (.v 261)),
    (word 4 5 0 0x170 480 267 394 480 0x003, .cpyz ⟨4, 5, false⟩ none (.v 267) (.w 10)),
    (word 11 4 1 0x170 401 498 277 480 0x004, .bsopen ⟨11, 4, true⟩ (some (.w 17)) (.c 18) (.v 277)),
    (word 4 5 0 0x170 480 283 410 480 0x005, .bsrow ⟨4, 5, false⟩ none (.v 283) (.w 26)),
    (word 11 4 1 0x170 361 482 480 480 0x006, .bsclose ⟨11, 4, true⟩ (some (.v 361)) (.c 2)),
    (word 3 4 1 0x170 425 490 301 480 0x007, .cstat ⟨3, 4, true⟩ (some (.w 41)) (.c 10) (.v 301)),
    (word 12 5 0 0x170 480 307 434 480 0x080, .bkon ⟨12, 5, false⟩ none (.v 307) (.w 50)),
    (word 3 4 1 0x170 5 506 480 480 0x081, .bkoff ⟨3, 4, true⟩ (some (.v 5)) (.c 26)),
    (word 11 4 1 0x170 385 482 325 480 0x082, .bkact ⟨11, 4, true⟩ (some (.w 1)) (.c 2) (.v 325)),
    (word 4 5 0 0x170 480 331 394 480 0x083, .bkbc ⟨4, 5, false⟩ none (.v 331) (.w 10))] = true := by decide +kernel

theorem test_decodeEngines2 : reads [
    (word 11 4 1 0x170 29 498 341 480 0x084, .bkmac ⟨11, 4, true⟩ (some (.v 29)) (.c 18) (.v 341)),
    (word 4 5 0 0x170 480 347 410 480 0x085, .bkred ⟨4, 5, false⟩ none (.v 347) (.w 26)),
    (word 11 4 1 0x170 45 482 357 480 0x086, .bkrd ⟨11, 4, true⟩ (some (.v 45)) (.c 2) (.v 357)),
    (word 4 5 0 0x170 480 363 426 480 0x087, .bkclr ⟨4, 5, false⟩ none (.v 363) (.w 42)),
    (word 11 4 1 0x170 433 498 73 480 0x100, .maxpy ⟨11, 4, true⟩ (some (.w 49)) (.c 18) (.v 73)),
    (word 4 5 0 0x170 480 79 442 480 0x101, .mscal ⟨4, 5, false⟩ none (.v 79) (.w 58)),
    (word 11 4 1 0x170 77 482 89 480 0x102, .msum ⟨11, 4, true⟩ (some (.v 77)) (.c 2) (.v 89)),
    (word 4 5 0 0x170 480 95 394 480 0x103, .mfill ⟨4, 5, false⟩ none (.v 95) (.w 10)),
    (word 11 4 1 0x170 93 498 105 480 0x180, .fput ⟨11, 4, true⟩ (some (.v 93)) (.c 18) (.v 105)),
    (word 4 5 0 0x170 480 111 410 480 0x181, .fputs ⟨4, 5, false⟩ none (.v 111) (.w 26)),
    (word 11 4 1 0x170 417 482 121 480 0x182, .fget ⟨11, 4, true⟩ (some (.w 33)) (.c 2) (.v 121)),
    (word 4 5 0 0x170 480 127 426 480 0x183, .wcnt ⟨4, 5, false⟩ none (.v 127) (.w 42))] = true := by decide +kernel

theorem test_decodeSystem1 : reads [
    (word 11 4 1 0x180 124 480 480 480 0x000, .srd ⟨11, 4, true⟩ .fpflags false (.v 124) (.c 0)),
    (word 1 2 1 0x181 480 480 502 480 0x001, .swr ⟨1, 2, true⟩ .ctl false (.c 0) (.c 22)),
    (word 7 0 1 0x182 480 507 146 232 0x000, .rgset ⟨7, 0, true⟩ (.c 27) (.v 146) 232),
    (word 14 7 0 0x183 131 451 480 480 0x000, .ctxswOut ⟨14, 7, false⟩ (some 131) (.sp 3)),
    (word 5 6 1 0x183 138 395 480 480 0x001, .ctxswIn ⟨5, 6, true⟩ (some 138) (.w 11)),
    (word 12 5 0 0x183 480 167 480 480 0x002, .ctxswDrop ⟨12, 5, false⟩ none (.v 167)),
    (word 2 3 0 0x184 480 428 503 480 0x080, .pzap ⟨2, 3, false⟩ .die (.w 44) (.c 23)),
    (word 8 1 0 0x185 480 314 414 480 0x000, .launch ⟨8, 1, false⟩ none (.v 314) (.w 30)),
    (word 15 0 1 0x186 480 186 480 480 0x000, .cancel ⟨15, 0, true⟩ false .launch (.v 186)),
    (word 5 6 1 0x187 404 448 480 480 0x001, .cntr ⟨5, 6, true⟩ false .done .graph (.w 20) (.sp 0)),
    (word 12 5 0 0x188 320 480 480 480 0x000, .time ⟨12, 5, false⟩ 320),
    (word 1 2 1 0x189 480 362 480 480 0x000, .waitt ⟨1, 2, true⟩ (.v 362))] = true := by decide +kernel

theorem test_decodeSystem2 : reads [
    (word 6 7 0 0x18A 374 508 480 480 0x001, .perf ⟨6, 7, false⟩ true (.v 374) (.c 28)),
    (word 13 6 1 0x18B 193 386 480 480 0x000, .stopr ⟨13, 6, true⟩ 193 (.w 2)),
    (word 3 4 1 0x18C 201 224 480 480 0x046, .halt ⟨3, 4, true⟩ 70 (some 201) (.v 224)),
    (word 11 4 1 0x18D 480 496 480 480 0x000, .resume ⟨11, 4, true⟩ none (.c 16)),
    (word 6 7 0 0x180 315 480 480 480 0x002, .srd ⟨6, 7, false⟩ .cancel false (.v 315) (.c 0)),
    (word 12 5 0 0x180 226 480 480 480 0x003, .srd ⟨12, 5, false⟩ .ptroot false (.v 226) (.c 0)),
    (word 2 3 0 0x180 238 480 480 480 0x004, .srd ⟨2, 3, false⟩ .vwbase false (.v 238) (.c 0)),
    (word 8 1 0 0x180 250 480 480 480 0x005, .srd ⟨8, 1, false⟩ .slotbase false (.v 250) (.c 0)),
    (word 14 7 0 0x180 262 480 480 480 0x006, .srd ⟨14, 7, false⟩ .stoparea false (.v 262) (.c 0)),
    (word 4 5 0 0x180 274 480 480 480 0x007, .srd ⟨4, 5, false⟩ .ctximg false (.v 274) (.c 0)),
    (word 10 3 0 0x180 286 480 480 480 0x008, .srd ⟨10, 3, false⟩ .ctxlen false (.v 286) (.c 0)),
    (word 0 1 0 0x180 357 480 480 480 0x009, .srd ⟨0, 1, false⟩ .state false (.v 357) (.c 0))] = true := by decide +kernel

theorem test_decodeSystem3 : reads [
    (word 6 7 0 0x180 310 480 480 480 0x010, .srd ⟨6, 7, false⟩ .evq false (.v 310) (.c 0)),
    (word 12 5 0 0x180 369 480 480 480 0x011, .srd ⟨12, 5, false⟩ .evhead false (.v 369) (.c 0)),
    (word 2 3 0 0x180 375 480 480 480 0x012, .srd ⟨2, 3, false⟩ .evtail false (.v 375) (.c 0)),
    (word 8 1 0 0x180 1 480 480 480 0x013, .srd ⟨8, 1, false⟩ .evlost false (.v 1) (.c 0)),
    (word 14 7 0 0x180 358 480 480 480 0x014, .srd ⟨14, 7, false⟩ .faultack false (.v 358) (.c 0)),
    (word 4 5 0 0x180 13 480 480 480 0x015, .srd ⟨4, 5, false⟩ .sfways false (.v 13) (.c 0)),
    (word 10 3 0 0x180 19 480 480 480 0x016, .srd ⟨10, 3, false⟩ .frzctl false (.v 19) (.c 0)),
    (word 0 1 0 0x180 10 480 480 480 0x017, .srd ⟨0, 1, false⟩ .xlinv false (.v 10) (.c 0)),
    (word 6 7 0 0x186 480 491 480 480 0x006, .cancel ⟨6, 7, false⟩ true .phase (.c 11)),
    (word 12 5 0 0x186 480 401 480 480 0x007, .cancel ⟨12, 5, false⟩ true .job (.w 17)),
    (word 2 3 0 0x187 46 504 480 480 0x016, .cntr ⟨2, 3, false⟩ true .total .phase (.v 46) (.c 24)),
    (word 9 2 1 0x187 444 467 480 480 0x00B, .cntr ⟨9, 2, true⟩ false .flags .job (.w 60) (.sp 19))] = true := by decide +kernel

/-- Words that are no instruction, each with the case of R49. -/
def refuses (l : List (Nat × DecodeErr)) : Bool := l.all fun x =>
  match decodeWord x.1 with
  | .ok _ => false
  | .error e => e == x.2

/-- A pair word from its stall count and the fields op6, d8, s8, m7 of slots X and Y (R39). -/
def pairWord (s xo xd xs xm yo yd ys ym : Nat) : Nat :=
  2 ^ 63 + s * 2 ^ 59 + (((xo * 256 + xd) * 256 + xs) * 128 + xm) * 2 ^ 30 + (((yo * 256 + yd) * 256 + ys) * 128 + ym) * 2

theorem test_decodePair : reads [
    (pairWord 6 1 0 2 0 16 0 2 0, .pair 6 ⟨1, 0, 2, 0⟩ ⟨16, 0, 2, 0⟩),
    (pairWord 0 12 191 5 127 13 7 0 64, .pair 0 ⟨12, 191, 5, 127⟩ ⟨13, 7, 0, 64⟩),
    (pairWord 15 9 1 3 31 30 190 191 0, .pair 15 ⟨9, 1, 3, 31⟩ ⟨30, 190, 191, 0⟩)] = true := by decide +kernel

theorem test_refuses_opcode : refuses [
    (0, .unused), (word 1 7 0 0x029 1 1 1 480 0, .opcode),
    (word 1 7 0 0x05F 1 1 1 480 0, .opcode), (word 1 7 0 0x090 480 480 480 480 0, .opcode), (word 1 7 0 0x0AD 480 480 480 480 0, .opcode),
    (word 1 7 0 0x18E 480 480 480 480 0, .opcode), (word 1 7 1 0x1C0 480 480 480 480 0, .opcode),
    (word 15 7 1 0x1FF 511 511 511 511 1023, .opcode)] = true := by decide +kernel

theorem test_refuses_operands : refuses [
    (word 1 7 0 0x000 1 469 2 480 0, .source), (word 1 7 0 0x000 1 2 479 480 0, .source),
    (word 1 7 0 0x000 448 1 2 480 0, .destination), (word 1 7 0 0x000 480 1 2 480 0, .destination),
    (word 1 7 0 0x000 1 2 3 0 0, .unused), (word 1 7 0 0x080 480 480 480 0 0, .unused),
    (word 1 7 0 0x007 2 5 6 480 0, .pairOperand), (word 1 7 0 0x007 2 480 6 480 0, .pairOperand),
    (word 1 7 0 0x00B 2 481 6 480 0x010, .pairOperand), (word 1 7 0 0x006 2 1 1 448 0, .pairOperand),
    (word 1 7 0 0x0A0 5 386 1 480 0x003, .destination), (word 1 7 0 0x0A0 390 386 1 480 0x002, .destination),
    (word 1 7 0 0x120 48 1 1 480 0, .destination), (word 1 7 0 0x120 0 1 1 481 0, .unused)] = true := by decide +kernel

theorem test_refuses_modifiers : refuses [
    (word 1 7 0 0x000 1 2 3 480 0x001, .modifier), (word 1 7 0 0x000 1 2 3 480 0x010, .modifier),
    (word 1 7 0 0x00B 1 2 3 480 0x020, .modifier), (word 1 7 0 0x05A 1 2 480 480 0x000, .modifier),
    (word 1 7 0 0x05A 1 2 480 480 0x300, .modifier), (word 1 7 0 0x0A0 1 386 1 480 0x142, .modifier),
    (word 1 7 0 0x0A0 1 386 1 480 0x005, .modifier), (word 1 7 0 0x0A0 1 386 1 480 0x00A, .modifier),
    (word 1 7 0 0x102 480 1 480 480 0x040, .modifier), (word 1 7 0 0x120 0 1 1 480 0x001, .modifier),
    (word 1 7 0 0x170 480 1 1 480 0x008, .modifier), (word 1 7 0 0x170 480 1 1 480 0x200, .modifier),
    (word 1 7 0 0x180 1 480 480 480 0x00A, .modifier)] = true := by decide +kernel

theorem test_refuses_immediates : refuses [
    (word 1 7 0 0x014 1 2 0 0 32, .immediate), (word 1 7 0 0x022 1 2 0 64 0, .immediate),
    (pairWord 1 31 0 0 0 0 0 0 0, .pairWord), (pairWord 1 0 192 0 0 0 0 0 0, .pairWord), (pairWord 1 9 0 0 32 0 0 0 0, .pairWord),
    (pairWord 1 0 0 0 1 0 0 0 0, .pairWord), (pairWord 1 13 0 1 0 0 0 0 0, .pairWord), (pairWord 1 0 0 0 0 0 0 0 0 + 1, .pairWord)] = true := by
  decide +kernel

/-! Ill-formed instructions, each beside one that differs in the field and is well formed. -/

def only (good bad : Instr) : Bool := good.wf && !bad.wf

theorem test_wf_stall : only (.nop ⟨15, 7, false⟩) (.nop ⟨16, 7, false⟩) = true := rfl
theorem test_wf_guard : only (.nop ⟨1, 7, false⟩) (.nop ⟨1, 8, false⟩) = true := rfl
theorem test_wf_lane : only (.iabs hdr (.v 383) (.v 0)) (.iabs hdr (.v 384) (.v 0)) = true := rfl
theorem test_wf_uniform : only (.iabs hdr (.w 63) (.v 0)) (.iabs hdr (.w 64) (.v 0)) = true := rfl
theorem test_wf_sourceLane : only (.iabs hdr (.v 0) (.v 383)) (.iabs hdr (.v 0) (.v 384)) = true := rfl
theorem test_wf_sourceUniform : only (.iabs hdr (.v 0) (.w 63)) (.iabs hdr (.v 0) (.w 64)) = true := rfl
theorem test_wf_special : only (.iabs hdr (.v 0) (.sp 20)) (.iabs hdr (.v 0) (.sp 21)) = true := rfl
theorem test_wf_constant : only (.iabs hdr (.v 0) (.c 31)) (.iabs hdr (.v 0) (.c 32)) = true := rfl
theorem test_wf_pair : only (.iadd64 hdr false (.v 2) (.w 4) (.v 6)) (.iadd64 hdr false (.v 2) (.w 5) (.v 6)) = true := rfl
theorem test_wf_optionalPair : only (.imadw hdr .i32 (.v 2) (.v 0) (.v 0) none) (.imadw hdr .i32 (.v 2) (.v 0) (.v 0) (some (.v 3))) = true := rfl
theorem test_wf_wideSource : only (.and hdr .n32 (.v 2) (.c 1) (.v 4)) (.and hdr .i64 (.v 2) (.c 1) (.v 4)) = true := rfl
theorem test_wf_wideDestination : only (.mov hdr .n32 (.v 3) (.v 4)) (.mov hdr .i64 (.v 3) (.v 4)) = true := rfl
theorem test_wf_predicate : only (.iset hdr .i32 .eq 6 (.v 0) (.v 1)) (.iset hdr .i32 .eq 7 (.v 0) (.v 1)) = true := rfl
theorem test_wf_predicateSource : only (.pset hdr .and 0 7 7) (.pset hdr .and 0 8 7) = true := rfl
theorem test_wf_select : only (.sel hdr .i32 7 true (.v 0) (.v 1) (.v 2)) (.sel hdr .i32 8 true (.v 0) (.v 1) (.v 2)) = true := rfl
theorem test_wf_immediate : only (.movi hdr (.v 0) 0xFFFFFFF) (.movi hdr (.v 0) 0x10000000) = true := rfl
theorem test_wf_shiftCount : only (.shli hdr (.v 0) (.v 1) 31) (.shli hdr (.v 0) (.v 1) 32) = true := rfl
theorem test_wf_highHalf : only (.movh hdr (.v 0) (.v 1) 65535) (.movh hdr (.v 0) (.v 1) 65536) = true := rfl
theorem test_wf_sameFloat : only (.cvt hdr (.ff .f32 .f16) false .rn (.v 0) (.v 1)) (.cvt hdr (.ff .f16 .f16) false .rn (.v 0) (.v 1)) = true := rfl
theorem test_wf_saturation : only (.cvt hdr (.ff .e4m3 .f32) true .rn (.v 0) (.v 1)) (.cvt hdr (.ff .f16 .f32) true .rn (.v 0) (.v 1)) = true := rfl
theorem test_wf_e4m3Rounding : only (.cvt hdr (.ofInt .i32 .e4m3) true .rn (.v 0) (.v 1)) (.cvt hdr (.ofInt .i32 .e4m3) true .rz (.v 0) (.v 1)) = true := rfl
theorem test_wf_byteNumber : only (.e4up hdr 3 (.v 0) (.v 1)) (.e4up hdr 4 (.v 0) (.v 1)) = true := rfl
theorem test_wf_breakCode : only (.brk hdr 1023) (.brk hdr 1024) = true := rfl
theorem test_wf_haltCode : only (.halt hdr 255 none (.c 0)) (.halt hdr 256 none (.c 0)) = true := rfl
theorem test_wf_convergence : only (.sign hdr 15) (.sign hdr 16) = true := rfl
theorem test_wf_signExtension : only (.ldt hdr true .half 0 (.v 0) (.c 0)) (.ldt hdr true .word 0 (.v 0) (.c 0)) = true := rfl
theorem test_wf_quadGroup : only (.ldt hdr false .quad 4 (.v 0) (.c 0)) (.ldt hdr false .quad 6 (.v 0) (.c 0)) = true := rfl
theorem test_wf_acquireSize : only (.lda hdr .wg .dflt false .double 4 (.w 0) (.c 0)) (.lda hdr .wg .dflt false .quad 4 (.w 0) (.c 0)) = true := rfl
theorem test_wf_releaseSize : only (.strl hdr .wg .dflt .double (.w 0) (.c 0) (.v 4)) (.strl hdr .wg .dflt .quad (.w 0) (.c 0) (.v 4)) = true := rfl
theorem test_wf_storeConstant : only (.stt hdr .word (.v 0) (.c 0) (.c 5)) (.stt hdr .double (.v 0) (.c 0) (.c 5)) = true := rfl
theorem test_wf_storeSpecial : only (.stt hdr .word (.v 0) (.c 0) (.w 5)) (.stt hdr .word (.v 0) (.c 0) (.sp 5)) = true := rfl
theorem test_wf_prefetchHint : only (.pref hdr .wg .stky (.w 0) (.c 0)) (.pref hdr .wg .byp (.w 0) (.c 0)) = true := rfl
theorem test_wf_viewSlot : only (.vclr hdr 63) (.vclr hdr 64) = true := rfl
theorem test_wf_reductionExchange : only (.red hdr .dec .i32 .wg (.w 0) (.c 0) (.c 1)) (.red hdr .exch .i32 .wg (.w 0) (.c 0) (.c 1)) = true := rfl
theorem test_wf_floatExchange : only (.redf hdr .max .wg (.w 0) (.c 0) (.c 1)) (.redf hdr .exch .wg (.w 0) (.c 0) (.c 1)) = true := rfl
theorem test_wf_compareGroup : only (.acas hdr .i64 .wg (.v 2) (.w 0) (.c 0) 4) (.acas hdr .i64 .wg (.v 2) (.w 0) (.c 0) 6) = true := rfl
theorem test_wf_atomicResult : only (.atom hdr .add .i32 .wg (.v 2) (.w 0) (.c 0) (.c 1)) (.atom hdr .add .i32 .wg (.w 2) (.w 0) (.c 0) (.c 1)) = true := rfl
theorem test_wf_barrier : only (.barWait hdr .wg 15) (.barWait hdr .wg 16) = true := rfl
theorem test_wf_clusterBarrier : only (.cbarWait hdr .cl 7) (.cbarWait hdr .cl 8) = true := rfl
theorem test_wf_accumulator : only (.tzero hdr .off 0 47 none) (.tzero hdr .off 0 48 none) = true := rfl
theorem test_wf_guardNumber : only (.tzero hdr .d 3 0 none) (.tzero hdr .off 3 0 none) = true := rfl
theorem test_wf_guardOperand : only (.ttrn hdr .bf16 .a 3 0 (.v 0) none) (.ttrn hdr .bf16 .b 3 0 (.v 0) none) = true := rfl
theorem test_wf_scaleNumber : only (.tmma hdr .e4m3 3 .off 0 0 (.v 0) (.v 1) none) (.tmma hdr .bf16 3 .off 0 0 (.v 0) (.v 1) none) = true := rfl
theorem test_wf_after : only (.tzero hdr .off 0 0 (some 15)) (.tzero hdr .off 0 0 (some 16)) = true := rfl
theorem test_wf_group : only (.tcommit hdr 7) (.tcommit hdr 8) = true := rfl
theorem test_wf_scaleIndex : only (.tscl hdr false 3 (.v 0)) (.tscl hdr false 4 (.v 0)) = true := rfl
theorem test_wf_predicateRead : only (.tpred hdr .rd 0 (some (.v 2)) none) (.tpred hdr .rd 0 none none) = true := rfl
theorem test_wf_predicateSet : only (.tpred hdr .set 0 none (some (.v 2))) (.tpred hdr .rd 0 (some (.v 4)) (some (.v 2))) = true := rfl
theorem test_wf_contextForm : only (.srd hdr .ctl true (.v 2) (.v 0)) (.srd hdr .cancel true (.v 2) (.v 0)) = true := rfl
theorem test_wf_contextOperand : only (.srd hdr .cancel false (.v 2) (.c 0)) (.srd hdr .cancel false (.v 2) (.v 0)) = true := rfl
theorem test_wf_systemPair : only (.swr hdr .evhead false (.c 0) (.v 3)) (.swr hdr .evq false (.c 0) (.v 3)) = true := rfl
theorem test_wf_rangeGroup : only (.rgset hdr (.v 0) (.c 0) 8) (.rgset hdr (.v 0) (.c 0) 12) = true := rfl
theorem test_wf_timeGroup : only (.time hdr 4) (.time hdr 6) = true := rfl
theorem test_wf_pairSlot : only (.pair 1 ⟨30, 191, 191, 0⟩ ⟨9, 0, 0, 31⟩) (.pair 1 ⟨31, 191, 191, 0⟩ ⟨9, 0, 0, 31⟩) = true := rfl
theorem test_wf_pairCode : only (.pair 1 ⟨0, 191, 0, 0⟩ ⟨0, 0, 0, 0⟩) (.pair 1 ⟨0, 192, 0, 0⟩ ⟨0, 0, 0, 0⟩) = true := rfl
theorem test_wf_pairCount : only (.pair 1 ⟨10, 0, 0, 31⟩ ⟨0, 0, 0, 0⟩) (.pair 1 ⟨10, 0, 0, 32⟩ ⟨0, 0, 0, 0⟩) = true := rfl
theorem test_wf_pairUnused : only (.pair 1 ⟨13, 0, 0, 5⟩ ⟨0, 0, 0, 0⟩) (.pair 1 ⟨13, 0, 1, 5⟩ ⟨0, 0, 0, 0⟩) = true := rfl
theorem test_wf_events : only (.nop hdr) .freezeBound = true := rfl

/-! Single steps. -/

/-- A check of the state after an instruction. -/
def after (e : Env) (i : Instr) (p : State → Bool) : Bool :=
  match exec i e.s with
  | .next s => p s
  | _ => false

/-- A check of the thread after an instruction. -/
def leaves (e : Env) (i : Instr) (p : Thread → Bool) : Bool :=
  after e i fun s => (s.wgs.head?.bind (·.threads.head?)).any p

def vIs (k x : Nat) (t : Thread) : Bool := (t.v[k]?.map (·.val.toNat)) == some x
def pIs (k : Nat) (b : Bool) (t : Thread) : Bool := (t.p[k]?.map (·.val)) == some b

/-- A thread whose v1 to v3 hold three words. -/
def abc (a b c : Nat) : Env := env (thread [0, a, b, c, 0, 0, 0, 0]) (wg ws 2048) st

/-- What a one-, two- or three-operand instruction writes to v0, with the flags it sets. -/
def gives (i : Instr) (a b c r f : Nat) : Bool := leaves (abc a b c) i fun t => vIs 0 r t && t.flags == BitVec.ofNat 5 f

theorem test_iadd_wraps : gives (.iadd hdr .i32 (.v 0) (.v 1) (.v 2)) 0xFFFFFFFF 2 0 1 0 = true := by decide +kernel
theorem test_isub_order : gives (.isub hdr .i32 (.v 0) (.v 1) (.v 2)) 3 5 0 0xFFFFFFFE 0 = true := by decide +kernel
theorem test_imulh_signed : gives (.imulh hdr .i32 (.v 0) (.v 1) (.v 2)) 0xFFFFFFFF 0x80000000 0 0 0 = true := by decide +kernel
theorem test_imulh_unsigned : gives (.imulh hdr .n32 (.v 0) (.v 1) (.v 2)) 0xFFFFFFFF 0x80000000 0 0x7FFFFFFF 0 = true := by decide +kernel
theorem test_imad : gives (.imad hdr .i32 (.v 0) (.v 1) (.v 2) (.v 3)) 0xFFFFFFFF 5 7 2 0 = true := by decide +kernel
theorem test_imin_signed : gives (.imin hdr .i32 (.v 0) (.v 1) (.v 2)) 1 0x80000000 0 0x80000000 0 = true := by decide +kernel
theorem test_imax_unsigned : gives (.imax hdr .n32 (.v 0) (.v 1) (.v 2)) 1 0x80000000 0 0x80000000 0 = true := by decide +kernel
theorem test_shl_full : gives (.shl hdr .i32 (.v 0) (.v 1) (.v 2)) 1 32 0 0 0 = true := by decide +kernel
theorem test_shr_ignores_high_bits : gives (.shr hdr .i32 (.v 0) (.v 1) (.v 2)) 0x80000000 0x11F 0 1 0 = true := by decide +kernel
theorem test_sar_full : gives (.sar hdr .n32 (.v 0) (.v 1) (.v 2)) 0x80000000 200 0 0xFFFFFFFF 0 = true := by decide +kernel
theorem test_rotl : gives (.rotl hdr .i32 (.v 0) (.v 1) (.v 2)) 0x80000001 33 0 3 0 = true := by decide +kernel
theorem test_iaddi_negative : gives (.iaddi hdr (.v 0) (.v 1) 0xFFFFFD8) 2 0 0 0xFFFFFFDA 0 = true := by decide +kernel
theorem test_movh : gives (.movh hdr (.v 0) (.v 1) 0x1234) 0xABCD5678 0 0 0x12345678 0 = true := by decide +kernel
theorem test_idiv_zero : gives (.idiv hdr .i32 (.v 0) (.v 1) (.v 2)) 7 0 0 0xFFFFFFFF 0 = true := by decide +kernel
theorem test_idiv_truncates : gives (.idiv hdr .i32 (.v 0) (.v 1) (.v 2)) 0xFFFFFFF9 2 0 0xFFFFFFFD 0 = true := by decide +kernel
theorem test_irem_sign : gives (.irem hdr .i32 (.v 0) (.v 1) (.v 2)) 0xFFFFFFF9 2 0 0xFFFFFFFF 0 = true := by decide +kernel
theorem test_iabs_minimum : gives (.iabs hdr (.v 0) (.v 1)) 0x80000000 0 0 0x80000000 0 = true := by decide +kernel
theorem test_clz_zero : gives (.clz hdr (.v 0) (.v 1)) 0 0 0 32 0 = true := by decide +kernel
theorem test_popc : gives (.popc hdr (.v 0) (.v 1)) 0xF000000F 0 0 8 0 = true := by decide +kernel
theorem test_brev : gives (.brev hdr (.v 0) (.v 1)) 0x80000002 0 0 0x40000001 0 = true := by decide +kernel
theorem test_bfe_signed : gives (.bfe hdr .i32 (.v 0) (.v 1) (.v 2) (.v 3)) 0x00000F00 8 4 0xFFFFFFFF 0 = true := by decide +kernel
theorem test_bfe_clipped : gives (.bfe hdr .n32 (.v 0) (.v 1) (.v 2) (.v 3)) 0xF0000000 28 60 0xF 0 = true := by decide +kernel
theorem test_bfi : gives (.bfi hdr (.v 0) (.v 1) (.v 2) (.v 3)) 0xFFFFFFFF 0 0x0804 0xFFFFF00F 0 = true := by decide +kernel
theorem test_lea : gives (.lea hdr (.v 0) (.v 1) (.v 2) (.c 3)) 5 7 0 61 0 = true := by decide +kernel
theorem test_iset_signed : leaves (abc 0x80000000 1 0) (.iset hdr .i32 .lt 3 (.v 1) (.v 2)) (pIs 3 true) = true := by decide +kernel
theorem test_iset_unsigned : leaves (abc 0x80000000 1 0) (.iset hdr .n32 .lt 3 (.v 1) (.v 2)) (pIs 3 false) = true := by decide +kernel
theorem test_iadd64_carries : leaves (abc 0 0xFFFFFFFF 0) (.iadd64 hdr false (.v 4) (.v 2) (.w 6)) (fun t => vIs 4 4 t && vIs 5 0 t) = true := by
  decide +kernel

theorem test_fadd_signedZero : gives (.fadd hdr .rd (.v 0) (.v 1) (.v 2)) 0x3F800000 0xBF800000 0 0x80000000 0 = true := by decide +kernel
theorem test_ffma_zeroTimesInfinity : gives (.ffma hdr .rn (.v 0) (.v 1) (.v 2) (.v 3)) 0 0x7F800000 0x7FC00000 0x7FC00000 16 = true := by decide +kernel
theorem test_fmin_zeros : gives (.fmin hdr (.v 0) (.v 1) (.v 2)) 0x80000000 0 0 0x80000000 0 = true := by decide +kernel
theorem test_famax_signalling : gives (.famax hdr (.v 0) (.v 1) (.v 2)) 0xC0000000 0x7FA00000 0 0x40000000 16 = true := by decide +kernel
theorem test_frnd_negative : gives (.frnd hdr .rn (.v 0) (.v 1)) 0xBE99999A 0 0 0x80000000 0 = true := by decide +kernel
theorem test_hadd2_overflow : gives (.hadd2 hdr .rn (.v 0) (.v 1) (.v 2)) 0x3C007BFF 0x3C007BFF 0 0x40007C00 5 = true := by decide +kernel
theorem test_fdot2 : gives (.fdot2 hdr .bf16x2 .rn (.v 0) (.v 1) (.v 2) (.v 3)) 0xBF003FC0 0x40404000 0x3E800000 0x3FE00000 0 = true := by
  decide +kernel
theorem test_cvt_tie : gives (.cvt hdr (.ff .e4m3 .f32) false .rn (.v 0) (.v 1)) 0x41880000 0 0 0x58 1 = true := by decide +kernel
theorem test_cvt_nsat : gives (.cvt hdr (.ff .e4m3 .f32) true .rn (.v 0) (.v 1)) 0xC3FA0000 0 0 0x7F 5 = true := by decide +kernel
theorem test_cvt_tenth : gives (.cvt hdr (.ff .f16 .f32) false .rn (.v 0) (.v 1)) 0x3DCCCCCD 0 0 0x2E66 1 = true := by decide +kernel
theorem test_e4up : gives (.e4up hdr 1 (.v 0) (.v 1)) 0x0000C200 0 0 0xC0200000 0 = true := by decide +kernel

theorem test_guard_false : leaves e0 (.iadd ⟨1, 7, true⟩ .i32 (.v 0) (.v 1) (.v 2)) (fun t => vIs 0 0 t && t.pc == 0x1008) = true := by
  decide +kernel
theorem test_bra : leaves e0 (.bra hdr 0xFFFFFFF) (fun t => t.pc == 0xFF8) = true := by decide +kernel
theorem test_call : leaves e0 (.call hdr 2 3) (fun t => t.pc == 0x1018 && vIs 2 0x1008 t && vIs 3 0 t) = true := by decide +kernel
theorem test_ret_misaligned : leaves (abc 0 0x2004 0) (.ret hdr (.v 2)) (fun t => t.run == .trapPending && t.tcause == 3) = true := by decide +kernel
theorem test_brk : leaves e0 (.brk hdr 11) (fun t => t.run == .trapPending && t.tcode == 11 && t.taddr == 0x1000 && t.pc == 0x1008) = true := by
  decide +kernel
theorem test_exit : leaves e0 (.exit hdr) (fun t => t.run == .exited) = true := by decide +kernel
theorem test_stt : after e0 (.stt hdr .half (.v 0) (.c 6) (.v 3)) (fun s => (s.wgs.head?.map fun g => (g.tile.drop 5).take 4) == some [0, 0xFF, 0xFF, 0]) = true := by
  decide +kernel
theorem test_vclr : after e0 (.vclr hdr 5) (fun s => (s.ctxs.head?.bind (·.vw[5]?)) == some none) = true := by decide +kernel
theorem test_fence_order : after e0 (.fence hdr .rel .dev) (fun s => (s.wgs.head?.bind (·.threads.head?)).any fun t => t.pc == 0x1008) = true := by
  decide +kernel
theorem test_fetched_word : (match step (State.reset.withFetchWord 64 (word 1 7 0 0x021 5 480 0 0 77)) with
    | .next s => (s.wgs.head?.bind (·.threads.head?)).any (vIs 5 77)
    | _ => false) = true := by decide +kernel
theorem test_fetched_zero : (match step (State.reset.withFetchWord 64 0) with
    | .next s => (s.wgs.head?.bind (·.threads.head?)).any fun t => t.run == .trapPending && t.tcause == 1 && t.taddr == 0
    | _ => false) = true := by decide +kernel

end Sys2Proof.Machine.Box
end

/-! SUPPORT. Every step keeps memory canonical. The canonical form speaks of five fields of memory, and few operations write
them; for each operation a lemma says that it leaves memory as it is (`_m`) or keeps the form (`_canon`, an equivalence where
it writes other fields only). What an instruction comes to (`Res`), what reaching memory comes to (`Reach`), and what an
exception stops (`Except`) have the form of every state in them; `exec_canon` puts the instructions together. -/

section
namespace Sys2Proof.Machine

/-! The canonical form speaks of five fields of memory. -/

/-- The canonical form, of the five fields that it speaks of. -/
def StoresCanon (cells host : List Host.Cell) (poison scrub hostPoison : List Nat) : Prop :=
  Memory.wf cells = true ∧ Memory.wf host = true ∧ nsWf poison = true ∧ nsWf hostPoison = true ∧ nsWf scrub = true

@[simp] theorem storesCanon_iff (m : Mem) :
    StoresCanon m.cells m.host m.poison m.scrub m.hostPoison ↔ m.canon := Iff.rfl

/-- A memory written out, most often as an update of some of the other fields. -/
@[simp] theorem Mem.canon_mk (cells host : List Host.Cell) (poison scrub hostPoison : List Nat) (cache : List CEnt)
    (icache : List ILine) (icinv : List IcInv) (writes : List WEnt) (reads : List RReq) (atoms : List AReq)
    (waits : List WaitEnt) (leases : List LeaseEnt) (tenures : List Ten) (l2 : List L2Ent) (dir : List DirEnt)
    (dirq : List DirReq) (dramq : List DramHeld) (unitq : List UReq) (drops : List PendDrop) (snoop : List SnoopEnt)
    (hostLines : List HostLine) (xlat : List XEnt) (missing : List Miss) (watches : List Watch) (nextSeq : List Nat) :
    (Mem.mk cells host poison scrub hostPoison cache icache icinv writes reads atoms waits leases tenures l2 dir dirq dramq unitq
      drops snoop hostLines xlat missing watches nextSeq).canon ↔ StoresCanon cells host poison scrub hostPoison := Iff.rfl

theorem ite_holds {α : Type} {P : α → Prop} {c : Prop} [Decidable c] {a b : α} (ha : P a) (hb : P b) : P (if c then a else b) := by
  split
  · exact ha
  · exact hb

variable {s : State} {m : Mem}

theorem canon_ite {c : Prop} [Decidable c] {a b : State} (ha : a.m.canon) (hb : b.m.canon) : (if c then a else b).m.canon :=
  ite_holds (P := fun s : State => s.m.canon) ha hb

/-! Address and home slices. -/

@[simp] theorem State.pageFault_canon (h : s.m.canon) (home ctx ia level : Nat) (acc : Acc) :
    (s.pageFault home ctx ia level acc).m.canon := by
  unfold State.pageFault
  split
  · exact h
  · dsimp only; split <;> simp [h, State.event_canon]

theorem State.flushMissing_canon (h : s.m.canon) : s.flushMissing.m.canon := by
  unfold State.flushMissing
  refine foldl_canon _ (fun s k h => ?_) _ h
  dsimp only
  split
  · exact h
  · split <;> simp [h, State.event_canon]

@[simp] theorem State.violationBy_canon (h : s.m.canon) (ctx master ia : Nat) (acc : Acc) (unit : Nat) :
    (s.violationBy ctx master ia acc unit).m.canon := by simp [State.violationBy, h, State.event_canon]

@[simp] theorem State.violation_canon (h : s.m.canon) (ctx ia : Nat) (acc : Acc) (unit : Nat) :
    (s.violation ctx ia acc unit).m.canon := by simp [State.violation, h]

@[simp] theorem Mem.grantTen_canon (h : m.canon) (die key till : Nat) : (m.grantTen die key till).canon := by
  simp [Mem.grantTen, h]

@[simp] theorem State.dramKeep_canon (h : s.m.canon) (id ctx sec : Nat) (needs : Bool) (x : Xl) :
    (s.dramKeep id ctx sec needs x).m.canon := by
  unfold State.dramKeep; split <;> simp [h]

@[simp] theorem State.dramHold_canon (h : s.m.canon) (r : Need) : (s.dramHold r).m.canon := by
  unfold State.dramHold; split <;> simp [h]

@[simp] theorem State.lineKeep_canon (h : s.m.canon) (home id ctx line : Nat) (x : Xl) :
    (s.lineKeep home id ctx line x).m.canon := foldl_canon _ (fun s k h => by simp [h]) _ h

@[simp] theorem Mem.freeSectors_canon (h : m.canon) (now die ia n k : Nat) : (m.freeSectors now die ia n k).canon := by
  induction k generalizing m with
  | zero => exact h
  | succ k ih =>
    unfold Mem.freeSectors
    dsimp only
    split
    · exact h
    · split
      · exact ih (by simp [h])
      · exact h

@[simp] theorem State.setDir_canon (e : DirEnt) : (s.setDir e).m.canon ↔ s.m.canon := by simp [State.setDir]

theorem State.lineRoom_canon (h : s.m.canon) (die ia : Nat) : ∀ s' ∈ s.lineRoom die ia, s'.m.canon := by
  unfold State.lineRoom
  dsimp only
  split
  · simp [h]
  · split
    · simp [h]
    · split <;> simp [h]

@[simp] theorem State.hostVisit_canon (h : s.m.canon) (die ia : Nat) (x : Xl) : (s.hostVisit die ia x).m.canon := by
  unfold State.hostVisit
  split
  · exact h
  · split
    case h_1 s' hs => simp [State.lineRoom_canon h _ _ s' hs]
    case h_2 => exact h

@[simp] theorem State.dropDir_canon (ctx line : Nat) : (s.dropDir ctx line).m.canon ↔ s.m.canon := by simp [State.dropDir]

@[simp] theorem Mem.install_canon (h : m.canon) (now home ctx ia : Nat) (x : Xl) (part : Bool) :
    (m.install now home ctx ia x part).canon := by
  unfold Mem.install
  dsimp only
  split
  · exact h
  · split
    · simp [h]
    · split <;> simp [h]

@[simp] theorem State.serveRead_canon (h : s.m.canon) (r : Need) (x : Xl) (hint : Hint) (composed : Bool) :
    (s.serveRead r x hint composed).1.m.canon := by
  unfold State.serveRead
  dsimp only
  refine State.hostVisit_canon ?_ _ _ _
  dsimp only
  split <;> split <;> simp [h]

@[simp] theorem Mem.dropCopies_canon (ctx lo n : Nat) (p : Nat → Bool) : (m.dropCopies ctx lo n p).canon ↔ m.canon := by
  simp [Mem.dropCopies]

@[simp] theorem State.toM_canon (h : s.m.canon) (r : Need) : (s.toM r).m.canon := by
  unfold State.toM
  split
  · exact h
  · split
    · split <;> simp [h]
    · exact h

@[simp] theorem State.askHost_canon (ctx line k : Nat) : (s.askHost ctx line k).m.canon ↔ s.m.canon := by simp [State.askHost]

@[simp] theorem State.toI_canon (h : s.m.canon) (e : DirEnt) : (s.toI e).m.canon := by
  unfold State.toI; split <;> simp [h]

@[simp] theorem State.dirTry_canon (h : s.m.canon) (ctx line : Nat) : (s.dirTry ctx line).m.canon := by
  unfold State.dirTry
  split
  · exact h
  · split
    · exact h
    · split
      · exact h
      · split
        · split <;> simp [h]
        · split <;> simp [h]
        · simp [h]
        · split <;> simp [h]
        · split <;> simp [h]

end Sys2Proof.Machine
end

section
namespace Sys2Proof.Machine

variable {s : State} {m : Mem} {e : Env}

/-! What an operation comes to. -/

/-- The state that a thread's execution comes to has canonical memory. -/
def Res.canon : Res → Prop
  | .done s | .jump s _ | .block s _ | .waitIn s | .ended s => s.m.canon
  | .skip | .wait | .trap _ _ _ _ => True

@[simp] theorem Res.canon_done : (Res.done s).canon ↔ s.m.canon := Iff.rfl
@[simp] theorem Res.canon_jump (pc : DWord) : (Res.jump s pc).canon ↔ s.m.canon := Iff.rfl
@[simp] theorem Res.canon_block (b : Blk) : (Res.block s b).canon ↔ s.m.canon := Iff.rfl
@[simp] theorem Res.canon_waitIn : (Res.waitIn s).canon ↔ s.m.canon := Iff.rfl
@[simp] theorem Res.canon_ended : (Res.ended s).canon ↔ s.m.canon := Iff.rfl
@[simp] theorem Res.canon_skip : Res.skip.canon := trivial
@[simp] theorem Res.canon_wait : Res.wait.canon := trivial
@[simp] theorem Res.canon_trap (cause : Nat) (code : Word) (fa : DWord) (after : Bool) : (Res.trap cause code fa after).canon := trivial

/-- The next state, if there is one, has canonical memory. -/
def NextCanon : Host.Outcome State Fault Refusal → Prop
  | .next s => s.m.canon
  | .fault _ | .refused _ => True

@[simp] theorem nextCanon_next : NextCanon (.next s) ↔ s.m.canon := Iff.rfl
@[simp] theorem nextCanon_fault (f : Fault) : NextCanon (.fault f) := trivial

/-- P of what stops a computation, Q of what it gives. -/
def eitherHolds {ε α : Type} (P : ε → Prop) (Q : α → Prop) : Except ε α → Prop
  | .error e => P e
  | .ok a => Q a

@[simp] theorem eitherHolds_error {ε α : Type} (P : ε → Prop) (Q : α → Prop) (x : ε) : eitherHolds P Q (.error x) ↔ P x := Iff.rfl
@[simp] theorem eitherHolds_ok {ε α : Type} (P : ε → Prop) (Q : α → Prop) (a : α) : eitherHolds P Q (.ok a) ↔ Q a := Iff.rfl

/-- The state that an instruction leaves behind, with something that it has found. -/
abbrev FoundCanon {α : Type} (r : Except Res (State × α)) : Prop := eitherHolds Res.canon (fun q => q.1.m.canon) r

theorem poisonRes_canon (i : Instr) : (poisonRes i).canon := by unfold poisonRes; split <;> simp

theorem threadStep_canon {i : Instr} {body : Env → Res} (hb : ∀ e, e.s.m.canon → (body e).canon) (h : e.s.m.canon) :
    (threadStep i body e).canon := by
  unfold threadStep
  dsimp only
  repeat' split
  · exact trivial
  · exact poisonRes_canon i
  · exact trivial
  · exact trivial
  · exact trivial
  · exact poisonRes_canon i
  · exact hb _ h

theorem applyRes_canon {r : Res} (i : Instr) (h : e.s.m.canon) (hr : r.canon) : (applyRes i e r).m.canon := by
  cases r
  case skip => exact h
  case wait => exact h
  case trap => exact h
  all_goals exact hr

theorem State.env?_s {p : Path} {tid : Nat} (h : s.env? p tid = some e) : e.s = s := by
  unfold State.env? at h
  repeat' split at h
  all_goals simp at h
  rw [← h]

/-- An instruction of opcode 0x080 or above keeps the canonical form where its meaning in one thread does. -/
theorem threadOp_canon {i : Instr} {body : Env → Res} (h : s.m.canon) (hb : ∀ e, e.s.m.canon → (body e).canon) :
    NextCanon (threadOp i body s) := by
  unfold threadOp
  split
  · exact h
  · refine foldl_canon _ (fun s t h => ?_) _ h
    unfold oneThread
    split
    · exact h
    · next e he =>
      have hs : e.s.m.canon := by rw [State.env?_s he]; exact h
      exact applyRes_canon i hs (threadStep_canon hb hs)

theorem laneOp_canon (i : Instr) (f : Env → LaneRes) (h : s.m.canon) : NextCanon (laneOp i f s) := by
  unfold laneOp
  (repeat' split) <;> simp [h]

/-! Operations that leave memory alone. -/

theorem foldl_m {α : Type} (f : State → α → State) (hf : ∀ s a, (f s a).m = s.m) (l : List α) (s : State) :
    (l.foldl f s).m = s.m := by
  induction l generalizing s with
  | nil => rfl
  | cons a l ih => rw [List.foldl_cons, ih, hf]

@[simp] theorem State.arriveN_m (s : State) (core slot tid id : Nat) (r : Reg) (k x : Nat) (poi : Bool) :
    (s.arriveN core slot tid id r k x poi).m = s.m := rfl

@[simp] theorem State.deliverN_m (s : State) (core slot tid : Nat) (r : Reg) (k x : Nat) (poi : Bool) :
    (s.deliverN core slot tid r k x poi).m = s.m := by
  unfold State.deliverN
  refine foldl_m _ (fun _ _ => ?_) _ _
  rfl

@[simp] theorem State.awaitV_m (s : State) (core slot tid id d k : Nat) : (s.awaitV core slot tid id d k).m = s.m := rfl
@[simp] theorem State.perfAdd_m (s : State) (core ctx k n : Nat) : (s.perfAdd core ctx k n).m = s.m := rfl
@[simp] theorem State.holdThread_m (s : State) (w : Who) (id : Nat) : (s.holdThread w id).m = s.m := State.mod_m ..
@[simp] theorem State.letGo_m (s : State) (w : Who) (id : Nat) : (s.letGo w id).m = s.m := State.mod_m ..

/-! Loads and stores. -/

@[simp] theorem State.setReads_canon (f : List RReq → List RReq) : (s.setReads f).m.canon ↔ s.m.canon := by simp [State.setReads]
@[simp] theorem State.setWrites_canon (f : List WEnt → List WEnt) : (s.setWrites f).m.canon ↔ s.m.canon := by simp [State.setWrites]
@[simp] theorem State.modRead_canon (id : Nat) (f : RReq → RReq) : (s.modRead id f).m.canon ↔ s.m.canon := by simp [State.modRead]
@[simp] theorem State.dropRead_canon (id : Nat) : (s.dropRead id).m.canon ↔ s.m.canon := by simp [State.dropRead]
@[simp] theorem State.modWEnt_canon (id : Nat) (f : WEnt → WEnt) : (s.modWEnt id f).m.canon ↔ s.m.canon := by simp [State.modWEnt]
@[simp] theorem State.dropWrite_canon (id : Nat) : (s.dropWrite id).m.canon ↔ s.m.canon := by simp [State.dropWrite]
@[simp] theorem State.touch_canon (core ctx sec : Nat) (hint : Hint) : (s.touch core ctx sec hint).m.canon ↔ s.m.canon := by
  simp [State.touch]

@[simp] theorem State.fill_canon (h : s.m.canon) (core ctx sec home : Nat) (hint : Hint) (till : Nat) :
    (s.fill core ctx sec home hint till).m.canon := by
  unfold State.fill
  dsimp only
  split <;> simp [h]

@[simp] theorem State.unitHold_canon (h : s.m.canon) (r : Need) (f : UReq → UReq) : (s.unitHold r f).m.canon := by
  unfold State.unitHold
  (repeat' split) <;> simp [h]

@[simp] theorem State.prepare_canon (h : s.m.canon) (r : Need) : (s.prepare r).m.canon := by
  unfold State.prepare
  dsimp only
  (repeat' split) <;> simp [h]

@[simp] theorem State.unitGate_canon (h : s.m.canon) (r : Need) : (s.unitGate r).2.m.canon := by
  unfold State.unitGate
  extract_lets r early
  split
  · simp [h]
  · split
    · exact State.prepare_canon (State.unitHold_canon h _ _) _
    · exact State.unitHold_canon (s := s.fresh) h _ _
    · simp [h]
    · exact h

@[simp] theorem State.unitTick_canon (h : s.m.canon) : s.unitTick.m.canon := by
  unfold State.unitTick
  refine foldl_canon _ (fun s u h => ?_) _ h
  split <;> simp [h]

@[simp] theorem Env.fetchReq_canon (h : e.s.m.canon) (va : DWord) (ia home : Nat) : (e.fetchReq va ia home).m.canon := by
  unfold Env.fetchReq
  split <;> simp [h]

theorem Env.indexAt_canon (h : e.s.m.canon) (v : View) (va : DWord) (a : Nat) : FoundCanon (e.indexAt v va a) := by
  unfold Env.indexAt
  dsimp only
  (repeat' split) <;> simp [h]

theorem foldl_holds {α β : Type} {P : β → Prop} (f : β → α → β) (hf : ∀ b a, P b → P (f b a)) (l : List α) {b : β} (h : P b) :
    P (l.foldl f b) := by
  induction l generalizing b with
  | nil => exact h
  | cons a l ih => exact ih (hf b a h)

theorem Env.gather_canon (h : e.s.m.canon) (skip : Bool) (v : View) (va : DWord) (off n : Nat) :
    FoundCanon (e.gather skip v va off n) := by
  unfold Env.gather
  split
  · exact h
  · refine foldl_holds (P := FoundCanon) _ (fun r x hr => ?_) _ h
    split
    · exact hr
    · next s l =>
      have hx := Env.indexAt_canon (e := { e with s := s }) hr v va x
      split
      · simp_all
      · (repeat' split) <;> simp_all

theorem Env.sendLoad_canon (h : e.s.m.canon) (va : DWord) (kind : RKindReq) (hint : Hint) (sc : Scope) (bytes : List BSrc)
    (homeOf : Nat → Nat) (view composed : Bool) (far : Option Nat) (gather : Bool) :
    (e.sendLoad va kind hint sc bytes homeOf view composed far gather).m.canon := by
  unfold Env.sendLoad
  extract_lets id secs r s1 s2 s3
  have h1 : s1.m.canon := by simp [s1, h]
  have h2 : s2.m.canon := by unfold s2; split <;> simp [h1]
  have h3 : s3.m.canon := foldl_canon _ (fun s x h => by simp [h]) _ h2
  (repeat' split) <;> simp [h3]

theorem Env.load_canon (h : e.s.m.canon) (acq : Bool) (sc : Scope) (hint : Hint) (sx : Bool) (z : Size) (d : Nat) (a : Reg) (b : Src) :
    (e.load acq sc hint sx z d a b).canon := by
  unfold Env.load
  dsimp only
  split
  · simp
  · simp
  · split <;> simp [Env.sendLoad_canon, h]
  · next v off _ =>
    have hg := Env.gather_canon h false v (e.ea a b) off z.bytes
    (repeat' split) <;> simp_all [Env.sendLoad_canon]

theorem Env.prefetch_canon (h : e.s.m.canon) (sc : Scope) (hint : Hint) (a : Reg) (b : Src) : (e.prefetch sc hint a b).canon := by
  unfold Env.prefetch
  extract_lets va homeOnly go
  have hgo (s : State) (bytes : List BSrc) (homeOf : Nat → Nat) (view : Bool) (h : s.m.canon) : (go s bytes homeOf view).canon := by
    unfold go
    extract_lets here all s1 secs r
    have h1 : s1.m.canon := foldl_canon _ (fun s x h => by simp [h]) _ h
    split <;> simp [h1]
  split
  · exact h
  · exact h
  · exact hgo _ _ _ _ h
  · next v off _ =>
    split
    · exact h
    · have hg := Env.gather_canon h true v va (off / 32 * 32) 32
      split <;> simp_all
end Sys2Proof.Machine
end

section
namespace Sys2Proof.Machine

variable {s : State} {m : Mem} {e : Env}

@[simp] theorem State.failRead_canon (h : s.m.canon) (r : RReq) (cause ia : Nat) : (s.failRead r cause ia).m.canon := by
  unfold State.failRead
  have h1 : (((s.dropRead r.id).letGo r.who r.id).releaseTag r.who r.id).m.canon := by simp [State.releaseTag_m, h]
  dsimp only
  split
  · exact h1
  · exact State.lateTrap_canon h1 ..

@[simp] theorem State.readLanes_canon (h : s.m.canon) (l : List ReadLane) : (s.readLanes l).m.canon := by
  unfold State.readLanes
  split
  · exact h
  · split
    · exact h
    · next x hx =>
      extract_lets r n each sec hold
      have he (f : State → RReq → State) (hf : ∀ s r, s.m.canon → (f s r).m.canon) (s : State) (h : s.m.canon) :
          (each f s).m.canon := foldl_canon _ (fun s q h => hf s q.1 h) _ h
      have hs (f : RReq → RSec → RSec) (s : State) (h : s.m.canon) : (sec f s).m.canon :=
        foldl_canon _ (fun s q h => (State.modRead_canon _ _).mpr h) _ h
      have hd := he (fun s r => s.dropRead r.id) fun s r h => by simp [h]
      have hh (s : State) (h : s.m.canon) : (hold s).m.canon := by
        refine he (fun s r => (s.modRead r.id _).holdThread r.who r.id) (fun s r h => ?_) s h
        simp [h]
      split
      · exact h
      · split
        · split
          · exact hd s h
          · exact hh s h
        · split
          · exact hs _ _ (State.serveRead_canon h ..)
          · exact hs _ _ h
          · exact State.prepare_canon h n
          · exact hs _ s.fresh h
          · exact hs _ _ h
          · split
            · exact hd s h
            · exact hh _ (State.pageFault_canon h ..)
          · exact he (fun s r => s.failRead r 4 x.ia) (fun s r h => State.failRead_canon h ..) _ (State.violation_canon h ..)
          · exact hs _ _ h

theorem execHomeReadRequest_canon (h : s.m.canon) (id sec : Nat) : NextCanon (execHomeReadRequest id sec s) := by
  unfold execHomeReadRequest State.readAt
  (repeat' split) <;> simp [h]

theorem execViewCompose_canon (h : s.m.canon) (id : Nat) : NextCanon (execViewCompose id s) := by
  unfold execViewCompose
  extract_lets
  split
  · exact h
  · split
    · exact h
    · split
      · exact h
      · extract_lets missing lanes
        exact foldl_canon _ (fun s k h => State.readLanes_canon h _) _ (foldl_canon _ (fun s q h => State.readLanes_canon h _) _ h)

@[simp] theorem State.fillAll_canon (h : s.m.canon) (r : RReq) : (s.fillAll r).m.canon := by
  unfold State.fillAll
  refine foldl_canon _ (fun s x h => ?_) _ h
  split <;> simp [h]

@[simp] theorem State.finishLoad_canon (h : s.m.canon) (r : RReq) (z : Size) (sx : Bool) (d : Nat) (acq : Bool) :
    (s.finishLoad r z sx d acq).m.canon := by
  unfold State.finishLoad
  dsimp only
  split
  · simp [h]
  · split
    · simp [h]
    · refine foldl_canon _ (fun s q h => ?_) _ ?_ <;> simp [h]

@[simp] theorem State.fullLate_canon (h : s.m.canon) (w : WEnt) : (s.fullLate w).m.canon := by
  unfold State.fullLate
  dsimp only
  split <;> simp [h]

@[simp] theorem State.addWrite_canon (h : s.m.canon) (w : WEnt) (l : List (Nat × Byte × Nat)) : (s.addWrite w l).m.canon := by
  unfold State.addWrite
  split <;> simp [h]

theorem Env.sendStore_canon (h : e.s.m.canon) (va : DWord) (kind : WKind) (sc : Scope) (hint : Hint) (homeOf : Nat → Nat)
    (bytes : List (Nat × Byte × Nat)) : (e.sendStore va kind sc hint homeOf bytes).m.canon :=
  foldl_canon _ (fun s sec h => by simp [h]) _ h

@[simp] theorem Env.gatherWait_canon (h : s.m.canon) : (e.gatherWait s).canon := h

theorem Env.store_canon (h : e.s.m.canon) (hd : Hdr) (kind : WKind) (sc : Scope) (hint : Hint) (z : Size) (a : Reg) (b c : Src) :
    (e.store hd kind sc hint z a b c).canon := by
  unfold Env.store
  dsimp only
  split
  · simp
  · simp
  · split <;> simp [Env.sendStore_canon, h]
  · next v off _ =>
    have hg := Env.gather_canon h false v (e.ea a b) off z.bytes
    (repeat' split) <;> simp_all [Env.sendStore_canon]

@[simp] theorem State.enter_canon (h : s.m.canon) (w : WEnt) : (s.enter w).m.canon := by
  unfold State.enter
  simp [h]

@[simp] theorem State.enterAll_canon (h : s.m.canon) : s.enterAll.m.canon := by
  unfold State.enterAll
  refine foldl_canon _ (fun s w h => ?_) _ h
  split <;> simp [h]

@[simp] theorem State.failWrite_canon (h : s.m.canon) (w : WEnt) (cause kind : Nat) : (s.failWrite w cause kind).m.canon :=
  foldl_canon _ (fun s l h => State.lateTrap_canon h ..) _ (by simp [h])

@[simp] theorem State.arrive_canon (h : s.m.canon) (w : WEnt) : (s.arrive w).m.canon := by
  unfold State.arrive
  dsimp only
  split
  · simp only [State.modWEnt_canon, State.fresh_m]
    refine State.hostVisit_canon ?_ _ _ _
    dsimp only
    split <;> simp [h]
  all_goals simp [h]

theorem execWriteArrival_canon (h : s.m.canon) (id : Nat) : NextCanon (execWriteArrival id s) := by
  unfold execWriteArrival
  (repeat' split) <;> simp [h]

theorem execWriteComplete_canon (h : s.m.canon) (id : Nat) : NextCanon (execWriteComplete id s) := by
  unfold execWriteComplete
  (repeat' split) <;> simp [h, State.complete_canon]

theorem execSideLogRetire_canon (h : s.m.canon) (id : Nat) : NextCanon (execSideLogRetire id s) := by
  unfold execSideLogRetire
  dsimp only
  (repeat' split) <;> simp [h]

theorem execSideLogReplay_canon (h : s.m.canon) (core seq : Nat) : NextCanon (execSideLogReplay core seq s) := by
  unfold execSideLogReplay
  dsimp only
  (repeat' split) <;> simp [h]

theorem execPageWalk_canon (h : s.m.canon) (die ctrl ctx ia : Nat) (acc : Acc) : NextCanon (execPageWalk die ctrl ctx ia acc s) := by
  unfold execPageWalk
  dsimp only
  (repeat' split) <;> simp [h]

theorem Env.span_canon (h : e.s.m.canon) (va : DWord) (n : Nat) (acc : Acc) : FoundCanon (e.span va n acc) := by
  unfold Env.span
  dsimp only
  split
  · simp
  · simp
  · exact h
  · next v off _ =>
    split
    · exact h
    · have hg := Env.gather_canon h true v va (off / n * n) (min n (v.size - off / n * n))
      split <;> simp_all

/-! Instructions on the caches. -/

@[simp] theorem Mem.writeBack_canon (ctx die : Nat) (lines : List Nat) : (m.writeBack ctx die lines).canon ↔ m.canon := by
  simp [Mem.writeBack]

@[simp] theorem State.cwbStep_canon (h : s.m.canon) (g : Workgroup) (t : Thread) : (s.cwbStep g t).m.canon := by
  unfold State.cwbStep
  dsimp only
  split <;> simp [h]

theorem State.dropNow_canon (h : s.m.canon) (q : PendDrop) : ∀ s' ∈ s.dropNow q, s'.m.canon := by
  unfold State.dropNow
  (repeat' split) <;> simp [h]

@[simp] theorem State.dropCopy_canon (h : s.m.canon) (q : PendDrop) : (s.dropCopy q).m.canon := by
  unfold State.dropCopy
  split
  · next s' hs => exact State.dropNow_canon h q s' hs
  · split <;> simp [h]

@[simp] theorem State.dropAll_canon (h : s.m.canon) : s.dropAll.m.canon := by
  unfold State.dropAll
  refine foldl_canon _ (fun s q h => ?_) _ h
  exact State.dropCopy_canon (by simp [h]) q

theorem execCwb_canon (h : s.m.canon) (hd : Hdr) (sc : Scope) (a : Reg) (b : Src) : NextCanon (execCwb hd sc a b s) :=
  threadOp_canon h fun e h => by
    have hs := Env.span_canon h (e.ea a b) 128 .read
    split <;> simp_all

theorem execCinv_canon (h : s.m.canon) (hd : Hdr) (sc : Scope) (a : Reg) (b : Src) : NextCanon (execCinv hd sc a b s) :=
  threadOp_canon h fun e h => by
    have hs := Env.span_canon h (e.ea a b) 128 .read
    split
    · simp_all
    · next s secs homeOf hq =>
      rw [hq] at hs
      refine foldl_canon _ (fun s x h => ?_) _ hs
      dsimp only
      (repeat' split) <;> simp [h]

theorem execChint_canon (h : s.m.canon) (hd : Hdr) (hn : Hint) (a : Reg) (b : Src) : NextCanon (execChint hd hn a b s) :=
  threadOp_canon h fun e h => by
    have hs := Env.span_canon h (e.ea a b) 32 .read
    split <;> simp_all

theorem execPzap_canon (h : s.m.canon) (hd : Hdr) (sc : Scope) (a : Reg) (b : Src) : NextCanon (execPzap hd sc a b s) :=
  threadOp_canon h fun e h => by
    dsimp only
    (repeat' split) <;> simp [h, Env.sendStore_canon]

theorem execLdt_canon (h : s.m.canon) (hd : Hdr) (sx : Bool) (sz : Size) (d : Nat) (a b : Src) : NextCanon (execLdt hd sx sz d a b s) :=
  threadOp_canon h fun e h => by
    dsimp only
    split
    · simp
    · split
      · simp
      · refine foldl_canon _ (fun s q h => ?_) _ h
        simp [h]

theorem execStt_canon (h : s.m.canon) (hd : Hdr) (sz : Size) (a b c : Src) : NextCanon (execStt hd sz a b c s) :=
  threadOp_canon h fun e h => by
    dsimp only
    (repeat' split) <;> simp [h]

theorem execOwn_canon (h : s.m.canon) (hd : Hdr) (d : Nat) (a : Src) : NextCanon (execOwn hd d a s) :=
  threadOp_canon h fun e h => by
    dsimp only
    (repeat' split) <;> simp [h]

end Sys2Proof.Machine
end

section
namespace Sys2Proof.Machine

variable {s : State} {m : Mem} {e : Env}

/-! Atomics. -/

@[simp] theorem State.awaitR_m (s : State) (core slot tid id : Nat) (r : Reg) (k : Nat) :
    (s.awaitR core slot tid id r k).m = s.m := by
  cases r <;> rfl

@[simp] theorem State.setAtoms_canon (f : List AReq → List AReq) : (s.setAtoms f).m.canon ↔ s.m.canon := by simp [State.setAtoms]
@[simp] theorem State.modAtom_canon (id : Nat) (f : AReq → AReq) : (s.modAtom id f).m.canon ↔ s.m.canon := by simp [State.modAtom]
@[simp] theorem State.dropAtom_canon (id : Nat) : (s.dropAtom id).m.canon ↔ s.m.canon := by simp [State.dropAtom]

theorem Env.atomic_canon (h : e.s.m.canon) (kind : AKind) (ty : ITy) (sc : Scope) (d a : Reg) (b : Src) (x cmp : DWord) :
    (e.atomic kind ty sc d a b x cmp).canon := by
  unfold Env.atomic
  dsimp only
  (repeat' split) <;> simp [Mem.dropCopies, h]

theorem Env.reduce_canon (h : e.s.m.canon) (kind : WKind) (n : Nat) (sc : Scope) (a : Reg) (b : Src) (x : DWord) :
    (e.reduce kind n sc a b x).canon := by
  unfold Env.reduce
  dsimp only
  (repeat' split) <;> simp [h]

@[simp] theorem State.failAtom_canon (h : s.m.canon) (a : AReq) (cause : Nat) : (s.failAtom a cause).m.canon := by
  unfold State.failAtom
  refine foldl_canon _ (fun s l h => State.lateTrap_canon ?_ ..) _ ?_ <;> simp [State.releaseTag_m, h]

@[simp] theorem State.answerAtom_canon (h : s.m.canon) (a : AReq) (vals : List DWord) : (s.answerAtom a vals).m.canon := by
  unfold State.answerAtom
  refine foldl_canon _ (fun s q h => ?_) _ (by simp [h])
  dsimp only
  split <;> simp [h]

@[simp] theorem State.runAtom_canon (h : s.m.canon) (a : AReq) (x : Xl) (count : Bool) : (s.runAtom a x count).m.canon := by
  unfold State.runAtom
  dsimp only
  split
  · simp [h]
  · refine State.answerAtom_canon ?_ _ _
    split <;> simp [h, State.complete_canon]

@[simp] theorem State.runLeased_canon (h : s.m.canon) (a : AReq) (lease : Nat) (x : Xl) : (s.runLeased a lease x).m.canon := by
  unfold State.runLeased
  split
  · simp [h]
  · dsimp only
    split
    · simp [h]
    · refine State.answerAtom_canon ?_ _ _
      split <;> simp [h]

@[simp] theorem State.atomStep_canon (h : s.m.canon) (a : AReq) : (s.atomStep a).m.canon := by
  unfold State.atomStep
  split
  · exact h
  · extract_lets +onlyGivenNames n hold
    have hh (s : State) (h : s.m.canon) : (hold s).m.canon := by
      unfold hold
      refine foldl_canon _ (fun s l h => ?_) _ ?_ <;> simp [h]
    split
    case h_1 x _ =>
      have hv : (({ s with m := s.m.install s.now a.home a.ctx a.ia x } : State).hostVisit n.die a.ia x).m.canon := by simp [h]
      (repeat' split) <;> simp [h, hv]
    case h_6 => exact hh _ (State.pageFault_canon h ..)
    all_goals simp [h]

@[simp] theorem State.runRed_canon (h : s.m.canon) (w : WEnt) (x : Xl) (count : Bool) : (s.runRed w x count).m.canon := by
  unfold State.runRed
  dsimp only
  split <;> simp [h, State.complete_canon]

@[simp] theorem State.redStep_canon (h : s.m.canon) (w : WEnt) : (s.redStep w).m.canon := by
  unfold State.redStep
  split
  · exact h
  · extract_lets +onlyGivenNames n
    split
    case h_1 x _ =>
      have hv : (({ s with m := s.m.install s.now w.home w.ctx w.ia x } : State).hostVisit n.die w.ia x).m.canon := by simp [h]
      (repeat' split) <;> simp [h, hv]
    case h_2 => dsimp only; split <;> simp [h]
    all_goals simp [h]

theorem execAtomicExecute_canon (h : s.m.canon) (id : Nat) : NextCanon (execAtomicExecute id s) := by
  unfold execAtomicExecute
  split <;> simp [h]

theorem execMsuExecute_canon (h : s.m.canon) (id : Nat) : NextCanon (execMsuExecute id s) := by
  unfold execMsuExecute
  (repeat' split) <;> simp [h]

/-! Waits and leases. -/

theorem Env.waita_canon (h : e.s.m.canon) (cmp : WCmp) (ty : STy) (sc : Scope) (d : Nat) (a : Reg) (b : Src) (c : Reg) :
    (e.waita cmp ty sc d a b c).canon := by
  unfold Env.waita
  dsimp only
  (repeat' split) <;> simp [h]

theorem execWaitaTimeout_canon (h : s.m.canon) (id : Nat) : NextCanon (execWaitaTimeout id s) := by
  unfold execWaitaTimeout
  (repeat' split) <;> simp [h, State.endWait_canon]

@[simp] theorem State.evictWaits_canon (h : s.m.canon) (p : WaitEnt → Bool) : (s.evictWaits p).m.canon := by
  unfold State.evictWaits
  exact foldl_canon _ (fun s e h => State.endWait_canon h e 3) _ h

@[simp] theorem State.onWords_m (s : State) (core slot : Nat) (f : Workgroup → Workgroup) : (s.onWords core slot f).m = s.m := rfl

@[simp] theorem Env.giveV_m (e : Env) (s : State) (d : Option Nat) (x : Word) : (e.giveV s d x).m = s.m := by cases d <;> rfl

@[simp] theorem State.setLeases_canon (f : List LeaseEnt → List LeaseEnt) : (s.setLeases f).m.canon ↔ s.m.canon := by simp [State.setLeases]
@[simp] theorem State.modLease_canon (id : Nat) (f : LeaseEnt → LeaseEnt) : (s.modLease id f).m.canon ↔ s.m.canon := by simp [State.modLease]
@[simp] theorem State.dropLease_canon (id : Nat) : (s.dropLease id).m.canon ↔ s.m.canon := by simp [State.dropLease]

theorem execLease_canon (h : s.m.canon) (hd : Hdr) (d : Nat) (a : Reg) (b : Src) : NextCanon (execLease hd d a b s) :=
  threadOp_canon h fun e h => by
    dsimp only
    (repeat' split) <;> simp [h]

@[simp] theorem State.answerLease_canon (h : s.m.canon) (l : LeaseEnt) (v : Word) : (s.answerLease l v).m.canon := by
  unfold State.answerLease
  dsimp only
  split <;> simp [h]

@[simp] theorem State.failLease_canon (h : s.m.canon) (l : LeaseEnt) (cause : Nat) : (s.failLease l cause).m.canon :=
  State.lateTrap_canon (by simp [State.releaseTag_m, h]) ..

@[simp] theorem State.leaseArrive_canon (h : s.m.canon) (l : LeaseEnt) : (s.leaseArrive l).m.canon := by
  unfold State.leaseArrive
  dsimp only
  refine canon_ite h (canon_ite ?_ (canon_ite ?_ ?_))
  · simp [h]
  · simp [h]
  (repeat' split) <;> simp [h]

theorem execLeaseRequestArrive_canon (h : s.m.canon) (id : Nat) : NextCanon (execLeaseRequestArrive id s) := by
  unfold execLeaseRequestArrive
  split <;> simp [h]

@[simp] theorem State.clearL_canon (h : s.m.canon) (l : LeaseEnt) : (s.clearL l).m.canon := by
  unfold State.clearL
  (repeat' split) <;> simp [h]

@[simp] theorem State.leaseGrant_canon (h : s.m.canon) (l : LeaseEnt) : (s.leaseGrant l).m.canon := by
  unfold State.leaseGrant
  extract_lets n given
  split
  · exact h
  · split
    · simp [h]
    · split
      · next x _ =>
        have hm : ((List.range 4).foldl (fun m k => m.install s.now l.home l.ctx (l.line + 32 * k) { x with pa := x.pa + 32 * k })
            s.m).canon := foldl_holds (P := Mem.canon) _ (fun m k h => Mem.install_canon h ..) _ h
        dsimp only
        (repeat' split) <;> simp [h, hm]
      · exact h

theorem execLeaseGrant_canon (h : s.m.canon) (id : Nat) : NextCanon (execLeaseGrant id s) := by
  unfold execLeaseGrant
  split <;> simp [h]

theorem execLeaseExpiry_canon (h : s.m.canon) (id : Nat) : NextCanon (execLeaseExpiry id s) := by
  unfold execLeaseExpiry
  (repeat' split) <;> simp [h]

@[simp] theorem State.drainSec_canon (h : s.m.canon) (l : LeaseEnt) (sec : Nat) : (s.drainSec l sec).m.canon := by
  unfold State.drainSec
  dsimp only
  split
  · exact h
  · split
    · simp [h, State.complete_canon]
    · refine foldl_canon _ (fun s w h => ?_) _ h
      simp [h]

@[simp] theorem State.leaseDrain_canon (h : s.m.canon) (l : LeaseEnt) : (s.leaseDrain l).m.canon := by
  unfold State.leaseDrain
  split
  · exact h
  · extract_lets s1 s2 s3
    have h1 : s1.m.canon := foldl_canon _ (fun s k h => State.drainSec_canon h _ _) _ h
    have h3 : s3.m.canon := by simp [s3, s2, h1]
    (repeat' split) <;> simp [h3]

theorem execLeaseDrainComplete_canon (h : s.m.canon) (id : Nat) : NextCanon (execLeaseDrainComplete id s) := by
  unfold execLeaseDrainComplete
  split <;> simp [h]

@[simp] theorem State.endLeases_canon (h : s.m.canon) (p : LeaseEnt → Bool) : (s.endLeases p).m.canon := by
  unfold State.endLeases
  refine foldl_canon _ (fun s l h => ?_) _ h
  split <;> simp [h]

@[simp] theorem State.haltLeases_canon (h : s.m.canon) (ctx : Nat) : (s.haltLeases ctx).m.canon := by
  unfold State.haltLeases
  refine foldl_canon _ (fun s l h => ?_) _ h
  split <;> simp [h]

theorem execLrel_canon (h : s.m.canon) (hd : Hdr) (d : Nat) (a : Reg) : NextCanon (execLrel hd d a s) :=
  threadOp_canon h fun e h => by
    dsimp only
    (repeat' split) <;> simp [h]

/-! Convergence and barriers. -/

theorem Env.joinOn_canon (h : e.s.m.canon) (n : Nat) (x : Word) (d : Option Nat) : (e.joinOn n x d).canon := by
  unfold Env.joinOn
  dsimp only
  split <;> simp [h]

@[simp] theorem State.setClbar_m (s : State) (c : ClBar) : (s.setClbar c).m = s.m := rfl
@[simp] theorem State.cbarDone_m (s : State) (c : ClBar) (n : Nat) : (s.cbarDone c n).m = s.m := rfl
@[simp] theorem State.cbarTest_m (s : State) (ctx lid cl n : Nat) : (s.cbarTest ctx lid cl n).m = s.m := by
  unfold State.cbarTest
  dsimp only
  split <;> simp

@[simp] theorem State.cbarArrive_m (s : State) (core slot tid n : Nat) (x : Word) : (s.cbarArrive core slot tid n x).m = s.m := by
  unfold State.cbarArrive
  dsimp only
  (repeat' split) <;> simp

@[simp] theorem State.cbarAll_m (s : State) (ctx lid cl : Nat) (p : BReg → Bool) : (s.cbarAll ctx lid cl p).m = s.m := by
  unfold State.cbarAll
  refine foldl_m _ (fun s n => ?_) _ _
  split <;> simp

@[simp] theorem Env.sendArrival_m (e : Env) (cluster : Bool) (b : Nat) (n : Word) (sc : Scope) (sync : Bool) :
    (e.sendArrival cluster b n sc sync).m = e.s.m := rfl

theorem execBarrierArrivalApply_canon (h : s.m.canon) (core slot tid : Nat) : NextCanon (execBarrierArrivalApply core slot tid s) := by
  unfold execBarrierArrivalApply
  dsimp only
  (repeat' split) <;> simp [h]

@[simp] theorem State.exitCluster_m (s : State) (g : Workgroup) (t : Thread) : (s.exitCluster g t).m = s.m := by
  simp [State.exitCluster]

@[simp] theorem State.exitThread_canon (h : s.m.canon) (g : Workgroup) (t : Thread) : (s.exitThread g t).m.canon := by
  unfold State.exitThread
  exact State.endLeases_canon (by simp [h]) _

end Sys2Proof.Machine
end

section
namespace Sys2Proof.Machine

variable {s : State} {m : Mem} {e : Env}

/-! Views. -/

theorem Env.shadowBlock_canon (h : e.s.m.canon) (v : View) (va : DWord) (off : Nat) : FoundCanon (e.shadowBlock v va off) := by
  unfold Env.shadowBlock
  have hg := Env.gather_canon h false v va off 128
  dsimp only
  (repeat' split) <;> simp_all

theorem Env.block128_canon (h : e.s.m.canon) (va : DWord) : FoundCanon (e.block128 va) := by
  unfold Env.block128
  split
  · simp
  · simp
  · extract_lets bytes
    clear_value bytes
    split
    · trivial
    · exact h
  · exact Env.shadowBlock_canon h _ va _

@[simp] theorem Env.sendBlock_canon (h : s.m.canon) (e : Env) (va : DWord) (kind : RKindReq) (sc : Scope) (d : Option Nat) (b : Block) :
    (e.sendBlock s va kind sc d b).m.canon := by
  unfold Env.sendBlock
  have hl := Env.sendLoad_canon (e := { e with s := s }) h va kind .dflt sc b.bytes b.homeOf b.view true b.far b.gather
  dsimp only
  split
  · exact hl
  · exact hl

theorem Env.vset_canon (h : e.s.m.canon) (slot : Nat) (d : Option Nat) (a : Reg) (b : Src) : (e.vset slot d a b).canon := by
  unfold Env.vset
  have hb := Env.block128_canon h (e.ea a b)
  dsimp only
  split <;> simp_all

@[simp] theorem State.finishVset_canon (h : s.m.canon) (r : RReq) (slot : Nat) (d : Option Nat) : (s.finishVset r slot d).m.canon := by
  unfold State.finishVset
  dsimp only
  (repeat' split) <;> simp [h]

theorem execIcinv_canon (h : s.m.canon) (hd : Hdr) (sc : Scope) (a : Reg) (b : Src) : NextCanon (execIcinv hd sc a b s) :=
  threadOp_canon h fun e h => by
    dsimp only
    split <;> simp [h]

/-! The directory and the host. -/

@[simp] theorem State.evictDir_canon (h : s.m.canon) (v : DirEnt) : (s.evictDir v).m.canon := by simp [State.evictDir, h]

@[simp] theorem State.addDir_canon (e : DirEnt) : (s.addDir e).m.canon ↔ s.m.canon := by simp [State.addDir]

@[simp] theorem State.setDirq_canon (f : List DirReq → List DirReq) : (s.setDirq f).m.canon ↔ s.m.canon := by simp [State.setDirq]

@[simp] theorem State.dropReq_canon (ctx line die : Nat) (ex : Bool) : (s.dropReq ctx line die ex).m.canon ↔ s.m.canon := by
  simp [State.dropReq]

@[simp] theorem State.dirWait_canon (h : s.m.canon) (ctx line home die : Nat) (ex : Bool) (left : Nat) :
    (s.dirWait ctx line home die ex left).m.canon := by
  unfold State.dirWait
  dsimp only
  split <;> simp [h]

@[simp] theorem State.dirHold_canon (h : s.m.canon) (ctx line home die : Nat) (ex : Bool) (x : Xl) :
    (s.dirHold ctx line home die ex x).m.canon := by
  unfold State.dirHold
  dsimp only
  split
  · simp [h]
  · exact State.lineKeep_canon (by simp [h]) ..

theorem State.dirSeat_canon (h : s.m.canon) (ctx line die : Nat) : ∀ s' ∈ s.dirSeat ctx line die, s'.m.canon := by
  unfold State.dirSeat
  (repeat' split) <;> simp [h]
  · exact State.lineRoom_canon h _ _
  · exact State.lineRoom_canon h _ _

/-- Both outcomes are states with canonical memory. -/
abbrev BothCanon (r : Except State State) : Prop := eitherHolds (fun s => s.m.canon) (fun s => s.m.canon) r

theorem State.dirRequest_canon (h : s.m.canon) (ctx line home die : Nat) (ex : Bool) {serve : State → Except State State}
    (hs : ∀ s, s.m.canon → BothCanon (serve s)) : (s.dirRequest ctx line home die ex serve).m.canon := by
  unfold State.dirRequest
  dsimp only
  refine canon_ite h ?_
  split
  · simp [h]
  · split
    · simp [h]
    · split
      · exact h
      · next s' hq =>
        have hv := hs s' (State.dirSeat_canon h ctx line die s' hq)
        split <;> simp_all
  · exact h

theorem State.newEntry_canon (h : s.m.canon) (home line : Nat) (e : DirEnt) : BothCanon (s.newEntry home line e) := by
  unfold State.newEntry
  split <;> simp [h]

theorem execDirRds_canon (h : s.m.canon) (ctx line die : Nat) : NextCanon (execDirRds ctx line die s) := by
  unfold execDirRds
  split
  · simp [h]
  · extract_lets +onlyGivenNames owned
    split
    · split <;> simp [h]
    · refine State.dirRequest_canon h _ _ _ _ _ fun s h => ?_
      dsimp only
      (repeat' split) <;> simp [h, State.newEntry_canon]

theorem execDirRdx_canon (h : s.m.canon) (ctx line die : Nat) : NextCanon (execDirRdx ctx line die s) := by
  unfold execDirRdx
  split
  · simp [h]
  · split
    · split <;> simp [h]
    · extract_lets +onlyGivenNames own
      split
      · simp [h]
      · refine State.dirRequest_canon h _ _ _ _ _ fun s h => ?_
        dsimp only
        (repeat' split) <;> simp [h, State.newEntry_canon]

theorem execDirWriteback_canon (h : s.m.canon) (ctx line : Nat) : NextCanon (execDirWriteback ctx line s) := by
  unfold execDirWriteback
  (repeat' split) <;> simp [h]

theorem execDirWritebackKeep_canon (h : s.m.canon) (ctx line : Nat) : NextCanon (execDirWritebackKeep ctx line s) := by
  unfold execDirWritebackKeep
  (repeat' split) <;> simp [h]

theorem execDirCleanEviction_canon (h : s.m.canon) (ctx line : Nat) : NextCanon (execDirCleanEviction ctx line s) := by
  unfold execDirCleanEviction
  (repeat' split) <;> simp [h]

theorem execVisitorProbe_canon (h : s.m.canon) (ctx line die : Nat) : NextCanon (execVisitorProbe ctx line die s) := by
  unfold execVisitorProbe
  (repeat' split) <;> simp [h]

theorem execVisitorAck_canon (h : s.m.canon) (ctx line die : Nat) : NextCanon (execVisitorAck ctx line die s) := by
  unfold execVisitorAck
  (repeat' split) <;> simp [h]

theorem execDirAckReceive_canon (h : s.m.canon) (ctx line die : Nat) : NextCanon (execDirAckReceive ctx line die s) := by
  unfold execDirAckReceive
  (repeat' split) <;> simp [h]

@[simp] theorem State.freeSnoop_canon (h : s.m.canon) (ctx line : Nat) : (s.freeSnoop ctx line).m.canon := by
  unfold State.freeSnoop
  dsimp only
  (repeat' split) <;> simp [h]

theorem State.hostCaches_canon (h : s.m.canon) (ctx line home : Nat) (owned : Bool) : BothCanon (s.hostCaches ctx line home owned) := by
  unfold State.hostCaches
  have hn := State.newEntry_canon h home line { newDir ctx line home .i with hb := true }
  dsimp only
  split
  · simp [h]
  · split
    · split
      · simp only [eitherHolds_error]
        split <;> simp [h]
      · exact h
    · split
      · simp [h]
      · split <;> simp_all

theorem execHostMemRead_canon (h : s.m.canon) (ctx ia cache : Nat) : NextCanon (execHostMemRead ctx ia cache s) := by
  unfold execHostMemRead
  have hc := State.hostCaches_canon h ctx (lineOf (ia / 64 * 64)) ((s.ctx ctx).homeOf (ia / 64 * 64)) (cache == 2)
  dsimp only
  (repeat' split) <;> simp_all

theorem execHostMemWrite_canon (h : s.m.canon) (ctx ia : Nat) (data : List (BitVec 8)) : NextCanon (execHostMemWrite ctx ia data s) := by
  unfold execHostMemWrite
  dsimp only
  (repeat' split) <;> simp [h, State.writeBytes_canon]

theorem execBisnpResponse_canon (h : s.m.canon) (ctx line : Nat) (data : List (BitVec 8)) :
    NextCanon (execBisnpResponse ctx line data s) := by
  unfold execBisnpResponse
  split
  · exact h
  · next q _ =>
    split
    · exact h
    · extract_lets +onlyGivenNames home s1
      have h1 : s1.m.canon := by
        unfold s1
        (repeat' split) <;> simp [h, State.writeBytes_canon]
      split
      · simp [h1]
      · simp [h1]

@[simp] theorem Mem.hostLost_canon (h : m.canon) (p : HostLine → Bool) : (m.hostLost p).canon := by
  unfold Mem.hostLost
  have hl : ((m.hostLines.filter p).foldl (fun m h =>
      (List.range 4).foldl (fun (m : Mem) k => m.setPoison ⟨h.pa + 32 * k, true⟩ true) m) m).canon :=
    foldl_holds (P := Mem.canon) _ (fun m q h => foldl_holds (P := Mem.canon) _ (fun m k h => Mem.setPoison_canon h ..) _ h) _ h
  exact hl

theorem State.rewaitHost_canon (h : s.m.canon) (pa : Nat) : (s.rewaitHost pa).m.canon := by
  unfold State.rewaitHost
  exact foldl_canon _ (fun s k h => State.rewait_canon h _) _ h

theorem execHostSnoop_canon (h : s.m.canon) (line : Nat) (inv : Bool) : NextCanon (execHostSnoop line inv s) := by
  unfold execHostSnoop
  dsimp only
  refine State.rewaitHost_canon ?_ _
  simp [h]

theorem execHostSnoopTimeout_canon (h : s.m.canon) (die : Nat) : NextCanon (execHostSnoopTimeout die s) := by
  unfold execHostSnoopTimeout
  dsimp only
  split <;> simp [h]

end Sys2Proof.Machine
end

section
namespace Sys2Proof.Machine

variable {s : State} {m : Mem} {e : Env}

/-! The matrix unit. -/

theorem Env.enter_canon (h : e.s.m.canon) (op : MOp) (d : Nat) (after : Option Nat) (ref : List Nat) : (e.enter op d after ref).canon := by
  unfold Env.enter
  dsimp only
  (repeat' split) <;> simp [h]

theorem Env.entry_canon {rest : Unit → Res} (h : e.s.m.canon) (l : List TOpnd) (kg : KSel) (kn d a b : Nat) (hr : (rest ()).canon) :
    (e.entry l kg kn d a b rest).canon := by
  unfold Env.entry
  (repeat' split) <;> simp [h, hr]

@[simp] theorem State.dropEntries_m (s : State) (p : MEnt → Bool) : (s.dropEntries p).m = s.m := by
  unfold State.dropEntries
  exact foldl_m _ (fun s q => State.modWg_m ..) _ _

@[simp] theorem State.matrixTick_m (s : State) : s.matrixTick.m = s.m := rfl
@[simp] theorem State.noteGrant_m (s : State) (q : MEnt) : (s.noteGrant q).m = s.m := rfl

@[simp] theorem State.endEntry_m (s : State) (q : MEnt) : (s.endEntry q).m = s.m := by
  unfold State.endEntry
  dsimp only
  split <;> simp

theorem execMatrixEntryComplete_canon (h : s.m.canon) (core idx : Nat) : NextCanon (execMatrixEntryComplete core idx s) := by
  unfold execMatrixEntryComplete
  (repeat' split) <;> simp [h]

/-! Reaching memory for a unit: what stops it leaves the memory canonical, and what it gives has P. -/

/-- The state in which a request waits or misses a page has canonical memory, and what is reached has P. -/
inductive Reach.Holds {α : Type} (P : α → Prop) : Reach α → Prop
  | ok {a : α} : P a → Reach.Holds P (.ok a)
  | hold {s : State} : s.m.canon → Reach.Holds P (.hold s)
  | page {s : State} {home ia : Nat} : s.m.canon → Reach.Holds P (.page s home ia)
  | viol {ia : Nat} {acc : Acc} : Reach.Holds P (.viol ia acc)

section
variable {α β : Type} {P : α → Prop} {Q : β → Prop}

@[simp] theorem Reach.holds_ok (a : α) : (Reach.ok a).Holds P ↔ P a := ⟨fun | .ok h => h, .ok⟩
@[simp] theorem Reach.holds_hold : (Reach.hold s).Holds P ↔ s.m.canon := ⟨fun | .hold h => h, .hold⟩
@[simp] theorem Reach.holds_page (home ia : Nat) : (Reach.page s home ia).Holds P ↔ s.m.canon := ⟨fun | .page h => h, .page⟩
@[simp] theorem Reach.holds_viol (ia : Nat) (acc : Acc) : (Reach.viol ia acc).Holds P := .viol

theorem Reach.holds_bind {r : Reach α} {f : α → Reach β} (hr : r.Holds P) (hf : ∀ a, P a → (f a).Holds Q) : (r.bind f).Holds Q := by
  cases hr with
  | ok h => exact hf _ h
  | hold h => exact .hold h
  | page h => exact .page h
  | viol => exact .viol

/-- A computation that only reads. -/
abbrev Reach.reads (r : Reach α) : Prop := r.Holds fun _ => True

theorem Reach.reads_bind {r : Reach α} {f : α → Reach β} (hr : r.reads) (hf : ∀ a, (f a).Holds Q) : (r.bind f).Holds Q :=
  Reach.holds_bind hr fun a _ => hf a

theorem Reach.reads_map {r : Reach α} (hr : r.reads) (f : α → β) : (r.bind fun a => .ok (f a)).reads :=
  Reach.reads_bind hr fun _ => .ok trivial

theorem Reach.Holds.of_ok {r : Reach α} {a : α} (h : r.Holds P) (e : r = .ok a) : P a := by simpa [e] using h
theorem Reach.Holds.of_hold {r : Reach α} (h : r.Holds P) (e : r = .hold s) : s.m.canon := by simpa [e] using h
theorem Reach.Holds.of_page {r : Reach α} {home ia : Nat} (h : r.Holds P) (e : r = .page s home ia) : s.m.canon := by
  simpa [e] using h

theorem reachAll_reads {f : α → Reach β} (hf : ∀ a, (f a).reads) (l : List α) : (reachAll f l).reads := by
  induction l with
  | nil => exact .ok trivial
  | cons a l ih => exact Reach.reads_bind (hf a) fun b => Reach.reads_map ih _
end

theorem State.reach_reads (h : s.m.canon) (n : Need) : (s.reach n).reads := by
  unfold State.reach
  dsimp only
  split
  · split <;> simp [h]
  · split <;> simp [h]
  all_goals simp [h]

theorem State.readPieceBy_reads (h : s.m.canon) (master ctx home ia n : Nat) : (s.readPieceBy master ctx home ia n).reads :=
  Reach.reads_map (State.reach_reads h _) _

theorem State.readIaBy_reads (h : s.m.canon) (master ctx ia n : Nat) : (s.readIaBy master ctx ia n).reads :=
  Reach.reads_map (reachAll_reads (fun _ => State.readPieceBy_reads h ..) _) _

theorem State.readIa_reads (h : s.m.canon) (ctx ia n : Nat) : (s.readIa ctx ia n).reads := State.readIaBy_reads h ..

theorem State.reachWrite_reads (h : s.m.canon) (master ctx : Nat) (w : SecW) : (s.reachWrite master ctx w).reads :=
  Reach.reads_bind (State.reach_reads h _) fun x => by
    (repeat' split) <;> simp [h]

@[simp] theorem State.putSec_canon (h : s.m.canon) (ctx : Nat) (w : SecW) (x : Xl) : (s.putSec ctx w x).m.canon := by
  unfold State.putSec
  refine State.complete_canon ?_ ..
  split <;> simp [h]

/-- What is written is a state with canonical memory. -/
abbrev Reach.writes (r : Reach State) : Prop := r.Holds fun s => s.m.canon

theorem Reach.writes_map {r : Reach State} {f : State → State} (hr : r.writes) (hf : ∀ s, s.m.canon → (f s).m.canon) :
    (r.bind fun s => .ok (f s)).writes :=
  Reach.holds_bind hr fun s h => .ok (hf s h)

theorem State.writeSecsBy_writes (h : s.m.canon) (master ctx : Nat) (ws : List SecW) : (s.writeSecsBy master ctx ws).writes :=
  Reach.reads_bind (reachAll_reads (fun _ => State.reachWrite_reads h ..) _) fun xs => by
    refine .ok (foldl_canon _ (fun s q h => ?_) _ h)
    split <;> simp [h]

theorem State.writeSecs_writes (h : s.m.canon) (ctx : Nat) (ws : List SecW) : (s.writeSecs ctx ws).writes := State.writeSecsBy_writes h ..

theorem State.writeIaBy_writes (h : s.m.canon) (master ctx ia : Nat) (l : List PByte) : (s.writeIaBy master ctx ia l).writes :=
  State.writeSecsBy_writes h ..

theorem State.writeIa_writes (h : s.m.canon) (ctx ia : Nat) (l : List PByte) : (s.writeIa ctx ia l).writes := State.writeIaBy_writes h ..

theorem State.indexList_reads (h : s.m.canon) (ctx : Nat) (v : View) (off n : Nat) : (s.indexList ctx v off n).reads := by
  unfold State.indexList
  split
  · exact .ok trivial
  · exact reachAll_reads (fun _ => Reach.reads_map (State.readIa_reads h ..) _) _

theorem State.resolvePiece_reads (h : s.m.canon) (id ctx : Nat) (va : DWord) (n : Nat) (acc : Acc) :
    (s.resolvePiece id ctx va n acc).reads := by
  unfold State.resolvePiece
  have hi (v : View) (off : Nat) := State.indexList_reads h ctx v off n
  dsimp only
  (repeat' split) <;> simp [Reach.reads_map, hi]

theorem State.readBytesAt_reads (h : s.m.canon) (ctx : Nat) (l : List BAt) : (s.readBytesAt ctx l).reads :=
  Reach.reads_map (reachAll_reads (fun _ => Reach.reads_map (State.readPieceBy_reads h ..) _) _) _

theorem State.readVa_reads (h : s.m.canon) (id ctx : Nat) (va : DWord) (n : Nat) : (s.readVa id ctx va n).reads := by
  refine Reach.reads_map (reachAll_reads (fun p => Reach.reads_bind (State.resolvePiece_reads h ..) fun o => ?_) _) _
  split
  · exact .ok trivial
  · exact Reach.reads_map (State.readBytesAt_reads h ..) _

theorem State.writesVa_reads (h : s.m.canon) (id ctx : Nat) (va : DWord) (l : List PByte) : (s.writesVa id ctx va l).reads :=
  Reach.reads_map (reachAll_reads (fun _ => Reach.reads_map (State.resolvePiece_reads h ..) _) _) _

/-! Delta. -/

theorem State.evictSlot_writes (h : s.m.canon) (q : DSlot) : (s.evictSlot q).writes :=
  Reach.holds_bind (State.writeSecs_writes h ..) fun s h => by
    dsimp only
    split <;> simp [h]

/-- What loading a slot comes to has canonical memory. -/
def SlotRes.canon : SlotRes → Prop
  | .got s _ _ | .wait s | .page s _ _ => s.m.canon
  | .fail _ | .poison | .viol _ _ => True

@[simp] theorem SlotRes.canon_got (q : DSlot) (k : Nat) : (SlotRes.got s q k).canon ↔ s.m.canon := Iff.rfl
@[simp] theorem SlotRes.canon_wait : (SlotRes.wait s).canon ↔ s.m.canon := Iff.rfl

theorem Reach.slot_canon {α : Type} {P : α → Prop} {r : Reach α} {f : α → SlotRes} (hr : r.Holds P) (hf : ∀ a, P a → (f a).canon) :
    (r.slot f).canon := by
  cases hr with
  | ok h => exact hf _ h
  | hold h => exact h
  | page h => exact h
  | viol => trivial

theorem State.readSlot_reads (h : s.m.canon) (ctx ia : Nat) : (s.readSlot ctx ia).reads :=
  Reach.reads_map (reachAll_reads (fun k => Reach.reads_bind (State.reach_reads h _) fun x => by
    (repeat' split) <;> simp [h]) _) _

@[simp] theorem State.enterSlot_canon (h : s.m.canon) (q : DSlot) : (s.enterSlot q).1.m.canon := by
  unfold State.enterSlot
  dsimp only
  split <;> simp [h]

theorem State.slotRoom_canon (h : s.m.canon) (core : Nat) {go : State → SlotRes} (hg : ∀ s, s.m.canon → (go s).canon) :
    (s.slotRoom core go).canon := by
  unfold State.slotRoom
  split
  · exact hg s h
  · split
    · exact h
    · split
      · exact hg _ h
      · exact Reach.slot_canon (State.evictSlot_writes h _) hg

theorem State.loadSlot_canon (h : s.m.canon) (core ctx layer : Nat) : (s.loadSlot core ctx layer).canon := by
  unfold State.loadSlot
  split
  · dsimp only
    split
    · exact State.slotRoom_canon h _ fun s h => h
    · exact h
  · refine Reach.slot_canon (State.readSlot_reads h ..) fun l _ => ?_
    dsimp only
    split
    · trivial
    · split
      · trivial
      · split
        · trivial
        · split
          · trivial
          · refine State.slotRoom_canon h _ fun s h => ?_
            exact Reach.slot_canon (State.writeIa_writes (s := s.fresh) h ..) fun s h => State.enterSlot_canon h _

theorem Env.slotFail_canon (h : e.s.m.canon) {r : SlotRes} (hr : r.canon) {onFail : Nat → Res} (hf : ∀ k, (onFail k).canon) :
    (e.slotFail r onFail).canon := by
  cases r
  case fail k => exact hf k
  case poison => trivial
  case viol ia acc => exact State.violation_canon h ..
  all_goals exact hr

theorem execDslot_canon (h : s.m.canon) (hd : Hdr) (d : Option Nat) (a : Src) : NextCanon (execDslot hd d a s) :=
  threadOp_canon h fun e h => by
    have hl := State.loadSlot_canon h e.g.core e.g.ctx (e.src a).toNat
    dsimp only
    split
    · trivial
    · split
      · next s q k hq => rw [hq] at hl; simpa using hl
      · exact Env.slotFail_canon h hl fun k => by simp [h]

theorem execDmul_canon (h : s.m.canon) (hd : Hdr) (d : Nat) (a b : Src) (c : Option Nat) : NextCanon (execDmul hd d a b c s) :=
  threadOp_canon h fun e h => by
    have hl := State.loadSlot_canon h e.g.core e.g.ctx (e.src a).toNat
    dsimp only
    split
    · trivial
    · split
      · next s q k hq =>
        rw [hq] at hl
        have hs : s.m.canon := hl
        have he := Env.enter_canon (e := { e with s := s }) hs (.dmul (e.src a).toNat (e.src b).toNat) d c
          (granulesOf (e.src b).toNat (2 * q.k * q.m))
        (repeat' split) <;> simp_all
      · exact Env.slotFail_canon h hl fun k => trivial

theorem Env.afterCalls_canon (h : e.s.m.canon) (a : Src) {f : Nat → Res} (hf : ∀ k, (f k).canon) : (e.afterCalls a f).canon := by
  unfold Env.afterCalls
  dsimp only
  split
  · exact h
  · exact hf _

theorem execDinval_canon (h : s.m.canon) (hd : Hdr) (d : Option Nat) (a : Src) : NextCanon (execDinval hd d a s) :=
  threadOp_canon h fun e h => Env.afterCalls_canon h a fun layer => by
    split
    · simp [h]
    · next q _ =>
      have hv := State.evictSlot_writes h { q with valid := false }
      split <;> simp_all [Env.slotFail]

theorem State.readRows_reads (h : s.m.canon) (ctx ia pitch n : Nat) : (s.readRows ctx ia pitch n).reads :=
  reachAll_reads (fun _ => State.readIa_reads h ..) _

theorem State.startCall_reads (h : s.m.canon) (q : DSlot) (g : Workgroup) (x v : Nat) : (s.startCall q g x v).reads :=
  Reach.reads_bind (State.readRows_reads h ..) fun _ => Reach.reads_map (State.readRows_reads h ..) _

@[simp] theorem State.takeStep_m (s : State) (q : MEnt) (run : Option DRun) : (s.takeStep q run).m = s.m := rfl

@[simp] theorem State.failCall_canon (h : s.m.canon) (q : MEnt) (ia : Nat) (acc : Acc) : (s.failCall q ia acc).m.canon := by
  simp [State.failCall, State.lateTrap_canon, h]

@[simp] theorem State.grantGo_canon (h : s.m.canon) (core f : Nat) (skip : List Nat) : (State.grantGo core f skip s).m.canon := by
  induction f generalizing s skip with
  | zero => exact h
  | succ f ih =>
    unfold State.grantGo
    split
    · exact h
    · next q _ =>
      split
      · split
        · next dq g _ _ =>
          extract_lets v held
          have hc := State.startCall_reads h dq g
          split
          · split
            · refine ih ?_ _
              exact h
            · exact h
          · next s' hs =>
            refine ih ?_ _
            exact Reach.Holds.of_hold (s := s') (hc _ _) hs
          · next s' _ _ hs =>
            refine ih ?_ _
            exact Reach.Holds.of_page (s := s') (hc _ _) hs
          · exact ih (State.failCall_canon h ..) _
        · exact ih h _
      · exact h
      · exact h

theorem execMatrixGrant_canon (h : s.m.canon) (core : Nat) : NextCanon (execMatrixGrant core s) := by
  unfold execMatrixGrant
  simp only [nextCanon_next]
  split <;> simp [h]

theorem State.readPanels_reads (h : s.m.canon) (q : DSlot) (c : Nat) (blocks : List Nat) : (s.readPanels q c blocks).reads :=
  reachAll_reads (fun _ => Reach.reads_bind (State.readIa_reads h ..) fun _ => Reach.reads_map (State.readIa_reads h ..) _) _

theorem State.callTiles_reads (h : s.m.canon) (q : DSlot) (g : Workgroup) (r : DRun) (x : Nat) : (s.callTiles q g r x).reads :=
  Reach.reads_bind (State.readRows_reads h ..) fun _ => Reach.reads_bind (State.readRows_reads h ..) fun _ =>
    reachAll_reads (fun _ => Reach.reads_map (State.readPanels_reads h ..) _) _

@[simp] theorem State.endCall_m (s : State) (q : MEnt) (layer : Nat) (r : DRun) : (s.endCall q layer r).m = s.m := by
  simp [State.endCall]

@[simp] theorem State.callStep_canon (h : s.m.canon) (q : MEnt) (layer x : Nat) (ds : DSlot) (g : Workgroup) (r : DRun) :
    (s.callStep q layer x ds g r).m.canon := by
  unfold State.callStep
  extract_lets +onlyGivenNames put finish
  have hp (s : State) (r : DRun) (h : s.m.canon) : (put s r).m.canon := h
  have hf {o : Reach State} (ho : o.writes) : (finish o).m.canon := by
    unfold finish
    cases ho with
    | ok h => exact h
    | hold h => exact h
    | page h => exact h
    | viol =>
      refine State.failCall_canon ?_ ..
      exact h
  clear_value put finish
  split
  · split
    · exact h
    · exact hf (Reach.reads_bind (State.callTiles_reads h ..) fun ts => (Reach.holds_ok _).mpr (hp _ _ h))
  · split
    · exact hf (Reach.writes_map (State.writeIa_writes h ..) fun s h => hp _ _ h)
    · split
      · exact hf (Reach.reads_bind (State.readIa_reads h ..) fun old => Reach.writes_map (State.writeIa_writes h ..) fun s h => hp _ _ h)
      · simp [h]

theorem execDeltaWriteback_canon (h : s.m.canon) (core idx : Nat) : NextCanon (execDeltaWriteback core idx s) := by
  unfold execDeltaWriteback
  (repeat' split) <;> simp [h]

end Sys2Proof.Machine
end

section
namespace Sys2Proof.Machine

variable {s : State} {m : Mem} {e : Env}

/-! The engines' commands. -/

theorem State.fetchLoc_reads (h : s.m.canon) (c : Cmd) (g : Workgroup) (tile : Bool) (at_ n : Nat) : (s.fetchLoc c g tile at_ n).reads := by
  unfold State.fetchLoc
  split
  · exact .ok trivial
  · exact State.readVa_reads h ..

/-- What is written is a state with canonical memory, where it is not refused. -/
abbrev Reach.mayWrite (r : Reach (Option State)) : Prop := r.Holds fun o => ∀ s ∈ o, s.m.canon

theorem State.putLoc_mayWrite (h : s.m.canon) (c : Cmd) (tile : Bool) (q : Nat × List PByte) : (s.putLoc c tile q).mayWrite := by
  unfold State.putLoc
  split
  · simp [h]
  · refine Reach.reads_bind (State.writesVa_reads h ..) fun o => ?_
    split
    · simp
    · exact Reach.holds_bind (State.writeSecs_writes h ..) fun s h => by simp [h]

theorem State.putRuns_mayWrite (h : s.m.canon) (c : Cmd) (l : List (Nat × List PByte)) : (s.putRuns c l).mayWrite := by
  induction l generalizing s with
  | nil => simp [State.putRuns, h]
  | cons q l ih =>
    refine Reach.holds_bind (State.putLoc_mayWrite h c false q) fun o ho => ?_
    split
    · simp
    · exact ih (ho _ rfl)

theorem State.putAll_mayWrite (h : s.m.canon) (c : Cmd) (tile : Bool) (l : List Part) : (s.putAll c tile l).mayWrite := by
  unfold State.putAll
  split
  · simp [h]
  · exact State.putRuns_mayWrite h ..

@[simp] theorem State.keepSec_canon (h : s.m.canon) (c : Cmd) (view : Bool) (home sec : Nat) : (s.keepSec c view home sec).m.canon := by
  unfold State.keepSec
  split
  · split
    · dsimp only
      split <;> simp [h]
    · simp [h]
  · exact h

@[simp] theorem State.keepRead_canon (h : s.m.canon) (c : Cmd) (tile : Bool) (va n : Nat) : (s.keepRead c tile va n).m.canon := by
  unfold State.keepRead
  split
  · exact h
  · refine foldl_canon _ (fun s p h => ?_) _ h
    split
    · exact foldl_canon _ (fun s sec h => State.keepSec_canon h ..) _ h
    · exact h

/-- The state that a part of a command leaves has canonical memory. -/
abbrev Reach.runs (r : Reach Ran) : Prop := r.Holds fun q => q.s.m.canon

theorem ranOr_runs (h : s.m.canon) (n : Nat) {o : Option State} (ho : ∀ s ∈ o, s.m.canon) : (ranOr s n o).runs := by
  unfold ranOr
  split
  · simpa using ho
  · simp [h]

theorem State.expandGroups_runs (h : s.m.canon) (c : Cmd) (g : Workgroup) (q : Copy) (f src p n : Nat) :
    (State.expandGroups c g q f src p n s).runs := by
  induction f generalizing s src p n with
  | zero => exact .ok h
  | succ f ih =>
    unfold State.expandGroups
    extract_lets +onlyGivenNames k ctx bad stop
    have hs : stop.runs := .ok h
    split
    · exact hs
    · refine Reach.reads_bind (State.fetchLoc_reads h ..) fun o => ?_
      split
      · exact hs
      · dsimp only
        split
        · exact hs
        · refine Reach.reads_bind (State.fetchLoc_reads h ..) fun o => ?_
          split
          · exact hs
          · refine Reach.holds_bind (State.putAll_mayWrite (State.keepRead_canon h ..) ..) fun o ho => ?_
            split
            · exact .ok h
            · exact ih (ho _ rfl) ..

theorem State.putLoc_ranOr (h : s.m.canon) (c : Cmd) (tile : Bool) (q : Nat × List PByte) (n : Nat) :
    ((s.putLoc c tile q).bind (ranOr s n)).runs :=
  Reach.holds_bind (State.putLoc_mayWrite h ..) fun _ ho => ranOr_runs h n ho

theorem State.putAll_ranOr (h : s.m.canon) (c : Cmd) (tile : Bool) (l : List Part) (n : Nat) :
    ((s.putAll c tile l).bind (ranOr s n)).runs :=
  Reach.holds_bind (State.putAll_mayWrite h ..) fun _ ho => ranOr_runs h n ho

theorem State.runCopy_runs (h : s.m.canon) (c : Cmd) (g : Workgroup) (lo hi : Nat) : (s.runCopy c g lo hi).runs := by
  unfold State.runCopy
  dsimp only
  split
  · exact State.expandGroups_runs h ..
  · refine Reach.reads_bind (State.fetchLoc_reads h ..) fun o => ?_
    split
    · exact .ok h
    · have hk := State.keepRead_canon h c (copyOf c.fn c.blk).srcTile ((copyOf c.fn c.blk).src + lo) (hi - lo)
      split
      · exact State.putLoc_ranOr hk ..
      · exact State.putAll_ranOr hk ..
      · exact State.putLoc_ranOr hk ..
      · exact State.putAll_ranOr hk ..

theorem State.firstGroup_reads (h : s.m.canon) (c : Cmd) (g : Workgroup) (q : Copy) : (s.firstGroup c g q).reads := by
  unfold State.firstGroup
  split
  · exact .ok trivial
  · exact Reach.reads_map (State.fetchLoc_reads h ..) _

theorem State.runCpyz_runs (h : s.m.canon) (c : Cmd) (g : Workgroup) : (s.runCpyz c g).runs := .ok h

theorem State.frameOf_reads (h : s.m.canon) (c : Cmd) (va : Nat) : (s.frameOf c va).reads := by
  unfold State.frameOf
  refine Reach.reads_bind (State.resolvePiece_reads h ..) fun o => ?_
  (repeat' split) <;> simp [h]

theorem State.examineOpen_reads (h : s.m.canon) (c : Cmd) (blk : List Byte) (bank : Bool) : (s.examineOpen c blk bank).reads := by
  unfold State.examineOpen
  split
  · exact .ok trivial
  · refine Reach.reads_bind (State.frameOf_reads h ..) fun o => ?_
    (repeat' split) <;> simp

@[simp] theorem State.openIt_m (s : State) (c : Cmd) (tok : Nat) (bank : Bool) : (s.openIt c tok bank).m = s.m := by
  unfold State.openIt
  (repeat' split) <;> rfl

theorem State.runRow_runs (h : s.m.canon) (c : Cmd) : (s.runRow c).runs := by
  unfold State.runRow
  dsimp only
  split
  · exact .ok h
  · exact Reach.reads_bind (reachAll_reads (fun _ => State.readPieceBy_reads h ..) _) fun l => .ok h

theorem State.examineBank_reads (h : s.m.canon) (c : Cmd) (b : List Byte) (g : Workgroup) : (s.examineBank c b g).reads := by
  unfold State.examineBank
  have hf := State.frameOf_reads h c (numAt b 8 8)
  dsimp only
  split
  · split
    · simp
    · split
      · simp
      · simp
      · exact Reach.reads_map hf _
  all_goals exact .ok trivial

@[simp] theorem State.setSession_m (s : State) (q : Session) : (s.setSession q).m = s.m := rfl

theorem State.runBank_runs (h : s.m.canon) (c : Cmd) : (s.runBank c).runs := by
  unfold State.runBank
  split
  · exact .ok h
  · extract_lets +onlyGivenNames q masked done
    have hd (q : Session) (n : Nat) : (done q n).runs := .ok h
    split
    · refine Reach.reads_bind (State.frameOf_reads h ..) fun o => ?_
      (repeat' split) <;> simp [h, hd]
    · exact hd ..
    · split
      · exact .ok h
      · exact hd ..
    · exact hd ..
    · exact .ok h
    · exact hd ..

theorem State.runMsu_runs (h : s.m.canon) (c : Cmd) (lo hi : Nat) : (s.runMsu c lo hi).runs := by
  unfold State.runMsu
  extract_lets +onlyGivenNames y n a secs m' s' hold
  split
  · exact .hold (foldl_canon _ (fun s q h => State.dramKeep_canon h ..) _ h)
  · extract_lets +onlyGivenNames s1 rd out bad
    have h1 : s1.m.canon := h
    have hr (va k : Nat) : (rd va k).reads := Reach.reads_map (State.readVa_reads h1 ..) _
    have ho (l : List PWord) : (out l).runs := State.putLoc_ranOr h1 ..
    have hb : bad.runs := .ok h1
    clear_value rd out bad
    split
    · refine Reach.reads_bind (hr ..) fun ox => Reach.reads_bind (hr ..) fun oy => ?_
      split
      · exact ho _
      · exact hb
    · refine Reach.reads_bind (hr ..) fun oy => ?_
      split
      · exact ho _
      · exact hb
    · refine Reach.reads_bind (hr ..) fun ox => ?_
      split
      · exact ho _
      · exact hb
    · exact ho _

theorem State.routeUp_reads (h : s.m.canon) (chip : Nat) : (s.routeUp chip).reads := Reach.reads_map (State.readIaBy_reads h ..) _

@[simp] theorem State.addPacket_m (s : State) (p : Packet) : (s.addPacket p).m = s.m := rfl
@[simp] theorem State.dropPacket_m (s : State) (cmd : Nat) : (s.dropPacket cmd).m = s.m := rfl

theorem State.runPut_runs (h : s.m.canon) (c : Cmd) (g : Workgroup) : (s.runPut c g).runs := by
  unfold State.runPut
  extract_lets +onlyGivenNames win gone
  have hg : gone.runs := .ok h
  split
  · exact hg
  · refine Reach.reads_bind (State.routeUp_reads h _) fun up => ?_
    dsimp only
    split
    · exact hg
    · split
      · exact .ok h
      · refine Reach.reads_bind (State.fetchLoc_reads h ..) fun o => ?_
        split
        · exact .ok h
        · exact .ok h

theorem State.runGet_runs (h : s.m.canon) (c : Cmd) : (s.runGet c).runs :=
  Reach.holds_bind (State.putLoc_mayWrite (s := s.dropPacket c.id) h ..) fun _ ho => ranOr_runs h _ ho

theorem Env.ecmd_canon (h : e.s.m.canon) (eng fn : Nat) (d : Option Reg) (a b : Word) (block : Bool) :
    (e.ecmd eng fn d a b block).canon := by
  unfold Env.ecmd
  dsimp only
  (repeat' split) <;> simp [h]

@[simp] theorem Env.giveR_m (e : Env) (s : State) (d : Option Reg) (x : Word) : (e.giveR s d x).m = s.m := by cases d <;> rfl

@[simp] theorem State.dropCmd_m (s : State) (c : Cmd) : (s.dropCmd c).m = s.m := by
  unfold State.dropCmd
  dsimp only
  split <;> simp

@[simp] theorem State.answerCmd_m (s : State) (c : Cmd) (v : Word) : (s.answerCmd c v).m = s.m := by
  unfold State.answerCmd
  (repeat' split) <;> simp

@[simp] theorem State.wordOf_m (s : State) (c : Cmd) (f : Workgroup → Nat → Workgroup) : (s.wordOf c f).m = s.m := by
  unfold State.wordOf
  split <;> simp

@[simp] theorem State.setTok_m (s : State) (c : Cmd) (st n : Nat) : (s.setTok c st n).m = s.m := rfl
@[simp] theorem State.addTok_m (s : State) (c : Cmd) : (s.addTok c).m = s.m := rfl
@[simp] theorem State.refuseCmd_m (s : State) (c : Cmd) (code : Nat) : (s.refuseCmd c code).m = s.m := by simp [State.refuseCmd]
@[simp] theorem State.endError_m (s : State) (c : Cmd) (code : Nat) : (s.endError c code).m = s.m := by simp [State.endError]
@[simp] theorem State.endOk_m (s : State) (c : Cmd) (n total : Nat) : (s.endOk c n total).m = s.m := by simp [State.endOk]
@[simp] theorem State.holdCmd_m (s : State) (id home ia : Nat) : (s.holdCmd id home ia).m = s.m := rfl

theorem State.examine_reads (h : s.m.canon) (c : Cmd) (g : Workgroup) (blk : List Byte) : (s.examine c g blk).reads := by
  unfold State.examine
  dsimp only
  split
  · exact .ok trivial
  · exact Reach.reads_map (State.examineOpen_reads h ..) _
  · exact .ok trivial
  · exact .ok trivial
  · split
    · exact .ok trivial
    · exact Reach.reads_map (State.firstGroup_reads h ..) _
  · exact Reach.reads_map (State.examineOpen_reads h ..) _
  · exact .ok trivial
  · exact State.examineBank_reads h ..
  · exact .ok trivial
  · exact .ok trivial

@[simp] theorem State.violCmd_canon (h : s.m.canon) (c : Cmd) (ia : Nat) (acc : Acc) : (s.violCmd c ia acc).m.canon := by
  simp [State.violCmd, h]

@[simp] theorem State.acceptCmd_m (s : State) (c : Cmd) (blk : List Byte) (ref : List Nat) : (s.acceptCmd c blk ref).m = s.m := by
  unfold State.acceptCmd
  dsimp only
  (repeat' split) <;> simp

theorem execCmdAccept_canon (h : s.m.canon) (id : Nat) : NextCanon (execCmdAccept id s) := by
  unfold execCmdAccept
  split
  · exact h
  · next c _ =>
    split
    · exact h
    · next g _ =>
      dsimp only
      split
      · exact h
      · have hx := State.examine_reads h c g (if c.block then slice g.tile c.a.toNat 64 else [])
        split
        · simp [h]
        · exact canon_ite (by simp [h]) h
        · next s' hq => exact hx.of_hold hq
        · next s' home ia hq => simpa using hx.of_page hq
        · simp only [nextCanon_next, State.endError_m]
          refine State.violCmd_canon ?_ ..
          simp [h]

theorem State.runCmd_runs (h : s.m.canon) (c : Cmd) (g : Workgroup) (hi : Nat) : (s.runCmd c g hi).runs := by
  unfold State.runCmd
  split
  · exact State.runCpyz_runs h ..
  · exact .ok h
  · exact State.runRow_runs h ..
  · exact .ok h
  · exact State.runCopy_runs h ..
  · exact .ok h
  · exact .ok h
  · exact State.runBank_runs h ..
  · exact State.runMsu_runs h ..
  · exact State.runPut_runs h ..

theorem State.finishCmd_canon (h : s.m.canon) (c : Cmd) {r : Reach Ran} (hr : r.runs) {ok : Ran → State}
    (hk : ∀ q, q.s.m.canon → (ok q).m.canon) : (s.finishCmd c r ok).m.canon := by
  cases hr with
  | ok hq =>
    unfold State.finishCmd
    dsimp only
    split
    · simpa using hq
    · exact hk _ hq
  | hold hs => exact hs
  | page hs => exact hs
  | viol => simp [State.finishCmd, h]

@[simp] theorem State.stepMsu_canon (h : s.m.canon) (c : Cmd) : (s.stepMsu c).m.canon := by
  unfold State.stepMsu
  split
  · exact State.finishCmd_canon h c (State.runMsu_runs h ..) fun q hq => by simp [hq]
  · split
    · exact h
    · refine State.finishCmd_canon h c (State.runMsu_runs h ..) fun q hq => ?_
      dsimp only
      split <;> simp [hq]

@[simp] theorem State.stepPut_canon (h : s.m.canon) (c : Cmd) (g : Workgroup) : (s.stepPut c g).m.canon := by
  unfold State.stepPut
  split
  · exact h
  · split
    · exact State.finishCmd_canon h c (State.runPut_runs h ..) fun q hq => by simp [hq]
    · split
      · simp [h]
      · split
        · exact State.finishCmd_canon h c (State.runGet_runs h ..) fun q hq => by simp [hq]
        · split <;> simp [h]
        · simp [h]
        · simp [h]

@[simp] theorem State.partCmd_canon (h : s.m.canon) (c : Cmd) : (s.partCmd c).m.canon := by
  unfold State.partCmd
  split
  · exact h
  · split
    · exact h
    · exact State.finishCmd_canon h c (State.runCmd_runs h ..) fun q hq => by simp [hq]

theorem execEngineCommandComplete_canon (h : s.m.canon) (id : Nat) : NextCanon (execEngineCommandComplete id s) := by
  unfold execEngineCommandComplete
  split
  · exact h
  · split
    · exact h
    · split
      · exact h
      · split
        · simp [h]
        · split
          · simp [h]
          · exact State.finishCmd_canon h _ (State.runCmd_runs h ..) fun q hq => by simp [hq]

theorem execPutAck_canon (h : s.m.canon) (id bytes code : Nat) : NextCanon (execPutAck id bytes code s) := by
  unfold execPutAck
  dsimp only
  (repeat' split) <;> simp [h]

theorem State.addWord_writes (h : s.m.canon) (x : Export) (off n k : Nat) : (s.addWord x off n k).writes :=
  Reach.reads_bind (State.readIaBy_reads h ..) fun _ => State.writeIaBy_writes h ..

theorem State.orErr_writes (h : s.m.canon) (x : Export) (k : Nat) : (s.orErr x k).writes :=
  Reach.reads_bind (State.readIaBy_reads h ..) fun _ => State.writeIaBy_writes h ..

theorem State.takePut_writes (h : s.m.canon) (x : Export) (wof : Nat) (data : List Byte) (poi : Bool) (sig : Option (Nat × BitVec 32)) :
    (s.takePut x wof data poi sig).writes := by
  unfold State.takePut
  dsimp only
  split
  · exact State.orErr_writes (State.violation_canon h ..) ..
  · refine Reach.holds_bind (State.writeIa_writes h ..) fun s h => ?_
    have hp : (if poi then s.orErr x 2 else .ok s).writes := by
      split
      · exact State.orErr_writes h ..
      · exact .ok h
    refine Reach.holds_bind hp fun s h => Reach.holds_bind (State.addWord_writes h ..) fun s h => ?_
    split
    · exact State.addWord_writes h ..
    · exact .ok h

@[simp] theorem State.farRetry_m (s : State) : s.farRetry.m = s.m := rfl

theorem execPutArrive_canon (h : s.m.canon) (chip exp wof : Nat) (right : Bool) (size : Nat) (data : List (BitVec 8)) (poi : Bool)
    (sig : Option (Nat × BitVec 32)) : NextCanon (execPutArrive chip exp wof right size data poi sig s) := by
  unfold execPutArrive
  split
  · exact h
  · next x _ =>
    have hp := State.takePut_writes h x wof data poi sig
    split
    · next s' hq => exact hp.of_ok hq
    · next s' hq => exact hp.of_hold hq
    · next s' _ _ hq => exact Reach.Holds.of_page (s := s') hp hq
    · simp [h]

theorem State.farElem_reads (h : s.m.canon) (x : Export) (fits : Nat → Nat → Bool) (q : FarElem) : (s.farElem x fits q).reads := by
  unfold State.farElem
  extract_lets read
  have hr (off n : Nat) (poi : Bool) : (read off n poi).reads := by
    unfold read
    split
    · exact .ok trivial
    · exact Reach.reads_map (State.readIaBy_reads h ..) _
  split
  · exact hr ..
  · refine Reach.reads_bind (hr ..) fun o => ?_
    split
    · exact .ok trivial
    · split
      · exact .ok trivial
      · exact hr ..

theorem execRemoteGetArrive_canon (h : s.m.canon) (chip exp wof : Nat) (right : Bool) (size : Nat) (ask : FarAsk) :
    NextCanon (execRemoteGetArrive chip exp wof right size ask s) := by
  unfold execRemoteGetArrive
  split
  · exact h
  · extract_lets fits r
    have hr : r.reads := by
      unfold r
      split
      · exact Reach.reads_map (State.readIaBy_reads h ..) _
      · exact Reach.reads_map (reachAll_reads (fun _ => State.farElem_reads h ..) _) _
    cases hr' : r with
    | ok o => cases o <;> exact h
    | hold s' => exact hr.of_hold hr'
    | page s' => exact Reach.Holds.of_page (s := s') hr hr'
    | viol ia a => simp [h]

end Sys2Proof.Machine
end

section
namespace Sys2Proof.Machine

variable {s : State} {m : Mem} {e : Env}

/-! System registers and faults. -/

@[simp] theorem State.xlinvStart_m (s : State) (x : Nat) : (s.xlinvStart x).m = s.m := by
  unfold State.xlinvStart
  split <;> rfl

@[simp] theorem State.xlinvEnd_canon (h : s.m.canon) : s.xlinvEnd.m.canon := by
  unfold State.xlinvEnd
  extract_lets
  split
  · exact h
  · exact h

@[simp] theorem State.rewalk_canon (h : s.m.canon) (q : Miss) : (s.rewalk q).m.canon := by
  unfold State.rewalk
  extract_lets
  refine canon_ite h (foldl_canon _ (fun s ia h => ?_) _ h)
  split <;> simp [h]

@[simp] theorem State.unmappable_canon (h : s.m.canon) (q : Miss) : (s.unmappable q).m.canon := by
  unfold State.unmappable
  extract_lets here same m1 s1 rs s2 as s3 ls s4 s5 cs s6 wake wakeAll s7 stuck s8
  have h2 : s2.m.canon := foldl_canon _ (fun s r h => by simp [State.releaseTag_m, h]) _ h
  have h3 : s3.m.canon := by
    refine foldl_canon _ (fun s a h => foldl_canon _ (fun s l h => ?_) _ ?_) _ h2
    · simp [State.releaseTag_m, h]
    · simp [h]
  have h4 : s4.m.canon := foldl_canon _ (fun s l h => by simp [State.releaseTag_m, h]) _ h3
  have h5 : s5.m.canon := (State.setWrites_canon _).mpr h4
  have h6 : s6.m.canon := foldl_canon _ (fun s c h => by split <;> simp [h]) _ h5
  rw [State.raiseHalt_m]
  exact h6

@[simp] theorem State.faultack_canon (h : s.m.canon) (x : Nat) : (s.faultack x).m.canon := by
  unfold State.faultack
  refine foldl_canon _ (fun s q h => ?_) _ h
  split <;> simp [h]

theorem execFaultackMap_canon (h : s.m.canon) (val : BitVec 64) : NextCanon (execFaultackMap val s) :=
  canon_ite (State.faultack_canon h _) h

theorem execFaultackUnmappable_canon (h : s.m.canon) (val : BitVec 64) : NextCanon (execFaultackUnmappable val s) :=
  canon_ite (State.faultack_canon h _) h

@[simp] theorem State.devWrite_canon (h : s.m.canon) (r : SysReg) (x : DWord) : (s.devWrite r x).m.canon := by
  unfold State.devWrite
  split
  · exact State.flushMissing_canon h
  · exact State.flushMissing_canon h
  all_goals simp [h]

theorem execXlinvWrite_canon (h : s.m.canon) (val : BitVec 64) : NextCanon (execXlinvWrite val s) := by
  simp [execXlinvWrite, h]

theorem execXlinvDone_canon (h : s.m.canon) : NextCanon (execXlinvDone s) := State.xlinvEnd_canon h

theorem execEvtailWrite_canon (h : s.m.canon) (val : BitVec 32) : NextCanon (execEvtailWrite val s) := State.devWrite_canon h ..
theorem execEvlostClear_canon (h : s.m.canon) : NextCanon (execEvlostClear s) := State.devWrite_canon h ..

theorem execSrd_canon (h : s.m.canon) (hd : Hdr) (num : SysReg) (ot : Bool) (d : Reg) (a : Src) :
    NextCanon (execSrd hd num ot d a s) :=
  threadOp_canon h fun e h => by
    (repeat' split) <;> simp [h, illegal]

theorem execSwr_canon (h : s.m.canon) (hd : Hdr) (num : SysReg) (ot : Bool) (a b : Src) : NextCanon (execSwr hd num ot a b s) :=
  threadOp_canon h fun e h => by
    dsimp only
    (repeat' split) <;> simp [h, illegal]

theorem execRgset_canon (h : s.m.canon) (hd : Hdr) (a b : Src) (c : Nat) : NextCanon (execRgset hd a b c s) :=
  threadOp_canon h fun e h => by
    dsimp only
    split
    · exact trivial
    · refine ite_holds (P := Res.canon) trivial (State.evictWaits_canon ?_ _)
      exact h

theorem execPerf_canon (h : s.m.canon) (hd : Hdr) (clr : Bool) (d : Reg) (a : Src) : NextCanon (execPerf hd clr d a s) :=
  threadOp_canon h fun e h => by
    dsimp only
    simp only [Res.canon_done, State.deliverN_m]
    exact canon_ite h h

theorem execTrapTaken_canon (h : s.m.canon) (core slot : Nat) : NextCanon (execTrapTaken core slot s) := by
  unfold execTrapTaken
  split
  · exact h
  · split
    · exact h
    · exact canon_ite (by simp [h]) h

@[simp] theorem State.stateError_m (s : State) (core slot : Nat) : (s.stateError core slot).m = s.m := by
  unfold State.stateError
  split
  · rfl
  · simp

theorem execUncorrectableStateError_canon (h : s.m.canon) (core slot : Nat) : NextCanon (execUncorrectableStateError core slot s) := by
  simp [execUncorrectableStateError, h]

/-! Halts, images and the return to running. -/

@[simp] theorem State.unitRun_canon (h : s.m.canon) (ctx unit : Nat) : (s.unitRun ctx unit).m.canon :=
  canon_ite (foldl_canon _ (fun _ c h => State.partCmd_canon h c) _ h) h

@[simp] theorem State.stopGets_m (s : State) (ctx : Nat) : (s.stopGets ctx).m = s.m := by
  unfold State.stopGets
  exact foldl_m _ (fun s c => by simp) _ _

@[simp] theorem State.unitEffect_m (s : State) (ctx unit : Nat) : (s.unitEffect ctx unit).m = s.m := by
  unfold State.unitEffect
  dsimp only
  (repeat' split) <;> simp

theorem eitherHolds.of_error {ε α : Type} {P : ε → Prop} {Q : α → Prop} {r : Except ε α} {x : ε} (h : eitherHolds P Q r)
    (hr : r = .error x) : P x := by rwa [hr] at h

theorem eitherHolds.of_ok {ε α : Type} {P : ε → Prop} {Q : α → Prop} {r : Except ε α} {a : α} (h : eitherHolds P Q r)
    (hr : r = .ok a) : Q a := by rwa [hr] at h

theorem State.imageWrite_canon (h : s.m.canon) (ctx ia : Nat) (l : List PByte) : BothCanon (s.imageWrite ctx ia l) := by
  have hw := State.writeIa_writes h ctx ia l
  unfold State.imageWrite
  split <;> simp_all

theorem execUnitStop_canon (h : s.m.canon) (ctx unit : Nat) : NextCanon (execUnitStop ctx unit s) := by
  unfold execUnitStop
  extract_lets +onlyGivenNames c early
  refine ite_holds (P := NextCanon) h ?_
  extract_lets area on s1 bs
  have h1 : s1.m.canon := State.unitRun_canon h ctx unit
  have hw : BothCanon (if on then s1.imageWrite ctx (area / 2 ^ 19 * 2 ^ 19 + 64 * unit) (plainBytes bs) else .ok s1) :=
    ite_holds (State.imageWrite_canon h1 ..) h1
  split
  · simp_all
  · next s2 hq =>
    rw [hq] at hw
    simpa using hw

theorem eachCtx_canon {α : Type} {f : State → α → Except State State} (hf : ∀ s a, s.m.canon → BothCanon (f s a)) (l : List α)
    (h : s.m.canon) : BothCanon (eachCtx f l s) := by
  induction l generalizing s with
  | nil => exact h
  | cons a l ih =>
    have ha := hf s a h
    unfold eachCtx
    split
    · next hq => exact ih (ha.of_ok hq)
    · next hq => exact ha.of_error hq

theorem eachCtx_imageWrite {α : Type} (h : s.m.canon) (ctx : Nat) (ia : α → Nat) (bytes : State → α → List PByte) (l : List α) :
    BothCanon (eachCtx (fun s a => s.imageWrite ctx (ia a) (bytes s a)) l s) :=
  eachCtx_canon (fun _ _ h => State.imageWrite_canon h ..) l h

theorem State.imageRead_canon (h : s.m.canon) (ctx ia n : Nat) :
    eitherHolds (fun s : State => s.m.canon) (fun q => q.1.m.canon) (s.imageRead ctx ia n) := by
  have hr := State.readIa_reads h ctx ia n
  unfold State.imageRead
  split <;> simp_all

theorem State.patchLine_canon (h : s.m.canon) (g : Workgroup) (t : Thread) : BothCanon (s.patchLine g t) := by
  unfold State.patchLine
  split
  · exact h
  · have hr := State.imageRead_canon h g.ctx (g.lineAt t.tid (imageLines g.regs)) 64
    dsimp only
    split
    · next hq => exact hr.of_error hq
    · next q hq =>
      have hw (l : List PByte) := State.imageWrite_canon (hr.of_ok hq) g.ctx (g.lineAt t.tid (imageLines g.regs)) l
      split
      · next hq => exact (hw _).of_error hq
      · next s hq => exact ((hw _).of_ok hq :)

@[simp] theorem State.patchAll_canon (h : s.m.canon) : s.patchAll.m.canon := by
  unfold State.patchAll
  refine foldl_canon _ (fun s g h => foldl_canon _ (fun s t h => ?_) _ h) _ h
  have hp := State.patchLine_canon h g t
  split <;> simp_all

theorem State.saveThread_canon (h : s.m.canon) (g : Workgroup) (t : Thread) : BothCanon (State.saveThread g s t) := by
  unfold State.saveThread
  extract_lets lines
  have hl := eachCtx_imageWrite h g.ctx (fun l => g.lineAt t.tid l) (fun _ l => plainBytes (t.line l)) lines
  split
  · next hq => exact hl.of_error hq
  · next s hq =>
    have hs := hl.of_ok hq
    split
    · exact State.patchLine_canon hs g t
    · exact State.imageWrite_canon hs ..

theorem State.saveWg_canon (s : State) (g : Workgroup) (h : s.m.canon) : BothCanon (s.saveWg g) := by
  unfold State.saveWg
  have hw (l : List PByte) := State.imageWrite_canon h g.ctx g.save l
  split
  · next hq => exact (hw _).of_error hq
  · next s hq => exact eachCtx_canon (fun s t h => State.saveThread_canon h g t) _ ((hw _).of_ok hq)

theorem State.saveAll_canon (h : s.m.canon) (ctx : Nat) : BothCanon (s.saveAll ctx) := by
  unfold State.saveAll
  have hg := eachCtx_canon State.saveWg_canon (s.wgs.filter fun g => g.ctx == ctx && !s.finished g) h
  split
  · next hq => exact hg.of_error hq
  · next s hq =>
    extract_lets base
    have hk := eachCtx_imageWrite (hg.of_ok hq) ctx (fun k => base + 0x8000 * k) (fun s k => plainBytes (s.logArea k ctx)) (s.coresOf ctx)
    split
    · next hq => exact hk.of_error hq
    · next s hq => exact (hk.of_ok hq :)

@[simp] theorem State.haltWaits_canon (h : s.m.canon) (ctx : Nat) : (s.haltWaits ctx).m.canon := by
  unfold State.haltWaits
  refine foldl_canon _ (fun s e h => ?_) _ h
  rw [State.mod_m]
  exact h

theorem execHaltComplete_canon (h : s.m.canon) (ctx : Nat) : NextCanon (execHaltComplete ctx s) := by
  unfold execHaltComplete
  extract_lets +onlyGivenNames c busy
  refine ite_holds (P := NextCanon) h ?_
  extract_lets +onlyGivenNames s1 leased
  have h1 : s1.m.canon := State.haltLeases_canon h ctx
  refine ite_holds (P := NextCanon) h1 ?_
  have hs := State.saveAll_canon (State.haltWaits_canon h1 ctx) ctx
  split
  · simp_all
  · next s2 hq =>
    rw [hq] at hs
    refine State.event_canon ?_ ..
    exact hs

theorem State.evictLine_canon (h : s.m.canon) (g : Workgroup) (t : Thread) (l : Nat) : BothCanon (s.evictLine g t l) := by
  unfold State.evictLine
  have hl := State.imageWrite_canon h g.ctx (g.lineAt t.tid l) (plainBytes (t.line l))
  split
  · next hq => exact hl.of_error hq
  · next s hq =>
    have hp := State.imageWrite_canon (hl.of_ok hq) g.ctx (g.poisonAt t.tid)
      (plainBytes (leBytes 48 (bitsOf (t.v.map (·.poi)))))
    split
    · next hq => exact hp.of_error hq
    · next s hq => exact (hp.of_ok hq :)

theorem State.makeRoom_canon (h : s.m.canon) (core slot tid n k : Nat) : BothCanon (s.makeRoom core slot tid n k) := by
  induction k generalizing s with
  | zero => exact ite_holds h h
  | succ k ih =>
    unfold State.makeRoom
    split
    · exact h
    · dsimp only
      split
      · exact h
      · next v _ =>
        have hv := State.evictLine_canon h v.1 v.2.1 v.2.2
        split
        · next hq => exact hv.of_error hq
        · next hq => exact ih (hv.of_ok hq)

theorem State.fillLine_canon (h : s.m.canon) (g : Workgroup) (t : Thread) (l : Nat) : BothCanon (State.fillLine g t s l) := by
  unfold State.fillLine
  have hr := State.imageRead_canon h g.ctx (g.lineAt t.tid l) 64
  split
  · exact h
  · split
    · next hq => exact hr.of_error hq
    · next q hq => exact hr.of_ok hq

theorem State.fillState_canon (h : s.m.canon) (g : Workgroup) (t : Thread) : BothCanon (s.fillState g t) := by
  unfold State.fillState
  split
  · exact h
  · split
    · exact State.patchLine_canon h g t
    · have hl := State.imageRead_canon h g.ctx (g.lineAt t.tid (imageLines g.regs)) 64
      split
      · next hq => exact hl.of_error hq
      · next q hq =>
        have hp := State.imageRead_canon (hl.of_ok hq) g.ctx (g.poisonAt t.tid) 48
        split
        · next hq => exact hp.of_error hq
        · next p hq =>
          have hs := hp.of_ok hq
          split
          · simp [hs]
          · refine canon_ite (State.exitThread_canon ?_ g t) ?_
            · exact hs
            · exact hs

@[simp] theorem State.toRunning_m (s : State) (ctx : Nat) : (s.toRunning ctx).m = s.m := rfl

theorem fillDone_canon {r : Except State State} (hr : BothCanon r) : NextCanon (fillDone r) := by
  cases r <;> exact hr

theorem execRegisterCacheFill_canon (h : s.m.canon) (core slot tid : Nat) : NextCanon (execRegisterCacheFill core slot tid s) := by
  unfold execRegisterCacheFill
  split
  · exact h
  · next g _ =>
    split
    · exact h
    · next t _ =>
      have hm (n k : Nat) := State.makeRoom_canon h core slot tid n k
      split
      · exact h
      · split
        · refine fillDone_canon ?_
          split
          · next hq => exact (hm ..).of_error hq
          · next hq => exact State.fillState_canon ((hm ..).of_ok hq) g t
        · split
          · refine fillDone_canon ?_
            split
            · next hq => exact (hm ..).of_error hq
            · next need _ _ s hq =>
              have hl := eachCtx_canon (fun s l h => State.fillLine_canon h g t l) need ((hm ..).of_ok hq)
              split
              · next hq => exact hl.of_error hq
              · next s hq => exact (hl.of_ok hq :)
          · exact h

/-! Contexts. -/

@[simp] theorem State.dropCtx_canon (h : s.m.canon) (ctx : Nat) : (s.dropCtx ctx).m.canon := by
  unfold State.dropCtx
  extract_lets s1 logged m1 e1 y1 s2
  have h1 : s1.m.canon := foldl_canon _ (fun s q h => by
    have hv := State.evictSlot_writes h q
    split <;> simp_all) _ h
  exact h1

theorem execContextCreation_canon (h : s.m.canon) (ctx : Nat) : NextCanon (execContextCreation ctx s) :=
  canon_ite (by simp [h]) h

theorem Env.onCtx_canon (h : e.s.m.canon) (d : Option Nat) (a : Src) {f : State → Nat → Context → State × Word}
    (hf : ∀ s k c, s.m.canon → (f s k c).1.m.canon) : (e.onCtx d a f).canon := by
  unfold Env.onCtx
  (repeat' split) <;> simp [h, hf, illegal]

theorem execCtxswOut_canon (h : s.m.canon) (hd : Hdr) (d : Option Nat) (a : Src) : NextCanon (execCtxswOut hd d a s) :=
  threadOp_canon h fun e h => Env.onCtx_canon h d a fun s k c h => by split <;> simp [h]

theorem execCtxswIn_canon (h : s.m.canon) (hd : Hdr) (d : Option Nat) (a : Src) : NextCanon (execCtxswIn hd d a s) :=
  threadOp_canon h fun e h => Env.onCtx_canon h d a fun s k c h => by (repeat' split) <;> simp [h]

theorem execCtxswDrop_canon (h : s.m.canon) (hd : Hdr) (d : Option Nat) (a : Src) : NextCanon (execCtxswDrop hd d a s) :=
  threadOp_canon h fun e h => Env.onCtx_canon h d a fun s k c h => by split <;> simp [h]

theorem execStopr_canon (h : s.m.canon) (hd : Hdr) (d : Nat) (a : Src) : NextCanon (execStopr hd d a s) :=
  threadOp_canon h fun e h => by (repeat' split) <;> simp [h, illegal]

theorem execHalt_canon (h : s.m.canon) (hd : Hdr) (code : Nat) (d : Option Nat) (a : Src) : NextCanon (execHalt hd code d a s) :=
  threadOp_canon h fun e h => Env.onCtx_canon h d a fun s k c h => by simp [h]

theorem execResume_canon (h : s.m.canon) (hd : Hdr) (d : Option Nat) (a : Src) : NextCanon (execResume hd d a s) :=
  threadOp_canon h fun e h => Env.onCtx_canon h d a fun s k c h => by split <;> simp [h]

theorem State.evictWg_canon (h : s.m.canon) (g : Workgroup) : BothCanon (s.evictWg g) := by
  unfold State.evictWg
  have hw := State.imageWrite_canon h g.ctx (g.save + g.tileOffset) (plainBytes g.tile ++ accBytes g.acc)
  split
  · next hq => exact hw.of_error hq
  · next s hq => exact (hw.of_ok hq :)

theorem execContextEvict_canon (h : s.m.canon) (core slot : Nat) : NextCanon (execContextEvict core slot s) := by
  unfold execContextEvict
  split
  · exact h
  · next g _ =>
    have hg := State.evictWg_canon h g
    (repeat' split) <;> simp_all

theorem execPartitionReturn_canon (h : s.m.canon) (core slot : Nat) : NextCanon (execPartitionReturn core slot s) := by
  unfold execPartitionReturn
  split
  · exact h
  · next g _ =>
    extract_lets +onlyGivenNames n
    have hr := State.readIa_reads h g.ctx (g.save + g.tileOffset) (n + 16384 * g.acc.length)
    refine ite_holds (P := NextCanon) h ?_
    split
    · exact h
    · next hq => exact hr.of_page hq
    · next hq => exact hr.of_hold hq
    · exact h

/-! Freezing and throttling. -/

theorem execFreezeStart_canon (h : s.m.canon) (stack : Nat) : NextCanon (execFreezeStart stack s) := by
  refine canon_ite h (State.event_canon ?_ ..)
  exact h

theorem execFreezeEnd_canon (h : s.m.canon) (temp : Nat) : NextCanon (execFreezeEnd temp s) := by
  unfold execFreezeEnd
  split
  · exact h
  · refine canon_ite (State.event_canon ?_ ..) h
    exact h

theorem execFreezeBound_canon (h : s.m.canon) : NextCanon (execFreezeBound s) := by
  unfold execFreezeBound
  split
  · exact h
  · refine ite_holds (P := NextCanon) h (State.event_canon ?_ ..)
    exact foldl_canon _ (fun s c h => by simp [h]) _ h

theorem execThrottleEnd_canon (h : s.m.canon) (r : StackTemp) : NextCanon (execThrottleEnd r s) := by
  refine canon_ite (State.event_canon ?_ ..) h
  exact h

end Sys2Proof.Machine
end

section
namespace Sys2Proof.Machine

variable {s : State} {m : Mem} {e : Env}

/-! Launches. -/

@[simp] theorem State.modCounters_m (s : State) (ctx : Nat) (f : List Counter → List Counter) : (s.modCounters ctx f).m = s.m := rfl
@[simp] theorem State.count_m (s : State) (ctx : Nat) (keys : List (Nat × Nat)) (done total : Nat) : (s.count ctx keys done total).m = s.m := rfl
@[simp] theorem State.openCounters_m (s : State) (ctx : Nat) (keys : List (Nat × Nat)) : (s.openCounters ctx keys).m = s.m := rfl
@[simp] theorem State.closeCounters_m (s : State) (ctx : Nat) (keys : List (Nat × Nat)) : (s.closeCounters ctx keys).m = s.m := rfl

theorem execQtailWrite_canon (h : s.m.canon) (q : Nat) (val : BitVec 32) : NextCanon (execQtailWrite q val s) := by
  unfold execQtailWrite
  (repeat' split) <;> simp [h]

theorem execQtailReset_canon (h : s.m.canon) (q : Nat) (val : BitVec 32) : NextCanon (execQtailReset q val s) := by
  unfold execQtailReset
  (repeat' split) <;> simp [h]

theorem execQerrClear_canon (h : s.m.canon) (q : Nat) : NextCanon (execQerrClear q s) := h

theorem execPacketTake_canon (h : s.m.canon) (q : Nat) : NextCanon (execPacketTake q s) := by
  unfold execPacketTake
  split
  · exact h
  · next x _ =>
    have hr := State.readIa_reads h x.ctx (x.slot x.head.toNat) 128
    dsimp only
    split
    · exact h
    · split
      · next hq => exact hr.of_hold hq
      · next hq => exact hr.of_page hq
      · simp [h]
      · (repeat' split) <;> simp [h]

/-- What a wait word comes to leaves memory canonical. -/
def WaitRes.canon : WaitRes → Prop
  | .no s | .refuse s _ => s.m.canon
  | .yes => True

@[simp] theorem WaitRes.canon_no : (WaitRes.no s).canon ↔ s.m.canon := Iff.rfl
@[simp] theorem WaitRes.canon_refuse (c : Nat) : (WaitRes.refuse s c).canon ↔ s.m.canon := Iff.rfl
@[simp] theorem WaitRes.canon_yes : WaitRes.yes.canon := trivial

theorem State.waitDone_canon (h : s.m.canon) (ctx : Nat) (p : List Byte) : (s.waitDone ctx p).canon := by
  unfold State.waitDone
  generalize Packet.waitValue p = v, Packet.waitWord p = w
  have he (n : Nat) : (if v ≤ n then WaitRes.yes else .no s).canon := ite_holds (P := WaitRes.canon) trivial h
  have hr := State.readVa_reads h s.nextId ctx (BitVec.ofNat 64 w) 8
  refine ite_holds (P := WaitRes.canon) trivial (ite_holds (P := WaitRes.canon) (he _) ?_)
  split
  · exact ite_holds (P := WaitRes.canon) h (he _)
  · exact h
  · next hq => exact hr.of_hold hq
  · next hq => exact hr.of_page hq
  · exact State.violation_canon h ..

@[simp] theorem State.startLaunch_m (s : State) (q : Nat) (x : Queue) (p : List Byte) (counters : List Counter) :
    (s.startLaunch q x p counters).m = s.m := rfl

theorem execLaunchStart_canon (h : s.m.canon) (q : Nat) : NextCanon (execLaunchStart q s) := by
  unfold execLaunchStart
  split
  · exact h
  · split
    · exact h
    · next p _ =>
      have hw := State.waitDone_canon h (Packet.ctx p) p
      dsimp only
      split
      · simp_all
      · simp_all
      · split
        · exact h
        · split <;> simp [h]

theorem State.clearPlace_canon (h : s.m.canon) (core threads : Nat) (a : Place) : BothCanon (s.clearPlace core threads a) := by
  unfold State.clearPlace
  have he := eachCtx_canon (fun s g h => State.evictWg_canon h g)
    (s.wgs.filter fun g => g.core == core && a.evict.contains g.slot) h
  split
  · next hq => exact he.of_error hq
  · next hq => exact State.makeRoom_canon (he.of_ok hq) ..

theorem execWgPlace_canon (h : s.m.canon) (ctx lid core : Nat) : NextCanon (execWgPlace ctx lid core s) := by
  unfold execWgPlace
  split
  · exact h
  · next l _ =>
    extract_lets +onlyGivenNames ahead
    refine ite_holds (P := NextCanon) h ?_
    split
    · exact h
    · next a _ =>
      have hc := State.clearPlace_canon h core (Packet.threads l.pkt) a
      split
      · next hq => exact hc.of_error hq
      · next s1 hq =>
        have h1 : s1.fresh.m.canon := (hc.of_ok hq :)
        extract_lets g
        have hw := State.imageWrite_canon h1 ctx (s1.headerAt ctx core a.slot) (plainBytes g.header)
        split
        · next hq => exact hw.of_error hq
        · next s2 hq => exact (hw.of_ok hq :)

@[simp] theorem State.leaveLaunch_m (s : State) (ctx lid n : Nat) : (s.leaveLaunch ctx lid n).m = s.m := rfl

theorem execWgComplete_canon (h : s.m.canon) (core slot : Nat) : NextCanon (execWgComplete core slot s) := by
  unfold execWgComplete
  split
  · exact h
  · next g _ =>
    have hw := State.imageWrite_canon h g.ctx (s.headerAt g.ctx core slot) (plainBytes (List.replicate 64 0))
    split
    · exact h
    · split
      · next hq => exact hw.of_error hq
      · next hq => exact (hw.of_ok hq :)

@[simp] theorem State.cancelCmd_canon (h : s.m.canon) (id : Nat) (running : Bool) : (s.cancelCmd id running).m.canon := by
  unfold State.cancelCmd
  extract_lets get s1 s2
  have h1 : s1.m.canon := h
  have h2 : s2.m.canon := by
    unfold s2
    split
    · exact canon_ite (State.partCmd_canon h1 _) h1
    · exact h1
  clear_value s2
  split
  · exact h2
  · simp [h2]
  · refine canon_ite ?_ ?_
    · simp [h2]
    · exact h2

@[simp] theorem State.endWork_canon (h : s.m.canon) (g : Workgroup) : (s.endWork g).m.canon := by
  unfold State.endWork
  extract_lets mine compute bad s1 s2 cmds
  have h1 : s1.m.canon := foldl_canon _ (fun s q h => by split <;> simp [h]) _ h
  have h2 : s2.m.canon := by simp [s2, h1]
  exact foldl_canon _ (fun s q h => State.cancelCmd_canon h ..) _ h2

@[simp] theorem State.hardStop_canon (h : s.m.canon) (g : Workgroup) : (s.hardStop g).m.canon := by
  unfold State.hardStop
  refine State.endWork_canon (State.endLeases_canon ?_ _) g
  exact h

@[simp] theorem State.dropLaunch_m (s : State) (l : Launch) : (s.dropLaunch l).m = s.m := rfl

@[simp] theorem State.cancel_canon (h : s.m.canon) (ctx level id : Nat) (hard : Bool) : (s.cancel ctx level id hard).m.canon := by
  unfold State.cancel
  extract_lets key s1 named s2 y s3 ls s4 gs
  have h2 : s2.m.canon := foldl_canon _ (fun s p h => by simp [h]) _ (by simp [s1, h])
  have h4 : s4.m.canon := foldl_canon _ (fun s l h => by simp [h]) _ h2
  refine foldl_canon _ (fun s g h => ?_) _ h4
  split <;> simp [h]

theorem execCancel_canon (h : s.m.canon) (hd : Hdr) (hard : Bool) (lvl : Level) (a : Src) : NextCanon (execCancel hd hard lvl a s) :=
  threadOp_canon h fun _ h => canon_ite (State.cancel_canon h ..) h

theorem execCntr_canon (h : s.m.canon) (hd : Hdr) (free : Bool) (word : CWord) (lvl : Level) (d : Reg) (a : Src) :
    NextCanon (execCntr hd free word lvl d a s) :=
  threadOp_canon h fun e h => by
    simp only [Res.canon_done, State.deliverN_m]
    exact canon_ite h h

theorem execTime_canon (h : s.m.canon) (hd : Hdr) (d : Nat) : NextCanon (execTime hd d s) :=
  threadOp_canon h fun e h => by simp [h]

theorem execWaitt_canon (h : s.m.canon) (hd : Hdr) (a : Reg) : NextCanon (execWaitt hd a s) :=
  threadOp_canon h fun e h => by
    dsimp only
    split <;> simp [h]

theorem execWaittDeadline_canon (h : s.m.canon) (core slot tid : Nat) : NextCanon (execWaittDeadline core slot tid s) := by
  unfold execWaittDeadline
  split
  · exact h
  · exact canon_ite h h

theorem Env.launch_canon (h : e.s.m.canon) (d : Option Nat) (a : Reg) (b : Src) : (e.launch d a b).canon := by
  unfold Env.launch
  have hb := Env.block128_canon h (e.pair a)
  dsimp only
  (repeat' split) <;> simp_all

theorem execLaunch_canon (h : s.m.canon) (hd : Hdr) (d : Option Nat) (a : Reg) (b : Src) : NextCanon (execLaunch hd d a b s) :=
  threadOp_canon h fun _ h => Env.launch_canon h d a b

@[simp] theorem State.finishLaunch_canon (h : s.m.canon) (r : RReq) (q : Nat) (d : Option Nat) : (s.finishLaunch r q d).m.canon := by
  unfold State.finishLaunch
  extract_lets bs answer
  have ha (s : State) (v : Word) (h : s.m.canon) : (answer s v).m.canon := by
    unfold answer
    dsimp only
    (repeat' split) <;> simp [h]
  clear_value answer
  split
  · simp [h]
  · split
    · exact ha _ _ h
    · next x _ =>
      have hw := State.writeIa_writes h r.ctx (x.slot x.tail.toNat) (plainBytes (bs.map (·.1)))
      split
      · exact ha _ _ h
      · split
        · exact ha _ _ h
        · split
          · next hq => exact ha _ _ (hw.of_ok hq :)
          · next hq => exact hw.of_hold hq
          · next hq => exact hw.of_page hq
          · simp [h]

@[simp] theorem State.finishRead_canon (h : s.m.canon) (r : RReq) : (s.finishRead r).m.canon := by
  unfold State.finishRead
  (repeat' split) <;> simp [h]

@[simp] theorem State.finishFar_canon (h : s.m.canon) (r : RReq) (win : Nat) : (s.finishFar r win).m.canon := by
  unfold State.finishFar
  (repeat' split) <;> simp [h]

theorem execLoadDataReturn_canon (h : s.m.canon) (id : Nat) : NextCanon (execLoadDataReturn id s) := by
  unfold execLoadDataReturn
  (repeat' split) <;> simp [h]

/-! The package: its tables of windows and of other chips, and the tags. -/

@[simp] theorem State.endPackets_m (s : State) (p : Cmd → Packet → Bool) : (s.endPackets p).m = s.m := by
  unfold State.endPackets
  exact foldl_m _ (fun s c => by simp) _ _

@[simp] theorem State.winsync_m (s : State) (ctx : Nat) : (s.winsync ctx).m = s.m := by
  unfold State.winsync
  dsimp only
  split <;> simp

theorem execWinsyncWrite_canon (h : s.m.canon) (ctx : Nat) : NextCanon (execWinsyncWrite ctx s) := by
  simp [execWinsyncWrite, h]

/-- As an equation of functions, and below of a predicate that is a variable: otherwise the kernel computes the table of 4096
entries to see that the two sides agree. -/
theorem State.expsync_eq : State.expsync = fun s =>
    match s.coherent chipCtx (s.y.expbase.toNat % 2 ^ 52) (4096 * 64) with
    | none => s
    | some l => { s with y := { s.y with exports := (List.range 4096).filterMap (exportOf l) } } := rfl

theorem State.expsync_holds {P : State → Prop} (h : ∀ y, P { s with y := y }) : P s.expsync := by
  rw [State.expsync_eq]
  beta_reduce
  split
  · exact h s.y
  · exact h _

@[simp] theorem State.expsync_m (s : State) : s.expsync.m = s.m := State.expsync_holds (P := fun s' => s'.m = s.m) fun _ => rfl

theorem execExpsyncWrite_canon (h : s.m.canon) : NextCanon (execExpsyncWrite s) := by
  simp [execExpsyncWrite, h]

@[simp] theorem State.endUnreachable_m (s : State) : s.endUnreachable.m = s.m := State.endPackets_m ..

@[simp] theorem State.setTag_m (s : State) (stack frame tag : Nat) : (s.setTag stack frame tag).m = s.m := rfl

@[simp] theorem State.patWrite_m (s : State) (val : DWord) : (s.patWrite val).m = s.m := by
  unfold State.patWrite
  dsimp only
  split <;> rfl

theorem execPatsetWrite_canon (h : s.m.canon) (val : BitVec 64) : NextCanon (execPatsetWrite val s) := by
  simp [execPatsetWrite, h]

/-! Dies. -/

@[simp] theorem State.dieReset_m (s : State) (d : Nat) : (s.dieReset d).m = s.m := by
  unfold State.dieReset
  dsimp only
  (repeat' split) <;> rfl

@[simp] theorem State.dieGate_m (s : State) (d : Nat) : (s.dieGate d).m = s.m := by
  unfold State.dieGate
  dsimp only
  (repeat' split) <;> rfl

@[simp] theorem State.dieUngate_m (s : State) (d : Nat) : (s.dieUngate d).m = s.m := by
  unfold State.dieUngate
  dsimp only
  (repeat' split) <;> rfl

theorem execDiectlRst_canon (h : s.m.canon) (die : Nat) : NextCanon (execDiectlRst die s) := by simp [execDiectlRst, h]
theorem execDiectlGate_canon (h : s.m.canon) (die : Nat) : NextCanon (execDiectlGate die s) := by simp [execDiectlGate, h]
theorem execDiectlUngate_canon (h : s.m.canon) (die : Nat) : NextCanon (execDiectlUngate die s) := by simp [execDiectlUngate, h]

@[simp] theorem State.dieQuiesce_canon (h : s.m.canon) (d : Nat) : (s.dieQuiesce d).m.canon := by
  unfold State.dieQuiesce
  have he := eachCtx_canon (fun s g h => State.evictWg_canon h g) ((s.wgsOnDie d).filter s.evictable) h
  split
  · next hq => exact he.of_error hq
  · next hq => exact (he.of_ok hq :)

@[simp] theorem State.dieRecall_canon (h : s.m.canon) (d : Nat) (q : DirEnt) : (s.dieRecall d q).m.canon := by
  unfold State.dieRecall
  dsimp only
  (repeat' split) <;> simp [h]

@[simp] theorem State.dieHostLines_canon (d : Nat) : (s.dieHostLines d).m.canon ↔ s.m.canon := by simp [State.dieHostLines]
@[simp] theorem State.dieForget_canon (d : Nat) : (s.dieForget d).m.canon ↔ s.m.canon := by simp [State.dieForget]

@[simp] theorem State.dieDrain_canon (h : s.m.canon) (d : Nat) : (s.dieDrain d).m.canon := by
  unfold State.dieDrain
  extract_lets s1 s2 s3
  have h1 : s1.m.canon := (State.dieHostLines_canon d).mpr h
  have h2 : s2.m.canon := foldl_canon _ (fun s q h => State.dieRecall_canon h d q) _ h1
  have h3 : s3.m.canon := State.evictWaits_canon (State.endLeases_canon h2 _) _
  refine canon_ite h1 (canon_ite h2 ?_)
  exact foldl_canon _ (fun s q h => State.dieRecall_canon h d q) _ h3

@[simp] theorem State.dieStep_canon (h : s.m.canon) (d : Nat) : (s.dieStep d).m.canon := by
  unfold State.dieStep
  dsimp only
  (repeat' split) <;> simp [h]

theorem execDieReenter_canon (h : s.m.canon) (die : Nat) (ok : Bool) : NextCanon (execDieReenter die ok s) := by
  unfold execDieReenter
  extract_lets x scrub s1 s2
  refine ite_holds (P := NextCanon) h (ite_holds (P := NextCanon) h ?_)
  have hs : (scrub s).m.canon := by
    refine Mem.watches_canon (Mem.scrubDie_canon ?_ die) _
    exact (State.dieForget_canon die).mpr h
  have h1 : s1.m.canon := canon_ite hs h
  refine State.event_canon ?_ ..
  exact h1

@[simp] theorem State.poisonLine_canon (h : s.m.canon) (home ctx line : Nat) : (s.poisonLine home ctx line).m.canon := by
  unfold State.poisonLine
  split
  · exact foldl_holds (P := Mem.canon) _ (fun m k h => Mem.setPoison_canon h ..) _ h
  · exact h

@[simp] theorem State.dieLose_canon (h : s.m.canon) (d : Nat) (q : DirEnt) : (s.dieLose d q).m.canon := by
  unfold State.dieLose
  dsimp only
  (repeat' split) <;> simp [h]

theorem execDieFail_canon (h : s.m.canon) (die : Nat) : NextCanon (execDieFail die s) := by
  unfold execDieFail
  extract_lets +onlyGivenNames x
  refine ite_holds (P := NextCanon) h ?_
  extract_lets s1 s2 gone lost back m3 s3
  have h2 : s2.m.canon := foldl_canon _ (fun s q h => State.dieLose_canon h die q) _ h
  have h3 : s3.m.canon := h2
  exact foldl_canon _ (fun s c h => by simp [h]) _ h3

/-! Errors, boot, ports and the register window. -/

@[simp] theorem State.spoilSlice_canon (h : s.m.canon) (die ctx ia : Nat) : (s.spoilSlice die ctx ia).m.canon := by
  unfold State.spoilSlice
  dsimp only
  split
  · exact canon_ite (Mem.setPoison_canon h ..) h
  · exact h

@[simp] theorem State.spoil_canon (h : s.m.canon) (p : ErrPlace) : (s.spoil p).m.canon := by
  cases p with
  | sector pa => exact Mem.mark_canon h ..
  | _ => simp [State.spoil, h]

theorem execErrorDetect_canon (h : s.m.canon) (place : ErrPlace) (corrected : Bool) : NextCanon (execErrorDetect place corrected s) := by
  unfold execErrorDetect
  refine State.event_canon ?_ ..
  exact canon_ite h (State.spoil_canon h place)

theorem execSelfTestDone_canon (h : s.m.canon) (outcome : Nat) : NextCanon (execSelfTestDone outcome s) := by
  unfold execSelfTestDone
  split
  · exact h
  · refine ite_holds (P := NextCanon) h (State.event_canon ?_ ..)
    exact h

@[simp] theorem State.modAccess_m (s : State) (master idx : Nat) (f : AEnt → AEnt) : (s.modAccess master idx f).m = s.m := by
  unfold State.modAccess
  split <;> rfl

theorem execAccessTableWrite_canon (h : s.m.canon) (master idx : Nat) (base limit : BitVec 64) :
    NextCanon (execAccessTableWrite master idx base limit s) := by simp [execAccessTableWrite, h]

theorem execPowerOnBoot_canon (h : s.m.canon) (fw cfg repair : Bool) (v : Versions) : NextCanon (execPowerOnBoot fw cfg repair v s) :=
  ite_holds (P := NextCanon) h h

theorem execAttestationRequest_canon (h : s.m.canon) (nonce : BitVec 256) : NextCanon (execAttestationRequest nonce s) := h
theorem execDoeIdeKeySet_canon (h : s.m.canon) (stream : Nat) (key : BitVec 256) : NextCanon (execDoeIdeKeySet stream key s) := h

theorem execFlitReplay_canon (h : s.m.canon) (r : PortReplay) : NextCanon (execFlitReplay r s) := by
  unfold execFlitReplay
  dsimp only
  (repeat' split) <;> simp [h]

theorem execPortRetrainComplete_canon (h : s.m.canon) (port : Nat) : NextCanon (execPortRetrainComplete port s) := h
theorem execPtpMessage_canon (h : s.m.canon) (time : Nat) : NextCanon (execPtpMessage time s) := h

@[simp] theorem State.rangeWrite_canon (h : s.m.canon) (ctx n word : Nat) (x : DWord) : (s.rangeWrite ctx n word x).m.canon := by
  unfold State.rangeWrite
  refine State.evictWaits_canon ?_ _
  exact h

@[simp] theorem State.ctxWrite_canon (h : s.m.canon) (ctx off width : Nat) (x : DWord) : (s.ctxWrite ctx off width x).m.canon := by
  unfold State.ctxWrite
  dsimp only
  (repeat' split) <;> simp [h]

@[simp] theorem State.diectl_m (s : State) (d x : Nat) : (s.diectl d x).m = s.m := by
  unfold State.diectl
  (repeat' split) <;> simp

@[simp] theorem State.chipWrite_canon (h : s.m.canon) (off width : Nat) (x : DWord) : (s.chipWrite off width x).m.canon := by
  unfold State.chipWrite
  have hx : (s.expsync).m.canon := by simp [h]
  have hd : (s.diectl ((off - 0x1000) / 8) x.toNat).m.canon := by simp [h]
  have hp : (s.patWrite x).m.canon := by simp [h]
  refine canon_ite ?_ (canon_ite h (canon_ite hd (canon_ite h (canon_ite hx (canon_ite ?_ (canon_ite hp h))))))
  · split
    · exact canon_ite (State.devWrite_canon h ..) h
    · exact h
  · rw [State.endUnreachable_m]
    exact h

@[simp] theorem State.barWrite_canon (h : s.m.canon) (off width : Nat) (x : DWord) : (s.barWrite off width x).m.canon := by
  unfold State.barWrite
  dsimp only
  refine canon_ite (State.chipWrite_canon h ..) (canon_ite (State.ctxWrite_canon h ..) (canon_ite (canon_ite ?_ h) (canon_ite ?_ h)))
  · rw [State.modQueue_m]
    exact h
  · rw [State.modAccess_m]
    exact h

theorem execRegisterWrite_canon (h : s.m.canon) (off width : Nat) (val : BitVec 64) : NextCanon (execRegisterWrite off width val s) :=
  State.barWrite_canon h ..

/-! Fetch, selection and the clock. -/

@[simp] theorem Mem.fillI_canon (l : ILine) : (m.fillI l).canon ↔ m.canon := by simp [Mem.fillI]

@[simp] theorem State.fetchTrap_m (s : State) (g : Workgroup) (t : Thread) (a : DWord) : (s.fetchTrap g t a).m = s.m := by
  unfold State.fetchTrap
  split <;> simp

@[simp] theorem State.fetchView_canon (h : s.m.canon) (g : Workgroup) (t : Thread) (a : DWord) : (s.fetchView g t a).m.canon := by
  unfold State.fetchView
  extract_lets got
  have hg : got.reads := Reach.reads_bind (State.resolvePiece_reads h ..) fun o => by
    split
    · exact .ok trivial
    · exact Reach.reads_map (State.readBytesAt_reads h ..) _
  cases hr : got with
  | ok o => cases o <;> simp [h]
  | hold s' => exact hg.of_hold hr
  | page s' => exact canon_ite (hg.of_page hr) h
  | viol ia k => exact canon_ite (by simp [h]) h

@[simp] theorem State.fetch_canon (h : s.m.canon) (g : Workgroup) (t : Thread) (a : DWord) : (s.fetch g t a).m.canon := by
  unfold State.fetch
  dsimp only
  split
  · simp [h]
  · next r _ =>
    refine canon_ite (by simp [h]) (canon_ite (by simp [h]) ?_)
    split
    · exact h
    · have hr := State.reach_reads h (unitNeed g.ctx g.ctx (r.home (r.ia a)) (lineOf (r.ia a)) 128 .fetch)
      split
      · simp [h]
      · next hq => exact hr.of_hold hq
      · next hq => exact canon_ite (hr.of_page hq) h
      · exact canon_ite (by simp [h]) h

theorem execIfetchFill_canon (h : s.m.canon) (core slot tid : Nat) : NextCanon (execIfetchFill core slot tid s) := by
  unfold execIfetchFill
  (repeat' split) <;> simp [h]

@[simp] theorem State.countReady_m (s : State) (core : Nat) (l : List Cand) : (s.countReady core l).m = s.m := by
  unfold State.countReady
  refine foldl_m _ (fun s c => ?_) _ _
  split <;> rfl

@[simp] theorem State.countBundle_m (s : State) (core ctx : Nat) (b : List Cand × List Cand) : (s.countBundle core ctx b).m = s.m := by
  unfold State.countBundle
  dsimp only
  (repeat' split) <;> rfl

@[simp] theorem State.issued_m (s : State) (core : Nat) (u : Cand) (b : List Cand × List Cand) : (s.issued core u b).m = s.m := rfl

@[simp] theorem State.select_m (s : State) (core q : Nat) : (s.select core q).m = s.m := by
  unfold State.select
  dsimp only
  split <;> simp

theorem execCollieSelect_canon (h : s.m.canon) (core q : Nat) : NextCanon (execCollieSelect core q s) :=
  canon_ite (by simp [h]) h

@[simp] theorem State.trapPath_m (s : State) (p : Path) (cause : Nat) (faddr : DWord) : (s.trapPath p cause faddr).m = s.m := rfl

@[simp] theorem State.cwbAll_canon (h : s.m.canon) : s.cwbAll.m.canon :=
  foldl_canon _ (fun _ g h => foldl_canon _ (fun _ t h => State.cwbStep_canon h g t) _ h) _ h

@[simp] theorem State.tick_canon (h : s.m.canon) (d : Nat) : (s.tick d).m.canon := by
  unfold State.tick
  extract_lets s1 s2 s3 s4
  have h3 : s3.m.canon := h
  have h4 : s4.m.canon := State.patchAll_canon (State.unitTick_canon (State.dropAll_canon (State.enterAll_canon (State.cwbAll_canon h3))))
  exact canon_ite h (foldl_canon _ (fun _ d h => State.dieStep_canon h d) _ h4)

end Sys2Proof.Machine
end

section
namespace Sys2Proof.Machine

variable {s : State} {m : Mem} {e : Env}

/-! Instructions of a thread on its registers, its workgroup and its context. -/

theorem execPair_canon (h : s.m.canon) (stall : Nat) (x y : Slot) : NextCanon (execPair stall x y s) := by
  unfold execPair
  (repeat' split) <;> simp [h]

theorem Env.jumpTo_canon (h : e.s.m.canon) (t : DWord) : (e.jumpTo t).canon := ite_holds (P := Res.canon) trivial h

theorem execCall_canon (h : s.m.canon) (hd : Hdr) (d imm : Nat) : NextCanon (execCall hd d imm s) :=
  threadOp_canon h fun e h => by simp [h]

theorem execExit_canon (h : s.m.canon) (hd : Hdr) : NextCanon (execExit hd s) :=
  threadOp_canon h fun e h => State.exitThread_canon (s := e.s.modThread ..) h e.g e.t

theorem execSleep_canon (h : s.m.canon) (hd : Hdr) (a : Src) : NextCanon (execSleep hd a s) :=
  threadOp_canon h fun _ h => ite_holds (P := Res.canon) h h

theorem execIsync_canon (h : s.m.canon) (hd : Hdr) : NextCanon (execIsync hd s) :=
  threadOp_canon h fun _ h => ite_holds (P := Res.canon) h h

theorem execEfence_canon (h : s.m.canon) (hd : Hdr) : NextCanon (execEfence hd s) :=
  threadOp_canon h fun _ h => ite_holds (P := Res.canon) h h

theorem execBarWait_canon (h : s.m.canon) (hd : Hdr) (sc : Scope) (bn : Nat) : NextCanon (execBarWait hd sc bn s) :=
  threadOp_canon h fun _ h => ite_holds (P := Res.canon) h h

theorem execCbarWait_canon (h : s.m.canon) (hd : Hdr) (sc : CScope) (bn : Nat) : NextCanon (execCbarWait hd sc bn s) :=
  threadOp_canon h fun _ h => ite_holds (P := Res.canon) h h

theorem execTgive_canon (h : s.m.canon) (hd : Hdr) (a b : Src) : NextCanon (execTgive hd a b s) :=
  threadOp_canon h fun e h => by split <;> simp [h]

theorem execTtake_canon (h : s.m.canon) (hd : Hdr) (a b : Src) : NextCanon (execTtake hd a b s) :=
  threadOp_canon h fun e h => by
    dsimp only
    (repeat' split) <;> simp [h]

theorem execVfill_canon (h : s.m.canon) (hd : Hdr) (slot : Nat) (a : Src) : NextCanon (execVfill hd slot a s) :=
  threadOp_canon h fun e h => by split <;> simp [h]

theorem execVaddrIa_canon (h : s.m.canon) (hd : Hdr) (d a : Reg) (b : Src) : NextCanon (execVaddrIa hd d a b s) :=
  threadOp_canon h fun e h => by
    dsimp only
    (repeat' split) <;> simp [h]

theorem execVaddrVa_canon (h : s.m.canon) (hd : Hdr) (d a : Reg) (b : Src) : NextCanon (execVaddrVa hd d a b s) :=
  threadOp_canon h fun e h => by
    dsimp only
    split <;> simp [h]

theorem execAcas_canon (h : s.m.canon) (hd : Hdr) (ty : ITy) (sc : Scope) (d a : Reg) (b : Src) (c : Nat) :
    NextCanon (execAcas hd ty sc d a b c s) :=
  threadOp_canon h fun _ h => ite_holds (P := Res.canon) (Env.atomic_canon h ..) (Env.atomic_canon h ..)

theorem execLchk_canon (h : s.m.canon) (hd : Hdr) (d : Nat) (a : Reg) : NextCanon (execLchk hd d a s) :=
  threadOp_canon h fun e h => by
    dsimp only
    split <;> simp [h]

theorem execAwinit_canon (h : s.m.canon) (hd : Hdr) (a b : Src) : NextCanon (execAwinit hd a b s) :=
  threadOp_canon h fun e h => by split <;> simp [h]

theorem execAwadd_canon (h : s.m.canon) (hd : Hdr) (d : Option Nat) (a b : Src) : NextCanon (execAwadd hd d a b s) :=
  threadOp_canon h fun e h => by split <;> simp [h]

theorem execAwwait_canon (h : s.m.canon) (hd : Hdr) (d : Option Nat) (a b : Src) : NextCanon (execAwwait hd d a b s) :=
  threadOp_canon h fun e h => by (repeat' split) <;> simp [h]

theorem execTmmau_canon (h : s.m.canon) (hd : Hdr) (fmt : MFmt) (sn : Nat) (kg : KSel) (kn d : Nat) (a b : Src) (c : Option Nat) :
    NextCanon (execTmmau hd fmt sn kg kn d a b c s) :=
  threadOp_canon h fun e h => by
    dsimp only
    split
    · trivial
    · refine ite_holds (P := Res.canon) trivial (ite_holds (P := Res.canon) trivial ?_)
      exact Env.entry_canon h _ kg kn d _ _ (Env.enter_canon h ..)

theorem execTperm_canon (h : s.m.canon) (hd : Hdr) (fmt : HFmt) (kg : KSel) (kn d : Nat) (a b : Src) (c : Option Nat) :
    NextCanon (execTperm hd fmt kg kn d a b c s) :=
  threadOp_canon h fun _ h => Env.entry_canon h _ kg kn d _ _ (ite_holds (P := Res.canon) trivial (Env.enter_canon h ..))

theorem execTwait_canon (h : s.m.canon) (hd : Hdr) (gn : Nat) (d : Option Nat) : NextCanon (execTwait hd gn d s) :=
  threadOp_canon h fun e h => by split <;> simp [h]

theorem execTscl_canon (h : s.m.canon) (hd : Hdr) (sb : Bool) (idx : Nat) (a : Src) : NextCanon (execTscl hd sb idx a s) :=
  threadOp_canon h fun e h => by
    dsimp only
    (repeat' split) <;> simp [h]

theorem execTpred_canon (h : s.m.canon) (hd : Hdr) (fn : TPFn) (kn : Nat) (d a : Option Reg) : NextCanon (execTpred hd fn kn d a s) :=
  threadOp_canon h fun e h => by
    dsimp only
    (repeat' split) <;> simp [h]

theorem execTcls_canon (h : s.m.canon) (hd : Hdr) (d : Option Nat) (a : Src) : NextCanon (execTcls hd d a s) :=
  threadOp_canon h fun e h => by simp [h]

theorem execTcancel_canon (h : s.m.canon) (hd : Hdr) (gn : Nat) (d : Option Nat) : NextCanon (execTcancel hd gn d s) :=
  threadOp_canon h fun e h => by simp [h]

theorem execDfresh_canon (h : s.m.canon) (hd : Hdr) (a : Src) : NextCanon (execDfresh hd a s) :=
  threadOp_canon h fun _ h => Env.afterCalls_canon h a fun _ => h

theorem execDstat_canon (h : s.m.canon) (hd : Hdr) (d : Nat) (a b : Src) : NextCanon (execDstat hd d a b s) :=
  threadOp_canon h fun _ h => Env.afterCalls_canon h a fun _ => h

theorem execCstat_canon (h : s.m.canon) (hd : Hdr) (d : Option Reg) (a b : Src) : NextCanon (execCstat hd d a b s) :=
  threadOp_canon h fun e h => by simp [h]

theorem execWcnt_canon (h : s.m.canon) (hd : Hdr) (d : Option Reg) (a b : Src) : NextCanon (execWcnt hd d a b s) :=
  threadOp_canon h fun e h => by simp [h]

/-! Events of one thread, one request or one unit. -/

theorem execSleepExpiry_canon (h : s.m.canon) (core slot tid : Nat) : NextCanon (execSleepExpiry core slot tid s) := canon_ite h h

theorem execRetryResend_canon (h : s.m.canon) (id : Nat) : NextCanon (execRetryResend id s) := h

theorem execTenureExpiry_canon (h : s.m.canon) (core ctx sec : Nat) : NextCanon (execTenureExpiry core ctx sec s) := h

theorem execIcinvComplete_canon (h : s.m.canon) (id : Nat) : NextCanon (execIcinvComplete id s) := by
  unfold execIcinvComplete
  split
  · exact h
  · exact h

/-! Every instruction and event. -/
theorem exec_canon (i : Instr) (h : s.m.canon) : NextCanon (exec i s) := by
  cases i with
  | iadd | iaddi | isub | imul | imulh | imad | imadw | iadd64 | imin | imax | iabs | and | or | xor | andi | ori
    | xori | shl | shr | sar | shli | shri | sari | rotl | bfe | bfi | popc | clz | brev | sel | iset | pset | mov
    | movi | movh | lea | lea64 | idiv | irem | p2v | v2p | fadd | fsub | fmul | ffma | fmin | fmax | famax | fneg
    | fabs | fset | frcp | frsq | fsqrt | fex2 | flg2 | fsin | fcos | fscale | frnd | fclass | hadd2 | hmul2 | hfma2
    | badd2 | bmul2 | bfma2 | hmnx2 | bmnx2 | cvt | cvtp | e4pk | e4up | fdot2 => exact laneOp_canon _ _ h
  | cpy | cpyx | cpyk | cpyz | bsopen | bsrow | bsclose | bkon | bkoff | bkact | bkbc | bkmac | bkred | bkrd | bkclr
    | maxpy | mscal | msum | mfill | fput | fputs | fget => exact threadOp_canon h fun _ h => Env.ecmd_canon h ..
  | pair => exact execPair_canon h ..
  | nop | bra | sign | cdecl | yield | vclr | vqry | fence | barSync | barArrive | cbarSync | cbarArrive | tcommit
    | ttest => exact threadOp_canon h fun _ h => h
  | brx | ret => exact threadOp_canon h fun _ h => Env.jumpTo_canon h _
  | call => exact execCall_canon h ..
  | exit => exact execExit_canon h ..
  | join | joinr => exact threadOp_canon h fun _ h => Env.joinOn_canon h ..
  | sleep => exact execSleep_canon h ..
  | brk | trap => exact threadOp_canon h fun _ _ => trivial
  | isync => exact execIsync_canon h ..
  | ld | lda => exact threadOp_canon h fun _ h => Env.load_canon h ..
  | st | strl => exact threadOp_canon h fun _ h => Env.store_canon h ..
  | pref => exact threadOp_canon h fun _ h => Env.prefetch_canon h ..
  | tgive => exact execTgive_canon h ..
  | ttake => exact execTtake_canon h ..
  | vset => exact threadOp_canon h fun _ h => Env.vset_canon h ..
  | vaddrIa => exact execVaddrIa_canon h ..
  | vaddrVa => exact execVaddrVa_canon h ..
  | vfill => exact execVfill_canon h ..
  | atom | atomf => exact threadOp_canon h fun _ h => Env.atomic_canon h ..
  | acas => exact execAcas_canon h ..
  | red | redf => exact threadOp_canon h fun _ h => Env.reduce_canon h ..
  | lchk => exact execLchk_canon h ..
  | waita => exact threadOp_canon h fun _ h => Env.waita_canon h ..
  | awinit => exact execAwinit_canon h ..
  | awadd => exact execAwadd_canon h ..
  | awwait => exact execAwwait_canon h ..
  | barWait => exact execBarWait_canon h ..
  | cbarWait => exact execCbarWait_canon h ..
  | efence => exact execEfence_canon h ..
  | tmma | ttrn | trsum | tzero | tlda | tsta => exact threadOp_canon h fun _ h => Env.entry_canon h _ _ _ _ _ _ (Env.enter_canon h ..)
  | tmmau => exact execTmmau_canon h ..
  | tperm => exact execTperm_canon h ..
  | twait => exact execTwait_canon h ..
  | tscl => exact execTscl_canon h ..
  | tpred => exact execTpred_canon h ..
  | tcls => exact execTcls_canon h ..
  | tcancel => exact execTcancel_canon h ..
  | dfresh => exact execDfresh_canon h ..
  | dstat => exact execDstat_canon h ..
  | cstat => exact execCstat_canon h ..
  | wcnt => exact execWcnt_canon h ..
  | yieldExpiry | scoreboardResultArrive | matrixClassAging | bstreamForcedClose | bankSessionIdleEnd => exact h
  | sleepExpiry => exact execSleepExpiry_canon h ..
  | tenureExpiry => exact execTenureExpiry_canon h ..
  | retryResend => exact execRetryResend_canon h ..
  | xlinvWrite => exact execXlinvWrite_canon h ..
  | xlinvDone => exact execXlinvDone_canon h
  | evtailWrite => exact execEvtailWrite_canon h ..
  | evlostClear => exact execEvlostClear_canon h
  | icinvComplete => exact execIcinvComplete_canon h ..
  | icinv => exact execIcinv_canon h ..
  | ldt => exact execLdt_canon h ..
  | stt => exact execStt_canon h ..
  | cwb => exact execCwb_canon h ..
  | cinv => exact execCinv_canon h ..
  | chint => exact execChint_canon h ..
  | own => exact execOwn_canon h ..
  | lease => exact execLease_canon h ..
  | lrel => exact execLrel_canon h ..
  | dslot => exact execDslot_canon h ..
  | dmul => exact execDmul_canon h ..
  | dinval => exact execDinval_canon h ..
  | srd => exact execSrd_canon h ..
  | swr => exact execSwr_canon h ..
  | rgset => exact execRgset_canon h ..
  | ctxswOut => exact execCtxswOut_canon h ..
  | ctxswIn => exact execCtxswIn_canon h ..
  | ctxswDrop => exact execCtxswDrop_canon h ..
  | pzap => exact execPzap_canon h ..
  | launch => exact execLaunch_canon h ..
  | cancel => exact execCancel_canon h ..
  | cntr => exact execCntr_canon h ..
  | time => exact execTime_canon h ..
  | waitt => exact execWaitt_canon h ..
  | perf => exact execPerf_canon h ..
  | stopr => exact execStopr_canon h ..
  | halt => exact execHalt_canon h ..
  | resume => exact execResume_canon h ..
  | collieSelect => exact execCollieSelect_canon h ..
  | barrierArrivalApply => exact execBarrierArrivalApply_canon h ..
  | ifetchFill => exact execIfetchFill_canon h ..
  | homeReadRequest => exact execHomeReadRequest_canon h ..
  | writeArrival => exact execWriteArrival_canon h ..
  | writeComplete => exact execWriteComplete_canon h ..
  | loadDataReturn => exact execLoadDataReturn_canon h ..
  | viewCompose => exact execViewCompose_canon h ..
  | pageWalk => exact execPageWalk_canon h ..
  | sideLogRetire => exact execSideLogRetire_canon h ..
  | sideLogReplay => exact execSideLogReplay_canon h ..
  | atomicExecute => exact execAtomicExecute_canon h ..
  | msuExecute => exact execMsuExecute_canon h ..
  | waitaTimeout => exact execWaitaTimeout_canon h ..
  | leaseRequestArrive => exact execLeaseRequestArrive_canon h ..
  | leaseGrant => exact execLeaseGrant_canon h ..
  | leaseExpiry => exact execLeaseExpiry_canon h ..
  | leaseDrainComplete => exact execLeaseDrainComplete_canon h ..
  | dirRds => exact execDirRds_canon h ..
  | dirRdx => exact execDirRdx_canon h ..
  | dirWriteback => exact execDirWriteback_canon h ..
  | dirWritebackKeep => exact execDirWritebackKeep_canon h ..
  | dirCleanEviction => exact execDirCleanEviction_canon h ..
  | visitorProbe => exact execVisitorProbe_canon h ..
  | visitorAck => exact execVisitorAck_canon h ..
  | dirAckReceive => exact execDirAckReceive_canon h ..
  | hostMemRead => exact execHostMemRead_canon h ..
  | hostMemWrite => exact execHostMemWrite_canon h ..
  | bisnpResponse => exact execBisnpResponse_canon h ..
  | hostSnoop => exact execHostSnoop_canon h ..
  | hostSnoopTimeout => exact execHostSnoopTimeout_canon h ..
  | trapTaken => exact execTrapTaken_canon h ..
  | uncorrectableStateError => exact execUncorrectableStateError_canon h ..
  | unitStop => exact execUnitStop_canon h ..
  | haltComplete => exact execHaltComplete_canon h ..
  | contextEvict => exact execContextEvict_canon h ..
  | freezeStart => exact execFreezeStart_canon h ..
  | freezeEnd => exact execFreezeEnd_canon h ..
  | freezeBound => exact execFreezeBound_canon h ..
  | throttleEnd => exact execThrottleEnd_canon h ..
  | matrixGrant => exact execMatrixGrant_canon h ..
  | matrixEntryComplete => exact execMatrixEntryComplete_canon h ..
  | deltaWriteback => exact execDeltaWriteback_canon h ..
  | cmdAccept => exact execCmdAccept_canon h ..
  | engineCommandComplete => exact execEngineCommandComplete_canon h ..
  | putArrive => exact execPutArrive_canon h ..
  | putAck => exact execPutAck_canon h ..
  | flitReplay => exact execFlitReplay_canon h ..
  | ptpMessage => exact execPtpMessage_canon h ..
  | qtailWrite => exact execQtailWrite_canon h ..
  | qtailReset => exact execQtailReset_canon h ..
  | qerrClear => exact execQerrClear_canon h ..
  | packetTake => exact execPacketTake_canon h ..
  | launchStart => exact execLaunchStart_canon h ..
  | wgPlace => exact execWgPlace_canon h ..
  | wgComplete => exact execWgComplete_canon h ..
  | faultackMap => exact execFaultackMap_canon h ..
  | faultackUnmappable => exact execFaultackUnmappable_canon h ..
  | winsyncWrite => exact execWinsyncWrite_canon h ..
  | expsyncWrite => exact execExpsyncWrite_canon h ..
  | patsetWrite => exact execPatsetWrite_canon h ..
  | diectlRst => exact execDiectlRst_canon h ..
  | diectlGate => exact execDiectlGate_canon h ..
  | diectlUngate => exact execDiectlUngate_canon h ..
  | dieReenter => exact execDieReenter_canon h ..
  | dieFail => exact execDieFail_canon h ..
  | errorDetect => exact execErrorDetect_canon h ..
  | selfTestDone => exact execSelfTestDone_canon h ..
  | accessTableWrite => exact execAccessTableWrite_canon h ..
  | powerOnBoot => exact execPowerOnBoot_canon h ..
  | attestationRequest => exact execAttestationRequest_canon h ..
  | registerWrite => exact execRegisterWrite_canon h ..
  | waittDeadline => exact execWaittDeadline_canon h ..
  | registerCacheFill => exact execRegisterCacheFill_canon h ..
  | contextCreation => exact execContextCreation_canon h ..
  | partitionReturn => exact execPartitionReturn_canon h ..
  | remoteGetArrive => exact execRemoteGetArrive_canon h ..
  | portRetrainComplete => exact execPortRetrainComplete_canon h ..
  | doeIdeKeySet => exact execDoeIdeKeySet_canon h ..

/-! One step. -/

@[simp] theorem State.asking_canon (i : Instr) : (s.asking i).m.canon ↔ s.m.canon := by simp [State.asking]
@[simp] theorem State.asked_canon (i : Instr) : (s.asked i).m.canon ↔ s.m.canon := by simp [State.asked]

/-- The state in which a path issues has canonical memory. -/
def Issue.canon : Issue → Prop
  | .done s | .run _ s => s.m.canon
  | .nowhere => True

theorem State.issue_canon (h : s.m.canon) (p : Path) : (s.issue p).canon := by
  unfold State.issue
  split
  · trivial
  · split
    · exact h
    · refine ite_holds (P := Issue.canon) h ?_
      split
      · exact h
      · exact ite_holds (P := Issue.canon) h h

theorem State.runPath_canon (h : s.m.canon) (p : Path) : NextCanon (s.runPath p) := by
  have hi := State.issue_canon h p
  unfold State.runPath
  split
  · trivial
  · next s' hq =>
    rw [hq] at hi
    exact hi
  · next i s' hq =>
    rw [hq] at hi
    exact exec_canon i hi

theorem State.runEvent_canon (h : s.m.canon) (i : Instr) : NextCanon (s.runEvent i) := by
  have hx : NextCanon (exec i (s.asking i)) := exec_canon i ((State.asking_canon i).mpr h)
  unfold State.runEvent
  split
  · next s' hq =>
    rw [hq] at hx
    exact (State.asked_canon i).mpr hx
  · exact hx

theorem State.runMove_canon (h : s.m.canon) (q : Move) : NextCanon (s.runMove q) := by
  unfold State.runMove
  split
  · exact ite_holds (P := NextCanon) (State.runEvent_canon h _) h
  · split
    · exact State.runEvent_canon h _
    · exact State.tick_canon h _
  · exact h

theorem step_canon (h : s.m.canon) : NextCanon (step s) := by
  unfold step
  split
  · refine State.runPath_canon ?_ _
    exact h
  · split
    · refine State.runMove_canon ?_ _
      exact h
    · refine State.runMove_canon ?_ _
      exact h

/-- Settles O57: every instruction and event, each by what its unit does, keeps the canonical form, and so does the clock. -/
theorem stepKeepsMemoryCanonical : Obligations.StepKeepsMemoryCanonical := by
  intro s s' h hs
  have hc := step_canon h
  rw [hs] at hc
  exact hc

/-- Settles O58: at reset every list of memory is empty. -/
theorem resetMemory : Obligations.ResetMemory :=
  ⟨⟨rfl, rfl, rfl, rfl, rfl⟩, fun _ => rfl, fun _ => rfl, fun _ => rfl⟩

end Sys2Proof.Machine
end

section
/-! SUPPORT. Statements about lane-class instructions: what an arm of exec computes in a lane is what the thread then holds
(laneOp_gives), so that each statement asks the arm and the value of its result only. -/

namespace Sys2Proof.Machine

/-- No register and no predicate has two results. -/
def LaneRes.Distinct (r : LaneRes) : Prop := (r.regs.map (·.1)).Nodup ∧ (r.preds.map (·.1)).Nodup

theorem r1_distinct (d : Reg) (x : Word) : (r1 d x).Distinct := by simp [LaneRes.Distinct, r1]

theorem r2_distinct (d : Reg) (x : DWord) : (r2 d x).Distinct := by
  cases d <;> simp [LaneRes.Distinct, r2, Reg.regs, List.range_succ]

theorem rp_distinct (n : Nat) (b : Bool) : (rp n b).Distinct := by simp [LaneRes.Distinct, rp]

theorem width_distinct (wide : Bool) (d : Reg) (x : Word) (y : DWord) : (if wide then r2 d y else r1 d x).Distinct := by
  split
  · exact r2_distinct d y
  · exact r1_distinct d x

variable {e : Env} {i : Instr} {f : Env → LaneRes}

/-- A lane-class instruction gives what its arm computes. -/
theorem gives_of_arm {r : LaneRes} (hx : exec i e.s = laneOp i f e.s) (h : e.runsLane i) (hr : f e = r) (hd : r.Distinct) :
    e.gives i r := by
  subst hr
  exact laneOp_gives f hx h hd.1 hd.2

theorem gives_r1 {d : Reg} {x : Word} (hx : exec i e.s = laneOp i f e.s) (h : e.runsLane i) (hr : f e = r1 d x) :
    e.gives i (r1 d x) := gives_of_arm hx h hr (r1_distinct d x)

theorem gives_r2 {d : Reg} {x : DWord} (hx : exec i e.s = laneOp i f e.s) (h : e.runsLane i) (hr : f e = r2 d x) :
    e.gives i (r2 d x) := gives_of_arm hx h hr (r2_distinct d x)

theorem gives_rp {n : Nat} {b : Bool} (hx : exec i e.s = laneOp i f e.s) (h : e.runsLane i) (hr : f e = rp n b) :
    e.gives i (rp n b) := gives_of_arm hx h hr (rp_distinct n b)

theorem gives_width {wide : Bool} {d : Reg} {x : Word} {y : DWord} (hx : exec i e.s = laneOp i f e.s) (h : e.runsLane i)
    (hr : f e = if wide then r2 d y else r1 d x) : e.gives i (if wide then r2 d y else r1 d x) :=
  gives_of_arm hx h hr (width_distinct wide d x y)

end Sys2Proof.Machine
end

section
/-! SUPPORT. Integer operations (R52). -/

namespace Sys2Proof.Machine

variable {n : Nat}

theorem pickMin_signed (x y : BitVec n) : pickMin true x y = BitVec.ofInt n (min x.toInt y.toInt) := by
  by_cases h : y.toInt < x.toInt
  · simp [pickMin, BitVec.slt_eq_decide, h, min_eq_right h.le]
  · simp [pickMin, BitVec.slt_eq_decide, h, min_eq_left (not_lt.1 h)]

theorem pickMin_unsigned (x y : BitVec n) : pickMin false x y = BitVec.ofNat n (min x.toNat y.toNat) := by
  by_cases h : y.toNat < x.toNat
  · simp [pickMin, BitVec.ult_eq_decide, h, min_eq_right h.le]
  · simp [pickMin, BitVec.ult_eq_decide, h, min_eq_left (not_lt.1 h)]

theorem pickMax_signed (x y : BitVec n) : pickMax true x y = BitVec.ofInt n (max x.toInt y.toInt) := by
  by_cases h : x.toInt < y.toInt
  · simp [pickMax, BitVec.slt_eq_decide, h, max_eq_right h.le]
  · simp [pickMax, BitVec.slt_eq_decide, h, max_eq_left (not_lt.1 h)]

theorem pickMax_unsigned (x y : BitVec n) : pickMax false x y = BitVec.ofNat n (max x.toNat y.toNat) := by
  by_cases h : x.toNat < y.toNat
  · simp [pickMax, BitVec.ult_eq_decide, h, max_eq_right h.le]
  · simp [pickMax, BitVec.ult_eq_decide, h, max_eq_left (not_lt.1 h)]

/-- Settles O1: the arm of each operation computes it; minimum and maximum are those of the operands as integers. -/
theorem integerBinaryResults : Obligations.IntegerBinaryResults := by
  intro e h d a b
  refine ⟨fun _ hr => gives_r1 rfl hr rfl, fun _ hr => gives_r1 rfl hr rfl, fun _ hr => gives_r1 rfl hr rfl,
    fun ty hr => ?min, fun ty hr => ?max, fun _ hr => gives_width rfl hr rfl, fun _ hr => gives_width rfl hr rfl,
    fun _ hr => gives_width rfl hr rfl, fun _ hr => gives_r1 rfl hr rfl⟩
  case min =>
    cases ty with
    | i32 => exact gives_r1 rfl hr (congrArg (r1 d) (pickMin_signed _ _))
    | n32 => exact gives_r1 rfl hr (congrArg (r1 d) (pickMin_unsigned _ _))
    | i64 => exact gives_r2 rfl hr (congrArg (r2 d) (pickMin_signed _ _))
    | n64 => exact gives_r2 rfl hr (congrArg (r2 d) (pickMin_unsigned _ _))
  case max =>
    cases ty with
    | i32 => exact gives_r1 rfl hr (congrArg (r1 d) (pickMax_signed _ _))
    | n32 => exact gives_r1 rfl hr (congrArg (r1 d) (pickMax_unsigned _ _))
    | i64 => exact gives_r2 rfl hr (congrArg (r2 d) (pickMax_signed _ _))
    | n64 => exact gives_r2 rfl hr (congrArg (r2 d) (pickMax_unsigned _ _))

end Sys2Proof.Machine
end

section
/-! SUPPORT. Shifts by a register (R53). -/

namespace Sys2Proof.Machine

variable {w : Nat}

/-- A left shift by the width or more gives 0. -/
theorem shiftLeft_count (x : BitVec w) (n : Nat) : x <<< n = if w ≤ n then 0 else x <<< n := by
  split
  · next h => exact BitVec.shiftLeft_eq_zero h
  · rfl

theorem ushiftRight_count (x : BitVec w) (n : Nat) : x >>> n = if w ≤ n then 0 else x >>> n := by
  split
  · next h => exact BitVec.ushiftRight_eq_zero h
  · rfl

/-- An arithmetic right shift by the width or more fills the result with the sign. -/
theorem sshiftRight_count (x : BitVec w) (n : Nat) :
    x.sshiftRight n = if w ≤ n then (if x.msb then -1 else 0) else x.sshiftRight n := by
  split
  · next h =>
    refine BitVec.eq_of_getLsbD_eq fun k hk => ?_
    have hn : ¬ n + k < w := by omega
    rw [BitVec.getLsbD_sshiftRight]
    cases hx : x.msb <;> simp [hk, hn, BitVec.neg_one_eq_allOnes]
  · rfl

/-- A binary operation by the width of its type (R51), with its two operations in other words. -/
theorem binW_width (e : Env) (ty : ITy) (d : Reg) (a b : Src) {f f' : Word → Word → Word} {g g' : DWord → DWord → DWord}
    (hf : ∀ x y, f x y = f' x y) (hg : ∀ x y, g x y = g' x y) : e.binW ty d a b f g =
      if ty.wide then r2 d (g' (e.src64 a) (e.src64 b)) else r1 d (f' (e.src a) (e.src b)) := by
  simp only [Env.binW, hf, hg]

/-- Settles O2: a count below the width shifts, and one of the width or more shifts everything out. -/
theorem registerShiftResults : Obligations.RegisterShiftResults := by
  intro e h d a b ty
  refine ⟨fun hr => gives_width rfl hr ?shl, fun hr => gives_width rfl hr ?shr, fun hr => gives_width rfl hr ?sar⟩
  case shl => exact binW_width e ty d a b (fun x y => shiftLeft_count x _) (fun x y => shiftLeft_count x _)
  case shr => exact binW_width e ty d a b (fun x y => ushiftRight_count x _) (fun x y => ushiftRight_count x _)
  case sar => exact binW_width e ty d a b (fun x y => sshiftRight_count x _) (fun x y => sshiftRight_count x _)

end Sys2Proof.Machine
end

section
/-! SUPPORT. Immediate forms (R54). -/

namespace Sys2Proof.Machine

/-- The upper half of the result of movh. -/
theorem movh_half (k : Nat) : BitVec.ofNat 32 (k % 65536 * 65536) = (BitVec.ofNat 16 k).setWidth 32 <<< 16 := by
  refine BitVec.eq_of_toNat_eq ?_
  simp [Nat.shiftLeft_eq]

/-- A decoder that ends with an unmet check answers no instruction, whatever it reads before (bind_ne_ok). -/
theorem need_ne_ok {b : Bool} (h : b = false) (c : DecodeErr) (j i : Instr) : (need b c >>= fun _ => .ok j) ≠ .ok i := by
  subst h
  exact nofun

theorem bind_ne_ok {α : Type} {x : Dec α} {k : α → Dec Instr} {i : Instr} (h : ∀ a, k a ≠ .ok i) : (x >>= k) ≠ .ok i := by
  cases x with
  | error c => exact nofun
  | ok a => exact h a

theorem decodeFull_int {f : Fields} (h : f.op < 0x040) : decodeFull f = decodeInt f := if_pos h

theorem decodeInt_shift_ne_ok {f : Fields} (ho : f.op ∈ [0x014, 0x015, 0x016]) (hk : 31 < f.imm) (i : Instr) :
    decodeInt f ≠ .ok i := by
  have hb : decide (f.imm < 32) = false := decide_eq_false (by omega)
  simp only [List.mem_cons, List.not_mem_nil, or_false] at ho
  rcases ho with ho | ho | ho <;> simp only [decodeInt, ho] <;>
    exact bind_ne_ok fun d => bind_ne_ok fun a => need_ne_ok hb _ _ i

theorem decodeInt_movh_ne_ok {f : Fields} (ho : f.op = 0x022) (hk : 0xFFFF < f.imm) (i : Instr) : decodeInt f ≠ .ok i := by
  have hb : decide (f.imm < 65536) = false := decide_eq_false (by omega)
  simp only [decodeInt, ho]
  exact bind_ne_ok fun d => bind_ne_ok fun a => need_ne_ok hb _ _ i

/-- Settles O3: each form computes with the sign-extended immediate, and the decoder checks the range of the others. -/
theorem immediateResults : Obligations.ImmediateResults := by
  intro e h d a k
  refine ⟨fun hr => gives_r1 rfl hr rfl, fun hr => gives_r1 rfl hr rfl, fun hr => gives_r1 rfl hr rfl,
    fun hr => gives_r1 rfl hr rfl, fun hr => gives_r1 rfl hr rfl, fun hr => gives_r1 rfl hr rfl,
    fun hr => gives_r1 rfl hr rfl, fun hr => gives_r1 rfl hr rfl, fun hr => gives_r1 rfl hr ?half,
    fun op hop f ho hk i => ?shift, fun f ho hk i => ?movh⟩
  case half => rw [movh_half]
  case shift =>
    subst ho
    have hlt : f.op < 0x040 := by
      simp only [List.mem_cons, List.not_mem_nil, or_false] at hop
      omega
    rw [decodeFull_int hlt]
    exact decodeInt_shift_ne_ok hop hk i
  case movh =>
    rw [decodeFull_int (by omega)]
    exact decodeInt_movh_ne_ok ho hk i

end Sys2Proof.Machine
end

section
/-! SUPPORT. Multiplication and division (R55, R56): operands and results as integers. -/

namespace Sys2Proof.Machine

/-- The integer that a word stands for under a 32-bit type (R51). -/
def styInt : STy → Word → Int
  | .i32, x => x.toInt
  | .n32, x => (x.toNat : Int)

theorem ofInt_styInt (ty : STy) (x : Word) : BitVec.ofInt 32 (styInt ty x) = x := by
  cases ty <;> simp [styInt]

/-- Extending a word to 64 bits keeps the integer. -/
theorem ofInt_styInt_ext (ty : STy) (x : Word) : BitVec.ofInt 64 (styInt ty x) = ext64 ty x := by
  cases ty with
  | i32 => rfl
  | n32 =>
    refine BitVec.eq_of_toNat_eq ?_
    simp [styInt, ext64]

/-- The upper word of the 64 bits of an integer. -/
theorem upperWord_ofInt (z : Int) : (BitVec.ofInt 64 z >>> 32).setWidth 32 = BitVec.ofInt 32 (z / 2 ^ 32) := by
  refine BitVec.eq_of_toNat_eq ?_
  simp only [BitVec.toNat_setWidth, BitVec.toNat_ushiftRight, BitVec.toNat_ofInt, Nat.shiftRight_eq_div_pow]
  omega

theorem mulHigh_eq (ty : STy) (x y : Word) :
    ((ext64 ty x * ext64 ty y) >>> 32).setWidth 32 = BitVec.ofInt 32 (styInt ty x * styInt ty y / 2 ^ 32) := by
  rw [← ofInt_styInt_ext, ← ofInt_styInt_ext, ← BitVec.ofInt_mul, upperWord_ofInt]

theorem mulAdd_eq (ty : STy) (x y z : Word) :
    x * y + z = BitVec.ofInt 32 (styInt ty x * styInt ty y + styInt ty z) := by
  simp only [BitVec.ofInt_add, BitVec.ofInt_mul, ofInt_styInt]

theorem mulAddWide_eq (ty : STy) (x y : Word) (z : DWord) :
    ext64 ty x * ext64 ty y + z = BitVec.ofInt 64 (styInt ty x * styInt ty y + z.toNat) := by
  simp [BitVec.ofInt_add, BitVec.ofInt_mul, ofInt_styInt_ext]

/-- The signed quotient is the integer one, truncated toward zero. -/
theorem sdiv_eq_ofInt (x y : Word) : x.sdiv y = BitVec.ofInt 32 (x.toInt.tdiv y.toInt) := by
  refine BitVec.eq_of_toInt_eq ?_
  rw [BitVec.toInt_sdiv, BitVec.toInt_ofInt]

/-- The signed remainder is what the quotient leaves of the dividend. -/
theorem srem_eq_sub (x y : Word) : x.srem y = x - x.sdiv y * y := by
  calc x.srem y = BitVec.ofInt 32 (x.toInt.tmod y.toInt) := by rw [← BitVec.toInt_srem, BitVec.ofInt_toInt]
    _ = BitVec.ofInt 32 (x.toInt + -(x.toInt.tdiv y.toInt * y.toInt)) := by
      rw [Int.tmod_def, mul_comm y.toInt, sub_eq_add_neg]
    _ = x - x.sdiv y * y := by
      rw [BitVec.ofInt_add, BitVec.ofInt_neg, BitVec.ofInt_mul, ← sdiv_eq_ofInt, BitVec.ofInt_toInt, BitVec.ofInt_toInt,
        sub_eq_add_neg]

theorem umod_eq_sub (x y : Word) : x % y = x - x / y * y := by
  have h : x % y + x / y * y = x := BitVec.eq_of_toNat_eq (by
    have hq : x.toNat % y.toNat + x.toNat / y.toNat * y.toNat = x.toNat := Nat.mod_add_div' ..
    simp [BitVec.toNat_add, BitVec.toNat_mul, BitVec.toNat_umod, BitVec.toNat_udiv, hq, Nat.mod_eq_of_lt x.isLt])
  exact eq_sub_of_add_eq h

/-- Quotient and remainder of a signed divisor other than 0; the least integer over -1 is no exception. -/
theorem divRem_i32 {x y : Word} (h : y ≠ 0) : divRem .i32 x y = (x.sdiv y, x.srem y) := by
  rw [divRem, if_neg (by simpa using h)]
  split
  · next hm =>
    simp only [Bool.and_eq_true, beq_iff_eq] at hm
    obtain ⟨rfl, rfl⟩ := hm
    decide
  · rfl

theorem divRem_n32 {x y : Word} (h : y ≠ 0) : divRem .n32 x y = (x / y, x % y) := by
  rw [divRem, if_neg (by simpa using h)]

/-- The integer quotient, truncated toward zero. -/
def truncQuotient : STy → Word → Word → Word
  | .i32, x, y => BitVec.ofInt 32 (x.toInt.tdiv y.toInt)
  | .n32, x, y => BitVec.ofNat 32 (x.toNat / y.toNat)

/-- A quotient (R56) is all ones for a divisor of 0. -/
theorem divRem_fst (ty : STy) (x y : Word) : (divRem ty x y).1 = if y = 0 then 0xFFFFFFFF else truncQuotient ty x y := by
  by_cases h : y = 0
  · simp [divRem, h]
  rw [if_neg h]
  cases ty with
  | i32 => rw [divRem_i32 h, sdiv_eq_ofInt, truncQuotient]
  | n32 =>
    rw [divRem_n32 h, truncQuotient]
    exact BitVec.udiv_def ..

/-- A remainder (R56) is what the quotient leaves of the dividend, and the dividend for a divisor of 0. -/
theorem divRem_snd (ty : STy) (x y : Word) : (divRem ty x y).2 =
    if y = 0 then x else x - (if y = 0 then 0xFFFFFFFF else truncQuotient ty x y) * y := by
  rw [← divRem_fst]
  by_cases h : y = 0
  · simp [divRem, h]
  rw [if_neg h]
  cases ty with
  | i32 => rw [divRem_i32 h, srem_eq_sub]
  | n32 => rw [divRem_n32 h, umod_eq_sub]

/-- Settles O4: products are taken of the operands as integers and cut to the result, and the quotient fixes the remainder. -/
theorem multiplyAndDivideResults : Obligations.MultiplyAndDivideResults := by
  refine ⟨fun e h d a b => ?products, fun e h d a b ty => ?quotients⟩
  case products =>
    intro int
    have hint (ty : STy) (x : Src) : int ty x = styInt ty (e.src x) := by cases ty <;> rfl
    refine ⟨fun ty hr => gives_r1 rfl hr ?high, fun ty c hr => gives_r1 rfl hr ?add,
      fun ty c hr => gives_r2 rfl hr ?wide, fun sub x y hr => gives_r2 rfl hr rfl⟩
    case high => rw [hint, hint, ← mulHigh_eq]
    case add => rw [hint, hint, hint, ← mulAdd_eq]
    case wide => rw [hint, hint, ← mulAddWide_eq]
  case quotients =>
    refine ⟨fun hr => gives_r1 rfl hr ?quotient, fun hr => gives_r1 rfl hr ?remainder, rfl, rfl⟩
    case quotient => cases ty <;> exact congrArg (r1 d) (divRem_fst ..)
    case remainder => cases ty <;> exact congrArg (r1 d) (divRem_snd ..)

end Sys2Proof.Machine
end

section
/-! SUPPORT. Bits of results (R57, R58, R62). -/

namespace Sys2Proof.Machine

/-- Counting in a fold. -/
theorem foldl_count (p : Nat → Bool) (l : List Nat) (m : Nat) :
    l.foldl (fun n k => if p k then n + 1 else n) m = m + l.countP p := by
  induction l generalizing m with
  | nil => rfl
  | cons k l ih =>
    simp only [List.foldl_cons, ih, List.countP_cons]
    split <;> omega

theorem popCount_eq_countP (x : Word) : popCount x = (List.range 32).countP fun k => x.getLsbD k := by
  rw [popCount, foldl_count, Nat.zero_add]

/-- The number read from bits in rising order, the first uppermost. -/
theorem testBit_foldl_double (b : Nat → Bool) (m k : Nat) :
    ((List.range m).foldl (fun n i => n * 2 + (if b i then 1 else 0)) 0).testBit k = (decide (k < m) && b (m - 1 - k)) := by
  induction m generalizing k with
  | zero => simp
  | succ m ih =>
    simp only [List.range_succ, List.foldl_append, List.foldl_cons, List.foldl_nil]
    generalize (List.range m).foldl _ 0 = r at ih
    cases k with
    | zero => cases hb : b m <;> simp [Nat.testBit_zero, hb]
    | succ k =>
      have hr : (r * 2 + (if b m then 1 else 0)) / 2 = r := by split <;> omega
      rw [Nat.testBit_succ, hr, ih]
      have hj : m + 1 - 1 - (k + 1) = m - 1 - k := by omega
      rw [hj]
      simp

theorem bitRev_getLsbD (x : Word) {k : Nat} (hk : k < 32) : (bitRev x).getLsbD k = x.getLsbD (31 - k) := by
  rw [bitRev, BitVec.getLsbD_ofNat, testBit_foldl_double]
  simp [hk]

/-- Adding powers of two from some number on. -/
theorem foldl_pow_add (p : Nat → Bool) (l : List Nat) (a c : Nat) :
    l.foldl (fun n i => n + (if p i then 2 ^ i else 0)) (a + c) =
      l.foldl (fun n i => n + (if p i then 2 ^ i else 0)) a + c := by
  induction l generalizing a with
  | nil => rfl
  | cons i l ih => simp only [List.foldl_cons, Nat.add_right_comm a c, ih]

/-- The m bits added below a multiple of 2 ^ m. -/
theorem testBit_foldl_pow (p : Nat → Bool) (m c k : Nat) :
    ((List.range m).foldl (fun n i => n + (if p i then 2 ^ i else 0)) (2 ^ m * c)).testBit k =
      if k < m then p k else c.testBit (k - m) := by
  induction m generalizing c with
  | zero => simp
  | succ m ih =>
    have step : 2 ^ (m + 1) * c + (if p m then 2 ^ m else 0) = 2 ^ m * (2 * c + (if p m then 1 else 0)) := by
      split <;> ring
    rw [List.range_succ, List.foldl_append, List.foldl_cons, List.foldl_nil, ← foldl_pow_add, step, ih]
    rcases lt_trichotomy k m with h | rfl | h
    · rw [if_pos h, if_pos (Nat.lt_succ_of_lt h)]
    · cases hp : p k <;> simp
    · obtain ⟨j, rfl⟩ : ∃ j, k = m + 1 + j := ⟨k - (m + 1), by omega⟩
      have hd : (2 * c + (if p m then 1 else 0)) / 2 = c := by split <;> omega
      have hj : m + 1 + j - m = j + 1 := by omega
      rw [if_neg (by omega : ¬ m + 1 + j < m), if_neg (by omega : ¬ m + 1 + j < m + 1), hj, Nat.testBit_succ, hd,
        Nat.add_sub_cancel_left]

theorem predWord_getLsbD (e : Env) (k : Nat) :
    e.predWord.getLsbD k = if k < 7 then (e.pred k).1 else decide (k = 7) := by
  have h := testBit_foldl_pow (fun i => (e.pred i).1) 7 1 k
  rw [show 2 ^ 7 * 1 = 128 from rfl] at h
  rw [Env.predWord, BitVec.getLsbD_ofNat, h]
  split
  · next hk => simp [show k < 32 by omega]
  · next hk =>
    have h1 : Nat.testBit 1 (k - 7) = decide (k = 7) :=
      Bool.eq_iff_iff.2 (by rw [Nat.testBit_one_eq_true_iff_self_eq_zero, decide_eq_true_iff]; omega)
    by_cases h7 : k = 7 <;> simp [h1, h7]

/-- The place of the highest bit set. -/
theorem leadZeros_spec (x : Word) : leadZeros x ≤ 32 ∧ (∀ k < leadZeros x, x.getLsbD (31 - k) = false) ∧
    (leadZeros x < 32 → x.getLsbD (31 - leadZeros x) = true) := by
  by_cases hx : x = 0
  · subst hx
    exact ⟨le_rfl, fun k _ => BitVec.getLsbD_zero, fun h => absurd h (by decide)⟩
  · have h0 : x.toNat ≠ 0 := fun h => hx (BitVec.eq_of_toNat_eq h)
    have hl : x.toNat.log2 < 32 := (Nat.log2_lt h0).2 x.isLt
    have he : leadZeros x = 31 - x.toNat.log2 := by rw [leadZeros, if_neg (by simpa using hx)]
    rw [he]
    refine ⟨by omega, fun k hk => ?_, fun _ => ?_⟩
    · exact Nat.testBit_lt_two_pow (Nat.lt_log2_self.trans_le (Nat.pow_le_pow_right (by decide) (by omega)))
    · rw [show 31 - (31 - x.toNat.log2) = x.toNat.log2 by omega]
      exact Nat.testBit_log2 h0

/-- The bits of a field. -/
theorem testBit_field (x pos len k : Nat) :
    (x / 2 ^ pos % 2 ^ len).testBit k = (decide (k < len) && x.testBit (pos + k)) := by
  rw [Nat.testBit_mod_two_pow, Nat.testBit_div_two_pow, Nat.add_comm]

/-- A field of len bits with ones above it, up to 32 bits. -/
theorem testBit_onesAbove {x len k : Nat} (hx : x < 2 ^ len) (hl : len ≤ 32) (hk : k < 32) :
    (x + (2 ^ 32 - 2 ^ len)).testBit k = if k < len then x.testBit k else true := by
  have h : 2 ^ 32 - 2 ^ len = 2 ^ len * (2 ^ (32 - len) - 1) := by
    rw [Nat.mul_sub, Nat.mul_one, ← Nat.pow_add, Nat.add_sub_cancel' hl]
  rw [h, Nat.add_comm, Nat.testBit_two_pow_mul_add _ hx, Nat.testBit_two_pow_sub_one]
  have hd : ¬ k < len → k - len < 32 - len := by omega
  split
  · rfl
  · next hn => simpa using hd hn

/-- bfe, bit by bit: the field, with the upper bit of a signed one above it. -/
theorem bitExtract_getLsbD (ty : STy) (a b c : Word) {k pos len : Nat} (hp : pos = b.toNat % 32)
    (hl : len = min (c.toNat % 64) (32 - pos)) (hk : k < 32) :
    (bitExtract ty a b c).getLsbD k =
      if k < len then a.getLsbD (pos + k) else ty == .i32 && 0 < len && a.getLsbD (pos + len - 1) := by
  have hf : a.toNat / 2 ^ pos % 2 ^ len < 2 ^ len := Nat.mod_lt _ (Nat.two_pow_pos _)
  have hbit (j : Nat) : (a.toNat / 2 ^ pos % 2 ^ len).testBit j = (decide (j < len) && a.getLsbD (pos + j)) := testBit_field ..
  have hle : len ≤ 32 := by omega
  simp only [bitExtract, ← hp, ← hl]
  clear hp hl
  by_cases h0 : len = 0
  · simp [h0]
  have hpos : 0 < len := Nat.pos_of_ne_zero h0
  have hsign : (a.toNat / 2 ^ pos % 2 ^ len / 2 ^ (len - 1) % 2 == 1) = a.getLsbD (pos + len - 1) := by
    rw [Nat.add_sub_assoc hpos, beq_eq_decide, ← Nat.testBit_eq_decide_div_mod_eq, hbit]
    simp [hpos]
  rw [if_neg (by simpa using h0)]
  cases ty with
  | n32 =>
    rw [BitVec.getLsbD_ofNat, hbit]
    by_cases hkl : k < len <;> simp [hk, hkl]
  | i32 =>
    rw [hsign]
    cases hs : a.getLsbD (pos + len - 1) with
    | false =>
      rw [if_neg (by decide), BitVec.getLsbD_ofNat, hbit]
      by_cases hkl : k < len <;> simp [hk, hkl]
    | true =>
      rw [if_pos rfl, BitVec.getLsbD_ofNat, testBit_onesAbove hf hle hk, hbit]
      by_cases hkl : k < len <;> simp [hk, hkl, hpos]

/-- The bits of a mask. -/
theorem mask_getLsbD (pos len : Nat) {k : Nat} (hk : k < 32) :
    (BitVec.ofNat 32 ((2 ^ len - 1) * 2 ^ pos)).getLsbD k = decide (pos ≤ k ∧ k < pos + len) := by
  rw [BitVec.getLsbD_ofNat, Nat.testBit_mul_two_pow, Nat.testBit_two_pow_sub_one]
  rw [Bool.eq_iff_iff]
  simp only [hk, decide_true, Bool.true_and, Bool.and_eq_true, decide_eq_true_eq]
  omega

theorem bitInsert_getLsbD (a b c : Word) {k pos len : Nat} (hp : pos = c.toNat % 32)
    (hl : len = min (c.toNat / 256 % 64) (32 - pos)) (hk : k < 32) :
    (bitInsert a b c).getLsbD k = if pos ≤ k ∧ k < pos + len then b.getLsbD (k - pos) else a.getLsbD k := by
  subst hp hl
  simp only [bitInsert, BitVec.getLsbD_or, BitVec.getLsbD_and, BitVec.getLsbD_not, mask_getLsbD _ _ hk,
    BitVec.getLsbD_shiftLeft]
  split
  · next h => simp [h, hk]
  · next h => simp [h, hk]

/-- Settles O5: each result bit by bit. -/
theorem bitFieldResults : Obligations.BitFieldResults := by
  intro e h d a
  refine ⟨fun hr => gives_r1 rfl hr rfl, fun hr => gives_r1 rfl hr ?count, fun hr => ?clz,
    fun hr => ⟨_, gives_r1 rfl hr rfl, fun k hk => bitRev_getLsbD _ hk⟩,
    fun ty b c hr => ⟨_, gives_r1 rfl hr rfl, fun k hk => ?field, fun k hl hk => ?above⟩,
    fun b c hr => ⟨_, gives_r1 rfl hr rfl, fun k hk => bitInsert_getLsbD _ _ _ rfl rfl hk⟩⟩
  case count => rw [popCount_eq_countP]
  case clz =>
    obtain ⟨hle, hzero, hone⟩ := leadZeros_spec (e.src a)
    exact ⟨_, hle, gives_r1 rfl hr rfl, hzero, hone⟩
  case field => rw [bitExtract_getLsbD ty _ _ _ rfl rfl (by omega), if_pos hk]
  case above => rw [bitExtract_getLsbD ty _ _ _ rfl rfl hk, if_neg (by omega)]

end Sys2Proof.Machine
end

section
/-! SUPPORT. Comparison and predicates (R60-R62). -/

namespace Sys2Proof.Machine

variable {n : Nat}

/-- A comparison of operands as integers. -/
def cmpInt (c : ICmp) (x y : Int) : Bool :=
  match c with
  | .eq => decide (x = y)
  | .ne => decide (x ≠ y)
  | .lt => decide (x < y)
  | .le => decide (x ≤ y)
  | .gt => decide (x > y)
  | .ge => decide (x ≥ y)

/-- A comparison whose less-than and equality are those of the integers v compares those integers. -/
theorem intCmp_eq_cmpInt {sg : Bool} {v : BitVec n → Int}
    (hlt : ∀ x y, (if sg then x.slt y else x.ult y) = decide (v x < v y))
    (heq : ∀ x y, x = y ↔ v x = v y) (c : ICmp) (x y : BitVec n) : intCmp sg c x y = cmpInt c (v x) (v y) := by
  simp only [intCmp, hlt]
  rw [Bool.eq_iff_iff]
  cases c with
  | eq | ne => simp [cmpInt, heq]
  | lt | ge => simp [cmpInt]
  | le => simp [cmpInt, heq, le_iff_lt_or_eq]
  | gt =>
    simp only [cmpInt, Bool.and_eq_true, Bool.not_eq_true', decide_eq_false_iff_not, bne_iff_ne, ne_eq, heq,
      decide_eq_true_eq]
    omega

theorem intCmp_signed (c : ICmp) (x y : BitVec n) : intCmp true c x y = cmpInt c x.toInt y.toInt :=
  intCmp_eq_cmpInt (v := BitVec.toInt) (fun _ _ => if_pos rfl) (fun _ _ => BitVec.toInt_inj.symm) c x y

theorem intCmp_unsigned (c : ICmp) (x y : BitVec n) : intCmp false c x y = cmpInt c x.toNat y.toNat :=
  intCmp_eq_cmpInt (v := fun x => (x.toNat : Int)) (fun _ _ => by simp [BitVec.ult_eq_decide])
    (fun _ _ => by rw [Nat.cast_inj, BitVec.toNat_inj]) c x y

/-- Predicates below 7 that a mask names, with the bits of a word. -/
theorem mem_maskBits (x y : Word) (k : Nat) (v : Bool) :
    (k, v) ∈ (((List.range 7).filter fun i => y.getLsbD i).map fun i => (i, x.getLsbD i)) ↔
      k < 7 ∧ y.getLsbD k = true ∧ v = x.getLsbD k := by
  simp only [List.mem_map, List.mem_filter, List.mem_range]
  constructor
  · rintro ⟨i, ⟨hi, hy⟩, h⟩
    cases h
    exact ⟨hi, hy, rfl⟩
  · rintro ⟨hk, hy, rfl⟩
    exact ⟨k, ⟨hk, hy⟩, rfl⟩

theorem maskBits_nodup (x y : Word) :
    ((((List.range 7).filter fun i => y.getLsbD i).map fun i => (i, x.getLsbD i)).map (·.1)).Nodup := by
  rw [List.map_map]
  exact (List.nodup_range.filter _).map fun _ _ h => h

/-- Settles O6: the arms compute the results as the rules have them; predicates bit by bit. -/
theorem movesAndPredicates : Obligations.MovesAndPredicates := by
  intro e h d a b
  refine ⟨fun ty n inv hr => gives_width rfl hr ?sel, fun ty c n hr => gives_rp rfl hr ?iset,
    fun f n p q hr => gives_rp rfl hr ?pset,
    fun hr => ⟨_, gives_r1 rfl hr rfl, fun k hk => ?bit, ?seven, fun k hk => ?above⟩,
    fun hr => ⟨_, gives_of_arm rfl hr rfl ?distinct, rfl, rfl, fun k v => ?mask⟩,
    fun ty hr => gives_width rfl hr rfl, fun c hr => gives_r1 rfl hr rfl, fun ty x c hr => gives_r2 rfl hr ?lea⟩
  case sel =>
    simp only [Env.binW]
    cases (e.pred n).1 <;> cases inv <;> rfl
  case iset =>
    refine congrArg (rp n) ?_
    cases ty with
    | i32 => exact intCmp_signed ..
    | n32 => exact intCmp_unsigned ..
    | i64 => exact intCmp_signed ..
    | n64 => exact intCmp_unsigned ..
  case pset => cases f <;> cases (e.pred p).1 <;> cases (e.pred q).1 <;> rfl
  case bit => rw [predWord_getLsbD, if_pos hk]
  case seven => rw [predWord_getLsbD]; rfl
  case above => rw [predWord_getLsbD, if_neg (by omega), decide_eq_false (by omega)]
  case distinct => exact ⟨List.nodup_nil, maskBits_nodup _ _⟩
  case mask => exact mem_maskBits ..
  case lea => cases ty <;> rfl

end Sys2Proof.Machine
end

section
/-! SUPPORT. What a lane-class instruction leaves alone (R50, R66), from a write of one result up to the state. -/

namespace Sys2Proof.Machine

/-! Threads. -/

/-- t' is t but for the registers rs, the predicates ps and the thread's own course; its trap record differs only where the
thread has come to another state of running. -/
structure Thread.Framed (rs : List Reg) (ps : List Nat) (t t' : Thread) : Prop where
  tid : t'.tid = t.tid
  v : ∀ n, Reg.v n ∉ rs → t'.v.getD n {} = t.v.getD n {}
  p : ∀ n, n ∉ ps → t'.p.getD n {} = t.p.getD n {}
  conv : t'.conv = t.conv
  bars : t'.bars = t.bars
  cbars : t'.cbars = t.cbars
  sleep : t'.sleep = t.sleep
  holds : t'.holds = t.holds
  arrivals : t'.arrivals = t.arrivals
  record : t'.run = t.run → t'.tcause = t.tcause ∧ t'.tcode = t.tcode ∧ t'.taddr = t.taddr ∧ t'.faddr = t.faddr

/-- And the thread is in the state of running that it was in. -/
structure Thread.Quiet (rs : List Reg) (ps : List Nat) (t t' : Thread) : Prop extends Thread.Framed rs ps t t' where
  run : t'.run = t.run

variable {rs : List Reg} {ps : List Nat} {t t' t'' : Thread}

theorem Thread.Quiet.refl (t : Thread) : t.Quiet rs ps t :=
  ⟨⟨rfl, fun _ _ => rfl, fun _ _ => rfl, rfl, rfl, rfl, rfl, rfl, rfl, fun _ => ⟨rfl, rfl, rfl, rfl⟩⟩, rfl⟩

theorem Thread.Quiet.trans (h : t.Quiet rs ps t') (h' : t'.Quiet rs ps t'') : t.Quiet rs ps t'' where
  tid := h'.tid.trans h.tid
  v n hn := (h'.v n hn).trans (h.v n hn)
  p n hn := (h'.p n hn).trans (h.p n hn)
  conv := h'.conv.trans h.conv
  bars := h'.bars.trans h.bars
  cbars := h'.cbars.trans h.cbars
  sleep := h'.sleep.trans h.sleep
  holds := h'.holds.trans h.holds
  arrivals := h'.arrivals.trans h.arrivals
  record _ := by
    obtain ⟨hc, hd, ha, hf⟩ := h.record h.run
    obtain ⟨hc', hd', ha', hf'⟩ := h'.record h'.run
    exact ⟨hc'.trans hc, hd'.trans hd, ha'.trans ha, hf'.trans hf⟩
  run := h'.run.trans h.run

theorem quiet_retire (now stall : Nat) (pc : DWord) : t.Quiet rs ps (t.retire now stall pc) :=
  { Thread.Quiet.refl (rs := rs) (ps := ps) t with }

theorem quiet_waitIssue (now : Nat) : t.Quiet rs ps (t.waitIssue now) :=
  { Thread.Quiet.refl (rs := rs) (ps := ps) t with }

theorem quiet_flags (fl : Fl) : t.Quiet rs ps { t with flags := fl } :=
  { Thread.Quiet.refl (rs := rs) (ps := ps) t with }

theorem quiet_latchClock (e : Env) (i : Instr) : t.Quiet rs ps (e.latchClock i t) := by
  unfold Env.latchClock
  split
  · exact { Thread.Quiet.refl (rs := rs) (ps := ps) t with }
  · exact .refl t

/-- A trap taken by a thread that runs is another state of running. -/
theorem framed_trap (hr : t.run = .runnable) (cause : Nat) (code : Word) (taddr faddr resume : DWord) :
    t.Framed rs ps (t.trap cause code taddr faddr resume) where
  tid := rfl
  v _ _ := rfl
  p _ _ := rfl
  conv := rfl
  bars := rfl
  cbars := rfl
  sleep := rfl
  holds := rfl
  arrivals := rfl
  record h := absurd (h.trans hr) nofun

theorem getD_setV {n m : Nat} (h : m ≠ n) (c : VCell) : (t.setV m c).v.getD n {} = t.v.getD n {} := by
  rw [Thread.setV_v, List.getD_eq_getElem?_getD, List.getElem?_set_ne h, List.getD_eq_getElem?_getD]

theorem quiet_setV {m : Nat} (hm : Reg.v m ∈ rs) (c : VCell) : t.Quiet rs ps (t.setV m c) :=
  { Thread.Quiet.refl (rs := rs) (ps := ps) t with
    v := fun n hn => getD_setV (fun h : m = n => hn (h ▸ hm)) c }

/-- One register result. -/
theorem quiet_put (now : Nat) (lk : LatK) (poi : Bool) {q : Reg × Word} (hq : q.1 ∈ rs) :
    t.Quiet rs ps (t.put now lk poi q) := by
  obtain ⟨r, x⟩ := q
  cases r with
  | v m => cases lk <;> exact quiet_setV hq _
  | w m =>
    cases lk <;> exact { Thread.Quiet.refl (rs := rs) (ps := ps) t with }

/-- One predicate result. -/
theorem quiet_setP (now lat : Nat) {m : Nat} (hm : m ∈ ps) (b poi : Bool) : t.Quiet rs ps (t.setP now lat m b poi) :=
  { Thread.Quiet.refl (rs := rs) (ps := ps) t with
    p := fun n hn => by
      have h : m ≠ n := fun h => hn (h ▸ hm)
      simp [Thread.setP, List.getD_eq_getElem?_getD, h] }

theorem quiet_foldl {α : Type} {f : Thread → α → Thread} {l : List α} (hf : ∀ t, ∀ a ∈ l, Thread.Quiet rs ps t (f t a))
    (t : Thread) : t.Quiet rs ps (l.foldl f t) := by
  induction l generalizing t with
  | nil => exact .refl t
  | cons a l ih =>
    exact (hf t a List.mem_cons_self).trans (ih (fun t b hb => hf t b (List.mem_cons_of_mem a hb)) _)

/-- A result of registers rs and predicates ps only. -/
def LaneRes.Within (r : LaneRes) (rs : List Reg) (ps : List Nat) : Prop :=
  (∀ q ∈ r.regs, q.1 ∈ rs) ∧ ∀ q ∈ r.preds, q.1 ∈ ps

theorem quiet_writeLane (now : Nat) (lk : LatK) (poi : Bool) {r : LaneRes} (hr : r.Within rs ps) :
    t.Quiet rs ps (t.writeLane now lk poi r).1 := by
  rw [writeLane_eq]
  have hregs := quiet_foldl (ps := ps) (fun t q hq => quiet_put (t := t) now lk poi (hr.1 q hq)) t
  have hpreds := quiet_foldl (rs := rs) (fun t q hq =>
    quiet_setP (t := t) now (match lk with | .fixed l => l | .tracked _ _ => 4) (hr.2 q hq) q.2 poi)
    (r.regs.foldl (Thread.put now lk poi) t)
  exact (hregs.trans hpreds).trans (quiet_flags _)

theorem live_run {e : Env} (h : (!e.live) ≠ true) : e.t.run = .runnable := by
  have hlive : e.live = true := by simpa using h
  rw [Env.live, Bool.and_eq_true] at hlive
  exact beq_iff_eq.1 hlive.1

/-- One thread of a lane-class instruction. -/
theorem laneThread_framed (i : Instr) (lk : LatK) {f : Env → LaneRes} {e : Env} (hf : (f e).Within rs ps) :
    e.t.Framed rs ps (laneThread i lk f e).1 := by
  unfold laneThread
  dsimp only
  split
  · exact (Thread.Quiet.refl e.t).toFramed
  next hlive =>
  have hrun := live_run hlive
  split
  · exact (quiet_waitIssue _).toFramed
  split
  · exact framed_trap hrun ..
  split
  · exact (quiet_retire ..).toFramed
  split
  · exact framed_trap hrun ..
  split
  · exact (quiet_waitIssue _).toFramed
  · exact (((quiet_latchClock e i).trans (quiet_writeLane _ lk _ hf)).trans (quiet_retire ..)).toFramed

/-- One thread of a pair: both slots write v registers. -/
theorem pairThread_framed (stall : Nat) (x y : Slot) (e : Env) :
    e.t.Framed (Instr.pair stall x y).dsts ps (pairThread stall x y e).1 := by
  have hw {hi : Bool} {t : Slot} {l : Fl} {v : Word} (ht : Reg.v (slotReg hi t.d) ∈ (Instr.pair stall x y).dsts) :
      LaneRes.Within { regs := [(.v (e.slotRes hi t).1, v)], fl := l } (Instr.pair stall x y).dsts ps :=
    ⟨fun q hq => List.mem_singleton.1 hq ▸ ht, fun q hq => absurd hq List.not_mem_nil⟩
  unfold pairThread
  dsimp only
  split
  · exact (Thread.Quiet.refl e.t).toFramed
  next hlive =>
  have hrun := live_run hlive
  split
  · exact (quiet_waitIssue _).toFramed
  split
  · exact framed_trap hrun ..
  split
  · exact (quiet_waitIssue _).toFramed
  · refine (((quiet_writeLane _ _ _ (hw ?x)).trans (quiet_writeLane _ _ _ (hw ?y))).trans (quiet_retire ..)).toFramed
    case x => exact List.mem_cons_self
    case y => exact List.mem_cons_of_mem _ List.mem_cons_self

/-! The workgroup that has issued. -/

/-- g' is g but for the w registers of rs and the threads of the path, each of which is framed. -/
structure Workgroup.Framed (rs : List Reg) (ps tids : List Nat) (g g' : Workgroup) : Prop where
  core : g'.core = g.core
  slot : g'.slot = g.slot
  c : g'.c = g.c
  b : g'.b = g.b
  k : g'.k = g.k
  sa : g'.sa = g.sa
  sb : g'.sb = g.sb
  mcls : g'.mcls = g.mcls
  tile : g'.tile = g.tile
  tpoi : g'.tpoi = g.tpoi
  gran : g'.gran = g.gran
  acc : g'.acc = g.acc
  cancel : g'.cancel = g.cancel
  w : ∀ n, Reg.w n ∉ rs → g'.w.getD n { base := 0 } = g.w.getD n { base := 0 }
  thread : ∀ tid t, g.thread? tid = some t →
    ∃ t', g'.thread? tid = some t' ∧ t.Framed rs ps t' ∧ (tid ∉ tids → t' = t)

theorem Workgroup.Framed.refl (tids : List Nat) (g : Workgroup) : g.Framed rs ps tids g :=
  ⟨rfl, rfl, rfl, rfl, rfl, rfl, rfl, rfl, rfl, rfl, rfl, rfl, rfl, fun _ _ => rfl,
    fun _ t ht => ⟨t, ht, (Thread.Quiet.refl t).toFramed, fun _ => rfl⟩⟩

/-- A change of the threads of a path. -/
def onPath (tids : List Nat) (F : Thread → Thread) (t : Thread) : Thread := if tids.contains t.tid then F t else t

theorem onPath_off {tids : List Nat} {t : Thread} (h : t.tid ∉ tids) (F : Thread → Thread) : onPath tids F t = t :=
  if_neg (by simpa using h)

theorem onPath_framed (tids : List Nat) {F : Thread → Thread} (hF : ∀ t, Thread.Framed rs ps t (F t)) (t : Thread) :
    t.Framed rs ps (onPath tids F t) := by
  unfold onPath
  split
  · exact hF t
  · exact (Thread.Quiet.refl t).toFramed

/-- A thread after a change of the path's threads. -/
theorem find?_onPath {g : Workgroup} (tids : List Nat) {F : Thread → Thread} (hF : ∀ t, Thread.Framed rs ps t (F t))
    {tid : Nat} {t : Thread} (ht : g.thread? tid = some t) :
    ∃ t', (g.threads.map (onPath tids F)).find? (fun u => u.tid == tid) = some t' ∧ t.Framed rs ps t' ∧
      (tid ∉ tids → t' = t) := by
  refine ⟨onPath tids F t, ?_, onPath_framed tids hF t, fun h => onPath_off ?_ F⟩
  · rw [find?_map_key (fun u : Thread => u.tid) (onPath tids F) (fun u => (onPath_framed tids hF u).tid)]
    exact congrArg (Option.map (onPath tids F)) ht
  · unfold Workgroup.thread? at ht
    have htid := List.find?_some ht
    rwa [beq_iff_eq.1 htid]

/-- Writes to other w registers. -/
theorem writeW_other {now lat n : Nat} {ws : List WWrite} (h : ∀ q ∈ ws, q.w ≠ n) (g : Workgroup) :
    (g.writeW now lat ws).w.getD n { base := 0 } = g.w.getD n { base := 0 } := by
  unfold Workgroup.writeW
  dsimp only
  generalize g.w = l
  induction ws generalizing l with
  | nil => rfl
  | cons q ws ih =>
    rw [List.foldl_cons, ih (fun u hu => h u (List.mem_cons_of_mem q hu))]
    simp [List.getD_eq_getElem?_getD, h q List.mem_cons_self]

theorem laneWg_threads (i : Instr) (f : Env → LaneRes) (s : State) (p : Path) (g : Workgroup) :
    (laneWg i f s p g).threads =
      g.threads.map (onPath p.tids fun t => (laneThread i (latK i s) f { s := s, g := g, t := t, path := p }).1) := by
  unfold laneWg Workgroup.writeW
  dsimp only
  rw [List.map_map]
  exact List.map_congr_left fun t _ => apply_ite Prod.fst ..

theorem laneWg_framed {i : Instr} {f : Env → LaneRes} (hf : ∀ e, (f e).Within rs ps) (s : State) (p : Path) (g : Workgroup) :
    g.Framed rs ps p.tids (laneWg i f s p g) :=
  { Workgroup.Framed.refl (rs := rs) (ps := ps) p.tids g with
    w := fun n hn => by
      refine writeW_other (fun q hq hqn => hn ?_) _
      obtain ⟨u, hu, hq⟩ := List.mem_flatMap.1 hq
      obtain ⟨t, -, rfl⟩ := List.mem_map.1 hu
      split at hq
      · obtain ⟨-, hreg, -⟩ := laneThread_ws i _ f _ q hq
        exact hqn ▸ (hf _).1 _ hreg
      · exact absurd hq List.not_mem_nil
    thread := fun _ _ ht => by
      unfold Workgroup.thread?
      rw [laneWg_threads]
      exact find?_onPath p.tids (fun t => laneThread_framed i _ (hf { s := s, g := g, t := t, path := p })) ht }

theorem pairWg_framed (stall : Nat) (x y : Slot) (s : State) (p : Path) (g : Workgroup) :
    g.Framed (Instr.pair stall x y).dsts ps p.tids (pairWg stall x y s p g) :=
  { Workgroup.Framed.refl (rs := (Instr.pair stall x y).dsts) (ps := ps) p.tids g with
    thread := fun _ _ ht =>
      find?_onPath p.tids (fun t => pairThread_framed stall x y { s := s, g := g, t := t, path := p }) ht }

/-! The state. -/

/-- s' is s but for the request number and, in the path's workgroup, what that workgroup's frame lets change. -/
structure State.Framed (rs : List Reg) (ps : List Nat) (s s' : State) : Prop where
  m : s'.m = s.m
  e : s'.e = s.e
  y : s'.y = s.y
  ctxs : s'.ctxs = s.ctxs
  perf : s'.perf = s.perf
  now : s'.now = s.now
  ptp : s'.ptp = s.ptp
  wg : ∀ core slot g, s.wg? core slot = some g → ∃ g' tids, s'.wg? core slot = some g' ∧ g.Framed rs ps tids g' ∧
    ∀ tid ∈ tids, ∃ p, s.cur = some p ∧ p.core = core ∧ p.slot = slot ∧ tid ∈ p.tids

theorem State.Framed.refl (s : State) : s.Framed rs ps s :=
  ⟨rfl, rfl, rfl, rfl, rfl, rfl, rfl,
    fun _ _ g hg => ⟨g, [], hg, .refl [] g, fun _ h => absurd h List.not_mem_nil⟩⟩

/-- Another workgroup than the one replaced. -/
theorem wg?_setWg_other {s : State} {g : Workgroup} {c k : Nat} (h : ¬(c = g.core ∧ k = g.slot)) :
    (s.setWg g).wg? c k = s.wg? c k := by
  have hmod : s.setWg g = s.modWg g.core g.slot fun x => if x.core == g.core && x.slot == g.slot then g else x := by
    unfold State.setWg State.modWg
    congr 2 with x
    split
    · next hx => exact (if_pos hx).symm
    · rfl
  rw [hmod]
  refine State.wg?_modWg_other s _ _ _ _ _ (fun x => ?_) h
  split
  · next hx =>
    rw [Bool.and_eq_true, beq_iff_eq, beq_iff_eq] at hx
    exact ⟨hx.1.symm, hx.2.symm⟩
  · exact ⟨rfl, rfl⟩

theorem setWg_framed {s : State} {p : Path} {g g' : Workgroup} (hc : s.cur = some p) (hg : s.wg? p.core p.slot = some g)
    (hf : g.Framed rs ps p.tids g') : s.Framed rs ps (s.setWg g') :=
  { State.Framed.refl (rs := rs) (ps := ps) s with
    wg := fun core slot g₀ h₀ => by
      obtain ⟨hcore, hslot⟩ := wg?_core hg
      by_cases h : core = p.core ∧ slot = p.slot
      · obtain ⟨rfl, rfl⟩ := h
        obtain rfl := Option.some.inj (hg.symm.trans h₀)
        exact ⟨g', p.tids, wg?_setWg s g g' _ _ hg hf.core hf.slot, hf, fun tid ht => ⟨p, hc, rfl, rfl, ht⟩⟩
      · have ho : ¬(core = g'.core ∧ slot = g'.slot) := by rwa [hf.core, hf.slot, hcore, hslot]
        exact ⟨g₀, [], (wg?_setWg_other ho).trans h₀, .refl [] g₀, fun _ h => absurd h List.not_mem_nil⟩ }

theorem laneOp_framed {i : Instr} {f : Env → LaneRes} (hf : ∀ e, (f e).Within rs ps) {s s' : State}
    (h : laneOp i f s = .next s') : s.Framed rs ps s' := by
  unfold laneOp at h
  split at h
  · cases h
    exact .refl s
  next p hp =>
  split at h
  · cases h
    exact .refl s
  next g hg =>
  cases h
  have hs := setWg_framed hp hg (laneWg_framed (i := i) hf s p g)
  exact { hs with }

theorem execPair_framed {stall : Nat} {x y : Slot} {s s' : State} (h : execPair stall x y s = .next s') :
    s.Framed (Instr.pair stall x y).dsts ps s' := by
  unfold execPair at h
  split at h
  · cases h
    exact .refl s
  next p hp =>
  split at h
  · cases h
    exact .refl s
  next g hg =>
  cases h
  exact setWg_framed hp hg (pairWg_framed stall x y s p g)

end Sys2Proof.Machine
end

section
/-! SUPPORT. Every lane-class instruction is laneOp of an arm that writes its destinations only, or a pair. -/

namespace Sys2Proof.Machine

/-- exec of i is the shared operation with an arm that writes destinations of i only. -/
def IsLaneOp (i : Instr) : Prop :=
  ∃ f : Env → LaneRes, (∀ s, exec i s = laneOp i f s) ∧ ∀ e, (f e).Within i.dsts i.predDsts

theorem r1_within (d : Reg) (x : Word) (ps : List Nat) : (r1 d x).Within (d.regs 1) ps := by
  cases d <;> simp [LaneRes.Within, r1, Reg.regs]

theorem rf_within (d : Reg) (x : Nat × Fl) (ps : List Nat) : (rf d x).Within (d.regs 1) ps :=
  r1_within d (BitVec.ofNat 32 x.1) ps

theorem r2_within (d : Reg) (x : DWord) (ps : List Nat) : (r2 d x).Within (d.regs 2) ps :=
  ⟨fun _ hq => (List.of_mem_zip hq).1, fun _ hq => absurd hq List.not_mem_nil⟩

theorem width_within (wide : Bool) (d : Reg) (x : Word) (y : DWord) (ps : List Nat) :
    (if wide then r2 d y else r1 d x).Within (d.regs (if wide then 2 else 1)) ps := by
  cases wide
  · exact r1_within d x ps
  · exact r2_within d y ps

theorem pred_within (n : Nat) (b : Bool) (fl : Fl) (rs : List Reg) :
    LaneRes.Within { preds := [(n, b)], fl := fl } rs [n] :=
  ⟨fun _ hq => absurd hq List.not_mem_nil, fun q hq => by rw [List.mem_singleton.1 hq]; exact List.mem_cons_self⟩

/-- Flags are no part of what a result writes. -/
theorem LaneRes.Within.withFlags {r : LaneRes} {rs : List Reg} {ps : List Nat} (h : r.Within rs ps) (fl : Fl) :
    ({ r with fl := fl } : LaneRes).Within rs ps := h

theorem isLaneOp_or_pair {i : Instr} (h : i.laneClass = true) : IsLaneOp i ∨ ∃ stall x y, i = .pair stall x y := by
  cases i
  case iadd | isub | imul | imulh | imad | iabs | rotl | bfe | bfi | popc | clz | brev | lea | idiv | irem | p2v
      | iaddi | andi | ori | xori | shli | shri | sari | movi | movh | fneg | fabs | fclass | e4up =>
    exact .inl ⟨_, fun _ => rfl, fun _ => r1_within ..⟩
  case fadd | fsub | fmul | ffma | fmin | fmax | famax | frcp | frsq | fsqrt | fex2 | flg2 | fsin | fcos | fscale | frnd
      | hadd2 | hmul2 | hfma2 | badd2 | bmul2 | bfma2 | hmnx2 | bmnx2 | cvtp | e4pk | fdot2 =>
    exact .inl ⟨_, fun _ => rfl, fun _ => rf_within ..⟩
  case imadw | iadd64 | lea64 => exact .inl ⟨_, fun _ => rfl, fun _ => r2_within ..⟩
  case imin | imax | and | or | xor | shl | shr | sar | sel | mov =>
    exact .inl ⟨_, fun _ => rfl, fun _ => width_within ..⟩
  case cvt => exact .inl ⟨_, fun _ => rfl, fun _ => (width_within ..).withFlags _⟩
  case iset | pset | fset => exact .inl ⟨_, fun _ => rfl, fun _ => pred_within ..⟩
  case v2p h a b =>
    refine .inl ⟨_, fun _ => rfl, fun e => ⟨fun _ hq => absurd hq List.not_mem_nil, fun q hq => ?_⟩⟩
    exact List.mem_range.2 ((mem_maskBits _ _ q.1 q.2).1 hq).1
  case pair stall x y => exact .inr ⟨stall, x, y, rfl⟩
  all_goals exact absurd h Bool.false_ne_true

/-- A lane-class instruction leaves alone what the frame of its destinations holds. -/
theorem laneClass_framed {i : Instr} {s s' : State} (h : i.laneClass = true) (hx : exec i s = .next s') :
    s.Framed i.dsts i.predDsts s' := by
  rcases isLaneOp_or_pair h with ⟨f, hf, hw⟩ | ⟨stall, x, y, rfl⟩
  · exact laneOp_framed hw ((hf s).symm.trans hx)
  · exact execPair_framed hx

/-- Settles O11: each thread of the path is framed by laneThread or pairThread, and its workgroup is the only one replaced. -/
theorem laneFrame : Obligations.LaneFrame := by
  intro i s s' hl hx
  have hs := laneClass_framed hl hx
  refine ⟨hs.m, hs.e, hs.y, hs.ctxs, hs.perf, hs.now, hs.ptp, fun core slot g hg => ?_⟩
  obtain ⟨g', tids, hg', hf, hon⟩ := hs.wg core slot g hg
  refine ⟨g', hg', hf.c, hf.b, hf.k, hf.sa, hf.sb, hf.mcls, hf.tile, hf.tpoi, hf.gran, hf.acc, hf.cancel, hf.w,
    fun tid t ht => ?_⟩
  obtain ⟨t', ht', h, hoff⟩ := hf.thread tid t ht
  refine ⟨t', ht', h.v, h.p, h.conv, h.bars, h.cbars, h.sleep, h.holds, h.arrivals, h.record,
    fun hno => hoff fun hmem => ?_⟩
  obtain ⟨p, hp, hcore, hslot, htid⟩ := hon tid hmem
  exact hno p hp ⟨hcore, hslot, htid⟩

end Sys2Proof.Machine
end

section
/-! SUPPORT. Lane-class instructions with a 32-bit result and flags. -/

namespace Sys2Proof.Machine

theorem rf_distinct (d : Reg) (x : Nat × Fl) : (rf d x).Distinct := r1_distinct d (BitVec.ofNat 32 x.1)

theorem gives_rf {e : Env} {i : Instr} {f : Env → LaneRes} {d : Reg} {x : Nat × Fl} (hx : exec i e.s = laneOp i f e.s)
    (h : e.runsLane i) (hr : f e = rf d x) : e.gives i (rf d x) := gives_of_arm hx h hr (rf_distinct d x)

end Sys2Proof.Machine
end

section
/-! SUPPORT. Rounding to a multiple of a power of two (R70): what roundAt gives, by roundsTo. -/

namespace Sys2Proof.Machine

variable {rm : Rm} {n : Bool} {m d i : Nat} {e j k : Int}

theorem two_pow_split {i : Int} (hj : j ≤ i) (hk : i ≤ k) :
    (2 : Nat) ^ (k - j).toNat = 2 ^ (k - i).toNat * 2 ^ (i - j).toNat := by
  rw [← pow_add]
  congr 1
  omega

/-- A multiple of the unit is what it rounds to. -/
theorem roundsTo_exact (rm : Rm) (n : Bool) (i d : Nat) : roundsTo rm n (i * 2 ^ d) d i := by
  have hD : 0 < 2 ^ d := Nat.two_pow_pos d
  simp only [roundsTo, Nat.add_mul, Nat.one_mul, Nat.mul_assoc]
  refine ⟨by omega, by omega, ?_⟩
  cases rm with
  | rn => exact ⟨by omega, by omega, by omega⟩
  | rz => exact le_rfl
  | ru | rd => cases n <;> exact le_rfl

/-- Magnitude and unit in smaller units. -/
theorem roundsTo_scale (s : Nat) (h : roundsTo rm n m d i) : roundsTo rm n (m * 2 ^ s) (d + s) i := by
  have hS : 0 < 2 ^ s := Nat.two_pow_pos s
  cases rm <;>
    simpa only [roundsTo, pow_add, ← mul_assoc, ← add_mul, Nat.mul_lt_mul_right hS, Nat.mul_le_mul_right_iff hS,
      Nat.mul_left_inj hS.ne'] using h

theorem roundAt_of_le (rm : Rm) (n : Bool) (m : Nat) (h : k ≤ e) : roundAt rm n m e k = (m * 2 ^ (e - k).toNat, false) :=
  if_pos h

/-- The quotient or the next integer, as the mode says by the remainder. -/
theorem roundAt_of_lt (h : e < k) : roundsTo rm n m (k - e).toNat (roundAt rm n m e k).1 ∧
    ((roundAt rm n m e k).2 = false ↔ (roundAt rm n m e k).1 * 2 ^ (k - e).toNat = m) := by
  have hD : 0 < 2 ^ (k - e).toNat := Nat.two_pow_pos _
  have hm : m / 2 ^ (k - e).toNat * 2 ^ (k - e).toNat + m % 2 ^ (k - e).toNat = m := Nat.div_add_mod' ..
  have hr : m % 2 ^ (k - e).toNat < 2 ^ (k - e).toNat := Nat.mod_lt _ hD
  simp only [roundAt, if_neg (not_le.2 h), roundsTo]
  generalize 2 ^ (k - e).toNat = D at *
  generalize m % D = r at *
  generalize m / D = q at *
  cases rm with
  | rn =>
    simp only [Bool.or_eq_true, Bool.and_eq_true, decide_eq_true_eq, beq_iff_eq, bne_eq_false_iff_eq]
    split <;> simp only [Nat.add_mul, Nat.one_mul, Nat.mul_assoc, Nat.succ_mod_two_eq_zero_iff] <;> omega
  | rz =>
    simp only [Bool.false_eq_true, if_false, Nat.add_mul, Nat.one_mul, bne_eq_false_iff_eq]
    omega
  | ru | rd =>
    by_cases h0 : r = 0 <;> cases n <;> simp [h0, Nat.add_mul] <;> omega

/-- What is rounded and the unit it is rounded to, both in units of 2^j. -/
theorem roundAt_roundsTo (rm : Rm) (n : Bool) (m : Nat) (he : j ≤ e) (hk : j ≤ k) :
    roundsTo rm n (m * 2 ^ (e - j).toNat) (k - j).toNat (roundAt rm n m e k).1 := by
  rcases le_or_gt k e with h | h
  · rw [roundAt_of_le rm n m h, two_pow_split hk h, ← mul_assoc]
    exact roundsTo_exact ..
  · have hd : (k - j).toNat = (k - e).toNat + (e - j).toNat := by omega
    rw [hd]
    exact roundsTo_scale _ (roundAt_of_lt h).1

/-- A power of two can stand in the magnitude or in the exponent. -/
theorem roundAt_shift (rm : Rm) (n : Bool) (m s : Nat) (e k : Int) :
    roundAt rm n (m * 2 ^ s) e k = roundAt rm n m (e + s) k := by
  rcases le_or_gt k e with h | h
  · rw [roundAt_of_le _ _ _ h, roundAt_of_le _ _ _ (by omega), mul_assoc, ← pow_add]
    congr 3
    omega
  rcases le_or_gt k (e + s) with h' | h'
  · have hs : 2 ^ s = 2 ^ (e + s - k).toNat * 2 ^ (k - e).toNat := by rw [← pow_add]; congr 1; omega
    have hD : 0 < 2 ^ (k - e).toNat := Nat.two_pow_pos _
    rw [roundAt_of_le _ _ _ h', hs, ← mul_assoc]
    simp only [roundAt, if_neg (not_le.2 h), Nat.mul_div_cancel _ hD, Nat.mul_mod_left]
    cases rm <;> simp [hD.ne]
  · have hD : 2 ^ (k - e).toNat = 2 ^ (k - (e + s)).toNat * 2 ^ s := by rw [← pow_add]; congr 1; omega
    have hS : 0 < 2 ^ s := Nat.two_pow_pos s
    simp only [roundAt, if_neg (not_le.2 h), if_neg (not_le.2 h'), hD, Nat.mul_div_mul_right _ _ hS, Nat.mul_mod_mul_right,
      ← mul_assoc, Nat.mul_lt_mul_right hS, bne, Nat.mul_eq_zero, beq_eq_decide, Nat.mul_left_inj hS.ne', hS.ne', or_false]

end Sys2Proof.Machine
end

section
/-! SUPPORT. Sums of products (R70, R72, R76, R81): what dot gives, by its operands. -/

namespace Sys2Proof.Machine

variable {f : Fmt} {rm : Rm} {sig : Bool} {ps : List Prod} {a b : Val}

/-- A finite term as an operand of a sum. -/
def Term.prod (t : Term) : Prod := ⟨false, false, none, t⟩

theorem asProd_fin (n : Bool) (m : Nat) (k : Int) : (Val.fin n m k).asProd = Term.prod ⟨n, m, k⟩ := rfl

theorem times_fin (n n' : Bool) (m m' : Nat) (k k' : Int) :
    (Val.fin n m k).times (.fin n' m' k') = Term.prod ⟨n != n', m * m', k + k'⟩ := rfl

@[simp] theorem asProd_nan (a : Val) : a.asProd.nan = a.isNan := by cases a <;> rfl

@[simp] theorem times_nan (a b : Val) : (a.times b).nan = (a.isNan || b.isNan) := by cases a <;> cases b <;> rfl

theorem inf_times_zero (n n' : Bool) (k : Int) : ((Val.inf n).times (.fin n' 0 k)).invalid = true := rfl

theorem zero_times_inf (n n' : Bool) (k : Int) : ((Val.fin n' 0 k).times (.inf n)).invalid = true := rfl

@[simp] theorem flip_isNan (a : Val) : a.flip.isNan = a.isNan := by cases a <;> rfl

theorem isSig_iff : a.isSig = true ↔ a = .nan true := by
  cases a <;> simp [Val.isSig]

theorem dot_nan (h : ps.any (·.nan) = true) : (f.dot rm sig ps).1 = f.canon := by
  simp [Fmt.dot, h]

/-- Zero times infinity is invalid, whatever else is summed. -/
theorem dot_invalid (h : ps.any (·.invalid) = true) : f.dot rm sig ps = (f.canon, fNv) := by
  simp [Fmt.dot, h]

/-- Finite terms are summed exactly and rounded once. -/
theorem dot_terms (f : Fmt) (rm : Rm) (ts : List Term) : f.dot rm false (ts.map Term.prod) = f.sum rm ts := by
  simp [Fmt.dot, Term.prod, Function.comp_def, List.filterMap_map]

variable {x y z : Nat} {n n' n'' : Bool} {m m' m'' : Nat} {k k' k'' : Int}

theorem add_fin (rm : Rm) (hx : f.val x = .fin n m k) (hy : f.val y = .fin n' m' k') :
    f.add rm x y = f.sum rm [⟨n, m, k⟩, ⟨n', m', k'⟩] := by
  rw [Fmt.add, hx, hy]
  exact dot_terms f rm [⟨n, m, k⟩, ⟨n', m', k'⟩]

theorem sub_fin (rm : Rm) (hx : f.val x = .fin n m k) (hy : f.val y = .fin n' m' k') :
    f.sub rm x y = f.sum rm [⟨n, m, k⟩, ⟨!n', m', k'⟩] := by
  rw [Fmt.sub, hx, hy]
  exact dot_terms f rm [⟨n, m, k⟩, ⟨!n', m', k'⟩]

theorem mul_fin (rm : Rm) (hx : f.val x = .fin n m k) (hy : f.val y = .fin n' m' k') :
    f.mul rm x y = f.sum rm [⟨n != n', m * m', k + k'⟩] := by
  rw [Fmt.mul, hx, hy]
  exact dot_terms f rm [⟨n != n', m * m', k + k'⟩]

theorem fma_fin (rm : Rm) (hx : f.val x = .fin n m k) (hy : f.val y = .fin n' m' k') (hz : f.val z = .fin n'' m'' k'') :
    f.fma rm x y z = f.sum rm [⟨n != n', m * m', k + k'⟩, ⟨n'', m'', k''⟩] := by
  rw [Fmt.fma, hx, hy, hz]
  exact dot_terms f rm [⟨n != n', m * m', k + k'⟩, ⟨n'', m'', k''⟩]

theorem add_nan (rm : Rm) (h : (f.val x).isNan = true ∨ (f.val y).isNan = true) : (f.add rm x y).1 = f.canon :=
  dot_nan (by simpa using h)

theorem mul_nan (rm : Rm) (h : (f.val x).isNan = true ∨ (f.val y).isNan = true) : (f.mul rm x y).1 = f.canon :=
  dot_nan (by simpa using h)

theorem fma_nan (rm : Rm) (h : (f.val x).isNan = true ∨ (f.val y).isNan = true ∨ (f.val z).isNan = true) :
    (f.fma rm x y z).1 = f.canon :=
  dot_nan (by simpa [or_assoc] using h)

theorem fma_invalid (rm : Rm) (z : Nat) (h : ((f.val x).times (f.val y)).invalid = true) :
    f.fma rm x y z = (f.canon, fNv) :=
  dot_invalid (by simp only [List.any_cons, h, Bool.true_or])

end Sys2Proof.Machine
end

section
/-! SUPPORT. Order of values (R73, R74): finite values compare as integers of a common unit. -/

namespace Sys2Proof.Machine

variable {n n' : Bool} {m m' : Nat} {i j k k' : Int}

theorem scaled_rescale (n : Bool) (m : Nat) (hj : j ≤ i) (hk : i ≤ k) :
    scaled n m k j = scaled n m k i * 2 ^ (i - j).toNat := by
  have h : (k - j).toNat = (k - i).toNat + (i - j).toNat := by omega
  simp only [scaled, h, pow_add]
  push_cast
  ring

theorem scaled_lt_iff (hj : j ≤ i) (hk : i ≤ k) (hk' : i ≤ k') :
    scaled n m k j < scaled n' m' k' j ↔ scaled n m k i < scaled n' m' k' i := by
  rw [scaled_rescale n m hj hk, scaled_rescale n' m' hj hk']
  exact mul_lt_mul_iff_left₀ (by positivity)

/-- -0 is below +0; else the numbers decide. -/
theorem ltTotal_fin (n n' : Bool) (m m' : Nat) (hk : j ≤ k) (hk' : j ≤ k') :
    (Val.fin n m k).ltTotal (.fin n' m' k') =
      decide (scaled n m k j < scaled n' m' k' j ∨ m = 0 ∧ m' = 0 ∧ n = true ∧ n' = false) := by
  have hmin : (if k < k' then k else k') = min k k' := by split <;> omega
  rw [Bool.eq_iff_iff, decide_eq_true_iff, scaled_lt_iff (i := min k k') (by omega) (by omega) (by omega)]
  simp only [Val.ltTotal, hmin, scaled]
  have hp : 0 < 2 ^ (k - min k k').toNat := Nat.two_pow_pos _
  have hp' : 0 < 2 ^ (k' - min k k').toNat := Nat.two_pow_pos _
  generalize 2 ^ (k - min k k').toNat = p at *
  generalize 2 ^ (k' - min k k').toNat = p' at *
  have h0 : m * p = 0 ↔ m = 0 := by simp [hp.ne']
  have h0' : m' * p' = 0 ↔ m' = 0 := by simp [hp'.ne']
  cases n with
  | false =>
    cases n' with
    | false =>
      simp only [Bool.false_eq_true, if_false, one_mul]
      norm_cast
      simp
    | true =>
      simp
      norm_cast
      omega
  | true =>
    cases n' with
    | false =>
      simp
      norm_cast
      omega
    | true =>
      simp
      norm_cast

theorem eqNum_fin (n n' : Bool) (m m' : Nat) (hk : j ≤ k) (hk' : j ≤ k') :
    (Val.fin n m k).eqNum (.fin n' m' k') = decide (scaled n m k j = scaled n' m' k' j) := by
  have h0 : m = 0 → scaled n m k j = 0 := by rintro rfl; simp [scaled]
  have h0' : m' = 0 → scaled n' m' k' j = 0 := by rintro rfl; simp [scaled]
  simp only [Val.eqNum, ltTotal_fin n n' m m' hk hk', ltTotal_fin n' n m' m hk' hk, Val.isNan, Val.isZero]
  rw [Bool.eq_iff_iff]
  simp
  omega

theorem ltNum_fin (n n' : Bool) (m m' : Nat) (hk : j ≤ k) (hk' : j ≤ k') :
    (Val.fin n m k).ltNum (.fin n' m' k') = decide (scaled n m k j < scaled n' m' k' j) := by
  have h0 : m = 0 → scaled n m k j = 0 := by rintro rfl; simp [scaled]
  have h0' : m' = 0 → scaled n' m' k' j = 0 := by rintro rfl; simp [scaled]
  simp only [Val.ltNum, ltTotal_fin n n' m m' hk hk', Val.isZero]
  rw [Bool.eq_iff_iff]
  simp
  omega

end Sys2Proof.Machine
end

section
/-! SUPPORT. Minimum and maximum (R73), and the encodings of finite numbers (R67, R68, R70): a number that the format has
rounds to itself. -/

namespace Sys2Proof.Machine

variable {f : Fmt} {rm : Rm} {x y : Nat} {n s : Bool} {m : Nat} {e k : Int}

theorem minmax_snd (mx : Bool) (x y : Nat) :
    (f.minmax mx x y).2 = if f.val x = .nan true ∨ f.val y = .nan true then fNv else 0 := by
  simp only [Fmt.minmax, Bool.or_eq_true, isSig_iff]

/-- A NaN is passed over. -/
theorem minmax_nan_left (mx : Bool) (hx : f.val x = .nan s) (hy : (f.val y).isNan = false) :
    (f.minmax mx x y).1 = y := by
  have hx' : (f.val x).isNan = true := by rw [hx]; rfl
  simp [Fmt.minmax, hx', hy]

theorem minmax_nan_right (mx : Bool) (hx : f.val x = .nan s) (hy : (f.val y).isNan = false) :
    (f.minmax mx y x).1 = y := by
  have hx' : (f.val x).isNan = true := by rw [hx]; rfl
  simp [Fmt.minmax, hx', hy]

theorem minmax_nans {s' : Bool} (mx : Bool) (hx : f.val x = .nan s) (hy : f.val y = .nan s') :
    (f.minmax mx x y).1 = f.canon := by
  simp [Fmt.minmax, hx, hy, Val.isNan]

/-- Of two values, one below the other, the minimum is the lower one and the maximum the other, in either order. -/
theorem minmax_of_ltTotal (hx : (f.val x).isNan = false) (hy : (f.val y).isNan = false)
    (hlt : (f.val x).ltTotal (f.val y) = true) (hgt : (f.val y).ltTotal (f.val x) = false) :
    (f.minmax false x y).1 = x ∧ (f.minmax false y x).1 = x ∧
      (f.minmax true x y).1 = y ∧ (f.minmax true y x).1 = y := by
  simp [Fmt.minmax, hx, hy, hlt, hgt]

theorem minmax_fin {n' : Bool} {m' : Nat} {k' j : Int} (hx : f.val x = .fin n m k) (hy : f.val y = .fin n' m' k')
    (hk : j ≤ k) (hk' : j ≤ k')
    (h : scaled n m k j < scaled n' m' k' j ∨ m = 0 ∧ m' = 0 ∧ n = true ∧ n' = false) :
    (f.minmax false x y).1 = x ∧ (f.minmax false y x).1 = x ∧
      (f.minmax true x y).1 = y ∧ (f.minmax true y x).1 = y := by
  refine minmax_of_ltTotal (by rw [hx]; rfl) (by rw [hy]; rfl) ?lt ?gt
  case lt =>
    rw [hx, hy, ltTotal_fin n n' m m' hk hk']
    exact decide_eq_true h
  case gt =>
    rw [hx, hy, ltTotal_fin n' n m' m hk' hk]
    refine decide_eq_false fun hc => ?_
    rcases h with h | ⟨rfl, rfl, rfl, rfl⟩ <;> rcases hc with hc | hc
    · omega
    · simp [scaled, hc] at h
    · simp [scaled] at hc
    · simp at hc

/-- An infinity is below or above every other value. -/
theorem minmax_inf (hx : f.val x = .inf n) (hy : (f.val y).isNan = false) (hne : f.val y ≠ .inf n) :
    (f.minmax n x y).1 = y ∧ (f.minmax n y x).1 = y ∧ (f.minmax (!n) x y).1 = x ∧ (f.minmax (!n) y x).1 = x := by
  have hx' : (f.val x).isNan = false := by rw [hx]; rfl
  have hxy : (f.val x).ltTotal (f.val y) = n ∧ (f.val y).ltTotal (f.val x) = !n := by
    rw [hx]
    generalize f.val y = v at *
    cases v with
    | nan s => simp [Val.isNan] at hy
    | inf n' => cases n <;> cases n' <;> simp_all [Val.ltTotal]
    | fin n' m' k' => exact ⟨rfl, rfl⟩
  cases n with
  | false =>
    obtain ⟨h1, h2, h3, h4⟩ := minmax_of_ltTotal hy hx' hxy.2 hxy.1
    exact ⟨h2, h1, h4, h3⟩
  | true =>
    obtain ⟨h1, h2, h3, h4⟩ := minmax_of_ltTotal hx' hy hxy.1 hxy.2
    exact ⟨h3, h4, h1, h2⟩

/-- A finite value is read from its fields: subnormal or normal, and not the uppermost exponent (of E4M3, not 0x7F). -/
theorem val_fin_fields (h : f.val x = .fin n m k) :
    n = (x / f.signBit % 2 == 1) ∧
    (if f.e4 then x % 128 ≠ 127 else x / 2 ^ f.mb % 2 ^ f.eb ≠ 2 ^ f.eb - 1) ∧
    (x / 2 ^ f.mb % 2 ^ f.eb = 0 ∧ m = x % 2 ^ f.mb ∧ k = f.qmin ∨
      x / 2 ^ f.mb % 2 ^ f.eb ≠ 0 ∧ m = 2 ^ f.mb + x % 2 ^ f.mb ∧
        k = f.qmin + (x / 2 ^ f.mb % 2 ^ f.eb : Nat) - 1) := by
  unfold Fmt.val at h
  simp only [Bool.and_eq_true, beq_iff_eq, Bool.not_eq_true'] at h
  split_ifs at h with h1 h2 h3 h4
  · obtain ⟨rfl, rfl, rfl⟩ := Val.fin.inj h
    refine ⟨rfl, ?_, .inl ⟨h4, rfl, rfl⟩⟩
    cases he : f.e4 <;> simp_all
  · obtain ⟨rfl, rfl, rfl⟩ := Val.fin.inj h
    refine ⟨rfl, ?_, .inr ⟨h4, rfl, rfl⟩⟩
    cases he : f.e4 <;> simp_all

theorem val_fin_ge (h : f.val x = .fin n m k) : f.qmin ≤ k := by
  obtain ⟨-, -, ⟨-, -, rfl⟩ | ⟨hex, -, rfl⟩⟩ := val_fin_fields h <;> omega

theorem val_fin_lt (h : f.val x = .fin n m k) : m < 2 ^ (f.mb + 1) := by
  have hfr : x % 2 ^ f.mb < 2 ^ f.mb := Nat.mod_lt _ (Nat.two_pow_pos _)
  obtain ⟨-, -, ⟨-, rfl, -⟩ | ⟨-, rfl, -⟩⟩ := val_fin_fields h <;> rw [pow_succ] <;> omega

/-- A number below the normal ones has the least exponent. -/
theorem val_fin_normal (h : f.val x = .fin n m k) : 2 ^ f.mb ≤ m ∨ k = f.qmin := by
  obtain ⟨-, -, ⟨-, -, hk⟩ | ⟨-, rfl, -⟩⟩ := val_fin_fields h
  · exact .inr hk
  · exact .inl (by omega)

/-- The bits of a finite number below its sign. -/
theorem val_fin_bits (h : f.val x = .fin n m k) : x % f.signBit = (k - f.qmin).toNat * 2 ^ f.mb + m := by
  rw [Fmt.signBit, add_comm, pow_add, Nat.mod_mul]
  obtain ⟨-, -, ⟨hex, rfl, rfl⟩ | ⟨hex, rfl, rfl⟩⟩ := val_fin_fields h
  · simp [hex]
  · generalize x / 2 ^ f.mb % 2 ^ f.eb = ex at *
    obtain ⟨t, rfl⟩ := Nat.exists_eq_succ_of_ne_zero hex
    have ht : (f.qmin + (t.succ : Nat) - 1 - f.qmin).toNat = t := by omega
    rw [ht, Nat.succ_eq_add_one]
    ring

theorem val_fin_sign (h : f.val x = .fin n m k) (hx : x < 2 * f.signBit) :
    x = (if n then f.signBit else 0) + x % f.signBit := by
  have hS : 0 < f.signBit := Nat.two_pow_pos _
  have hq : x / f.signBit < 2 := Nat.div_lt_of_lt_mul (by omega)
  have hd := Nat.div_add_mod x f.signBit
  obtain ⟨rfl, -⟩ := val_fin_fields h
  interval_cases hv : x / f.signBit <;> simpa using hd.symm

/-- No finite number is above the largest one (R68). -/
theorem val_fin_le_maxFin (hf : f ∈ [fp32, fp16, bfl16, fp8]) (h : f.val x = .fin n m k) : x % f.signBit ≤ f.maxFin := by
  obtain ⟨-, hmax, -⟩ := val_fin_fields h
  simp only [List.mem_cons, List.not_mem_nil, or_false] at hf
  rcases hf with rfl | rfl | rfl | rfl <;> simp [fp32, fp16, bfl16, fp8, Fmt.signBit, Fmt.maxFin] at hmax ⊢ <;> omega

/-- Exponent of the last place to which a magnitude is rounded. -/
def Fmt.lastPlace (f : Fmt) (m : Nat) (e : Int) : Int := max (e + (Nat.log2 m : Int) - f.mb) f.qmin

/-- Bits, without the sign, of a rounded magnitude: one more in the last place is the next number up. -/
def Fmt.magnitude (f : Fmt) (rm : Rm) (n : Bool) (m : Nat) (e : Int) : Nat :=
  (f.lastPlace m e - f.qmin).toNat * 2 ^ f.mb + (roundAt rm n m e (f.lastPlace m e)).1

/-- Whether rounding to as many digits, of unbounded exponent, gives less than every normal number (R72). -/
def Fmt.tiny (f : Fmt) (rm : Rm) (n : Bool) (m : Nat) (e : Int) : Bool :=
  decide ((if (roundAt rm n m e (e + (Nat.log2 m : Int) - f.mb)).1 < 2 ^ (f.mb + 1) then e + (Nat.log2 m : Int)
    else e + (Nat.log2 m : Int) + 1) < 1 - (f.bias : Int))

/-- Zero keeps its sign. -/
theorem round_zero (f : Fmt) (rm : Rm) (n : Bool) (e : Int) : f.round rm n 0 e = (if n then f.signBit else 0, 0) := rfl

/-- Rounding (R70, R72): the magnitude in the last place, or an overflow. -/
theorem round_eq (f : Fmt) (rm : Rm) (n : Bool) (e : Int) (hm : m ≠ 0) : f.round rm n m e =
    if f.maxFin < f.magnitude rm n m e then (f.overflow rm n, fOf ||| fNx)
    else ((if n then f.signBit else 0) + f.magnitude rm n m e,
      (if (f.tiny rm n m e && (roundAt rm n m e (f.lastPlace m e)).2) = true then fUf else 0) |||
        (if (roundAt rm n m e (f.lastPlace m e)).2 = true then fNx else 0)) := by
  have hk : (if e + (Nat.log2 m : Int) - f.mb < f.qmin then f.qmin else e + (Nat.log2 m : Int) - f.mb) =
      f.lastPlace m e := by
    rw [Fmt.lastPlace]
    split <;> omega
  simp only [Fmt.round, Fmt.magnitude, Fmt.tiny, hk, beq_iff_eq, if_neg hm]
  rfl

theorem lastPlace_val (h : f.val x = .fin n m k) (hm : m ≠ 0) : f.lastPlace m k = k := by
  have hlo := val_fin_ge h
  have hlog : Nat.log2 m < f.mb + 1 := (Nat.log2_lt hm).2 (val_fin_lt h)
  rcases val_fin_normal h with hn | hn
  · have := (Nat.le_log2 hm).2 hn
    simp only [Fmt.lastPlace]
    omega
  · simp only [Fmt.lastPlace]
    omega

/-- A number that the format has is kept, with no flag. -/
theorem round_val (hf : f ∈ [fp32, fp16, bfl16, fp8]) (rm : Rm) (hx : x < 2 * f.signBit) (h : f.val x = .fin n m k) :
    f.round rm n m k = (x, 0) := by
  have hsign := val_fin_sign h hx
  rw [val_fin_bits h] at hsign
  by_cases hm : m = 0
  · subst hm
    have hk : k = f.qmin := (val_fin_normal h).resolve_left (by have := Nat.two_pow_pos f.mb; omega)
    rw [round_zero, hsign, hk]
    simp
  · have hmag : f.magnitude rm n m k = (k - f.qmin).toNat * 2 ^ f.mb + m := by
      simp [Fmt.magnitude, lastPlace_val h hm, roundAt_of_le rm n m le_rfl]
    have hmax := val_fin_le_maxFin hf h
    rw [val_fin_bits h, ← hmag] at hmax
    rw [round_eq f rm n k hm, if_neg (by omega), lastPlace_val h hm, roundAt_of_le rm n m le_rfl, hmag, ← hsign]
    simp

theorem xor_signBit_getLsbD (x : Word) {k : Nat} (hk : k < 32) :
    (x ^^^ 0x80000000).getLsbD k = if k = 31 then !x.getLsbD 31 else x.getLsbD k := by
  have hb : (0x80000000 : Word).getLsbD k = decide (k = 31) :=
    (by decide : ∀ k < 32, (0x80000000 : Word).getLsbD k = decide (k = 31)) k hk
  rw [BitVec.getLsbD_xor, hb]
  split
  · next h => simp [h]
  · next h => simp [h]

theorem and_magnitude_getLsbD (x : Word) {k : Nat} (hk : k < 32) :
    (x &&& 0x7FFFFFFF).getLsbD k = (decide (k ≠ 31) && x.getLsbD k) := by
  have hb : (0x7FFFFFFF : Word).getLsbD k = decide (k ≠ 31) :=
    (by decide : ∀ k < 32, (0x7FFFFFFF : Word).getLsbD k = decide (k ≠ 31)) k hk
  rw [BitVec.getLsbD_and, hb, Bool.and_comm]

/-- Settles O7: each arm is the operation of its format; finite operands are terms of an exact sum, NaNs and zero times
infinity are answered first, minimum and maximum go by the order of values, and a number of the format rounds to itself. -/
theorem floatArithmeticResults : Obligations.FloatArithmeticResults := by
  refine ⟨fun e h d a b => ?arms, fun f hf rm => ?exact, fun f _ => ?fused⟩
  case arms =>
    refine ⟨fun rm hr => gives_rf rfl hr rfl, fun rm hr => gives_rf rfl hr rfl, fun rm hr => gives_rf rfl hr rfl,
      fun rm c hr => gives_rf rfl hr rfl, fun hr => gives_rf rfl hr rfl, fun hr => gives_rf rfl hr rfl,
      fun hr => gives_rf rfl hr rfl, fun hr => ⟨_, gives_r1 rfl hr rfl, ?negSign, fun k hk => ?negRest⟩,
      fun hr => ⟨_, gives_r1 rfl hr rfl, ?absSign, fun k hk => ?absRest⟩⟩
    case negSign => rw [xor_signBit_getLsbD _ (by decide), if_pos rfl]
    case negRest => rw [xor_signBit_getLsbD _ (by omega), if_neg (by omega)]
    case absSign => rw [and_magnitude_getLsbD _ (by decide)]; rfl
    case absRest => rw [and_magnitude_getLsbD _ (by omega), decide_eq_true (by omega), Bool.true_and]
  case exact =>
    exact ⟨fun x y n m k n' m' k' hx hy => ⟨add_fin rm hx hy, sub_fin rm hx hy, mul_fin rm hx hy⟩,
      fun x y s hx => have hn : (f.val x).isNan = true := by rw [hx]; rfl
        ⟨add_nan rm (.inl hn), add_nan rm (.inr hn), mul_nan rm (.inl hn)⟩,
      fun x n m k hx h => round_val hf rm hx h⟩
  case fused =>
    exact ⟨fun rm x y z n m k n' m' k' n'' m'' k'' hx hy hz => fma_fin rm hx hy hz,
      fun rm x y z n n' k hx hy => ⟨fma_invalid rm z (by rw [hx, hy, inf_times_zero]),
        fma_invalid rm z (by rw [hx, hy, zero_times_inf])⟩,
      fun rm x y z h => fma_nan rm h, fun mx x y => minmax_snd mx x y,
      fun mx x y s hx hy => ⟨minmax_nan_left mx hx hy, minmax_nan_right mx hx hy⟩,
      fun mx x y s s' hx hy => minmax_nans mx hx hy,
      fun x y n m k n' m' k' j hx hy hk hk' h => minmax_fin hx hy hk hk' h,
      fun x y n hx hy hne => minmax_inf hx hy hne⟩

end Sys2Proof.Machine
end

section
/-! SUPPORT. Packed operations (R80, R81). -/

namespace Sys2Proof.Machine

theorem dot2_eq (f : Fmt) (rm : Rm) (a b c : Nat) : dot2 f rm a b c =
    fp32.dot rm ((f.val (a % 2 ^ 16)).isSig || (f.val (a / 2 ^ 16)).isSig || (f.val (b % 2 ^ 16)).isSig ||
        (f.val (b / 2 ^ 16)).isSig || (fp32.val c).isSig)
      [(f.val (a % 2 ^ 16)).times (f.val (b % 2 ^ 16)), (f.val (a / 2 ^ 16)).times (f.val (b / 2 ^ 16)),
        (fp32.val c).asProd] :=
  rfl

/-- An operand of fdot2 that is a NaN makes one of the three summed a NaN. -/
theorem dot2_nan {f : Fmt} (rm : Rm) (a b c : Nat)
    (h : ∃ x ∈ [f.val (a % 2 ^ 16), f.val (b % 2 ^ 16), f.val (a / 2 ^ 16), f.val (b / 2 ^ 16), fp32.val c],
      x.isNan = true) : (dot2 f rm a b c).1 = fp32.canon := by
  rw [dot2_eq]
  refine dot_nan ?_
  simpa [or_assoc] using h

/-- Settles O9: each packed operation is its scalar one on both halves, and fdot2 sums three operands at once. -/
theorem packedResults : Obligations.PackedResults := by
  refine ⟨fun pt rm a b c => ⟨?sum, dot2_nan rm a b c, ?invalid⟩, fun e h d a b => ?arms⟩
  case sum =>
    intro n m k n' m' k' p r q p' r' q' z y t hal hbl hah hbh hc
    rw [dot2_eq, hal, hbl, hah, hbh, hc]
    exact dot_terms fp32 rm [⟨n != n', m * m', k + k'⟩, ⟨p != p', r * r', q + q'⟩, ⟨z, y, t⟩]
  case invalid =>
    rintro n n' k (⟨ha, hb⟩ | ⟨ha, hb⟩)
    · rw [dot2_eq, ha, hb]
      exact dot_invalid (by simp only [List.any_cons, inf_times_zero, Bool.true_or])
    · rw [dot2_eq, ha, hb]
      exact dot_invalid (by simp only [List.any_cons, zero_times_inf, Bool.true_or, Bool.or_true])
  case arms =>
    exact ⟨fun rm hr => gives_rf rfl hr rfl, fun rm hr => gives_rf rfl hr rfl, fun rm c hr => gives_rf rfl hr rfl,
      fun mx hr => gives_rf rfl hr rfl, fun rm hr => gives_rf rfl hr rfl, fun rm hr => gives_rf rfl hr rfl,
      fun rm c hr => gives_rf rfl hr rfl, fun mx hr => gives_rf rfl hr rfl, fun pt rm c hr => gives_rf rfl hr rfl⟩

end Sys2Proof.Machine
end

section
/-! SUPPORT. Sizes of magnitudes and of what they round to, by the place of their uppermost bit. -/

namespace Sys2Proof.Machine

variable {f : Fmt} {rm : Rm} {n : Bool} {m p : Nat} {e j k t : Int}

theorem mul_two_pow_lt (hj : j ≤ e) (h : e + (Nat.log2 m : Int) < t) : m * 2 ^ (e - j).toNat < 2 ^ (t - j).toNat := by
  calc m * 2 ^ (e - j).toNat < 2 ^ (Nat.log2 m + 1) * 2 ^ (e - j).toNat :=
        Nat.mul_lt_mul_of_pos_right Nat.lt_log2_self (Nat.two_pow_pos _)
    _ = 2 ^ (Nat.log2 m + 1 + (e - j).toNat) := (pow_add ..).symm
    _ ≤ 2 ^ (t - j).toNat := Nat.pow_le_pow_right (by decide) (by omega)

theorem two_pow_le_mul (hm : m ≠ 0) (hj : j ≤ e) (h : t ≤ e + (Nat.log2 m : Int)) :
    2 ^ (t - j).toNat ≤ m * 2 ^ (e - j).toNat := by
  calc 2 ^ (t - j).toNat ≤ 2 ^ (Nat.log2 m + (e - j).toNat) := Nat.pow_le_pow_right (by decide) (by omega)
    _ = 2 ^ Nat.log2 m * 2 ^ (e - j).toNat := pow_add ..
    _ ≤ m * 2 ^ (e - j).toNat := Nat.mul_le_mul_right _ (Nat.log2_self_le hm)

theorem le_roundAt (rm : Rm) (n : Bool) (hm : m ≠ 0) (h : k + p ≤ e + (Nat.log2 m : Int)) :
    2 ^ p ≤ (roundAt rm n m e k).1 := by
  obtain ⟨-, hlt, -⟩ := roundAt_roundsTo (k := k) rm n m (min_le_left e k) (min_le_right e k)
  have hlo : 2 ^ (k + p - min e k).toNat ≤ m * 2 ^ (e - min e k).toNat := two_pow_le_mul hm (by omega) h
  have hp : (k + p - min e k).toNat = p + (k - min e k).toNat := by omega
  rw [hp, pow_add] at hlo
  exact Nat.lt_succ_iff.1 (Nat.lt_of_mul_lt_mul_right (hlo.trans_lt hlt))

theorem roundAt_le (rm : Rm) (n : Bool) (h : e + (Nat.log2 m : Int) < k + p) : (roundAt rm n m e k).1 ≤ 2 ^ p := by
  obtain ⟨hlt, -, -⟩ := roundAt_roundsTo (k := k) rm n m (min_le_left e k) (min_le_right e k)
  have hhi : m * 2 ^ (e - min e k).toNat < 2 ^ (k + p - min e k).toNat := mul_two_pow_lt (by omega) h
  have hp : (k + p - min e k).toNat = p + (k - min e k).toNat := by omega
  rw [hp, pow_add] at hhi
  refine Nat.lt_succ_iff.1 (Nat.lt_of_mul_lt_mul_right (a := 2 ^ (k - min e k).toNat) ?_)
  rw [Nat.succ_mul]
  omega

/-- Whether a mode rounds numbers of a sign away from zero. -/
def awayFromZero : Rm → Bool → Bool
  | .ru, n => !n
  | .rd, n => n
  | _, _ => false

/-- A magnitude below half the unit rounds to zero or to one unit. -/
theorem roundAt_small (rm : Rm) (n : Bool) (hm : m ≠ 0) (h : e < k) (hs : 2 * m < 2 ^ (k - e).toNat) :
    roundAt rm n m e k = (if awayFromZero rm n then 1 else 0, true) := by
  simp only [roundAt, if_neg (not_le.2 h), Nat.div_eq_of_lt (by omega : m < 2 ^ (k - e).toNat),
    Nat.mod_eq_of_lt (by omega : m < 2 ^ (k - e).toNat)]
  cases rm with
  | rn => simp [awayFromZero, hm, hs.not_gt]
  | rz => simp [awayFromZero, hm]
  | ru | rd => cases n <;> simp [awayFromZero, hm]

/-- A power of two can stand in the magnitude or in the exponent. -/
theorem round_shift (f : Fmt) (rm : Rm) (n : Bool) (m s : Nat) (e : Int) :
    f.round rm n (m * 2 ^ s) e = f.round rm n m (e + s) := by
  rcases eq_or_ne m 0 with rfl | hm
  · rw [zero_mul, round_zero, round_zero]
  have hm' : m * 2 ^ s ≠ 0 := mul_ne_zero hm (Nat.two_pow_pos s).ne'
  have htop : e + (Nat.log2 (m * 2 ^ s) : Int) = e + s + (Nat.log2 m : Int) := by
    have hlog : Nat.log2 (m * 2 ^ s) = Nat.log2 m + s := by
      induction s with
      | zero => simp
      | succ s ih =>
        have hs : m * 2 ^ s ≠ 0 := mul_ne_zero hm (Nat.two_pow_pos s).ne'
        rw [pow_succ, ← mul_assoc, mul_comm, Nat.log2_two_mul hs, ih hs, add_assoc]
    omega
  simp only [round_eq _ _ _ _ hm, round_eq _ _ _ _ hm', Fmt.magnitude, Fmt.tiny, Fmt.lastPlace, htop, roundAt_shift]
  rfl

theorem round_of_gt (hm : m ≠ 0) (h : f.maxFin < f.magnitude rm n m e) :
    f.round rm n m e = (f.overflow rm n, fOf ||| fNx) := by
  rw [round_eq f rm n e hm, if_pos h]

theorem round_fst_of_le (hm : m ≠ 0) (h : f.magnitude rm n m e ≤ f.maxFin) :
    (f.round rm n m e).1 = (if n then f.signBit else 0) + f.magnitude rm n m e := by
  rw [round_eq f rm n e hm, if_neg (by omega)]

/-- The last place of an FP32 number (R68). -/
theorem lastPlace_fp32 (m : Nat) (e : Int) : fp32.lastPlace m e = max (e + (Nat.log2 m : Int) - 23) (-149) := rfl

theorem magnitude_fp32 (rm : Rm) (n : Bool) (m : Nat) (e : Int) : fp32.magnitude rm n m e =
    (fp32.lastPlace m e + 149).toNat * 2 ^ 23 + (roundAt rm n m e (fp32.lastPlace m e)).1 := rfl

/-- From 2^128 up every magnitude overflows FP32. -/
theorem round_above (rm : Rm) (n : Bool) (hm : m ≠ 0) (h : 128 ≤ e + (Nat.log2 m : Int)) :
    fp32.round rm n m e = (fp32.overflow rm n, fOf ||| fNx) := by
  have hlp := lastPlace_fp32 m e
  have hr := le_roundAt (p := 23) (e := e) (k := fp32.lastPlace m e) rm n hm (by omega)
  refine round_of_gt hm ?_
  have hmax : fp32.maxFin = 255 * 2 ^ 23 - 1 := rfl
  rw [magnitude_fp32, hmax]
  omega

/-- Below half the least subnormal every magnitude rounds to one of the two numbers next to it. -/
theorem round_below (rm : Rm) (n : Bool) (hm : m ≠ 0) (h : e + (Nat.log2 m : Int) + 2 ≤ -149) :
    fp32.round rm n m e =
      ((if n then fp32.signBit else 0) + if awayFromZero rm n then 1 else 0, fUf ||| fNx) := by
  have hlp : fp32.lastPlace m e = -149 := by have := lastPlace_fp32 m e; omega
  have hs : 2 * m < 2 ^ (-149 - e).toNat := by
    have := mul_two_pow_lt (m := m) (t := -150) (le_refl e) (by omega)
    have hp : (-149 - e).toNat = (-150 - e).toNat + 1 := by omega
    rw [hp, pow_succ]
    simp only [sub_self, Int.toNat_zero, pow_zero, mul_one] at this
    omega
  have hat := roundAt_small rm n hm (by omega) hs
  have hmag : fp32.magnitude rm n m e = if awayFromZero rm n then 1 else 0 := by
    rw [magnitude_fp32, hlp, hat]
    simp
  have htiny : fp32.tiny rm n m e = true := by
    have hb : (1 : Int) - (fp32.bias : Int) = -126 := rfl
    rw [Fmt.tiny, hb]
    refine decide_eq_true ?_
    split <;> omega
  have hmax : ¬ fp32.maxFin < fp32.magnitude rm n m e := by
    rw [hmag]
    cases awayFromZero rm n <;> decide
  rw [round_eq fp32 rm n e hm, if_neg hmax, hmag, htiny, hlp, hat]
  rfl

end Sys2Proof.Machine
end

section
/-! SUPPORT. Conversion to E4M3 (R83): 464 is halfway from the largest number to what would be the next one. -/

namespace Sys2Proof.Machine

variable {n : Bool} {m : Nat} {k : Int}

theorem lastPlace_fp8 (m : Nat) (e : Int) : fp8.lastPlace m e = max (e + (Nat.log2 m : Int) - 3) (-9) := rfl

theorem magnitude_fp8 (rm : Rm) (n : Bool) (m : Nat) (e : Int) : fp8.magnitude rm n m e =
    (fp8.lastPlace m e + 9).toNat * 8 + (roundAt rm n m e (fp8.lastPlace m e)).1 := rfl

theorem maxFin_fp8 : fp8.maxFin = 126 := rfl

/-- Rounding to nearest passes 14 units exactly above 14 and a half, the tie going to the even 14. -/
theorem roundsTo_rn_gt_iff {n : Bool} {m d i : Nat} (h : roundsTo .rn n m d i) : 14 < i ↔ 29 * 2 ^ d < 2 * m := by
  obtain ⟨-, -, hle, hge, htie⟩ := h
  have hD : 0 < 2 ^ d := Nat.two_pow_pos d
  generalize 2 ^ d = D at *
  constructor
  · intro hi
    have h15 : 15 * D ≤ i * D := Nat.mul_le_mul_right D hi
    rw [mul_assoc] at hge htie
    refine lt_of_le_of_ne (by omega) fun heq => ?_
    have hi15 : i = 15 := Nat.eq_of_mul_eq_mul_right hD (by omega)
    have heven := htie (.inr (by omega))
    omega
  · intro hlt
    by_contra hi
    have h14 : i * D ≤ 14 * D := Nat.mul_le_mul_right D (by omega)
    rw [add_mul, mul_assoc] at hle
    omega

theorem magnitude_fp8_gt_iff (hm : m ≠ 0) : fp8.maxFin < fp8.magnitude .rn n m k ↔
    464 * 2 ^ (0 - min k 0).toNat < m * 2 ^ (k - min k 0).toNat := by
  have hlp := lastPlace_fp8 m k
  have hj : min k 0 ≤ k := min_le_left k 0
  have hpow (t : Nat) : 2 ^ (t - min k 0).toNat = 2 ^ t * 2 ^ (0 - min k 0).toNat := by
    rw [← pow_add]
    congr 1
    omega
  rw [maxFin_fp8, magnitude_fp8]
  rcases lt_trichotomy (k + (Nat.log2 m : Int)) 8 with h | h | h
  · have hr := roundAt_le (p := 4) (e := k) (k := fp8.lastPlace m k) .rn n (m := m) (by omega)
    have hv := mul_two_pow_lt (t := (8 : Nat)) hj h
    rw [hpow] at hv
    omega
  · have hlp5 : fp8.lastPlace m k = 5 := by omega
    have hr := roundsTo_rn_gt_iff (roundAt_roundsTo (k := 5) .rn n m hj (by omega))
    have hp : 2 ^ (5 - min k 0).toNat = 2 ^ 5 * 2 ^ (0 - min k 0).toNat := hpow 5
    rw [hp] at hr
    rw [hlp5]
    omega
  · have hr := le_roundAt (p := 3) (e := k) (k := fp8.lastPlace m k) .rn n hm (by omega)
    have hv := two_pow_le_mul (t := (9 : Nat)) hm hj (by omega)
    rw [hpow] at hv
    have := Nat.two_pow_pos (0 - min k 0).toNat
    omega

/-- Whether rounding overflows is read from the of flag (R72). -/
theorem round_of_flag (f : Fmt) (rm : Rm) (n : Bool) (e : Int) (hm : m ≠ 0) :
    ((f.round rm n m e).2 &&& fOf == 0) = decide (¬ f.maxFin < f.magnitude rm n m e) := by
  have hflags (a b : Bool) : (((if a = true then fUf else 0) ||| (if b = true then fNx else 0)) &&& fOf) = 0 := by
    revert a b
    decide
  rw [round_eq f rm n e hm]
  split
  · next h => simp only [h, not_true, decide_false]; decide
  · next h => simp only [hflags, h, not_false_eq_true, decide_true]; decide

/-- Above 464 the result is the largest number or, without saturation, the NaN. -/
theorem toE4_fin (ns n : Bool) (m : Nat) (k : Int) : toE4 ns (.fin n m k) =
    if scaled false 464 0 (min k 0) < scaled false m k (min k 0)
    then (if ns then 0x7F else if n then 0xFE else 0x7E, fOf ||| fNx) else fp8.round .rn n m k := by
  have hs : scaled false 464 0 (min k 0) < scaled false m k (min k 0) ↔
      464 * 2 ^ (0 - min k 0).toNat < m * 2 ^ (k - min k 0).toNat := by
    simp only [scaled, Bool.false_eq_true, if_false, one_mul, Nat.cast_lt]
  rcases eq_or_ne m 0 with rfl | hm
  · rw [if_neg (by simp [hs])]
    simp [toE4, round_zero]
  simp only [toE4, round_of_flag fp8 .rn n k hm, magnitude_fp8_gt_iff hm, hs, decide_eq_true_eq, ite_not]

end Sys2Proof.Machine
end

section
/-! SUPPORT. Scaling, rounding to integers and conversion from and to integers (R76, R83). -/

namespace Sys2Proof.Machine

variable {f : Fmt} {n : Bool} {x m : Nat} {k : Int}

/-- The range of a finite FP32 number (R68). -/
theorem val_fp32_range (h : fp32.val x = .fin n m k) : m < 2 ^ 24 ∧ -149 ≤ k ∧ k ≤ 105 := by
  have hlo : (-149 : Int) ≤ k := val_fin_ge h
  have hmax : x % fp32.signBit ≤ 255 * 2 ^ 23 - 1 := val_fin_le_maxFin (by simp) h
  have hbits : x % fp32.signBit = (k + 149).toNat * 2 ^ 23 + m := val_fin_bits h
  exact ⟨val_fin_lt h, hlo, by omega⟩

/-- fscale rounds the exact product once: where the model bounds the scale, the result is the same beyond. -/
theorem fscaleVal_fin (rm : Rm) (i : Int) (h : fp32.val x = .fin n m k) (hm : m ≠ 0) :
    fscaleVal rm x i = fp32.round rm n m (k + i) := by
  obtain ⟨hlt, hlo, hhi⟩ := val_fp32_range h
  have hlog : Nat.log2 m < 24 := (Nat.log2_lt hm).2 hlt
  simp only [fscaleVal, h, beq_iff_eq, hm, if_false]
  split
  · rw [round_below rm n hm (by omega), round_below rm n hm (by omega)]
  split
  · rw [round_above rm n hm (by omega), round_above rm n hm (by omega)]
  · rfl

theorem roundInt_of_nonneg (rm : Rm) (n : Bool) (m : Nat) (h : 0 ≤ k) : roundInt rm n m k = (m * 2 ^ k.toNat, false) := by
  rw [roundInt, roundAt_of_le rm n m h, sub_zero]

theorem roundInt_of_neg (rm : Rm) (n : Bool) (m : Nat) (h : k < 0) :
    roundsTo rm n m (-k).toNat (roundInt rm n m k).1 ∧
      ((roundInt rm n m k).2 = false ↔ (roundInt rm n m k).1 * 2 ^ (-k).toNat = m) := by
  have := roundAt_of_lt (rm := rm) (n := n) (m := m) h
  rwa [zero_sub] at this

/-- What a value rounds to is the integer itself, or one that the mode allows. -/
theorem roundInt_spec (rm : Rm) (n : Bool) (m : Nat) (k : Int) :
    (0 ≤ k → (roundInt rm n m k).1 = m * 2 ^ k.toNat) ∧
      (k < 0 → roundsTo rm n m (-k).toNat (roundInt rm n m k).1) :=
  ⟨fun h => by rw [roundInt_of_nonneg rm n m h], fun h => (roundInt_of_neg rm n m h).1⟩

/-- Rounding to an integer is exact where the integer is the value. -/
theorem roundInt_exact_iff (rm : Rm) (n : Bool) (m : Nat) (k : Int) :
    (roundInt rm n m k).2 = false ↔ 0 ≤ k ∨ (roundInt rm n m k).1 * 2 ^ (-k).toNat = m := by
  rcases le_or_gt 0 k with h | h
  · simp [roundInt_of_nonneg rm n m h, h]
  · simp [(roundInt_of_neg rm n m h).2, not_le.2 h]

theorem ityLo_le_ityHi (ty : ITy) : ityLo ty ≤ ityHi ty := by cases ty <;> decide

/-- The nearest integer of a range, with what happens beyond it. -/
theorem saturate_eq {lo hi : Int} (h : lo ≤ hi) (z : Int) (out inside : Fl) :
    (if z < lo then (lo, out) else if hi < z then (hi, out) else (z, inside)) =
      (max lo (min hi z), if z < lo ∨ hi < z then out else inside) := by
  split
  · next hlo => rw [if_pos (.inl hlo), max_eq_left (by omega)]
  · next hlo =>
    split
    · next hhi => rw [if_pos (.inr hhi), min_eq_left hhi.le, max_eq_right h]
    · next hhi => rw [if_neg (not_or.2 ⟨hlo, hhi⟩), min_eq_right (by omega), max_eq_right (by omega)]

/-- An integer beyond the type saturates, with nv; else nx says whether it is the value. -/
theorem toIntVal_fin (rm : Rm) (ty : ITy) (n : Bool) (m : Nat) (k : Int) :
    let i := (roundInt rm n m k).1
    let z : Int := if n then -(i : Int) else i
    toIntVal rm (ityLo ty) (ityHi ty) (.fin n m k) = (max (ityLo ty) (min (ityHi ty) z),
      if z < ityLo ty ∨ ityHi ty < z then fNv else if 0 ≤ k ∨ i * 2 ^ (-k).toNat = m then 0 else fNx) := by
  intro i z
  have hx : (if (roundInt rm n m k).2 = true then fNx else 0) = if 0 ≤ k ∨ i * 2 ^ (-k).toNat = m then 0 else fNx := by
    have hexact := roundInt_exact_iff rm n m k
    by_cases hr : (roundInt rm n m k).2 = false
    · rw [if_neg (by simp [hr]), if_pos (hexact.1 hr)]
    · rw [if_pos (by simpa using hr), if_neg fun h => hr (hexact.2 h)]
  rw [← hx]
  exact saturate_eq (ityLo_le_ityHi ty) z _ _

theorem ofIntVal_of_not_e4 (rm : Rm) (ns : Bool) (i : Int) (h : f.e4 = false) :
    ofIntVal f rm ns i = f.round rm (decide (i < 0)) i.natAbs 0 := by
  simp [ofIntVal, h]

end Sys2Proof.Machine
end

section
/-! SUPPORT. The square root (R79): an integer root with a sticky last bit, rounded once. -/

namespace Sys2Proof.Machine

variable {n : Bool} {x m k : Nat} {e : Int}

/-- The root is found between r and r + 2^k. -/
theorem isqrtGo_eq_sqrt (k : Nat) {x r : Nat} (hlo : r * r ≤ x) (hhi : x < (r + 2 ^ k) * (r + 2 ^ k)) :
    isqrtGo x k r = Nat.sqrt x := by
  induction k generalizing r with
  | zero => exact Nat.eq_sqrt.2 ⟨hlo, hhi⟩
  | succ k ih =>
    simp only [isqrtGo]
    split
    · next h => exact ih h (by rwa [pow_succ, mul_two, ← add_assoc] at hhi)
    · next h => exact ih hlo (by omega)

theorem isqrt_eq_sqrt (x : Nat) : isqrt x = Nat.sqrt x := by
  refine isqrtGo_eq_sqrt _ (Nat.zero_le x) ?_
  calc x < 2 ^ (Nat.log2 x + 1) := Nat.lt_log2_self
    _ ≤ 2 ^ ((Nat.log2 x / 2 + 1) + (Nat.log2 x / 2 + 1)) := Nat.pow_le_pow_right (by decide) (by omega)
    _ = _ := by rw [pow_add, zero_add]

/-- The radicand in units of 4^(e / 2 - 32). -/
def radicand (m : Nat) (e : Int) : Nat := m * 2 ^ (e - 2 * (e / 2 - 32)).toNat

/-- Twice the integer root, with a last bit for what it leaves. -/
def stickyRoot (x : Nat) : Nat := 2 * Nat.sqrt x + if Nat.sqrt x * Nat.sqrt x = x then 0 else 1

theorem fsqrtVal_pos (rm : Rm) (e : Int) (hm : m ≠ 0) :
    fsqrtVal rm (.fin false m e) = fp32.round rm false (stickyRoot (radicand m e)) (e / 2 - 33) := by
  have hx : (if e % 2 = 0 then m else 2 * m) * 2 ^ 64 = radicand m e := by
    have h : (e - 2 * (e / 2 - 32)).toNat = (if e % 2 = 0 then 0 else 1) + 64 := by split <;> omega
    rw [radicand, h]
    split <;> ring
  have he : (if e % 2 = 0 then e else e - 1) / 2 = e / 2 := by split <;> omega
  simp only [fsqrtVal, beq_iff_eq, hm, if_false, Bool.false_eq_true, isqrt_eq_sqrt, hx, he, stickyRoot]

theorem stickyRoot_sq (r : Nat) : stickyRoot (r * r) = r * 2 ^ 1 := by
  simp [stickyRoot, Nat.sqrt_eq, mul_comm]

/-- A root that is exact is rounded once. -/
theorem fsqrtVal_exact (rm : Rm) {a : Nat} {j : Int} (hm : m ≠ 0) (hj : 2 * j ≤ e)
    (ha : a * a = m * 2 ^ (e - 2 * j).toNat) : fsqrtVal rm (.fin false m e) = fp32.round rm false a j := by
  rw [fsqrtVal_pos rm e hm]
  rcases le_total j (e / 2 - 32) with h | h
  · have hx : a * a = radicand m e * (2 ^ (e / 2 - 32 - j).toNat * 2 ^ (e / 2 - 32 - j).toNat) := by
      rw [ha, radicand, mul_assoc, ← pow_add, ← pow_add]
      congr 2
      omega
    have hdvd : 2 ^ (e / 2 - 32 - j).toNat ∣ a := by
      rw [← Nat.pow_dvd_pow_iff two_ne_zero, sq, sq, hx]
      exact dvd_mul_left _ _
    obtain ⟨c, rfl⟩ := hdvd
    have hc : radicand m e = c * c := by
      have hpow : 0 < 2 ^ (e / 2 - 32 - j).toNat := Nat.two_pow_pos _
      refine Nat.eq_of_mul_eq_mul_right (Nat.mul_pos hpow hpow) ?_
      rw [← hx]
      ring
    rw [hc, stickyRoot_sq, mul_comm _ c, round_shift, round_shift]
    congr 1
    omega
  · have hx : radicand m e = (a * 2 ^ (j - (e / 2 - 32)).toNat) * (a * 2 ^ (j - (e / 2 - 32)).toNat) := by
      rw [mul_mul_mul_comm, ha, radicand, mul_assoc, ← pow_add, ← pow_add]
      congr 2
      omega
    rw [hx, stickyRoot_sq, mul_assoc, ← pow_add, round_shift]
    congr 1
    omega

/-- The value of a normal number by its fields (R67). -/
theorem val_normal {f : Fmt} (he : f.e4 = false) (h0 : x / 2 ^ f.mb % 2 ^ f.eb ≠ 0)
    (h1 : x / 2 ^ f.mb % 2 ^ f.eb ≠ 2 ^ f.eb - 1) : f.val x =
      .fin (x / f.signBit % 2 == 1) (2 ^ f.mb + x % 2 ^ f.mb) (f.qmin + (x / 2 ^ f.mb % 2 ^ f.eb : Nat) - 1) := by
  simp [Fmt.val, he, h0, h1]

theorem val_fp32_normal {E p : Nat} (hE : E ≤ 253) (hlo : 2 ^ 23 ≤ p) (hhi : p < 2 ^ 24) :
    fp32.val (E * 2 ^ 23 + p) = .fin false p ((E : Int) - 149) := by
  have hex : (E * 2 ^ 23 + p) / 2 ^ fp32.mb % 2 ^ fp32.eb = E + 1 := by
    show (E * 2 ^ 23 + p) / 2 ^ 23 % 2 ^ 8 = E + 1
    omega
  have hfr : 2 ^ fp32.mb + (E * 2 ^ 23 + p) % 2 ^ fp32.mb = p := by
    show 2 ^ 23 + (E * 2 ^ 23 + p) % 2 ^ 23 = p
    omega
  have hsign : (E * 2 ^ 23 + p) / fp32.signBit % 2 = 0 := by
    show (E * 2 ^ 23 + p) / 2 ^ 31 % 2 = 0
    omega
  have hmax : E + 1 ≠ 2 ^ fp32.eb - 1 := by
    show E + 1 ≠ 2 ^ 8 - 1
    omega
  have hq : fp32.qmin + ((E + 1 : Nat) : Int) - 1 = (E : Int) - 149 := by
    show (-149 : Int) + ((E + 1 : Nat) : Int) - 1 = (E : Int) - 149
    omega
  rw [val_normal rfl (by rw [hex]; exact E.succ_ne_zero) (by rw [hex]; exact hmax), hsign, hfr, hex, hq]
  rfl

/-- A magnitude in the normal range, rounded toward zero: the number that its uppermost 24 bits make. -/
theorem val_round_rz (hlog : 23 ≤ Nat.log2 m) (hlo : -126 ≤ e + (Nat.log2 m : Int))
    (hhi : e + (Nat.log2 m : Int) ≤ 127) :
    ∃ p, fp32.val (fp32.round .rz false m e).1 = .fin false p (e + (Nat.log2 m : Int) - 23) ∧
      p * 2 ^ (Nat.log2 m - 23) ≤ m ∧ m < (p + 1) * 2 ^ (Nat.log2 m - 23) := by
  have hm : m ≠ 0 := by rintro rfl; simp at hlog
  have hlp : fp32.lastPlace m e = e + (Nat.log2 m : Int) - 23 := by have := lastPlace_fp32 m e; omega
  have hmag := magnitude_fp32 .rz false m e
  have hrlo := le_roundAt (p := 23) (e := e) (k := e + (Nat.log2 m : Int) - 23) .rz false hm (by omega)
  have hround := roundAt_roundsTo (j := e) (e := e) (k := e + (Nat.log2 m : Int) - 23) .rz false m le_rfl (by omega)
  rw [hlp] at hmag
  generalize (roundAt .rz false m e (e + (Nat.log2 m : Int) - 23)).1 = p at hmag hrlo hround
  have hd : (e + (Nat.log2 m : Int) - 23 - e).toNat = Nat.log2 m - 23 := by omega
  obtain ⟨-, hlt, hle⟩ := hround
  simp only [hd, sub_self, Int.toNat_zero, pow_zero, mul_one] at hlt hle
  have hrhi : p < 2 ^ 24 := by
    refine Nat.lt_of_mul_lt_mul_right (a := 2 ^ (Nat.log2 m - 23)) (hle.trans_lt ?_)
    rw [← pow_add]
    have : 24 + (Nat.log2 m - 23) = Nat.log2 m + 1 := by omega
    rw [this]
    exact Nat.lt_log2_self
  refine ⟨p, ?_, hle, hlt⟩
  have hmax : fp32.maxFin = 255 * 2 ^ 23 - 1 := rfl
  rw [round_fst_of_le hm (by omega), hmag, if_neg (by decide), zero_add, val_fp32_normal (by omega) hrlo hrhi]
  congr 1
  omega

/-- Rounded toward zero, the root is the greatest number of its exponent whose square is not above the radicand. -/
theorem fsqrtVal_rz {X : Nat} (h : fp32.val X = .fin false m e) (hm : m ≠ 0) :
    ∃ p q, fp32.val (fsqrtVal .rz (.fin false m e)).1 = .fin false p q ∧ 2 * (e / 2 - 32) ≤ 2 * q ∧
      p * p * 2 ^ (2 * q - 2 * (e / 2 - 32)).toNat ≤ radicand m e ∧
      radicand m e < (p + 1) * (p + 1) * 2 ^ (2 * q - 2 * (e / 2 - 32)).toNat := by
  obtain ⟨hlt, hlo, hhi⟩ := val_fp32_range h
  have hexp : 64 ≤ (e - 2 * (e / 2 - 32)).toNat ∧ (e - 2 * (e / 2 - 32)).toNat ≤ 65 := by omega
  have hxlo : 2 ^ 32 * 2 ^ 32 ≤ radicand m e := by
    calc 2 ^ 32 * 2 ^ 32 = 1 * 2 ^ 64 := by norm_num
      _ ≤ radicand m e := Nat.mul_le_mul (Nat.pos_of_ne_zero hm) (Nat.pow_le_pow_right (by decide) hexp.1)
  have hxhi : radicand m e < 2 ^ 45 * 2 ^ 45 := by
    calc radicand m e ≤ 2 ^ 24 * 2 ^ 65 := Nat.mul_le_mul hlt.le (Nat.pow_le_pow_right (by decide) hexp.2)
      _ < 2 ^ 45 * 2 ^ 45 := by norm_num
  rw [fsqrtVal_pos .rz e hm]
  generalize radicand m e = x at *
  have hrlo : 2 ^ 32 ≤ Nat.sqrt x := Nat.le_sqrt.2 hxlo
  have hrhi : Nat.sqrt x < 2 ^ 45 := Nat.sqrt_lt.2 hxhi
  have hs : 2 * Nat.sqrt x ≤ stickyRoot x ∧ stickyRoot x ≤ 2 * Nat.sqrt x + 1 := by
    unfold stickyRoot
    split <;> omega
  have hs0 : stickyRoot x ≠ 0 := by omega
  have hl : 33 ≤ Nat.log2 (stickyRoot x) := (Nat.le_log2 hs0).2 (by omega)
  have hl' : Nat.log2 (stickyRoot x) < 46 := (Nat.log2_lt hs0).2 (by omega)
  obtain ⟨p, hval, hple, hplt⟩ := val_round_rz (m := stickyRoot x) (e := e / 2 - 33) (by omega) (by omega) (by omega)
  have hd : 2 ^ (Nat.log2 (stickyRoot x) - 23) = 2 * 2 ^ (Nat.log2 (stickyRoot x) - 24) := by
    rw [← pow_succ']
    congr 1
    omega
  have hq : (2 * (e / 2 - 33 + (Nat.log2 (stickyRoot x) : Int) - 23) - 2 * (e / 2 - 32)).toNat =
      (Nat.log2 (stickyRoot x) - 24) + (Nat.log2 (stickyRoot x) - 24) := by omega
  refine ⟨p, _, hval, by omega, ?_⟩
  rw [hq, pow_add, mul_mul_mul_comm p p, mul_mul_mul_comm (p + 1)]
  rw [hd, mul_left_comm] at hple hplt
  exact ⟨Nat.le_sqrt.1 (by omega), Nat.sqrt_lt.1 (by omega)⟩

end Sys2Proof.Machine
end

section
/-! SUPPORT. Comparison and classification (R74, R75); square roots in any unit. -/

namespace Sys2Proof.Machine

variable {x y : Nat} {n n' : Bool} {m m' : Nat} {i j k k' : Int}

/-- The unit in which two numbers are compared does not matter. -/
theorem scaled_lt_unit (hj : j ≤ k) (hj' : j ≤ k') (hi : i ≤ k) (hi' : i ≤ k') :
    scaled n m k j < scaled n' m' k' j ↔ scaled n m k i < scaled n' m' k' i := by
  rcases le_total j i with h | h
  · exact scaled_lt_iff h hi hi'
  · exact (scaled_lt_iff h hj hj').symm

theorem scaled_le_unit (hj : j ≤ k) (hj' : j ≤ k') (hi : i ≤ k) (hi' : i ≤ k') :
    scaled n m k j ≤ scaled n' m' k' j ↔ scaled n m k i ≤ scaled n' m' k' i := by
  rw [← not_lt, ← not_lt, scaled_lt_unit hj' hj hi' hi]

theorem scaled_pos (m : Nat) (k j : Int) : scaled false m k j = (m * 2 ^ (k - j).toNat : Nat) := one_mul _

/-- The root rounded toward zero is the greatest number whose square is not above the operand. -/
theorem fsqrtVal_rz_between (h : fp32.val x = .fin false m k) (hm : m ≠ 0) :
    ∃ p q, fp32.val (fsqrtVal .rz (.fin false m k)).1 = .fin false p q ∧ ∀ j : Int, j ≤ k → j ≤ 2 * q →
      scaled false (p * p) (2 * q) j ≤ scaled false m k j ∧
        scaled false m k j < scaled false ((p + 1) * (p + 1)) (2 * q) j := by
  obtain ⟨p, q, hval, hq, hlo, hhi⟩ := fsqrtVal_rz h hm
  have hk : 2 * (k / 2 - 32) ≤ k := by omega
  refine ⟨p, q, hval, fun j hj hj' => ?_⟩
  rw [scaled_le_unit hj' hj hq hk, scaled_lt_unit hj hj' hk hq, scaled_pos, scaled_pos, scaled_pos, Nat.cast_le, Nat.cast_lt]
  exact ⟨hlo, hhi⟩

theorem eqNum_nan {a b : Val} (h : a.isNan = true ∨ b.isNan = true) : a.eqNum b = false := by
  rcases h with h | h <;> simp [Val.eqNum, h]

theorem ltNum_nan {a b : Val} (h : a.isNan = true ∨ b.isNan = true) : a.ltNum b = false := by
  have hlt : a.ltTotal b = false := by
    cases a <;> cases b <;> simp_all [Val.isNan, Val.ltTotal]
  simp [Val.ltNum, hlt]

/-- A NaN compares unordered. -/
theorem floatCmp_nan (c : FCmp) (h : (fp32.val x).isNan = true ∨ (fp32.val y).isNan = true) :
    floatCmp c x y = (decide (c = .ne ∨ c = .uo), if fp32.val x = .nan true ∨ fp32.val y = .nan true ∨ c = .lt ∨ c = .le ∨
      c = .gt ∨ c = .ge then fNv else 0) := by
  have hun : ((fp32.val x).isNan || (fp32.val y).isNan) = true := by simpa using h
  have heq : (fp32.val x).eqNum (fp32.val y) = false := eqNum_nan h
  have hlt : (fp32.val x).ltNum (fp32.val y) = false := ltNum_nan h
  have hgt : (fp32.val y).ltNum (fp32.val x) = false := ltNum_nan h.symm
  have hsig : ((fp32.val x).isSig || (fp32.val y).isSig) = decide (fp32.val x = .nan true ∨ fp32.val y = .nan true) := by
    rw [Bool.eq_iff_iff, decide_eq_true_iff, Bool.or_eq_true, isSig_iff, isSig_iff]
  simp only [floatCmp, hun, heq, hlt, hgt, hsig]
  cases c <;> simp

/-- Numbers compare as the integers of a common unit. -/
theorem floatCmp_fin (c : FCmp) (hx : fp32.val x = .fin n m k) (hy : fp32.val y = .fin n' m' k')
    (hk : j ≤ k) (hk' : j ≤ k') :
    let p := scaled n m k j
    let q := scaled n' m' k' j
    floatCmp c x y = (match c with
      | .eq => decide (p = q)
      | .ne => decide (p ≠ q)
      | .lt => decide (p < q)
      | .le => decide (p ≤ q)
      | .gt => decide (q < p)
      | .ge => decide (q ≤ p)
      | .uo => false
      | .ord => true, 0) := by
  intro p q
  have heq : (Val.fin n m k).eqNum (.fin n' m' k') = decide (p = q) := eqNum_fin n n' m m' hk hk'
  have hlt : (Val.fin n m k).ltNum (.fin n' m' k') = decide (p < q) := ltNum_fin n n' m m' hk hk'
  have hgt : (Val.fin n' m' k').ltNum (.fin n m k) = decide (q < p) := ltNum_fin n' n m' m hk' hk
  have hle : (decide (p < q) || decide (p = q)) = decide (p ≤ q) := by
    rw [← Bool.decide_or]
    exact decide_eq_decide.2 le_iff_lt_or_eq.symm
  have hge : (decide (q < p) || decide (p = q)) = decide (q ≤ p) := by
    rw [← Bool.decide_or]
    exact decide_eq_decide.2 (by rw [eq_comm, le_iff_lt_or_eq])
  simp only [floatCmp, hx, hy, heq, hlt, hgt]
  cases c <;> simp [Val.isNan, Val.isSig, hle, hge]

/-- fclass gives one bit, which tells the kind and the sign of the value. -/
theorem classOf_eq (f : Fmt) (x : Nat) : ∃ k ≤ 9, classOf f x = 2 ^ k ∧
    match f.val x with
    | .nan s => k = if s then 8 else 9
    | .inf n => k = if n then 0 else 7
    | .fin n m _ => if m = 0 then k = (if n then 3 else 4) else
        if m < 2 ^ f.mb then k = (if n then 2 else 5) else k = (if n then 1 else 6) := by
  unfold classOf
  cases f.val x with
  | nan s => cases s <;> exact ⟨_, by decide, rfl, rfl⟩
  | inf n => cases n <;> exact ⟨_, by decide, rfl, rfl⟩
  | fin n m k =>
    simp only [beq_iff_eq]
    split_ifs <;> exact ⟨_, by decide, rfl, rfl⟩

end Sys2Proof.Machine
end

section
/-! SUPPORT. Comparison, conversion, rounding and special functions (R74-R79, R82-R86), clause by clause. -/

namespace Sys2Proof.Machine

theorem gives_cvt {e : Env} {i : Instr} {f : Env → LaneRes} {wide : Bool} {d : Reg} {r : DWord × Fl}
    (hx : exec i e.s = laneOp i f e.s) (h : e.runsLane i)
    (hr : f e = { (if wide then r2 d r.1 else r1 d (r.1.setWidth 32)) with fl := r.2 }) :
    e.gives i { (if wide then r2 d r.1 else r1 d (r.1.setWidth 32)) with fl := r.2 } :=
  gives_of_arm hx h hr (width_distinct wide d (r.1.setWidth 32) r.1)

theorem fmtOf_not_e4 {f : FTy} (hf : f ∈ [FTy.f32, .f16, .bf16]) : f ≠ .e4m3 ∧ (fmtOf f).e4 = false := by
  cases f with
  | f32 | f16 | bf16 => exact ⟨nofun, rfl⟩
  | e4m3 => simp at hf

theorem convert_ff {f : FTy} (hf : f ∈ [FTy.f32, .f16, .bf16]) (g : FTy) (ns : Bool) (rm : Rm) (x : DWord) :
    convert (.ff f g) ns rm x = (BitVec.ofNat 64 ((fmtOf f).ofVal rm ((fmtOf g).val x.toNat)).1,
      ((fmtOf f).ofVal rm ((fmtOf g).val x.toNat)).2) := by
  simp only [convert, beq_iff_eq, (fmtOf_not_e4 hf).1, if_false]

theorem convert_ofInt {f : FTy} (hf : f ∈ [FTy.f32, .f16, .bf16]) (ty : ITy) (ns : Bool) (rm : Rm) (x : DWord) :
    convert (.ofInt ty f) ns rm x =
      (BitVec.ofNat 64 ((fmtOf f).round rm (decide (ityInt ty x < 0)) (ityInt ty x).natAbs 0).1,
        ((fmtOf f).round rm (decide (ityInt ty x < 0)) (ityInt ty x).natAbs 0).2) := by
  simp only [convert, ofIntVal_of_not_e4 rm ns _ (fmtOf_not_e4 hf).2]

theorem convert_toInt (ty : ITy) (g : FTy) (ns : Bool) (rm : Rm) (x : DWord) : convert (.toInt ty g) ns rm x =
    (BitVec.ofInt 64 (toIntVal rm (ityLo ty) (ityHi ty) ((fmtOf g).val x.toNat)).1,
      (toIntVal rm (ityLo ty) (ityHi ty) ((fmtOf g).val x.toNat)).2) := rfl

/-- Every special function keeps a NaN (R78). -/
theorem specialVal_nan (fn : Nat) {x : BitVec 32} {s : Bool} (h : fp32.val x.toNat = .nan s) :
    specialVal fn x = (0x7FC00000, if s then fNv else 0) := by
  simp only [specialVal, h]
  rfl

/-- Settles O8: values compare as integers of a common unit, an integer that a value rounds to is the value or next to it
by the mode, a root is the integer one with a sticky last bit, and E4M3 overflows exactly above 464. -/
theorem conversionAndSpecialFunctionResults : Obligations.ConversionAndSpecialFunctionResults := by
  refine ⟨fun e h d a b => ?arms, fun c x y => ?compare, fun rm x => ⟨fun i => ?scale, ?round, ?root⟩,
    fun ns rm x y => ⟨fun f hf g => ?float, fun g => rfl, fun f hf ty => ?ofInt, fun ty g => ?toInt, ?e4⟩,
    fun e h d a => ?special⟩
  case arms =>
    refine ⟨fun c n hr => gives_of_arm rfl hr rfl (rp_distinct n _), fun ft hr => ?kind, fun rm hr => gives_rf rfl hr rfl,
      fun rm hr => gives_rf rfl hr rfl, fun rm hr => gives_rf rfl hr rfl,
      fun cv ns rm hr => ⟨_, rfl, gives_cvt rfl hr rfl⟩, fun pt rm hr => ⟨_, _, rfl, rfl, gives_rf rfl hr rfl⟩,
      fun hi ns c hr => ⟨_, _, rfl, rfl, gives_rf rfl hr rfl⟩, fun k hr => gives_r1 rfl hr rfl⟩
    case kind =>
      obtain ⟨k, hk, hclass, hval⟩ := classOf_eq (fmtOf ft) (e.nat a)
      exact ⟨k, hk, gives_r1 rfl hr (by rw [hclass]), hval⟩
  case compare =>
    exact ⟨floatCmp_nan c, fun n m k n' m' k' j hx hy hk hk' => floatCmp_fin c hx hy hk hk'⟩
  case scale =>
    cases hx : fp32.val x with
    | nan s => simp only [fscaleVal, hx]
    | inf n => simp only [fscaleVal, hx]
    | fin n m k =>
      by_cases hm : m = 0
      · simp [fscaleVal, hx, hm]
      · simp only [if_neg hm]
        exact fscaleVal_fin rm i hx hm
  case round =>
    cases hx : fp32.val x with
    | nan s => simp only [frndVal, hx]
    | inf n =>
      simp only [frndVal, hx]
      cases n <;> rfl
    | fin n m k => exact ⟨(roundInt rm n m k).1, by simp only [frndVal, hx], roundInt_spec rm n m k⟩
  case root =>
    cases hx : fp32.val x with
    | nan s => rfl
    | inf n => rfl
    | fin n m k =>
      by_cases hm : m = 0
      · subst hm
        rfl
      simp only [if_neg hm]
      cases n with
      | true => simp [fsqrtVal, hm]
      | false => exact ⟨fun a j hj ha => fsqrtVal_exact rm hm hj ha, fsqrtVal_rz_between hx hm⟩
  case float =>
    rw [convert_ff hf]
    cases (fmtOf g).val x.toNat with
    | nan s => rfl
    | inf n => rfl
    | fin n m k => rfl
  case ofInt =>
    intro i
    have hi : ityInt ty x = i := by cases ty <;> rfl
    rw [convert_ofInt hf, hi]
  case toInt =>
    intro lo hi
    have hlo : ityLo ty = lo := by cases ty <;> rfl
    have hhi : ityHi ty = hi := by cases ty <;> rfl
    rw [convert_toInt, ← hlo, ← hhi]
    cases (fmtOf g).val x.toNat with
    | nan s => rfl
    | inf n => rfl
    | fin n m k =>
      obtain ⟨hint, hround⟩ := roundInt_spec rm n m k
      exact ⟨(roundInt rm n m k).1, hint, hround, by rw [toIntVal_fin]⟩
  case e4 =>
    cases fp32.val y with
    | nan s => rfl
    | inf n => rfl
    | fin n m k => exact toE4_fin ns n m k
  case special =>
    exact ⟨fun hr => gives_rf rfl hr rfl, fun hr => gives_rf rfl hr rfl, fun hr => gives_rf rfl hr rfl,
      fun hr => gives_rf rfl hr rfl, fun hr => gives_rf rfl hr rfl, fun hr => gives_rf rfl hr rfl,
      fun fn _ x s h => specialVal_nan fn h, by decide, by decide, by decide, by decide, by decide, by decide, by decide,
      by decide, by decide, by decide⟩

end Sys2Proof.Machine
end

section
/-! SUPPORT. The thread that runs an instruction: where its operands are read, and the thread in the states that follow. -/

namespace Sys2Proof.Machine

/-! The environment of the operands (R36): a read of clock.lo changes clock.hi alone. -/

theorem latchClock_eq (e : Env) (i : Instr) (t : Thread) :
    e.latchClock i t = { t with clockHi := (e.latchClock i t).clockHi } := by
  unfold Env.latchClock
  split <;> rfl

@[simp] theorem Env.s_at_ (e : Env) (i : Instr) : (e.at_ i).s = e.s := rfl
@[simp] theorem Env.g_at_ (e : Env) (i : Instr) : (e.at_ i).g = e.g := rfl
@[simp] theorem Env.ctx_at_ (e : Env) (i : Instr) : (e.at_ i).ctx = e.ctx := rfl

@[simp] theorem Env.tid_at_ (e : Env) (i : Instr) : (e.at_ i).t.tid = e.t.tid :=
  (congrArg Thread.tid (latchClock_eq e i e.t) :)

@[simp] theorem Env.pair_at_ (e : Env) (i : Instr) (r : Reg) : (e.at_ i).pair r = e.pair r := by
  have hat : e.at_ i = { e with t := { e.t with clockHi := (e.latchClock i e.t).clockHi } } :=
    congrArg (fun t => ({ e with t := t } : Env)) (latchClock_eq e i e.t)
  rw [hat]
  cases r <;> rfl

theorem Env.ea_at_ (e : Env) (i : Instr) (a : Reg) (b : Src) :
    (e.at_ i).ea a b = e.pair a + ((e.at_ i).src b).signExtend 64 := by
  rw [Env.ea, Env.pair_at_]

/-! The thread and its workgroup in the state at issue. -/

theorem Env.Issues.thread? {e : Env} (h : e.Issues) : e.s.thread? e.path.core e.path.slot e.t.tid = some e.t := by
  rw [State.thread?, h.wg]
  exact h.thread

theorem Env.Issues.core {e : Env} (h : e.Issues) : e.g.core = e.path.core := (wg?_core h.wg).1

theorem Env.Issues.slot {e : Env} (h : e.Issues) : e.g.slot = e.path.slot := (wg?_core h.wg).2

/-- The thread after a change of it. -/
theorem Env.Issues.thread?_modThread {e : Env} (h : e.Issues) {f : Thread → Thread}
    (hf : ∀ t, (f t).tid = t.tid := by intro; rfl) :
    (e.s.modThread e.g.core e.g.slot e.t.tid f).thread? e.path.core e.path.slot e.t.tid = some (f e.t) := by
  rw [h.core, h.slot, State.thread?_modThread _ _ _ _ _ hf, h.thread?]
  rfl

/-! A pair of v registers delivered at once. -/

theorem State.thread?_deliverN_pair (s : State) (c k n d x : Nat) (p : Bool) :
    (s.deliverN c k n (.v d) 2 x p).thread? c k n = (s.thread? c k n).map fun t =>
      (t.setV d (.arrived (BitVec.ofNat 32 x) p)).setV (d + 1) (.arrived (BitVec.ofNat 32 (x / 2 ^ 32)) p) := by
  simp [State.deliverN, Reg.regs, List.range_succ, thread?_deliver_v, Function.comp_def]

theorem getD_setV_self {t : Thread} {n : Nat} (h : n < t.v.length) (c : VCell) : (t.setV n c).v.getD n {} = c := by
  rw [Thread.setV_v, List.getD_eq_getElem?_getD, List.getElem?_set_self h, Option.getD_some]

/-- The high word above the low word (R28). -/
theorem word_append_word (x : DWord) : BitVec.ofNat 32 (x.toNat / 2 ^ 32) ++ BitVec.ofNat 32 x.toNat = x := by
  refine BitVec.eq_of_toNat_eq ?_
  have hx := x.isLt
  rw [BitVec.toNat_append, ← Nat.shiftLeft_add_eq_or_of_lt (BitVec.isLt _), Nat.shiftLeft_eq, BitVec.toNat_ofNat, BitVec.toNat_ofNat]
  omega

end Sys2Proof.Machine
end

section
/-! SUPPORT. Transfers (R94, R95). -/

namespace Sys2Proof.Machine

theorem Env.jumpTo_word (e : Env) {t : DWord} (h : t.toNat % 8 = 0) : e.jumpTo t = .jump e.s t := by
  simp [Env.jumpTo, h]

theorem Env.jumpTo_misaligned (e : Env) {t : DWord} (h : t.toNat % 8 ≠ 0) : e.jumpTo t = .trap 3 0 t false := by
  simp [Env.jumpTo, h]

variable {e : Env} {h : Hdr}

/-- The pair of a call holds the return address, and no other register of the thread changes. -/
theorem call_pair {t : Thread} {d : Nat} (hd : d + 1 < t.v.length) (x : DWord) :
    let u := (t.setV d (.arrived (BitVec.ofNat 32 x.toNat) false)).setV (d + 1) (.arrived (BitVec.ofNat 32 (x.toNat / 2 ^ 32)) false)
    (u.v.getD (d + 1) {}).val ++ (u.v.getD d {}).val = x ∧
      ∀ n, n ≠ d → n ≠ d + 1 → u.v.getD n {} = t.v.getD n {} := by
  refine ⟨?pair, fun n hn hn' => ?other⟩
  case pair =>
    rw [getD_setV_self (by simpa using hd), getD_setV (by omega), getD_setV_self (by omega)]
    exact word_append_word x
  case other => rw [getD_setV (Ne.symm hn'), getD_setV (Ne.symm hn)]

theorem brx_result {a : Reg} {b : Src} (hr : e.runs (.brx h a b)) :
    let t := e.pair a + ((e.at_ (.brx h a b)).src b).signExtend 64
    (t.toNat % 8 = 0 → e.goes (.brx h a b) e.s t) ∧ (t.toNat % 8 ≠ 0 → e.traps (.brx h a b) 3 0 t e.t.pc) := by
  intro t
  have ht : (e.at_ (.brx h a b)).ea a b = t := Env.ea_at_ ..
  exact ⟨fun hw => threadOp_jump _ rfl hr (ht ▸ Env.jumpTo_word _ (ht ▸ hw)),
    fun hm => threadOp_trap _ rfl hr (ht ▸ Env.jumpTo_misaligned _ (ht ▸ hm))⟩

theorem call_result {d k : Nat} (hr : e.runs (.call h d k)) (hd : d + 1 < e.t.v.length) : ∃ s t,
    e.goes (.call h d k) s (e.t.pc + disp k) ∧ s.thread? e.path.core e.path.slot e.t.tid = some t ∧
    (t.v.getD (d + 1) {}).val ++ (t.v.getD d {}).val = e.t.pc + 8 ∧
    ∀ n, n ≠ d → n ≠ d + 1 → t.v.getD n {} = e.t.v.getD n {} := by
  refine ⟨_, _, threadOp_jump _ rfl hr rfl, ?_, call_pair hd (e.t.pc + 8)⟩
  rw [Env.s_at_, Env.g_at_, Env.tid_at_, hr.issues.core, hr.issues.slot, State.thread?_deliverN_pair, hr.issues.thread?]
  rfl

/-- Settles O12: each transfer is a jump to its target; a computed target that is no word's address traps. -/
theorem transferResults : Obligations.TransferResults := by
  intro e h
  exact ⟨fun hr => threadOp_done _ rfl hr rfl, fun k hr => threadOp_jump _ rfl hr rfl, fun a b hr => brx_result hr,
    fun a hr hw => threadOp_jump _ rfl hr (Env.jumpTo_word _ hw), fun a hr hm => threadOp_trap _ rfl hr (Env.jumpTo_misaligned _ hm),
    fun d k hr hd => call_result hr hd⟩

end Sys2Proof.Machine
end

section
/-! SUPPORT. A thread that has exited is left as it is by what its exit sets off: barriers and convergence registers that
complete, leases that end (R95, R97, R155, R166, R167). -/

namespace Sys2Proof.Machine

/-! Looking up a thread where all threads have changed. -/

theorem Workgroup.thread?_map (g : Workgroup) {f : Thread → Thread} (hf : ∀ t, (f t).tid = t.tid) (k : Nat) :
    ({ g with threads := g.threads.map f } : Workgroup).thread? k = (g.thread? k).map f :=
  find?_map_key (fun t : Thread => t.tid) f hf k g.threads

/-- Every thread of some workgroups changed. -/
def State.mapThreads (s : State) (p : Workgroup → Bool) (f : Thread → Thread) : State :=
  { s with wgs := s.wgs.map fun g => if p g then { g with threads := g.threads.map f } else g }

theorem State.wg?_mapThreads (s : State) (p : Workgroup → Bool) (f : Thread → Thread) (c k : Nat) :
    (s.mapThreads p f).wg? c k = (s.wg? c k).map fun g => if p g then { g with threads := g.threads.map f } else g := by
  have hkey (g : Workgroup) : ((if p g then { g with threads := g.threads.map f } else g).core == c &&
      (if p g then { g with threads := g.threads.map f } else g).slot == k) = (g.core == c && g.slot == k) := by
    split <;> rfl
  simp only [State.wg?, State.mapThreads, List.find?_map, Function.comp_def, hkey]

/-- A thread that the change leaves as it is. -/
theorem State.thread?_mapThreads {s : State} {c k n : Nat} {t : Thread} (ht : s.thread? c k n = some t)
    (p : Workgroup → Bool) {f : Thread → Thread} (hf : ∀ u, (f u).tid = u.tid) (hft : f t = t) :
    (s.mapThreads p f).thread? c k n = some t := by
  obtain ⟨g, hg, hgt⟩ := Option.bind_eq_some_iff.1 ht
  rw [State.thread?, State.wg?_mapThreads, hg]
  simp only [Option.map_some, Option.bind_some]
  split
  · rw [Workgroup.thread?_map g hf, hgt, Option.map_some, hft]
  · exact hgt

/-- A thread after a change of any one thread that would leave it as it is. -/
theorem State.thread?_modThread_keeps {s : State} {c k n : Nat} {t : Thread} (ht : s.thread? c k n = some t)
    (c' k' n' : Nat) {f : Thread → Thread} (hf : ∀ u, (f u).tid = u.tid) (hft : f t = t) :
    (s.modThread c' k' n' f).thread? c k n = some t := by
  refine State.thread?_mapThreads ht (fun g => g.core == c' && g.slot == k') (f := fun u => if u.tid == n' then f u else u)
    (fun u => ?_) ?_
  · split
    · exact hf u
    · rfl
  · rw [hft, ite_self]

/-! The ends of waits. -/

theorem Thread.joined_tid (n : Nat) (x : Word) (t : Thread) : (t.joined n x).tid = t.tid := by
  unfold Thread.joined
  split
  · split
    · rfl
    · dsimp only
      split <;> rfl
  · rfl

theorem Thread.joined_of_not_waits {n : Nat} {t : Thread} (h : ∀ d, t.run ≠ .blocked (.join n d)) (x : Word) : t.joined n x = t := by
  unfold Thread.joined
  split
  · next m d hrun =>
    refine if_pos (bne_iff_ne.2 fun hm : m = n => h d ?_)
    rw [hrun, hm]
  · rfl

theorem Thread.barPast_tid (n : Nat) (t : Thread) : (t.barPast n).tid = t.tid := by
  unfold Thread.barPast
  split <;> rfl

theorem Thread.barPast_of_not_waits {n : Nat} {t : Thread} (h : t.run ≠ .blocked (.bar n true)) : t.barPast n = t :=
  if_neg (by simpa using h)

theorem Thread.cbarPast_tid (n : Nat) (t : Thread) : (t.cbarPast n).tid = t.tid := by
  unfold Thread.cbarPast
  split <;> rfl

theorem Thread.cbarPast_of_not_waits {n : Nat} {t : Thread} (h : t.run ≠ .blocked (.cbar n true)) : t.cbarPast n = t :=
  if_neg (by simpa using h)

/-! The registers of the workgroup. -/

theorem Workgroup.thread?_convDone (g : Workgroup) (n k : Nat) :
    (g.convDone n).thread? k = (g.thread? k).map (Thread.joined n (g.c.getD n {}).acc) :=
  Workgroup.thread?_map g (Thread.joined_tid n _) k

theorem Workgroup.thread?_barDone (g : Workgroup) (n k : Nat) : (g.barDone n).thread? k = (g.thread? k).map (Thread.barPast n) :=
  Workgroup.thread?_map g (Thread.barPast_tid n) k

section
variable {t : Thread} (hx : t.run = .exited)
include hx

theorem convTest_exited {g : Workgroup} {k : Nat} (ht : g.thread? k = some t) (n : Nat) : (g.convTest n).thread? k = some t := by
  unfold Workgroup.convTest
  dsimp only
  split
  · rw [Workgroup.thread?_convDone, ht, Option.map_some, Thread.joined_of_not_waits fun d => by simp [hx]]
  · exact ht

theorem barTest_exited {g : Workgroup} {k : Nat} (ht : g.thread? k = some t) (n : Nat) : (g.barTest n).thread? k = some t := by
  unfold Workgroup.barTest
  dsimp only
  split
  · rw [Workgroup.thread?_barDone, ht, Option.map_some, Thread.barPast_of_not_waits (by simp [hx])]
  · exact ht

theorem exitSigns_exited {g : Workgroup} {k : Nat} (ht : g.thread? k = some t) (u : Thread) : (g.exitSigns u).thread? k = some t := by
  unfold Workgroup.exitSigns
  refine List.foldlRecOn (motive := fun g : Workgroup => g.thread? k = some t) _ _ ?_ fun g hg n _ => barTest_exited hx hg n
  refine List.foldlRecOn (motive := fun g : Workgroup => g.thread? k = some t) _ _ ht fun g hg n _ => ?_
  split
  · exact convTest_exited hx hg n
  · exact hg

/-! The cluster's barriers and the leases. -/

variable {s : State} {c k n : Nat}

theorem cbarTest_exited (ht : s.thread? c k n = some t) (ctx lid cl b : Nat) : (s.cbarTest ctx lid cl b).thread? c k n = some t := by
  unfold State.cbarTest
  dsimp only
  split
  · exact State.thread?_mapThreads (s := s.setClbar _) ht (Workgroup.inCluster _ _ _) (Thread.cbarPast_tid b)
      (Thread.cbarPast_of_not_waits (by simp [hx]))
  · exact ht

theorem exitCluster_exited (ht : s.thread? c k n = some t) (g : Workgroup) (u : Thread) :
    (s.exitCluster g u).thread? c k n = some t := by
  unfold State.exitCluster State.cbarAll
  refine List.foldlRecOn (motive := fun s : State => s.thread? c k n = some t) _ _ ht fun s hs b _ => ?_
  split
  · exact cbarTest_exited hx hs ..
  · exact hs

theorem letGo_exited (ht : s.thread? c k n = some t) (w : Who) (id : Nat) : (s.letGo w id).thread? c k n = some t := by
  unfold State.letGo State.mod
  dsimp only
  split
  · refine State.thread?_modThread_keeps ht _ _ _ (fun u => ?_) (if_neg (by simp [hx]))
    split <;> rfl
  · exact ht

theorem endLeases_exited (ht : s.thread? c k n = some t) (p : LeaseEnt → Bool) : (s.endLeases p).thread? c k n = some t := by
  unfold State.endLeases
  refine List.foldlRecOn (motive := fun s : State => s.thread? c k n = some t) _ _ ht fun s hs l _ => ?_
  have hclear : ((s.clearL l).dropLease l.id).thread? c k n = some t := by
    unfold State.clearL
    (repeat' split) <;> exact hs
  split
  · exact hs
  · exact hs
  · exact letGo_exited hx hclear ..
  · exact letGo_exited hx hclear ..

end

theorem convTest_place (g : Workgroup) (n : Nat) : (g.convTest n).core = g.core ∧ (g.convTest n).slot = g.slot := by
  unfold Workgroup.convTest
  dsimp only
  split <;> exact ⟨rfl, rfl⟩

theorem barTest_place (g : Workgroup) (n : Nat) : (g.barTest n).core = g.core ∧ (g.barTest n).slot = g.slot := by
  unfold Workgroup.barTest
  dsimp only
  split <;> exact ⟨rfl, rfl⟩

theorem exitSigns_place (g : Workgroup) (u : Thread) : (g.exitSigns u).core = g.core ∧ (g.exitSigns u).slot = g.slot := by
  unfold Workgroup.exitSigns
  refine List.foldlRecOn (motive := fun g' : Workgroup => g'.core = g.core ∧ g'.slot = g.slot) _ _ ?_ fun g' hg n _ => ?bar
  case bar => rwa [(barTest_place g' n).1, (barTest_place g' n).2]
  refine List.foldlRecOn (motive := fun g' : Workgroup => g'.core = g.core ∧ g'.slot = g.slot) _ _ ⟨rfl, rfl⟩ fun g' hg n _ => ?_
  split
  · rwa [(convTest_place g' n).1, (convTest_place g' n).2]
  · exact hg

/-- A thread that has ended. -/
def Thread.ended (t : Thread) : Thread := { t with run := .exited }

/-- What the exit of a thread leaves of it. -/
theorem thread?_exitThread {s : State} {g : Workgroup} {u t : Thread} (ht : s.thread? g.core g.slot u.tid = some t) :
    (s.exitThread g u).thread? g.core g.slot u.tid = some t.ended := by
  have hrun : t.ended.run = .exited := rfl
  have hexit : (s.modThread g.core g.slot u.tid Thread.ended).thread? g.core g.slot u.tid = some t.ended := by
    rw [State.thread?_modThread _ _ _ _ Thread.ended fun _ => rfl, ht, Option.map_some]
  obtain ⟨g', hg, hgt⟩ := Option.bind_eq_some_iff.1 hexit
  have hsigns : ((s.modThread g.core g.slot u.tid Thread.ended).modWg g.core g.slot fun g => g.exitSigns u).thread?
      g.core g.slot u.tid = some t.ended := by
    rw [State.thread?, State.wg?_modWg _ _ _ (fun g => g.exitSigns u) fun g => exitSigns_place g u, hg, Option.map_some, Option.bind_some]
    exact exitSigns_exited hrun hgt u
  unfold State.exitThread
  exact endLeases_exited hrun (exitCluster_exited hrun hsigns g u) _

end Sys2Proof.Machine
end

section
/-! SUPPORT. Scheduling, traps and code coherence (R95, R97, R99, R101). -/

namespace Sys2Proof.Machine

variable {e : Env} {h : Hdr}

theorem yield_result (hr : e.runs (.yield h)) : ∃ s t, e.retires (.yield h) s ∧
    s.thread? e.path.core e.path.slot e.t.tid = some t ∧ t.yieldLeft = 64 + 2 :=
  ⟨_, _, threadOp_done _ rfl hr rfl, hr.issues.thread?_modThread, rfl⟩

theorem sleep_result {a : Src} (hr : e.runs (.sleep h a)) : let n := ((e.at_ (.sleep h a)).src a).toNat
    (n = 0 → e.retires (.sleep h a) e.s) ∧
    (n ≠ 0 → ∃ s t, e.blocks (.sleep h a) s (.sleep 0) ∧ s.thread? e.path.core e.path.slot e.t.tid = some t ∧
      t.sleep = min n 16777215) := by
  intro n
  refine ⟨fun hn => threadOp_done _ rfl hr (if_pos ?_),
    fun hn => ⟨e.s.modThread e.g.core e.g.slot e.t.tid fun t => { t with sleep := min n 16777215 }, _,
      threadOp_block _ rfl hr ?_, hr.issues.thread?_modThread, rfl⟩⟩
  · simpa using hn
  · rw [Env.tid_at_]
    exact if_neg (by simpa using hn)

theorem isync_result (hr : e.runs (.isync h)) :
    ((∀ k ∈ e.t.icinvs, ∀ q ∈ e.s.m.icinv, q.id ≠ k) → ∃ s t, e.retires (.isync h) s ∧
      s.thread? e.path.core e.path.slot e.t.tid = some t ∧ t.fbuf = [] ∧ t.icinvs = []) ∧
    ((∃ k ∈ e.t.icinvs, ∃ q ∈ e.s.m.icinv, q.id = k) → e.blocks (.isync h) e.s .isync) := by
  refine ⟨fun hdone => ⟨_, _, threadOp_done _ rfl hr (if_pos ?_), hr.issues.thread?_modThread, rfl, rfl⟩,
    fun ⟨k, hk, q, hq, hid⟩ => threadOp_block _ rfl hr (if_neg fun hall => ?_)⟩
  · exact List.all_eq_true.2 fun k hk => List.all_eq_true.2 fun q hq => bne_iff_ne.2 (hdone k hk q hq)
  · exact bne_iff_ne.1 (List.all_eq_true.1 (List.all_eq_true.1 hall k hk) q hq) hid

theorem coresIn_iff (sc : Scope) (core k : Nat) : coresIn sc core k = true ↔ match sc with
    | .wg => k = core
    | .cl => k / 4 = core / 4
    | .die => k / 64 = core / 64
    | .dev | .sys => True := by
  cases sc <;> simp [coresIn, dieOf]

theorem icinv_result {sc : Scope} {a : Reg} {b : Src} (hr : e.runs (.icinv h sc a b)) :
    let va := (e.at_ (.icinv h sc a b)).ea a b
    (e.ctx.match? va = none → e.retires (.icinv h sc a b) e.s) ∧
    (∀ r, e.ctx.match? va = some r → ∃ s q t, e.retires (.icinv h sc a b) s ∧ s.m.icinv = e.s.m.icinv ++ [q] ∧
      q.ctx = e.g.ctx ∧ q.line = lineOf (r.ia va) ∧
      (∀ k, k ∈ q.cores ↔ k < 256 ∧ coresIn sc e.g.core k = true) ∧
      s.thread? e.path.core e.path.slot e.t.tid = some t ∧ q.id ∈ t.icinvs) := by
  intro va
  refine ⟨fun hm => threadOp_done _ rfl hr ?_, fun r hm => ?_⟩
  · simp only [Env.ctx_at_, va, hm, Env.s_at_]
  · let q : IcInv := { id := e.s.nextId, ctx := e.g.ctx, line := lineOf (r.ia va), cores := (List.range 256).filter (coresIn sc e.g.core) }
    let s : State := { e.s.fresh with m := { e.s.fresh.m with icinv := e.s.fresh.m.icinv ++ [q] } }
    refine ⟨s.modThread e.g.core e.g.slot e.t.tid fun t => { t with icinvs := t.icinvs ++ [q.id] }, q, _,
      threadOp_done _ rfl hr ?_, rfl, rfl, rfl, fun k => by simp [q], hr.issues.thread?_modThread, ?_⟩
    · simp only [Env.ctx_at_, va, hm, Env.s_at_, Env.g_at_, Env.tid_at_]
      rfl
    · exact List.mem_append_right _ List.mem_cons_self

theorem exit_result (hr : e.runs (.exit h)) : ∃ s t, exec (.exit h) e.s = .next s ∧
    s.thread? e.path.core e.path.slot e.t.tid = some t ∧ t.run = .exited ∧ t.v = e.t.v ∧ t.pc = e.t.pc := by
  have ht : (e.s.modThread e.g.core e.g.slot e.t.tid fun t => t.retire e.s.now h.stall t.pc).thread? e.g.core e.g.slot e.t.tid =
      some (e.t.retire e.s.now h.stall e.t.pc) := by
    have hmod := hr.issues.thread?_modThread (f := fun t => t.retire e.s.now h.stall t.pc)
    rwa [← hr.issues.core, ← hr.issues.slot] at hmod
  refine ⟨_, (e.t.retire e.s.now h.stall e.t.pc).ended, threadOp_runs _ rfl hr, ?_, rfl, rfl, rfl⟩
  rw [← hr.issues.core, ← hr.issues.slot]
  exact thread?_exitThread ht

/-- Settles O15: each instruction by what it leaves in the thread and in memory; a thread that exits stays as it is. -/
theorem schedulingResults : Obligations.SchedulingResults := by
  intro e h
  refine ⟨yield_result, fun a hr => sleep_result hr, fun k hr => threadOp_trapAfter _ rfl hr rfl,
    fun a hr => threadOp_trapAfter _ rfl hr rfl, isync_result, fun sc a b hr => ?icinv, exit_result⟩
  case icinv =>
    obtain ⟨hnone, hsome⟩ := icinv_result hr
    refine ⟨hnone, fun r hm => ?_⟩
    obtain ⟨s, q, t, hret, hsent, hctx, hline, hcores, ht, hid⟩ := hsome r hm
    exact ⟨s, q, t, hret, hsent, hctx, hline, fun k => (hcores k).trans (and_congr_right' (coresIn_iff sc e.g.core k)), ht, hid⟩

end Sys2Proof.Machine
end

section
/-! SUPPORT. Convergence registers (R96, R97): an arrival, a completion, and what each leaves in the threads. -/

namespace Sys2Proof.Machine

variable {g : Workgroup} {t : Thread} {n tid : Nat}

theorem kindOp_eq (k : RKind) (x y : Word) : kindOp k x y = match k with
    | .add => x + y
    | .minI => BitVec.ofInt 32 (min x.toInt y.toInt)
    | .maxI => BitVec.ofInt 32 (max x.toInt y.toInt)
    | .minN => BitVec.ofNat 32 (min x.toNat y.toNat)
    | .maxN => BitVec.ofNat 32 (max x.toNat y.toNat)
    | .and => x &&& y
    | .or => x ||| y := by
  cases k with
  | minI => exact pickMin_signed x y
  | maxI => exact pickMax_signed x y
  | minN => exact pickMin_unsigned x y
  | maxN => exact pickMax_unsigned x y
  | _ => rfl

/-! A thread that waits on a register which completes. -/

/-- A thread whose join, or joinr into d, on c n ends: it goes on, and only d changes of its v registers. -/
theorem Thread.joined_of_waits {d : Option Nat} (h : t.run = .blocked (.join n d)) (x : Word) :
    (t.joined n x).run = .runnable ∧ (t.joined n x).pc = t.pc + 8 ∧ ((t.joined n x).conv.getD n {}).p = false ∧
      ∀ r, r < t.v.length → (t.joined n x).v.getD r {} = if d = some r then .arrived x false else t.v.getD r {} := by
  have hp : ((t.conv.set n { (t.conv.getD n {}) with p := false }).getD n {}).p = false := by
    by_cases hn : n < t.conv.length
    · simp [List.getD_eq_getElem?_getD, hn]
    · rw [List.set_eq_of_length_le (Nat.le_of_not_lt hn), List.getD_eq_default _ _ (Nat.le_of_not_lt hn)]
  unfold Thread.joined
  simp only [h, bne_self_eq_false, Bool.false_eq_true, if_false]
  cases d with
  | none => exact ⟨rfl, rfl, hp, fun r _ => rfl⟩
  | some k =>
    refine ⟨rfl, rfl, hp, fun r hr => ?_⟩
    by_cases hk : k = r
    · subst hk
      rw [if_pos rfl]
      exact getD_setV_self (t := (t.setConv n _).past) hr _
    · rw [if_neg (by simpa using hk)]
      exact getD_setV (t := (t.setConv n _).past) hk _

/-! A register with another content. -/

def Workgroup.putC (g : Workgroup) (n : Nat) (c : CReg) : Workgroup := { g with c := g.c.set n c }

@[simp] theorem Workgroup.putC_thread? (g : Workgroup) (n : Nat) (c : CReg) (k : Nat) : (g.putC n c).thread? k = g.thread? k := rfl

theorem Workgroup.getD_putC (hn : n < g.c.length) (c : CReg) : (g.putC n c).c.getD n {} = c := by
  simp [Workgroup.putC, List.getD_eq_getElem?_getD, hn]

/-- The register after its completion. -/
def CReg.completed (c : CReg) : CReg :=
  { c with res := c.acc, acc := kindIdent c.kind, arr := 0, gen := (c.gen + 1) % 32, done := c.done + 1 }

theorem Workgroup.getD_convDone (hn : n < g.c.length) : (g.convDone n).c.getD n {} = (g.c.getD n {}).completed :=
  Workgroup.getD_putC hn _

/-- A register that is short of its target, or has no arrival, does not complete. -/
theorem convTest_putC_short (hn : n < g.c.length) {c : CReg} (h : c.arr = 0 ∨ c.arr < c.target g) :
    (g.putC n c).convTest n = g.putC n c := by
  unfold Workgroup.convTest
  rw [Workgroup.getD_putC hn]
  refine if_neg fun hfull => ?_
  rw [Bool.and_eq_true, decide_eq_true_iff, decide_eq_true_iff] at hfull
  have htarget : c.target (g.putC n c) = c.target g := rfl
  omega

/-- One that has reached its target does. -/
theorem convTest_putC_full (hn : n < g.c.length) {c : CReg} (h0 : 0 < c.arr) (h : c.target g ≤ c.arr) :
    (g.putC n c).convTest n = (g.putC n c).convDone n := by
  unfold Workgroup.convTest
  rw [Workgroup.getD_putC hn]
  exact if_pos (by rw [Bool.and_eq_true, decide_eq_true_iff, decide_eq_true_iff]; exact ⟨h0, h⟩)

theorem getD_convDone_putC (hn : n < g.c.length) (c : CReg) : ((g.putC n c).convDone n).c.getD n {} = c.completed := by
  rw [Workgroup.getD_convDone (by simpa [Workgroup.putC] using hn), Workgroup.getD_putC hn]

theorem thread?_convDone_putC (hn : n < g.c.length) (c : CReg) (k : Nat) :
    ((g.putC n c).convDone n).thread? k = (g.thread? k).map (Thread.joined n c.acc) := by
  rw [Workgroup.thread?_convDone, Workgroup.getD_putC hn, Workgroup.putC_thread?]

/-! An arrival. -/

/-- The register with one more arrival, of value x. -/
def CReg.arrive (c : CReg) (x : Word) : CReg := { c with arr := c.arr + 1, acc := kindOp c.kind c.acc x }

/-- The thread has signed the register's generation. -/
def Workgroup.sign (g : Workgroup) (tid n : Nat) : Workgroup :=
  g.modThread tid fun t => t.setConv n { p := true, sg := (g.c.getD n {}).gen }

theorem live_modThread (g : Workgroup) (tid : Nat) {f : Thread → Thread} (hf : ∀ t, (f t).run = t.run) :
    (g.modThread tid f).live = g.live := by
  have hrun (t : Thread) : (if t.tid == tid then f t else t).run = t.run := by
    split
    · exact hf t
    · rfl
  simp only [Workgroup.live, Workgroup.modThread, List.filter_map, List.length_map, Function.comp_def, hrun]

theorem live_sign (g : Workgroup) (tid n : Nat) : (g.sign tid n).live = g.live := live_modThread g tid fun _ => rfl

theorem target_sign (g : Workgroup) (tid n : Nat) (c : CReg) : c.target (g.sign tid n) = c.target g := by
  rw [CReg.target, CReg.target, live_sign]

theorem sign_thread?_self (g : Workgroup) (tid n : Nat) :
    (g.sign tid n).thread? tid = (g.thread? tid).map fun t => t.setConv n { p := true, sg := (g.c.getD n {}).gen } :=
  Workgroup.thread?_modThread _ _ _ fun _ => rfl

theorem sign_thread?_other (g : Workgroup) {tid k : Nat} (h : k ≠ tid) (n : Nat) : (g.sign tid n).thread? k = g.thread? k :=
  Workgroup.thread?_modThread_other _ _ _ _ (fun _ => rfl) h

/-- The first arrival of a thread in a generation counts (R97). -/
theorem convArrive_eq (ht : g.thread? tid = some t) (hp : (t.conv.getD n {}).p = false) (x : Word) :
    g.convArrive tid n x = ((g.sign tid n).putC n ((g.c.getD n {}).arrive x)).convTest n := by
  unfold Workgroup.convArrive
  simp only [ht, hp]
  rfl

section
variable (ht : g.thread? tid = some t) (hp : (t.conv.getD n {}).p = false) (hn : n < g.c.length)
include ht hp hn

/-- An arrival that leaves the register short of its target. -/
theorem convArrive_short (h : (g.c.getD n {}).arr + 1 < (g.c.getD n {}).target g) (x : Word) :
    g.convArrive tid n x = (g.sign tid n).putC n ((g.c.getD n {}).arrive x) := by
  rw [convArrive_eq ht hp]
  exact convTest_putC_short (g := g.sign tid n) hn (.inr ((target_sign ..).symm ▸ h))

/-- An arrival that completes the register. -/
theorem convArrive_full (h : (g.c.getD n {}).target g ≤ (g.c.getD n {}).arr + 1) (x : Word) :
    g.convArrive tid n x = ((g.sign tid n).putC n ((g.c.getD n {}).arrive x)).convDone n := by
  rw [convArrive_eq ht hp]
  exact convTest_putC_full (g := g.sign tid n) hn (Nat.succ_pos _) ((target_sign ..).symm ▸ h)

/-- The thread that arrives has signed, whether the register completes or not. -/
theorem convArrive_thread? (hr : t.run = .runnable) (x : Word) :
    (g.convArrive tid n x).thread? tid = some (t.setConv n { p := true, sg := (g.c.getD n {}).gen }) := by
  have hsign : (g.sign tid n).thread? tid = some (t.setConv n { p := true, sg := (g.c.getD n {}).gen }) := by
    rw [sign_thread?_self, ht, Option.map_some]
  by_cases h : (g.c.getD n {}).target g ≤ (g.c.getD n {}).arr + 1
  · rw [convArrive_full ht hp hn h, thread?_convDone_putC (g := g.sign tid n) hn, hsign, Option.map_some, Thread.joined_of_not_waits]
    intro d
    simp [Thread.setConv, hr]
  · rw [convArrive_short ht hp hn (by omega), Workgroup.putC_thread?, hsign]

end

end Sys2Proof.Machine
end

section
/-! SUPPORT. sign, join, joinr and cdecl (R97): the states that hold an arrival. -/

namespace Sys2Proof.Machine

variable {e : Env} {n : Nat} {x : Word}

/-- The workgroup of e after the arrival of its thread on c n with x. -/
def Env.arrival (e : Env) (n : Nat) (x : Word) : Workgroup := e.g.convArrive e.t.tid n x

/-- s holds e's workgroup, as g, after the arrival, and in it the thread, as t, which may have gone on since. -/
structure Env.HoldsArrival (e : Env) (n : Nat) (x : Word) (s : State) (g : Workgroup) (t : Thread) : Prop where
  wg : s.wg? e.path.core e.path.slot = some g
  thread : g.thread? e.t.tid = some t
  c : g.c = (e.arrival n x).c
  others : ∀ k, k ≠ e.t.tid → g.thread? k = (e.arrival n x).thread? k

/-- The thread has not signed the register's generation, which is one of its workgroup and thread. -/
structure Env.Unsigned (e : Env) (n : Nat) : Prop where
  issues : e.Issues
  reg : n < e.g.c.length
  conv : n < e.t.conv.length
  p : (e.t.conv.getD n {}).p = false

/-- The thread once it has signed. -/
def Env.signed (e : Env) (n : Nat) : Thread := e.t.setConv n { p := true, sg := (e.g.c.getD n {}).gen }

/-- The workgroup of the thread replaced. -/
theorem Env.Issues.wg?_setWg (h : e.Issues) {g : Workgroup} (hg : g.core = e.g.core ∧ g.slot = e.g.slot) :
    (e.s.setWg g).wg? e.path.core e.path.slot = some g :=
  Machine.wg?_setWg e.s e.g g _ _ h.wg hg.1 hg.2

theorem Env.HoldsArrival.modThread {s : State} {g : Workgroup} {t : Thread} (hi : e.Issues) (h : e.HoldsArrival n x s g t)
    {f : Thread → Thread} (hf : ∀ t, (f t).tid = t.tid) :
    e.HoldsArrival n x (s.modThread e.g.core e.g.slot e.t.tid f) (g.modThread e.t.tid f) (f t) where
  wg := by
    rw [hi.core, hi.slot, State.modThread_modWg, State.wg?_modWg _ _ _ (fun g => g.modThread e.t.tid f) fun _ => ⟨rfl, rfl⟩, h.wg,
      Option.map_some]
  thread := by rw [Workgroup.thread?_modThread _ _ _ hf, h.thread, Option.map_some]
  c := h.c
  others k hk := (Workgroup.thread?_modThread_other _ _ _ _ hf hk).trans (h.others k hk)

namespace Env.Unsigned

variable (h : e.Unsigned n)
include h

theorem arrival_thread? : (e.arrival n x).thread? e.t.tid = some (e.signed n) :=
  convArrive_thread? h.issues.thread h.p h.reg h.issues.run x

theorem signed_conv : (e.signed n).conv.getD n {} = { p := true, sg := (e.g.c.getD n {}).gen } := by
  have hn := h.conv
  simp [Env.signed, Thread.setConv, List.getD_eq_getElem?_getD, hn]

theorem holds_setWg : e.HoldsArrival n x (e.s.setWg (e.arrival n x)) (e.arrival n x) (e.signed n) where
  wg := by
    refine h.issues.wg?_setWg ?_
    rw [Env.arrival, convArrive_eq h.issues.thread h.p]
    exact convTest_place ..
  thread := h.arrival_thread?
  c := rfl
  others _ _ := rfl

/-- An arrival short of the target counts, and every other thread stays as it is. -/
theorem arrival_short (hs : (e.g.c.getD n {}).arr + 1 < (e.g.c.getD n {}).target e.g) :
    (e.arrival n x).c.getD n {} = (e.g.c.getD n {}).arrive x ∧
      ∀ k, k ≠ e.t.tid → (e.arrival n x).thread? k = e.g.thread? k := by
  rw [Env.arrival, convArrive_short h.issues.thread h.p h.reg hs]
  exact ⟨Workgroup.getD_putC (g := e.g.sign e.t.tid n) h.reg _, fun k hk => sign_thread?_other e.g hk n⟩

/-- One that reaches it completes the register and ends the joins of the other threads on it. -/
theorem arrival_full (hf : (e.g.c.getD n {}).target e.g ≤ (e.g.c.getD n {}).arr + 1) :
    (e.arrival n x).c.getD n {} = ((e.g.c.getD n {}).arrive x).completed ∧
      ∀ k, k ≠ e.t.tid → (e.arrival n x).thread? k = (e.g.thread? k).map (Thread.joined n ((e.g.c.getD n {}).arrive x).acc) := by
  rw [Env.arrival, convArrive_full h.issues.thread h.p h.reg hf]
  refine ⟨getD_convDone_putC (g := e.g.sign e.t.tid n) h.reg _, fun k hk => ?_⟩
  rw [thread?_convDone_putC (g := e.g.sign e.t.tid n) h.reg, sign_thread?_other e.g hk n]

/-- The generation that the thread has signed is over exactly where its arrival has completed it. -/
theorem convPassed_arrival :
    (e.arrival n x).convPassed e.t.tid n = decide ((e.g.c.getD n {}).target e.g ≤ (e.g.c.getD n {}).arr + 1) := by
  unfold Workgroup.convPassed
  simp only [h.arrival_thread?, h.signed_conv]
  by_cases hf : (e.g.c.getD n {}).target e.g ≤ (e.g.c.getD n {}).arr + 1
  · rw [(h.arrival_full hf).1, decide_eq_true hf]
    have hnext : ((e.g.c.getD n {}).gen + 1) % 32 ≠ (e.g.c.getD n {}).gen := by omega
    exact bne_iff_ne.2 hnext
  · rw [(h.arrival_short (by omega)).1, decide_eq_false hf]
    exact bne_self_eq_false _

end Env.Unsigned

/-! join and joinr. -/

theorem Env.joinOn_at_ (e : Env) (i : Instr) (n : Nat) (x : Word) (d : Option Nat) : (e.at_ i).joinOn n x d = e.joinOn n x d := by
  simp [Env.joinOn, Env.giveV]

/-- The thread has gone on after its join. -/
def State.pastJoin (e : Env) (n : Nat) (s : State) : State :=
  s.modThread e.g.core e.g.slot e.t.tid fun t => t.setConv n { (t.conv.getD n {}) with p := false }

theorem joinOn_short (hs : (e.arrival n x).convPassed e.t.tid n = false) (d : Option Nat) :
    e.joinOn n x d = .block (e.s.setWg (e.arrival n x)) (.join n d) :=
  if_neg (ne_true_of_eq_false hs)

theorem joinOn_full (hf : (e.arrival n x).convPassed e.t.tid n = true) (d : Option Nat) :
    e.joinOn n x d = .done (e.giveV ((e.s.setWg (e.arrival n x)).pastJoin e n) d ((e.arrival n x).c.getD n {}).res) :=
  if_pos hf

/-- A join that completes the register: its thread goes on, and a joinr receives the combined value. -/
theorem Env.Unsigned.holds_joined (h : e.Unsigned n) (d : Option Nat) (y : Word) : ∃ g t,
    e.HoldsArrival n x (e.giveV ((e.s.setWg (e.arrival n x)).pastJoin e n) d y) g t ∧
      ∀ r, d = some r → r < e.t.v.length → t.v.getD r {} = .arrived y false := by
  have hjoin := h.holds_setWg.modThread (x := x) h.issues (f := fun t => t.setConv n { (t.conv.getD n {}) with p := false }) fun _ => rfl
  cases d with
  | none => exact ⟨_, _, hjoin, nofun⟩
  | some r =>
    refine ⟨_, _, hjoin.modThread h.issues (f := fun t => t.setV r (.arrived y false)) fun _ => rfl, fun r' hr hlen => ?_⟩
    obtain rfl := Option.some.inj hr
    exact getD_setV_self hlen _

section
variable {i : Instr} {body : Env → Res} {d : Option Nat} (h : e.Unsigned n) (hr : e.runs i)
  (hx : exec i e.s = threadOp i body e.s) (hb : body (e.at_ i) = (e.at_ i).joinOn n x d)
include h hr hx hb

theorem join_blocks (hs : (e.g.c.getD n {}).arr + 1 < (e.g.c.getD n {}).target e.g) :
    e.blocks i (e.s.setWg (e.arrival n x)) (.join n d) := by
  refine threadOp_block body hx hr ?_
  rw [hb, Env.joinOn_at_, joinOn_short]
  rw [h.convPassed_arrival, decide_eq_false (not_le.2 hs)]

theorem join_retires (hf : (e.g.c.getD n {}).target e.g ≤ (e.g.c.getD n {}).arr + 1) : ∃ s g t,
    e.retires i s ∧ e.HoldsArrival n x s g t ∧
      ∀ r, d = some r → r < e.t.v.length → t.v.getD r {} = .arrived ((e.g.c.getD n {}).arrive x).acc false := by
  obtain ⟨g, t, hs, hd⟩ := h.holds_joined (x := x) d ((e.g.c.getD n {}).arrive x).acc
  refine ⟨_, g, t, threadOp_done body hx hr ?_, hs, hd⟩
  rw [hb, Env.joinOn_at_, joinOn_full, (h.arrival_full hf).1]
  · rfl
  · rw [h.convPassed_arrival, decide_eq_true hf]

end

/-! cdecl. -/

/-- The register that a cdecl declares (R97): its count, and its kind where nobody has arrived. -/
def CReg.declare (c : CReg) (cnt : Nat) (k : RKind) : CReg :=
  if c.arr == 0 then { c with cnt := cnt, kind := k, acc := kindIdent k } else { c with cnt := cnt }

theorem CReg.declare_empty {c : CReg} (h : c.arr = 0) (cnt : Nat) (k : RKind) :
    c.declare cnt k = { c with cnt := cnt, kind := k, acc := kindIdent k } :=
  if_pos (by simp [h])

theorem CReg.declare_arrived {c : CReg} (h : 0 < c.arr) (cnt : Nat) (k : RKind) : c.declare cnt k = { c with cnt := cnt } :=
  if_neg (by simpa using h.ne')

theorem cdecl_retires {h : Hdr} {k : RKind} {a : Src} (hr : e.runs (.cdecl h n k a)) :
    e.retires (.cdecl h n k a) (e.s.setWg
      ((e.g.putC n ((e.g.c.getD n {}).declare (min ((e.at_ (.cdecl h n k a)).src a).toNat 2048) k)).convTest n)) :=
  threadOp_done _ rfl hr rfl

theorem Env.Issues.wg?_declared (h : e.Issues) (n : Nat) (c : CReg) :
    (e.s.setWg ((e.g.putC n c).convTest n)).wg? e.path.core e.path.slot = some ((e.g.putC n c).convTest n) :=
  h.wg?_setWg (convTest_place ..)

/-- Settles O13: an arrival that leaves the register short of its target only counts; one that reaches it completes the
register, which ends every join on it. -/
theorem convergenceResults : Obligations.ConvergenceResults := by
  intro e h n hn hc hconv hp c full value others woken arrived
  have hreg : n < e.g.c.length := hc.symm ▸ hn
  have hvalue (k : RKind) (x y : Word) : value k x y = kindOp k x y := (kindOp_eq k x y).symm
  have hunsigned {i : Instr} (hr : e.runs i) : e.Unsigned n := ⟨hr.issues, hreg, hconv.symm ▸ hn, hp⟩
  have hwoken {g : Workgroup} {x : Word}
      (hg : ∀ k, k ≠ e.t.tid → g.thread? k = (e.g.thread? k).map (Thread.joined n x)) : woken g x := by
    intro k t hk ht
    exact ⟨t.joined n x, by rw [hg k hk, ht, Option.map_some], fun d hw => Thread.joined_of_waits hw x,
      fun hw => Thread.joined_of_not_waits hw x⟩
  have harrived {s : State} {x : Word} {g : Workgroup} {t : Thread} (hu : e.Unsigned n) (hs : e.HoldsArrival n x s g t)
      (ht : full = false → t.conv.getD n {} = { p := true, sg := c.gen }) : arrived s x := by
    refine ⟨g, t, hs.wg, hs.thread, fun hf => ?short, fun hf => ?full⟩
    case short =>
      obtain ⟨hcount, hothers⟩ := hu.arrival_short (x := x) (not_le.1 (of_decide_eq_false hf))
      rw [hvalue, hs.c]
      exact ⟨hcount, ht hf, fun k hk => (hs.others k hk).trans (hothers k hk)⟩
    case full =>
      obtain ⟨hdone, hothers⟩ := hu.arrival_full (x := x) (of_decide_eq_true hf)
      rw [hvalue, hs.c, hdone]
      exact ⟨rfl, rfl, rfl, rfl, hwoken fun k hk => (hs.others k hk).trans (hothers k hk)⟩
  have hcounted (hu : e.Unsigned n) (x : Word) : arrived (e.s.setWg (e.arrival n x)) x :=
    harrived hu hu.holds_setWg fun _ => hu.signed_conv
  have hjoin {i : Instr} {body : Env → Res} {x : Word} {d : Option Nat} (hr : e.runs i)
      (hx : exec i e.s = threadOp i body e.s) (hb : body (e.at_ i) = (e.at_ i).joinOn n x d) : ∃ s, arrived s x ∧
      (full = true → e.retires i s ∧ ∃ t, s.thread? e.path.core e.path.slot e.t.tid = some t ∧
        ∀ r, d = some r → r < e.t.v.length → (t.v.getD r {}).val = value c.kind c.acc x) ∧
      (full = false → e.blocks i s (.join n d)) := by
    have hu := hunsigned hr
    cases hfull : full with
    | false =>
      have hs := not_le.1 (of_decide_eq_false hfull)
      exact ⟨_, hcounted hu x, nofun, fun _ => join_blocks hu hr hx hb hs⟩
    | true =>
      obtain ⟨s, g, t, hret, hs, hd⟩ := join_retires hu hr hx hb (of_decide_eq_true hfull)
      refine ⟨s, harrived hu hs (by simp [hfull]), fun _ => ⟨hret, t, ?_, fun r hr hlen => ?_⟩, nofun⟩
      · rw [State.thread?, hs.wg]
        exact hs.thread
      · rw [hd r hr hlen, hvalue]
        rfl
  refine ⟨fun hr => ⟨_, threadOp_done _ rfl hr rfl, hcounted (hunsigned hr) _⟩, fun hr _ => ?join, fun d a hr _ hd => ?joinr,
    fun k a hr => ?cdecl⟩
  case join =>
    obtain ⟨s, hs, hfull, hshort⟩ := hjoin hr rfl rfl
    exact ⟨s, hs, fun hf => (hfull hf).1, hshort⟩
  case joinr =>
    obtain ⟨s, hs, hfull, hshort⟩ := hjoin hr rfl rfl
    refine ⟨s, hs, fun hf => ?_, hshort⟩
    obtain ⟨hret, t, ht, hval⟩ := hfull hf
    exact ⟨hret, t, ht, hval d rfl hd⟩
  case cdecl =>
    intro cnt
    refine ⟨_, _, cdecl_retires hr, hr.issues.wg?_declared n _, fun h0 => ?empty, fun h0 hs => ?short, fun h0 hf => ?full⟩
    case empty =>
      rw [CReg.declare_empty h0, convTest_putC_short (c := { c with cnt := cnt, kind := k, acc := kindIdent k }) hreg (.inl h0)]
      exact ⟨Workgroup.getD_putC hreg _, fun _ _ => rfl⟩
    case short =>
      rw [CReg.declare_arrived h0, convTest_putC_short (c := { c with cnt := cnt }) hreg (.inr hs)]
      exact ⟨Workgroup.getD_putC hreg _, fun _ _ => rfl⟩
    case full =>
      rw [CReg.declare_arrived h0, convTest_putC_full (c := { c with cnt := cnt }) hreg h0 hf]
      exact ⟨getD_convDone_putC hreg _, hwoken fun k _ => thread?_convDone_putC hreg _ k⟩

end Sys2Proof.Machine
end

section
/-! SUPPORT. Addresses (R102, R103, R111): what a range register that matches says of an address, sectors and lines, and where an
access to base memory leads. -/

namespace Sys2Proof.Machine

/-! Sectors and lines. -/

@[simp] theorem secOf_secOf (ia : Nat) : secOf (secOf ia) = secOf ia := by unfold secOf; omega

/-- n bytes at a multiple of n, a divisor of 32, lie in one sector. -/
theorem secOf_add {ia n k : Nat} (hn : n ∣ 32) (hia : ia % n = 0) (hk : k < n) : secOf (ia + k) = secOf ia := by
  obtain ⟨c, hc⟩ := hn
  obtain ⟨q, rfl⟩ := Nat.dvd_of_mod_eq_zero hia
  have hpos : 0 < n := by omega
  unfold secOf
  rw [hc, ← Nat.div_div_eq_div_mul, ← Nat.div_div_eq_div_mul, Nat.mul_add_div hpos, Nat.div_eq_of_lt hk, Nat.mul_div_cancel_left q hpos,
    Nat.add_zero]

theorem secOf_add_mod (ia : Nat) : secOf ia + ia % 32 = ia := by unfold secOf; omega

theorem bytes_pos (z : Size) : 0 < z.bytes := Nat.pow_pos (by omega)

theorem bytes_dvd_32 (z : Size) : z.bytes ∣ 32 := by cases z <;> decide

theorem secsOf_concat_mem (l : List BSrc) (ia : Nat) :
    secsOf (l ++ [.mem ia]) = if (secsOf l).contains (secOf ia) then secsOf l else secsOf l ++ [secOf ia] := by
  unfold secsOf
  rw [List.foldl_append]
  rfl

/-- The bytes of one sector name that sector alone. -/
theorem secsOf_one {sec : Nat} {l : List BSrc} (hne : l ≠ []) (h : ∀ b ∈ l, ∃ ia, b = .mem ia ∧ secOf ia = sec) : secsOf l = [sec] := by
  induction l using List.reverseRecOn with
  | nil => exact absurd rfl hne
  | append_singleton l b ih =>
    obtain ⟨ia, rfl, hia⟩ := h b (by simp)
    rw [secsOf_concat_mem, hia]
    by_cases hl : l = []
    · subst hl
      rfl
    · rw [ih hl fun b hb => h b (List.mem_append_left _ hb)]
      simp

/-! Range registers. -/

/-- Bounds and offset of a range are multiples of 64 KiB (R102). -/
theorem rangeOf_aligned {x : BitVec 256} {r : Range} (h : rangeOf x = some r) : r.base % 2 ^ 16 = 0 ∧ r.off % 2 ^ 16 = 0 := by
  unfold rangeOf at h
  dsimp only at h
  split at h
  · next hv =>
    simp only [Bool.and_eq_true, beq_iff_eq] at hv
    cases h
    exact ⟨hv.1.1.1.2, hv.1.2⟩
  · exact absurd h (by simp)

theorem match?_spec {c : Context} {va : DWord} {r : Range} (h : c.match? va = some r) :
    (∃ x ∈ c.rg, rangeOf x = some r) ∧ r.base ≤ va.toNat % 2 ^ 57 ∧ va.toNat % 2 ^ 57 < r.limit := by
  unfold Context.match? at h
  dsimp only at h
  split at h
  · exact absurd h (by simp)
  · have hin := List.find?_some h
    simp only [Bool.and_eq_true, decide_eq_true_eq] at hin
    exact ⟨by simpa using List.mem_of_find?_eq_some h, hin⟩

/-- An address and the IA that a range gives it are aligned alike, up to 64 KiB. -/
theorem ia_mod {c : Context} {va : DWord} {r : Range} (h : c.match? va = some r) {n : Nat} (hn : n ∣ 2 ^ 16) :
    r.ia va % n = va.toNat % n := by
  obtain ⟨⟨x, -, hx⟩, hle, -⟩ := match?_spec h
  obtain ⟨hbase, hoff⟩ := rangeOf_aligned hx
  have hb : r.base % n = 0 := Nat.mod_eq_zero_of_dvd (hn.trans (Nat.dvd_of_mod_eq_zero hbase))
  have ho : r.off % n = 0 := Nat.mod_eq_zero_of_dvd (hn.trans (Nat.dvd_of_mod_eq_zero hoff))
  have h57 : va.toNat % 2 ^ 57 % n = va.toNat % n := Nat.mod_mod_of_dvd _ (hn.trans (by decide))
  unfold Range.ia
  rw [Nat.mod_mod_of_dvd _ (hn.trans (by decide)), Nat.add_mod, ho, Nat.add_zero, Nat.mod_mod, ← h57]
  obtain ⟨d, hd⟩ := Nat.exists_eq_add_of_le hle
  rw [hd, Nat.add_sub_cancel_left, Nat.add_mod, hb, Nat.zero_add, Nat.mod_mod]

/-! Where an address leads. -/

section
variable {c : Context} {va : DWord} {n : Nat} {acc : Acc} {r : Range}

theorem locate_none (h : c.match? va = none) : c.locate va n acc = .access := by
  simp [Context.locate, h]

theorem locate_denied (h : c.match? va = some r) (ha : r.allows acc = false) : c.locate va n acc = .access := by
  simp [Context.locate, h, ha]

theorem locate_misaligned (h : c.match? va = some r) (ha : r.allows acc = true) (hm : va.toNat % n ≠ 0) :
    c.locate va n acc = .misaligned := by
  simp [Context.locate, h, ha, hm]

end

variable {e : Env} {va : DWord} {n : Nat} {acc : Acc} {r : Range}

theorem Env.plain.locate (h : e.plain va n acc r) : e.locate va n acc = .plain (r.ia va) (r.home (r.ia va)) r := by
  obtain ⟨hm, ha, hn, hap, hw⟩ := h
  simp [Env.locate, Context.locate, hm, ha, hn, hap, hw]

theorem Env.plain.plainAt (h : e.plain va n acc r) : e.plainAt va n acc = .ok (r.ia va, r.home (r.ia va), r) := by
  rw [Env.plainAt, h.locate]

/-- The IA of an access to base memory is a multiple of its size. -/
theorem Env.plain.ia_mod (h : e.plain va n acc r) (hn : n ∣ 2 ^ 16) : r.ia va % n = 0 := by
  obtain ⟨hm, -, halign, -⟩ := h
  rw [Machine.ia_mod hm hn, halign]

theorem Env.plain.at_ (h : e.plain va n acc r) (i : Instr) : (e.at_ i).plain va n acc r := h

@[simp] theorem Env.locate_at_ (e : Env) (i : Instr) (va : DWord) (n : Nat) (acc : Acc) :
    (e.at_ i).locate va n acc = e.locate va n acc := rfl

@[simp] theorem Env.plainAt_at_ (e : Env) (i : Instr) (va : DWord) (n : Nat) (acc : Acc) :
    (e.at_ i).plainAt va n acc = e.plainAt va n acc := rfl

@[simp] theorem Env.who_at_ (e : Env) (i : Instr) : (e.at_ i).who = e.who := by
  have ht := latchClock_eq e i e.t
  have hpc : (e.at_ i).t.pc = e.t.pc := (congrArg Thread.pc ht :)
  have hissued : (e.at_ i).t.issued = e.t.issued := (congrArg Thread.issued ht :)
  simp [Env.who, hpc, hissued]

end Sys2Proof.Machine
end

section
/-! SUPPORT. Bytes of memory and poison as one (R115, R119): the operations that leave them. -/

namespace Sys2Proof.Machine

/-- The bytes of memory and the poison. -/
def Mem.stores (m : Mem) : List Host.Cell × List Host.Cell × List Nat × List Nat × List Nat :=
  (m.cells, m.host, m.poison, m.scrub, m.hostPoison)

theorem sameBytes_iff {s s' : State} : s.sameBytes s' ↔ s'.m.stores = s.m.stores := by
  simp [State.sameBytes, Mem.stores]

theorem sameBytes_of_m {s s' : State} (h : s'.m = s.m) : s.sameBytes s' := sameBytes_iff.2 (congrArg Mem.stores h)

theorem sameBytes_refl (s : State) : s.sameBytes s := sameBytes_of_m rfl

theorem State.sameBytes.trans {s s' s'' : State} (h : s.sameBytes s') (h' : s'.sameBytes s'') : s.sameBytes s'' :=
  sameBytes_iff.2 ((sameBytes_iff.1 h').trans (sameBytes_iff.1 h))

end Sys2Proof.Machine
end

section
/-! SUPPORT. The machine after power-on (R102, R127, R256, R259, R265, R275, R282, R298). -/

namespace Sys2Proof.Machine

/-- A context that no supervisor has created has the registers' reset values (R102, R127, R259, R265). -/
theorem fresh_registers : Context.fresh.state = .free ∧ Context.fresh.ctl = 0x81 ∧ Context.fresh.vwbase.getLsbD 63 = true ∧
    Context.fresh.vwbase.setWidth 63 = 0 ∧ Context.fresh.stoparea.getLsbD 0 = false ∧ Context.fresh.counters = [] ∧
    Context.fresh.nextLid = 1 := by decide

/-- Settles O59: every unit of the machine is a copy of one reset value. -/
theorem resetState : Obligations.ResetState := by
  unfold Obligations.ResetState
  intro s
  refine ⟨List.length_replicate, fun c hc => ?ctx, List.length_replicate, fun q hq => ?queue, List.length_replicate, fun d hd => ?die,
    rfl, (by decide : (0 : DWord).getLsbD 0 = false), (by decide : (0 : DWord).getLsbD 63 = false), rfl, rfl, rfl, rfl, rfl, rfl, rfl, rfl, rfl, rfl, rfl⟩
  case ctx =>
    rw [List.eq_of_mem_replicate hc]
    obtain ⟨hstate, hctl, hwin, hbase, hstop, hcounters, hlid⟩ := fresh_registers
    exact ⟨hstate, hctl, hwin, hbase, hstop, List.length_replicate, fun r hr => List.eq_of_mem_replicate hr, List.length_replicate,
      fun v hv => List.eq_of_mem_replicate hv, hcounters, hlid⟩
  case queue =>
    rw [List.eq_of_mem_replicate hq]
    exact ⟨rfl, rfl, rfl, rfl, rfl, rfl⟩
  case die =>
    rw [List.eq_of_mem_replicate hd]
    exact ⟨rfl, rfl, rfl, rfl⟩

end Sys2Proof.Machine
end

section
/-! SUPPORT. The checks of an access in their order (R102, R103, R121), and a load of base memory (R44, R122, R160). -/

namespace Sys2Proof.Machine

variable {e : Env} {h : Hdr} {sc : Scope} {hn : Hint} {sx : Bool} {z : Size} {d : Nat} {a : Reg} {b c : Src} {r : Range}

/-! Loads and stores by where their address leads. -/

theorem Env.load_access {acq : Bool} (hl : e.locate (e.ea a b) z.bytes .read = .access) :
    e.load acq sc hn sx z d a b = .trap 4 0 (e.ea a b) false := by
  simp only [Env.load, hl]

theorem Env.load_misaligned {acq : Bool} (hl : e.locate (e.ea a b) z.bytes .read = .misaligned) :
    e.load acq sc hn sx z d a b = .trap 3 0 (e.ea a b) false := by
  simp only [Env.load, hl]

theorem Env.store_access {k : WKind} (hl : e.locate (e.ea a b) z.bytes .write = .access) :
    e.store h k sc hn z a b c = .trap 4 0 (e.ea a b) false := by
  simp only [Env.store, hl]

theorem Env.store_misaligned {k : WKind} (hl : e.locate (e.ea a b) z.bytes .write = .misaligned) :
    e.store h k sc hn z a b c = .trap 3 0 (e.ea a b) false := by
  simp only [Env.store, hl]

/-- An instruction that traps where its address leads to an access fault or is misaligned takes the traps of an access in
their order. -/
theorem access_traps {i : Instr} {acc : Acc} {n : Nat} {body : Env → Res} (hr : e.runs i) (hx : exec i e.s = threadOp i body e.s)
    (hacc : (e.at_ i).locate ((e.at_ i).ea a b) n acc = .access → body (e.at_ i) = .trap 4 0 ((e.at_ i).ea a b) false)
    (hmis : (e.at_ i).locate ((e.at_ i).ea a b) n acc = .misaligned → body (e.at_ i) = .trap 3 0 ((e.at_ i).ea a b) false) :
    let va := (e.at_ i).ea a b
    (e.ctx.match? va = none → e.traps i 4 0 va e.t.pc) ∧
    ∀ r, e.ctx.match? va = some r →
      (r.allows acc = false → e.traps i 4 0 va e.t.pc) ∧
      (r.allows acc = true → va.toNat % n ≠ 0 → e.traps i 3 0 va e.t.pc) := by
  intro va
  exact ⟨fun hm => threadOp_trap body hx hr (hacc (locate_none hm)), fun r hm =>
    ⟨fun ha => threadOp_trap body hx hr (hacc (locate_denied hm ha)),
     fun ha hmod => threadOp_trap body hx hr (hmis (locate_misaligned hm ha hmod))⟩⟩

theorem threadOp_wait {i : Instr} (body : Env → Res) (hx : exec i e.s = threadOp i body e.s) (hr : e.runs i)
    (hb : body (e.at_ i) = .wait) : e.leaves i e.s (Thread.waitIssue e.s.now) := by
  unfold Env.leaves
  rw [threadOp_runs body hx hr, hb]
  rfl

/-! A load that is sent. -/

/-- A load of base memory names one sector. -/
theorem Env.plain.secsOf {va : DWord} {acc : Acc} (h : e.plain va z.bytes acc r) :
    secsOf ((List.range z.bytes).map fun k => BSrc.mem (r.ia va + k)) = [secOf (r.ia va)] := by
  have hz := bytes_pos z
  refine secsOf_one (by simpa using hz.ne') fun x hx => ?_
  obtain ⟨k, hk, rfl⟩ := List.mem_map.1 hx
  exact ⟨_, rfl, secOf_add (bytes_dvd_32 z) (h.ia_mod ((bytes_dvd_32 z).trans (by decide))) (List.mem_range.1 hk)⟩

@[simp] theorem State.perfAdd_wgs (s : State) (core ctx k n : Nat) : (s.perfAdd core ctx k n).wgs = s.wgs := rfl
@[simp] theorem State.touch_wgs (s : State) (core ctx sec : Nat) (hint : Hint) : (s.touch core ctx sec hint).wgs = s.wgs := rfl
@[simp] theorem State.touch_reads (s : State) (core ctx sec : Nat) (hint : Hint) : (s.touch core ctx sec hint).m.reads = s.m.reads := rfl
@[simp] theorem State.touch_stores (s : State) (core ctx sec : Nat) (hint : Hint) : (s.touch core ctx sec hint).m.stores = s.m.stores := rfl

/-- What a run of steps each leaves. -/
theorem foldl_keeps {α β : Type} (p : State → β) (f : State → α → State) (hf : ∀ s a, p (f s a) = p s) (l : List α) (s : State) :
    p (l.foldl f s) = p s := by
  induction l generalizing s with
  | nil => rfl
  | cons a l ih => rw [List.foldl_cons, ih, hf]

theorem State.thread?_congr {s s' : State} (h : s'.wgs = s.wgs) (core slot tid : Nat) :
    s'.thread? core slot tid = s.thread? core slot tid := by
  rw [State.thread?, State.thread?, State.wg?, State.wg?, h]

/-- The registers of the thread that await a request. -/
def Thread.awaits (id d k : Nat) (t : Thread) : Thread :=
  (List.range k).foldl (fun t n => t.setV (d + n) { t.v.getD (d + n) {} with tag := id, ready := 0 }) t

theorem State.awaitV_eq (s : State) (core slot tid id d k : Nat) :
    s.awaitV core slot tid id d k = s.modThread core slot tid (Thread.awaits id d k) := rfl

theorem Thread.awaits_succ (id d k : Nat) (t : Thread) : t.awaits id d (k + 1) =
    (t.awaits id d k).setV (d + k) { (t.awaits id d k).v.getD (d + k) {} with tag := id, ready := 0 } := by
  unfold Thread.awaits
  rw [List.range_succ, List.foldl_append]
  rfl

/-- Only v registers change. -/
theorem Thread.awaits_eq (id d k : Nat) (t : Thread) : t.awaits id d k = { t with v := (t.awaits id d k).v } := by
  induction k with
  | zero => rfl
  | succ k ih => rw [Thread.awaits_succ, Thread.setV, ih]

theorem Thread.awaits_tid (id d k : Nat) (t : Thread) : (t.awaits id d k).tid = t.tid := (congrArg Thread.tid (t.awaits_eq id d k) :)

theorem Thread.awaits_length (id d k : Nat) (t : Thread) : (t.awaits id d k).v.length = t.v.length := by
  induction k with
  | zero => rfl
  | succ k ih => rw [Thread.awaits_succ, Thread.setV_v, List.length_set, ih]

theorem Thread.awaits_other {id d k j : Nat} (t : Thread) (h : j < d ∨ d + k ≤ j) : (t.awaits id d k).v.getD j {} = t.v.getD j {} := by
  induction k with
  | zero => rfl
  | succ k ih => rw [Thread.awaits_succ, getD_setV (by omega), ih (by omega)]

theorem Thread.awaits_tag {id d k j : Nat} (t : Thread) (hlo : d ≤ j) (hhi : j < d + k) (hj : j < t.v.length) :
    ((t.awaits id d k).v.getD j {}).tag = id := by
  induction k with
  | zero => omega
  | succ k ih =>
    rw [Thread.awaits_succ]
    by_cases hk : d + k = j
    · subst hk
      rw [getD_setV_self (by rwa [Thread.awaits_length])]
    · rw [getD_setV hk, ih (by omega)]

/-- The registers of the thread of e await a request in a state that holds it so. -/
theorem awaiting_of_thread {s : State} {t : Thread} {id d k : Nat} (ht : e.thr s = some t) (hv : t.v = (e.t.awaits id d k).v) :
    e.awaiting s id d k :=
  ⟨t, ht, fun _ hlo hhi hj => hv ▸ Thread.awaits_tag e.t hlo hhi hj, fun _ hj => hv ▸ Thread.awaits_other e.t hj⟩

/-- The request that a load sends. -/
def Env.loadReq (e : Env) (va : DWord) (kind : RKindReq) (hint : Hint) (sc : Scope) (bytes : List BSrc) (homeOf : Nat → Nat)
    (view composed : Bool) (far : Option Nat) (gather : Bool) : RReq :=
  { id := e.s.nextId, who := e.who, ctx := e.g.ctx, va := va, kind := kind, hint := hint, sc := sc, cycle := e.s.now, bytes := bytes
    secs := (secsOf bytes).map fun x => e.hit e.s.nextId (homeOf x) x
    far := far, gather := gather, held := false, view := view, composed := composed }

/-- The state in which the request of a load is on its way, before its destination awaits it. -/
def Env.loadSent (e : Env) (q : RReq) : State :=
  let s := e.s.fresh.setReads (· ++ [q])
  let s := if q.secs.isEmpty then s else s.perfAdd e.g.core e.g.ctx (if q.secs.all (·.got.isSome) then 4 else 5) 1
  (q.secs.filter (·.got.isSome)).foldl (fun s x => s.touch e.g.core e.g.ctx x.ia q.hint) s

theorem Env.loadSent_wgs (e : Env) (q : RReq) : (e.loadSent q).wgs = e.s.wgs := by
  unfold Env.loadSent
  dsimp only
  rw [foldl_keeps State.wgs _ fun s x => State.touch_wgs ..]
  split <;> rfl

theorem Env.loadSent_stores (e : Env) (q : RReq) : (e.loadSent q).m.stores = e.s.m.stores := by
  unfold Env.loadSent
  dsimp only
  rw [foldl_keeps (fun s => s.m.stores) _ fun s x => State.touch_stores ..]
  split <;> rfl

theorem Env.loadSent_reads (e : Env) (q : RReq) : (e.loadSent q).m.reads = e.s.m.reads ++ [q] := by
  unfold Env.loadSent
  dsimp only
  rw [foldl_keeps (fun s => s.m.reads) _ fun s x => State.touch_reads ..]
  split <;> rfl

/-- What a thread holds back after an acquire (R160): everything, until it returns. -/
def Thread.acquires (old : Hold → Bool) (id : Nat) (t : Thread) : Thread :=
  { t with holds := t.holds.filter old ++ [{ loads := true, others := true, ids := [id], till := 0 }] }

theorem Thread.acquires_tid (old : Hold → Bool) (id : Nat) (t : Thread) : (t.acquires old id).tid = t.tid := rfl

theorem Env.sendLoad_load (e : Env) (va : DWord) (z : Size) (sx : Bool) (d : Nat) (acq : Bool) (hint : Hint) (sc : Scope)
    (bytes : List BSrc) (homeOf : Nat → Nat) (view composed : Bool) (far : Option Nat) (gather : Bool) :
    let q := e.loadReq va (.load z sx d acq) hint sc bytes homeOf view composed far gather
    let s := (e.loadSent q).awaitV e.g.core e.g.slot e.t.tid q.id d z.group
    e.sendLoad va (.load z sx d acq) hint sc bytes homeOf view composed far gather =
      if acq then s.modThread e.g.core e.g.slot e.t.tid (Thread.acquires (fun h => s.anyOutstanding h.ids || decide (s.now < h.till)) q.id)
      else s := rfl

theorem Env.hit_place (e : Env) (id home sec : Nat) : (e.hit id home sec).ia = sec ∧ (e.hit id home sec).home = home := by
  unfold Env.hit
  dsimp only
  (repeat' split) <;> exact ⟨rfl, rfl⟩


/-- The state in which a load of base memory at va has been sent. -/
def Env.baseLoad (e : Env) (acq : Bool) (sc : Scope) (hn : Hint) (sx : Bool) (z : Size) (d : Nat) (va : DWord) (r : Range) : State :=
  e.sendLoad va (.load z sx d acq) hn sc ((List.range z.bytes).map fun k => .mem (r.ia va + k)) (fun _ => r.home (r.ia va)) false
    (hn == .byp) none false

/-- Its request. -/
def Env.baseReq (e : Env) (acq : Bool) (sc : Scope) (hn : Hint) (sx : Bool) (z : Size) (d : Nat) (va : DWord) (r : Range) : RReq :=
  e.loadReq va (.load z sx d acq) hn sc ((List.range z.bytes).map fun k => .mem (r.ia va + k)) (fun _ => r.home (r.ia va)) false
    (hn == .byp) none false

theorem Env.load_plain {acq : Bool} (h : e.plain (e.ea a b) z.bytes .read r) : e.load acq sc hn sx z d a b =
    if e.tested ((List.range z.bytes).map fun k => BSrc.mem (r.ia (e.ea a b) + k)) then .wait
    else .done (e.baseLoad acq sc hn sx z d (e.ea a b) r) := by
  simp only [Env.load, h.locate, Env.baseLoad]

theorem Env.plain.tested_iff {va : DWord} {acc : Acc} (h : e.plain va z.bytes acc r) :
    e.tested ((List.range z.bytes).map fun k => BSrc.mem (r.ia va + k)) = true ↔
      ∃ k < z.bytes, e.s.cacheTested e.g.core e.g.ctx (secOf (r.ia va + k)) = true := by
  have hsec {k : Nat} (hk : k < z.bytes) : secOf (r.ia va + k) = secOf (r.ia va) :=
    secOf_add (bytes_dvd_32 z) (h.ia_mod ((bytes_dvd_32 z).trans (by decide))) hk
  rw [Env.tested, h.secsOf, List.any_cons, List.any_nil, Bool.or_false]
  exact ⟨fun ht => ⟨0, bytes_pos z, ht⟩, fun ⟨k, hk, ht⟩ => hsec hk ▸ ht⟩

/-- A load of base memory waits for a word under test, else it is sent. -/
theorem load_result {i : Instr} {acq : Bool} (hr : e.runs i)
    (hx : exec i e.s = threadOp i (fun e => e.load acq sc hn sx z d a b) e.s) (h : e.plain ((e.at_ i).ea a b) z.bytes .read r) :
    let tested : Prop := ∃ k < z.bytes, e.s.cacheTested e.g.core e.g.ctx (secOf (r.ia ((e.at_ i).ea a b) + k)) = true
    (tested → e.leaves i e.s (Thread.waitIssue e.s.now)) ∧
      (¬tested → e.retires i ((e.at_ i).baseLoad acq sc hn sx z d ((e.at_ i).ea a b) r)) := by
  have hload := Env.load_plain (acq := acq) (sc := sc) (hn := hn) (sx := sx) (d := d) (h.at_ i)
  have htested := (h.at_ i).tested_iff
  exact ⟨fun ht => threadOp_wait _ hx hr (hload.trans (if_pos (htested.2 ht))),
    fun ht => threadOp_done _ hx hr (hload.trans (if_neg (mt htested.1 ht)))⟩

section
variable {i : Instr} {acq : Bool} {va : DWord}

theorem baseLoad_m (i : Instr) : ((e.at_ i).baseLoad acq sc hn sx z d va r).m =
    ((e.at_ i).loadSent ((e.at_ i).baseReq acq sc hn sx z d va r)).m := by
  rw [Env.baseLoad, Env.sendLoad_load]
  split <;> rfl

/-- The thread that has sent a load: its destinations await it, and an acquire holds back what comes after it. -/
theorem baseLoad_thr (hr : e.runs i) : ∃ t old, e.thr ((e.at_ i).baseLoad acq sc hn sx z d va r) =
    some (if acq then Thread.acquires old e.s.nextId t else t) ∧ t.v = (e.t.awaits e.s.nextId d z.group).v := by
  let q := (e.at_ i).baseReq acq sc hn sx z d va r
  let s := ((e.at_ i).loadSent q).awaitV e.g.core e.g.slot e.t.tid q.id d z.group
  have hsent : ((e.at_ i).loadSent q).thread? e.g.core e.g.slot e.t.tid = some e.t := by
    rw [State.thread?_congr (Env.loadSent_wgs ..), hr.issues.core, hr.issues.slot]
    exact hr.issues.thread?
  have hawait : s.thread? e.g.core e.g.slot e.t.tid = some (e.t.awaits q.id d z.group) := by
    rw [show s = _ from State.awaitV_eq .., State.thread?_modThread _ _ _ _ _ (Thread.awaits_tid _ _ _), hsent, Option.map_some]
  let old (h : Hold) : Bool := s.anyOutstanding h.ids || decide (s.now < h.till)
  have hacquire : (s.modThread e.g.core e.g.slot e.t.tid (Thread.acquires old q.id)).thread? e.g.core e.g.slot e.t.tid =
      some (Thread.acquires old q.id (e.t.awaits q.id d z.group)) := by
    rw [State.thread?_modThread _ _ _ _ _ (Thread.acquires_tid _ _), hawait, Option.map_some]
  refine ⟨_, old, ?_, rfl⟩
  rw [Env.baseLoad, Env.sendLoad_load, Env.thr, ← hr.issues.core, ← hr.issues.slot]
  simp only [Env.tid_at_]
  cases acq
  · exact hawait
  · exact hacquire

end

/-- Settles O16: the access leads to a fault, a misaligned trap or base memory in the order of the checks; a load of base memory
names one sector. -/
theorem loadIssueAndFaults : Obligations.LoadIssueAndFaults := by
  refine ⟨fun e h sc hn z a b c d q hq hr => ?faults, fun e h sc hn sx z d a b q hq hr r hp => ?issue⟩
  case faults =>
    simp only [List.mem_cons, List.not_mem_nil, or_false] at hq
    obtain rfl | rfl | rfl | rfl | rfl | rfl := hq
    · exact access_traps hr rfl Env.load_access Env.load_misaligned
    · exact access_traps hr rfl Env.load_access Env.load_misaligned
    · exact access_traps hr rfl Env.load_access Env.load_misaligned
    · exact access_traps hr rfl Env.load_access Env.load_misaligned
    · exact access_traps hr rfl Env.store_access Env.store_misaligned
    · exact access_traps hr rfl Env.store_access Env.store_misaligned
  case issue =>
    have hx : exec q.1 e.s = threadOp q.1 (fun e => e.load q.2 sc hn sx z d a b) e.s := by
      simp only [List.mem_cons, List.not_mem_nil, or_false] at hq
      obtain rfl | rfl := hq <;> rfl
    obtain ⟨hwait, hsent⟩ := load_result hr hx hp
    obtain ⟨t, old, ht, hv⟩ := baseLoad_thr (acq := q.2) (sc := sc) (hn := hn) (sx := sx) (z := z) (d := d)
      (va := (e.at_ q.1).ea a b) (r := r) hr
    obtain ⟨hia, hhome⟩ := Env.hit_place (e.at_ q.1) e.s.nextId (r.home (r.ia ((e.at_ q.1).ea a b))) (secOf (r.ia ((e.at_ q.1).ea a b)))
    refine ⟨hwait, fun htest => ⟨_, (e.at_ q.1).baseReq q.2 sc hn sx z d ((e.at_ q.1).ea a b) r, hsent htest, sameBytes_iff.2 ?bytes,
      ?reads, rfl, Env.who_at_ e q.1, rfl, rfl, rfl, rfl, rfl, ?secs, awaiting_of_thread ht ?regs, fun hacq => ⟨_, ht, ?holds⟩⟩⟩
    case bytes => rw [baseLoad_m, Env.loadSent_stores, Env.s_at_]
    case reads => rw [baseLoad_m, Env.loadSent_reads, Env.s_at_]
    case secs => simp only [Env.baseReq, Env.loadReq, hp.secsOf, List.map_cons, List.map_nil, Env.s_at_, hia, hhome]
    case regs => split <;> exact hv
    case holds =>
      rw [if_pos hacq]
      exact ⟨_, List.mem_append_right _ List.mem_cons_self, rfl, rfl, rfl⟩

end Sys2Proof.Machine
end

section
/-! SUPPORT. pref, cwb, cinv and chint on base memory (R112, R124). -/

namespace Sys2Proof.Machine

variable {e : Env} {h : Hdr} {sc : Scope} {hn : Hint} {a : Reg} {b : Src} {r : Range} {va : DWord}

theorem inAperture_secOf (c : Context) (ia : Nat) : c.inAperture (secOf ia) = c.inAperture ia := by
  have hdiv : secOf ia / 2 ^ 40 = ia / 2 ^ 40 := by unfold secOf; omega
  simp only [Context.inAperture, hdiv]

/-! pref. -/

/-- The sector of an access is used by a prefetch where it is. -/
def Env.prefHere (e : Env) (sc : Scope) (sec : Nat) : Bool :=
  (sc == .wg || sc == .cl) && (e.s.resident? e.g.core e.g.ctx sec).isSome

/-- The request that a prefetch of a sector sends. -/
def Env.prefReq (e : Env) (sc : Scope) (hn : Hint) (va : DWord) (sec home : Nat) : RReq :=
  { id := e.s.nextId, who := e.who, ctx := e.g.ctx, va := va, kind := .pref, hint := hn, sc := sc, cycle := e.s.now, bytes := []
    secs := [⟨sec, home, none, 0, none, 0⟩], held := false, view := false, composed := !(sc == .wg || sc == .cl) || (false && hn == .strm) }

theorem Env.prefetch_access (hl : e.locate (e.ea a b) 1 .prefetch = .access) : e.prefetch sc hn a b = .done e.s := by
  simp only [Env.prefetch, hl]

theorem Env.prefetch_plain (hp : e.plain (e.ea a b) 1 .prefetch r) (hw : e.ctx.window? (secOf (r.ia (e.ea a b))) = none) :
    let sec := secOf (r.ia (e.ea a b))
    e.prefetch sc hn a b = .done (if e.prefHere sc sec then e.s.touch e.g.core e.g.ctx sec hn
      else e.s.fresh.setReads (· ++ [e.prefReq sc hn (e.ea a b) sec (r.home (r.ia (e.ea a b)))])) := by
  intro sec
  have hback : e.ctx.unbacked sec = false := by
    obtain ⟨-, -, -, hap, -⟩ := hp
    simp [Context.unbacked, sec, inAperture_secOf, hap, hw]
  have hsecs : secsOf [.mem (r.ia (e.ea a b))] = [sec] := rfl
  simp only [Env.prefetch, hp.locate, hsecs, List.filter_cons, List.filter_nil, hback, Bool.not_false, if_true]
  have hhere : (!!(sc == .wg || sc == .cl) && (e.s.resident? e.g.core e.g.ctx sec).isSome) = e.prefHere sc sec := by
    rw [Bool.not_not, Env.prefHere]
  simp only [hhere]
  cases e.prefHere sc sec <;> rfl

/-- The more retentive of two hints (R112). -/
theorem hintRaise_eq (old new : Hint) : hintRaise old new =
    if old = .stky ∨ new = .stky then .stky else if old = .dflt ∨ new = .dflt then .dflt
    else if old = .strm ∨ new = .strm then .strm else .byp := by
  cases old <;> cases new <;> rfl

theorem State.mem_touch (s : State) (core ctx sec : Nat) (hint : Hint) (c : CEnt) : c ∈ (s.touch core ctx sec hint).m.cache ↔
    ∃ c' ∈ s.m.cache, if c'.core = core ∧ c'.ctx = ctx ∧ c'.ia = sec ∧ s.now < c'.till
      then c = { c' with hint := hintRaise c'.hint hint, used := s.now } else c = c' := by
  simp only [State.touch, List.mem_map, Bool.and_eq_true, beq_iff_eq, decide_eq_true_eq, and_assoc]
  refine exists_congr fun c' => and_congr_right fun _ => ?_
  split <;> exact eq_comm

theorem pref_result (hr : e.runs (.pref h sc hn a b)) :
    let va := (e.at_ (.pref h sc hn a b)).ea a b
    (e.ctx.match? va = none → e.retires (.pref h sc hn a b) e.s) ∧
    (∀ r, e.ctx.match? va = some r → r.rd = false → e.retires (.pref h sc hn a b) e.s) ∧
    ∀ r, e.plain va 1 .prefetch r → e.ctx.window? (secOf (r.ia va)) = none → e.retires (.pref h sc hn a b)
      (if e.prefHere sc (secOf (r.ia va)) then e.s.touch e.g.core e.g.ctx (secOf (r.ia va)) hn
       else e.s.fresh.setReads (· ++ [e.prefReq sc hn va (secOf (r.ia va)) (r.home (r.ia va))])) := by
  intro va
  have hx : exec (.pref h sc hn a b) e.s = threadOp (.pref h sc hn a b) (fun e => e.prefetch sc hn a b) e.s := rfl
  have hdenied (hl : e.locate va 1 .prefetch = .access) : e.retires (.pref h sc hn a b) e.s :=
    threadOp_done _ hx hr (Env.prefetch_access (e := e.at_ _) hl)
  refine ⟨fun hm => hdenied (locate_none hm), fun r hm hrd => hdenied (locate_denied hm hrd), fun r hp hw => threadOp_done _ hx hr ?_⟩
  have hplain := Env.prefetch_plain (sc := sc) (hn := hn) (hp.at_ (.pref h sc hn a b)) hw
  refine hplain.trans ?_
  simp only [Env.prefReq, Env.who_at_]
  rfl

/-! The span of a line or of a sector. -/

theorem Env.span_access {n : Nat} {acc : Acc} (hl : e.locate va 1 acc = .access) : e.span va n acc = .error (.trap 4 0 va false) := by
  simp only [Env.span, hl]

theorem Env.plain.span {acc : Acc} (hp : e.plain va 1 acc r) (n : Nat) : e.span va n acc =
    .ok (e.s, (List.range (n / 32)).map (fun k => r.ia va / n * n + 32 * k), fun _ => r.home (r.ia va)) := by
  simp only [Env.span, hp.locate]

/-- The sectors of the line of an address. -/
def lineSecs (ia : Nat) : List Nat := (List.range 4).map fun k => lineOf ia + 32 * k

theorem mem_lineSecs {ia x : Nat} : x ∈ lineSecs ia ↔ lineOf x = lineOf ia ∧ x % 32 = 0 := by
  simp only [lineSecs, List.mem_map, List.mem_range, lineOf]
  constructor
  · rintro ⟨k, hk, rfl⟩
    omega
  · rintro ⟨hline, hsec⟩
    exact ⟨x % 128 / 32, by omega, by omega⟩

/-- An address in a line lies in one of its sectors. -/
theorem exists_lineSecs {ia x : Nat} : (∃ k ∈ lineSecs ia, k ≤ x ∧ x < k + 32) ↔ lineOf x = lineOf ia := by
  simp only [mem_lineSecs, lineOf]
  constructor
  · rintro ⟨k, hk, hle, hlt⟩
    omega
  · intro hx
    exact ⟨x / 32 * 32, by omega, by omega, by omega⟩

theorem Env.plain.span_line {acc : Acc} (hp : e.plain va 1 acc r) :
    e.span va 128 acc = .ok (e.s, lineSecs (r.ia va), fun _ => r.home (r.ia va)) := hp.span 128

theorem Env.plain.span_sec {acc : Acc} (hp : e.plain va 1 acc r) :
    e.span va 32 acc = .ok (e.s, [secOf (r.ia va)], fun _ => r.home (r.ia va)) := hp.span 32

/-- cwb, cinv and chint take the access-fault trap without a range that may be read. -/
theorem span_traps {i : Instr} {n : Nat} {body : Env → Res} (hr : e.runs i) (hx : exec i e.s = threadOp i body e.s)
    (hbody : ∀ x, (e.at_ i).span ((e.at_ i).ea a b) n .read = .error x → body (e.at_ i) = x)
    (hm : ∀ r, e.ctx.match? ((e.at_ i).ea a b) = some r → r.rd = false) : e.traps i 4 0 ((e.at_ i).ea a b) e.t.pc := by
  refine threadOp_trap body hx hr (hbody _ (Env.span_access ?_))
  cases hmatch : e.ctx.match? ((e.at_ i).ea a b) with
  | none => exact locate_none hmatch
  | some r => exact locate_denied hmatch (hm r hmatch)

/-! cwb. -/

/-- The thread's writes and atomics on a line (R124). -/
def Env.lineIds (e : Env) (ia : Nat) : List Nat :=
  (e.s.m.writes.filterMap fun x => if x.of e.who && x.ctx == e.g.ctx && (lineSecs ia).contains x.ia then some x.id else none) ++
    e.s.m.atoms.filterMap fun a => if a.ctx == e.g.ctx && (lineSecs ia).contains (secOf a.ia) && a.lanes.any (fun l => l.who.same e.who)
      then some a.id else none

/-- A thread whose cwb waits for these requests, and for the write-back of these lines. -/
def Thread.cwbs (ids back : List Nat) (t : Thread) : Thread := { t with cwb := ids, cwbBack := back }

theorem lineSecs_line (ia : Nat) : ((lineSecs ia).map lineOf).eraseDups = [lineOf ia] := by
  have hline : (lineSecs ia).map lineOf = List.replicate 4 (lineOf ia) := by
    refine List.eq_replicate_iff.2 ⟨rfl, fun x hx => ?_⟩
    obtain ⟨k, hk, rfl⟩ := List.mem_map.1 hx
    exact (mem_lineSecs.1 hk).1
  rw [hline]
  simp [List.replicate, List.eraseDups_cons]

theorem cwb_retires (hr : e.runs (.cwb h sc a b)) (hp : e.plain ((e.at_ (.cwb h sc a b)).ea a b) 1 .read r) :
    let ia := r.ia ((e.at_ (.cwb h sc a b)).ea a b)
    e.retires (.cwb h sc a b) (e.s.modThread e.g.core e.g.slot e.t.tid
      (Thread.cwbs (e.lineIds ia) (if sc = .dev ∨ sc = .sys then [lineOf ia] else []))) := by
  intro ia
  refine threadOp_done _ rfl hr ?_
  have hback : (if (sc == .dev || sc == .sys) = true then ((lineSecs ia).map lineOf).eraseDups else []) =
      if sc = .dev ∨ sc = .sys then [lineOf ia] else [] := by
    rw [lineSecs_line]
    simp only [Bool.or_eq_true, beq_iff_eq]
  simp only [(hp.at_ _).span_line, Env.who_at_, Env.g_at_, Env.tid_at_, Env.s_at_, Env.mem, ← hback]
  rfl

/-! cinv. -/

theorem mem_dropCopies {m : Mem} {ctx lo n : Nat} {p : Nat → Bool} {c : CEnt} : c ∈ (m.dropCopies ctx lo n p).cache ↔
    c ∈ m.cache ∧ ¬(c.ctx = ctx ∧ (lo ≤ c.ia ∧ c.ia < lo + n) ∧ p c.core = true) := by
  simp only [Mem.dropCopies, List.mem_filter, Bool.not_eq_true', ← Bool.not_eq_true, Bool.and_eq_true, beq_iff_eq, decide_eq_true_eq,
    and_assoc]

/-- What a cinv leaves: bytes, threads and, where its scope drops no entry, the sector caches. -/
structure State.SameCaches (s s' : State) : Prop where
  stores : s'.m.stores = s.m.stores
  wgs : s'.wgs = s.wgs
  cache : s'.m.cache = s.m.cache

theorem State.SameCaches.refl (s : State) : s.SameCaches s := ⟨rfl, rfl, rfl⟩

theorem State.SameCaches.trans {s s' s'' : State} (h : s.SameCaches s') (h' : s'.SameCaches s'') : s.SameCaches s'' :=
  ⟨h'.stores.trans h.stores, h'.wgs.trans h.wgs, h'.cache.trans h.cache⟩

theorem setDir_sameCaches (s : State) (d : DirEnt) : s.SameCaches (s.setDir d) := ⟨rfl, rfl, rfl⟩

theorem toI_sameCaches (s : State) (d : DirEnt) : s.SameCaches (s.toI d) := by
  unfold State.toI
  split <;> exact ⟨rfl, rfl, rfl⟩

theorem dropNow_sameCaches {s s' : State} {q : PendDrop} (hd : s.dropNow q = some s') : s.SameCaches s' := by
  unfold State.dropNow at hd
  split at hd
  · split at hd
    · exact absurd hd (by simp)
    · cases hd
      exact ⟨rfl, rfl, rfl⟩
  · split at hd
    · cases hd
      exact .refl s
    · split at hd
      · cases hd
        exact .refl s
      · split at hd
        · exact absurd hd (by simp)
        · cases hd
          split
          · exact setDir_sameCaches ..
          · exact toI_sameCaches ..
          · exact toI_sameCaches ..
          · split
            · exact setDir_sameCaches ..
            · split
              · exact toI_sameCaches ..
              · exact setDir_sameCaches ..
          · exact .refl s

theorem dropCopy_sameCaches (s : State) (q : PendDrop) : s.SameCaches (s.dropCopy q) := by
  unfold State.dropCopy
  split
  · next hd => exact dropNow_sameCaches hd
  · split
    · exact .refl s
    · exact ⟨rfl, rfl, rfl⟩

/-- The scope in which a cinv drops entries of sector caches (R124). -/
def cinvScope (sc : Scope) : Scope := if sc == .wg || sc == .cl then sc else .die

/-- One sector of a cinv: its entries in scope leave the caches, then its visitor copies are dropped at .dev and .sys. -/
def State.cinvSec (s : State) (core ctx home : Nat) (sc : Scope) (x : Nat) : State :=
  let s := { s with m := s.m.dropCopies ctx x 32 fun k => coresIn (cinvScope sc) core k }
  if sc == .dev || sc == .sys then
    let s := s.dropCopy { ctx := ctx, line := lineOf x, die := dieOf core, host := none }
    match sc, s.xlate home ctx x with
    | .sys, .ok q => if q.hst then s.dropCopy { ctx := ctx, line := lineOf x, die := dieOf core, host := some (q.pa / 128 * 128) } else s
    | _, _ => s
  else s

theorem cinvSec_sameCaches (s : State) (core ctx home : Nat) (sc : Scope) (x : Nat) :
    ({ s with m := s.m.dropCopies ctx x 32 fun k => coresIn (cinvScope sc) core k } : State).SameCaches
      (s.cinvSec core ctx home sc x) := by
  unfold State.cinvSec
  dsimp only
  split
  · refine (dropCopy_sameCaches _ { ctx := ctx, line := lineOf x, die := dieOf core, host := none }).trans ?_
    split
    · split
      · exact dropCopy_sameCaches _ _
      · exact .refl _
    · exact .refl _
  · exact .refl _

/-- A cinv of several sectors. -/
theorem cinvSecs (s : State) (core ctx home : Nat) (sc : Scope) (l : List Nat) :
    let s' := l.foldl (fun s x => s.cinvSec core ctx home sc x) s
    s'.m.stores = s.m.stores ∧ s'.wgs = s.wgs ∧ ∀ c, c ∈ s'.m.cache ↔ c ∈ s.m.cache ∧ ¬(c.ctx = ctx ∧ (∃ x ∈ l, x ≤ c.ia ∧ c.ia < x + 32) ∧
      coresIn (cinvScope sc) core c.core = true) := by
  induction l generalizing s with
  | nil => simp
  | cons x l ih =>
    obtain ⟨hstores, hwgs, hcache⟩ := cinvSec_sameCaches s core ctx home sc x
    obtain ⟨ihstores, ihwgs, ihcache⟩ := ih (s.cinvSec core ctx home sc x)
    refine ⟨ihstores.trans hstores, ihwgs.trans hwgs, fun c => ?_⟩
    rw [List.foldl_cons, ihcache c, hcache, mem_dropCopies]
    simp only [List.mem_cons, exists_eq_or_imp]
    grind

theorem cinv_retires (hr : e.runs (.cinv h sc a b)) (hp : e.plain ((e.at_ (.cinv h sc a b)).ea a b) 1 .read r) :
    let ia := r.ia ((e.at_ (.cinv h sc a b)).ea a b)
    e.retires (.cinv h sc a b) ((lineSecs ia).foldl (fun s x => s.cinvSec e.g.core e.g.ctx (r.home ia) sc x) e.s) := by
  intro ia
  refine threadOp_done _ rfl hr ?_
  simp only [(hp.at_ _).span_line]
  rfl

theorem cinvScope_iff (sc : Scope) (core k : Nat) : coresIn (cinvScope sc) core k = true ↔ match sc with
    | .wg => k = core
    | .cl => k / 4 = core / 4
    | _ => k / 64 = core / 64 := by
  cases sc <;> simp [cinvScope, coresIn, dieOf]

/-! chint. -/

/-- An entry of a sector cache after a chint: the resident sector has the hint, or is gone under byp. -/
def CEnt.rehint (now core ctx sec : Nat) (hn : Hint) (c : CEnt) : Option CEnt :=
  if c.core == core && c.ctx == ctx && [sec].contains c.ia && decide (now < c.till) then
    (if hn == .byp then none else some { c with hint := hn })
  else some c

theorem rehint_eq_some {now core ctx sec : Nat} {c c' : CEnt} : c'.rehint now core ctx sec hn = some c ↔
    if c'.core = core ∧ c'.ctx = ctx ∧ c'.ia = sec ∧ now < c'.till then hn ≠ .byp ∧ c = { c' with hint := hn } else c = c' := by
  simp only [CEnt.rehint, Bool.and_eq_true, beq_iff_eq, decide_eq_true_eq, List.contains_iff_mem, List.mem_singleton, and_assoc]
  split
  · by_cases hb : hn = .byp
    · simp [hb]
    · simp [hb, eq_comm]
  · rw [Option.some_inj, eq_comm]

def State.rehint (s : State) (core ctx sec : Nat) (hn : Hint) : State :=
  { s with m := { s.m with cache := s.m.cache.filterMap (CEnt.rehint s.now core ctx sec hn) } }

theorem State.mem_rehint (s : State) (core ctx sec : Nat) (c : CEnt) : c ∈ (s.rehint core ctx sec hn).m.cache ↔
    ∃ c' ∈ s.m.cache, if c'.core = core ∧ c'.ctx = ctx ∧ c'.ia = sec ∧ s.now < c'.till then hn ≠ .byp ∧ c = { c' with hint := hn }
      else c = c' :=
  List.mem_filterMap.trans (exists_congr fun _ => and_congr_right fun _ => rehint_eq_some)

theorem chint_retires (hr : e.runs (.chint h hn a b)) (hp : e.plain ((e.at_ (.chint h hn a b)).ea a b) 1 .read r) :
    e.retires (.chint h hn a b) (e.s.rehint e.g.core e.g.ctx (secOf (r.ia ((e.at_ (.chint h hn a b)).ea a b))) hn) := by
  refine threadOp_done _ rfl hr ?_
  simp only [(hp.at_ _).span_sec]
  rfl

/-- Settles O17: a prefetch by where its sector is; cwb, cinv and chint by the sectors of the line. -/
theorem cacheControlResults : Obligations.CacheControlResults := by
  refine ⟨fun e h sc hn a b => ?pref, fun e h sc hn a b => ⟨fun i hi hr hm => ?traps, fun hr r hp => ?cwb, fun hr r hp => ?cinv,
    fun hr r hp => ?chint⟩⟩
  case pref =>
    intro i va hr
    obtain ⟨hnone, hdenied, hplain⟩ := pref_result hr
    refine ⟨hnone, hdenied, fun r hp hw => ?_⟩
    intro sec more here
    have hhere : e.prefHere sc sec = true ↔ here := by simp [Env.prefHere, here]
    refine ⟨_, hplain r hp hw, sameBytes_iff.2 ?_, ?_, fun hin => ?_, fun hout => ?_⟩
    · split <;> rfl
    · split <;> rfl
    · rw [if_pos (hhere.2 hin)]
      refine ⟨rfl, fun c => ?_⟩
      rw [State.mem_touch]
      simp only [hintRaise_eq]
      rfl
    · rw [if_neg (mt hhere.1 hout)]
      exact ⟨rfl, _, rfl, rfl, rfl, rfl, rfl, rfl⟩
  case traps =>
    simp only [List.mem_cons, List.not_mem_nil, or_false] at hi
    obtain rfl | rfl | rfl := hi
    · exact span_traps (n := 128) hr rfl (fun x hx => by simp only [hx]) hm
    · exact span_traps (n := 128) hr rfl (fun x hx => by simp only [hx]) hm
    · exact span_traps (n := 32) hr rfl (fun x hx => by simp only [hx]) hm
  case cwb =>
    refine ⟨_, _, cwb_retires hr hp, sameBytes_refl _, hr.issues.thread?_modThread, fun w hw hown hctx hline => ?_, rfl⟩
    refine List.mem_append_left _ (List.mem_filterMap.2 ⟨w, hw, ?_⟩)
    simp [hown, hctx, mem_lineSecs.2 hline]
  case cinv =>
    obtain ⟨hstores, hwgs, hcache⟩ := cinvSecs e.s e.g.core e.g.ctx (r.home (r.ia ((e.at_ (.cinv h sc a b)).ea a b))) sc
      (lineSecs (r.ia ((e.at_ (.cinv h sc a b)).ea a b)))
    refine ⟨_, cinv_retires hr hp, sameBytes_iff.2 hstores, hwgs, fun c => ?_⟩
    have hiff := hcache c
    rw [exists_lineSecs, cinvScope_iff] at hiff
    exact hiff
  case chint =>
    exact ⟨_, chint_retires hr hp, sameBytes_refl _, rfl, State.mem_rehint _ _ _ _⟩

end Sys2Proof.Machine
end

section
/-! SUPPORT. Event records (R273): what a record leaves as it was, whether the ring takes it or not. -/

namespace Sys2Proof.Machine

/-- The state but for the threads and the waits on an address. -/
def State.calm (s : State) : State := { s with wgs := [], m := { s.m with waits := [] } }

theorem State.mod_calm (s : State) (w : Who) (f : Thread → Thread) : (s.mod w f).calm = s.calm := by
  unfold State.mod
  split <;> rfl

theorem State.endWait_calm (s : State) (e : WaitEnt) (x : Word) : (s.endWait e x).calm = s.calm := by
  unfold State.endWait
  dsimp only
  split
  · rfl
  · exact State.mod_calm ..

theorem State.wakeWait_calm (s : State) (x : Xl) (e : WaitEnt) : (s.wakeWait x e).calm = s.calm := by
  unfold State.wakeWait
  dsimp only
  split
  · exact State.endWait_calm ..
  · rfl

/-- The device's own write as far as memory is concerned, before the waits on the sector are evaluated again. -/
def State.ringWritten (s : State) (pa : Nat) (bs : List Byte) : State :=
  { s with m := Mem.mark { s.m with
      cells := cellsSet pa bs s.m.cells
      cache := s.m.cache.filter fun c => !s.cachedFrom pa c
      l2 := s.m.l2.filter fun e => sectorOf e.pa != sectorOf pa } (sectorOf pa) false }

theorem State.ringWritten_wgs (s : State) (pa : Nat) (bs : List Byte) : (s.ringWritten pa bs).wgs = s.wgs := rfl

theorem State.ringWrite_calm (s : State) (pa : Nat) (bs : List Byte) : (s.ringWrite pa bs).calm = (s.ringWritten pa bs).calm :=
  foldl_keeps State.calm _ (fun _ _ => State.wakeWait_calm ..) _ _

/-- Without waits the device's own write wakes no thread. -/
theorem State.ringWrite_of_waits {s : State} (h : s.m.waits = []) (pa : Nat) (bs : List Byte) :
    s.ringWrite pa bs = s.ringWritten pa bs := by
  show List.foldl _ (s.ringWritten pa bs) (s.m.waits.filter _) = _
  rw [h]
  rfl

/-- The slot of the ring at the head. -/
def State.evSlot (s : State) : Nat := s.y.evq.toNat / 2 ^ 15 % 2 ^ 37 * 2 ^ 15 + 32 * (s.y.evhead.toNat % 1024)

/-- The record an event writes. -/
def State.evRecord (s : State) (kind ctx unit addr detail : Nat) : List Byte :=
  evBytes kind (ctx % 64 + unit % 2 ^ 13 * 2 ^ 16) addr s.ptpNs detail

section
variable (s : State) (kind ctx unit addr detail : Nat)

theorem State.event_taken (h : (s.y.evOn && !s.y.evFull) = true) : s.event kind ctx unit addr detail =
    { (if paExists s.evSlot then s.ringWrite s.evSlot (s.evRecord kind ctx unit addr detail) else s) with
      y := { s.y with evhead := BitVec.ofNat 32 ((s.y.evhead.toNat + 1) % 1024), msix := s.y.msix + 1 } } := if_pos h

theorem State.event_lost (h : (s.y.evOn && !s.y.evFull) = false) : s.event kind ctx unit addr detail =
    { s with y := { s.y with evlost := s.y.evlost + 1 } } := if_neg (by simp [h])

/-- What no record touches: the contexts, the engines and, of memory, all but bytes, caches and waits. -/
def State.apart (s : State) : List Context × Eng × Mem :=
  (s.ctxs, s.e, { s.m with cells := [], poison := [], cache := [], l2 := [], waits := [] })

theorem State.ringWrite_apart (pa : Nat) (bs : List Byte) : (s.ringWrite pa bs).apart = s.apart :=
  show (s.ringWrite pa bs).calm.apart = (s.ringWritten pa bs).calm.apart from congrArg State.apart (s.ringWrite_calm pa bs)

theorem State.event_apart : (s.event kind ctx unit addr detail).apart = s.apart := by
  cases h : s.y.evOn && !s.y.evFull
  · rw [State.event_lost _ _ _ _ _ _ h]
    rfl
  · rw [State.event_taken _ _ _ _ _ _ h]
    show State.apart (if _ then _ else _) = _
    split
    · exact s.ringWrite_apart ..
    · rfl

theorem State.event_ctxs : (s.event kind ctx unit addr detail).ctxs = s.ctxs :=
  (congrArg Prod.fst (s.event_apart kind ctx unit addr detail) :)

theorem State.event_missing : (s.event kind ctx unit addr detail).m.missing = s.m.missing :=
  (congrArg (fun p => p.2.2.missing) (s.event_apart kind ctx unit addr detail) :)

theorem State.event_wgs (h : s.m.waits = []) : (s.event kind ctx unit addr detail).wgs = s.wgs := by
  cases ht : s.y.evOn && !s.y.evFull
  · rw [State.event_lost _ _ _ _ _ _ ht]
  · rw [State.event_taken _ _ _ _ _ _ ht, State.ringWrite_of_waits h]
    show State.wgs (if _ then _ else _) = _
    split
    · exact s.ringWritten_wgs ..
    · rfl

end

end Sys2Proof.Machine
end

section
/-! SUPPORT. Page walks, the side log and refused requests (R106, R108, R117, R118, R312). -/

namespace Sys2Proof.Machine

variable {s : State}

/-! Page walks. -/

/-- A walk is wanted where a request that has reached the home waits for it. -/
theorem walkWanted_of_waiting {die ctx sec : Nat} {acc : Acc} (hacc : s.y.allowedAcc ctx sec 32 acc = true)
    (h : (acc = .write ∧ ∃ w ∈ s.m.writes, w.ctx = ctx ∧ w.ia = sec ∧ w.home = die ∧ w.state.canArrive = true ∧ s.mayGo w = true) ∨
      (acc = .read ∧ ∃ r ∈ s.m.reads, r.ctx = ctx ∧ r.kind ≠ .pref ∧ s.loadWaits r.who r.id ctx sec = false ∧
        ∃ x ∈ r.secs, x.ia = sec ∧ x.home = die ∧ x.got = none ∧ x.retry = 0) ∨
      (acc = .rmw ∧ ∃ a ∈ s.m.atoms, a.ctx = ctx ∧ secOf a.ia = sec ∧ a.home = die ∧ a.fwd = false ∧ a.retry = 0 ∧ ∀ l ∈ a.lanes,
        s.loadWaits l.who a.id ctx sec = false ∧ s.m.writeBefore l.who a.id ctx sec (s.leaseOf? l.who ctx (lineOf sec)).isSome = false)) :
    s.walkWanted die ctx sec acc = true := by
  unfold State.walkWanted
  rw [hacc, Bool.true_and]
  obtain ⟨rfl, w, hw, hctx, hia, hhome, harr, hgo⟩ | ⟨rfl, r, hr, hctx, hkind, hwait, x, hx, hia, hhome, hgot, hretry⟩ |
    ⟨rfl, a, ha, hctx, hia, hhome, hfwd, hretry, hlanes⟩ := h
  · exact List.any_eq_true.2 ⟨w, hw, by simp [hctx, hia, hhome, harr, hgo]⟩
  · refine List.any_eq_true.2 ⟨r, hr, ?_⟩
    have hsec : r.secs.any (fun x => x.ia == sec && x.home == die && x.got.isNone && x.retry == 0) = true :=
      List.any_eq_true.2 ⟨x, hx, by simp [hia, hhome, hgot, hretry]⟩
    simp [hctx, hkind, hwait, hsec]
  · refine List.any_eq_true.2 ⟨a, ha, ?_⟩
    have hall : a.lanes.all (fun l => !s.loadWaits l.who a.id ctx sec &&
        !s.m.writeBefore l.who a.id ctx sec (s.leaseOf? l.who ctx (lineOf sec)).isSome) = true :=
      List.all_eq_true.2 fun l hl => by simp [hlanes l hl]
    simp [hctx, hia, hhome, hfwd, hretry, hall]

theorem walkWanted_denied {die ctx sec : Nat} {acc : Acc} (hacc : s.y.allowedAcc ctx sec 32 acc = false) :
    s.walkWanted die ctx sec acc = false := by
  simp [State.walkWanted, hacc]

section
variable {die ctx ia : Nat} {acc : Acc}

theorem execPageWalk_unwanted (h : s.walkWanted die ctx (secOf ia) acc = false) :
    exec (.pageWalk die (ctrlOf ia) ctx ia acc) s = .next s := by
  simp [exec, execPageWalk, h]

variable (hwant : s.walkWanted die ctx (secOf ia) acc = true) (hrun : (s.y.dies.getD die {}).st = .running)
  (hmiss : s.missing? die ctx ia = none)
include hwant hrun hmiss

/-- The leaf that a walk caches. -/
def leafEnt (die ctx ia l pa : Nat) (hst : Bool) : XEnt :=
  { die := die, ctrl := ctrlOf ia, ctx := ctx, level := l, ia := unitBase l ia, pa := pa - (ia - unitBase l ia), hst := hst }

theorem execPageWalk_leaf {l pa : Nat} {hst : Bool} (hw : s.walk ctx ia = .leaf l pa hst) : ∃ old,
    exec (.pageWalk die (ctrlOf ia) ctx ia acc) s = .next { s with m := { s.m with xlat := old ++ [leafEnt die ctx ia l pa hst] } } := by
  simp only [exec, execPageWalk, hwant, hrun, hmiss, hw]
  rw [if_neg (by simp)]
  exact ⟨_, rfl⟩

theorem execPageWalk_miss {l : Nat} (hw : s.walk ctx ia = .miss l) :
    exec (.pageWalk die (ctrlOf ia) ctx ia acc) s = .next (s.pageFault die ctx ia l acc) := by
  simp only [exec, execPageWalk, hwant, hrun, hmiss, hw]
  rw [if_neg (by simp)]

end

/-- The missing unit on which an agent holds requests, with its record written if the ring takes it. -/
def State.missOf (s : State) (home ctx ia level : Nat) (acc : Acc) : Miss :=
  { die := home, ctrl := ctrlOf ia, ctx := ctx, level := level, ia := unitBase level ia, acc := acc, recorded := s.y.evOn && !s.y.evFull }

theorem State.pageFault_missing {home ctx ia level : Nat} {acc : Acc} (h : s.missing? home ctx ia = none) :
    (s.pageFault home ctx ia level acc).m.missing = s.m.missing ++ [s.missOf home ctx ia level acc] := by
  unfold State.pageFault
  simp only [h]
  split
  · rw [State.event_missing]
    rfl
  · rfl

/-! One write among those in flight. -/

theorem State.write?_modWEnt (s : State) (id k : Nat) (f : WEnt → WEnt) (hf : ∀ w, (f w).id = w.id) :
    (s.modWEnt id f).write? k = (s.write? k).map fun w => if w.id == id then f w else w :=
  find?_map_key WEnt.id _ (fun w => by split <;> simp [hf]) k s.m.writes

theorem State.write?_id {s : State} {id : Nat} {w : WEnt} (h : s.write? id = some w) : w.id = id := by
  simpa using List.find?_some h

theorem State.write?_modWEnt_self {id : Nat} {w : WEnt} {f : WEnt → WEnt} (h : s.write? id = some w) (hf : ∀ w, (f w).id = w.id) :
    (s.modWEnt id f).write? id = some (f w) := by
  rw [State.write?_modWEnt s id id f hf, h, Option.map_some, State.write?_id h]
  simp

theorem State.modWEnt_sameBytes (s : State) (id : Nat) (f : WEnt → WEnt) : s.sameBytes (s.modWEnt id f) := sameBytes_iff.2 rfl

/-! The side log. -/

/-- The next sequence number of a core is taken. -/
def State.takeSeq (s : State) (core : Nat) : State :=
  { s with m := { s.m with nextSeq := s.m.nextSeq.set core (s.m.nextSeq.getD core 1 + 1) } }

def WEnt.inState (st : WState) (w : WEnt) : WEnt := { w with state := st }

theorem execSideLogRetire_logs {w : WEnt} (hw : s.write? w.id = some w) (hstate : w.state = .queued) (hord : w.ord ≠ 0)
    (hmiss : (s.missing? w.home w.ctx w.ia).isSome = true) (hroom : (s.m.loggedOn w.who.core).length < 512)
    (hbehind : ∀ x ∈ s.m.behind w, ∃ q, x.state = .logged q) : exec (.sideLogRetire w.id) s =
      .next ((s.takeSeq w.who.core).modWEnt w.id (WEnt.inState (.logged (s.m.nextSeq.getD w.who.core 1)))) := by
  have hall : (s.m.behind w).all (fun x => match x.state with
      | .logged _ => true
      | _ => false) = true := List.all_eq_true.2 fun x hx => by
    obtain ⟨q, hq⟩ := hbehind x hx
    rw [hq]
  have harr : w.state.canArrive = true := by rw [hstate]; rfl
  unfold exec execSideLogRetire
  simp only [hw]
  rw [if_pos]
  · rfl
  · simp only [bne_iff_ne.2 hord, harr, hmiss, decide_eq_true hroom, Bool.true_and]
    exact hall

theorem mem_loggedOn {m : Mem} {core : Nat} {x : WEnt} : x ∈ m.loggedOn core ↔ x ∈ m.writes ∧ x.who.core = core ∧ ∃ q, x.state = .logged q := by
  unfold Mem.loggedOn
  rw [List.mem_filter]
  cases x.state <;> simp

/-- The entry that a replay sends out when its page is mapped. -/
def State.replays (s : State) (core seq : Nat) (x : WEnt) : Bool :=
  x.who.core == core && x.state == .logged seq && match s.xlate x.home x.ctx x.ia with
    | .fault _ => false
    | _ => true

theorem State.replays_iff {core seq : Nat} {x : WEnt} : s.replays core seq x = true ↔
    x.who.core = core ∧ x.state = .logged seq ∧ ∀ l, s.xlate x.home x.ctx x.ia ≠ .fault l := by
  unfold State.replays
  cases s.xlate x.home x.ctx x.ia <;> simp

/-- An older entry of the page is logged. -/
def State.olderLogged (s : State) (core seq : Nat) (w : WEnt) : Bool :=
  (s.m.loggedOn core).any fun x => x.ctx == w.ctx && s.samePage w.ctx w.ia x.ia && match x.state with
    | .logged q => decide (q < seq)
    | _ => false

theorem State.olderLogged_eq_false {core seq : Nat} {w : WEnt}
    (h : ∀ x ∈ s.m.writes, ∀ q, x.state = .logged q → x.who.core = core → x.ctx = w.ctx → s.samePage w.ctx w.ia x.ia = true → seq ≤ q) :
    s.olderLogged core seq w = false := by
  refine List.any_eq_false.2 fun x hx => ?_
  obtain ⟨hmem, hcore, q, hq⟩ := mem_loggedOn.1 hx
  simp only [hq, Bool.and_eq_true, beq_iff_eq, decide_eq_true_eq, and_assoc, not_and, not_lt]
  exact fun hctx hpage => h x hmem q hq hcore hctx hpage

theorem execSideLogReplay_eq (core seq : Nat) : exec (.sideLogReplay core seq) s =
    match s.m.writes.find? (s.replays core seq) with
    | none => .next s
    | some w => .next (if s.olderLogged core seq w then s else s.modWEnt w.id (WEnt.inState .queued)) := rfl

theorem find?_unique {α : Type} {p : α → Bool} {l : List α} {a : α} (ha : a ∈ l) (hp : p a = true) (h : ∀ x ∈ l, p x = true → x = a) :
    l.find? p = some a := by
  cases hf : l.find? p with
  | none => exact absurd hp (List.find?_eq_none.1 hf a ha)
  | some x => rw [h x (List.mem_of_find?_eq_some hf) (List.find?_some hf)]

section
variable {w : WEnt} {seq : Nat} (huniq : ∀ x ∈ s.m.writes, x.who.core = w.who.core → x.state = .logged seq → x = w)
include huniq

/-- An entry goes out again when its page is mapped and no older entry of its page is logged. -/
theorem execSideLogReplay_mapped {f : Xl} (hw : s.write? w.id = some w) (hstate : w.state = .logged seq)
    (hx : s.xlate w.home w.ctx w.ia = .ok f) (hold : ∀ x ∈ s.m.writes, ∀ q, x.state = .logged q → x.who.core = w.who.core →
      x.ctx = w.ctx → s.samePage w.ctx w.ia x.ia = true → seq ≤ q) :
    exec (.sideLogReplay w.who.core seq) s = .next (s.modWEnt w.id (WEnt.inState .queued)) := by
  have hfind : s.m.writes.find? (s.replays w.who.core seq) = some w :=
    find?_unique (List.mem_of_find?_eq_some hw) (State.replays_iff.2 ⟨rfl, hstate, by simp [hx]⟩) fun x hmem hr =>
      huniq x hmem (State.replays_iff.1 hr).1 (State.replays_iff.1 hr).2.1
  rw [execSideLogReplay_eq, hfind]
  simp only [State.olderLogged_eq_false hold, Bool.false_eq_true, if_false]

theorem execSideLogReplay_unmapped {l : Nat} (hx : s.xlate w.home w.ctx w.ia = .fault l) :
    exec (.sideLogReplay w.who.core seq) s = .next s := by
  have hfind : s.m.writes.find? (s.replays w.who.core seq) = none := List.find?_eq_none.2 fun x hmem hr => by
    obtain ⟨hcore, hstate, hmapped⟩ := State.replays_iff.1 hr
    exact hmapped l (huniq x hmem hcore hstate ▸ hx)
  rw [execSideLogReplay_eq, hfind]

end

/-! Refused requests. -/

/-- A hint that has elapsed is gone. -/
def elapse (now r : Nat) : Nat := if r ≤ now then 0 else r

theorem elapse_spec (now r : Nat) : elapse now r = 0 ∨ now < elapse now r := by
  unfold elapse
  split
  · exact .inl rfl
  · exact .inr (by omega)

def WEnt.resent (now : Nat) (w : WEnt) : WEnt :=
  match w.state with
  | .retry t => if t ≤ now then { w with state := .queued } else w
  | _ => w

def RReq.resent (now : Nat) (r : RReq) : RReq := { r with secs := r.secs.map fun x => { x with retry := elapse now x.retry } }

theorem WEnt.resent_id (now : Nat) (w : WEnt) : (w.resent now).id = w.id := by
  unfold WEnt.resent
  split
  · split <;> rfl
  · rfl

/-- The read with this id is sent again for every lane of its bundle. -/
def State.resendsRead (s : State) (id : Nat) (r : RReq) : Bool :=
  r.id == id || match s.read? id with
    | some q => q.view && q.bundled r
    | none => false

/-- The state in which the refused requests of an id whose hint has elapsed go out again. -/
def State.resent (s : State) (id : Nat) : State := { s with
  m := { s.m with
    reads := s.m.reads.map fun r => if s.resendsRead id r then r.resent s.now else r
    writes := s.m.writes.map fun w => if w.id == id then w.resent s.now else w
    atoms := s.m.atoms.map fun a => if a.id == id then { a with retry := elapse s.now a.retry } else a
    leases := s.m.leases.map fun l => if l.id == id then { l with retry := elapse s.now l.retry } else l } }

theorem execRetryResend_eq (id : Nat) : exec (.retryResend id) s = .next (s.resent id) := rfl

theorem State.resent_write {id : Nat} {w : WEnt} {t : Nat} (hw : s.write? id = some w) (hstate : w.state = .retry t) (ht : t ≤ s.now) :
    (s.resent id).write? id = some { w with state := .queued } := by
  have hmap : (s.resent id).write? id = (s.write? id).map fun w => if w.id == id then w.resent s.now else w :=
    find?_map_key WEnt.id _ (fun w => by split <;> simp [WEnt.resent_id]) id s.m.writes
  rw [hmap, hw, Option.map_some, State.write?_id hw]
  simp [WEnt.resent, hstate, ht, State.write?_id hw]

theorem State.resent_reads {id : Nat} {r : RReq} (hr : r ∈ (s.resent id).m.reads) (hid : r.id = id) (x : RSec) (hx : x ∈ r.secs) :
    x.retry = 0 ∨ s.now < x.retry := by
  obtain ⟨q, -, rfl⟩ := List.mem_map.1 hr
  by_cases hq : s.resendsRead id q = true
  · rw [if_pos hq] at hx
    obtain ⟨y, -, rfl⟩ := List.mem_map.1 hx
    exact elapse_spec ..
  · rw [if_neg hq] at hid
    exact absurd (by simp [State.resendsRead, hid]) hq

theorem State.resent_atoms {id : Nat} {a : AReq} (ha : a ∈ (s.resent id).m.atoms) (hid : a.id = id) : a.retry = 0 ∨ s.now < a.retry := by
  obtain ⟨b, -, rfl⟩ := List.mem_map.1 ha
  by_cases hb : (b.id == id) = true
  · rw [if_pos hb]
    exact elapse_spec ..
  · rw [if_neg hb] at hid
    exact absurd (beq_iff_eq.2 hid) hb

theorem State.resent_leases {id : Nat} {l : LeaseEnt} (hl : l ∈ (s.resent id).m.leases) (hid : l.id = id) :
    l.retry = 0 ∨ s.now < l.retry := by
  obtain ⟨b, -, rfl⟩ := List.mem_map.1 hl
  by_cases hb : (b.id == id) = true
  · rw [if_pos hb]
    exact elapse_spec ..
  · rw [if_neg hb] at hid
    exact absurd (beq_iff_eq.2 hid) hb

/-- Settles O48: a walk by what the tables give, the side log by the entry of its number, a resend by the hint. -/
theorem translationAndSideLog : Obligations.TranslationAndSideLog := by
  refine fun s => ⟨fun die ctx ia l pa hst acc hwait hrun hmiss => ⟨fun hacc => ?denied, fun hacc hw => ?leaf, fun hacc hw => ?miss⟩,
    fun w hw hstate hord hmiss hroom hbehind hlen => ?retire, fun w seq f hw hstate huniq hold => ⟨fun hx => ?replay, fun l hx => ?held⟩,
    fun id => ?resend⟩
  case denied => exact execPageWalk_unwanted (walkWanted_denied hacc)
  case leaf =>
    obtain ⟨old, hx⟩ := execPageWalk_leaf (walkWanted_of_waiting hacc hwait) hrun hmiss hw
    exact ⟨_, _, hx, sameBytes_iff.2 rfl, List.mem_append_right _ List.mem_cons_self, rfl, rfl, rfl, rfl, rfl, rfl, rfl⟩
  case miss =>
    refine ⟨_, s.missOf die ctx ia l acc, execPageWalk_miss (walkWanted_of_waiting hacc hwait) hrun hmiss hw, ?_, rfl, rfl, rfl, rfl, rfl, rfl⟩
    rw [State.pageFault_missing hmiss]
    exact List.mem_append_right _ List.mem_cons_self
  case retire =>
    refine ⟨_, _, execSideLogRetire_logs hw hstate hord hmiss hroom hbehind, sameBytes_iff.2 rfl,
      State.write?_modWEnt_self (s := s.takeSeq w.who.core) hw fun _ => rfl, rfl, rfl, rfl, rfl, ?_⟩
    show (s.m.nextSeq.set w.who.core _).getD w.who.core 1 = _
    simp [List.getD, hlen]
  case replay =>
    exact ⟨_, _, execSideLogReplay_mapped huniq hw hstate hx hold, sameBytes_iff.2 rfl, State.write?_modWEnt_self hw fun _ => rfl, rfl⟩
  case held => exact execSideLogReplay_unmapped huniq hx
  case resend =>
    exact ⟨_, execRetryResend_eq id, sameBytes_iff.2 rfl, rfl, fun w t hw hstate ht => ⟨_, State.resent_write hw hstate ht, rfl⟩,
      fun r hr hid => State.resent_reads hr hid, fun a ha hid => State.resent_atoms ha hid, fun l hl hid => State.resent_leases hl hid⟩

end Sys2Proof.Machine
end

section
/-! SUPPORT. Bytes and poison of a frame (R115, R119, R120), and what room for a sector leaves alone (R112). -/

namespace Sys2Proof.Machine

variable {s : State} {m : Mem}

/-! Bytes and poison of a frame. -/

/-- Device or host memory. -/
def Mem.bank (m : Mem) (hst : Bool) : List Host.Cell := if hst then m.host else m.cells

theorem Mem.canon.bank (h : m.canon) (hst : Bool) : Memory.wf (m.bank hst) = true := by
  obtain ⟨hcells, hhost, -⟩ := h
  cases hst
  · exact hcells
  · exact hhost

theorem cellsGet_getD {a n k : Nat} {l : List Host.Cell} (hk : k < n) (b : Byte) : (cellsGet a n l).getD k b = cellGet (a + k) l := by
  simp [cellsGet, List.getD, hk]

theorem Mem.bytesAt_eq (m : Mem) (x : Xl) (n : Nat) : m.bytesAt x n = cellsGet x.pa n (m.bank x.hst) := rfl

theorem Mem.setBytes_bank (m : Mem) (x : Xl) (bs : List Byte) : (m.setBytes x bs).bank x.hst = cellsSet x.pa bs (m.bank x.hst) := by
  unfold Mem.setBytes
  split
  · next h => simp [Mem.bank, h]
  · next h => simp [Mem.bank, h]

theorem Mem.setBytes_other (m : Mem) (x : Xl) (bs : List Byte) :
    if x.hst then (m.setBytes x bs).cells = m.cells else (m.setBytes x bs).host = m.host := by
  unfold Mem.setBytes
  split <;> rfl

theorem Mem.setBytes_poisonedAt (m : Mem) (x q : Xl) (bs : List Byte) : (m.setBytes x bs).poisonedAt q = m.poisonedAt q := by
  unfold Mem.setBytes
  split <;> rfl

theorem Mem.setPoison_cells (m : Mem) (x : Xl) (b : Bool) : (m.setPoison x b).cells = m.cells := by
  unfold Mem.setPoison
  split <;> rfl

theorem Mem.setPoison_host (m : Mem) (x : Xl) (b : Bool) : (m.setPoison x b).host = m.host := by
  unfold Mem.setPoison
  split <;> rfl

/-- A sector that was made poisoned or ordinary is so, every other is as before. -/
theorem Mem.poisonedAt_setPoison (h : m.canon) (x q : Xl) (b : Bool) : (m.setPoison x b).poisonedAt q =
    if q.hst = x.hst ∧ sectorOf q.pa = sectorOf x.pa then b else m.poisonedAt q := by
  have hins (l : List Nat) (n k : Nat) : (nsInsert n l).contains k = (decide (k = n) || l.contains k) := by
    rw [Bool.eq_iff_iff]
    simp [mem_nsInsert]
  have her (n k : Nat) : (nsErase n m.hostPoison).contains k = (!decide (k = n) && m.hostPoison.contains k) := by
    rw [Bool.eq_iff_iff]
    simp [mem_nsErase h.2.2.2.1]
  unfold Mem.setPoison Mem.poisonedAt
  cases hx : x.hst <;> cases hq : q.hst
  · simp [Mem.marked_mark h]
  · simp [Mem.mark]
  · simp [Mem.marked]
  · by_cases hs : sectorOf q.pa = sectorOf x.pa
    · cases b <;> simp only [hs, hins, her, decide_true, if_true, Bool.true_or, Bool.not_true, Bool.false_and, and_self, if_false, Bool.false_eq_true]
    · cases b <;> simp only [hs, hins, her, decide_false, if_true, Bool.false_or, Bool.not_false, Bool.true_and, and_false, if_false, Bool.false_eq_true]

/-- Reading one byte after a write of a sector. -/
theorem Mem.setBytes_get (h : m.canon) (x : Xl) (bs : List Byte) (a : Nat) : cellGet a ((m.setBytes x bs).bank x.hst) =
    if x.pa ≤ a ∧ a < x.pa + bs.length then bs.getD (a - x.pa) 0 else cellGet a (m.bank x.hst) := by
  rw [Mem.setBytes_bank, cellGet_cellsSet (h.bank _)]

theorem maskWrite_length (mask : List Bool) (data old : List Byte) : (maskWrite mask data old).length = 32 := by
  simp [maskWrite]

theorem maskWrite_getD {k : Nat} (hk : k < 32) (mask : List Bool) (data old : List Byte) (b : Byte) :
    (maskWrite mask data old).getD k b = if mask.getD k false then data.getD k 0 else old.getD k 0 := by
  simp only [maskWrite, List.getD_eq_getElem?_getD, List.getElem?_map, List.getElem?_range hk, Option.map_some, Option.getD_some]

/-! Room for a sector. -/

/-- Bytes, poison and the reads and writes in flight. -/
def Mem.flight (m : Mem) : (List Host.Cell × List Host.Cell × List Nat × List Nat × List Nat) × List RReq × List WEnt :=
  (m.stores, m.reads, m.writes)

theorem Mem.freeSectors_flight (m : Mem) (now die ia n k : Nat) : (m.freeSectors now die ia n k).flight = m.flight := by
  induction k generalizing m with
  | zero => rfl
  | succ k ih =>
    unfold Mem.freeSectors
    split
    · rfl
    · dsimp only
      split
      · exact ih _
      · rfl

theorem Mem.install_flight (m : Mem) (now home ctx ia : Nat) (x : Xl) (part : Bool) :
    (m.install now home ctx ia x part).flight = m.flight := by
  unfold Mem.install
  dsimp only
  split
  · rfl
  · split
    · rfl
    · split
      · exact m.freeSectors_flight ..
      · exact m.freeSectors_flight ..

theorem State.lineRoom_flight {s' : State} {die ia : Nat} (h : s.lineRoom die ia = some s') : s'.m.flight = s.m.flight := by
  have hfree := s.m.freeSectors_flight s.now die ia 4 4
  unfold State.lineRoom at h
  dsimp only at h
  split at h
  · cases h
    exact hfree
  · split at h
    · cases h
      exact hfree
    · split at h
      · cases h
        exact hfree
      · cases h

theorem State.hostVisit_flight (s : State) (die ia : Nat) (x : Xl) : (s.hostVisit die ia x).m.flight = s.m.flight := by
  unfold State.hostVisit
  split
  · rfl
  · split
    · next s' hr => exact State.lineRoom_flight (s' := s') hr
    · rfl

theorem State.toM_flight (s : State) (r : Need) : (s.toM r).m.flight = s.m.flight := by
  unfold State.toM
  split
  · rfl
  · split
    · split <;> rfl
    · rfl

end Sys2Proof.Machine
end

section
/-! SUPPORT. A write arrives where it completes, and completes (R111, R114, R115, R120). -/

namespace Sys2Proof.Machine

variable {s : State}

/-! Bounds that a fold of maxima gives. -/

theorem le_foldl_max {α : Type} (f : Nat → α → Nat) (hf : ∀ n a, n ≤ f n a) (l : List α) (n : Nat) : n ≤ l.foldl f n := by
  induction l generalizing n with
  | nil => exact Nat.le_refl n
  | cons a l ih => exact (hf n a).trans (ih _)

theorem le_foldl_of_mem {α : Type} (f : Nat → α → Nat) (hf : ∀ n a, n ≤ f n a) {l : List α} {a : α} (ha : a ∈ l) {c : Nat}
    (hc : ∀ n, c ≤ f n a) (n : Nat) : c ≤ l.foldl f n := by
  induction l generalizing n with
  | nil => exact absurd ha (by simp)
  | cons b l ih =>
    obtain rfl | hmem := List.mem_cons.1 ha
    · exact (hc n).trans (le_foldl_max f hf l _)
    · exact ih hmem _

theorem Mem.le_tenEnd {m : Mem} {t : Ten} (h : t ∈ m.tenures) : t.till ≤ m.tenEnd t.die t.pa := by
  refine le_foldl_of_mem _ (fun n t => ?_) h (fun n => ?_) 0
  · split <;> omega
  · simp

theorem Mem.le_lineEnd {m : Mem} {t : Ten} {x : Xl} (h : t ∈ m.tenures) (hpa : t.pa = x.key) : t.till ≤ m.lineEnd t.die x := by
  have hk : x.pa / 32 % 4 ∈ List.range 4 := List.mem_range.2 (Nat.mod_lt _ (by omega))
  have hkey : ({ x with pa := x.pa / 128 * 128 + 32 * (x.pa / 32 % 4) } : Xl).key = x.key := by
    have hsec : (x.pa / 128 * 128 + 32 * (x.pa / 32 % 4)) / 32 = x.pa / 32 := by omega
    simp only [Xl.key, sectorOf, hsec]
  refine le_foldl_of_mem _ (fun n k => Nat.le_max_left ..) hk (fun n => ?_) 0
  rw [hkey, ← hpa]
  exact (Mem.le_tenEnd h).trans (Nat.le_max_right ..)

theorem Mem.le_lastPending {m : Mem} {y : WEnt} {c k : Nat} (h : y ∈ m.writes) (hs : y.state = .arrived c k) :
    c ≤ m.lastPending y.ctx y.ia := by
  refine le_foldl_of_mem _ (fun n w => ?_) h (fun n => ?_) 0
  · split
    · split <;> omega
    · exact Nat.le_refl n
  · simp [hs]

/-! Arrival. -/

/-- The cycle at which a write that arrives may complete. -/
def State.arrivalTime (s : State) (w : WEnt) (x : Xl) : Nat :=
  let n := w.plainNeed
  max s.now (max (if n.serving == n.home && !x.hst then s.m.lineEnd n.home x else s.m.tenEnd n.serving x.key) (s.m.lastPending w.ctx w.ia))

theorem State.now_le_arrivalTime (s : State) (w : WEnt) (x : Xl) : s.now ≤ s.arrivalTime w x := Nat.le_max_left ..

theorem State.tenure_le_arrivalTime {w : WEnt} {x : Xl} {t : Ten} (h : t ∈ s.m.tenures) (hdie : t.die = w.plainNeed.serving)
    (hpa : t.pa = x.key) : t.till ≤ s.arrivalTime w x := by
  unfold State.arrivalTime
  dsimp only
  split
  · next hc =>
    simp only [Bool.and_eq_true, beq_iff_eq] at hc
    obtain ⟨hserve, -⟩ := hc
    have hend := Mem.le_lineEnd h hpa
    rw [hdie, hserve] at hend
    omega
  · have hend := Mem.le_tenEnd h
    rw [hdie, hpa] at hend
    omega

theorem State.pending_le_arrivalTime {w y : WEnt} {x : Xl} {c k : Nat} (h : y ∈ s.m.writes) (hs : y.state = .arrived c k)
    (hctx : y.ctx = w.ctx) (hia : y.ia = w.ia) : c ≤ s.arrivalTime w x := by
  have hend := Mem.le_lastPending h hs
  rw [hctx, hia] at hend
  unfold State.arrivalTime
  dsimp only
  omega

/-- The state with the sector of a write that arrives present where it completes. -/
def State.arriveAt (s : State) (w : WEnt) (x : Xl) : State :=
  let s := s.toM w.plainNeed
  let m := if w.byp then s.m else s.m.install s.now w.home w.ctx w.ia x (!w.mask.all fun b => b)
  (({ s with m := m } : State).hostVisit w.plainNeed.die w.ia x).fresh

theorem State.arriveAt_flight (s : State) (w : WEnt) (x : Xl) : (s.arriveAt w x).m.flight = s.m.flight := by
  refine (State.hostVisit_flight ..).trans (Eq.trans ?_ (s.toM_flight w.plainNeed))
  show Mem.flight (if _ then _ else _) = _
  split
  · rfl
  · exact Mem.install_flight ..

theorem State.arrive_go {w : WEnt} {x : Xl} (h : s.gate w.plainNeed = .go x) : ∃ k,
    s.arrive w = (s.arriveAt w x).modWEnt w.id (WEnt.inState (.arrived (s.arrivalTime w x) k)) := by
  unfold State.arrive
  simp only [h]
  exact ⟨_, rfl⟩

/-! Completion. -/

theorem State.rewait_of_none {x : Xl} (h : ∀ q ∈ s.m.waits, q.key ≠ x.key) : s.rewait x = s := by
  have hnil : (s.m.waits.filter fun e => e.key == x.key) = [] := List.filter_eq_nil_iff.2 fun q hq => by simpa using h q hq
  unfold State.rewait
  rw [hnil]
  rfl

/-- The sector that holds a frame address. -/
def Xl.sec (x : Xl) : Xl := { x with pa := x.pa / 32 * 32 }

theorem Xl.sec_sectorOf (x : Xl) : sectorOf x.sec.pa = sectorOf x.pa := by
  simp [Xl.sec, sectorOf]

theorem Xl.sec_key (x : Xl) : x.sec.key = x.key := by
  show sectorOf x.sec.pa + _ = sectorOf x.pa + _
  rw [Xl.sec_sectorOf]
  rfl

/-- Memory after a masked write of one sector. -/
def Mem.written (m : Mem) (x : Xl) (mask : List Bool) (data : List Byte) (full : Bool) : Mem :=
  let m' := m.setBytes x.sec (maskWrite mask data (m.bytesAt x.sec 32))
  if full then m'.setPoison x.sec false else m'

section
variable {m : Mem} (h : m.canon) (x : Xl) (mask : List Bool) (data : List Byte) (full : Bool)

theorem Mem.written_bank (hst : Bool) : (m.written x mask data full).bank hst =
    (m.setBytes x.sec (maskWrite mask data (m.bytesAt x.sec 32))).bank hst := by
  unfold Mem.written Mem.bank
  cases full
  · rfl
  · simp only [if_true, Mem.setPoison_cells, Mem.setPoison_host]

theorem Mem.written_other :
    if x.hst then (m.written x mask data full).cells = m.cells else (m.written x mask data full).host = m.host := by
  have hother := m.setBytes_other x.sec (maskWrite mask data (m.bytesAt x.sec 32))
  have hcells := Mem.written_bank (m := m) x mask data full false
  have hhost := Mem.written_bank (m := m) x mask data full true
  simp only [Mem.bank, if_true, Bool.false_eq_true, if_false] at hcells hhost
  rw [hcells, hhost]
  exact hother

include h

theorem Mem.written_in {k : Nat} (hk : k < 32) : cellGet (x.sec.pa + k) ((m.written x mask data full).bank x.hst) =
    if mask.getD k false then data.getD k 0 else cellGet (x.sec.pa + k) (m.bank x.hst) := by
  rw [Mem.written_bank]
  refine (Mem.setBytes_get h x.sec _ _).trans ?_
  rw [maskWrite_length, if_pos (by omega), Nat.add_sub_cancel_left, maskWrite_getD hk, Mem.bytesAt_eq, cellsGet_getD hk]
  rfl

theorem Mem.written_out {a : Nat} (ha : a < x.sec.pa ∨ x.sec.pa + 32 ≤ a) :
    cellGet a ((m.written x mask data full).bank x.hst) = cellGet a (m.bank x.hst) := by
  rw [Mem.written_bank]
  refine (Mem.setBytes_get h x.sec _ _).trans ?_
  rw [maskWrite_length, if_neg (by omega)]
  rfl

theorem Mem.written_poisonedAt (q : Xl) : (m.written x mask data full).poisonedAt q =
    if full = true ∧ q.hst = x.hst ∧ sectorOf q.pa = sectorOf x.pa then false else m.poisonedAt q := by
  unfold Mem.written
  dsimp only
  cases full
  · simp [Mem.setBytes_poisonedAt]
  · rw [if_pos rfl, Mem.poisonedAt_setPoison (Mem.setBytes_canon h _ _), Mem.setBytes_poisonedAt, Xl.sec_sectorOf]
    simp only [true_and]
    rfl

end

theorem Mem.written_queues (m : Mem) (x : Xl) (mask : List Bool) (data : List Byte) (full : Bool) :
    (m.written x mask data full).waits = m.waits ∧ (m.written x mask data full).writes = m.writes := by
  have hset (bs : List Byte) : (m.setBytes x.sec bs).waits = m.waits ∧ (m.setBytes x.sec bs).writes = m.writes := by
    unfold Mem.setBytes
    split <;> exact ⟨rfl, rfl⟩
  have hpoison (m : Mem) : (m.setPoison x.sec false).waits = m.waits ∧ (m.setPoison x.sec false).writes = m.writes := by
    unfold Mem.setPoison
    split <;> exact ⟨rfl, rfl⟩
  cases full
  · exact hset _
  · exact ⟨(hpoison _).1.trans (hset _).1, (hpoison _).2.trans (hset _).2⟩

/-- A write has completed in its sector, but for the waits on it. -/
def State.completed (s : State) (ctx ia die : Nat) (x : Xl) (mask : List Bool) (data : List Byte) (full : Bool) : State :=
  { s with
    e := { s.e with sessions := s.e.sessions.map (Session.keep s.m x.sec) }
    m := { s.m.written x mask data full with watches := (s.m.written x mask data full).watches.map (Watch.bump ctx (secOf ia) die) } }

theorem State.complete_eq (s : State) (ctx ia die : Nat) (x : Xl) (mask : List Bool) (data : List Byte) (full : Bool) :
    s.complete ctx ia die x mask data full false true = (s.completed ctx ia die x mask data full).rewait x.sec := rfl

theorem State.complete_of_none {ctx ia die : Nat} {x : Xl} {mask : List Bool} {data : List Byte} {full : Bool}
    (h : ∀ q ∈ s.m.waits, q.key ≠ x.key) :
    s.complete ctx ia die x mask data full false true = s.completed ctx ia die x mask data full := by
  rw [State.complete_eq]
  refine State.rewait_of_none fun q hq => ?_
  rw [Xl.sec_key]
  exact h q ((Mem.written_queues ..).1 ▸ hq)

theorem execWriteComplete_eq {w : WEnt} {x : Xl} (hw : s.write? w.id = some w) (hcomp : s.completes w = true)
    (hx : s.xlate w.home w.ctx w.ia = .ok x) (hwaits : ∀ q ∈ s.m.waits, q.key ≠ x.key) :
    exec (.writeComplete w.id) s =
      .next ((s.dropWrite w.id).completed w.ctx w.ia w.plainNeed.serving x w.mask w.data w.full) := by
  rw [← State.complete_of_none (s := s.dropWrite w.id) hwaits]
  simp [exec, execWriteComplete, hw, hcomp, hx]

/-- Settles O20: the arrival time bounds what it must follow; a completion writes its bytes in the frame's sector. -/
theorem writeArrivalAndCompletion : Obligations.WriteArrivalAndCompletion := by
  refine ⟨⟨fun s w f hw hplain harr hgo hgate => ?arrive, fun s core ctx sec => ?expire⟩, fun s w f hcanon hw hcomp hx hwaits => ?complete⟩
  case arrive =>
    obtain ⟨k, harrive⟩ := State.arrive_go hgate
    have hflight := s.arriveAt_flight w f
    have hx : exec (.writeArrival w.id) s = .next (s.arrive w) := by
      simp [exec, execWriteArrival, hw, hplain, harr, hgo]
    have hfind : (s.arriveAt w f).write? w.id = some w := by
      have hwrites : (s.arriveAt w f).m.writes = s.m.writes := (congrArg (fun p => p.2.2) hflight :)
      rw [State.write?, hwrites]
      exact hw
    rw [harrive] at hx
    exact ⟨_, _, _, k, hx, sameBytes_iff.2 (congrArg Prod.fst hflight :), State.write?_modWEnt_self hfind fun _ => rfl, rfl, rfl, rfl,
      s.now_le_arrivalTime w f, fun t ht hdie hpa => State.tenure_le_arrivalTime ht hdie hpa,
      fun y hy u v hs hctx hia => State.pending_le_arrivalTime hy hs hctx hia⟩
  case expire =>
    refine ⟨_, rfl, sameBytes_iff.2 rfl, rfl, fun x => ?_, fun x => ?_⟩
    · simp only [List.mem_filter, Bool.not_eq_true', ← Bool.not_eq_true, Bool.and_eq_true, beq_iff_eq, decide_eq_true_eq, and_assoc]
    · simp [List.mem_filter]
  case complete =>
    have hdrop : (s.dropWrite w.id).m.canon := hcanon
    refine ⟨_, execWriteComplete_eq hw hcomp hx hwaits, fun y hy => ?_, rfl, fun k hk => Mem.written_in hdrop f w.mask w.data w.full hk,
      fun a ha => Mem.written_out hdrop f w.mask w.data w.full ha, Mem.written_other f w.mask w.data w.full, fun q hq => ?_, ?_⟩
    · have hmem : y ∈ (s.dropWrite w.id).m.writes := (Mem.written_queues ..).2 ▸ hy
      simpa using (List.mem_filter.1 hmem).2
    · refine (Mem.written_poisonedAt hdrop f w.mask w.data w.full q).trans (if_neg fun ⟨_, hhst, hsec⟩ => ?_)
      exact hq.elim (fun h => h hhst) fun h => h hsec
    · refine (Mem.written_poisonedAt hdrop f w.mask w.data w.full f).trans ?_
      cases w.full <;> simp [State.dropWrite, State.setWrites, Mem.poisonedAt, Mem.marked]

end Sys2Proof.Machine
end

section
/-! SUPPORT. Little-endian bytes, parts of a byte list, and the registers a load fills (R28, R119, R122). -/

namespace Sys2Proof.Machine

/-! Byte lists. -/

theorem leBytes_length (n x : Nat) : (leBytes n x).length = n := by
  induction n generalizing x with
  | zero => rfl
  | succ n ih => rw [leBytes, List.length_cons, ih]

theorem leBytes_getD {n k : Nat} (hk : k < n) (x : Nat) (b : Byte) : (leBytes n x).getD k b = BitVec.ofNat 8 (x / 256 ^ k) := by
  induction n generalizing x k with
  | zero => omega
  | succ n ih =>
    cases k with
    | zero => simp [leBytes]
    | succ k => rw [leBytes, List.getD_cons_succ, ih (by omega), Nat.div_div_eq_div_mul, pow_succ, Nat.mul_comm]

theorem splice_length {l bs : List Byte} {off : Nat} (h : off + bs.length ≤ l.length) : (splice l off bs).length = l.length := by
  simp only [splice, List.length_append, List.length_take, List.length_drop]
  omega

/-- Bytes of a list with a part replaced. -/
theorem splice_getD {l bs : List Byte} {off : Nat} (h : off + bs.length ≤ l.length) (k : Nat) (b : Byte) :
    (splice l off bs).getD k b = if off ≤ k ∧ k < off + bs.length then bs.getD (k - off) b else l.getD k b := by
  have htake : (l.take off).length = off := by rw [List.length_take]; omega
  simp only [splice, List.getD_eq_getElem?_getD]
  by_cases hlo : k < off
  · rw [if_neg (by omega), List.append_assoc, List.getElem?_append_left (by omega), List.getElem?_take_of_lt hlo]
  · by_cases hhi : k < off + bs.length
    · rw [if_pos (by omega), List.getElem?_append_left (by rw [List.length_append]; omega), List.getElem?_append_right (by omega), htake]
    · rw [if_neg (by omega), List.getElem?_append_right (by rw [List.length_append]; omega), List.length_append, htake, List.getElem?_drop]
      congr 2
      omega

/-- Four elements of a list from a place. -/
theorem take_four_drop {α : Type} {l : List α} {n : Nat} (h : n + 4 ≤ l.length) (a : α) :
    (l.drop n).take 4 = [l.getD n a, l.getD (n + 1) a, l.getD (n + 2) a, l.getD (n + 3) a] := by
  rw [List.drop_eq_getElem_cons (by omega), List.drop_eq_getElem_cons (by omega), List.drop_eq_getElem_cons (by omega),
    List.drop_eq_getElem_cons (by omega)]
  rw [List.getD_eq_getElem _ _ (by omega), List.getD_eq_getElem _ _ (by omega), List.getD_eq_getElem _ _ (by omega),
    List.getD_eq_getElem _ _ (by omega)]
  rfl

theorem toNat_append_eq {m n : Nat} (x : BitVec m) (y : BitVec n) : (x ++ y).toNat = x.toNat * 2 ^ n + y.toNat := by
  rw [BitVec.toNat_append, ← Nat.shiftLeft_add_eq_or_of_lt y.isLt, Nat.shiftLeft_eq]

theorem ofNat_leNat_one (b : Byte) : BitVec.ofNat 8 (leNat [b]) = b := by
  simp [leNat]

theorem ofNat_leNat_two (a b : Byte) : BitVec.ofNat 16 (leNat [a, b]) = b ++ a := by
  refine BitVec.eq_of_toNat_eq ?_
  have ha := a.isLt
  have hb := b.isLt
  simp only [toNat_append_eq, BitVec.toNat_ofNat, leNat]
  omega

theorem ofNat_leNat_four (a b c d : Byte) : BitVec.ofNat 32 (leNat [a, b, c, d]) = d ++ (c ++ (b ++ a)) := by
  refine BitVec.eq_of_toNat_eq ?_
  have ha := a.isLt
  have hb := b.isLt
  have hc := c.isLt
  have hd := d.isLt
  simp only [toNat_append_eq, BitVec.toNat_ofNat, leNat]
  omega

/-! The registers of a load. -/

/-- The word of register k of a load, by its bytes (R122). -/
def loadWord (z : Size) (sx : Bool) (byte : Nat → Byte) (k : Nat) : Word :=
  match z with
  | .byte => if sx then (byte 0).signExtend 32 else (byte 0).setWidth 32
  | .half => if sx then (byte 1 ++ byte 0).signExtend 32 else (byte 1 ++ byte 0).setWidth 32
  | _ => byte (4 * k + 3) ++ (byte (4 * k + 2) ++ (byte (4 * k + 1) ++ byte (4 * k)))

/-- A byte of register k of a load is poisoned. -/
def loadPoison (bs : List (Byte × Bool)) (k : Nat) : Bool := ((bs.drop (4 * k)).take 4).any (·.2)

theorem loadRegs_length (z : Size) (sx : Bool) (bs : List (Byte × Bool)) : (loadRegs z sx bs).length = z.group := by
  simp [loadRegs]

/-- A load of four bytes or more takes four of them for each register. -/
theorem loadPart_four {z : Size} {bs : List (Byte × Bool)} (hlen : bs.length = z.bytes) (hz : 4 ≤ z.bytes) {k : Nat} (hk : k < z.group) :
    (((bs.drop (4 * k)).take 4).map (·.1)) = [(bs.map (·.1)).getD (4 * k) 0, (bs.map (·.1)).getD (4 * k + 1) 0,
      (bs.map (·.1)).getD (4 * k + 2) 0, (bs.map (·.1)).getD (4 * k + 3) 0] := by
  have hfit : 4 * k + 4 ≤ bs.length := by
    rw [hlen]
    cases z <;> simp only [Size.group, Size.bytes, Size.val] at hk hz ⊢ <;> omega
  rw [List.map_take, List.map_drop, take_four_drop (by rwa [List.length_map]) 0]

/-- Register k of a load of as many bytes as its size. -/
theorem loadRegs_getElem? {z : Size} {bs : List (Byte × Bool)} (hlen : bs.length = z.bytes) (sx : Bool) {k : Nat} (hk : k < z.group) :
    (loadRegs z sx bs)[k]? = some (if loadPoison bs k then 0 else loadWord z sx (fun j => (bs.map (·.1)).getD j 0) k, loadPoison bs k) := by
  have hfour := loadPart_four (k := k) hlen
  simp only [loadRegs, List.getElem?_map, List.getElem?_range hk, Option.map_some]
  cases z with
  | byte =>
    obtain ⟨b, rfl⟩ := List.length_eq_one_iff.1 hlen
    obtain rfl : k = 0 := Nat.lt_one_iff.1 hk
    have hword : BitVec.ofNat 32 (leNat [b.1]) = b.1.setWidth 32 := by simp [leNat, ← BitVec.ofNat_toNat]
    show some (if _ then _ else if sx = true then (BitVec.ofNat 8 (leNat [b.1])).signExtend 32 else BitVec.ofNat 32 (leNat [b.1]), _) = _
    rw [ofNat_leNat_one, hword]
    rfl
  | half =>
    obtain ⟨b, c, rfl⟩ := List.length_eq_two.1 hlen
    obtain rfl : k = 0 := Nat.lt_one_iff.1 hk
    have hword : BitVec.ofNat 32 (leNat [b.1, c.1]) = (c.1 ++ b.1).setWidth 32 := by
      rw [← ofNat_leNat_two]
      refine BitVec.eq_of_toNat_eq ?_
      have hb := b.1.isLt
      have hc := c.1.isLt
      simp only [BitVec.toNat_ofNat, BitVec.toNat_setWidth, leNat]
      omega
    show some (if _ then _ else if sx = true then (BitVec.ofNat 16 (leNat [b.1, c.1])).signExtend 32
      else BitVec.ofNat 32 (leNat [b.1, c.1]), _) = _
    rw [ofNat_leNat_two, hword]
    rfl
  | word => rw [hfour (by decide) hk, ofNat_leNat_four]; rfl
  | double => rw [hfour (by decide) hk, ofNat_leNat_four]; rfl
  | quad => rw [hfour (by decide) hk, ofNat_leNat_four]; rfl

theorem loadWord_congr {z : Size} {f g : Nat → Byte} (sx : Bool) {k : Nat} (hk : k < z.group) (h : ∀ j < z.bytes, f j = g j) :
    loadWord z sx f k = loadWord z sx g k := by
  cases z <;> simp only [Size.group, Size.bytes, Size.val] at hk h <;> simp only [loadWord]
  case byte => rw [h 0 (by omega)]
  case half => rw [h 0 (by omega), h 1 (by omega)]
  all_goals rw [h _ (by omega), h (4 * k + 2) (by omega), h (4 * k + 1) (by omega), h (4 * k) (by omega)]

theorem loadPoison_eq_false {bs : List (Byte × Bool)} (h : ∀ b ∈ bs, b.2 = false) (k : Nat) : loadPoison bs k = false :=
  List.any_eq_false.2 fun b hb => by simp [h b (List.mem_of_mem_drop (List.mem_of_mem_take hb))]

/-! Registers that receive a list of words. -/

/-- The registers from one on receive words, each with its poison. -/
def Thread.loads (d : Nat) : List (Word × Bool) → Thread → Thread
  | [], t => t
  | q :: l, t => (t.setV d (.arrived q.1 q.2)).loads (d + 1) l

theorem Thread.loads_eq (d : Nat) (l : List (Word × Bool)) (t : Thread) : t.loads d l = { t with v := (t.loads d l).v } := by
  induction l generalizing d t with
  | nil => rfl
  | cons q l ih => rw [Thread.loads, ih]; rfl

theorem Thread.loads_length (d : Nat) (l : List (Word × Bool)) (t : Thread) : (t.loads d l).v.length = t.v.length := by
  induction l generalizing d t with
  | nil => rfl
  | cons q l ih => rw [Thread.loads, ih, Thread.setV_v, List.length_set]

theorem Thread.loads_other {d n : Nat} {l : List (Word × Bool)} (t : Thread) (h : n < d ∨ d + l.length ≤ n) :
    (t.loads d l).v.getD n {} = t.v.getD n {} := by
  induction l generalizing d t with
  | nil => rfl
  | cons q l ih =>
    rw [List.length_cons] at h
    rw [Thread.loads, ih _ (by omega), getD_setV (by omega)]

theorem Thread.loads_getD {d k : Nat} {l : List (Word × Bool)} {q : Word × Bool} (t : Thread) (hk : l[k]? = some q)
    (hlen : d + k < t.v.length) : (t.loads d l).v.getD (d + k) {} = .arrived q.1 q.2 := by
  induction l generalizing d k t with
  | nil => exact absurd hk (by simp)
  | cons p l ih =>
    rw [Thread.loads]
    cases k with
    | zero =>
      obtain rfl : p = q := by simpa using hk
      rw [Thread.loads_other _ (by omega), Nat.add_zero, getD_setV_self (by omega)]
    | succ k =>
      rw [show d + (k + 1) = d + 1 + k by omega]
      exact ih _ (by simpa using hk) (by rw [Thread.setV_v, List.length_set]; omega)

/-- Words delivered to consecutive registers. -/
theorem thread?_deliver_zipIdx (s : State) (c k n d i : Nat) (l : List (Word × Bool)) :
    ((l.zipIdx i).foldl (fun s q => s.deliver c k n (.v (d + q.2)) q.1.1 q.1.2) s).thread? c k n =
      (s.thread? c k n).map (Thread.loads (d + i) l) := by
  induction l generalizing s i with
  | nil => simp [Thread.loads]
  | cons q l ih =>
    rw [List.zipIdx_cons, List.foldl_cons, ih, thread?_deliver_v, Option.map_map]
    rfl

end Sys2Proof.Machine
end

section
/-! SUPPORT. The tile store: ldt, stt, own, tgive and ttake (R109, R110, R122, R125, R126). -/

namespace Sys2Proof.Machine

variable {e : Env} {h : Hdr} {z : Size} {sx : Bool} {d : Nat} {a b c : Src}

/-! Where a tile-store access leads. -/

theorem Env.tileAt_out {off n : Nat} (h : e.g.tile.length ≤ off) : e.tileAt off n = some 4 := if_pos h

theorem Env.tileAt_misaligned {off n : Nat} (h : off < e.g.tile.length) (hm : off % n ≠ 0) : e.tileAt off n = some 3 := by
  simp [Env.tileAt, h, hm]

theorem Env.tileAt_ok {off n : Nat} (h : off < e.g.tile.length) (hm : off % n = 0) : e.tileAt off n = none := by
  simp [Env.tileAt, h, hm]

/-- A load or store of the tile store waits while the granule is owned or its word is under test. -/
def Env.tileHeld (e : Env) (off n : Nat) : Bool := (e.g.gran? off).owned || e.tileTested off n

theorem Env.tileHeld_iff {off n : Nat} : e.tileHeld off n = true ↔ (e.g.gran? off).owned = true ∨ e.tileTested off n = true := by
  rw [Env.tileHeld, Bool.or_eq_true]

/-- Nothing is under test. -/
theorem Env.tileHeld_free {off n : Nat} (hown : (e.g.gran? off).owned = false) (htest : e.s.y.selfTests = []) :
    e.tileHeld off n = false := by
  rw [Env.tileHeld, hown, Bool.false_or, Env.tileTested, State.testing, htest, List.any_nil]

/-- What a tile-store access does, by where it leads: a fault, a wait, or the access. -/
def Env.tileRes (e : Env) (off n : Nat) (access : Res) : Res :=
  match e.tileAt off n with
  | some c => .trap c 0 (BitVec.ofNat 64 off) false
  | none => if e.tileHeld off n then .wait else access

section
variable {off n : Nat} {access : Res}

theorem Env.tileRes_out (h : e.g.tile.length ≤ off) : e.tileRes off n access = .trap 4 0 (BitVec.ofNat 64 off) false := by
  rw [Env.tileRes, Env.tileAt_out h]

theorem Env.tileRes_misaligned (h : off < e.g.tile.length) (hm : off % n ≠ 0) :
    e.tileRes off n access = .trap 3 0 (BitVec.ofNat 64 off) false := by
  rw [Env.tileRes, Env.tileAt_misaligned h hm]

theorem Env.tileRes_held (h : off < e.g.tile.length) (hm : off % n = 0) (hheld : e.tileHeld off n = true) :
    e.tileRes off n access = .wait := by
  rw [Env.tileRes, Env.tileAt_ok h hm]
  exact if_pos hheld

theorem Env.tileRes_free (h : off < e.g.tile.length) (hm : off % n = 0) (hfree : e.tileHeld off n = false) :
    e.tileRes off n access = access := by
  rw [Env.tileRes, Env.tileAt_ok h hm]
  exact if_neg (by simp [hfree])

end

/-- The faults and the waits of a tile-store access, in their order. -/
theorem tile_results {i : Instr} {n : Nat} (access : Env → Res) (hr : e.runs i)
    (hx : exec i e.s = threadOp i (fun e => e.tileRes (e.tileOff a b) n (access e)) e.s) :
    let off := (e.at_ i).tileOff a b
    (e.g.tile.length ≤ off → e.traps i 4 0 (BitVec.ofNat 64 off) e.t.pc) ∧
    (off < e.g.tile.length → off % n ≠ 0 → e.traps i 3 0 (BitVec.ofNat 64 off) e.t.pc) ∧
    (off < e.g.tile.length → off % n = 0 → e.tileHeld off n = true → e.leaves i e.s (Thread.waitIssue e.s.now)) ∧
    (off < e.g.tile.length → off % n = 0 → e.tileHeld off n = false → ∀ s, access (e.at_ i) = .done s → e.retires i s) := by
  intro off
  exact ⟨fun hout => threadOp_trap _ hx hr (Env.tileRes_out hout), fun hin hm => threadOp_trap _ hx hr (Env.tileRes_misaligned hin hm),
    fun hin hm hheld => threadOp_wait _ hx hr (Env.tileRes_held hin hm hheld),
    fun hin hm hfree s hs => threadOp_done _ hx hr ((Env.tileRes_free hin hm hfree).trans hs)⟩

/-! ldt. -/

/-- The bytes that an ldt reads, each with its poison. -/
def Env.tileBytes (e : Env) (off n : Nat) : List (Byte × Bool) :=
  (List.range n).map fun k => (e.g.tile.getD (off + k) 0, e.g.tpoi.contains ((off + k) / 4))

/-- The state in which an ldt's registers have their words. -/
def Env.tileLoaded (e : Env) (sx : Bool) (z : Size) (d off : Nat) : State :=
  (loadRegs z sx (e.tileBytes off z.bytes)).zipIdx.foldl (fun s q => s.deliver e.g.core e.g.slot e.t.tid (.v (d + q.2)) q.1.1 q.1.2) e.s

theorem execLdt_eq : exec (.ldt h sx z d a b) e.s = threadOp (.ldt h sx z d a b)
    (fun e => e.tileRes (e.tileOff a b) z.bytes (.done (e.tileLoaded sx z d (e.tileOff a b)))) e.s := rfl

theorem Env.tileBytes_clean {off n : Nat} (hclean : ∀ w ∈ e.g.tpoi, w * 4 + 4 ≤ off ∨ off + n ≤ w * 4) (q : Byte × Bool)
    (hq : q ∈ e.tileBytes off n) : q.2 = false := by
  obtain ⟨k, hk, rfl⟩ := List.mem_map.1 hq
  rw [List.mem_range] at hk
  by_contra hp
  have hmem : (off + k) / 4 ∈ e.g.tpoi := by simpa using hp
  have hout := hclean _ hmem
  omega

theorem Env.tileLoaded_thread (i : Instr) (off : Nat) (hr : e.runs i) :
    e.thr ((e.at_ i).tileLoaded sx z d off) = some (e.t.loads d (loadRegs z sx (e.tileBytes off z.bytes))) := by
  rw [Env.tileLoaded, Env.thr, Env.tid_at_, Env.g_at_, hr.issues.core, hr.issues.slot, thread?_deliver_zipIdx]
  simp only [Env.s_at_, hr.issues.thread?]
  rfl

theorem Env.tileBytes_getD {off n j : Nat} (hj : j < n) : ((e.tileBytes off n).map (·.1)).getD j 0 = e.g.tile.getD (off + j) 0 := by
  simp only [Env.tileBytes, List.map_map, List.getD_eq_getElem?_getD, List.getElem?_map, List.getElem?_range hj, Option.map_some,
    Option.getD_some, Function.comp_apply]

theorem Env.tileLoaded_got {i : Instr} {off : Nat} (hr : e.runs i) (hclean : ∀ w ∈ e.g.tpoi, w * 4 + 4 ≤ off ∨ off + z.bytes ≤ w * 4)
    {k : Nat} (hk : k < z.group) :
    e.got ((e.at_ i).tileLoaded sx z d off) (.v (d + k)) (loadWord z sx (fun j => e.g.tile.getD (off + j) 0) k) := by
  have hlen : (e.tileBytes off z.bytes).length = z.bytes := by simp [Env.tileBytes]
  have hreg := loadRegs_getElem? hlen sx hk
  rw [loadPoison_eq_false (Env.tileBytes_clean hclean), loadWord_congr sx hk fun j hj => Env.tileBytes_getD hj] at hreg
  exact fun hd => ⟨_, Env.tileLoaded_thread i off hr, Thread.loads_getD e.t hreg hd⟩

theorem Env.tileLoaded_m (e : Env) (off : Nat) : (e.tileLoaded sx z d off).m = e.s.m :=
  foldl_m _ (fun s _ => State.deliver_m s _ _ _ _ _ _) _ _

/-! stt. -/

/-- The bytes that an stt and the lower threads of its bundle write. -/
def Env.sttWritten (e : Env) (h : Hdr) (z : Size) (a b : Src) : List Nat :=
  (List.range z.bytes).map (e.tileOff a b + ·) ++ (e.peers h).flatMap fun e' => (List.range z.bytes).map (e'.tileOff a b + ·)

/-- The workgroup after an stt. -/
def Env.sttDone (e : Env) (h : Hdr) (z : Size) (a b c : Src) (g : Workgroup) : Workgroup :=
  { g with
    tile := splice g.tile (e.tileOff a b) (leBytes z.bytes (e.data z c))
    tpoi := clearTile g.tpoi (e.sttWritten h z a b) ((List.range ((z.bytes + 3) / 4)).map (e.tileOff a b / 4 + ·)) }

theorem execStt_eq : exec (.stt h z a b c) e.s = threadOp (.stt h z a b c)
    (fun e => e.tileRes (e.tileOff a b) z.bytes (.done (e.s.modWg e.g.core e.g.slot (e.sttDone h z a b c)))) e.s := rfl

theorem mem_of_mem_nsErase {x y : Nat} {l : List Nat} (h : y ∈ nsErase x l) : y ∈ l := by
  induction l with
  | nil => exact h
  | cons z l ih =>
    unfold nsErase at h
    split at h
    · exact List.mem_cons_of_mem _ h
    · split at h
      · exact h
      · obtain rfl | hl := List.mem_cons.1 h
        · exact List.mem_cons_self
        · exact List.mem_cons_of_mem _ (ih hl)

theorem mem_of_mem_clearTile {tpoi written words : List Nat} {w : Nat} (h : w ∈ clearTile tpoi written words) : w ∈ tpoi := by
  unfold clearTile at h
  induction words generalizing tpoi with
  | nil => exact h
  | cons x l ih =>
    have hl := ih h
    dsimp only at hl
    split at hl
    · exact mem_of_mem_nsErase hl
    · exact hl

/-- The workgroup of the thread after a change of it. -/
theorem Env.Issues.wg?_modWg (hi : e.Issues) {f : Workgroup → Workgroup} (hf : ∀ g, (f g).core = g.core ∧ (f g).slot = g.slot) :
    e.wg (e.s.modWg e.g.core e.g.slot f) = some (f e.g) := by
  rw [Env.wg, hi.core, hi.slot, State.wg?_modWg _ _ _ _ hf, hi.wg]
  rfl

/-- The thread after a word was delivered to it. -/
theorem Env.Issues.thread?_deliver (hi : e.Issues) {n : Nat} {x : Word} {p : Bool} :
    e.thr (e.s.deliver e.g.core e.g.slot e.t.tid (.v n) x p) = some (e.t.setV n (.arrived x p)) := by
  rw [Env.thr, hi.core, hi.slot, thread?_deliver_v, hi.thread?]
  rfl

/-! own. -/

theorem own_result (hr : e.runs (.own h d a)) :
    let off := ((e.at_ (.own h d a)).src a).toNat
    (e.g.tile.length ≤ off → e.traps (.own h d a) 4 0 (BitVec.ofNat 64 off) e.t.pc) ∧
    (off < e.g.tile.length → e.retires (.own h d a) (e.s.deliver e.g.core e.g.slot e.t.tid (.v d)
      (BitVec.ofNat 32 ((if (e.g.gran? off).owned then 2 ^ 31 else 0) + (if (e.g.gran? off).gv then 2 ^ 30 else 0) + (e.g.gran? off).ref)) false)) := by
  intro off
  refine ⟨fun hout => threadOp_trap _ rfl hr (if_pos hout), fun hin => threadOp_done _ rfl hr ?_⟩
  rw [← Env.tid_at_ e (.own h d a)]
  exact if_neg (Nat.not_le.2 hin)

/-! tgive and ttake. -/

theorem foldl_modify_getD {α : Type} {f : α → α} (hf : ∀ x, f (f x) = f x) (l : List Nat) {q : List α} {k : Nat} (hk : k < q.length) (x : α) :
    (l.foldl (fun q k => q.modify k f) q).getD k x = if k ∈ l then f (q.getD k x) else q.getD k x := by
  induction l generalizing q with
  | nil => rfl
  | cons j l ih =>
    rw [List.foldl_cons, ih (by rwa [List.length_modify])]
    have hget : (q.modify j f).getD k x = if j = k then f (q.getD k x) else q.getD k x := by
      simp only [List.getD_eq_getElem?_getD, List.getElem?_modify, List.getElem?_eq_getElem hk]
      split <;> rfl
    rw [hget]
    by_cases hj : j = k
    · subst hj
      simp [hf]
    · simp [hj, Ne.symm hj]

/-- The granules of a span. -/
def granSpan (x n : Nat) : List Nat := if n = 0 then [] else (List.range ((x + n - 1) / 1024 + 1 - x / 1024)).map (x / 1024 + ·)

theorem mem_granSpan {x n k : Nat} : k ∈ granSpan x n ↔ 0 < n ∧ x / 1024 ≤ k ∧ k ≤ (x + n - 1) / 1024 := by
  unfold granSpan
  split
  · next hn => simp [hn]
  · next hn =>
    rw [List.mem_map]
    constructor
    · rintro ⟨j, hj, rfl⟩
      rw [List.mem_range] at hj
      omega
    · rintro ⟨-, hlo, hhi⟩
      exact ⟨k - x / 1024, List.mem_range.2 (by omega), by omega⟩

theorem Env.granules_out (hn : 0 < (e.src b).toNat) (hout : e.g.gran.length * 1024 ≤ (e.src a).toNat + (e.src b).toNat - 1) :
    e.granules a b = none := by
  have hhi : e.g.gran.length ≤ ((e.src a).toNat + (e.src b).toNat - 1) / 1024 := (Nat.le_div_iff_mul_le (by omega)).2 hout
  simp [Env.granules, hn.ne', hhi]

theorem Env.granules_in (hin : (e.src b).toNat = 0 ∨ (e.src a).toNat + (e.src b).toNat ≤ e.g.gran.length * 1024) :
    e.granules a b = some (granSpan (e.src a).toNat (e.src b).toNat) := by
  unfold Env.granules granSpan
  by_cases hn : (e.src b).toNat = 0
  · simp [hn]
  · have hhi : ¬e.g.gran.length ≤ ((e.src a).toNat + (e.src b).toNat - 1) / 1024 := by
      rw [Nat.le_div_iff_mul_le (by omega)]
      omega
    simp only [beq_iff_eq, hn, if_false, hhi]

theorem Workgroup.setGv_gran (g : Workgroup) (l : List Nat) (v : Bool) {k : Nat} (hk : k < g.gran.length) :
    (g.setGv l v).gran.getD k {} = if k ∈ l then { g.gran.getD k {} with gv := v } else g.gran.getD k {} :=
  foldl_modify_getD (f := fun x : Gran => { x with gv := v }) (fun _ => rfl) l hk {}

/-- tgive and ttake: a fault, or the given bit of every granule of the span; a ttake waits while one is referred to. -/
theorem give_results {q : Instr × Bool} (hq : q ∈ [(Instr.tgive h a b, true), (Instr.ttake h a b, false)]) (hr : e.runs q.1) :
    let x := ((e.at_ q.1).src a).toNat
    let n := ((e.at_ q.1).src b).toNat
    let s := e.s.modWg e.g.core e.g.slot (·.setGv (granSpan x n) q.2)
    let quiet : Bool := (granSpan x n).all fun k => (e.g.gran.getD k {}).ref == 0
    (0 < n → e.g.gran.length * 1024 ≤ x + n - 1 → e.traps q.1 4 0 (((e.at_ q.1).src a).setWidth 64) e.t.pc) ∧
    (n = 0 ∨ x + n ≤ e.g.gran.length * 1024 → (q.2 = true ∨ quiet = true → e.retires q.1 s) ∧
      (q.2 = false → quiet = false → ∃ f l, e.blocks q.1 s (.ttake f l))) := by
  intro x n s quiet
  simp only [List.mem_cons, List.not_mem_nil, or_false] at hq
  have hout (hn : 0 < n) (hlen : e.g.gran.length * 1024 ≤ x + n - 1) : (e.at_ q.1).granules a b = none := Env.granules_out hn hlen
  have hin (hfit : n = 0 ∨ x + n ≤ e.g.gran.length * 1024) : (e.at_ q.1).granules a b = some (granSpan x n) := Env.granules_in hfit
  obtain rfl | rfl := hq
  · refine ⟨fun hn hlen => threadOp_trap _ rfl hr ?_, fun hfit => ⟨fun _ => threadOp_done _ rfl hr ?_, fun hfalse => nomatch hfalse⟩⟩
    · simp only [hout hn hlen]
    · simp only [hin hfit]
      rfl
  · refine ⟨fun hn hlen => threadOp_trap _ rfl hr ?_, fun hfit => ⟨fun hquiet => threadOp_done _ rfl hr ?_,
      fun _ hbusy => ⟨(granSpan x n).headD 0, (granSpan x n).length, threadOp_block _ rfl hr ?_⟩⟩⟩
    · simp only [hout hn hlen]
    · simp only [hin hfit]
      exact if_pos (hquiet.resolve_left Bool.false_ne_true)
    · simp only [hin hfit]
      exact if_neg (by rw [Bool.not_eq_true]; exact hbusy)

/-- Settles O21: a tile-store access by where it leads; own, tgive and ttake by their granules. -/
theorem tileStoreResults : Obligations.TileStoreResults := by
  refine fun e h z sx d a b c => ⟨fun i hi hr => ?faults, fun hr => ?ldt, fun hr => ?stt, fun hr => ?own, fun q hq hr => ?give⟩
  case faults =>
    simp only [List.mem_cons, List.not_mem_nil, or_false] at hi
    obtain rfl | rfl := hi
    · obtain ⟨hout, hmis, hheld, -⟩ := tile_results _ hr execLdt_eq
      exact ⟨hout, hmis, fun hin hm hw => hheld hin hm (Env.tileHeld_iff.2 hw)⟩
    · obtain ⟨hout, hmis, hheld, -⟩ := tile_results _ hr execStt_eq
      exact ⟨hout, hmis, fun hin hm hw => hheld hin hm (Env.tileHeld_iff.2 hw)⟩
  case ldt =>
    intro off hin hm hown htest hclean hfit
    obtain ⟨-, -, -, hdone⟩ := tile_results _ hr execLdt_eq
    refine ⟨_, hdone hin hm (Env.tileHeld_free hown htest) _ rfl, sameBytes_of_m (Env.tileLoaded_m _ off), fun k hk => ?_⟩
    have hgot := Env.tileLoaded_got (z := z) (sx := sx) (d := d) hr hclean hk
    cases z <;> exact hgot
  case stt =>
    intro off hin hm hown htest
    obtain ⟨-, -, -, hdone⟩ := tile_results _ hr execStt_eq
    have hlen := leBytes_length z.bytes ((e.at_ (.stt h z a b c)).data z c)
    have hfit : off + (leBytes z.bytes ((e.at_ (.stt h z a b c)).data z c)).length ≤ e.g.tile.length := by rwa [hlen]
    refine ⟨_, _, hdone (by have := bytes_pos z; omega) hm (Env.tileHeld_free hown htest) _ rfl, sameBytes_of_m rfl,
      hr.issues.wg?_modWg fun _ => ⟨rfl, rfl⟩, splice_length hfit, fun k hk => ?_, fun w hw => mem_of_mem_clearTile hw⟩
    refine (splice_getD hfit k 0).trans ?_
    rw [hlen]
    split
    · next hin => exact leBytes_getD (by omega) _ _
    · rfl
  case own =>
    obtain ⟨htrap, hdone⟩ := own_result hr
    refine ⟨htrap, fun hin => ⟨_, hdone hin, sameBytes_of_m rfl, fun hd => ⟨_, hr.issues.thread?_deliver, (getD_setV_self hd _).trans ?_⟩⟩⟩
    simp only [Gran.owned, Bool.or_eq_true, bne_iff_ne]
  case give =>
    intro x n
    obtain ⟨htrap, hin⟩ := give_results hq hr
    refine ⟨htrap, fun hfit => ⟨e.s.modWg e.g.core e.g.slot (·.setGv (granSpan x n) q.2), _, sameBytes_of_m rfl,
      hr.issues.wg?_modWg fun _ => ⟨rfl, rfl⟩, fun k hk => ?_, fun hnone => (hin hfit).1 (hnone.imp_right fun hzero => ?_),
      fun htake hsome => (hin hfit).2 htake ?_⟩⟩
    · rw [Workgroup.setGv_gran _ _ _ hk]
      simp only [mem_granSpan]
    · refine List.all_eq_true.2 fun k hk => beq_iff_eq.2 ?_
      obtain ⟨hn, hlo, hhi⟩ := mem_granSpan.1 hk
      exact hzero k hn hlo hhi
    · obtain ⟨k, hn, hlo, hhi, href⟩ := hsome
      exact List.all_eq_false.2 ⟨k, mem_granSpan.2 ⟨hn, hlo, hhi⟩, by simpa using href⟩

end Sys2Proof.Machine
end

section
/-! SUPPORT. Errors, self-tests, boot, attestation, keys and links (R119, R281, R287, R294, R303, R305, R306). -/

namespace Sys2Proof.Machine

variable {s : State}

/-- A record that the ring does not take is counted. -/
def State.lose (s : State) : State := { s with y := { s.y with evlost := s.y.evlost + 1 } }

theorem State.event_off (h : s.y.evOn = false) (kind ctx unit addr detail : Nat) : s.event kind ctx unit addr detail = s.lose :=
  s.event_lost _ _ _ _ _ (by rw [h, Bool.false_and])

/-! Errors and self-tests. -/

/-- The state in which an error of a sector has spoilt what it hit, and its self-test waits its turn. -/
def State.sectorError (s : State) (pa : Nat) (c : Bool) : State :=
  { s with
    m := if c then s.m else s.m.mark (sectorOf pa) true
    y := { s.y with selfTests := s.y.selfTests ++ [{ place := .sector pa, corrected := c }] } }

theorem execErrorDetect_sector (h : s.y.evOn = false) (pa : Nat) (c : Bool) :
    exec (.errorDetect (.sector pa) c) s = .next (s.sectorError pa c).lose := by
  have hoff : (s.sectorError pa c).y.evOn = false := h
  cases c <;> exact congrArg Host.Outcome.next (State.event_off hoff ..)

/-- What a self-test has found (R303): an array with a spare row left takes it for a lasting fault. -/
def State.testOutcome (s : State) (p : ErrPlace) (k : Nat) : Nat :=
  match s.array? p with
  | some a => if k == 1 then 1 else if s.y.spares.count a < 4 then 2 else 3
  | none => k

/-- The row that joins the repair list. -/
def State.testFix (s : State) (p : ErrPlace) (k : Nat) : List (Nat × Nat × Nat × Nat) :=
  match p with
  | .sector pa => if k == 2 && s.y.repairs.length < 4096 then [(stackOf pa, pchOf pa, bankOf pa, rowOf pa)] else []
  | _ => []

/-- The state in which the self-test at the front has ended. -/
def State.endTest (s : State) (l : List SelfTest) (p : ErrPlace) (k : Nat) : State :=
  { s with y := { s.y with
    selfTests := l
    repairs := s.y.repairs ++ s.testFix p k
    applied := s.y.applied ++ s.testFix p k
    spares := s.y.spares ++ if k == 2 then (s.array? p).toList else [] } }

theorem execSelfTestDone_off {k : Nat} {t : SelfTest} {l : List SelfTest} (hlo : 1 ≤ k) (hhi : k ≤ 3) (hoff : s.y.evOn = false)
    (h : s.y.selfTests = t :: l) : exec (.selfTestDone k) s = .next (s.endTest l t.place (s.testOutcome t.place k)).lose := by
  have hk : ¬(decide (k < 1) || decide (3 < k)) = true := by simp; omega
  have hoff' : (s.endTest l t.place (s.testOutcome t.place k)).y.evOn = false := hoff
  simp only [exec, execSelfTestDone, h]
  exact (if_neg hk).trans (congrArg Host.Outcome.next (State.event_off hoff' ..))

/-! Boot and attestation. -/

/-- An image passes its checks: it is signed, and no older than the minimum version (R305). -/
def State.imageOk (s : State) (signed : Bool) (v : Nat) : Bool := signed && decide (s.y.minVersion ≤ v)

theorem State.imageOk_iff {signed : Bool} {v : Nat} : s.imageOk signed v = true ↔ signed = true ∧ s.y.minVersion ≤ v := by
  rw [State.imageOk, Bool.and_eq_true, decide_eq_true_eq]

/-- The code of the first check of boot that failed, 0 when each passed. -/
def bootCodeOf (fw cfg rep : Bool) : Nat := if !fw then 1 else if !cfg then 2 else if !rep then 3 else 0

theorem bootCodeOf_eq_zero {fw cfg rep : Bool} : bootCodeOf fw cfg rep = 0 ↔ fw = true ∧ cfg = true ∧ rep = true := by
  cases fw <;> cases cfg <;> cases rep <;> decide

/-- The state after the checks of boot gave a code. -/
def State.bootedAs (s : State) (code : Nat) (v : Versions) : State :=
  { s with y := { s.y with
    booted := code == 0, bootCode := code, version := v.fw, cfgVersion := v.cfg, repVersion := v.repair
    applied := if code == 0 then s.y.repairs else s.y.applied } }

theorem execPowerOnBoot_eq (fw cfg repair : Bool) (v : Versions) (hboot : s.y.booted = false) (hcode : s.y.bootCode = 0) :
    exec (.powerOnBoot fw cfg repair v) s =
      .next (s.bootedAs (bootCodeOf (s.imageOk fw v.fw) (s.imageOk cfg v.cfg) (s.imageOk repair v.repair)) v) :=
  if_neg (by simp [hboot, hcode])

/-! Links. -/

/-- No command ends where no packet is on its way. -/
theorem endUnreachable_of_none (h : s.e.packets = []) : s.endUnreachable = s := by
  have hnil (p : Cmd → Packet → Bool) : (s.e.cmds.filter fun c => s.e.packets.any fun q => q.cmd == c.id && p c q) = [] :=
    List.filter_eq_nil_iff.2 fun c _ => by simp [h]
  unfold State.endUnreachable State.endPackets
  rw [hnil]
  rfl

/-- A port after a replay. -/
def Port.replayed (good : Bool) (p : Port) : Port :=
  if good then { p with replays := 0 } else if p.replays < 15 then { p with replays := p.replays + 1 } else { up := false, replays := 0 }

def State.setPort (s : State) (n : Nat) (p : Port) : State := { s with y := { s.y with ports := s.y.ports.set n p } }

theorem State.setPort_self {n : Nat} {p : Port} (hp : s.y.ports[n]? = some p) (q : Port) : (s.setPort n q).y.ports[n]? = some q :=
  List.getElem?_set_self (List.getElem?_eq_some_iff.1 hp).1

theorem execFlitReplay_up {n : Nat} {p : Port} (hp : s.y.ports[n]? = some p) (hup : p.up = true) (hpackets : s.e.packets = [])
    (good : Bool) : exec (.flitReplay { port := n, good := good }) s = .next (s.setPort n (p.replayed good)) := by
  have hget : s.y.ports.getD n { up := false } = p := by rw [List.getD_eq_getElem?_getD, hp, Option.getD_some]
  have hend : (s.setPort n { up := false, replays := 0 }).endUnreachable = s.setPort n { up := false, replays := 0 } :=
    endUnreachable_of_none hpackets
  simp only [exec, execFlitReplay, hget, hup, Bool.not_true, Bool.false_eq_true, if_false, Port.replayed]
  cases good
  · by_cases hrow : p.replays < 15
    · rw [if_neg (by decide), if_neg (by omega), if_neg (by decide), if_pos hrow]
      rfl
    · rw [if_neg (by decide), if_pos (by omega), if_neg (by decide), if_neg hrow]
      exact congrArg Host.Outcome.next hend
  · rfl

theorem portRetrain_port {n : Nat} {p : Port} (hp : s.y.ports[n]? = some p) :
    (s.y.ports.modify n fun _ => { up := true, replays := 0 })[n]? = some { up := true, replays := 0 } := by
  rw [List.getElem?_modify, hp]
  simp

/-- Settles O53: each event by what it writes; a record is lost where the ring is off. -/
theorem deviceEvents : Obligations.DeviceEvents := by
  refine fun s hcanon => ⟨fun pa c hoff => ?error, fun pa k c l htest hlo hhi hoff => ?sector, fun core slot tid v k c l htest hlo hhi hoff => ?reg,
    fun fw cfg repair v cv rv hboot hcode => ?boot, fun nonce => ?report, fun n key => ?key, fun n p hp hup hpackets => ?replay,
    fun n p hp => ?retrain, fun t => ⟨_, rfl, rfl, rfl, rfl⟩⟩
  case error =>
    refine ⟨_, execErrorDetect_sector hoff pa c, rfl, rfl, ?_, fun hc => ?_, fun hc => if_pos hc⟩
    · cases c <;> rfl
    · subst hc
      exact ⟨(Mem.marked_mark hcanon ..).trans (if_pos rfl), fun n hn => (Mem.marked_mark hcanon ..).trans (if_neg hn)⟩
  case sector =>
    refine ⟨_, execSelfTestDone_off hlo hhi hoff htest, rfl, rfl, rfl, congrArg (s.y.repairs ++ ·) ?_⟩
    simp only [State.testOutcome, State.array?, State.testFix, Bool.and_eq_true, beq_iff_eq, decide_eq_true_eq]
  case reg =>
    refine ⟨_, execSelfTestDone_off (by omega) hhi hoff htest, rfl, rfl, List.append_nil _, congrArg (s.y.spares ++ ·) ?_⟩
    have hout : s.testOutcome (.reg core slot tid v) k = if s.y.spares.count (unitCore core 0, 0) < 4 then 2 else 3 :=
      if_neg (by simp; omega)
    rw [hout]
    split <;> rfl
  case boot =>
    refine ⟨_, execPowerOnBoot_eq fw cfg repair { fw := v, cfg := cv, repair := rv } hboot hcode, rfl, rfl, rfl, rfl, rfl, ?_, ?_, fun hb => if_pos hb⟩
    · refine beq_iff_eq.trans (bootCodeOf_eq_zero.trans ?_)
      simp only [State.imageOk_iff, and_assoc]
    · exact beq_iff_eq.symm
  case report =>
    refine ⟨_, _, rfl, rfl, rfl, rfl, fun v hv => ?_⟩
    simp only [List.mem_cons, List.not_mem_nil, or_false] at hv
    obtain rfl | rfl | rfl | rfl := hv <;> simp
  case key =>
    refine ⟨_, rfl, rfl, ?_, fun q hq hn => ?_⟩
    · have hnone : (s.y.ideKeys.filter (·.1 != n)).find? (fun q => q.1 == n) = none :=
        List.find?_eq_none.2 fun q hq => by simpa using (List.mem_filter.1 hq).2
      show (s.y.ideKeys.filter (·.1 != n) ++ [(n, key)]).find? _ = _
      rw [List.find?_append, hnone]
      simp
    · exact List.mem_append_left _ (List.mem_filter.2 ⟨hq, by simpa using hn⟩)
  case replay =>
    exact ⟨⟨_, execFlitReplay_up hp hup hpackets true, rfl, State.setPort_self hp _⟩,
      ⟨_, execFlitReplay_up hp hup hpackets false, rfl, State.setPort_self hp _⟩⟩
  case retrain => exact ⟨_, rfl, rfl, portRetrain_port hp⟩

end Sys2Proof.Machine
end

section
/-! SUPPORT. A fault is acknowledged (R108, R274). -/

namespace Sys2Proof.Machine

variable {s : State} {m : Miss}

/-- The requests of a home at an IA are held on a missing unit. -/
def Miss.here (m : Miss) (home ia : Nat) : Bool := home == m.die && ctrlOf ia == m.ctrl && unitBase m.level ia == m.ia

def Miss.same (m x : Miss) : Bool := x.die == m.die && x.ctrl == m.ctrl && x.ctx == m.ctx && x.level == m.level && x.ia == m.ia

/-- The agent holds nothing on a missing unit any more. -/
def State.release (s : State) (m : Miss) : State := { s with m := { s.m with missing := s.m.missing.filter fun x => !m.same x } }

theorem State.release_one (h : s.m.missing = [m]) : (s.release m).m.missing = [] := by
  show s.m.missing.filter _ = []
  simp [h, Miss.same]

theorem State.ackUnits_one {x : Nat} (h : s.m.missing = [m]) (hres : x / 2 % 2 ^ 15 = 0)
    (hunit : unitBase m.level (x / 2 ^ 16 % 2 ^ 36 * 2 ^ 16) = m.ia) : s.ackUnits x = [m] := by
  have hfld : fld x 1 15 = 0 := hres
  have hunit' : unitBase m.level (fld x 16 36 * 2 ^ 16) = m.ia := hunit
  simp only [State.ackUnits, hfld, h, List.filter_cons, List.filter_nil, hunit', beq_self_eq_true, bne_self_eq_false, if_true, Bool.false_eq_true, if_false]

/-- A unit that is mapped now, with every request it holds. -/
theorem State.rewalk_mapped {l pa : Nat} {hst : Bool} (hunit : s.walk m.ctx m.ia = .leaf l pa hst)
    (hheld : ∀ ia ∈ s.heldOn m, ∃ l pa hst, s.walk m.ctx ia = .leaf l pa hst) : s.rewalk m = s.release m := by
  have hfold (ias : List Nat) (hleaf : ∀ ia ∈ ias, ∃ l pa hst, s.walk m.ctx ia = .leaf l pa hst) :
      ias.foldl (fun s ia => match s.walk m.ctx ia with
        | .miss l => s.pageFault m.die m.ctx ia l m.acc
        | .leaf _ _ _ => s) (s.release m) = s.release m := by
    induction ias with
    | nil => rfl
    | cons ia ias ih =>
      obtain ⟨l, pa, hst, hw⟩ := hleaf ia List.mem_cons_self
      have hw' : (s.release m).walk m.ctx ia = .leaf l pa hst := hw
      rw [List.foldl_cons, hw']
      exact ih fun ia hia => hleaf ia (List.mem_cons_of_mem _ hia)
  unfold State.rewalk
  rw [hunit]
  exact hfold _ hheld

/-! An unmappable unit: its requests end, and the context halts. -/

/-- The writes held on a missing unit are gone. -/
def State.endHeldWrites (s : State) (m : Miss) : State := s.setWrites fun ws => ws.filter fun w => !(w.ctx == m.ctx && m.here w.home w.ia)

/-- What the end of a held request leaves: bytes, missing units, writes and contexts. -/
def State.lasting (s : State) : (List Host.Cell × List Host.Cell × List Nat × List Nat × List Nat) × List Miss × List WEnt × List Context :=
  (s.m.stores, s.m.missing, s.m.writes, s.ctxs)

theorem State.lasting_of_calm {s s' : State} (h : s'.calm = s.calm) : s'.lasting = s.lasting := (congrArg State.lasting h :)

theorem State.letGo_calm (s : State) (w : Who) (id : Nat) : (s.letGo w id).calm = s.calm := State.mod_calm ..

theorem State.releaseTag_calm (s : State) (w : Who) (id : Nat) : (s.releaseTag w id).calm = s.calm := by
  unfold State.releaseTag
  split <;> rfl

theorem State.letGo_releaseTag_lasting (s : State) (w : Who) (id : Nat) : ((s.letGo w id).releaseTag w id).lasting = s.lasting :=
  State.lasting_of_calm ((State.releaseTag_calm ..).trans (State.letGo_calm ..))

theorem State.dropCmd_ctxs (s : State) (c : Cmd) : (s.dropCmd c).ctxs = s.ctxs := by
  unfold State.dropCmd
  dsimp only
  split <;> rfl

theorem State.answerCmd_ctxs (s : State) (c : Cmd) (v : Word) : (s.answerCmd c v).ctxs = s.ctxs := by
  unfold State.answerCmd
  split
  · split <;> rfl
  · rfl

theorem State.wordOf_ctxs (s : State) (c : Cmd) (f : Workgroup → Nat → Workgroup) : (s.wordOf c f).ctxs = s.ctxs := by
  unfold State.wordOf
  split <;> rfl

theorem State.refuseCmd_ctxs (s : State) (c : Cmd) (code : Nat) : (s.refuseCmd c code).ctxs = s.ctxs := by
  rw [State.refuseCmd, State.wordOf_ctxs, State.answerCmd_ctxs, State.dropCmd_ctxs]

theorem State.endError_ctxs (s : State) (c : Cmd) (code : Nat) : (s.endError c code).ctxs = s.ctxs :=
  (State.wordOf_ctxs ..).trans (State.dropCmd_ctxs ..)

theorem State.lasting_congr {s s' : State} (hm : s'.m = s.m) (hctxs : s'.ctxs = s.ctxs) : s'.lasting = s.lasting := by
  simp only [State.lasting, hm, hctxs]

theorem State.endHeldWrites_lasting {s s' : State} (h : s'.lasting = s.lasting) (m : Miss) :
    (s'.endHeldWrites m).lasting = (s.endHeldWrites m).lasting := by
  have hstores : s'.m.stores = s.m.stores := congrArg Prod.fst h
  have hmissing : s'.m.missing = s.m.missing := congrArg (fun p => p.2.1) h
  have hwrites : s'.m.writes = s.m.writes := congrArg (fun p => p.2.2.1) h
  have hctxs : s'.ctxs = s.ctxs := congrArg (fun p => p.2.2.2) h
  have hfilter : (s'.endHeldWrites m).m.writes = (s.endHeldWrites m).m.writes := congrArg (List.filter _) hwrites
  exact Prod.ext hstores (Prod.ext hmissing (Prod.ext hfilter hctxs))

theorem raiseHalt_ctxs {c : Nat} (hc : c < s.ctxs.length) (reason detail : Nat) (hr : reason ≠ 6) :
    (s.raiseHalt c reason detail).ctxs = s.ctxs.set c ((s.ctx c).raise 1 reason detail) := by
  show s.ctxs.modify c _ = _
  rw [List.modify_eq_set_getElem?, List.getElem?_eq_getElem hc]
  simp [State.ctx, List.getD_eq_getElem?_getD, hc, hr]

/-- What an unmappable unit leaves. -/
theorem State.unmappable_lasting (s : State) (m : Miss) : ∃ s' : State, s.unmappable m = s'.raiseHalt m.ctx 3 0 ∧
    s'.lasting = ((s.release m).endHeldWrites m).lasting := by
  unfold State.unmappable
  extract_lets here same mem released reads readsEnded atoms atomsEnded leases leasesEnded writesEnded cmds cmdsEnded wake wakeAll woken stuck dev refused
  have hreads : readsEnded.lasting = released.lasting := by
    refine foldl_keeps State.lasting _ (fun s r => ?_) _ _
    exact (s.dropRead r.id).letGo_releaseTag_lasting ..
  have hatoms : atomsEnded.lasting = readsEnded.lasting := by
    refine foldl_keeps State.lasting _ (fun s a => ?_) _ _
    refine (foldl_keeps State.lasting _ (fun s l => ?_) a.lanes (s.dropAtom a.id)).trans rfl
    exact s.letGo_releaseTag_lasting ..
  have hleases : leasesEnded.lasting = atomsEnded.lasting := by
    refine foldl_keeps State.lasting _ (fun s l => ?_) _ _
    exact (s.dropLease l.id).letGo_releaseTag_lasting ..
  have hcmds : cmdsEnded.lasting = writesEnded.lasting := by
    refine foldl_keeps State.lasting _ (fun s c => ?_) _ _
    split
    · exact State.lasting_congr (State.refuseCmd_m ..) (State.refuseCmd_ctxs ..)
    · exact State.lasting_congr (State.endError_m ..) (State.endError_ctxs ..)
  refine ⟨refused, rfl, ?_⟩
  calc refused.lasting
    _ = cmdsEnded.lasting := rfl
    _ = writesEnded.lasting := hcmds
    _ = (released.endHeldWrites m).lasting := State.endHeldWrites_lasting (hleases.trans (hatoms.trans hreads)) m

end Sys2Proof.Machine
end

section
/-! SUPPORT. Invalidation, the event ring and its records (R266, R273). -/

namespace Sys2Proof.Machine

variable {s : State}

/-! Invalidation. -/

theorem xlinvValue_toNat (x : Nat) : (xlinvValue x).toNat = 2 ^ 63 + x % 2 ^ 63 := by
  rw [xlinvValue, BitVec.toNat_ofNat]
  omega

/-- BSY set in a value. -/
theorem xlinvValue_eq_or (x : DWord) : xlinvValue x.toNat = x ||| 0x8000000000000000 := by
  refine BitVec.eq_of_getLsbD_eq fun i hi => ?_
  rw [BitVec.getLsbD, xlinvValue_toNat, BitVec.getLsbD_or]
  by_cases hi63 : i = 63
  · subst hi63
    rw [Nat.testBit_two_pow_add_eq, Nat.testBit_lt_two_pow (Nat.mod_lt _ (by decide))]
    simp
  · have hlt : i < 63 := by omega
    have hbit : (0x8000000000000000 : DWord).getLsbD i = false := by
      show Nat.testBit (2 ^ 63) i = false
      rw [Nat.testBit_two_pow, decide_eq_false (Ne.symm hi63)]
    rw [Nat.testBit_two_pow_add_gt hlt, Nat.testBit_mod_two_pow, hbit, decide_eq_true hlt, Bool.true_and, Bool.or_false]
    rfl

theorem xlinvValue_busy (x : Nat) : (xlinvValue x).getLsbD 63 = true := by
  rw [BitVec.getLsbD, xlinvValue_toNat, Nat.testBit_two_pow_add_eq, Nat.testBit_lt_two_pow (Nat.mod_lt _ (by decide))]
  rfl

theorem ofNat_mod_eq_and (x : DWord) : BitVec.ofNat 64 (x.toNat % 2 ^ 63) = x &&& 0x7FFFFFFFFFFFFFFF := by
  refine BitVec.eq_of_toNat_eq ?_
  have hmask : x.toNat &&& (0x7FFFFFFFFFFFFFFF : DWord).toNat = x.toNat % 2 ^ 63 := Nat.and_two_pow_sub_one_eq_mod x.toNat 63
  rw [BitVec.toNat_ofNat, BitVec.toNat_and, hmask]
  omega

/-- An invalidation reaches a cached translation. -/
def xlinvHits (x : Nat) (q : XEnt) : Bool :=
  q.ctx == fld x 8 6 && match xlinvRange x with
    | some r => overlaps (q.ia, levelSpan q.level) r
    | none => true

theorem xlinvEnd_busy (h : s.y.xlinv.getLsbD 63 = true) : ∃ l2 cache, s.xlinvEnd = { s with
    y := { s.y with xlinv := BitVec.ofNat 64 (s.y.xlinv.toNat % 2 ^ 63) }
    m := { s.m with xlat := s.m.xlat.filter fun q => !xlinvHits s.y.xlinv.toNat q, l2 := l2, cache := cache } } := by
  unfold State.xlinvEnd
  simp only [h, Bool.not_true, Bool.false_eq_true, if_false]
  exact ⟨_, _, rfl⟩

theorem xlinvRange_whole {x : Nat} (h : x % 16 / 4 = 3) : xlinvRange x = none := by
  have hfld : fld x 2 2 = 3 := by
    simp only [fld]
    omega
  simp only [xlinvRange, hfld]

theorem xlinvRange_unit {x k n : Nat} (hk : k = 0 ∧ n = 2 ^ 16 ∨ k = 1 ∧ n = 2 ^ 21 ∨ k = 2 ∧ n = 2 ^ 31) (h : x % 16 = 4 * k)
    (hres : x / 2 ^ 14 % 4 = 0 ∧ x / 2 ^ 4 % 16 = 0 ∧ x / 2 ^ 52 % 2 ^ 11 = 0) (hia : x / 2 ^ 16 % 2 ^ 36 * 2 ^ 16 % n = 0) :
    xlinvRange x = some (x / 2 ^ 16 % 2 ^ 36 * 2 ^ 16, n) := by
  obtain ⟨hmid, hlow, hhigh⟩ := hres
  have hsz : fld x 2 2 = k := by
    simp only [fld]
    omega
  have hzero : fld x 0 2 = 0 := by
    simp only [fld]
    omega
  have hbad : ¬(fld x 52 11 != 0 || fld x 14 2 != 0 || fld x 4 4 != 0 || fld x 0 2 != 0 || fld x 16 36 * 2 ^ 16 % n != 0) = true := by
    have h52 : fld x 52 11 = 0 := hhigh
    have h14 : fld x 14 2 = 0 := hmid
    have h4 : fld x 4 4 = 0 := hlow
    have h16 : fld x 16 36 * 2 ^ 16 % n = 0 := hia
    simp only [h52, h14, h4, hzero, h16, bne_self_eq_false, Bool.or_self, Bool.false_eq_true, not_false_eq_true]
  unfold xlinvRange
  dsimp only
  rw [hsz]
  obtain ⟨rfl, rfl⟩ | ⟨rfl, rfl⟩ | ⟨rfl, rfl⟩ := hk
  · exact if_neg hbad
  · exact if_neg hbad
  · exact if_neg hbad

/-- The bits of a value that an invalidation reads are those written with it. -/
theorem fld_xlinvValue (x : Nat) {k n : Nat} (h : k + n ≤ 63) : fld (xlinvValue x).toNat k n = fld x k n := by
  refine Nat.eq_of_testBit_eq fun i => ?_
  simp only [fld, xlinvValue_toNat, Nat.testBit_mod_two_pow, Nat.testBit_div_two_pow]
  by_cases hi : i < n
  · have hlt : i + k < 63 := by omega
    rw [Nat.testBit_two_pow_add_gt hlt, Nat.testBit_mod_two_pow, decide_eq_true hlt, Bool.true_and]
  · simp only [decide_eq_false hi, Bool.false_and]

theorem xlinvRange_xlinvValue (x : Nat) : xlinvRange (xlinvValue x).toNat = xlinvRange x := by
  have hfld {k n : Nat} (h : k + n ≤ 63) := fld_xlinvValue x h
  simp only [xlinvRange, hfld (show 16 + 36 ≤ 63 by decide), hfld (show 2 + 2 ≤ 63 by decide), hfld (show 52 + 11 ≤ 63 by decide),
    hfld (show 14 + 2 ≤ 63 by decide), hfld (show 4 + 4 ≤ 63 by decide), hfld (show 0 + 2 ≤ 63 by decide)]

theorem xlinvHits_xlinvValue (x : Nat) : xlinvHits (xlinvValue x).toNat = xlinvHits x := by
  funext q
  rw [xlinvHits, xlinvHits, xlinvRange_xlinvValue, fld_xlinvValue x (show 8 + 6 ≤ 63 by decide)]

/-- The invalidation of a value that was written: the translations it reaches go, and BSY clears. -/
theorem xlinvDone_result {x : DWord} (h : s.y.xlinv = xlinvValue x.toNat) : ∃ t, exec .xlinvDone s = .next t ∧ t.m.stores = s.m.stores ∧
    t.y.xlinv = x &&& 0x7FFFFFFFFFFFFFFF ∧ ∀ q, q ∈ t.m.xlat ↔ q ∈ s.m.xlat ∧ xlinvHits x.toNat q = false := by
  obtain ⟨l2, cache, hend⟩ := xlinvEnd_busy (s := s) (h ▸ xlinvValue_busy _)
  refine ⟨_, congrArg Host.Outcome.next hend, rfl, ?_, fun q => ?_⟩
  · have hmod : (2 ^ 63 + x.toNat % 2 ^ 63) % 2 ^ 63 = x.toNat % 2 ^ 63 := by omega
    show BitVec.ofNat 64 (s.y.xlinv.toNat % 2 ^ 63) = _
    rw [h, xlinvValue_toNat, hmod, ofNat_mod_eq_and]
  · rw [h, xlinvHits_xlinvValue, List.mem_filter, Bool.not_eq_true']

theorem xlinvHits_context {x : Nat} {q : XEnt} (h : q.ctx ≠ x / 2 ^ 8 % 2 ^ 6) : xlinvHits x q = false := by
  have hne : (q.ctx == fld x 8 6) = false := beq_false_of_ne h
  rw [xlinvHits, hne, Bool.false_and]

theorem xlinvHits_whole {x : Nat} {q : XEnt} (hx : x % 16 / 4 = 3) (h : q.ctx = x / 2 ^ 8 % 2 ^ 6) : xlinvHits x q = true := by
  have heq : (q.ctx == fld x 8 6) = true := beq_iff_eq.2 h
  rw [xlinvHits, heq, xlinvRange_whole hx, Bool.true_and]

theorem xlinvHits_range {x : Nat} {q : XEnt} {r : Nat × Nat} (hx : xlinvRange x = some r) (h : q.ctx = x / 2 ^ 8 % 2 ^ 6) :
    xlinvHits x q = true ↔ q.ia < r.1 + r.2 ∧ r.1 < q.ia + levelSpan q.level := by
  have heq : (q.ctx == fld x 8 6) = true := beq_iff_eq.2 h
  rw [xlinvHits, heq, hx, Bool.true_and]
  simp only [overlaps, Bool.and_eq_true, decide_eq_true_eq]

/-! The ring. -/

theorem flushMissing_recorded (h : ∀ m ∈ s.m.missing, m.recorded = true) : s.flushMissing = s := by
  have hstep (k : Nat) : (match s.m.missing[k]? with
      | none => s
      | some m =>
        if m.recorded || !s.y.evOn || s.y.evFull then s
        else
          let s := { s with m := { s.m with missing := s.m.missing.set k { m with recorded := true } } }
          s.event 1 m.ctx (unitCtrl m.die m.ctrl) m.ia (m.kind + m.ctx * 256)) = s := by
    cases hk : s.m.missing[k]? with
    | none => rfl
    | some m => exact if_pos (by rw [h m (List.mem_of_getElem? hk)]; rfl)
  unfold State.flushMissing
  exact List.foldl_fixed' hstep _

/-! Records. -/

theorem leNat_leBytes (n x : Nat) : leNat (leBytes n x) = x % 256 ^ n := by
  induction n generalizing x with
  | zero => simp [leBytes, leNat, Nat.mod_one]
  | succ n ih =>
    rw [leBytes, leNat, ih, BitVec.toNat_ofNat, show 256 ^ (n + 1) = 256 * 256 ^ n from Nat.pow_succ', Nat.mod_mul]

theorem evBytes_length (kind src addr time detail : Nat) : (evBytes kind src addr time detail).length = 32 := rfl

/-- Part of what was written is read back. -/
theorem cellsGet_cellsSet {a off n : Nat} {bs : List Byte} {l : List Host.Cell} (h : Memory.wf l = true) (hfit : off + n ≤ bs.length) :
    cellsGet (a + off) n (cellsSet a bs l) = (bs.drop off).take n := by
  refine List.ext_getElem? fun k => ?_
  rw [List.getElem?_take]
  split
  · next hk =>
    rw [List.getElem?_drop, cellsGet, List.getElem?_map, List.getElem?_range hk, Option.map_some, cellGet_cellsSet h,
      if_pos (by omega), List.getElem?_eq_getElem (by omega), List.getD_eq_getElem _ _ (by omega)]
    congr 2
    omega
  · next hk => exact List.getElem?_eq_none (by simp [cellsGet]; omega)

theorem State.ringWrite_cells (s : State) (pa : Nat) (bs : List Byte) : (s.ringWrite pa bs).m.cells = cellsSet pa bs s.m.cells :=
  (congrArg (fun s => s.m.cells) (s.ringWrite_calm pa bs) :)

/-- Memory after a record has gone out. -/
theorem State.event_cells {kind ctx unit addr detail : Nat} (hon : s.y.evOn = true) (hroom : s.y.evFull = false)
    (hslot : paExists s.evSlot = true) : (s.event kind ctx unit addr detail).m.cells =
      cellsSet s.evSlot (s.evRecord kind ctx unit addr detail) s.m.cells := by
  rw [State.event_taken _ _ _ _ _ _ (by rw [hon, hroom]; rfl), if_pos hslot]
  exact s.ringWrite_cells ..

/-- A field of a record in the ring. -/
theorem State.event_field {kind ctx unit addr detail : Nat} (hcanon : s.m.canon) (hon : s.y.evOn = true) (hroom : s.y.evFull = false)
    (hslot : paExists s.evSlot = true) {off n : Nat} (h : off + n ≤ 32) :
    cellsGet (s.evSlot + off) n (s.event kind ctx unit addr detail).m.cells = ((s.evRecord kind ctx unit addr detail).drop off).take n := by
  rw [State.event_cells hon hroom hslot, cellsGet_cellsSet hcanon.1 h]

/-- The fields of a record. -/
theorem evBytes_fields (kind src addr time detail : Nat) :
    let bs := evBytes kind src addr time detail
    (bs.drop 0).take 4 = leBytes 4 kind ∧ (bs.drop 4).take 4 = leBytes 4 src ∧ (bs.drop 8).take 8 = leBytes 8 addr ∧
      (bs.drop 16).take 8 = leBytes 8 time ∧ (bs.drop 24).take 4 = leBytes 4 detail ∧ (bs.drop 28).take 4 = leBytes 4 0 :=
  ⟨rfl, rfl, rfl, rfl, rfl, rfl⟩

/-- A record that the ring takes: its fields in the slot at the head, and the head moves on. -/
theorem State.event_written {kind ctx unit addr detail : Nat} (hcanon : s.m.canon) (hkind : kind < 2 ^ 32) (hctx : ctx < 64)
    (hunit : unit < 2 ^ 13) (hdet : detail < 2 ^ 32) (haddr : addr < 2 ^ 64) (hptp : s.ptpNs < 2 ^ 64) (hon : s.y.evOn = true)
    (hroom : s.y.evFull = false) (hslot : paExists s.evSlot = true) :
    let s' := s.event kind ctx unit addr detail
    let at_ (off n : Nat) : Nat := leNat (cellsGet (s.evSlot + off) n s'.m.cells)
    at_ 0 4 = kind ∧ at_ 4 4 = ctx + unit * 2 ^ 16 ∧ at_ 8 8 = addr ∧ at_ 16 8 = s.ptpNs ∧ at_ 24 4 = detail ∧ at_ 28 4 = 0 ∧
      s'.y.evhead.toNat = (s.y.evhead.toNat + 1) % 1024 ∧ s'.y.msix = s.y.msix + 1 ∧
      ∀ a, a < s.evSlot ∨ s.evSlot + 32 ≤ a → cellGet a s'.m.cells = cellGet a s.m.cells := by
  intro s' at_
  have hfield {off n x : Nat} (h : off + n ≤ 32) (hx : ((s.evRecord kind ctx unit addr detail).drop off).take n = leBytes n x)
      (hlt : x < 256 ^ n) : at_ off n = x := by
    show leNat (cellsGet (s.evSlot + off) n (s.event kind ctx unit addr detail).m.cells) = x
    rw [State.event_field hcanon hon hroom hslot h, hx, leNat_leBytes, Nat.mod_eq_of_lt hlt]
  have hsrc : ctx % 64 + unit % 2 ^ 13 * 2 ^ 16 = ctx + unit * 2 ^ 16 := by omega
  have htaken := s.event_taken kind ctx unit addr detail (by rw [hon, hroom]; rfl)
  obtain ⟨hkind', hsrc', haddr', htime', hdet', hzero'⟩ := evBytes_fields kind (ctx % 64 + unit % 2 ^ 13 * 2 ^ 16) addr s.ptpNs detail
  refine ⟨hfield (by omega) hkind' (by omega), hfield (by omega) (hsrc ▸ hsrc') (by omega), hfield (by omega) haddr' (by omega),
    hfield (by omega) htime' (by omega), hfield (by omega) hdet' (by omega), hfield (by omega) hzero' (by omega), ?_, ?_, fun a ha => ?_⟩
  · rw [show s' = _ from htaken]
    show (BitVec.ofNat 32 _).toNat = _
    rw [BitVec.toNat_ofNat]
    omega
  · rw [show s' = _ from htaken]
  · rw [show s'.m.cells = _ from State.event_cells hon hroom hslot, cellGet_cellsSet hcanon.1,
      show (s.evRecord kind ctx unit addr detail).length = 32 from evBytes_length ..]
    exact if_neg (by omega)

/-- A missing unit's record that finds the ring full or off waits. -/
theorem State.pageFault_waits {home ctx ia level : Nat} {acc : Acc} (hoff : (s.y.evOn && !s.y.evFull) = false)
    (h : s.missing? home ctx ia = none) : s.pageFault home ctx ia level acc =
      { s with m := { s.m with missing := s.m.missing ++ [s.missOf home ctx ia level acc] } } := by
  unfold State.pageFault
  simp only [h]
  exact if_neg (by rw [hoff]; decide)

theorem evTaken_eq_false (h : s.y.evOn = false ∨ s.y.evFull = true) : (s.y.evOn && !s.y.evFull) = false := by
  obtain h | h := h <;> simp [h]

/-- Settles O38: an acknowledgement of the only missing unit, an invalidation by the range its value names, a record by its fields. -/
theorem faultAndRingRegisters : Obligations.FaultAndRingRegisters := by
  refine ⟨fun s => ⟨fun m x l pa hst hone hres hunit => ⟨fun hbit hw hheld => ?mapped, fun hbit hctx => ?unmappable⟩, fun x hidle => ?invalidate,
    fun x hbusy => ?busy, fun x hrec => ?tail, ⟨_, rfl, rfl, rfl, rfl, rfl⟩⟩, fun s kind ctx unit addr detail hcanon hkind hctx hunit hdet haddr hptp => ?record,
    fun s home ctx ia level acc hoff hmiss => ?held⟩
  case mapped =>
    have hx : exec (.faultackMap x) s = .next (s.release m) := by
      simp only [exec, execFaultackMap, State.faultack, State.ackUnits_one hone hres hunit, hbit]
      exact congrArg Host.Outcome.next (State.rewalk_mapped hw hheld)
    exact ⟨_, hx, sameBytes_iff.2 rfl, State.release_one hone, rfl⟩
  case unmappable =>
    obtain ⟨s', hraise, hlasting⟩ := s.unmappable_lasting m
    have hx : exec (.faultackUnmappable x) s = .next (s'.raiseHalt m.ctx 3 0) := by
      simp only [exec, execFaultackUnmappable, State.faultack, State.ackUnits_one hone hres hunit, hbit]
      exact congrArg Host.Outcome.next hraise
    have hctxs : s'.ctxs = s.ctxs := congrArg (fun p => p.2.2.2) hlasting
    have hwrites : s'.m.writes = ((s.release m).endHeldWrites m).m.writes := congrArg (fun p => p.2.2.1) hlasting
    have hmissing : s'.m.missing = (s.release m).m.missing := congrArg (fun p => p.2.1) hlasting
    refine ⟨_, hx, sameBytes_iff.2 (congrArg Prod.fst hlasting), hmissing.trans (State.release_one hone), fun w hw hheld => ?_, ?_⟩
    · obtain ⟨-, hgone⟩ := List.mem_filter.1 (hwrites ▸ hw)
      obtain ⟨hctx, hdie, hctrl, hia⟩ := hheld
      simp [Miss.here, hctx, hdie, hctrl, hia] at hgone
    · rw [raiseHalt_ctxs (by rwa [hctxs]) 3 0 (by decide), hctxs, State.ctx, State.ctx, hctxs]
  case invalidate =>
    refine ⟨_, congrArg Host.Outcome.next (if_neg (by rw [hidle]; decide)), rfl, xlinvValue_eq_or x, fun s'' hs hm => ?_⟩
    obtain ⟨t, ht, hstores, hidle, hmem⟩ := xlinvDone_result (s := s'') hs
    rw [hm] at hmem
    refine ⟨t, ht, sameBytes_iff.2 (hm ▸ hstores), hidle, fun q hq => ((hmem q).1 hq).1, fun q hq hctx => (hmem q).2 ⟨hq, xlinvHits_context hctx⟩,
      fun hwhole q hq hctx => ?_, fun k n hk hsz => ?_⟩
    · have hhit := ((hmem q).1 hq).2
      rw [xlinvHits_whole hwhole hctx] at hhit
      exact absurd hhit (by decide)
    · intro ia hit hmid hlow hhigh hia q hq hctx
      have hrange := xlinvHits_range (xlinvRange_unit hk hsz ⟨hmid, hlow, hhigh⟩ hia) hctx
      rw [hmem q, ← Bool.not_eq_true, hrange]
      exact and_iff_right hq
  case busy => exact congrArg Host.Outcome.next (if_pos hbusy)
  case tail =>
    refine ⟨_, congrArg Host.Outcome.next (flushMissing_recorded hrec), rfl, ?_, rfl⟩
    simp
  case record =>
    intro s' slot at_
    refine ⟨fun hw => s.event_wgs _ _ _ _ _ hw, s.event_ctxs _ _ _ _ _, fun hon hroom hslot => ?_, fun _ hoff => ?_⟩
    · exact State.event_written hcanon hkind hctx hunit hdet haddr hptp hon hroom hslot
    · have hlost : s' = s.lose := s.event_lost kind ctx unit addr detail (evTaken_eq_false hoff)
      rw [hlost]
      exact ⟨sameBytes_iff.2 rfl, rfl, rfl⟩
  case held =>
    intro s'
    have hwaits : s' = _ := State.pageFault_waits (level := level) (acc := acc) (evTaken_eq_false hoff) hmiss
    rw [hwaits]
    exact ⟨sameBytes_iff.2 rfl, rfl, _, rfl, evTaken_eq_false hoff, rfl, rfl, rfl⟩

end Sys2Proof.Machine
end

section
/-! SUPPORT. Bytes put into a write (R120, R139), and a write that is alone in its bundle (R118). -/

namespace Sys2Proof.Machine

variable {s : State}

/-! Bytes of a write. -/

/-- One byte put into a write: (byte in the sector, value, shadow offset). -/
def WEnt.putByte (x : WEnt) (q : Nat × Byte × Nat) : WEnt :=
  if x.mask.getD q.1 false && decide (q.2.2 < x.pri.getD q.1 0) then x
  else { x with mask := x.mask.set q.1 true, data := x.data.set q.1 q.2.1, pri := x.pri.set q.1 q.2.2 }

def WEnt.putBytes (x : WEnt) (l : List (Nat × Byte × Nat)) : WEnt := l.foldl WEnt.putByte x

theorem WEnt.put_eq (x : WEnt) (l : List (Nat × Byte × Nat)) : x.put l = { x.putBytes l with
    full := ((x.putBytes l).kind == .st || (x.putBytes l).kind == .pzap) && (x.putBytes l).mask.all fun b => b } := rfl

theorem WEnt.putByte_eq (x : WEnt) (q : Nat × Byte × Nat) :
    x.putByte q = { x with mask := (x.putByte q).mask, data := (x.putByte q).data, pri := (x.putByte q).pri } := by
  unfold WEnt.putByte
  split <;> rfl

/-- Only mask, bytes and shadow offsets change. -/
theorem WEnt.putBytes_eq (x : WEnt) (l : List (Nat × Byte × Nat)) :
    x.putBytes l = { x with mask := (x.putBytes l).mask, data := (x.putBytes l).data, pri := (x.putBytes l).pri } := by
  induction l generalizing x with
  | nil => rfl
  | cons q l ih =>
    have hl := ih (x.putByte q)
    have hq := x.putByte_eq q
    show (x.putByte q).putBytes l = { x with
      mask := ((x.putByte q).putBytes l).mask, data := ((x.putByte q).putBytes l).data, pri := ((x.putByte q).putBytes l).pri }
    rw [hl, hq]

/-- The write has room for a sector's bytes and none of them from a shadow offset. -/
structure WEnt.Blank (x : WEnt) : Prop where
  mask : x.mask.length = 32
  data : x.data.length = 32
  pri : ∀ k, x.pri.getD k 0 = 0

theorem WEnt.putByte_blank {x : WEnt} (h : x.Blank) (p : Nat) (b : Byte) :
    x.putByte (p, b, 0) = { x with mask := x.mask.set p true, data := x.data.set p b, pri := x.pri.set p 0 } := by
  refine if_neg ?_
  rw [h.pri p]
  simp

theorem getD_set_of_lt {α : Type} {l : List α} {p : Nat} (hp : p < l.length) (a d : α) (k : Nat) :
    (l.set p a).getD k d = if p = k then a else l.getD k d := by
  simp only [List.getD_eq_getElem?_getD, List.getElem?_set, hp, if_true]
  split <;> rfl

theorem WEnt.Blank.putByte {x : WEnt} (h : x.Blank) (p : Nat) (b : Byte) : (x.putByte (p, b, 0)).Blank := by
  rw [WEnt.putByte_blank h]
  refine ⟨by rw [List.length_set, h.mask], by rw [List.length_set, h.data], fun k => ?_⟩
  have hk := h.pri k
  simp only [List.getD_eq_getElem?_getD, List.getElem?_set] at hk ⊢
  split
  · split <;> rfl
  · exact hk

/-- Consecutive bytes put into a write. -/
theorem WEnt.putBytes_run {x : WEnt} (h : x.Blank) (off i : Nat) (bs : List Byte) (hfit : off + i + bs.length ≤ 32) (k : Nat) :
    let y := x.putBytes ((bs.zipIdx i).map fun q => (off + q.2, q.1, 0))
    y.Blank ∧ y.mask.getD k false = (x.mask.getD k false || decide (off + i ≤ k) && decide (k < off + i + bs.length)) ∧
      y.data.getD k 0 = if off + i ≤ k ∧ k < off + i + bs.length then bs.getD (k - (off + i)) 0 else x.data.getD k 0 := by
  induction bs generalizing x i with
  | nil =>
    refine ⟨h, ?_, ?_⟩
    · have hempty : (decide (off + i ≤ k) && decide (k < off + i + 0)) = false := by simp
      rw [List.length_nil, hempty, Bool.or_false]
      rfl
    · rw [List.length_nil, if_neg (by omega)]
      rfl
  | cons b bs ih =>
    rw [List.length_cons] at hfit
    obtain ⟨hblank, hmask, hdata⟩ := ih (h.putByte (off + i) b) (i + 1) (by omega)
    refine ⟨hblank, hmask.trans ?_, hdata.trans ?_⟩
    · rw [WEnt.putByte_blank h, getD_set_of_lt (by rw [h.mask]; omega), List.length_cons]
      by_cases hk : off + i = k
      · simp [hk]
      · rw [if_neg hk]
        congr 2
        · exact decide_eq_decide.2 (by omega)
        · exact decide_eq_decide.2 (by omega)
    · rw [WEnt.putByte_blank h, getD_set_of_lt (by rw [h.data]; omega), List.length_cons]
      by_cases hk : off + i = k
      · rw [if_neg (by omega), if_pos hk, if_pos (by omega), show k - (off + i) = 0 by omega]
        rfl
      · rw [if_neg hk]
        refine if_ctx_congr (by omega) (fun hin => ?_) fun _ => rfl
        rw [show k - (off + i) = k - (off + (i + 1)) + 1 by omega, List.getD_cons_succ]

/-! A write that joins no other. -/

/-- Nothing was written in the cycle of the write: it goes alone. -/
theorem State.addWrite_alone {w : WEnt} (h : ∀ x ∈ s.m.writes, x.cycle ≠ w.cycle) (l : List (Nat × Byte × Nat)) :
    s.addWrite w l = ({ s with nextId := s.nextId + 2 } : State).setWrites (· ++ [w.put l]) := by
  have hbundle (x : WEnt) (hx : x ∈ s.m.writes) : x.sameBundle w = false := by
    simp [WEnt.sameBundle, h x hx]
  have hfind : (s.m.writes.find? fun x => x.joins w) = none := List.find?_eq_none.2 fun x hx => by
    simp [WEnt.joins, hbundle x hx]
  have hlone : (s.m.writes.filter (·.sameBundle w)) = [] := List.filter_eq_nil_iff.2 fun x hx => by simp [hbundle x hx]
  unfold State.addWrite
  rw [hfind]
  refine if_pos ?_
  show ((s.m.writes ++ [w.put l]).filter (·.sameBundle w)).length < 2
  rw [List.filter_append, hlone, List.nil_append]
  have hone := List.length_filter_le (fun x : WEnt => x.sameBundle w) [w.put l]
  exact Nat.lt_of_le_of_lt hone Nat.one_lt_two

variable {e : Env}

/-- The write that a store sends to a sector. -/
def Env.storeWrite (e : Env) (va : DWord) (kind : WKind) (sc : Scope) (hn : Hint) (sec home : Nat) (l : List (Nat × Byte × Nat)) : WEnt :=
  let before := if kind == .strl then e.releaseIds sc else []
  let after := e.s.m.notTogether (e.s.leaseOf? e.who e.g.ctx (lineOf sec)) before
  (e.newWrite va sec home false kind sc (hn == .byp) after (if kind == .strl then e.t.lastW else 0) (l.map (·.1))).put l

/-- The state in which a store to one sector has sent its write. -/
def Env.stored (e : Env) (hn : Hint) (sec : Nat) (w : WEnt) : State :=
  (({ e.s with nextId := e.s.nextId + 2 } : State).setWrites (· ++ [w])).touch e.g.core e.g.ctx sec hn

theorem Env.sendStore_alone (h : ∀ x ∈ e.s.m.writes, x.cycle ≠ e.s.now) (va : DWord) (kind : WKind) (sc : Scope) (hn : Hint)
    (homeOf : Nat → Nat) {bytes : List (Nat × Byte × Nat)} {sec : Nat} (hne : bytes ≠ []) (hsec : ∀ q ∈ bytes, secOf q.1 = sec) :
    e.sendStore va kind sc hn homeOf bytes =
      e.stored hn sec (e.storeWrite va kind sc hn sec (homeOf sec) (bytes.map fun q => (q.1 % 32, q.2))) := by
  have hsecs : secsOf (bytes.map fun q => BSrc.mem q.1) = [sec] := secsOf_one (by simpa using hne) fun b hb => by
    obtain ⟨q, hq, rfl⟩ := List.mem_map.1 hb
    exact ⟨_, rfl, hsec q hq⟩
  have hmine : bytes.filter (fun q => secOf q.1 == sec) = bytes := List.filter_eq_self.2 fun q hq => beq_iff_eq.2 (hsec q hq)
  unfold Env.sendStore
  dsimp only
  rw [hsecs, List.foldl_cons, List.foldl_nil, hmine, State.addWrite_alone (by exact h)]
  rfl

end Sys2Proof.Machine
end

section
/-! SUPPORT. Stores, pzap and reductions to base memory (R118, R123, R146, R159, R271). -/

namespace Sys2Proof.Machine

variable {e : Env} {h : Hdr} {sc : Scope} {hn : Hint} {z : Size} {a : Reg} {b c : Src} {r : Range} {va : DWord}

/-! The thread as an instruction finds it. -/

theorem Env.pc_at_ (e : Env) (i : Instr) : (e.at_ i).t.pc = e.t.pc := (congrArg Thread.pc (latchClock_eq e i e.t) :)

theorem Env.lastW_at_ (e : Env) (i : Instr) : (e.at_ i).t.lastW = e.t.lastW := (congrArg Thread.lastW (latchClock_eq e i e.t) :)

theorem Env.releaseIds_at_ (e : Env) (i : Instr) (sc : Scope) : (e.at_ i).releaseIds sc = e.releaseIds sc := by
  have hbusy : (e.at_ i).t.wbusy = e.t.wbusy := (congrArg Thread.wbusy (latchClock_eq e i e.t) :)
  rw [Env.releaseIds, Env.releaseIds, Env.who_at_, hbusy, Env.s_at_]

theorem Env.mustQueue_at_ (e : Env) (i : Instr) (secs : List Nat) : (e.at_ i).mustQueue secs = e.mustQueue secs := by
  have hissues : (e.at_ i).issues = e.issues := by
    funext x
    rw [Env.issues, Env.issues, Env.pc_at_, Env.s_at_, Env.g_at_]
  rw [Env.mustQueue, Env.mustQueue, hissues, Env.who_at_, Env.s_at_, Env.g_at_]

theorem lineOf_secOf (ia : Nat) : lineOf (secOf ia) = lineOf ia := by
  unfold lineOf secOf
  omega

/-! The write of a store. -/

theorem getD_replicate_self {α : Type} (n k : Nat) (a : α) : (List.replicate n a).getD k a = a := by
  rw [List.getD_eq_getElem?_getD, List.getElem?_replicate]
  split <;> rfl

/-- A new write has no bytes yet. -/
theorem Env.newWrite_blank (sec home : Nat) (msa : Bool) (kind : WKind) (byp : Bool) (after : List Nat) (till : Nat) (bs : List Nat) :
    (e.newWrite va sec home msa kind sc byp after till bs).Blank  :=
  ⟨List.length_replicate, List.length_replicate, fun k => getD_replicate_self 32 k 0⟩

/-- A write holds n bytes of a number from a place in its sector. -/
def WEnt.holds (w : WEnt) (off n x : Nat) : Prop := ∀ k < 32,
  w.mask.getD k false = (decide (off ≤ k) && decide (k < off + n)) ∧
  (off ≤ k → k < off + n → w.data.getD k 0 = BitVec.ofNat 8 (x / 256 ^ (k - off)))

/-- Bytes of a number from a place in a sector. -/
def placed (off n x : Nat) : List (Nat × Byte × Nat) := (leBytes n x).zipIdx.map fun q => (off + q.2, q.1, 0)

theorem Env.storeWrite_holds (kind : WKind) (sec home : Nat) {off n : Nat} (hfit : off + n ≤ 32) (x : Nat) :
    (e.storeWrite va kind sc hn sec home (placed off n x)).holds off n x := by
  intro k hk
  have hblank := Env.newWrite_blank (e := e) (va := va) (sc := sc) sec home false kind (hn == .byp)
    (e.s.m.notTogether (e.s.leaseOf? e.who e.g.ctx (lineOf sec)) (if kind == .strl then e.releaseIds sc else []))
    (if kind == .strl then e.t.lastW else 0) ((placed off n x).map (·.1))
  have hlen := leBytes_length n x
  obtain ⟨-, hmask, hdata⟩ := WEnt.putBytes_run hblank off 0 (leBytes n x) (by omega) k
  rw [hlen] at hmask hdata
  refine ⟨hmask.trans ?_, fun hlo hhi => (hdata.trans (if_pos ⟨hlo, hhi⟩)).trans ?_⟩
  · show ((List.replicate 32 false).getD k false || _) = _
    rw [getD_replicate_self, Bool.false_or]
    rfl
  · exact leBytes_getD (by omega) x 0

/-- Where its bytes do not come from a view, a write has the fields it was made with. -/
theorem Env.storeWrite_eq (kind : WKind) (sec home : Nat) (l : List (Nat × Byte × Nat)) : ∃ mask data pri full,
    e.storeWrite va kind sc hn sec home l = { e.newWrite va sec home false kind sc (hn == .byp)
      (e.s.m.notTogether (e.s.leaseOf? e.who e.g.ctx (lineOf sec)) (if kind == .strl then e.releaseIds sc else []))
      (if kind == .strl then e.t.lastW else 0) (l.map (·.1)) with mask := mask, data := data, pri := pri, full := full } := by
  unfold Env.storeWrite
  dsimp only
  rw [WEnt.put_eq, WEnt.putBytes_eq]
  exact ⟨_, _, _, _, rfl⟩

/-- The bytes of a store in the sector they lie in. -/
theorem store_bytes {n : Nat} (hn : n ∣ 32) {ia : Nat} (hia : ia % n = 0) {bs : List Byte} (hlen : bs.length = n) :
    let bytes := bs.zipIdx.map fun q => (ia + q.2, q.1, 0)
    (∀ q ∈ bytes, secOf q.1 = secOf ia) ∧ (bytes.map fun q => (q.1 % 32, q.2)) = bs.zipIdx.map fun q => (ia % 32 + q.2, q.1, 0) := by
  have hin {q : Byte × Nat} (hq : q ∈ bs.zipIdx) : secOf (ia + q.2) = secOf ia :=
    secOf_add hn hia (by have := List.snd_lt_of_mem_zipIdx hq; omega)
  refine ⟨fun q hq => ?_, ?_⟩
  · obtain ⟨p, hp, rfl⟩ := List.mem_map.1 hq
    exact hin hp
  · rw [List.map_map]
    refine List.map_congr_left fun q hq => ?_
    have hsec := hin hq
    have hmod : (ia + q.2) % 32 = ia % 32 + q.2 := by
      unfold secOf at hsec
      omega
    simp [hmod]

theorem fits_sector {n : Nat} (hn : n ∣ 32) {ia : Nat} (hia : ia % n = 0) : ia % 32 + n ≤ 32 := by
  rcases Nat.eq_zero_or_pos n with rfl | hpos
  · omega
  · have hlast := secOf_add hn hia (Nat.sub_lt hpos Nat.one_pos)
    unfold secOf at hlast
    omega

/-- A store of base memory waits for a word under test or a place in the write queue, else it sends its write. -/
theorem Env.store_plain {k : WKind} (hp : e.plain (e.ea a b) z.bytes .write r) (hcycle : ∀ x ∈ e.s.m.writes, x.cycle ≠ e.s.now) :
    let ia := r.ia (e.ea a b)
    e.store h k sc hn z a b c = if e.s.cacheTested e.g.core e.g.ctx (secOf ia) || e.mustQueue [secOf ia] then .wait
      else .done (e.stored hn (secOf ia) (e.storeWrite (e.ea a b) k sc hn (secOf ia) (r.home ia) (placed (ia % 32) z.bytes (e.data z c)))) := by
  intro ia
  have hlen := leBytes_length z.bytes (e.data z c)
  have hia : ia % z.bytes = 0 := hp.ia_mod ((bytes_dvd_32 z).trans (by decide))
  obtain ⟨hsec, hplaced⟩ := store_bytes (bytes_dvd_32 z) hia hlen
  have hne : ((leBytes z.bytes (e.data z c)).zipIdx.map fun q => (ia + q.2, q.1, 0)) ≠ [] := fun hnil => by
    have hzero := congrArg List.length hnil
    rw [List.length_map, List.length_zipIdx, hlen] at hzero
    exact (bytes_pos z).ne' hzero
  simp only [Env.store, hp.locate]
  rw [Env.sendStore_alone hcycle (e.ea a b) k sc hn (fun _ => r.home ia) hne hsec, hplaced]
  rfl

/-! pzap. -/

theorem pzap_bytes (ia : Nat) :
    let bytes : List (Nat × Byte × Nat) := (List.range 32).map fun k => (secOf ia + k, 0, 0)
    (∀ q ∈ bytes, secOf q.1 = secOf ia) ∧ (bytes.map fun q => (q.1 % 32, q.2)) = placed 0 32 0 := by
  refine ⟨fun q hq => ?_, ?_⟩
  · obtain ⟨k, hk, rfl⟩ := List.mem_map.1 hq
    have hsec := secOf_add (n := 32) (Nat.dvd_refl 32) (ia := secOf ia) (Nat.mul_mod_left ..) (List.mem_range.1 hk)
    rwa [secOf_secOf] at hsec
  · have hplaced : placed 0 32 0 = (List.range 32).map fun k => (k, 0, 0) := by decide
    rw [hplaced, List.map_map]
    refine List.map_congr_left fun k hk => ?_
    have hmod : (secOf ia + k) % 32 = k := by
      have hlt := List.mem_range.1 hk
      unfold secOf
      omega
    simp [hmod]

theorem execPzap_plain {i : Instr} (hi : i = .pzap h sc a b) (hr : e.runs i) (hp : e.plain ((e.at_ i).ea a b) 1 .write r)
    (hcycle : ∀ x ∈ e.s.m.writes, x.cycle ≠ e.s.now) :
    let ia := r.ia ((e.at_ i).ea a b)
    (e.mustQueue [secOf ia] = true → e.leaves i e.s (Thread.waitIssue e.s.now)) ∧
    (e.mustQueue [secOf ia] = false → e.retires i ((e.at_ i).stored .dflt (secOf ia)
      ((e.at_ i).storeWrite ((e.at_ i).ea a b) .pzap sc .dflt (secOf ia) (r.home ia) (placed 0 32 0)))) := by
  subst hi
  intro ia
  obtain ⟨hsec, hplaced⟩ := pzap_bytes ia
  have hplain := (hp.at_ (.pzap h sc a b)).plainAt
  have hqueue := Env.mustQueue_at_ e (.pzap h sc a b) [secOf ia]
  refine ⟨fun hq => threadOp_wait _ rfl hr ?_, fun hq => threadOp_done _ rfl hr ?_⟩
  · simp only [hplain]
    exact if_pos (hqueue.trans hq)
  · simp only [hplain]
    refine (if_neg (by rw [hqueue, hq]; decide)).trans (congrArg Res.done ?_)
    rw [Env.sendStore_alone (e := e.at_ _) hcycle _ _ _ _ (fun _ => r.home ia) (by simp) hsec, hplaced]

theorem Env.storeWrite_mask_length (kind : WKind) (sec home : Nat) {off n : Nat} (hfit : off + n ≤ 32) (x : Nat) :
    (e.storeWrite va kind sc hn sec home (placed off n x)).mask.length = 32 := by
  have hblank := Env.newWrite_blank (e := e) (va := va) (sc := sc) sec home false kind (hn == .byp)
    (e.s.m.notTogether (e.s.leaseOf? e.who e.g.ctx (lineOf sec)) (if kind == .strl then e.releaseIds sc else []))
    (if kind == .strl then e.t.lastW else 0) ((placed off n x).map (·.1))
  exact (WEnt.putBytes_run hblank off 0 (leBytes n x) (by rw [leBytes_length]; omega) 0).1.mask

theorem Env.storeWrite_kind (kind : WKind) (sec home : Nat) (l : List (Nat × Byte × Nat)) :
    (e.storeWrite va kind sc hn sec home l).kind = kind := by
  obtain ⟨mask, data, pri, full, heq⟩ := Env.storeWrite_eq (e := e) (va := va) (sc := sc) (hn := hn) kind sec home l
  rw [heq]
  rfl

theorem Env.storeWrite_isFull (kind : WKind) (sec home : Nat) (l : List (Nat × Byte × Nat)) :
    (e.storeWrite va kind sc hn sec home l).full = ((kind == .st || kind == .pzap) && (e.storeWrite va kind sc hn sec home l).mask.all fun b => b) := by
  have hfull : (e.storeWrite va kind sc hn sec home l).full = (((e.storeWrite va kind sc hn sec home l).kind == .st ||
      (e.storeWrite va kind sc hn sec home l).kind == .pzap) && (e.storeWrite va kind sc hn sec home l).mask.all fun b => b) := rfl
  rw [hfull, Env.storeWrite_kind]

/-- A write that holds all 32 bytes is whole. -/
theorem Env.storeWrite_full {kind : WKind} (hkind : kind = .st ∨ kind = .pzap) (sec home : Nat) {n : Nat} (hn32 : n = 32) (x : Nat) :
    (e.storeWrite va kind sc hn sec home (placed 0 n x)).full = true := by
  have hlen := Env.storeWrite_mask_length (e := e) (va := va) (sc := sc) (hn := hn) kind sec home (off := 0) (n := n) (by omega) x
  have hall : (e.storeWrite va kind sc hn sec home (placed 0 n x)).mask.all (fun b => b) = true := List.all_eq_true.2 fun m hm => by
    obtain ⟨k, hk, rfl⟩ := List.mem_iff_getElem.1 hm
    have hbit := (Env.storeWrite_holds (e := e) (va := va) (sc := sc) (hn := hn) kind sec home (off := 0) (n := n) (by omega) x k (by omega)).1
    rw [List.getD_eq_getElem _ _ hk] at hbit
    rw [hbit, Bool.and_eq_true, decide_eq_true_eq, decide_eq_true_eq]
    omega
  rw [Env.storeWrite_isFull, hall, Bool.and_true]
  obtain rfl | rfl := hkind <;> rfl

/-- A release store follows what it releases, and has no place in the write queue before. -/
theorem Env.storeWrite_release {kind : WKind} (hkind : kind = .strl) (sec home : Nat) (l : List (Nat × Byte × Nat)) :
    let w := e.storeWrite va kind sc hn sec home l
    w.till = e.t.lastW ∧ w.after = e.s.m.notTogether (e.s.leaseOf? e.who e.g.ctx (lineOf sec)) (e.releaseIds sc) ∧
      (e.s.anyOutstanding w.after = true ∨ e.s.now < w.till → w.ord = 0) := by
  subst hkind
  obtain ⟨mask, data, pri, full, heq⟩ := Env.storeWrite_eq (e := e) (va := va) (sc := sc) (hn := hn) .strl sec home l
  intro w
  rw [show w = _ from heq]
  refine ⟨rfl, rfl, fun hlate => if_pos ?_⟩
  rw [Bool.or_eq_true, Bool.or_eq_true, decide_eq_true_eq]
  exact .inl hlate

/-! Reductions. -/

/-- The write of a reduction. -/
def Env.redWrite (e : Env) (va : DWord) (kind : WKind) (n : Nat) (sc : Scope) (r : Range) (x : DWord) : WEnt :=
  let ia := r.ia va
  { e.newWrite va (secOf ia) (r.home ia) r.msa kind sc false [] 0 ((List.range n).map (ia % 32 + ·)) with
    state := .queued, ops := [(ia % 32, x)] }

/-- The state in which a reduction has sent its operand, its core's copy of the sector gone. -/
def Env.redSent (e : Env) (sec : Nat) (w : WEnt) : State :=
  ({ e.s with nextId := e.s.nextId + 2, m := e.s.m.dropCopies e.g.ctx sec 32 (· == e.g.core) } : State).setWrites (· ++ [w])

theorem Env.reduce_plain {kind : WKind} {n : Nat} {x : DWord} (hp : e.plain (e.ea a b) n .rmw r) (hcycle : ∀ x ∈ e.s.m.writes, x.cycle ≠ e.s.now) :
    let sec := secOf (r.ia (e.ea a b))
    e.reduce kind n sc a b x = if e.mustQueue [sec] then .wait else .done (e.redSent sec (e.redWrite (e.ea a b) kind n sc r x)) := by
  intro sec
  simp only [Env.reduce, hp.plainAt]
  split
  · rfl
  · split
    · next y hfind =>
      have hjoin := List.find?_some hfind
      simp only [WEnt.joins, WEnt.sameBundle, Bool.and_eq_true, beq_iff_eq, and_assoc] at hjoin
      exact absurd hjoin.1 (hcycle y (List.mem_of_find?_eq_some hfind))
    · rfl

theorem red_result {i : Instr} {kind : WKind} {n : Nat} {x : Env → DWord} (hr : e.runs i)
    (hx : exec i e.s = threadOp i (fun e => e.reduce kind n sc a b (x e)) e.s) (hp : e.plain ((e.at_ i).ea a b) n .rmw r)
    (hcycle : ∀ x ∈ e.s.m.writes, x.cycle ≠ e.s.now) :
    let sec := secOf (r.ia ((e.at_ i).ea a b))
    (e.mustQueue [sec] = true → e.leaves i e.s (Thread.waitIssue e.s.now)) ∧
    (e.mustQueue [sec] = false → ∃ s w, e.retires i s ∧ e.s.sameBytes s ∧
      s.m.writes = e.s.m.writes ++ [w] ∧ w.id = e.s.nextId ∧ w.who = e.who ∧ w.lanes.map (fun l => (l.who, l.va)) = [(e.who, (e.at_ i).ea a b)] ∧
      w.ctx = e.g.ctx ∧ w.kind = kind ∧ w.sc = sc ∧ w.ia = sec ∧ w.home = r.home (r.ia ((e.at_ i).ea a b)) ∧
      w.ops = [(r.ia ((e.at_ i).ea a b) % 32, x (e.at_ i))]) := by
  intro sec
  have hplain := Env.reduce_plain (kind := kind) (sc := sc) (x := x (e.at_ i)) (hp.at_ i) hcycle
  have hqueue := Env.mustQueue_at_ e i [sec]
  have hwho := Env.who_at_ e i
  refine ⟨fun hq => threadOp_wait _ hx hr (hplain.trans (if_pos (hqueue.trans hq))), fun hq => ⟨_, _,
    threadOp_done _ hx hr (hplain.trans (if_neg (by rw [hqueue, hq]; decide))), sameBytes_iff.2 rfl, rfl, rfl, hwho, ?_, rfl, rfl, rfl, rfl, rfl, rfl⟩⟩
  show [((e.at_ i).who, (e.at_ i).ea a b)] = _
  rw [hwho]

/-- A store that is sent, by the fields of its write. -/
theorem stored_result {i : Instr} {kind : WKind} {l : List (Nat × Byte × Nat)} {sec home : Nat}
    (hr : e.retires i ((e.at_ i).stored hn sec ((e.at_ i).storeWrite va kind sc hn sec home l))) {P : WEnt → Prop}
    (hP : P ((e.at_ i).storeWrite va kind sc hn sec home l)) : ∃ s w, e.retires i s ∧ e.s.sameBytes s ∧
      s.m.writes = e.s.m.writes ++ [w] ∧ w.id = e.s.nextId ∧ w.who = e.who ∧ w.lanes.map (fun l => (l.who, l.va)) = [(e.who, va)] ∧
      w.ctx = e.g.ctx ∧ w.kind = kind ∧ w.sc = sc ∧ w.ia = sec ∧ w.home = home ∧ P w := by
  have hwho := Env.who_at_ e i
  obtain ⟨mask, data, pri, full, heq⟩ := Env.storeWrite_eq (e := e.at_ i) (va := va) (sc := sc) (hn := hn) kind sec home l
  refine ⟨_, _, hr, sameBytes_iff.2 rfl, rfl, ?_, ?_, ?_, ?_, ?_, ?_, ?_, ?_, hP⟩
  all_goals rw [heq]
  · rfl
  · exact hwho
  · show [((e.at_ i).who, va)] = _
    rw [hwho]
  all_goals rfl

/-- Settles O19: a store, a pzap and a reduction to base memory send one write each, by its fields. -/
theorem storeIssue : Obligations.StoreIssue := by
  unfold Obligations.StoreIssue
  intro e h sc hn z a b c hcycle ia sent holds
  refine ⟨fun q hq hr r hp => ?store, fun hr r hp => ?pzap, fun op ty hr r hp => red_result hr rfl hp hcycle, fun op hr r hp => red_result hr rfl hp hcycle⟩
  case store =>
    have hx : exec q.1 e.s = threadOp q.1 (fun e => e.store h q.2 sc hn z a b c) e.s := by
      simp only [List.mem_cons, List.not_mem_nil, or_false] at hq
      obtain rfl | rfl := hq <;> rfl
    have hplain := Env.store_plain (h := h) (c := c) (k := q.2) (sc := sc) (hn := hn) (hp.at_ q.1) hcycle
    have hqueue := Env.mustQueue_at_ e q.1 [secOf (ia q.1 r)]
    refine ⟨fun htest => threadOp_wait _ hx hr (hplain.trans (if_pos ?_)), fun htest => ⟨fun hfull => threadOp_wait _ hx hr (hplain.trans (if_pos ?_)),
      fun hroom => stored_result (threadOp_done _ hx hr (hplain.trans (if_neg ?_))) ⟨?_, fun hrel => ?_⟩⟩⟩
    · rw [Bool.or_eq_true]
      exact .inl htest
    · rw [Bool.or_eq_true, hqueue]
      exact .inr hfull
    · rw [hqueue, hroom, Bool.or_false]
      exact ne_true_of_eq_false htest
    · have hdvd := bytes_dvd_32 z
      have hia : ia q.1 r % z.bytes = 0 := hp.ia_mod (hdvd.trans (by decide))
      exact Env.storeWrite_holds (e := e.at_ q.1) q.2 _ _ (fits_sector hdvd hia) _
    · obtain ⟨htill, hafter, hord⟩ := Env.storeWrite_release (e := e.at_ q.1) (va := (e.at_ q.1).ea a b) (sc := sc) (hn := hn) hrel
        (secOf (ia q.1 r)) (r.home (ia q.1 r)) (placed (ia q.1 r % 32) z.bytes ((e.at_ q.1).data z c))
      refine ⟨htill.trans (Env.lastW_at_ ..), fun hlease => hafter.trans ?_, hord⟩
      rw [Env.who_at_, Env.s_at_, Env.g_at_, lineOf_secOf, hlease, Env.releaseIds_at_]
      rfl
  case pzap =>
    obtain ⟨hwait, hsent⟩ := execPzap_plain rfl hr hp hcycle
    refine ⟨hwait, fun hroom => stored_result (hsent hroom) ⟨?_, Env.storeWrite_full (.inr rfl) _ _ rfl 0⟩⟩
    exact Env.storeWrite_holds (e := e.at_ _) .pzap _ _ (Nat.le_refl 32) 0

end Sys2Proof.Machine
end

section
/-! SUPPORT. A sector of a read is served (R114, R115, R134, R136). -/

namespace Sys2Proof.Machine

variable {s : State} {r : RReq} {k : Nat} {x : RSec} {f : Xl}

/-! What the slice does. -/

theorem State.serveRead_flight (s : State) (n : Need) (f : Xl) (hn : Hint) (composed : Bool) :
    (s.serveRead n f hn composed).1.m.flight = s.m.flight := by
  unfold State.serveRead
  dsimp only
  rw [State.hostVisit_flight]
  have hgrant : (if (!composed && hn != .byp) = true then s.m.grantTen n.serving f.key (s.tenureTill n f hn) else s.m).flight = s.m.flight := by
    split <;> rfl
  show Mem.flight (if _ then _ else _) = _
  split
  · exact hgrant
  · rw [Mem.install_flight, hgrant]

/-- What a read of a sector needs of the slice that serves it. -/
def RReq.needOf (r : RReq) (x : RSec) : Need :=
  { ctx := r.ctx, master := r.ctx, ia := x.ia, home := x.home, die := dieOf r.who.core, atHome := false
    acc := if r.kind == .pref then .prefetch else .read, n := 32, who := some r.who, place := x.queued, id := r.id, keeps := true }

/-- A sector that was served. -/
def State.gotSec (s : State) (f : Xl) (till : Nat) (r : RReq) (x : RSec) : RSec :=
  { x with got := some (s.readSec (some r.who) r.id r.ctx x.ia f), till := till, queued := none }

/-- The read of a lane with its sector served, in a state that holds it. -/
structure State.Served (s s' : State) (r : RReq) (k ia : Nat) (f : Xl) : Prop where
  stores : s'.m.stores = s.m.stores
  got : ∃ r' x', s'.read? r.id = some r' ∧ r'.secs[k]? = some x' ∧ r'.who = r.who ∧ r'.ctx = r.ctx ∧ x'.ia = ia ∧
    x'.got = some (s.readSec (some r.who) r.id r.ctx ia f)

theorem State.read?_id {s : State} {id : Nat} {r : RReq} (h : s.read? id = some r) : r.id = id := by
  simpa using List.find?_some h

theorem State.read?_modRead_self {s : State} {id : Nat} {r : RReq} {g : RReq → RReq} (h : s.read? id = some r) (hg : ∀ r, (g r).id = r.id) :
    (s.modRead id g).read? id = some (g r) := by
  have hmap : (s.modRead id g).read? id = (s.read? id).map fun r => if r.id == id then g r else r :=
    find?_map_key RReq.id _ (fun r => by split <;> simp [hg]) id s.m.reads
  rw [hmap, h, Option.map_some, State.read?_id h]
  simp

theorem RReq.setSec_self {g : RSec → RSec} (h : r.secs[k]? = some x) : (r.setSec k g).secs[k]? = some (g x) := by
  show (r.secs.modify k g)[k]? = _
  rw [List.getElem?_modify_eq, h]
  rfl

/-- One lane's read takes the sector. -/
theorem State.served_step {s s' : State} {till : Nat} {r' : RReq} {x' : RSec} (hstores : s'.m.stores = s.m.stores) (hread : s'.read? r.id = some r')
    (hsec : r'.secs[k]? = some x') (hwho : r'.who = r.who) (hctx : r'.ctx = r.ctx) :
    s.Served (s'.modRead r.id fun q => q.setSec k (s.gotSec f till q)) r k x'.ia f := by
  refine ⟨hstores, _, _, State.read?_modRead_self hread fun _ => rfl, RReq.setSec_self hsec, hwho, hctx, rfl, ?_⟩
  rw [State.gotSec, hwho, hctx, State.read?_id hread]

/-- Every lane of a bundle that is one read, however often it stands in the queue. -/
theorem State.served_lanes {s s' : State} {till : Nat} {l : List ReadLane} (hne : l ≠ []) (hl : ∀ q ∈ l, q = (r, k))
    (hstores : s'.m.stores = s.m.stores) (hread : s'.read? r.id = some r) (hsec : r.secs[k]? = some x) :
    s.Served (l.foldl (fun s' q => s'.modRead q.1.id fun r => r.setSec q.2 (s.gotSec f till r)) s') r k x.ia f := by
  have hkeep (l : List ReadLane) (hl : ∀ q ∈ l, q = (r, k)) (s' : State) (h : s.Served s' r k x.ia f) :
      s.Served (l.foldl (fun s' q => s'.modRead q.1.id fun r => r.setSec q.2 (s.gotSec f till r)) s') r k x.ia f := by
    induction l generalizing s' with
    | nil => exact h
    | cons q l ih =>
      obtain rfl := hl q List.mem_cons_self
      obtain ⟨hst, r', x', hr, hx, hwho, hctx, hia, -⟩ := h
      exact ih (fun q hq => hl q (List.mem_cons_of_mem _ hq)) _ (hia ▸ State.served_step hst hr hx hwho hctx)
  obtain ⟨q, l, rfl⟩ := List.exists_cons_of_ne_nil hne
  obtain rfl := hl q List.mem_cons_self
  exact hkeep l (fun q hq => hl q (List.mem_cons_of_mem _ hq)) _ (State.served_step hstores hread hsec rfl rfl)

/-- Lanes of one read may all ask, and the slice serves them. -/
theorem readLanes_served {l : List ReadLane} (hne : l ≠ []) (hl : ∀ q ∈ l, q = (r, k)) (hread : s.read? r.id = some r)
    (hsec : r.secs[k]? = some x) (hgot : x.got = none) (hretry : x.retry = 0) (hrmw : s.m.rmwBefore r.who r.id r.ctx x.ia = false)
    (hrd : s.m.readBefore r.who r.id r.ctx x.ia = false) (hlog : s.loggedPage r.who.core r.ctx x.ia = false)
    (hgate : s.gate (r.needOf x) = .go f) : s.Served (s.readLanes l) r k x.ia f := by
  have hflight := s.serveRead_flight (r.needOf x) f r.hint r.composed
  have hasks : l.all s.laneAsks = true := List.all_eq_true.2 fun q hq => by
    rw [hl q hq]
    simp [State.laneAsks, ReadLane.sec?, hsec, hgot, hretry, State.loadWaits, hrmw, hrd]
  have hlanes : s.readLanes l = l.foldl (fun s' q => s'.modRead q.1.id fun r' => r'.setSec q.2
      (s.gotSec f (s.serveRead (r.needOf x) f r.hint r.composed).2 r')) (s.serveRead (r.needOf x) f r.hint r.composed).1 := by
    obtain ⟨q, l, rfl⟩ := List.exists_cons_of_ne_nil hne
    obtain rfl := hl q List.mem_cons_self
    have hplace : ReadLane.sec? (r, k) = some x := hsec
    unfold RReq.needOf at hgate
    unfold State.readLanes
    simp only [hplace, hasks, hlog, hgate]
    rfl
  rw [hlanes]
  refine State.served_lanes hne hl (congrArg Prod.fst hflight) ?_ hsec
  have hreads : (s.serveRead (r.needOf x) f r.hint r.composed).1.m.reads = s.m.reads := congrArg (fun p => p.2.1) hflight
  rw [State.read?, hreads]
  exact hread

/-! The composer. -/

/-- Who holds a lease on the line meets it at the slice. -/
theorem gate_ne_go_of_own {n : Need} {l : LeaseEnt} (h : s.ownLease? n = some l) : s.gate n ≠ .go f := by
  intro hgo
  simp only [State.gate, h] at hgo
  split at hgo
  · nomatch hgo
  · split at hgo
    · nomatch hgo
    · split at hgo
      · nomatch hgo
      · split at hgo
        · nomatch hgo
        · cases hx : s.xlate n.home n.ctx n.ia <;> simp only [hx] at hgo <;> nomatch hgo

theorem leaseOf?_none_of_go {n : Need} {w : Who} (hw : n.who = some w) (h : s.gate n = .go f) : s.leaseOf? w n.ctx (lineOf n.ia) = none := by
  cases hl : s.leaseOf? w n.ctx (lineOf n.ia) with
  | none => rfl
  | some l =>
    have hmem := List.mem_of_find?_eq_some hl
    have hheld := List.find?_some hl
    have hown : (s.ownLease? n).isSome = true := by
      rw [State.ownLease?, List.find?_isSome]
      refine ⟨l, hmem, ?_⟩
      simp only [Who.same, Bool.and_eq_true, beq_iff_eq] at hheld
      simp [hw, Who.same, hheld]
    obtain ⟨l', hl'⟩ := Option.isSome_iff_exists.1 hown
    exact absurd h (gate_ne_go_of_own hl')

/-- A list of one element, however often it stands there. -/
theorem eraseDups_of_all_eq {l : List Nat} {a : Nat} (hne : l ≠ []) (h : ∀ b ∈ l, b = a) : l.eraseDups = [a] := by
  obtain ⟨b, l, rfl⟩ := List.exists_cons_of_ne_nil hne
  obtain rfl := h b List.mem_cons_self
  have hnil : l.filter (fun c => !c == b) = [] := List.filter_eq_nil_iff.2 fun c hc => by simp [h c (List.mem_cons_of_mem _ hc)]
  rw [List.eraseDups_cons, hnil]
  rfl

/-- The lanes of a bundle that want a sector of a controller (R208). -/
def State.composeLanes (s : State) (r : RReq) (c : RSec) (p : RReq → RSec → Bool) : List ReadLane :=
  (s.m.reads.filter r.bundled).flatMap fun q => q.secs.zipIdx.filterMap fun x =>
    if (x.1.got.isNone && (x.1.home, ctrlOf x.1.ia) == (c.home, ctrlOf c.ia)) && p q x.1 then some (q, x.2) else none

def State.lessee (s : State) (q : RReq) (x : RSec) : Bool := (s.leaseOf? q.who q.ctx (lineOf x.ia)).isSome

theorem execViewCompose_eq {c : RSec} (hread : s.read? r.id = some r) (hview : r.view = true) (hc : r.secs.find? (·.got.isNone) = some c) :
    exec (.viewCompose r.id) s = .next
      ((((s.composeLanes r c fun q x => !s.lessee q x).filterMap fun q => q.sec?.map (·.ia)).eraseDups).foldl
        (fun s' ia => s'.readLanes (s'.composeLanes r c fun q x => x.ia == ia && !s.lessee q x))
        ((s.composeLanes r c s.lessee).foldl (fun s q => s.readLanes [q]) s)) := by
  simp only [exec, execViewCompose, hread, hc, hview]
  rfl

section
variable (hall : ∀ q ∈ s.m.reads, r.bundled q = true → q = r) (hsec : r.secs[k]? = some x) (hgot : x.got = none)
  (hothers : ∀ j y, r.secs[j]? = some y → j ≠ k → y.got ≠ none)
include hsec hgot hothers

/-- The one sector that is not read yet. -/
theorem missing_sector : r.secs.find? (·.got.isNone) = some x := by
  refine find?_unique (List.mem_of_getElem? hsec) (by rw [hgot]; rfl) fun y hy hnone => ?_
  obtain ⟨j, hj⟩ := List.mem_iff_getElem?.1 hy
  by_cases hjk : j = k
  · subst hjk
    exact Option.some_inj.1 (hj.symm.trans hsec)
  · exact absurd (Option.isNone_iff_eq_none.1 hnone) (hothers j y hj hjk)

include hall

theorem mem_composeLanes {p : RReq → RSec → Bool} {q : ReadLane} (hq : q ∈ s.composeLanes r x p) : q = (r, k) ∧ p r x = true := by
  obtain ⟨q', hq', hlane⟩ := List.mem_flatMap.1 hq
  obtain ⟨hmem, hbundle⟩ := List.mem_filter.1 hq'
  obtain rfl := hall q' hmem hbundle
  obtain ⟨⟨y, j⟩, hy, hsome⟩ := List.mem_filterMap.1 hlane
  have hj : q'.secs[j]? = some y := List.mem_zipIdx_iff_getElem?.1 hy
  split at hsome
  · next hcond =>
    simp only [Bool.and_eq_true, Option.isNone_iff_eq_none] at hcond
    obtain ⟨⟨hnone, -⟩, hp⟩ := hcond
    obtain rfl : j = k := by_contra fun hjk => hothers j y hj hjk hnone
    obtain rfl : y = x := Option.some_inj.1 (hj.symm.trans hsec)
    exact ⟨(Option.some_inj.1 hsome).symm, hp⟩
  · exact absurd hsome (by simp)

omit hall hothers in
theorem composeLanes_ne_nil {p : RReq → RSec → Bool} (hmem : r ∈ s.m.reads) (hview : r.view = true) (hp : p r x = true) :
    s.composeLanes r x p ≠ [] := by
  have hbundle : r.bundled r = true := by simp [RReq.bundled, hview]
  have hlane : (r, k) ∈ s.composeLanes r x p := List.mem_flatMap.2 ⟨r, List.mem_filter.2 ⟨hmem, hbundle⟩,
    List.mem_filterMap.2 ⟨(x, k), List.mem_zipIdx_iff_getElem?.2 hsec, by simp [hgot, hp]⟩⟩
  exact List.ne_nil_of_mem hlane

/-- The composer of a bundle that is one read serves it alone. -/
theorem execViewCompose_alone (hread : s.read? r.id = some r) (hview : r.view = true) (hlease : s.lessee r x = false) :
    ∃ l : List ReadLane, l ≠ [] ∧ (∀ q ∈ l, q = (r, k)) ∧ exec (.viewCompose r.id) s = .next (s.readLanes l) := by
  have hlessee : s.composeLanes r x s.lessee = [] := List.eq_nil_iff_forall_not_mem.2 fun q hq =>
    Bool.false_ne_true (hlease.symm.trans (mem_composeLanes hall hsec hgot hothers hq).2)
  have hmem := List.mem_of_find?_eq_some hread
  have hplace : ReadLane.sec? (r, k) = some x := hsec
  have hwant : ((s.composeLanes r x fun q x => !s.lessee q x).filterMap fun q => q.sec?.map (·.ia)).eraseDups = [x.ia] := by
    refine eraseDups_of_all_eq ?_ fun ia hia => ?_
    · obtain ⟨q, hq⟩ := List.exists_mem_of_ne_nil _ (composeLanes_ne_nil (p := fun q x => !s.lessee q x) hsec hgot hmem hview (by simp [hlease]))
      obtain ⟨rfl, -⟩ := mem_composeLanes hall hsec hgot hothers hq
      exact List.ne_nil_of_mem (List.mem_filterMap.2 ⟨_, hq, by rw [hplace, Option.map_some]⟩)
    · obtain ⟨q, hq, hia⟩ := List.mem_filterMap.1 hia
      obtain ⟨rfl, -⟩ := mem_composeLanes hall hsec hgot hothers hq
      rw [hplace, Option.map_some] at hia
      exact (Option.some_inj.1 hia).symm
  refine ⟨s.composeLanes r x fun q y => y.ia == x.ia && !s.lessee q y, composeLanes_ne_nil hsec hgot hmem hview (by simp [hlease]),
    fun q hq => (mem_composeLanes hall hsec hgot hothers hq).1, ?_⟩
  rw [execViewCompose_eq hread hview (missing_sector hsec hgot hothers), hwant, hlessee]
  rfl

end

/-! What a sector holds as its reader sees it. -/

theorem readSec_none {w : Who} {id ctx sec : Nat} (h : s.ownWrites w id ctx sec = []) :
    s.readSec (some w) id ctx sec f = (s.m.bytesAt f.sec 32, s.m.poisonedAt f.sec) := by
  simp only [State.readSec, h]
  rfl

theorem readSec_one {w : Who} {id ctx sec : Nat} {e : WEnt} (h : s.ownWrites w id ctx sec = [e]) :
    s.readSec (some w) id ctx sec f = (maskWrite e.mask e.data (s.m.bytesAt f.sec 32), s.m.poisonedAt f.sec && !e.full) := by
  simp only [State.readSec, h]
  rfl

/-- A request for a sector is served, alone or by the composer. -/
theorem read_served (hread : s.read? r.id = some r) (hsec : r.secs[k]? = some x) (hgot : x.got = none) (hretry : x.retry = 0)
    (hothers : ∀ j y, r.secs[j]? = some y → j ≠ k → y.got ≠ none)
    (hrmw : s.m.rmwBefore r.who r.id r.ctx x.ia = false) (hrd : s.m.readBefore r.who r.id r.ctx x.ia = false)
    (hlog : s.loggedPage r.who.core r.ctx x.ia = false) (hall : r.view = true → ∀ q ∈ s.m.reads, r.bundled q = true → q = r)
    (hgate : s.gate (r.needOf x) = .go f) :
    ∃ s', exec (if r.view then .viewCompose r.id else .homeReadRequest r.id k) s = .next s' ∧ s.Served s' r k x.ia f := by
  have hserve {l : List ReadLane} (hne : l ≠ []) (hl : ∀ q ∈ l, q = (r, k)) :=
    readLanes_served hne hl hread hsec hgot hretry hrmw hrd hlog hgate
  cases hview : r.view with
  | true =>
    have hlease : s.lessee r x = false := (congrArg Option.isSome (leaseOf?_none_of_go (n := r.needOf x) rfl hgate) :)
    obtain ⟨l, hne, hl, hx⟩ := execViewCompose_alone (hall hview) hsec hgot hothers hread hview hlease
    exact ⟨_, hx, hserve hne hl⟩
  | false =>
    refine ⟨s.readLanes [(r, k)], ?_, hserve (by simp) (by simp)⟩
    simp [exec, execHomeReadRequest, hread, hview, State.readAt]

end Sys2Proof.Machine
end

section
/-! SUPPORT. The thread of a request (R253), and a load that delivers its data (R119, R120, R122, R137). -/

namespace Sys2Proof.Machine

variable {s : State} {w : Who} {t : Thread}

/-! The thread of a request. -/

/-- Workgroups that are changed each in its place. -/
theorem State.wg?_of_map {s s' : State} {f : Workgroup → Workgroup} (h : s'.wgs = s.wgs.map f) (hf : ∀ g, (f g).core = g.core ∧ (f g).slot = g.slot)
    (c k : Nat) : s'.wg? c k = (s.wg? c k).map f := by
  rw [State.wg?, h, List.find?_map, State.wg?]
  congr 2
  funext g
  simp [hf g]

/-- The request's workgroup is in its slot, and its thread is t. -/
structure State.Reader (s : State) (w : Who) (t : Thread) : Prop where
  lives : s.lives w = true
  thread : s.thread? w.core w.slot w.tid = some t

theorem State.Reader.of_wg {g : Workgroup} (hg : s.wg? w.core w.slot = some g) (huid : g.uid = w.uid) (ht : g.thread? w.tid = some t) :
    s.Reader w t := by
  refine ⟨?_, ?_⟩
  · rw [State.lives, hg]
    exact beq_iff_eq.2 huid
  · rw [State.thread?, hg]
    exact ht

theorem State.Reader.of_wgs {s s' : State} (h : s.Reader w t) (hw : s'.wgs = s.wgs) : s'.Reader w t := by
  obtain ⟨hlives, hthread⟩ := h
  refine ⟨?_, (State.thread?_congr hw ..).trans hthread⟩
  rwa [State.lives, State.wg?, hw]

theorem lives_of_map {s s' : State} {f : Workgroup → Workgroup} (h : s'.wgs = s.wgs.map f)
    (hf : ∀ g, (f g).core = g.core ∧ (f g).slot = g.slot ∧ (f g).uid = g.uid) : s'.lives w = s.lives w := by
  rw [State.lives, State.wg?_of_map h (fun g => ⟨(hf g).1, (hf g).2.1⟩), State.lives]
  cases s.wg? w.core w.slot with
  | none => rfl
  | some g => simp [(hf g).2.2]

theorem State.Reader.modThread (h : s.Reader w t) {f : Thread → Thread} (hf : ∀ t, (f t).tid = t.tid) :
    (s.modThread w.core w.slot w.tid f).Reader w (f t) := by
  obtain ⟨hlives, hthread⟩ := h
  refine ⟨(lives_of_map rfl fun g => ?_).trans hlives, ?_⟩
  · split <;> exact ⟨rfl, rfl, rfl⟩
  · rw [State.thread?_modThread _ _ _ _ _ hf, hthread]
    rfl

theorem State.Reader.mod (h : s.Reader w t) {f : Thread → Thread} (hf : ∀ t, (f t).tid = t.tid) : (s.mod w f).Reader w (f t) := by
  rw [State.mod, if_pos h.lives]
  exact h.modThread hf

theorem State.letGo_eq (s : State) (w : Who) (id : Nat) : ∃ f : Thread → Thread, s.letGo w id = s.mod w f ∧ (∀ t, (f t).tid = t.tid) ∧
    ∀ t, t.run = .runnable → f t = t := by
  refine ⟨_, rfl, fun t => ?_, fun t hrun => ?_⟩
  · split <;> rfl
  · rw [hrun]
    rfl

/-- A thread that no request holds goes on as it is. -/
theorem State.Reader.letGo (h : s.Reader w t) (hrun : t.run = .runnable) (id : Nat) : (s.letGo w id).Reader w t := by
  obtain ⟨f, hx, htid, hf⟩ := s.letGo_eq w id
  have hmod := h.mod htid
  rwa [hf t hrun, ← hx] at hmod

/-- The registers that awaited a request are free. -/
def Thread.untag (id : Nat) (t : Thread) : Thread :=
  { t with v := t.v.map fun c => if c.tag == id then { c with tag := 0, ready := 0 } else c, wbusy := t.wbusy.filter (·.tag != id) }

theorem State.Reader.releaseTag (h : s.Reader w t) (id : Nat) : (s.releaseTag w id).Reader w (t.untag id) := by
  have hmod := h.modThread (f := Thread.untag id) fun _ => rfl
  let f (g : Workgroup) : Workgroup := if g.core == w.core && g.slot == w.slot then { g with w := g.w.map (Shared.drop id w.tid) } else g
  have hf (g : Workgroup) : (f g).core = g.core ∧ (f g).slot = g.slot ∧ (f g).uid = g.uid ∧ (f g).threads = g.threads := by
    dsimp only [f]
    split <;> exact ⟨rfl, rfl, rfl, rfl⟩
  have hx : s.releaseTag w id = { s.modThread w.core w.slot w.tid (Thread.untag id) with
      wgs := (s.modThread w.core w.slot w.tid (Thread.untag id)).wgs.map f } := by
    rw [State.releaseTag, h.lives]
    rfl
  rw [hx]
  refine ⟨(lives_of_map rfl fun g => ⟨(hf g).1, (hf g).2.1, (hf g).2.2.1⟩).trans hmod.lives, ?_⟩
  have hthread := hmod.thread
  rw [State.thread?] at hthread ⊢
  rw [State.wg?_of_map rfl fun g => ⟨(hf g).1, (hf g).2.1⟩]
  cases hg : (s.modThread w.core w.slot w.tid (Thread.untag id)).wg? w.core w.slot with
  | none => simp [hg] at hthread
  | some g =>
    rw [hg] at hthread
    have hsame : (f g).thread? w.tid = g.thread? w.tid := by rw [Workgroup.thread?, (hf g).2.2.2, Workgroup.thread?]
    exact hsame.trans hthread

/-- A late trap of a thread that runs. -/
theorem State.Reader.lateTrap (h : s.Reader w t) (hrun : t.run = .runnable) (ctx cause : Nat) (faddr : DWord) (ia kind : Nat) :
    ∃ t', (s.lateTrap w ctx cause faddr ia kind).Reader w t' ∧ (s.lateTrap w ctx cause faddr ia kind).m = s.m ∧
      t'.tcause = cause ∧ t'.run = .trapPending ∧ t'.taddr = w.pc ∧ t'.faddr = faddr := by
  have hx : ∃ pc : Thread → DWord, s.lateTrap w ctx cause faddr ia kind = s.modThread w.core w.slot w.tid fun t =>
      ((t.trap cause 0 w.pc faddr (pc t)).inLine true) (s.ctx ctx).state := by
    refine ⟨fun t => if t.issued == w.issued then w.pc else t.pc, ?_⟩
    simp only [State.lateTrap, h.thread]
    exact if_neg (by rw [h.lives, hrun]; decide)
  obtain ⟨pc, hx⟩ := hx
  have hline (t : Thread) : (t.inLine true (s.ctx ctx).state).tid = t.tid ∧ (t.inLine true (s.ctx ctx).state).tcause = t.tcause ∧
      (t.inLine true (s.ctx ctx).state).run = t.run ∧ (t.inLine true (s.ctx ctx).state).taddr = t.taddr ∧
      (t.inLine true (s.ctx ctx).state).faddr = t.faddr := by
    unfold Thread.inLine
    split <;> exact ⟨rfl, rfl, rfl, rfl, rfl⟩
  obtain ⟨-, hcause, hpend, htaddr, hfaddr⟩ := hline (t.trap cause 0 w.pc faddr (pc t))
  rw [hx]
  exact ⟨_, h.modThread fun t => (hline _).1, rfl, hcause, hpend, htaddr, hfaddr⟩

/-! A load's data. -/

variable {r : RReq} {z : Size} {sx : Bool} {d : Nat} {acq : Bool}

/-- A fill changes the sector cache alone. -/
theorem State.fill_cache (s : State) (core ctx sec home : Nat) (hn : Hint) (till : Nat) :
    ∃ cache, s.fill core ctx sec home hn till = { s with m := { s.m with cache := cache } } := by
  unfold State.fill
  dsimp only
  split
  · exact ⟨_, rfl⟩
  · exact ⟨_, rfl⟩

theorem State.fillAll_keeps (s : State) (r : RReq) : (s.fillAll r).wgs = s.wgs ∧ (s.fillAll r).m.stores = s.m.stores := by
  have hfold := foldl_keeps (fun s => (s.wgs, s.m.stores)) (fun (s : State) (x : RSec) =>
      if s.now < x.till then s.fill r.who.core r.ctx x.ia x.home r.hint x.till else s) (fun s x => by
    split
    · obtain ⟨cache, hfill⟩ := s.fill_cache r.who.core r.ctx x.ia x.home r.hint x.till
      rw [hfill]
      rfl
    · rfl) r.secs s
  exact Prod.ext_iff.1 hfold

theorem execLoadDataReturn_load (hread : s.read? r.id = some r) (hkind : r.kind = .load z sx d acq) (hfar : r.far = none)
    (hgot : r.secs.all (·.got.isSome) = true) (hheld : r.held = false) (hfill : s.canFill r = true) :
    exec (.loadDataReturn r.id) s = .next ((s.fillAll r).finishLoad r z sx d acq) := by
  simp only [exec, execLoadDataReturn, hread, hgot, hheld, hfill, hfar, State.finishRead, hkind]
  rfl

/-- The words of a load, each with its poison. -/
def RReq.words (r : RReq) (z : Size) (sx : Bool) : List (Word × Bool) := loadRegs z sx (r.bytes.map r.byteOf)

theorem finishLoad_traps (hkind : r.kind = .load z sx d acq) (h : (acq && (r.words z sx).any (·.2)) = true) :
    s.finishLoad r z sx d acq = (((s.dropRead r.id).letGo r.who r.id).releaseTag r.who r.id).lateTrap r.who r.ctx 5 r.va
      ((secsOf r.bytes).headD 0) 0 := by
  unfold State.finishLoad State.failRead
  rw [hkind]
  exact if_pos h

theorem finishLoad_delivers (h : (acq && (r.words z sx).any (·.2)) = false) (hlives : ((s.dropRead r.id).letGo r.who r.id).lives r.who = true) :
    s.finishLoad r z sx d acq = (r.words z sx).zipIdx.foldl (fun s q => s.deliver r.who.core r.who.slot r.who.tid (.v (d + q.2)) q.1.1 q.1.2)
      ((s.dropRead r.id).letGo r.who r.id) := by
  unfold State.finishLoad
  refine (if_neg (by rw [Bool.not_eq_true]; exact h)).trans (if_neg (by rw [hlives]; decide))

/-- A word of the load is poisoned. -/
theorem words_any (hlen : r.bytes.length = z.bytes) :
    (r.words z sx).any (·.2) = true ↔ ∃ k < z.group, loadPoison (r.bytes.map r.byteOf) k = true := by
  have hlen' : (r.bytes.map r.byteOf).length = z.bytes := by rw [List.length_map, hlen]
  rw [List.any_eq_true]
  constructor
  · rintro ⟨q, hq, hp⟩
    obtain ⟨k, hk⟩ := List.mem_iff_getElem?.1 hq
    have hlt : k < z.group := loadRegs_length z sx _ ▸ (List.getElem?_eq_some_iff.1 hk).1
    obtain rfl := Option.some_inj.1 (hk.symm.trans (loadRegs_getElem? hlen' sx hlt))
    exact ⟨k, hlt, hp⟩
  · rintro ⟨k, hlt, hp⟩
    exact ⟨_, List.mem_of_getElem? (loadRegs_getElem? hlen' sx hlt), hp⟩

theorem loadPoison_byteOf (r : RReq) (k : Nat) :
    loadPoison (r.bytes.map r.byteOf) k = (((r.bytes.map fun b => (r.byteOf b).2).drop (4 * k)).take 4).any id := by
  simp only [loadPoison, ← List.map_drop, ← List.map_take, List.any_map]
  rfl

/-- The thread and the requests after a load has delivered its data, or trapped. -/
theorem finishLoad_result (hread : s.Reader r.who t) (hrun : t.run = .runnable) (hkind : r.kind = .load z sx d acq)
    (hlen : r.bytes.length = z.bytes) : ∃ t', (s.finishLoad r z sx d acq).thread? r.who.core r.who.slot r.who.tid = some t' ∧
      (s.finishLoad r z sx d acq).m = (s.dropRead r.id).m ∧
      (acq = true → (∃ k < z.group, loadPoison (r.bytes.map r.byteOf) k = true) →
        t'.tcause = 5 ∧ t'.run = .trapPending ∧ t'.taddr = r.who.pc ∧ t'.faddr = r.va) ∧
      (acq = false ∨ (∀ k < z.group, loadPoison (r.bytes.map r.byteOf) k = false) → t' = t.loads d (r.words z sx)) := by
  have hgone : ((s.dropRead r.id).letGo r.who r.id).Reader r.who t := (hread.of_wgs (s' := s.dropRead r.id) rfl).letGo hrun r.id
  have hany := words_any (r := r) (z := z) (sx := sx) hlen
  cases htrap : acq && (r.words z sx).any (·.2) with
  | true =>
    obtain ⟨hacq, hbad⟩ := Bool.and_eq_true_iff.1 htrap
    obtain ⟨t', hreader, hm, hcause, hpend, htaddr, hfaddr⟩ := (hgone.releaseTag r.id).lateTrap hrun r.ctx 5 r.va ((secsOf r.bytes).headD 0) 0
    rw [finishLoad_traps hkind htrap]
    refine ⟨t', hreader.thread, hm.trans ?_, fun _ _ => ⟨hcause, hpend, htaddr, hfaddr⟩, fun hclean => ?_⟩
    · rw [State.releaseTag_m, State.letGo_m]
    · obtain ⟨k, hk, hp⟩ := hany.1 hbad
      rcases hclean with hfree | hclean
      · exact absurd (hacq.symm.trans hfree) (by decide)
      · exact absurd (hp.symm.trans (hclean k hk)) (by decide)
  | false =>
    rw [finishLoad_delivers htrap hgone.lives]
    refine ⟨t.loads d (r.words z sx), ?_, ?_, fun hacq hbad => ?_, fun _ => rfl⟩
    · rw [thread?_deliver_zipIdx, hgone.thread]
      rfl
    · exact (foldl_m _ (fun s _ => State.deliver_m s _ _ _ _ _ _) _ _).trans (State.letGo_m ..)
    · rw [hacq, hany.2 hbad] at htrap
      exact absurd htrap (by decide)

/-- Settles O18: the sector that a lane takes; the thread after the words of a load, or its late trap. -/
theorem loadCompletion : Obligations.LoadCompletion := by
  refine ⟨fun s r k x f hread hsec hgot hretry hothers hrmw hrd hlog hall hgate => ?served,
    fun s r g t z sx d acq hread hkind hfar hgot hheld hfill hg huid ht hrun hlen hfit => ?data⟩
  case served =>
    have hneed : s.gate (r.needOf x) = .go f := by
      rw [← hgate, RReq.needOf]
      congr 2
      exact if_congr beq_iff_eq rfl rfl
    obtain ⟨s', hx, hstores, r', x', hread', hsec', -, -, -, hgot'⟩ :=
      read_served hread hsec hgot hretry hothers hrmw hrd hlog hall hneed
    refine ⟨s', r', x', hx, sameBytes_iff.2 hstores, hread', hsec', hgot', fun hnone => ?_, fun w hone => ?_⟩
    · rw [hgot', readSec_none hnone]
      rfl
    · rw [hgot', readSec_one hone]
      exact ⟨_, rfl, fun j hj => maskWrite_getD hj _ _ _ 0⟩
  case data =>
    intro bs bad
    have hbad (k : Nat) : loadPoison (r.bytes.map r.byteOf) k = bad k := loadPoison_byteOf r k
    obtain ⟨hwgs, hstores⟩ := s.fillAll_keeps r
    have hreader := (State.Reader.of_wg hg huid ht).of_wgs hwgs
    obtain ⟨t', hthread, hm, htrap, hdata⟩ := finishLoad_result hreader hrun hkind hlen
    simp only [hbad] at htrap hdata
    refine ⟨_, t', execLoadDataReturn_load hread hkind hfar hgot hheld hfill, hthread, fun y hy => ?_, htrap, fun hclean => ?_⟩
    · rw [hm] at hy
      simpa using (List.mem_filter.1 hy).2
    · obtain rfl := hdata hclean
      have hwords : (r.words z sx).length = z.group := loadRegs_length ..
      refine ⟨sameBytes_iff.2 ((congrArg Mem.stores hm).trans hstores), ?_, fun n hn => Thread.loads_other t (by rwa [hwords]), fun k hk => ?_⟩
      · rw [Thread.loads_eq]
      · have hreg := loadRegs_getElem? (bs := r.bytes.map r.byteOf) (by rw [List.length_map, hlen]) sx hk
        refine (Thread.loads_getD t hreg (by omega)).trans ?_
        have hbs : (r.bytes.map r.byteOf).map (·.1) = bs := List.map_map
        rw [hbad, hbs]
        cases bad k
        · cases z <;> rfl
        · rfl

end Sys2Proof.Machine
end

section
/-! SUPPORT. Granules of the operands of an entry opcode, its checks and its entry (R110, R187-R190). -/

namespace Sys2Proof.Machine

variable {e : Env} {kg : KSel} {kn d : Nat} {op : MOp} {c : Option Nat}

/-! Granules. -/

/-- A granule holds a byte of the operands. -/
def granNamed (l : List (Nat × Nat)) (k : Nat) : Prop := ∃ o ∈ l, o.1 < 1024 * (k + 1) ∧ 1024 * k < o.1 + o.2

/-- A list of granules without repetition is those that the operands name. -/
structure Covers (l : List Nat) (refs : List (Nat × Nat)) : Prop where
  mem : ∀ k, k ∈ l ↔ granNamed refs k
  nodup : l.Nodup

theorem granNamed_one {off n k : Nat} : granNamed [(off, n)] k ↔ off < 1024 * (k + 1) ∧ 1024 * k < off + n := by
  simp [granNamed]

theorem mem_granulesOf {off n k : Nat} (hn : 0 < n) : k ∈ granulesOf off n ↔ granNamed [(off, n)] k := by
  have hne : ¬(n == 0) = true := by simp; omega
  rw [granulesOf, if_neg hne, List.mem_map, granNamed_one]
  constructor
  · rintro ⟨j, hj, rfl⟩
    rw [List.mem_range] at hj
    omega
  · intro hk
    exact ⟨k - off / 1024, List.mem_range.2 (by omega), by omega⟩

theorem covers_none : Covers [] [] := ⟨fun k => by simp [granNamed], List.nodup_nil⟩

theorem covers_granulesOf (off : Nat) {n : Nat} (hn : 0 < n) : Covers (granulesOf off n) [(off, n)] := by
  refine ⟨fun k => mem_granulesOf hn, ?_⟩
  unfold granulesOf
  split
  · exact List.nodup_nil
  · exact List.nodup_range.map (fun a b h => Nat.add_left_cancel h)

theorem mem_unionN {a b : List Nat} {k : Nat} : k ∈ unionN a b ↔ k ∈ a ∨ k ∈ b := by
  unfold unionN
  induction b generalizing a with
  | nil => simp
  | cons x b ih =>
    rw [List.foldl_cons, ih]
    by_cases hx : a.contains x = true
    · have hmem : x ∈ a := by simpa using hx
      rw [if_pos hx, List.mem_cons]
      constructor
      · rintro (h | h)
        · exact .inl h
        · exact .inr (.inr h)
      · rintro (h | rfl | h)
        · exact .inl h
        · exact .inl hmem
        · exact .inr h
    · rw [if_neg hx, List.mem_append, List.mem_singleton, List.mem_cons, or_assoc]

theorem nodup_unionN {a b : List Nat} (h : a.Nodup) : (unionN a b).Nodup := by
  unfold unionN
  induction b generalizing a with
  | nil => exact h
  | cons x b ih =>
    rw [List.foldl_cons]
    split
    · exact ih h
    · next hx =>
      have hmem : x ∉ a := by simpa using hx
      exact ih (List.nodup_append.2 ⟨h, List.nodup_singleton x, fun y hy z hz => by
        obtain rfl := List.mem_singleton.1 hz
        exact fun hyz => hmem (hyz ▸ hy)⟩)

theorem granNamed_append {l l' : List (Nat × Nat)} {k : Nat} : granNamed (l ++ l') k ↔ granNamed l k ∨ granNamed l' k := by
  simp [granNamed, or_and_right, exists_or]

theorem Covers.union {a b : List Nat} {l l' : List (Nat × Nat)} (ha : Covers a l) (hb : Covers b l') : Covers (unionN a b) (l ++ l') :=
  ⟨fun k => by rw [mem_unionN, ha.mem, hb.mem, granNamed_append], nodup_unionN ha.nodup⟩

theorem ownedAt_free {g : Workgroup} {off n : Nat} (hn : 0 < n) (h : ∀ k, granNamed [(off, n)] k → (g.gran.getD k {}).owned = false) :
    g.ownedAt off n = false :=
  List.any_eq_false.2 fun k hk => by
    rw [Bool.not_eq_true]
    exact h k ((mem_granulesOf hn).1 hk)

/-- A change made once for each granule of a list without repetition is made once of each. -/
theorem getD_foldl_modify (f : Gran → Gran) {l : List Nat} (hl : l.Nodup) (q : List Gran) {k : Nat} (hk : k < q.length) :
    (l.foldl (fun q k => q.modify k f) q).getD k {} = if k ∈ l then f (q.getD k {}) else q.getD k {} := by
  induction l generalizing q with
  | nil => rfl
  | cons j l ih =>
    obtain ⟨hj, hl⟩ := List.nodup_cons.1 hl
    have hget : (q.modify j f).getD k {} = if j = k then f (q.getD k {}) else q.getD k {} := by
      simp only [List.getD_eq_getElem?_getD, List.getElem?_modify, List.getElem?_eq_getElem hk]
      split <;> rfl
    rw [List.foldl_cons, ih hl _ (by rwa [List.length_modify]), hget]
    by_cases hjk : j = k
    · subst hjk
      simp [hj]
    · simp [hjk, Ne.symm hjk]

theorem raiseRef_gran (g : Workgroup) {l : List Nat} (hl : l.Nodup) {k : Nat} (hk : k < g.gran.length) : (g.raiseRef l).gran.getD k {} =
    if k ∈ l then { g.gran.getD k {} with ref := (g.gran.getD k {}).ref + 1 } else g.gran.getD k {} :=
  getD_foldl_modify (fun x => { x with ref := x.ref + 1 }) hl g.gran hk

/-! Checks. -/

/-- The operands lie in the allocation and are aligned. -/
def Env.fits (e : Env) (l : List (Nat × Nat × Nat)) : Prop := ∀ o ∈ l, o.1 % o.2.1 = 0 ∧ o.1 + o.2.2 ≤ e.g.tile.length

def opnds (l : List (Nat × Nat × Nat)) : List TOpnd := l.map fun o => ⟨o.1, o.2.1, o.2.2⟩

theorem badOpnd_none {l : List (Nat × Nat × Nat)} (h : e.fits l) : e.g.badOpnd (opnds l) = none := by
  have hrange : (opnds l).find? (fun o => decide (e.g.tile.length < o.off + o.n)) = none := List.find?_eq_none.2 fun o ho => by
    obtain ⟨q, hq, rfl⟩ := List.mem_map.1 ho
    have hfit := (h q hq).2
    simpa using hfit
  have halign : (opnds l).find? (fun o => o.off % o.al != 0) = none := List.find?_eq_none.2 fun o ho => by
    obtain ⟨q, hq, rfl⟩ := List.mem_map.1 ho
    simp [(h q hq).1]
  rw [Workgroup.badOpnd, hrange]
  simp only [halign]

theorem badOpnd_out {off al n : Nat} (h : e.g.tile.length < off + n) : e.g.badOpnd [⟨off, al, n⟩] = some (4, off) := by
  simp [Workgroup.badOpnd, h]

theorem badOpnd_misaligned {off al n : Nat} (h : off + n ≤ e.g.tile.length) (hm : off % al ≠ 0) : e.g.badOpnd [⟨off, al, n⟩] = some (3, off) := by
  have hin : ¬e.g.tile.length < off + n := by omega
  simp [Workgroup.badOpnd, hin, hm]

theorem Env.entry_on {l : List TOpnd} {x y : Nat} {rest : Unit → Res} (h : e.g.badOpnd l = none) (hk : e.kGuard kg kn d x y = true) :
    e.entry l kg kn d x y rest = rest () := by
  simp [Env.entry, h, hk]

theorem Env.entry_off {l : List TOpnd} {x y : Nat} {rest : Unit → Res} (h : e.g.badOpnd l = none) (hk : e.kGuard kg kn d x y = false) :
    e.entry l kg kn d x y rest = .done e.s := by
  simp [Env.entry, h, hk]

theorem Env.kGuard_at_ (e : Env) (i : Instr) (kg : KSel) (kn d x y : Nat) : (e.at_ i).kGuard kg kn d x y = e.kGuard kg kn d x y := by
  simp only [Env.kGuard, Env.tid_at_, Env.g_at_, Env.s_at_]

theorem Env.scaleA_at_ (e : Env) (i : Instr) (n : Nat) : (e.at_ i).scaleA n = e.scaleA n := by
  simp only [Env.scaleA, Env.tid_at_, Env.g_at_, Env.s_at_]

theorem Env.scaleB_at_ (e : Env) (i : Instr) (n : Nat) : (e.at_ i).scaleB n = e.scaleB n := by
  simp only [Env.scaleB, Env.tid_at_, Env.g_at_, Env.s_at_]

/-! The entry. -/

/-- The entry that an entry opcode puts into the table, at an index of it. -/
def Env.newEnt (e : Env) (k : Nat) (op : MOp) (d : Nat) (after : Option Nat) (ref : List Nat) : MEnt :=
  { core := e.g.core, idx := k, ord := e.s.e.nextOrd, slot := e.g.slot, ctx := e.g.ctx, tid := e.t.tid, uid := e.g.uid
    issued := e.t.issued + 1, pc := e.t.pc, cls := (e.g.mcls.readOwn e.s.now e.t.tid keyCls).1, raised := 0, issue := e.s.now
    eligible := none, op := op, d := d, after := after.map fun c => (c, (e.g.c.getD c {}).done), group := none, ref := ref
    granted := none, drun := none }

def Env.entered (e : Env) (q : MEnt) (ref : List Nat) : State :=
  { e.s.modWg e.g.core e.g.slot (fun g => g.raiseRef ref) with
    e := { e.s.e with entries := e.s.e.entries ++ [q], nextOrd := e.s.e.nextOrd + 1 } }

theorem Env.enter_room {k : Nat} {l : List Nat} (hk : e.s.e.freeIdx e.g.core = some k) (hroom : e.g.refRoom l = true) :
    e.enter op d c l = .done (e.entered (e.newEnt k op d c l) l) := by
  simp only [Env.enter, hk, hroom]
  rfl

/-- What an entry opcode does once its operands are checked: nothing where its k guard is 0, else its entry. -/
def Env.putsEntry (e : Env) (i : Instr) (kg : KSel) (kn d x y : Nat) (c : Option Nat) (refs : List (Nat × Nat)) (op : MOp) : Prop :=
  (e.kGuard kg kn d x y = false → e.retires i e.s) ∧
  (e.kGuard kg kn d x y = true → (e.s.e.freeIdx e.g.core).isSome = true → (∀ k, granNamed refs k → (e.g.gran.getD k {}).ref < 255) →
    ∃ s q g, e.retires i s ∧ e.s.sameBytes s ∧ s.e.entries = e.s.e.entries ++ [q] ∧ q.op = op ∧ q.d = d ∧ q.core = e.g.core ∧
      q.slot = e.g.slot ∧ q.ctx = e.g.ctx ∧ q.tid = e.t.tid ∧ q.pc = e.t.pc ∧ q.issue = e.s.now ∧ q.group = none ∧ q.granted = none ∧
      q.cls = (e.g.mcls.readOwn e.s.now e.t.tid keyCls).1 ∧ q.raised = 0 ∧
      (∀ m ∈ e.s.e.entries, m.core = e.g.core → m.idx ≠ q.idx) ∧ q.after = c.map (fun k => (k, (e.g.c.getD k {}).done)) ∧
      e.wg s = some g ∧ g.tile = e.g.tile ∧ g.acc = e.g.acc ∧
      ∀ k < e.g.gran.length, (granNamed refs k → g.gran.getD k {} = { e.g.gran.getD k {} with ref := (e.g.gran.getD k {}).ref + 1 }) ∧
        (¬granNamed refs k → g.gran.getD k {} = e.g.gran.getD k {}))

theorem putsEntry_of {i : Instr} {body : Env → Res} {x y : Nat} {l : List Nat} {refs : List (Nat × Nat)} (hr : e.runs i)
    (hx : exec i e.s = threadOp i body e.s) (hl : Covers l refs) (hoff : e.kGuard kg kn d x y = false → body (e.at_ i) = .done e.s)
    (hon : e.kGuard kg kn d x y = true → body (e.at_ i) = (e.at_ i).enter op d c l) : e.putsEntry i kg kn d x y c refs op := by
  refine ⟨fun hk => threadOp_done _ hx hr (hoff hk), fun hk hfree hroom => ?_⟩
  obtain ⟨j, hj⟩ := Option.isSome_iff_exists.1 hfree
  have hrefs : e.g.refRoom l = true := List.all_eq_true.2 fun k hkl => decide_eq_true (hroom k ((hl.mem k).1 hkl))
  have htid := Env.tid_at_ e i
  refine ⟨_, (e.at_ i).newEnt j op d c l, e.g.raiseRef l, threadOp_done _ hx hr ((hon hk).trans (Env.enter_room hj hrefs)), sameBytes_of_m rfl, rfl, rfl,
    rfl, rfl, rfl, rfl, htid, Env.pc_at_ e i, rfl, rfl, rfl, ?_, rfl, fun m hm hcore hidx => ?_, rfl,
    hr.issues.wg?_modWg (f := fun g => g.raiseRef l) fun _ => ⟨rfl, rfl⟩, rfl, rfl, fun k hklen => ?_⟩
  · show (e.g.mcls.readOwn e.s.now (e.at_ i).t.tid keyCls).1 = _
    rw [htid]
  · have hnone := List.find?_some hj
    rw [Bool.not_eq_true', List.any_eq_false] at hnone
    exact hnone m hm (by rw [hcore, hidx]; simp [Env.newEnt])
  · rw [raiseRef_gran e.g hl.nodup hklen]
    exact ⟨fun hn => if_pos ((hl.mem k).2 hn), fun hn => if_neg fun h => hn ((hl.mem k).1 h)⟩


/-- The shape of the entry opcodes: the checks, the k guard, the entry. -/
theorem putsEntry_of_entry {i : Instr} {body : Env → Res} {x y : Nat} {l : List Nat} {refs : List (Nat × Nat)} {ops : List (Nat × Nat × Nat)}
    {rest : Unit → Res} (hr : e.runs i) (hx : exec i e.s = threadOp i body e.s) (hfits : e.fits ops) (hl : Covers l refs)
    (hbody : body (e.at_ i) = (e.at_ i).entry (opnds ops) kg kn d x y rest) (hrest : rest () = (e.at_ i).enter op d c l) :
    e.putsEntry i kg kn d x y c refs op := by
  have hfit : (e.at_ i).g.badOpnd (opnds ops) = none := badOpnd_none hfits
  refine putsEntry_of hr hx hl (fun hk => ?_) fun hk => ?_ <;> rw [← Env.kGuard_at_ e i] at hk
  · exact hbody.trans (Env.entry_off hfit hk)
  · exact (hbody.trans (Env.entry_on hfit hk)).trans hrest

/-- The traps of an opcode with one 8192-byte operand, range first (R121). -/
theorem entry_traps {i : Instr} {body : Env → Res} {x : Nat} {rest : Unit → Res} (hr : e.runs i) (hx : exec i e.s = threadOp i body e.s)
    (hbody : body (e.at_ i) = (e.at_ i).entry [⟨x, 8192, 8192⟩] kg kn d x 0 rest) :
    (e.g.tile.length < x + 8192 → e.traps i 4 0 (BitVec.ofNat 64 x) e.t.pc) ∧
    (x + 8192 ≤ e.g.tile.length → x % 8192 ≠ 0 → e.traps i 3 0 (BitVec.ofNat 64 x) e.t.pc) := by
  have htrap {k : Nat} (hbad : e.g.badOpnd [⟨x, 8192, 8192⟩] = some (k, x)) :
      body (e.at_ i) = .trap k 0 (BitVec.ofNat 64 x) false := by
    rw [hbody, Env.entry, Env.g_at_, hbad]
  exact ⟨fun h => threadOp_trap _ hx hr (htrap (badOpnd_out h)), fun h hm => threadOp_trap _ hx hr (htrap (badOpnd_misaligned h hm))⟩

/-! The opcodes. -/

theorem lbytes_eq (fmt : LFmt) : lbytes fmt = if fmt = .f32 then 4 else 2 := by cases fmt <;> rfl

theorem sbytes_eq (fmt : SFmt) : sbytes fmt = if fmt = .f32 then 4 else if fmt = .e4m3 then 1 else 2 := by cases fmt <;> rfl

theorem clip_eq (n : Nat) : clip n = if n = 0 ∨ 64 < n then 64 else n := by simp [clip]

theorem lbytes_pos (fmt : LFmt) : 0 < 4096 * lbytes fmt := by cases fmt <;> decide

theorem sbytes_pos (fmt : SFmt) : 0 < 4096 * sbytes fmt := by cases fmt <;> decide

/-- The input of a descriptor within its limits has a byte. -/
theorem Unfold.bytes_pos {u : Unfold} {fmt : MFmt} (hok : u.ok fmt = true) : 0 < u.bytes fmt := by
  simp only [Unfold.ok, Unfold.inRange, Bool.and_eq_true, decide_eq_true_eq] at hok
  have hm : 0 < mbytes fmt := by cases fmt <;> decide
  have hh : 0 < u.h := by omega
  have hw : 0 < u.w := by omega
  have hc : 0 < u.c := by omega
  exact Nat.mul_pos (Nat.mul_pos (Nat.mul_pos hh hw) hc) hm

/-- The offset in an operand of an entry opcode. -/
def Env.srcOff (e : Env) (i : Instr) (q : Src) : Nat := ((e.at_ i).src q).toNat

theorem tmma_putsEntry {h : Hdr} {fmt : MFmt} {sn : Nat} {a b : Src} {i : Instr} (hi : i = .tmma h fmt sn kg kn d a b c) (hr : e.runs i)
    (hfits : e.fits [(e.srcOff i a, 8192, 8192), (e.srcOff i b, 8192, 8192)]) :
    e.putsEntry i kg kn d (e.srcOff i a) (e.srcOff i b) c [(e.srcOff i a, 8192), (e.srcOff i b, 8192)]
      (.mma fmt (e.srcOff i a) (e.srcOff i b) (e.scaleA sn) (e.scaleB sn)) := by
  rw [← Env.scaleA_at_ e i, ← Env.scaleB_at_ e i]
  subst hi
  exact putsEntry_of_entry hr rfl hfits ((covers_granulesOf _ (by decide)).union (covers_granulesOf _ (by decide))) rfl rfl

/-- tmmau reads its descriptor before the k guard (log 80): where no engine owns it and it is well formed, the rest is as for tmma. -/
theorem tmmau_putsEntry {h : Hdr} {fmt : MFmt} {sn : Nat} {a b : Src} {i : Instr} {u : Unfold} (hi : i = .tmmau h fmt sn kg kn d a b c)
    (hu : u = unfoldOf (slice e.g.tile (e.srcOff i a) 32)) (hfree : e.g.ownedAt (e.srcOff i a) 32 = false) (hok : u.ok fmt = true)
    (hr : e.runs i) (hfits : e.fits [(e.srcOff i a, 32, 32), (e.srcOff i b, 8192, 8192), (u.off, 32, u.bytes fmt)]) :
    e.putsEntry i kg kn d (e.srcOff i a) (e.srcOff i b) c [(u.off, u.bytes fmt), (e.srcOff i b, 8192)]
      (.mmau fmt (slice e.g.tile (e.srcOff i a) 32) (e.g.tileNum (e.srcOff i a) 32).2 (e.srcOff i b) (e.scaleA sn) (e.scaleB sn)) := by
  have hfirst : e.g.badOpnd [⟨e.srcOff i a, 32, 32⟩, ⟨e.srcOff i b, 8192, 8192⟩] = none :=
    badOpnd_none (l := [(e.srcOff i a, 32, 32), (e.srcOff i b, 8192, 8192)]) fun o ho => hfits o (List.mem_append_left [_] ho)
  have hinput : e.fits [(u.off, 32, u.bytes fmt)] := fun o ho => hfits o (List.mem_append_right [_, _] ho)
  have hcov := (covers_granulesOf u.off (Unfold.bytes_pos hok)).union (covers_granulesOf (e.srcOff i b) (n := 8192) (by decide))
  rw [← Env.scaleA_at_ e i, ← Env.scaleB_at_ e i]
  subst hi hu
  refine putsEntry_of_entry (rest := fun _ => _) hr rfl hinput hcov ?_ rfl
  simp only [Env.srcOff] at hfirst hfree hok ⊢
  simp only [Env.g_at_, hfirst, hfree, hok]
  rfl

theorem tperm_putsEntry {h : Hdr} {fmt : HFmt} {a b : Src} {i : Instr} (hi : i = .tperm h fmt kg kn d a b c)
    (hfree : e.g.ownedAt (e.srcOff i b) 64 = false) (hr : e.runs i) (hfits : e.fits [(e.srcOff i a, 8192, 8192), (e.srcOff i b, 64, 64)]) :
    e.putsEntry i kg kn d (e.srcOff i a) (e.srcOff i b) c [(e.srcOff i a, 8192)]
      (.perm fmt (e.srcOff i a) (slice e.g.tile (e.srcOff i b) 64) ((List.range 64).map fun k => (e.g.tileNum (e.srcOff i b + k) 1).2)) := by
  subst hi
  exact putsEntry_of_entry hr rfl hfits (covers_granulesOf _ (by decide)) rfl (if_neg (by rw [Bool.not_eq_true]; exact hfree))

theorem tlda_putsEntry {h : Hdr} {fmt : LFmt} {a : Src} {i : Instr} (hi : i = .tlda h fmt kg kn d a c) (hr : e.runs i)
    (hfits : e.fits [(e.srcOff i a, 32, 4096 * lbytes fmt)]) :
    e.putsEntry i kg kn d (e.srcOff i a) 0 c [(e.srcOff i a, 4096 * lbytes fmt)] (.lda fmt (e.srcOff i a)) := by
  subst hi
  exact putsEntry_of_entry hr rfl hfits (covers_granulesOf _ (lbytes_pos fmt)) rfl rfl

theorem tsta_putsEntry {h : Hdr} {fmt : SFmt} {sn : Nat} {a b : Src} {i : Instr} (hi : i = .tsta h fmt sn kg kn d a b c) (hr : e.runs i)
    (hfits : e.fits [(e.srcOff i a, 32, 4096 * sbytes fmt)]) :
    e.putsEntry i kg kn d (e.srcOff i a) (e.srcOff i b) c [(e.srcOff i a, 4096 * sbytes fmt)]
      (.sta fmt (e.srcOff i a) (clip (e.srcOff i b % 128)) (clip (e.srcOff i b / 256 % 128)) (e.scaleB sn)) := by
  rw [← Env.scaleB_at_ e i]
  subst hi
  exact putsEntry_of_entry hr rfl hfits (covers_granulesOf _ (sbytes_pos fmt)) rfl rfl

/-- Settles O40: each opcode is its checks, its k guard and its entry (`putsEntry_of_entry`); REF of the granules named is raised once
(`raiseRef_gran`). -/
theorem matrixEntryIssue : Obligations.MatrixEntryIssue := by
  unfold Obligations.MatrixEntryIssue
  intro e h kg kn d sn a b c off fits names enters noUnit
  refine ⟨fun fmt hr hfits => tmma_putsEntry rfl hr hfits,
    fun fmt hfree hok hr hfits => tmmau_putsEntry rfl rfl (ownedAt_free (by decide) hfree) hok hr hfits,
    fun fmt hfree hr hfits => tperm_putsEntry rfl (ownedAt_free (by decide) hfree) hr hfits,
    fun fmt hr hfits => putsEntry_of_entry hr rfl hfits (covers_granulesOf _ (by decide)) rfl rfl,
    fun fmt col hr hfits => putsEntry_of_entry hr rfl hfits (covers_granulesOf _ (by decide)) rfl rfl,
    fun hr hfits => putsEntry_of_entry hr rfl hfits covers_none rfl rfl,
    fun fmt => ?_, fun fmt => ?_, fun fmt i hi hr => ?_⟩
  · rw [← lbytes_eq]
    exact fun hr hfits => tlda_putsEntry rfl hr hfits
  · simp only [← sbytes_eq, ← clip_eq]
    exact fun hr hfits => tsta_putsEntry rfl hr hfits
  · simp only [List.mem_cons, List.not_mem_nil, or_false] at hi
    rcases hi with rfl | rfl | rfl
    · exact entry_traps hr rfl rfl
    · exact entry_traps hr rfl rfl
    · exact entry_traps hr rfl rfl

end Sys2Proof.Machine
end
